-- ==== Sys2Proof/Word.lean ====
section
/-! DEFINITION. The words the device's registers, lines and frames are made of. Bit 0 is the least significant bit
of any field and multi-byte values are little-endian (R4). -/

namespace Sys2Proof

abbrev Byte := BitVec 8
abbrev U16 := BitVec 16
abbrev U32 := BitVec 32
abbrev U64 := BitVec 64
/-- One 64-byte line of the companion link, or one mirror line. -/
abbrev Line := BitVec 512
/-- A 128-byte tensor descriptor (R54). -/
abbrev Desc := BitVec 1024
/-- A room instruction word (R199). -/
abbrev RoomWord := BitVec 256

end Sys2Proof
end

