-- ==== Sys2Proof/Machine/Tbl.lean ====
section
/-! DEFINITION. Tables by key, byte memories in canonical form, bit fields and byte order: the plain data everything
else is held in. -/

namespace Sys2Proof

/-- A table: every key not listed holds the reader's default. Keys rise strictly when built by `Tbl.set`. -/
abbrev Tbl (α : Type) := List (Nat × α)

/-- What key `k` holds; `d` where `k` is not listed. -/
def Tbl.get {α : Type} (d : α) : Tbl α → Nat → α
  | [], _ => d
  | (j, v) :: t, k => if j = k then v else Tbl.get d t k

/-- The table with `v` at key `k`. -/
def Tbl.set {α : Type} : Tbl α → Nat → α → Tbl α
  | [], k, v => [(k, v)]
  | (j, w) :: t, k, v =>
    if k < j then (k, v) :: (j, w) :: t
    else if k = j then (k, v) :: t
    else (j, w) :: Tbl.set t k v

/-- The table without key `k`. -/
def Tbl.erase {α : Type} (t : Tbl α) (k : Nat) : Tbl α := t.filter fun e => e.1 != k

/-- Is key `k` listed? -/
def Tbl.has {α : Type} (t : Tbl α) (k : Nat) : Bool := t.any fun e => e.1 == k

/-- What key `k` is listed with, if it is. -/
def Tbl.find {α : Type} : Tbl α → Nat → Option α
  | [], _ => none
  | (j, v) :: t, k => if j = k then some v else Tbl.find t k

/-- The table with every key in `[lo, hi)` taken out. -/
def Tbl.dropRange {α : Type} (t : Tbl α) (lo hi : Nat) : Tbl α :=
  t.filter fun e => e.1 < lo || hi ≤ e.1

/-- A byte memory: a list of (address, byte), addresses strictly rising, no entry equal to what an unlisted address
reads as (the function `d` of its reader). -/
abbrev Mem := List Host.Cell

/-- The byte at `a`; an unlisted address reads as `d a`. -/
def Mem.read (d : Nat → Byte) (m : Mem) (a : Nat) : Byte := Tbl.get (d a) m a

/-- The memory with byte `v` at `a`, in canonical form. -/
def Mem.write (d : Nat → Byte) (m : Mem) (a : Nat) (v : Byte) : Mem :=
  if v = d a then Tbl.erase m a else Tbl.set m a v

/-- The canonical form of a byte memory. -/
abbrev Mem.wf (d : Nat → Byte) (m : Mem) : Prop :=
  m.Pairwise (fun x y => x.1 < y.1) ∧ ∀ e ∈ m, e.2 ≠ d e.1

/-- Memories whose every unlisted byte is zero: the larder, the accumulator and transposing buffers. -/
def zeroByte (_ : Nat) : Byte := 0

/-- `w` bits of `x` from bit `lo` up. -/
def bits {n : Nat} (x : BitVec n) (lo w : Nat) : BitVec w := x.extractLsb' lo w

/-- The number that `w` bits of `x` from bit `lo` up hold. -/
def field {n : Nat} (x : BitVec n) (lo w : Nat) : Nat := (x.extractLsb' lo w).toNat

/-- One bit of `x` as a truth value. -/
def flag {n : Nat} (x : BitVec n) (i : Nat) : Bool := x.getLsbD i

/-- `x` with its `w` bits from bit `lo` up replaced by `v`. -/
def putBits {n : Nat} (x : BitVec n) (lo : Nat) {w : Nat} (v : BitVec w) : BitVec n :=
  (x &&& ~~~ (((BitVec.allOnes w).setWidth n) <<< lo)) ||| ((v.setWidth n) <<< lo)

/-- `x` with the field of width `w` at bit `lo` holding the number `v` modulo 2^w. -/
def putField {n : Nat} (x : BitVec n) (lo w v : Nat) : BitVec n := putBits x lo (BitVec.ofNat w v)

/-- A truth value as a bit. -/
def bit1 (b : Bool) : BitVec 1 := if b then 1 else 0

/-- A truth value as the number 0 or 1. -/
def bnat (b : Bool) : Nat := if b then 1 else 0

/-- `n` bytes of the number `v`, least significant first (R4). -/
def leBytes : Nat → Nat → List Byte
  | 0, _ => []
  | n + 1, v => BitVec.ofNat 8 v :: leBytes n (v / 256)

/-- The number a little-endian byte string holds (R4). -/
def ofLe : List Byte → Nat
  | [] => 0
  | b :: t => b.toNat + 256 * ofLe t

/-- The bytes of a bit vector, byte 0 first. -/
def bytesOf {n : Nat} (x : BitVec n) : List Byte := leBytes (n / 8) x.toNat

/-- A word read from a little-endian byte string. -/
def wordOf (n : Nat) (bs : List Byte) : BitVec n := BitVec.ofNat n (ofLe bs)

/-- The numbers `lo, lo+1, …, lo+n-1`. -/
def countUp : Nat → Nat → List Nat
  | _, 0 => []
  | lo, n + 1 => lo :: countUp (lo + 1) n

/-- The numbers `0 … n-1`, ascending. -/
def upTo (n : Nat) : List Nat := countUp 0 n

/-- Does a list of bytes hold nothing but zeros? -/
def allZero (bs : List Byte) : Bool := bs.all (· == 0)

/-- Lists of bytes padded with zeros to a length. -/
def padTo (n : Nat) (bs : List Byte) : List Byte := (bs ++ List.replicate (n - bs.length) 0).take n

/-- Sign extension of the low `w` bits of a number. -/
def signed (w : Nat) (v : Nat) : Int := (BitVec.ofNat w v).toInt

/-- Two's complement of `w` bits. -/
def ofInt (w : Nat) (v : Int) : BitVec w := BitVec.ofInt w v

/-- `x` raised to at most `w` bits' largest number. -/
def saturate (w : Nat) (v : Nat) : BitVec w := BitVec.ofNat w (min v (2 ^ w - 1))

/-- Element `i` of a list of words, zero beyond its end. -/
def nth (l : List Nat) (i : Nat) : Nat := l.getD i 0

/-- The list with element `i` replaced (unchanged beyond its end). -/
def setNth {α : Type} (l : List α) (i : Nat) (v : α) : List α := l.set i v

/-- Fold over `0 … n-1`. -/
def loop {σ : Type} (n : Nat) (s : σ) (f : σ → Nat → σ) : σ := (upTo n).foldl f s

end Sys2Proof
end

