-- ==== Sys2Proof/Syntax.lean ====
section
/-! DEFINITION. The commands of the device: one constructor per row of the opcode table. A command stands for what its
row names: a frame or an edge at a ball, a dictionary request, a flit of the companion link, a frame of a peer port, a
step of an engine of the device, or an interval that has run out. -/

namespace Sys2Proof

/-- Which master class a dictionary request comes from, and over which path (R392). -/
inductive Src where
  | tray
  | companion (box : BitVec 4)
  | tenant (p : BitVec 2)
  | test
deriving DecidableEq, Repr

/-- A frame of a peer port (R281): its header, its payload and its trailer. -/
structure PeerFrame where
  hdr : BitVec 128
  payload : List Byte
  trl : BitVec 128
deriving DecidableEq, Repr

/-- The flit that carries a message of the companion link (R318): its FRAME and ACK, whether a further message of the same flit follows
(DEDUCED, log 33), and what the link has XORed into its bytes. -/
structure Flit where
  frame : U16
  ack : U16
  more : Bool
  noise : List (BitVec 8 × BitVec 8) := []
deriving DecidableEq, Repr

/-- A message of a TYPE that R319 does not define. -/
structure StrayMessage where
  flit : Flit
  typ : BitVec 5
deriving DecidableEq, Repr

/-- An error that strikes a stored code word: what it XORs into a beat of a stack (by address / 32: 32 data bytes, then the four check
bytes), into the stored tag of a granule, into a word of an atrium line or of a buffer entry (R307: 79 bits) or of other on-chip
memory; or a correction that the stack itself makes (0x9020) (R307 to R310). -/
inductive Flaw where
  | beat (n : BitVec 43) (err : BitVec 288)
  | tag (granule : BitVec 40) (err : U64)
  | onDie (granule : BitVec 40)
  | line (granule : BitVec 40) (word : BitVec 5) (err : BitVec 79)
  | buffer (granule : BitVec 40) (word : BitVec 5) (err : BitVec 79)
  | other (err : BitVec 79)
deriving DecidableEq, Repr

/-- A word of a room's memories: its 64-byte sector, entry or instruction word (R17, R310). -/
inductive RoomPlace where
  | larder (sector : BitVec 15)
  | accumulator (sector : BitVec 12)
  | transposing (sector : BitVec 11)
  | attic (entry : BitVec 12)
  | imem (word : BitVec 11)
deriving DecidableEq, Repr

/-- An error in a word of a room's memories, met as an instruction word issues: its place, and what is XORed into the 79 bits stored
(R307, R310). -/
structure RoomCheck where
  place : RoomPlace
  err : BitVec 79
deriving DecidableEq, Repr

/-- The atomic operations of R302 with their widths. -/
inductive AtKind where
  | addI32 | addI64 | addF32 | addF64 | addS16
  | minF32 | minF64 | minS16 | minI32 | minI64
  | maxF32 | maxF64 | maxS16 | maxI32 | maxI64
  | cas32 | cas64
deriving DecidableEq, Repr

/-- An atomic, and whether its requester asks for the old value (R302). -/
structure AtomicOp where
  kind : AtKind
  fetch : Bool
deriving DecidableEq, Repr

/-- A port of R303: an atrium bank port (64 × base die + bank) with the requests present at the decision and the beats that the
winner's transfer has moved, or the egress of a peer port, whose requests are the frames that wait there. -/
inductive ArbPort where
  | bank (n : BitVec 8) (req : BitVec 8) (beats : BitVec 8)
  | egress (n : BitVec 4)
deriving DecidableEq, Repr

/-- The engines of a room whose accesses the scoreboard counts (R61). -/
inductive Engine where
  | matrix | vector | row | load | store
deriving DecidableEq, Repr

/-- A firmware image (R345): its 128-byte header, the vendor's public key, the signature and the body. -/
structure FwImage where
  header : BitVec 1024
  vendorKey : List Byte
  sig : List Byte
  body : List Byte
deriving DecidableEq, Repr

/-- The start of a firmware image: the image, and the generation at which B2 trains the companion link at best, 0 where that fails (R317). -/
structure FwStart where
  img : FwImage
  gen : BitVec 2
deriving DecidableEq, Repr

/-- One regulator's answer in a poll of the PMBus ports (R383): its READ_EOUT accumulator in µJ, and every 10 ms its
voltage, current and temperature. No answer is `none`. -/
structure RegReading where
  reg : BitVec 4
  eout : Option U32
  telemetry : Option (U16 × U16 × U16)
deriving DecidableEq, Repr

/-- What MBIST names (R459): the memories of a room, of a base die, or a controller memory. -/
inductive DbgMem where
  | room (n : BitVec 7)
  | baseDie (n : BitVec 2)
  | control (n : BitVec 8)
deriving DecidableEq, Repr

/-- A 64-bit word of a room that debug access reaches (R459): its memories (R17) and the registers of its hearth (R203). -/
inductive DbgWord where
  | larder (addr : BitVec 21)
  | imem (word : BitVec 11) (part : BitVec 2)
  | accumulator (addr : BitVec 18)
  | transposing (addr : BitVec 17)
  | attic (entry : BitVec 12) (half : Bool)
  | scalar (r : BitVec 5)
  | parameter (r : BitVec 6)
  | vector (r : BitVec 6) (half : Bool)
  | pc
  /-- START and END of a level of the loop stack, or its REMAIN and INDEX. -/
  | loopLevel (l : BitVec 2) (half : Bool)
  | tileShape (r : BitVec 3)
  /-- Bits 64 × part upward of a binding register, OFS in its last word (R213). -/
  | binding (r : BitVec 4) (part : BitVec 5)
  | token (c : BitVec 4)
  | sflags
deriving DecidableEq, Repr

/-- A debug access (R459) (DESIGN CHOICE, log 50). -/
inductive DbgCmd where
  | roomRead (room : BitVec 7) (w : DbgWord)
  | roomWrite (room : BitVec 7) (w : DbgWord) (data : BitVec 64)
  | lineRead (granule : BitVec 31) (word : BitVec 5)
  | lineWrite (granule : BitVec 31) (word : BitVec 5) (data : BitVec 64)
  | controlRead (addr : BitVec 32)
  | controlWrite (addr : BitVec 32) (data : BitVec 64)
  | halt (room : BitVec 7)
  | go (room : BitVec 7)
  | step (room : BitVec 7)
deriving DecidableEq, Repr

/-- The commands (DESIGN CHOICE, log 10). -/
inductive Instr where
  /-- TCODE_FRAME (R36) -/
  | tcodeFrame (bits : BitVec 112)
  /-- TSYNC_EDGE (R39) -/
  | tsyncEdge
  /-- TREF_LOSS (R41) -/
  | trefLoss
  /-- TSYNC_TIMEOUT (R41) -/
  | tsyncTimeout
  /-- EVENT_ARM (R44) -/
  | eventArm (src : Src) (n : BitVec 8) (val : BitVec 128)
  /-- EVENT_CANCEL (R44) -/
  | eventCancel (src : Src) (n : BitVec 8) (val : BitVec 128)
  /-- SLOT_STOP (R49) -/
  | slotStop (n : BitVec 8) (p : BitVec 2)
  /-- SLOT_END (R49) -/
  | slotEnd (n : BitVec 8)
  /-- POWER_CAP_CHANGE (R374) -/
  | powerCapChange (n : BitVec 8)
  /-- SLOT_START (R48) -/
  | slotStart (n : BitVec 8)
  /-- CHECKPOINT_SEALING (R357) -/
  | checkpointSealing (n : BitVec 8)
  /-- SCRUB (R362) -/
  | scrub (n : BitVec 8)
  /-- TROUBLE_LOG_STAMP (R410) -/
  | troubleLogStamp (n : BitVec 8)
  /-- PHASE_TIMER_STAMP (R261) -/
  | phaseTimerStamp (n : BitVec 8)
  /-- SOLVER_DEADLINE (R191) -/
  | solverDeadline (n : BitVec 8)
  /-- SCRUB_END (R361) -/
  | scrubEnd (p : BitVec 2)
  /-- DICTIONARY_CYCLE (R393) -/
  | dictionaryCycle
  /-- DICTIONARY_READ (R398) -/
  | dictionaryRead (src : Src) (index : BitVec 16) (sub : BitVec 8)
  /-- DICTIONARY_WRITE (R395) -/
  | dictionaryWrite (src : Src) (index : BitVec 16) (sub : BitVec 8) (data : List Byte)
  /-- PARTITION_MODE_WRITE (R30) -/
  | partitionModeWrite (src : Src) (v : BitVec 8)
  /-- MODE_CHANGE (R30) -/
  | modeChange
  /-- PARTITION_RESET (R438) -/
  | partitionReset (p : BitVec 2) (uncorrectable : Bool)
  /-- ROOM_ZEROING_COMPLETE (R439) -/
  | roomZeroingComplete (room : BitVec 7)
  /-- PARTITION_FORMATION (R438) -/
  | partitionFormation (p : BitVec 2)
  /-- CAP_WRITE (R374) -/
  | capWrite (src : Src) (v : BitVec 16)
  /-- WINDOW_WRITE (R373) -/
  | windowWrite (src : Src) (v : BitVec 32)
  /-- STAMP_PERIOD_WRITE (R261) -/
  | stampPeriodWrite (src : Src) (ring : BitVec 6) (v : BitVec 32)
  /-- WINDOW_ENABLE (R327) -/
  | windowEnable (src : Src) (p : BitVec 2) (v : BitVec 8)
  /-- RING_ENABLE (R328) -/
  | ringEnable (src : Src) (ring : BitVec 6)
  /-- RING_DISABLE (R328) -/
  | ringDisable (src : Src) (ring : BitVec 6)
  /-- BLOCKED_GRANULE_WRITE (R314) -/
  | blockedGranuleWrite (src : Src) (entry : BitVec 10) (val : BitVec 64)
  /-- TAKE_OUT_OF_SERVICE (R419) -/
  | takeOutOfService (src : Src) (cls : BitVec 8) (num : BitVec 16)
  /-- READMIT (R420) -/
  | readmit (src : Src) (cls : BitVec 8) (num : BitVec 16)
  /-- QUARANTINE_END (R420) -/
  | quarantineEnd (cls : BitVec 3) (num : BitVec 9) (pass : Bool)
  /-- READMISSION (R420) -/
  | readmission (cls : BitVec 3) (num : BitVec 9)
  /-- STOP_OVERRUN (R422) -/
  | stopOverrun (p : BitVec 2)
  /-- CONTROL_MEMORY_ERROR (R423) -/
  | controlMemoryError
  /-- NO_OP (R331) -/
  | noOp (ring : BitVec 6)
  /-- CONTINUE (R336) -/
  | continueEntry (ring : BitVec 6)
  /-- FENCE (R63) -/
  | fence (ring : BitVec 6)
  /-- FENCE_COMPLETE (R63) -/
  | fenceComplete (ring : BitVec 6)
  /-- HITCH (R64) -/
  | hitch (ring : BitVec 6)
  /-- DWRITE (R248) -/
  | dwrite (ring : BitVec 6)
  /-- STASH_UPDATE (R248) -/
  | stashUpdate (ring : BitVec 6)
  /-- SWRITE (R87) -/
  | swrite (ring : BitVec 6)
  /-- SREAD (R89) -/
  | sread (ring : BitVec 6)
  /-- HREAD (R95) -/
  | hread (ring : BitVec 6)
  /-- HCLEAR (R95) -/
  | hclear (ring : BitVec 6)
  /-- LOADP (R232) -/
  | loadp (ring : BitVec 6)
  /-- TRANSLATION_COMPLETE (R234) -/
  | translationComplete (ring : BitVec 6) (seq : BitVec 64)
  /-- UNLOADP (R236) -/
  | unloadp (ring : BitVec 6)
  /-- RUN (R462) -/
  | run (ring : BitVec 6)
  /-- MATMUL (R231) -/
  | matmul (ring : BitVec 6) (seq : BitVec 64)
  /-- CONV (R231) -/
  | conv (ring : BitVec 6) (seq : BitVec 64)
  /-- KNN (R231) -/
  | knn (ring : BitVec 6) (seq : BitVec 64)
  /-- ELEM (R231) -/
  | elem (ring : BitVec 6) (seq : BitVec 64)
  /-- ROW_OPERATION (R231) -/
  | rowOperation (ring : BitVec 6) (seq : BitVec 64)
  /-- CONVERT (R231) -/
  | convert (ring : BitVec 6) (seq : BitVec 64)
  /-- GATHER (R231) -/
  | gather (ring : BitVec 6) (seq : BitVec 64)
  /-- SCATTER (R231) -/
  | scatter (ring : BitVec 6) (seq : BitVec 64)
  /-- SHARE_START (R243) -/
  | shareStart (room : BitVec 7)
  /-- SHARE_COMPLETE (R221) -/
  | shareComplete (room : BitVec 7)
  /-- MACRO_OP_COMPLETE (R334) -/
  | macroOpComplete (ring : BitVec 6) (seq : BitVec 64)
  /-- MICRO_BATCH_END (R249) -/
  | microBatchEnd (p : BitVec 2)
  /-- STREAM_STOPPED (R72) -/
  | streamStopped (ring : BitVec 6)
  /-- SOLVE (R198) -/
  | solve (ring : BitVec 6)
  /-- SOLVE_FORWARD (R179) -/
  | solveForward (ring : BitVec 6) (seq : BitVec 64)
  /-- SOLVE_ADJOINT (R194) -/
  | solveAdjoint (ring : BitVec 6) (seq : BitVec 64)
  /-- DCHOL (R182) -/
  | dchol (ring : BitVec 6) (seq : BitVec 64) (b : BitVec 11)
  /-- DLDLT (R182) -/
  | dldlt (ring : BitVec 6) (seq : BitVec 64) (b : BitVec 11)
  /-- DQR (R183) -/
  | dqr (ring : BitVec 6) (seq : BitVec 64) (b : BitVec 11)
  /-- TREE (R187) -/
  | tree (ring : BitVec 6) (seq : BitVec 64) (b : BitVec 11)
  /-- KKT (R188) -/
  | kkt (ring : BitVec 6) (seq : BitVec 64) (b : BitVec 11)
  /-- CONTACT (R189) -/
  | contact (ring : BitVec 6) (seq : BitVec 64) (b : BitVec 11)
  /-- ROOM_RESERVATION (R185) -/
  | roomReservation (ring : BitVec 6) (seq : BitVec 64)
  /-- PROBLEM_START (R154) -/
  | problemStart (ring : BitVec 6) (seq : BitVec 64)
  /-- ASSEMBLY_PASS (R170) -/
  | assemblyPass (ring : BitVec 6) (seq : BitVec 64) (b : BitVec 11)
  /-- PANEL_INTERVAL (R186) -/
  | panelInterval (ring : BitVec 6) (seq : BitVec 64) (b : BitVec 11)
  /-- SWEEP (R189) -/
  | sweep (ring : BitVec 6) (seq : BitVec 64) (b : BitVec 11)
  /-- PROBLEM_END (R196) -/
  | problemEnd (ring : BitVec 6) (seq : BitVec 64) (b : BitVec 11)
  /-- REDUCE (R267) -/
  | reduce (ring : BitVec 6)
  /-- TOKEN_EXCHANGE (R277) -/
  | tokenExchange (ring : BitVec 6)
  /-- SHARD_GATHER (R278) -/
  | shardGather (ring : BitVec 6)
  /-- SPLICE (R274) -/
  | splice (ring : BitVec 6)
  /-- EPOCH_CHANGE (R274) -/
  | epochChange (p : BitVec 2)
  /-- RDATA (R268) -/
  | rdata (port : BitVec 4) (f : PeerFrame)
  /-- XDATA (R277) -/
  | xdata (port : BitVec 4) (f : PeerFrame)
  /-- XCOUNT (R277) -/
  | xcount (port : BitVec 4) (f : PeerFrame)
  /-- SHREQ (R278) -/
  | shreq (port : BitVec 4) (f : PeerFrame)
  /-- SHDATA (R278) -/
  | shdata (port : BitVec 4) (f : PeerFrame)
  /-- SHREF (R253) -/
  | shref (port : BitVec 4) (f : PeerFrame)
  /-- ABORT (R286) -/
  | abort (port : BitVec 4) (f : PeerFrame)
  /-- REDO (R273) -/
  | redo (port : BitVec 4) (f : PeerFrame)
  /-- LINK (R283) -/
  | link (port : BitVec 4) (f : PeerFrame)
  /-- NAK (R284) -/
  | nak (port : BitVec 4) (ack : BitVec 16)
  /-- REPLAY_TIMEOUT (R284) -/
  | replayTimeout (port : BitVec 4)
  /-- ACK_TIMEOUT (R284) -/
  | ackTimeout (port : BitVec 4)
  /-- LINK_UP (R279) -/
  | linkUp (port : BitVec 4) (fast : Bool) (prevGen : Bool) (lanes : BitVec 4)
  /-- LANE_FAILURE (R285) -/
  | laneFailure (port : BitVec 4) (lane : BitVec 2)
  /-- PORT_WIDEN (R285) -/
  | portWiden (port : BitVec 4)
  /-- PEER_TIMEOUT (R286) -/
  | peerTimeout (ring : BitVec 6) (seq : BitVec 64)
  /-- ARBITER_DECISION (R303) -/
  | arbiterDecision (port : ArbPort)
  /-- HOLD_CUT_OFF (R305) -/
  | holdCutOff (port : ArbPort)
  /-- WCB_TIMEOUT (R299) -/
  | wcbTimeout (stack : BitVec 4) (granule : BitVec 40) (found : List Flaw)
  /-- RD (R326) -/
  | rd (fl : Flit) (tag : BitVec 11) (line : BitVec 46) (found : List Flaw)
  /-- RDREG (R323) -/
  | rdreg (fl : Flit) (tag : BitVec 11) (line : BitVec 46)
  /-- WR (R326) -/
  | wr (fl : Flit) (tag : BitVec 11) (line : BitVec 46) (data : BitVec 512)
  /-- WRP (R326) -/
  | wrp (fl : Flit) (tag : BitVec 11) (line : BitVec 46) (data : BitVec 512) (mask : BitVec 64)
  /-- AT (R302) -/
  | at (fl : Flit) (tag : BitVec 11) (addr : BitVec 52) (op : AtomicOp) (a : BitVec 64) (b : BitVec 64)
  /-- RSP (R319) -/
  | rsp (fl : Flit) (tag : BitVec 11) (status : BitVec 4)
  /-- RSPD (R319) -/
  | rspd (fl : Flit) (tag : BitVec 11) (status : BitVec 4) (data : BitVec 512)
  /-- SNPINV (R322) -/
  | snpinv (fl : Flit) (tag : BitVec 11) (line : BitVec 46)
  /-- SNPRD (R322) -/
  | snprd (fl : Flit) (tag : BitVec 11) (line : BitVec 46)
  /-- COMPANION_NAK (R320) -/
  | companionNak (fl : Flit)
  /-- LINK_RESET (R321) -/
  | linkReset (gen : BitVec 2)
  /-- TAIL (R330) -/
  | tail (ring : BitVec 6)
  /-- RESETGEN (R337) -/
  | resetgen (ring : BitVec 6)
  /-- STOPGEN (R336) -/
  | stopgen (ring : BitVec 6)
  /-- RESUMEGEN (R336) -/
  | resumegen (ring : BitVec 6)
  /-- NOTIFY_UPDATE (R335) -/
  | notifyUpdate (ring : BitVec 6)
  /-- KEY_IMPORT (R350) -/
  | keyImport (src : Src) (p : BitVec 2) (msg : List Byte)
  /-- EXPORT_RANGE (R355) -/
  | exportRange (p : BitVec 2)
  /-- IMPORT_RANGE (R355) -/
  | importRange (p : BitVec 2) (part : List Byte)
  /-- IMPORT_STOP_IMAGE (R359) -/
  | importStopImage (p : BitVec 2) (part : List Byte)
  /-- CHECKPOINT_JOB_END (R355) -/
  | checkpointJobEnd (p : BitVec 2)
  /-- EXPORT_END (R358) -/
  | exportEnd (p : BitVec 2)
  /-- EXPORT_ABANDONED (R358) -/
  | exportAbandoned (p : BitVec 2)
  /-- ATTESTATION_NONCE (R363) -/
  | attestationNonce (src : Src) (nonce : BitVec 256)
  /-- REPORT_COMPLETE (R363) -/
  | reportComplete (cls : BitVec 2)
  /-- STAGE_UPDATE (R346) -/
  | stageUpdate (src : Src) (v : BitVec 8)
  /-- STAGING_COMPLETE (R346) -/
  | stagingComplete (img : FwImage)
  /-- BURN_MINIMUM_SVN (R346) -/
  | burnMinimumSvn (src : Src) (v : BitVec 16)
  /-- DEBUG_UNLOCK (R365) -/
  | debugUnlock (src : Src) (token : List Byte)
  /-- CONTROL_PERIOD (R375) -/
  | controlPeriod
  /-- GLIDE_STEP (R372) -/
  | glideStep (d : BitVec 2)
  /-- ACTIVITY_ESTIMATE (R378) -/
  | activityEstimate (uj : BitVec 32)
  /-- DROOP (R379) -/
  | droop (d : BitVec 2) (group : BitVec 2)
  /-- DROOP_CLEAR (R379) -/
  | droopClear (d : BitVec 2)
  /-- DROOP_HOLDOFF_END (R380) -/
  | droopHoldoffEnd (d : BitVec 2)
  /-- PROLONGED_DROOP (R380) -/
  | prolongedDroop (d : BitVec 2)
  /-- THERMAL_READING (R381) -/
  | thermalReading (temps : List (BitVec 32))
  /-- STACK_TEMPERATURE_READ (R370) -/
  | stackTemperatureRead (temps : List (BitVec 32))
  /-- COOL_OK_DEASSERT (R382) -/
  | coolOkDeassert
  /-- COOLANT_STOP (R382) -/
  | coolantStop
  /-- PMBUS_POLL (R383) -/
  | pmbusPoll (readings : List RegReading)
  /-- READ_REQUEST (R402) -/
  | readRequest (fd : Bool) (index : BitVec 16) (sub : BitVec 8)
  /-- EXPEDITED_WRITE (R402) -/
  | expeditedWrite (fd : Bool) (index : BitVec 16) (sub : BitVec 8) (data : List Byte)
  /-- SEGMENTED_WRITE_INITIATE (R403) -/
  | segmentedWriteInitiate (fd : Bool) (index : BitVec 16) (sub : BitVec 8) (len : BitVec 32)
  /-- SEGMENT_FRAME (R403) -/
  | segmentFrame (fd : Bool) (toggle : Bool) (last : Bool) (data : List Byte)
  /-- DDA_ABORT (R403) -/
  | ddaAbort
  /-- DDA_TIMEOUT (R403) -/
  | ddaTimeout
  /-- BUS_OFF_RECOVERY (R400) -/
  | busOffRecovery
  /-- HEARTBEAT (R404) -/
  | heartbeat
  /-- FAULT_FRAME (R405) -/
  | faultFrame
  /-- POWER_ON_RESET (R431) -/
  | powerOnReset
  /-- PORESET_RELEASE (R434) -/
  | poresetRelease (nodeId : BitVec 7) (clgen : BitVec 2) (fwsrc : Bool)
  /-- DEVICE_RESET (R431) -/
  | deviceReset
  /-- FIRMWARE_START (R434) -/
  | firmwareStart (start : FwStart)
  /-- BOOT_LINE_REQUEST (R436) -/
  | bootLineRequest (line : BitVec 512)
  /-- PLL_LOCK (R434) -/
  | pllLock
  /-- SELF_TEST_DONE (R434) -/
  | selfTestDone (failed : List (BitVec 3 × BitVec 9))
  /-- EXTEST (R456) -/
  | extest
  /-- SAMPLE (R454) -/
  | sample
  /-- PRELOAD (R454) -/
  | preload (cells : BitVec 222)
  /-- IDCODE (R453) -/
  | idcode
  /-- CLAMP (R456) -/
  | clamp
  /-- HIGHZ (R456) -/
  | highz
  /-- EXTEST_PULSE (R455) -/
  | extestPulse
  /-- EXTEST_TRAIN (R455) -/
  | extestTrain
  /-- DICT (R458) -/
  | dict (dr : BitVec 384)
  /-- DICTBUF (R458) -/
  | dictbuf (dr : BitVec 16384)
  /-- DBGACC (R459) -/
  | dbgacc (cmd : DbgCmd)
  /-- SCANCHAIN (R459) -/
  | scanchain (die : BitVec 3)
  /-- MBIST (R459) -/
  | mbist (mem : DbgMem) (pass : Bool)
  /-- BYPASS (R454) -/
  | bypass
  /-- TEST_LOGIC_RESET (R456) -/
  | testLogicReset
  /-- ROOM_WORD_ISSUE (R200) -/
  | roomWordIssue (room : BitVec 7) (found : Option RoomCheck)
  /-- NORM (R149) -/
  | norm (room : BitVec 7)
  /-- RMS (R149) -/
  | rms (room : BitVec 7)
  /-- SMAX (R149) -/
  | smax (room : BitVec 7)
  /-- NORMB (R150) -/
  | normb (room : BitVec 7)
  /-- RMSB (R150) -/
  | rmsb (room : BitVec 7)
  /-- SMAXB (R150) -/
  | smaxb (room : BitVec 7)
  /-- MATRIX_RESULT (R112) -/
  | matrixResult (room : BitVec 7)
  /-- ACCESS_RELEASE (R61) -/
  | accessRelease (room : BitVec 7) (eng : Engine) (found : List Flaw)
  /-- SIGNAL_DELIVERY (R221) -/
  | signalDelivery (room : BitVec 7)
  /-- TREF_RETURN (R42) -/
  | trefReturn
  /-- PEER_FRAME_CRC_FAILURE (R284) -/
  | peerFrameCrcFailure (port : BitVec 4)
  /-- FRAME_OF_UNDEFINED_TYPE (R281) -/
  | frameOfUndefinedType (port : BitVec 4) (f : PeerFrame)
  /-- FLIT_ERROR (R320) -/
  | flitError
  /-- IDLE_FLIT (R318) -/
  | idleFlit (fl : Flit)
  /-- MESSAGE_OF_UNDEFINED_TYPE (R319) -/
  | messageOfUndefinedType (msg : StrayMessage)
  /-- UNKNOWN_COMMAND (R403) -/
  | unknownCommand (fd : Bool) (cmd : BitVec 8)
  /-- UNDEFINED_INSTRUCTION (R457) -/
  | undefinedInstruction (code : BitVec 8)
  /-- CAN_BUS_ERROR (R400) -/
  | canBusError (transmitting : Bool)
  /-- COOL_OK_ASSERT (R382) -/
  | coolOkAssert
  /-- POWER_REMOVAL (R384) -/
  | powerRemoval
  /-- FIRMWARE_IMAGE_REJECTED (R435) -/
  | firmwareImageRejected (status : BitVec 8)
deriving DecidableEq, Repr

end Sys2Proof
end

