-- ==== Sys2Proof/WellFormed.lean ====
section
/-! DEFINITION. Which commands are well-formed: what a command carries must be something the interface it comes over can carry. The
meanings in Machine/ give an answer for every command; the statements about frames and lists take this as a premise. -/

namespace Sys2Proof

/-- TYPE of a peer frame (R281). -/
def PeerFrame.typ (f : PeerFrame) : Nat := (f.hdr.extractLsb' 0 5).toNat
/-- LEN, in units of 4 bytes (R280). -/
def PeerFrame.len (f : PeerFrame) : Nat := (f.hdr.extractLsb' 47 8).toNat

/-- A frame holds at most 512 payload bytes, as many as its LEN says (R280). -/
def PeerFrame.sound (f : PeerFrame) : Bool := f.len ≤ 128 && f.payload.length == 4 * f.len

/-- A frame of TYPE `t` (R281). -/
def PeerFrame.ofType (f : PeerFrame) (t : Nat) : Bool := f.sound && f.typ == t

/-- Data bytes of an expedited write: 1 to 60, at most 4 in a classic frame (R402). -/
def expeditedLen (fd : Bool) (n : Nat) : Bool := 1 ≤ n && n ≤ (if fd then 60 else 4)

/-- Data bytes of a segment frame: at most 63, at most 7 in a classic frame (R403). -/
def segmentLen (fd : Bool) (n : Nat) : Bool := n ≤ (if fd then 63 else 7)

/-- Regulators named at most once in a poll (R383). -/
def namedOnce : List RegReading → Bool
  | [] => true
  | r :: t => t.all (fun x => x.reg != r.reg) && namedOnce t

/-- Units of R419: rooms, solver units, pseudo-channels, peer lanes, adder groups. -/
def unitExists (cls num : Nat) : Bool :=
  match cls with
  | 0 => num < 128 | 1 => num < 16 | 2 => num < 384 | 3 => num < 64 | 4 => num < 16 | _ => false

/-- A command that can come. -/
def Instr.wellFormed : Instr → Bool
  | .rdata _ f => f.ofType 1
  | .xdata _ f => f.ofType 2
  | .xcount _ f => f.ofType 3
  | .shreq _ f => f.ofType 4
  | .shdata _ f => f.ofType 5
  | .shref _ f => f.ofType 6
  | .abort _ f => f.ofType 7
  | .redo _ f => f.ofType 8
  | .link _ f => f.ofType 9
  | .frameOfUndefinedType _ f => f.sound && (f.typ == 0 || 9 < f.typ)
  | .expeditedWrite fd _ _ d => expeditedLen fd d.length
  | .segmentFrame fd _ _ d => segmentLen fd d.length
  | .thermalReading ts => ts.length == 24
  | .stackTemperatureRead ts => ts.length == 12
  | .pmbusPoll rs => namedOnce rs
  | .idleFlit fl => !fl.more
  | .flitError => true
  | .messageOfUndefinedType msg => 10 < msg.typ
  | .selfTestDone l => l.all fun u => unitExists u.1.toNat u.2.toNat
  | .quarantineEnd c n _ => unitExists c.toNat n.toNat
  | .readmission c n => unitExists c.toNat n.toNat
  | .scanchain die => die.toNat < 4
  | _ => true

end Sys2Proof
end

