-- ==== Sys2Proof/Decode.lean ====
section
/-! DEFINITION. The decoder over the opcode table. The device is driven by commands from outside, and no row of the table gives its
command any bits: no word spells one. The messages of the companion link have headers (14_companion_link R319): the command that each
is. -/

namespace Sys2Proof

/-- The command that a word of `nbits` bits spells by the table's bits: none, since the table gives none (DEDUCED, log 9). -/
def decodeTableWord (nbits w : Nat) : Option Instr :=
  match nbits, w with
  | _, _ => none

/-- The command that a message of an inbound flit is, from its slots (R319): none for an empty slot, for RDOWN, which the device alone
sends, and for AT, whose ATOP codes the spec does not give (DEDUCED, log 33). -/
def messageCommand (fl : Flit) (slots : List (BitVec 128)) : Option Instr :=
  let slot := fun (i : Nat) => slots.getD i 0
  let tag := bits (slot 0) 5 11
  let line := bits (slot 0) 82 46
  let data : BitVec 512 := slot 4 ++ slot 3 ++ slot 2 ++ slot 1
  match field (slot 0) 0 5 with
  | 0 | 5 | 10 => none
  | 1 => some (.rd fl tag line [])
  | 2 => some (.rdreg fl tag line)
  | 3 => some (.wr fl tag line data)
  | 4 => some (.wrp fl tag line data (bits (slot 5) 0 64))
  | 6 => some (.rsp fl tag (bits (slot 0) 72 4))
  | 7 => some (.rspd fl tag (bits (slot 0) 72 4) data)
  | 8 => some (.snpinv fl tag line)
  | 9 => some (.snprd fl tag line)
  | typ => some (.messageOfUndefinedType ⟨fl, BitVec.ofNat 5 typ⟩)

end Sys2Proof
end

