-- ==== Sys2Proof/Config.lean ====
section
/-! DEFINITION. What an implementation fixes and what the spec leaves open: constants without a body, so that nothing
can be proved of their values beyond the limits stated with them. -/

namespace Sys2Proof

/-- The `k`-th undefined contents of partition memory, at an address: after a mode change (R292) and after a scrub
(R347, R361). -/
opaque Config.freeByte : Nat → Nat → BitVec 8

/-- The `k`-th translation: the word at an address of a room (R239 promises no encoding) (DESIGN CHOICE, log 51). -/
opaque Config.freeWord : Nat → Nat → Nat → BitVec 256

/-- Where the block of an entry starts in a room's instruction memory: translation, room, entry (R208, R234). -/
opaque Config.blockStart : Nat → Nat → Nat → BitVec 11

/-- Does the translation of an image exceed the room memories of a set of rooms (R232 check 7)? The spec gives no sizes of
translated blocks. -/
opaque Config.translationOver : List (BitVec 8) → BitVec 128 → Bool

/-- The resume point of the `k`-th share-driven macro-operation stopped: an index into tiles the translation fixes (R70) (DESIGN CHOICE, log 52). -/
opaque Config.resumePoint : Nat → BitVec 32

/-- The origin on axis `i` of OUT of the tile that the `k`-th fault met (R238): the translation fixes it (DESIGN CHOICE, log 53). -/
opaque Config.tileCoord : Nat → Nat → BitVec 32

/-- Which of the rooms of an entry the `k`-th fault of an entry that runs as a whole met, modulo their number (R238): the translation fixes
it (DESIGN CHOICE, log 53). -/
opaque Config.faultRoom : Nat → Nat

/-- Where the attic ranges of the `k`-th translation begin in its rooms, modulo the room left (R152, R234) (DESIGN CHOICE, log 114). -/
opaque Config.atticOffset : Nat → Nat

/-- Which port, modulo those alive, carries control and exchange frames to a participant (R269 fixes only the hops of the tree) (DESIGN CHOICE, log 86). -/
opaque Config.exchangeMember : Nat → Nat

/-- The identifier of the `k`-th solver call that arms a deadline (R46 names it and gives it no form) (DESIGN CHOICE, log 82). -/
opaque Config.callIdent : Nat → BitVec 32

/-- What a solver problem takes where a disabled handle would have been read and the spec names no value: problem, element (DESIGN CHOICE, log 78). -/
opaque Config.unread : Nat → Nat → BitVec 64

/-- The levels at the boundary cells at the `k`-th capture (R455). -/
opaque Config.cells : Nat → BitVec 222

/-- What the `k`-th debug read of a controller memory returns (R459 gives no layout). -/
opaque Config.controlWord : Nat → BitVec 64

/-- The `k`-th random key or challenge (R343, R365). -/
opaque Config.freeKey : Nat → BitVec 256

/-- The `k`-th import key pair of ML-KEM-1024 (R342, R348): the encapsulation and the decapsulation key. -/
opaque Config.kemPair : Nat → List Byte × List Byte

/-- ML-KEM-1024.Decaps of FIPS 203: decapsulation key, ciphertext, shared secret (R350). -/
opaque Config.kemDecaps : List Byte → List Byte → List Byte

/-- Falcon-1024 signature verification: public key, message, signature (R345, R365). -/
opaque Config.falconVerify : List Byte → List Byte → List Byte → Bool

/-- A Falcon-1024 signature under the identity private key of the `k`-th report (R363). -/
opaque Config.falconSign : Nat → List Byte → List Byte

/-- The identity public key of 1,793 bytes, derived from the fused seed (R344). -/
opaque Config.identityKey : List Byte

/-- The fused vendor key digest (R342, R345). -/
opaque Config.vendorDigest : BitVec 512

/-- The fused entries from which V(d, k) is read; `Config.volt` keeps the rule that V never falls as k rises (R371). -/
opaque Config.voltRaw : Nat → Nat → BitVec 16

/-- V(d, k) in mV (R371). -/
def Config.volt (d : Nat) : Nat → BitVec 16
  | 0 => Config.voltRaw d 0
  | k + 1 =>
    let v := Config.volt d k
    let r := Config.voltRaw d (k + 1)
    if r.toNat < v.toNat then v else r

/-- The fused leakage model: static power of the device in mW at a hottest reading (an F32 pattern) and a point
(R375). -/
opaque Config.staticPower : BitVec 32 → Nat → Nat

/-- The share of one consumer of a rail in a control period: activity times fused coefficient plus static share
(R385). Consumer, control period. -/
opaque Config.consumerShare : Nat → Nat → Nat

/-- The part of a consumer's energy that one ring's activity accounts for, in parts per 65,536 (R385). Consumer, ring,
control period. -/
opaque Config.ringShare : Nat → Nat → Nat → BitVec 16

/-- The rail that a consumer is on (R385). -/
opaque Config.railOf : Nat → BitVec 8

/-- The energy of a macro-operation's activity estimate, in µJ (R386) (DESIGN CHOICE, log 98). -/
opaque Config.activityEnergy : Nat → Nat

/-- The lane that fails when a frame has been replayed eight times: an index among the lanes in use, modulo their number (R285)
(DESIGN CHOICE, log 104). -/
opaque Config.replayLane : Nat → Nat

/-- The size of the `k`-th slewing step, and the drift of a free-running tick: read modulo the limit of 100 ppm
(R39, R42) (DESIGN CHOICE, log 6). -/
opaque Config.slewRaw : Nat → Nat

/-- Slewed in one 4 ns tick, in 10^-4 ns: at most 100 ppm (R39). -/
def Config.slewStep (k : Nat) : Nat := Config.slewRaw k % 5

/-- Drift of one tick from the internal oscillator, in 10^-4 ns: at most 100 ppm either way (R42). -/
def Config.drift (k : Nat) : Int := (Config.slewRaw k % 9 : Nat) - (4 : Int)

end Sys2Proof
end

