-- ==== Sys2Proof/Machine/Crypto.lean ====
section
/-! DEFINITION. The published functions the security controller is defined with (15_tenancy_and_security): SHAKE256 and
KMAC256 (FIPS 202, SP 800-185), XTS-AES-256 (FIPS 197, IEEE 1619), and the CRC-16 of a TCODE frame (R35). Byte strings
are lists, byte 0 first. -/

namespace Sys2Proof

/-! ### CRC-16 of R35 -/

def crcBit (poly c : BitVec 16) : BitVec 16 := if c.getLsbD 15 then (c <<< 1) ^^^ poly else c <<< 1

def crcByte (poly c : BitVec 16) (b : Byte) : BitVec 16 :=
  loop 8 (c ^^^ (b.setWidth 16 <<< 8)) fun a _ => crcBit poly a

/-- CRC-16, polynomial 0x1021, initial value 0xFFFF, most significant bit first, no final XOR (R35). -/
def crc16 (bs : List Byte) : BitVec 16 := bs.foldl (crcByte 0x1021) 0xFFFF

/-! ### Keccak -/

/-- One step of the bit generator of the round constants: x^8 + x^6 + x^5 + x^4 + 1, the bit delivered being bit 0. -/
def keccakLfsr (r : Nat) : Nat := let d := 2 * r; if d < 256 then d else Nat.xor (d % 256) 0x71

/-- The constant of a round: the next seven bits stand at places 0, 1, 3, 7, 15, 31 and 63. Beside it the generator after them. -/
def keccakConst (r : Nat) : U64 × Nat :=
  loop 7 ((0 : U64), r) fun s j =>
    (if s.2 % 2 = 1 then s.1 ||| BitVec.twoPow 64 (2 ^ j - 1) else s.1, keccakLfsr s.2)

/-- The constants of the 24 rounds. -/
def keccakRc : List U64 :=
  (loop 24 (([] : List U64), 1) fun s _ => let c := keccakConst s.2; (s.1 ++ [c.1], c.2)).1

/-- Rotation offsets, lane x + 5y: the lane reached after t steps from (1, 0) turns by (t + 1)(t + 2)/2 places. -/
def keccakRot : List Nat :=
  (loop 24 (List.replicate 25 0, 1, 0) fun s t =>
    (s.1.set (s.2.1 + 5 * s.2.2) ((t + 1) * (t + 2) / 2 % 64), s.2.2, (2 * s.2.1 + 3 * s.2.2) % 5)).1

def lane (a : List U64) (i : Nat) : U64 := a.getD i 0

def keccakRound (a : List U64) (rc : U64) : List U64 :=
  let c := (upTo 5).map fun x => lane a x ^^^ lane a (x + 5) ^^^ lane a (x + 10) ^^^ lane a (x + 15) ^^^ lane a (x + 20)
  let d := (upTo 5).map fun x => lane c ((x + 4) % 5) ^^^ (lane c ((x + 1) % 5)).rotateLeft 1
  let t := (upTo 25).map fun i => lane a i ^^^ lane d (i % 5)
  -- lane (x, y) moves to (y, 2x + 3y)
  let b := (upTo 25).map fun j =>
    let x' := j % 5
    let y' := j / 5
    -- the source (x, y) has y = x' and 2x + 3y = y' mod 5
    let y := x'
    let x := (y' + 5 * 3 - 3 * y % 5) * 3 % 5
    (lane t (x + 5 * y)).rotateLeft (keccakRot.getD (x + 5 * y) 0)
  let e := (upTo 25).map fun i =>
    let x := i % 5
    let y := i / 5
    lane b i ^^^ (~~~(lane b ((x + 1) % 5 + 5 * y)) &&& lane b ((x + 2) % 5 + 5 * y))
  e.set 0 (lane e 0 ^^^ rc)

def keccakF (a : List U64) : List U64 := keccakRc.foldl keccakRound a

/-- The rate of SHAKE256 and KMAC256 in bytes. -/
def keccakRate : Nat := 136

def keccakAbsorb (a : List U64) (block : List Byte) : List U64 :=
  keccakF ((upTo 25).map fun i => lane a i ^^^ BitVec.ofNat 64 (ofLe ((block.drop (8 * i)).take 8)))

/-- Splits into blocks of `k` bytes (fuel `n`). -/
def blocksOf (k : Nat) : Nat → List Byte → List (List Byte)
  | 0, _ => []
  | n + 1, bs => if bs.isEmpty then [] else bs.take k :: blocksOf k n (bs.drop k)

/-- Padding with the domain suffix `sfx` to whole rate blocks. -/
def keccakPad (sfx : Byte) (bs : List Byte) : List Byte :=
  let n := keccakRate - bs.length % keccakRate
  if n = 1 then bs ++ [sfx ||| 0x80] else bs ++ [sfx] ++ List.replicate (n - 2) 0 ++ [0x80]

def keccakSqueeze : Nat → List U64 → List Byte
  | 0, _ => []
  | n + 1, a => ((a.take 17).map bytesOf).flatten ++ keccakSqueeze n (keccakF a)

/-- The sponge: `n` output bytes. -/
def sponge (sfx : Byte) (bs : List Byte) (n : Nat) : List Byte :=
  let p := keccakPad sfx bs
  let a := (blocksOf keccakRate p.length p).foldl keccakAbsorb (List.replicate 25 0)
  (keccakSqueeze (n / keccakRate + 1) a).take n

/-- SHAKE256 with `n` bytes of output (PRESUMED, log 4). -/
def shake256 (bs : List Byte) (n : Nat) : List Byte := sponge 0x1F bs n

/-- Big-endian bytes of a number without leading zeros (fuel 16). -/
def beBytes : Nat → Nat → List Byte
  | 0, _ => []
  | k + 1, v => if v < 256 then [BitVec.ofNat 8 v] else beBytes k (v / 256) ++ [BitVec.ofNat 8 v]

def leftEncode (v : Nat) : List Byte := let b := beBytes 16 v; BitVec.ofNat 8 b.length :: b
def rightEncode (v : Nat) : List Byte := let b := beBytes 16 v; b ++ [BitVec.ofNat 8 b.length]
def encodeString (bs : List Byte) : List Byte := leftEncode (8 * bs.length) ++ bs
def bytePad (bs : List Byte) : List Byte :=
  let p := leftEncode keccakRate ++ bs
  p ++ List.replicate ((keccakRate - p.length % keccakRate) % keccakRate) 0

/-- ASCII bytes of a string. -/
def ascii (s : String) : List Byte := s.toList.map fun c => BitVec.ofNat 8 c.toNat

/-- KMAC256(K, X, 8n, S) of SP 800-185, `n` bytes of output (R342). -/
def kmac256 (k x : List Byte) (n : Nat) (s : String) : List Byte :=
  sponge 0x04 (bytePad (encodeString (ascii "KMAC") ++ encodeString (ascii s)) ++ bytePad (encodeString k) ++ x
    ++ rightEncode (8 * n)) n

/-! ### XTS-AES-256 -/

def xtime (b : Byte) : Byte := if b.getLsbD 7 then (b <<< 1) ^^^ 0x1B else b <<< 1

/-- The product in GF(2^8) of AES. -/
def gmul (a b : Byte) : Byte :=
  (loop 8 ((0 : Byte), a) fun (s : Byte × Byte) i => (if b.getLsbD i then s.1 ^^^ s.2 else s.1, xtime s.2)).1

/-- The inverse in GF(2^8): the 254th power. -/
def ginv (a : Byte) : Byte :=
  -- 254 = 2 + 4 + … + 128
  (loop 7 ((1 : Byte), a) fun (s : Byte × Byte) _ => let q := gmul s.2 s.2; (gmul s.1 q, q)).1

def sbox (a : Byte) : Byte :=
  let b := ginv a
  b ^^^ b.rotateLeft 1 ^^^ b.rotateLeft 2 ^^^ b.rotateLeft 3 ^^^ b.rotateLeft 4 ^^^ 0x63

def invSbox (a : Byte) : Byte := ginv (a.rotateLeft 1 ^^^ a.rotateLeft 3 ^^^ a.rotateLeft 6 ^^^ 0x05)

def xorBytes (a b : List Byte) : List Byte := List.zipWith (· ^^^ ·) a b

/-- The key schedule of AES-256: 60 words of 4 bytes, newest first in the accumulator. -/
def aesExpand : Nat → Nat → Byte → List (List Byte) → List (List Byte)
  | 0, _, _, ws => ws
  | n + 1, i, rc, ws =>
    let prev := ws.getD 0 []
    let t := if i % 8 = 0 then
        let r := (prev.drop 1 ++ prev.take 1).map sbox
        xorBytes r [rc, 0, 0, 0]
      else if i % 8 = 4 then prev.map sbox else prev
    aesExpand n (i + 1) (if i % 8 = 0 then xtime rc else rc) (xorBytes (ws.getD 7 []) t :: ws)

/-- The 15 round keys of 16 bytes. -/
def aesKeys (key : List Byte) : List (List Byte) :=
  let w0 := ((upTo 8).map fun i => (key.drop (4 * i)).take 4).reverse
  let ws := (aesExpand 52 8 1 w0).reverse
  (upTo 15).map fun r => ((ws.drop (4 * r)).take 4).flatten

def at16 (s : List Byte) (i : Nat) : Byte := s.getD (i % 16) 0

def mixColumn (m : List Byte) (s : List Byte) : List Byte :=
  (upTo 16).map fun i =>
    let c := i / 4 * 4
    let r := i % 4
    (upTo 4).foldl (fun a j => a ^^^ gmul (m.getD ((j + 4 - r) % 4) 0) (at16 s (c + j))) 0

/-- AES-256 encryption of one block. -/
def aesEnc (ks : List (List Byte)) (b : List Byte) : List Byte :=
  let s := xorBytes b (ks.getD 0 [])
  let s := (countUp 1 14).foldl (fun s r =>
    let t := (upTo 16).map fun i => sbox (at16 s (i + 4 * (i % 4)))
    let t := if r = 14 then t else mixColumn [2, 3, 1, 1] t
    xorBytes t (ks.getD r [])) s
  s

/-- AES-256 decryption of one block. -/
def aesDec (ks : List (List Byte)) (b : List Byte) : List Byte :=
  (countUp 0 14).foldl (fun s k =>
    let r := 14 - k
    let t := xorBytes s (ks.getD r [])
    let t := if r = 14 then t else mixColumn [14, 11, 13, 9] t
    (upTo 16).map fun i => invSbox (at16 t (i + 16 - 4 * (i % 4)))) b |> fun s => xorBytes s (ks.getD 0 [])

/-- Multiplication of a tweak by α in GF(2^128) (IEEE 1619). -/
def xtsNext (t : List Byte) : List Byte :=
  let v := ofLe t
  let w := 2 * v % 2 ^ 128
  leBytes 16 (if v / 2 ^ 127 = 1 then Nat.xor w 0x87 else w)

def xtsBlocks (f : List Byte → List Byte) : Nat → List Byte → List Byte → List Byte
  | 0, _, _ => []
  | n + 1, t, bs =>
    if bs.isEmpty then []
    else xorBytes (f (xorBytes (bs.take 16) t)) t ++ xtsBlocks f n (xtsNext t) (bs.drop 16)

/-- XTS-AES-256 of a data unit whose length is a multiple of 16 bytes (R351, R354). -/
def xtsEnc (k1 k2 : List Byte) (tweak : Nat) (bs : List Byte) : List Byte :=
  xtsBlocks (aesEnc (aesKeys k1)) bs.length (aesEnc (aesKeys k2) (leBytes 16 tweak)) bs

def xtsDec (k1 k2 : List Byte) (tweak : Nat) (bs : List Byte) : List Byte :=
  xtsBlocks (aesDec (aesKeys k1)) bs.length (aesEnc (aesKeys k2) (leBytes 16 tweak)) bs

end Sys2Proof
end

