-- ==== Sys2Proof/Machine/Codes.lean ====
section
/-! DEFINITION. Check codes: the BCH code of on-chip words and the Reed-Solomon code of HBM beats (13_memory_system R307 to R309), and
the CRC of the links (12 R282, 14 R318). -/

namespace Sys2Proof

/-! ### The BCH code of a word (R307) -/

/-- The product of two polynomials over GF(2), bit i being the coefficient of x^i. -/
def clMul (a b : Nat) : Nat := (upTo 16).foldl (fun r i => if b.testBit i then Nat.xor r (a * 2 ^ i) else r) 0

/-- m₁, the minimal polynomial of α, x⁷ + x³ + 1, and m₃, that of α³. -/
def bchM1 : Nat := 0x89
def bchM3 : Nat := 0x8F
/-- g(x) = m₁(x) × m₃(x), of degree 14. -/
def bchGen : Nat := clMul bchM1 bchM3

/-- The remainder of a polynomial of degree below 78 modulo g. -/
def bchRem (w : Nat) : Nat :=
  (upTo 64).foldl (fun w i => if w.testBit (77 - i) then Nat.xor w (bchGen * 2 ^ (63 - i)) else w) w

/-- Is the number of ones odd? -/
def oddOnes (w : BitVec 79) : Bool := (upTo 79).foldl (fun b i => Bool.xor b (w.getLsbD i)) false

/-- A word as stored: bits 77 to 14 the data, bits 13 to 0 the remainder, bit 78 check bit 14. -/
def bchEncode (d : BitVec 64) : BitVec 79 :=
  let w := putBits (0 : BitVec 79) 14 d
  let w := putField w 0 14 (bchRem w.toNat)
  putBits w 78 (bit1 (oddOnes w))

/-- The data of a stored word. -/
def bchData (w : BitVec 79) : BitVec 64 := bits w 14 64

/-- The syndrome that one bit in error leaves, by position. -/
def bchSyndromes : List Nat := (upTo 78).map fun i => bchRem (2 ^ i)

/-- Positions of at most two bits of the 78 whose syndromes add up to `s`. -/
def bchOne (s : Nat) : Option Nat := bchSyndromes.findIdx? (· == s)
def bchTwo (s : Nat) : Option (Nat × Nat) :=
  ((bchSyndromes.zipIdx).findSome? fun e => (bchOne (Nat.xor s e.1)).map fun j => (e.2, j))

def flipBit (w : BitVec 79) (i : Nat) : BitVec 79 := w ^^^ BitVec.twoPow 79 i

/-- The word as corrected; none where more than two bits are in error and that is detected. -/
def bchDecode (w : BitVec 79) : Option (BitVec 79) :=
  let s := bchRem (bits w 0 78).toNat
  if oddOnes w then (if s = 0 then some (flipBit w 78) else (bchOne s).map (flipBit w))
  else if s = 0 then some w
  else match bchOne s with
    | some i => some (flipBit (flipBit w i) 78)
    | none => (bchTwo s).map fun e => flipBit (flipBit w e.1) e.2

/-! ### CRC-32C (R282, R318) -/

/-- One byte into CRC-32C, bits least significant first. -/
def crc32Byte (c : Nat) (b : Byte) : Nat :=
  loop 8 (Nat.xor c b.toNat) fun c _ => if c % 2 = 1 then Nat.xor (c / 2) 0x82F63B78 else c / 2

/-- CRC-32C, polynomial 0x1EDC6F41, initial value and final XOR all ones (PRESUMED, log 90). -/
def crc32c (bs : List Byte) : U32 := BitVec.ofNat 32 (Nat.xor (bs.foldl crc32Byte 0xFFFFFFFF) 0xFFFFFFFF)

/-! ### The Reed-Solomon code of a beat (R308) -/

/-- Twice a byte in GF(2⁸) with x⁸ + x⁴ + x³ + x² + 1. -/
def rsDouble (b : Byte) : Byte := if b.getLsbD 7 then (b <<< 1) ^^^ 0x1D else b <<< 1
def rsMul (a b : Byte) : Byte :=
  ((upTo 8).foldl (fun (s : Byte × Byte) i => (if b.getLsbD i then s.1 ^^^ s.2 else s.1, rsDouble s.2)) (0, a)).1
/-- α^n, α = 0x02. -/
def rsPow (n : Nat) : Byte := loop n (1 : Byte) fun b _ => rsDouble b
/-- The inverse: the 254th power. -/
def rsInv (a : Byte) : Byte := ((upTo 7).foldl (fun (s : Byte × Byte) _ => let q := rsMul s.2 s.2; (rsMul s.1 q, q)) (1, a)).1

/-- The generator (x − 1)(x − α)(x − α²) …, of degree `n`, highest coefficient first. -/
def rsGenOf (n : Nat) : List Byte :=
  (upTo n).foldl (fun g j => List.zipWith (· ^^^ ·) (g ++ [0]) ((0 : Byte) :: g.map (rsMul (rsPow j)))) [1]

/-- The remainder, modulo a generator, of the data times x to its degree, highest coefficient first. -/
def rsRem (gen data : List Byte) : List Byte :=
  data.foldl (fun (r : List Byte) d =>
    let f := d ^^^ r.getD 0 0
    List.zipWith (· ^^^ ·) (r.drop 1 ++ [0]) ((gen.drop 1).map (rsMul f))) (List.replicate (gen.length - 1) 0)

/-- The four check bytes of 32 data bytes. -/
def rsGen : List Byte := rsGenOf 4
def rsChecks (data : List Byte) : List Byte := rsRem rsGen data

/-- The syndromes at 1, α, α² and α³ of a beat of 36 bytes, byte i being the coefficient of x^(35 − i). -/
def rsSyndromes (w : List Byte) : List Byte := (upTo 4).map fun j => w.foldl (fun a b => rsMul a (rsPow j) ^^^ b) 0

/-- What a beat stored poisoned has XORed into its check bytes (R309). -/
def poisonPattern : List Byte := [0x5A, 0xA5, 0x3C, 0xC3]

/-- A beat as stored. -/
def rsEncode (data : List Byte) (poisoned : Bool) : List Byte :=
  data ++ if poisoned then List.zipWith (· ^^^ ·) (rsChecks data) poisonPattern else rsChecks data

/-- What the decoder makes of a beat. -/
inductive BeatRead where
  | good
  | fixed (data : List Byte)
  | stored
  | bad
deriving DecidableEq, Repr

def xorAt (l : List Byte) (i : Nat) (b : Byte) : List Byte := l.modify i (· ^^^ b)

/-- Are the syndromes those of `y₁` at byte `i` and `y₂` at byte `k`? -/
def rsExplains (s : List Byte) (i k : Nat) (y₁ y₂ : Byte) : Bool :=
  (upTo 4).all fun j => s.getD j 0 == (rsMul y₁ (rsPow (j * (35 - i))) ^^^ rsMul y₂ (rsPow (j * (35 - k))))

/-- Two bytes in error. -/
def rsPair (s : List Byte) : Option (Nat × Byte × Nat × Byte) :=
  (upTo 36).findSome? fun i => (upTo i).findSome? fun k =>
    let x₁ := rsPow (35 - i)
    let x₂ := rsPow (35 - k)
    let y₂ := rsMul (s.getD 1 0 ^^^ rsMul x₁ (s.getD 0 0)) (rsInv (x₁ ^^^ x₂))
    let y₁ := s.getD 0 0 ^^^ y₂
    if y₁ != 0 && y₂ != 0 && rsExplains s i k y₁ y₂ then some (i, y₁, k, y₂) else none

/-- The decoder: stored poison is looked for before anything is corrected (R309); then any two byte symbols (R308). -/
def rsDecode (w : List Byte) : BeatRead :=
  let s := rsSyndromes w
  if s.all (· == 0) then .good
  else if s == rsSyndromes (List.replicate 32 0 ++ poisonPattern) then .stored
  else match (upTo 36).find? fun i => rsExplains s i i (s.getD 0 0) 0 with
    | some i => .fixed ((xorAt w i (s.getD 0 0)).take 32)
    | none => match rsPair s with
      | some e => .fixed ((xorAt (xorAt w e.1 e.2.1) e.2.2.1 e.2.2.2).take 32)
      | none => .bad

end Sys2Proof
end

