-- ==== Sys2Proof/Machine/Float.lean ====
section
/-! DEFINITION. Floating-point arithmetic (04_number_formats R74 to R80, R86): a bit pattern is decoded into an exact
value, the exact result is formed, and one rounding delivers it with its flags. Bit patterns of every format are held as
numbers, because the formats differ in width. -/

namespace Sys2Proof

/-- A set of exception flags in the layout of EXCSUM bits 6:0 (R57). -/
abbrev Flags := BitVec 7

def fInvalid : Flags := 0x01
def fDivZero : Flags := 0x02
def fOverflow : Flags := 0x04
def fUnderflow : Flags := 0x08
def fInexact : Flags := 0x10
def fPoison : Flags := 0x20
def fPrepass : Flags := 0x40

/-- The rounding-direction attributes, with R134's codes. -/
inductive Rm where
  | rne | rtp | rtn | rtz
deriving DecidableEq, Repr

def rmOf (v : Nat) : Rm := match v with | 0 => .rne | 1 => .rtp | 2 => .rtn | _ => .rtz

/-- A binary format: exponent and fraction widths. Short formats differ only in these (R78). -/
structure Fmt where
  ew : Nat
  fw : Nat
deriving DecidableEq, Repr

def fF64 : Fmt := ⟨11, 52⟩
def fF32 : Fmt := ⟨8, 23⟩
def fS16 : Fmt := ⟨8, 7⟩
def fP16 : Fmt := ⟨6, 9⟩
def fS8 : Fmt := ⟨5, 2⟩
def fP8 : Fmt := ⟨4, 3⟩

/-- F64 and F32 are the long formats; only they have signalling NaNs (R78). -/
def Fmt.isLong (f : Fmt) : Bool := f.fw ≥ 23
def Fmt.bias (f : Fmt) : Int := 2 ^ (f.ew - 1) - 1
def Fmt.emin (f : Fmt) : Int := 1 - f.bias
def Fmt.emask (f : Fmt) : Nat := 2 ^ f.ew - 1
/-- The sign bit's place value. -/
def Fmt.signBit (f : Fmt) : Nat := 2 ^ (f.ew + f.fw)
/-- Infinity of a sign. -/
def Fmt.inf (f : Fmt) (neg : Bool) : Nat := bnat neg * f.signBit + f.emask * 2 ^ f.fw
/-- The canonical quiet NaN (R77, R79). -/
def Fmt.qnan (f : Fmt) : Nat := f.emask * 2 ^ f.fw + 2 ^ (f.fw - 1)
def Fmt.zero (f : Fmt) (neg : Bool) : Nat := bnat neg * f.signBit
/-- The largest finite value of a sign. -/
def Fmt.maxFin (f : Fmt) (neg : Bool) : Nat := bnat neg * f.signBit + f.emask * 2 ^ f.fw - 1
/-- The constant 1.0. -/
def Fmt.one (f : Fmt) : Nat := (2 ^ (f.ew - 1) - 1) * 2 ^ f.fw

/-- What a bit pattern stands for: a NaN with its sign and fraction field, an infinity, or (-1)^neg · m · 2^e. -/
inductive Num where
  | nan (neg : Bool) (frac : Nat) (fw : Nat)
  | inf (neg : Bool)
  | fin (neg : Bool) (m : Nat) (e : Int)
deriving DecidableEq, Repr

/-- The value a bit pattern encodes (R78 and IEEE 754-2019). -/
def decodeNum (f : Fmt) (b : Nat) : Num :=
  let neg := (b / f.signBit) % 2 == 1
  let ef := (b / 2 ^ f.fw) % 2 ^ f.ew
  let fr := b % 2 ^ f.fw
  if ef = f.emask then (if fr = 0 then .inf neg else .nan neg fr f.fw)
  else if ef = 0 then .fin neg fr (f.emin - f.fw)
  else .fin neg (2 ^ f.fw + fr) ((ef : Int) - f.bias - f.fw)

/-- A NaN is signalling when its most significant fraction bit is clear, in F64 and F32 only (R78). -/
def sigNan : Num → Bool
  | .nan _ fr fw => 23 ≤ fw && fr < 2 ^ (fw - 1)
  | _ => false

def isNan : Num → Bool
  | .nan .. => true
  | _ => false

/-- Does the discarded part round the magnitude up? `lo` of `2^s` is discarded below `sig`. -/
def roundsUp (rm : Rm) (neg : Bool) (sig lo s : Nat) : Bool :=
  match rm with
  | .rne => 2 * lo > 2 ^ s || (2 * lo == 2 ^ s && sig % 2 == 1)
  | .rtp => lo != 0 && !neg
  | .rtn => lo != 0 && neg
  | .rtz => false

/-- m · 2^e as a multiple of 2^q, rounded; and whether anything was lost. -/
def quantise (rm : Rm) (neg : Bool) (m : Nat) (e q : Int) : Nat × Bool :=
  if q ≤ e then (m * 2 ^ (e - q).toNat, false)
  else
    let s := (q - e).toNat
    let sig := m / 2 ^ s
    let lo := m % 2 ^ s
    (if roundsUp rm neg sig lo s then sig + 1 else sig, lo != 0)

/-- What a rounded magnitude beyond the largest finite value delivers. -/
def overflowTo (f : Fmt) (rm : Rm) (neg : Bool) : Nat :=
  match rm with
  | .rne => f.inf neg
  | .rtp => if neg then f.maxFin true else f.inf false
  | .rtn => if neg then f.inf true else f.maxFin false
  | .rtz => f.maxFin neg

/-- One rounding of the exact value (-1)^neg · m · 2^e into format `f` (R75, R76, R80): tininess is detected after
rounding, and underflow is raised when the result is tiny and inexact. -/
def roundPack (f : Fmt) (rm : Rm) (neg : Bool) (m : Nat) (e : Int) : Nat × Flags :=
  if m = 0 then (f.zero neg, 0)
  else
    let top := e + (Nat.log2 m : Int)
    let q := max (top - f.fw) (f.emin - f.fw)
    let (sig0, inexact) := quantise rm neg m e q
    let tiny :=
      let (sigU, _) := quantise rm neg m e (top - f.fw)
      top < f.emin && !(top + 1 == f.emin && sigU == 2 ^ (f.fw + 1))
    let (sig, q) := if sig0 = 2 ^ (f.fw + 1) then (2 ^ f.fw, q + 1) else (sig0, q)
    let ex := q + f.fw + f.bias
    if sig ≥ 2 ^ f.fw && ex ≥ f.emask then (overflowTo f rm neg, fOverflow ||| fInexact)
    else
      let body := if sig < 2 ^ f.fw then sig else ex.toNat * 2 ^ f.fw + (sig - 2 ^ f.fw)
      (bnat neg * f.signBit + body,
        (if inexact then fInexact else 0) ||| (if tiny && inexact then fUnderflow else 0))

/-- A NaN delivered in format `f`: quietened and kept in a long format, canonical in a short one (R77, R80). A NaN that
changes width keeps its sign and leading fraction bits (DEDUCED, log 7). -/
def packNan (f : Fmt) (x : Num) : Nat :=
  match x with
  | .nan neg fr fw =>
    if f.isLong then
      let fr' := if fw ≤ f.fw then fr * 2 ^ (f.fw - fw) else fr / 2 ^ (fw - f.fw)
      bnat neg * f.signBit + f.emask * 2 ^ f.fw + (2 ^ (f.fw - 1) + fr' % 2 ^ (f.fw - 1))
    else f.qnan
  | _ => f.qnan

/-- The result when some operand is NaN: the first NaN operand, quietened; invalid when any operand signals (R77). -/
def nanResult (f : Fmt) (xs : List Num) : Option (Nat × Flags) :=
  match xs.find? isNan with
  | some x => some (packNan f x, if xs.any sigNan then fInvalid else 0)
  | none => none

/-- An exact dyadic number: m · 2^e. -/
abbrev Dyad := Int × Int

def dyadAdd (a b : Dyad) : Dyad :=
  let e := min a.2 b.2
  (a.1 * 2 ^ (a.2 - e).toNat + b.1 * 2 ^ (b.2 - e).toNat, e)

def dyadOf (neg : Bool) (m : Nat) (e : Int) : Dyad := (if neg then -(m : Int) else m, e)

/-- An exact dyadic number rounded; `zneg` is the sign of an exact zero. -/
def packDyad (f : Fmt) (rm : Rm) (zneg : Bool) (d : Dyad) : Nat × Flags :=
  if d.1 = 0 then (f.zero zneg, 0) else roundPack f rm (d.1 < 0) d.1.natAbs d.2

/-- Sum of two exact values, one rounding; the sign of an exact zero follows IEEE 754-2019. -/
def addNum (f : Fmt) (rm : Rm) (a b : Num) : Nat × Flags :=
  match nanResult f [a, b], a, b with
  | some r, _, _ => r
  | none, .inf na, .inf nb => if na = nb then (f.inf na, 0) else (f.qnan, fInvalid)
  | none, .inf na, _ => (f.inf na, 0)
  | none, _, .inf nb => (f.inf nb, 0)
  | none, .fin na ma ea, .fin nb mb eb =>
    packDyad f rm (if na = nb then na else rm == .rtn) (dyadAdd (dyadOf na ma ea) (dyadOf nb mb eb))
  | none, _, _ => (f.qnan, 0)

/-- The exact product of two values; `none` for 0 × ∞. -/
def mulExact (a b : Num) : Option Num :=
  match a, b with
  | .inf na, .inf nb => some (.inf (na != nb))
  | .inf na, .fin nb m _ => if m = 0 then none else some (.inf (na != nb))
  | .fin na m _, .inf nb => if m = 0 then none else some (.inf (na != nb))
  | .fin na ma ea, .fin nb mb eb => some (.fin (na != nb) (ma * mb) (ea + eb))
  | .nan n x w, _ => some (.nan n x w)
  | _, .nan n x w => some (.nan n x w)

def packNum (f : Fmt) (rm : Rm) : Num → Nat × Flags
  | .nan n x w => (packNan f (.nan n x w), if sigNan (.nan n x w) then fInvalid else 0)
  | .inf n => (f.inf n, 0)
  | .fin n m e => roundPack f rm n m e

def negNum : Num → Num
  | .nan n x w => .nan (!n) x w
  | .inf n => .inf (!n)
  | .fin n m e => .fin (!n) m e

def fAdd (f : Fmt) (rm : Rm) (a b : Nat) : Nat × Flags := addNum f rm (decodeNum f a) (decodeNum f b)

/-- a − b: a NaN operand keeps its own sign. -/
def fSub (f : Fmt) (rm : Rm) (a b : Nat) : Nat × Flags :=
  let x := decodeNum f a
  let y := decodeNum f b
  if isNan y then addNum f rm x y else addNum f rm x (negNum y)

def fMul (f : Fmt) (rm : Rm) (a b : Nat) : Nat × Flags :=
  let x := decodeNum f a
  let y := decodeNum f b
  match nanResult f [x, y], mulExact x y with
  | some r, _ => r
  | none, none => (f.qnan, fInvalid)
  | none, some z => packNum f rm z

/-- a × b + c with one rounding; 0 × ∞ raises invalid even beside a quiet NaN (R77). `negC` subtracts instead. -/
def fFmaGen (f : Fmt) (rm : Rm) (negC : Bool) (a b c : Nat) : Nat × Flags :=
  let x := decodeNum f a
  let y := decodeNum f b
  let z := decodeNum f c
  match nanResult f [x, y, z], mulExact x y with
  | some r, none => (r.1, r.2 ||| fInvalid)
  | some r, some _ => r
  | none, none => (f.qnan, fInvalid)
  | none, some p => addNum f rm p (if negC then negNum z else z)

def fFma (f : Fmt) (rm : Rm) (a b c : Nat) : Nat × Flags := fFmaGen f rm false a b c
def fFms (f : Fmt) (rm : Rm) (a b c : Nat) : Nat × Flags := fFmaGen f rm true a b c

/-- A positive quotient n / d · 2^e rounded once: enough quotient bits are formed and the remainder is kept as one
sticky bit below them. -/
def packRatio (f : Fmt) (rm : Rm) (neg : Bool) (n d : Nat) (e : Int) : Nat × Flags :=
  let s := f.fw + 3 + Nat.log2 d
  let q := n * 2 ^ s / d
  let r := n * 2 ^ s % d
  roundPack f rm neg (2 * q + bnat (r != 0)) (e - s - 1)

def fDiv (f : Fmt) (rm : Rm) (a b : Nat) : Nat × Flags :=
  let x := decodeNum f a
  let y := decodeNum f b
  match nanResult f [x, y], x, y with
  | some r, _, _ => r
  | none, .inf _, .inf _ => (f.qnan, fInvalid)
  | none, .inf na, .fin nb _ _ => (f.inf (na != nb), 0)
  | none, .fin na _ _, .inf nb => (f.zero (na != nb), 0)
  | none, .fin na ma ea, .fin nb mb eb =>
    if mb = 0 then (if ma = 0 then (f.qnan, fInvalid) else (f.inf (na != nb), fDivZero))
    else if ma = 0 then (f.zero (na != nb), 0)
    else packRatio f rm (na != nb) ma mb (ea - eb)
  | none, _, _ => (f.qnan, 0)

/-- floor of a square root, by Newton's iteration from above; the fuel is ample for any operand of these formats. -/
def isqrtLoop (n : Nat) : Nat → Nat → Nat
  | 0, x => x
  | k + 1, x => let y := (x + n / x) / 2; if y < x then isqrtLoop n k y else x

def isqrt (n : Nat) : Nat :=
  if n = 0 then 0 else isqrtLoop n (Nat.log2 n + 8) (2 ^ (Nat.log2 n / 2 + 1))

/-- The square root of m · 2^e rounded once. -/
def packSqrt (f : Fmt) (rm : Rm) (m : Nat) (e : Int) : Nat × Flags :=
  let (m, e) := if e % 2 = 0 then (m, e) else (2 * m, e - 1)
  let s := f.fw + 4
  let n := m * 2 ^ (2 * s)
  let r := isqrt n
  roundPack f rm false (2 * r + bnat (r * r != n)) (e / 2 - s - 1)

def fSqrt (f : Fmt) (rm : Rm) (a : Nat) : Nat × Flags :=
  let x := decodeNum f a
  match nanResult f [x], x with
  | some r, _ => r
  | none, .inf n => if n then (f.qnan, fInvalid) else (f.inf false, 0)
  | none, .fin n m e =>
    if m = 0 then (f.zero n, 0) else if n then (f.qnan, fInvalid) else packSqrt f rm m e
  | none, _ => (f.qnan, 0)

/-- 1 / a, one rounding (R138). -/
def fRcp (f : Fmt) (a : Nat) : Nat × Flags :=
  let x := decodeNum f a
  match nanResult f [x], x with
  | some r, _ => r
  | none, .inf n => (f.zero n, 0)
  | none, .fin n m e => if m = 0 then (f.inf n, fDivZero) else packRatio f .rne n 1 m (-e)
  | none, _ => (f.qnan, 0)

/-- 1 / √a, correctly rounded (R138). -/
def fRsqrt (f : Fmt) (a : Nat) : Nat × Flags :=
  let x := decodeNum f a
  match nanResult f [x], x with
  | some r, _ => r
  | none, .inf n => if n then (f.qnan, fInvalid) else (f.zero false, 0)
  | none, .fin n m e =>
    if m = 0 then (f.inf n, fDivZero)
    else if n then (f.qnan, fInvalid)
    else
      let (m, e) := if e % 2 = 0 then (m, e) else (2 * m, e - 1)
      let s := f.fw + 6 + Nat.log2 m
      let q := 2 ^ (2 * s) / m
      let r := isqrt q
      roundPack f .rne false (2 * r + bnat (r * r * m != 2 ^ (2 * s))) (-(e / 2) - s - 1)
  | none, _ => (f.qnan, 0)

/-- Exact comparison of two values that are not NaN: −1, 0 or 1. Zeros of either sign are equal. -/
def cmpNum (a b : Num) : Int :=
  match a, b with
  | .inf na, .inf nb => if na = nb then 0 else if na then -1 else 1
  | .inf na, _ => if na then -1 else 1
  | _, .inf nb => if nb then 1 else -1
  | .fin na ma ea, .fin nb mb eb =>
    let d := dyadAdd (dyadOf na ma ea) (dyadOf (!nb) mb eb)
    if d.1 < 0 then -1 else if d.1 = 0 then 0 else 1
  | _, _ => 0

def numNeg : Num → Bool
  | .nan n _ _ => n
  | .inf n => n
  | .fin n _ _ => n

/-- IEEE 754-2019 minimum (or maximum): a NaN operand gives a NaN, and −0 lies below +0. -/
def fMinMax (f : Fmt) (isMax : Bool) (a b : Nat) : Nat × Flags :=
  let x := decodeNum f a
  let y := decodeNum f b
  match nanResult f [x, y] with
  | some r => r
  | none =>
    let c := cmpNum x y
    let less := c < 0 || (c == 0 && numNeg x && !numNeg y)
    (if less != isMax then a else b, 0)

def fMin (f : Fmt) (a b : Nat) : Nat × Flags := fMinMax f false a b
def fMax (f : Fmt) (a b : Nat) : Nat × Flags := fMinMax f true a b

/-- A quiet comparison: false on a NaN, invalid on a signalling one. -/
def fCmp (f : Fmt) (test : Int → Bool) (a b : Nat) : Bool × Flags :=
  let x := decodeNum f a
  let y := decodeNum f b
  if isNan x || isNan y then (false, if sigNan x || sigNan y then fInvalid else 0)
  else (test (cmpNum x y), 0)

def fLt (f : Fmt) (a b : Nat) : Bool × Flags := fCmp f (· < 0) a b
def fLe (f : Fmt) (a b : Nat) : Bool × Flags := fCmp f (· ≤ 0) a b
def fEq (f : Fmt) (a b : Nat) : Bool × Flags := fCmp f (· == 0) a b

/-- The plain truth of `a > 0`, as the solver's pivot tests ask it (false on a NaN). -/
def fPos (f : Fmt) (a : Nat) : Bool := (fLt f (f.zero false) a).1

def fIsNan (f : Fmt) (a : Nat) : Bool := isNan (decodeNum f a)

/-- NaN or infinity. -/
def fNotFinite (f : Fmt) (a : Nat) : Bool :=
  match decodeNum f a with
  | .fin .. => false
  | _ => true

/-- abs, negate and copySign are quiet operations on the sign bit (R137). -/
def fAbs (f : Fmt) (a : Nat) : Nat := a % f.signBit
def fNeg (f : Fmt) (a : Nat) : Nat := if a / f.signBit % 2 = 1 then a - f.signBit else a + f.signBit
def fCopySign (f : Fmt) (a b : Nat) : Nat := a % f.signBit + b / f.signBit % 2 * f.signBit

/-- A finite value times 2^j, exact but for the final placement. -/
def fScale (f : Fmt) (a : Nat) (j : Int) : Nat × Flags :=
  match decodeNum f a with
  | .fin n m e => roundPack f .rne n m (e + j)
  | x => packNum f .rne x

/-- roundToIntegralExact under `rm`. -/
def fRint (f : Fmt) (rm : Rm) (a : Nat) : Nat × Flags :=
  let x := decodeNum f a
  match nanResult f [x], x with
  | some r, _ => r
  | none, .fin n m e =>
    if 0 ≤ e then (a, 0)
    else
      let (i, lost) := quantise rm n m e 0
      if i = 0 then (f.zero n, if lost then fInexact else 0)
      else ((roundPack f .rne n i 0).1, if lost then fInexact else 0)
  | none, .inf n => (f.inf n, 0)
  | none, _ => (f.qnan, 0)

/-- Conversion of an exact value times 2^k into format `f` (R75, R80, R88): one rounding. -/
def packScaled (f : Fmt) (rm : Rm) (k : Int) : Num → Nat × Flags
  | .fin n m e => roundPack f rm n m (e + k)
  | x => packNum f rm x

/-- Conversion between two floating-point formats with scale difference `k`. -/
def fConvert (src dst : Fmt) (rm : Rm) (k : Int) (a : Nat) : Nat × Flags :=
  packScaled dst rm k (decodeNum src a)

/-- A value to a two's complement or unsigned integer of `w` bits (R86): a NaN, an infinity or a rounded value out of
range raises invalid and delivers the given pattern, and raises no inexact. -/
def numToInt (rm : Rm) (lo hi : Int) (bad : Nat) (w : Nat) (x : Num) : Nat × Flags :=
  match x with
  | .fin n m e =>
    let (i, lost) := quantise rm n m e 0
    let v : Int := if n then -(i : Int) else i
    if v < lo || hi < v then (bad, fInvalid)
    else ((ofInt w v).toNat, if lost then fInexact else 0)
  | _ => (bad, fInvalid)

def numToI32 (rm : Rm) (x : Num) : Nat × Flags :=
  numToInt rm (-2147483648) 2147483647 0x80000000 32 x

def numToU8 (rm : Rm) (x : Num) : Nat × Flags := numToInt rm 0 255 0 8 x

/-- An integer as an exact value. -/
def intNum (v : Int) : Num := .fin (v < 0) v.natAbs 0

/-- A term of an exact sum (R107, R108): a NaN (with the flag it raises), an infinity, or an exact number. -/
inductive Term where
  | nan (inv : Bool)
  | inf (neg : Bool)
  | fin (neg : Bool) (m : Nat) (e : Int)
deriving DecidableEq, Repr

/-- The exact product of two operands as a term: 0 × ∞ is an invalid NaN, a signalling operand is invalid. -/
def prodTerm (a b : Num) : Term :=
  if isNan a || isNan b then .nan (sigNan a || sigNan b)
  else match mulExact a b with
    | some (.inf n) => .inf n
    | some (.fin n m e) => .fin n m e
    | _ => .nan true

/-- A distance term (R107): the squared or the absolute difference; ∞ − ∞ is an invalid NaN. -/
def distTerm (absolute : Bool) (a b : Num) : Term :=
  if isNan a || isNan b then .nan (sigNan a || sigNan b)
  else match a, b with
    | .inf na, .inf nb => if na = nb then .nan true else .inf false
    | .inf _, _ => .inf false
    | _, .inf _ => .inf false
    | .fin na ma ea, .fin nb mb eb =>
      let d := dyadAdd (dyadOf na ma ea) (dyadOf (!nb) mb eb)
      if absolute then .fin false d.1.natAbs d.2
      else .fin false (d.1.natAbs * d.1.natAbs) (d.2 + d.2)
    | _, _ => .nan false

/-- The exact sum of a group's terms (R108): an exact zero is −0 only when every term is −0. The flag is invalid. -/
def sumTerms (ts : List Term) : Num × Bool :=
  let inv := ts.any fun t => match t with | .nan i => i | _ => false
  let nan := ts.any fun t => match t with | .nan _ => true | _ => false
  let pinf := ts.any fun t => match t with | .inf n => !n | _ => false
  let ninf := ts.any fun t => match t with | .inf n => n | _ => false
  let d := ts.foldl (fun acc t => match t with | .fin n m e => dyadAdd acc (dyadOf n m e) | _ => acc) ((0, 0) : Dyad)
  let negz := ts.all fun t => match t with | .fin n m _ => n && m == 0 | _ => false
  if nan || (pinf && ninf) then (.nan false (2 ^ 22) 23, inv || (pinf && ninf))
  else if pinf then (.inf false, inv)
  else if ninf then (.inf true, inv)
  else if d.1 = 0 then (.fin negz 0 0, inv)
  else (.fin (d.1 < 0) d.1.natAbs d.2, inv)

/-- One K group (R107): the exact sum of the terms is added to `c` with one rounding to nearest even. Every NaN
delivered is canonical (R108). An empty group changes nothing. -/
def groupStep (f : Fmt) (c : Nat) (ts : List Term) : Nat × Flags :=
  if ts.isEmpty then (c, 0)
  else
    let (s, inv) := sumTerms ts
    let x := decodeNum f c
    let r := addNum f .rne x s
    (if fIsNan f r.1 then f.qnan else r.1, r.2 ||| (if inv then fInvalid else 0))

/-- Consecutive groups of four, the last holding the remainder. -/
def groupsOf4 {α : Type} : List α → List (List α)
  | a :: b :: c :: d :: t => [a, b, c, d] :: groupsOf4 t
  | [] => []
  | r => [r]

/-- A chain of K groups over a whole list of terms, in ascending order. -/
def groupChain (f : Fmt) (c : Nat) (ts : List Term) : Nat × Flags :=
  (groupsOf4 ts).foldl (fun (acc : Nat × Flags) g => let r := groupStep f acc.1 g; (r.1, acc.2 ||| r.2)) (c, 0)

end Sys2Proof
end

