-- ==== Sys2Proof/Machine/Convert.lean ====
section
/-! DEFINITION. The nine formats, the one conversion rule, scale registers and exponent histograms
(04_number_formats R74 to R98). An element of any format is its bit pattern, held as a number. -/

namespace Sys2Proof

/-! ### Format codes (R74) -/

def cF64 : Nat := 0
def cF32 : Nat := 1
def cS16 : Nat := 2
def cP16 : Nat := 3
def cS8 : Nat := 4
def cP8 : Nat := 5
def cQ4 : Nat := 6
def cI32 : Nat := 8
def cU8 : Nat := 9

/-- Is the code one that R74 defines? -/
def fmtDefined (c : Nat) : Bool := c ≤ 6 || c == 8 || c == 9

/-- Floating-point formats, Q4 among them; the rest are integers. -/
def fmtFloat (c : Nat) : Bool := c ≤ 6

/-- The binary format of a code (F32 stands in for codes that have none). -/
def fmtOf : Nat → Fmt
  | 0 => fF64 | 1 => fF32 | 2 => fS16 | 3 => fP16 | 4 => fS8 | 5 => fP8 | _ => fF32

/-- Bits of one element in memory, Q4's 4 included (R74). -/
def fmtBits : Nat → Nat
  | 0 => 64 | 1 => 32 | 2 => 16 | 3 => 16 | 4 => 8 | 5 => 8 | 6 => 4 | 8 => 32 | 9 => 8 | _ => 0

/-- Bytes of one element; Q4 moves in blocks and has none of its own. -/
def fmtBytes (c : Nat) : Nat := fmtBits c / 8

/-- The value of an element that is not Q4. -/
def elemNum (c : Nat) (b : Nat) : Num :=
  if c = cI32 then intNum (signed 32 b) else if c = cU8 then intNum (b % 256) else decodeNum (fmtOf c) b

/-- The single rounding of a value times 2^k into format `c`, which is not Q4 (R86, R88). Integers take no scale. -/
def elemPack (c : Nat) (rm : Rm) (k : Int) (x : Num) : Nat × Flags :=
  if c = cI32 then numToI32 rm x
  else if c = cU8 then numToU8 rm x
  else packScaled (fmtOf c) rm k x

/-- The canonical quiet NaN of a floating-point format; what an invalid conversion gives for an integer one. -/
def elemNan (c : Nat) : Nat :=
  if c = cI32 then 0x80000000 else if c = cU8 then 0 else (fmtOf c).qnan

/-! ### Q4 blocks (R81 to R85) -/

/-- The value of a Q4 code under a block exponent (R81, R82). -/
def q4Value (code be : Nat) : Num :=
  let neg := code / 8 % 2 == 1
  match code % 8 with
  | 0 => .fin neg 0 0
  | c => if c < 2 then .fin neg 1 ((be : Int) - 16)
         else .fin neg (2 + c % 2) ((be : Int) - 15 + c / 2 - 2)

/-- The 32 values of a 17-byte block and the flags of reading it: a non-finite block reads as NaNs, and one with a
reserved bit set raises invalid too (R84). -/
def q4Read (blk : List Byte) : List Num × Flags :=
  let b := (blk.getD 16 0).toNat
  if b / 32 != 0 then (List.replicate 32 (.nan false 2 2), fInvalid)
  else if b = 31 then (List.replicate 32 (.nan false 2 2), 0)
  else ((upTo 32).map fun j => q4Value ((blk.getD (j / 2) 0).toNat / 16 ^ (j % 2) % 16) b, 0)

/-- The non-finite block (R85). -/
def q4NonFinite : List Byte := List.replicate 16 0 ++ [31]

def magLess (a : Num) (m : Nat) (e : Int) : Bool :=
  match a with
  | .fin _ ma ea => cmpNum (.fin false ma ea) (.fin false m e) < 0
  | _ => false

/-- The smallest block exponent from 7 to 20 with every magnitude below 7 · 2^(BE−15) (R85 step 4). -/
def q4Exponent (ys : List Num) : Nat :=
  ((countUp 7 13).find? fun (be : Nat) => ys.all fun y => magLess y 7 ((be : Int) - 15)).getD 20

/-- The nearest code to one value, ties to the even code (R85 step 5). The codes are those of a small binary format
whose exponent bias is 3, so the value is moved two binades down. -/
def q4Code (be : Nat) (y : Num) : Nat × Flags :=
  match y with
  | .fin n m e =>
    let r := roundPack ⟨3, 1⟩ .rne n m (e - ((be : Int) - 15) - 2)
    (r.1 % 8 + 8 * bnat n, r.2)
  | _ => (0, 0)

/-- One block from 32 values already scaled, with its flags (R85). -/
def q4Write (ys : List Num) : List Byte × Flags :=
  if ys.any (fun y => match y with | .fin .. => false | _ => true) then (q4NonFinite, fInvalid)
  else if !ys.all (fun y => magLess y 224 0) then (q4NonFinite, fOverflow ||| fInexact)
  else
    let be := q4Exponent ys
    let cs := ys.map (q4Code be)
    let code := fun j => (cs.getD j (0, 0)).1
    ((upTo 16).map (fun j => BitVec.ofNat 8 (code (2 * j) + 16 * code (2 * j + 1))) ++ [BitVec.ofNat 8 be],
      cs.foldl (fun f c => f ||| c.2) 0)

/-- A value times 2^k, exact (R88). -/
def scaleNum (k : Int) : Num → Num
  | .fin n m e => .fin n m (e + k)
  | x => x

/-! ### Scale registers (R87 to R94) -/

/-- A scale register (R87); its defaults are its reset values. -/
structure ScaleReg where
  max : U32 := 0
  maxe : U16 := 0x8000
  tfmt : BitVec 4 := 0
  policy : BitVec 2 := 0
  headroom : BitVec 3 := 0
  set : Bool := false
  pre : Bool := false
  ovf : Bool := false
  scale : U16 := 0
deriving DecidableEq, Repr

/-- The 128-bit word of the register (R87). -/
def ScaleReg.word (r : ScaleReg) : BitVec 128 :=
  let w : BitVec 128 := 0
  let w := putBits w 96 r.max
  let w := putBits w 80 r.maxe
  let w := putBits w 60 r.tfmt
  let w := putBits w 58 r.policy
  let w := putBits w 55 r.headroom
  let w := putBits w 54 (bit1 r.set)
  let w := putBits w 53 (bit1 r.pre)
  let w := putBits w 52 (bit1 r.ovf)
  putBits w 0 r.scale

/-- A scale-write: the register after it, or the cause it faults with (R87). -/
def ScaleReg.writeWord (r : ScaleReg) (w : BitVec 128) : Except U16 ScaleReg :=
  if field w 64 16 != 0 || field w 16 36 != 0 then .error 0x0A02
  else if signed 16 (field w 0 16) < -1024 || 1023 < signed 16 (field w 0 16) || field w 58 2 = 3 then .error 0x0C01
  else .ok { r with max := bits w 96 32, maxe := bits w 80 16, policy := bits w 58 2, headroom := bits w 55 3,
                    set := flag w 54, ovf := r.ovf && !flag w 52, scale := bits w 0 16, pre := false }

/-- The greatest binade of a format, as the advance takes it (R91). -/
def topBinade (c : Nat) : Int :=
  match c with
  | 0 => 1023 | 1 => 127 | 2 => 127 | 3 => 31 | 4 => 15 | _ => 7

/-- The scale that MAXE `e` gives for a target format (R91). -/
def scaleFor (tfmt headroom : Nat) (e : Int) : U16 :=
  ofInt 16 (max (-1024) (min 1023 (topBinade tfmt - 1 - headroom - e)))

/-- Gathers one source value of a tensor at scale `a` (R90): the running maximum and its exact binade. -/
def ScaleReg.gather (r : ScaleReg) (a : Int) (x : Num) : ScaleReg :=
  match x with
  | .fin _ m e =>
    let p := (roundPack fF32 .rtp false m (e - a)).1
    let mx := (fMax fF32 r.max.toNat p).1
    let r := { r with max := BitVec.ofNat 32 mx }
    if m = 0 then r
    else
      let b := e + (Nat.log2 m : Int) - a
      if r.maxe = 0x8000 || r.maxe.toInt < b then { r with maxe := ofInt 16 b } else r
  | _ => r

/-- The advance of a register at its advance point (R91). -/
def ScaleReg.advance (r : ScaleReg) : ScaleReg :=
  let r := if r.maxe = 0x8000 then r else { r with scale := scaleFor r.tfmt.toNat r.headroom.toNat r.maxe.toInt }
  { r with max := 0, maxe := 0x8000 }

/-- The end of a first-use pre-pass into format `dst`, once the maxima are gathered (R93 steps 2 and 3). -/
def ScaleReg.endPrepass (r : ScaleReg) (dst : Nat) : ScaleReg :=
  let sc := if r.maxe = 0x8000 then 0 else scaleFor dst r.headroom.toNat r.maxe.toInt
  { r with scale := sc, max := 0, maxe := 0x8000, set := true, pre := true }

/-! ### Exponent histograms (R95 to R97) -/

/-- A histogram slot (R95); its defaults are its reset values. Counts saturate at 0xFFFF_FFFF. -/
structure Hist where
  nan : U32 := 0
  inf : U32 := 0
  subn : U32 := 0
  zero : U32 := 0
  bins : List U32 := List.replicate 64 0
  mixed : Bool := false
  used : Bool := false
  fmt : BitVec 4 := 0
deriving DecidableEq, Repr

/-- A saturating count (R97). -/
def satInc (c : U32) : U32 := if c = 0xFFFFFFFF then c else c + 1

/-- emin and binades per bin of a format (R96). -/
def histShape (c : Nat) : Int × Int :=
  match c with
  | 0 => (-1022, 32) | 1 => (-126, 4) | 2 => (-126, 4) | 3 => (-30, 1) | 4 => (-14, 1) | 5 => (-6, 1) | _ => (-9, 1)

/-- Counts one element written in format `c` with value `x` (R96, R97). -/
def Hist.count (h : Hist) (c : Nat) (x : Num) : Hist :=
  if !fmtFloat c then h
  else
    let h := if !h.used then { h with used := true, fmt := BitVec.ofNat 4 c }
             else if h.fmt.toNat = c then h else { h with mixed := true }
    match x with
    | .nan .. => { h with nan := satInc h.nan }
    | .inf _ => { h with inf := satInc h.inf }
    | .fin _ m e =>
      if m = 0 then { h with zero := satInc h.zero }
      else
        let b := e + (Nat.log2 m : Int)
        let (emin, w) := histShape c
        if c != cQ4 && b < emin then { h with subn := satInc h.subn }
        else
          let i := (min 63 (max 0 ((b - emin) / w))).toNat
          { h with bins := h.bins.set i (satInc (h.bins.getD i 0)) }

/-- The 288 bytes of a slot (R95). -/
def Hist.bytes (h : Hist) : List Byte :=
  leBytes 16 (h.fmt.toNat + 16 * bnat h.used + 32 * bnat h.mixed)
    ++ (h.bins.map fun b => leBytes 4 b.toNat).flatten
    ++ leBytes 4 h.zero.toNat ++ leBytes 4 h.subn.toNat ++ leBytes 4 h.inf.toNat ++ leBytes 4 h.nan.toNat

end Sys2Proof
end

