-- ==== Sys2Proof/Machine/State.lean ====
section
/-! DEFINITION. The state of the device: every register, buffer, queue, counter, mode and ball the spec gives it, as
plain data, with the queue of waiting commands. A field's default is its value right after power-on reset, the device
standing in HOLD (R434); what the spec gives no value for is named in the assumption log. -/

namespace Sys2Proof.Machine

/-! ### Identity and bring-up (00_scope, 10, 19) -/

inductive Grade where
  | a | b
deriving DecidableEq, Repr

/-- Rooms and solver units that each compute die of a grade has (R1). -/
def Grade.roomsPerDie : Grade → Nat
  | .a => 32
  | .b => 28
def Grade.unitsPerDie : Grade → Nat
  | .a => 4
  | .b => 2

/-- On-chip SRAM of a grade in MiB: 2 for each room, 448 for each of four base dies (R1). -/
def Grade.sramMiB (g : Grade) : Nat := 2 * (4 * g.roomsPerDie) + 4 * 448

/-- What fuses decide (R1, R233) (DESIGN CHOICE, log 5). -/
structure Ident where
  grade : Grade := .a
  roomsPresent : BitVec 128 := BitVec.allOnes 128
  unitsPresent : U16 := 0xFFFF
  portsPresent : U16 := 0xFFFF
  serial : U64 := 0
  revision : U16 := 1
deriving DecidableEq, Repr

/-- Do the presence masks agree with the grade: on every compute die its rooms and solver units, every peer port (R1)? -/
def Ident.ok (i : Ident) : Bool :=
  (List.range 4).all (fun d =>
    ((List.range 32).filter fun n => i.roomsPresent.getLsbD (32 * d + n)).length == i.grade.roomsPerDie
      && ((List.range 4).filter fun n => i.unitsPresent.getLsbD (4 * d + n)).length == i.grade.unitsPerDie)
    && i.portsPresent == 0xFFFF

/-- The stages of bring-up (R434); `off` while a supply is below its tolerance (R450). -/
inductive Stage where
  | off | b0 | b1 | b2 | hold | b3 | b4 | b5 | running
deriving DecidableEq, Repr

structure Boot where
  stage : Stage := .hold
  poresetLow : Bool := false
  /-- The stages under way follow a device reset, so B2 leads to B3. -/
  warm : Bool := false
  /-- Shut down by R382 or R423. -/
  stopped : Bool := false
  /-- The shutdown is that of R423. -/
  ctlFail : Bool := false
  nodeId : BitVec 7 := 1
  clgen : BitVec 2 := 2
  fwsrc : Bool := false
  imageSrc : BitVec 2 := 0
  bootLine : Line := 0
  bootLineUp : Bool := false
  runDigest : BitVec 512 := 0
  stagedDigest : BitVec 512 := 0
  svnRun : U16 := 0
  svnMin : U16 := 0
  updating : Bool := false
  stagedOk : Bool := false
  stagedFail : Bool := false
  staging : Bool := false
  vendorKey : List Byte := []
  /-- Partitions still to be formed in B5. -/
  toForm : List Nat := []
deriving DecidableEq, Repr

/-! ### Time base and events (02) -/

/-- The states of the time base (R38). -/
inductive TimeMode where
  | unset | acquiring | locked | freeRunning
deriving DecidableEq, Repr

structure TimeBase where
  mode : TimeMode := .unset
  counter : U64 := 0
  /-- Fraction of a nanosecond, in units of 10^-4 ns (R37). -/
  frac : Nat := 0
  /-- What is still to be slewed, in units of 10^-4 ns (R39). -/
  slew : Int := 0
  slewing : Bool := false
  stepPending : Bool := false
  mflag : Bool := false
  tref : Bool := false
  lastErr : U32 := 0
  lastEdge : Option Nat := none
  /-- TIME and end of the previous well-formed frame. -/
  lastFrame : Option (U64 × Nat) := none
  /-- TIME of the valid frame of the interval under way. -/
  interval : Option U64 := none
  run : Nat := 0
  badRun : Nat := 0
  /-- Elapsed ns of the device's own tick, 4 a tick: the model's own measure, by which edges and frames are placed. -/
  ticks : Nat := 0
  /-- Elapsed installation time in ns, the model's own measure of durations (R5): it moves with the counter where the counter
  moves, and with the tick elsewhere. -/
  now : Nat := 0
deriving DecidableEq, Repr

/-- An event-table entry (R44). -/
structure EventEntry where
  time : U64 := 0
  kind : Byte := 0
  state : BitVec 3 := 0
  part : BitVec 3 := 0
  arg : U32 := 0
deriving DecidableEq, Repr

/-! ### Partitions: tenancy (01, 15) -/

inductive PMode where
  | one | two | four
deriving DecidableEq, Repr

/-- The security states of R347; `absent` is code 7, and also a partition not yet formed in bring-up (DEDUCED, log 39). -/
inductive SecState where
  | free | opened | keywait | sealed | stopping | scrub | resetting | absent
deriving DecidableEq, Repr

/-- The keys of a partition (R342). -/
structure Keys where
  kT : Option (BitVec 256) := none
  kP : Option (BitVec 256) := none
  kC : Option (BitVec 256) := none
  k1 : Option (BitVec 256) := none
  k2 : Option (BitVec 256) := none
  kM : Option (BitVec 256) := none
  c1 : Option (BitVec 256) := none
  c2 : Option (BitVec 256) := none
  cM : Option (BitVec 256) := none
  s1 : Option (BitVec 256) := none
  s2 : Option (BitVec 256) := none
  importKey : Option (List Byte) := none
deriving DecidableEq, Repr

/-- A scrub under way (R361, R362): what started it, and which of its steps are done. -/
structure Scrub where
  zeroFilled : Bool := false
  cleared : Bool := false
deriving DecidableEq, Repr

/-- A stop request that has reached the partition (R70): when, and the REASON a stop image would carry (R354): 0 where
none is to be sealed. -/
structure StopReq where
  at_ : Nat := 0
  reason : Byte := 0
  ckid : U32 := 0
deriving DecidableEq, Repr

/-- A checkpoint job (R355). -/
structure CkJob where
  op : Byte := 0
  part : U16 := 0
  ckid : U32 := 0
  granules : U32 := 0
  caddr : U64 := 0
  addr : BitVec 48 := 0
  done : U32 := 0
  /-- C1, C2 and C_M of the job (R342), 32 bytes each. -/
  keys : List Byte := []
  /-- How the job has come out, to be reported at its end: cause (0: complete) and failing granule. -/
  result : Option (U16 × U32) := none
deriving DecidableEq, Repr

/-- A stop-image export under way (R357, R358): its identifier, its REASON, the stamp and quality of sealing, the time
T of the slot-stop that bounds it, the companion address, and the slot it belongs to. -/
structure Export where
  ckid : U32 := 0
  reason : Byte := 0
  tseal : U64 := 0
  tq : BitVec 2 := 0
  deadline : Option U64 := none
  addr : U64 := 0
  slotId : U32 := 0
  tslot : U64 := 0
  tkfp : U64 := 0
  /-- Bytes of the part, header first, still to be written to companion memory when the export ends. -/
  granules : U32 := 0
deriving DecidableEq, Repr

/-- Tenancy and security of one partition number. -/
structure PartSec where
  st : SecState := .absent
  sealedSlot : Bool := false
  slotId : U32 := 0
  tslot : U64 := 0
  sealMode : Byte := 0
  guard : U32 := 2
  windowEn : Bool := false
  stopReq : Option StopReq := none
  stopped : Bool := false
  scrub : Option Scrub := none
  keys : Keys := {}
  ek : List Byte := []
  failedImports : Byte := 0
  ckid : U32 := 0
  ckAddr : U64 := 0
  job : Option CkJob := none
  jobStatus : BitVec 256 := 0
  exportStatus : BitVec 256 := 0
  /-- A stop-image export under way (R357). -/
  exporting : Option Export := none
  tenantCtr : U64 := 0
  /-- STREAM resumes held until a stop-image export ends (R357). -/
  holdResume : Bool := false
deriving DecidableEq, Repr

/-! ### Memory system (13) -/

/-- What the check codes found as something was read, to be counted and reported (R310, R312, R413): in the beats of a granule (how
many were corrected, how many could not be, whether its tag mismatched), in the words of a line or of a buffer entry, in other
on-chip memory; and a stack's own correction. -/
inductive Found where
  | stack (granule fixed bad : Nat) (mismatch : Bool)
  | line (granule fixed bad : Nat)
  | buffer (granule fixed bad : Nat)
  | other (bad : Bool)
  | onDie (granule : Nat)
deriving DecidableEq, Repr

/-- An atrium line (R296, R297). -/
structure AtLine where
  data : BitVec 2048 := 0
  dirty : Bool := false
  poison : BitVec 4 := 0
  /-- What errors have XORed into its 32 words as stored, each of 79 bits with its check bits (R296, R307). -/
  flaws : Tbl (BitVec 79) := []
  way : BitVec 4 := 0
  use : Nat := 0
deriving DecidableEq, Repr

/-- An entry of a write-combining buffer (R299). -/
structure WcbEntry where
  stack : Nat := 0
  granule : Nat := 0
  data : BitVec 2048 := 0
  mask : BitVec 256 := 0
  poison : BitVec 4 := 0
  flaws : Tbl (BitVec 79) := []
  part : Nat := 0
  last : Nat := 0
deriving DecidableEq, Repr

/-- The arbiter of one port (R303 to R305). -/
structure Arb where
  winner : Option Nat := none
  beats : Nat := 0
  ptr : Nat := 0
  waits : Tbl Nat := []
  forced : List Nat := []
  /-- Requesters whose transfer was cut off: its remainder is a request (R305). -/
  owed : List Nat := []
deriving DecidableEq, Repr

structure MemSys where
  /-- The bytes the stacks hold, as the encryption engine presents them. -/
  hbm : Mem := []
  /-- Per quarter of the address space: what an unlisted byte is. 0: zero; k: the k-th undefined contents. -/
  back : Tbl Nat := []
  /-- Pseudo-channels that quarantine wrote zero, with the mode they were placed in and the first contents number that comes
  after (R420). -/
  zeroPc : List (PMode × Nat × Nat) := []
  poison : List Nat := []
  /-- What errors have XORed into beats as stored (by address / 32), and into the stored tags of granules (R308, R352). -/
  flaws : Tbl (BitVec 288) := []
  tagFlaws : Tbl U64 := []
  /-- Granules written to a stack since their partition was last written zero or formed (R352). -/
  written : List Nat := []
  /-- What the check codes have found and is still to be reported (R312). -/
  found : List Found := []
  lines : Tbl AtLine := []
  locked : Tbl Nat := []
  /-- The entries of every stack's buffer, oldest first; a granule has at most one. -/
  wcb : List WcbEntry := []
  useClock : Nat := 0
  blocked : Tbl U64 := []
  events : Tbl (BitVec 256) := []
  eventCount : U32 := 0
  bankW : Byte := 16
  bankH : Byte := 16
  egressW : Byte := 32
  egressH : Byte := 8
  stackCounters : Tbl U32 := []
  atriumCounters : Tbl U32 := []
  arb : Tbl Arb := []
  lastCutLog : Tbl Nat := []
  /-- What a defective adder group XORs into each word it sums, by unit of class 4 (R273). -/
  adders : Tbl U32 := []
deriving DecidableEq, Repr

/-! ### Companion link (14) and mirror (17) -/

/-- A message the device sends on the link (R319). -/
structure OutMsg where
  typ : BitVec 5
  addr : BitVec 52 := 0
  tag : BitVec 11 := 0
  status : BitVec 4 := 0
  data : List Byte := []
  mask : U64 := 0
deriving DecidableEq, Repr

/-- A message in an outbound flit, not yet acknowledged: the FRAME of the flit and the message's first slot (R318 to R320). -/
structure SentMsg where
  frame : U16
  slot : Nat
  msg : OutMsg
deriving DecidableEq, Repr

/-- Why the device has read a companion line (R319): a tail line, ownership of a notify line, or half of a command
entry. -/
inductive Purpose where
  | tail (ring : Nat)
  | notify (ring : Nat)
  | entry (ring : Nat) (seq : Nat) (half : Nat)
deriving DecidableEq, Repr

/-- A mailbox of the mirror (R396). -/
structure Mailbox where
  req : Line := 0
  rsp : Line := 0
  buf : Mem := []
deriving DecidableEq, Repr

/-- The companion link (R318 to R326); its generation and state at reset are PRESUMED, log 15 (PRESUMED, log 15). -/
structure LinkSt where
  gen : BitVec 2 := 3
  up : Bool := true
  retrains : Byte := 0
  crcFails : U16 := 0
  discarded : U16 := 0
  base : U64 := 0
  rxFrame : U16 := 0
  nakDue : Bool := false
  /-- FRAME of the next outbound flit; how far ahead of it the flit being filled is, and its next free slot; how many flits from it
  on have their response slots taken (R323). -/
  txFrame : U16 := 0
  ahead : Nat := 0
  slot : Nat := 5
  regAhead : Nat := 0
  replay : List SentMsg := []
  /-- Reads outstanding by TAG, and reads that wait for a TAG: TYPE, address, purpose. -/
  reads : Tbl Purpose := []
  waiting : List (BitVec 5 × Nat × Purpose) := []
  nextTag : BitVec 11 := 0
  boxes : Tbl Mailbox := []
deriving DecidableEq, Repr

/-! ### Power, clocks and temperature (16) -/

/-- A compute die's clock, supply and droop (R371, R372, R379 to R381). -/
structure DiePower where
  point : BitVec 7 := 0
  target : BitVec 7 := 0
  ceiling : BitVec 7 := 64
  duty : BitVec 4 := 8
  mhz : U16 := 800
  /-- The voltage commanded over AVSBus, in mV; 0.70 V at boot (R446). -/
  mv : U16 := 700
  droop : Bool := false
  droopAt : Nat := 0
  droopLogged : Bool := false
  holdoff : Bool := false
  pendingTarget : Bool := false
  pendingHalve : Bool := false
  droopCount : U32 := 0
  hot : Bool := false
  lastCeiling : Nat := 0
deriving DecidableEq, Repr

/-- A regulator behind the PMBus ports (R383). -/
structure Regulator where
  addr : Byte := 0
  eout : U32 := 0
  rate : U32 := 0
  known : Bool := false
  silent : Nat := 0
  logged : Bool := false
  vout : U16 := 0
  iout : U16 := 0
  temp : U16 := 0
deriving DecidableEq, Repr

/-- The power controller (R373 to R385); what it holds before the first control period is a DESIGN CHOICE, log 17 (DESIGN CHOICE, log 17). -/
structure Power where
  cap : U16 := 1800
  capNow : U16 := 1800
  w : U32 := 10000
  /-- The window's samples in µJ, oldest first, in runs (how many, the sample). -/
  window : List (Nat × Nat) := [(10000, 1800000)]
  sum : Nat := 18000000000
  lastSample : Nat := 0
  capPoint : BitVec 7 := 64
  capDuty : BitVec 4 := 8
  unattainable : Bool := false
  fastLimit : Bool := false
  coolantStop : Bool := false
  trip : Bool := false
  silent : Bool := false
  latched : Byte := 0
  dies : Tbl DiePower := []
  temps : Tbl U32 := []
  regs : Tbl Regulator := []
  pmbusLocked : Bool := false
  /-- Activity estimates of the trailing 2 ms in µJ, oldest first, in runs. -/
  fast : List (Nat × Nat) := []
  fastSum : Nat := 0
  energyPart : Tbl U64 := []
  energyRing : Tbl U64 := []
  energyOver : U64 := 0
  energyTotal : U64 := 0
  coolLowSince : Option Nat := none
  thermtrip : Bool := false
  refresh2x : BitVec 12 := 0
  halfRate : BitVec 12 := 0
  gated : Bool := false
  vmin : Bool := false
  period : Bool := false
  periodCount : Nat := 0
deriving DecidableEq, Repr

/-! ### Dictionary, field bus, trouble log (17) -/

/-- The path over which a dictionary request came, and what its answer needs (R392). -/
inductive Path where
  | direct
  | can (fd : Bool)
  | canSeg (fd : Bool)
  | box (m : Nat)
  | tap
deriving DecidableEq, Repr

/-- A dictionary request waiting for a cycle (R393). -/
structure Req where
  src : Src
  path : Path := .direct
  index : U16
  sub : Byte
  write : Bool := false
  badOp : Bool := false
  data : List Byte := []
  reqid : U16 := 0
  ctr : U64 := 0
  /-- The whole request line of a mailbox. -/
  line : Line := 0
deriving DecidableEq, Repr

/-- The answer a path was last given (R395). -/
structure Answer where
  index : U16 := 0
  sub : Byte := 0
  code : Byte := 0
  data : List Byte := []
deriving DecidableEq, Repr

structure DictSt where
  waiting : List Req := []
  answers : Tbl Answer := []
  requests : U32 := 0
  refusals : U32 := 0
  conflicts : U32 := 0
  aborts : U32 := 0
  cursors : Tbl U32 := []
deriving DecidableEq, Repr

/-- A frame the device sends on the field bus (R401, R402). -/
structure CanFrame where
  ident : BitVec 11
  fd : Bool := false
  data : List Byte := []
deriving DecidableEq, Repr

/-- A DDA transfer under way (R403). -/
structure Dda where
  reading : Bool
  fd : Bool
  index : U16
  sub : Byte
  data : List Byte := []
  len : Nat := 0
  seg : Nat := 0
  last : Nat := 0
deriving DecidableEq, Repr

structure CanSt where
  arbNew : U16 := 500
  dataNew : U16 := 2000
  arb : U16 := 500
  data : U16 := 2000
  hbPeriod : U16 := 100
  threshold : Byte := 3
  hbCount : Byte := 0
  hbLast : List Byte := []
  hbSent : Nat := 0
  faults : List (BitVec 64) := []
  dda : Option Dda := none
  out : List CanFrame := []
  tec : Nat := 0
  rec_ : Nat := 0
  passive : Bool := false
  busOff : Bool := false
  first : Bool := true
  received : U32 := 0
  sent : U32 := 0
  passives : U32 := 0
  recoveries : U32 := 0
  dropped : U32 := 0
deriving DecidableEq, Repr

structure TroubleLog where
  entries : Tbl (BitVec 256) := []
  seq : U32 := 0
  dropLogged : Option Nat := none
deriving DecidableEq, Repr

/-! ### Unit service (18) -/

structure Service where
  /-- Units out of service, in quarantine, and passed and waiting for readmission, as 512 × class + number. -/
  out : List Nat := []
  quar : List Nat := []
  passed : List Nat := []
  thresholds : Tbl U32 := [(0, 1000), (1, 1000), (2, 10000), (4, 1000)]
  roomCorrected : Tbl U32 := []
  roomUncorrectable : Tbl U32 := []
  /-- Events of the sliding windows: unit, time. -/
  corrected : List (Nat × Nat) := []
  uncorrectable : List (Nat × Nat) := []
  /-- Per unit: time of its last log entry and events since. -/
  lastLogged : Tbl (Nat × Nat) := []
deriving DecidableEq, Repr

/-! ### Test access port (20) -/

/-- The test access port (R452 to R459); the boundary register at reset is a DESIGN CHOICE, log 18 (DESIGN CHOICE, log 18). -/
structure Tap where
  ir : Byte := 3
  bsr : BitVec 222 := 0
  held : Bool := false
  highz : Bool := false
  ac : Bool := false
  dictReq : BitVec 384 := 0
  dictRsp : BitVec 384 := 0
  dictBuf : BitVec 16384 := 0
  /-- What the data register captured: the IDCODE word, or 0 of BYPASS. -/
  dr : U32 := 0
  dbg : U64 := 0
  /-- What debug access has written to controller memories. -/
  control : Tbl U64 := []
  scanDie : Option (BitVec 3) := none
deriving DecidableEq, Repr

/-! ### Rings and macro-operations (03, 10, 14) -/

/-- A command entry as fetched: its 128 bytes and whether every read of it was answered with status 0 (R331). -/
structure Entry where
  seq : Nat
  bytes : BitVec 1024 := 0
  ok : Bool := true
  /-- Halves that have arrived (bit 0, bit 1). -/
  got : BitVec 2 := 0
deriving DecidableEq, Repr

/-- What a problem of a solver call reads when it starts (R162, R180): every number an F64 pattern. -/
structure ProbIn where
  /-- The tree descriptor, and its bound values in binding order. -/
  tree : List Byte := []
  bound : List Nat := []
  q : List Nat := []
  qd : List Nat := []
  fext : List Nat := []
  meas : List Nat := []
  /-- The dense matrix by rows, and its shape. -/
  a : List Nat := []
  rows : Nat := 0
  cols : Nat := 0
  rhs : List Nat := []
  kp : Nat := 0
  mu : Nat := 0
deriving DecidableEq, Repr

/-- An adjoint record (R193): what the adjoint needs, from which the factors follow bit for bit. -/
structure AdjRec where
  kind : Nat
  inp : ProbIn
  x : List Nat
  lam : List Nat
  /-- When it was retained: the oldest is released first. -/
  order : Nat
deriving DecidableEq, Repr

/-- Phases of a problem: assembly, factorisation with Schur formation, sweeps, factorisation of S_a, adjoint assembly, outputs at hand,
ended. -/
inductive ProbStage where
  | assembly | factor | sweeps | adjFactor | adjoint | outputs | ended
deriving DecidableEq, Repr

/-- A problem of a call in flight. -/
structure Problem where
  stage : ProbStage := .assembly
  /-- It has read its inputs; it is on a unit; it has ended with status stopped, to be resumed (R192). -/
  begun : Bool := false
  on : Bool := false
  stopped : Bool := false
  /-- It starts its first phase again (R419). -/
  again : Bool := false
  unit : Nat := 0
  tstart : U64 := 0
  /-- Assembly passes and panel intervals of the phase that are done. -/
  pass : Nat := 0
  interval : Nat := 0
  inp : ProbIn := {}
  /-- Its workspace in the solver region (R156, R169). -/
  work : List Byte := []
  /-- Seeds of an adjoint problem, x̄ and λ̄. -/
  xbar : List Nat := []
  lbar : List Nat := []
  /-- The projected iteration (R189). -/
  sweep : Nat := 0
  start : List Nat := []
  lam : List Nat := []
  best : List Nat := []
  bestm : Nat := 0
  x : List Nat := []
  /-- Values to be written: handle, linear element, F64. -/
  outs : List (Nat × Nat × Nat) := []
  exc : BitVec 7 := 0
  flags : U16 := 0
  index : Nat := 0
  status : Nat := 0
  tend : U64 := 0
  tq : BitVec 2 := 0
  /-- Its result record has been written. -/
  recorded : Bool := false
deriving DecidableEq, Repr

/-- A solver call in flight (R179). -/
structure SolveOp where
  call : BitVec 1024 := 0
  tree : List Byte := []
  /-- Borrowed rooms are reserved, or none is wanted (R185). -/
  reserved : Bool := false
  /-- TIME of its deadline, and the event entry that holds it. -/
  deadline : Option U64 := none
  entry : Option Nat := none
  /-- The deadline has fired (R191). -/
  fired : Bool := false
  /-- Its problems cannot do without borrowed rooms (R182, R198). -/
  needRooms : Bool := false
  /-- Solver units in service when it was dispatched (R420). -/
  units : List Nat := []
  probs : Tbl Problem := []
deriving DecidableEq, Repr

/-- A REDUCE in flight (R265 to R273). -/
structure Bucket where
  blk : BitVec 512 := 0
  group : List Nat := []
  pos : Nat := 0
  segs : Nat := 0
  /-- The channel's segment count at segment 0 (R271). -/
  base : Nat := 0
  /-- Values received up the tree, by ((path × 1024 + seg) × 128 + piece) × 16 + level: the words, the poison marks. -/
  recv : Tbl (List Nat × Byte) := []
  /-- Node sums formed here, by (path × 1024 + seg) × 128 + piece. -/
  sums : Tbl (List Nat × Byte) := []
  /-- Result pieces, by seg × 128 + piece. -/
  res : Tbl (List Nat × Byte) := []
  /-- Segments whose frames have been sent up, and segments complete. -/
  sent : Nat := 0
  done : Nat := 0
  /-- Redone this often; every segment is then reduced on both paths (R273). -/
  redo : Nat := 0
  /-- The segment whose sums disagreed. -/
  bad : Nat := 0
  /-- A third value asked for over the vote member: the key of `recv` without its path (R273). -/
  vote : Option Nat := none
  /-- It is the channel's current bucket: its frames go and come. -/
  active : Bool := false
  /-- Port on which each hop's frames last came, by 16 × path + level. -/
  via : Tbl Nat := []
  /-- Hops, by 16 × path + level, that a redo has emptied: frames are dropped until segment 0 comes again. -/
  stale : List Nat := []
  /-- Its activation, and the latest frame of its tag on each hop, by 2 × key + path (R286). -/
  last : Nat := 0
  heard : Tbl Nat := []
deriving DecidableEq, Repr

/-- An EXCHANGE in flight (R276 to R278). -/
structure Xchg where
  blk : BitVec 512 := 0
  group : List Nat := []
  pos : Nat := 0
  /-- Rows to and from each position. -/
  send : List Nat := []
  counts : Tbl Nat := []
  /-- Frames received: 2^44 × source position + 128 × block + piece. -/
  recv : Tbl (List Byte × Byte) := []
  /-- The block that the latest frame of each position belongs to: SEG holds ten bits of its index. -/
  blockAt : Tbl Nat := []
  /-- A gather's version (R252), unknown until the lowest owner has answered, and refusals: position, OFFERED. -/
  ver : Option Nat := none
  refused : Tbl U64 := []
  /-- Every owner has been asked for the version. -/
  asked : Bool := false
  /-- The FORMAT of the shards, and whether the own one holds another number of elements than E_D / N (R278). -/
  fmt : Nat := 0
  badSize : Bool := false
  /-- An access to the own shard that was refused: granule, cause (R314). -/
  stop : Option (Nat × U16) := none
  /-- The first block not whole, in source order (R72, R286). -/
  first : Nat := 0
  /-- Its start, and the latest frame of its tag from each participant, by 2 × key (R286). -/
  last : Nat := 0
  heard : Tbl Nat := []
deriving DecidableEq, Repr

/-- A SPLICE in flight (R274). -/
structure SpliceOp where
  blk : BitVec 512 := 0
  /-- The blocks of its moves as read at dispatch. -/
  moves : List (BitVec 512) := []
  /-- The next move, and whether the epoch has changed. -/
  next : Nat := 0
  changed : Bool := false
deriving DecidableEq, Repr

/-- A room's share of a macro-operation (R243). -/
structure Share where
  room : Nat
  started : Bool := false
  ended : Bool := false
  /-- Shares the room has started since this one became ready (R244). -/
  passed : Nat := 0
  /-- L when it became ready (R246). -/
  limit : Nat := 16
deriving DecidableEq, Repr

/-- What a macro-operation reads and writes of handles (R53), scale registers and histogram slots (R89). -/
structure Uses where
  rh : List Nat := []
  wh : List Nat := []
  rs : List Nat := []
  ws : List Nat := []
  rg : List Nat := []
  wg : List Nat := []
deriving DecidableEq, Repr

/-- A loaded program (R232, R234): its image and the rooms it was translated for. -/
structure Program where
  image : List Byte
  rooms : BitVec 128 := 0
  /-- Which translation its words are, and whether it is complete (R236). -/
  xlate : Nat := 0
  ready : Bool := false
  /-- Rooms it was translated for that have been taken out of service since (R237). -/
  lost : BitVec 128 := 0
deriving DecidableEq, Repr

/-- A macro-operation in flight, or stopped. -/
structure Op where
  /-- The sequence whose record reports it, and that of its own entry. -/
  seq : Nat
  orig : Nat
  tag : Byte := 0
  mop : BitVec 512 := 0
  noop : Bool := false
  /-- Its place among the partition's dispatches, and that of its original entry (R236). -/
  order : Nat := 0
  first : Nat := 0
  tstart : U64 := 0
  /-- Its effect is whole; its completion has been acted on. -/
  work : Bool := false
  finished : Bool := false
  tend : U64 := 0
  tq : BitVec 2 := 0
  status : Nat := 0
  arg : U32 := 0
  exc : BitVec 7 := 0
  /-- Flags raised through each destination handle, for its EXCSUM at completion (R57). -/
  dexc : Tbl (BitVec 7) := []
  poison : Bool := false
  /-- A DWRITE that holds (R248), a hitch that has arrived (R64), a LOADP that translates (R236). -/
  hold : Bool := false
  /-- The result of the entry has been computed as a whole. -/
  computed : Bool := false
  /-- Descriptors as read at dispatch, by binding position, or by handle for the other stations. -/
  descs : Tbl Desc := []
  /-- Scale registers as read at dispatch (R89). -/
  scales : Tbl ScaleReg := []
  /-- Handles written by a DWRITE since dispatch (R57). -/
  rewritten : List Nat := []
  /-- Scale registers it has converted through (R91). -/
  convs : List Nat := []
  uses : Uses := {}
  /-- Its sample slots: first and count (R66). -/
  slots : Nat × Nat := (0, 0)
  /-- The program a RUN was dispatched with (R236). -/
  program : Option Program := none
  shares : List Share := []
  solve : Option SolveOp := none
  bucket : Option Bucket := none
  xchg : Option Xchg := none
  splice : Option SpliceOp := none
deriving DecidableEq, Repr

/-- A step record's running totals (R258). -/
structure Phase where
  tstart : U64 := 0
  t : List Nat := [0, 0, 0, 0, 0, 0, 0, 0]
  energy0 : U64 := 0
deriving DecidableEq, Repr

/-- STATE of a notify line (R335). -/
inductive RState where
  | idle | running | stopping | stopped | halted | resetting | disabled | scrub
deriving DecidableEq, Repr

/-- A phase-timer record of a ring with no history: STATE 0, STEP 0, every 64-bit field all ones (R261). -/
def noHistory : BitVec 768 := (BitVec.allOnes 704).setWidth 768 <<< 64

structure Ring where
  cfg : BitVec 384 := 0
  enabled : Bool := false
  st : RState := .disabled
  tail : Nat := 0
  head : Nat := 0
  takenReset : U16 := 0
  takenResume : U16 := 0
  takenStop : U16 := 0
  echoReset : U16 := 0
  echoResume : U16 := 0
  echoStop : U16 := 0
  resumePend : Bool := false
  line : Line := 0
  lineHeld : Bool := false
  owned : Bool := false
  notify : Line := 0x6 <<< 188
  done : Nat := 0
  faultSeq : Nat := 0
  nextSeq : Nat := 1
  fetchSeq : Nat := 1
  fetched : List Entry := []
  overrun : Bool := false
  /-- No tail line has been read since the last ring reset (R337). -/
  fresh : Bool := true
  /-- `line` has been read since the last ring reset. -/
  read : Bool := false
  /-- The STOPGEN of the line as last read has asked for a stop (R330). -/
  stopSeen : Bool := false
  poisoned : Bool := false
  ops : List Op := []
  stoppedOps : List Op := []
  stopReq : Bool := false
  phase : Option Phase := none
  lastStep : BitVec 768 := noHistory
  snapshot : BitVec 768 := noHistory
  steps : U32 := 0
  stampPeriod : U32 := 0
  stampEntry : Option Nat := none
  nextStamp : U64 := 0
deriving DecidableEq, Repr

/-- A sample slot (R66, R249). Its state: 0 idle, 1 forward, 2 backward. -/
structure Slot where
  st : BitVec 2 := 0
  ver : U32 := 0
  /-- Warm start: λ as F64, and the structure signature it belongs to (R190). -/
  warm : Option (List Nat) := none
  sig : U64 := 0
  /-- The iterate from which the sweeps of its latest forward problem started, for the adjoint's rerun (R193). -/
  start : List Nat := []
  status : Byte := 0
  record : Option AdjRec := none
  /-- Its micro-batch has ended; it becomes idle once its last claim is released (R249). -/
  ending : Bool := false
deriving DecidableEq, Repr

/-- A stream barrier (R64). -/
structure Hitch where
  gen : Nat := 0
  mask : U16 := 0
  /-- Rings that have arrived. -/
  arrived : List Nat := []
deriving DecidableEq, Repr

/-- The held sum of a tie group (R117). -/
structure TieSum where
  fmt : Nat
  acc : List Nat
  marks : List Bool
  flags : BitVec 7
  left : Nat
deriving DecidableEq, Repr

/-- Scheduling state of one partition number: its values at formation are the defaults (R432). -/
structure PartSched where
  /-- Solver region in MiB per base die, in force and as written (R155). -/
  sreg : U32 := 128
  sregNew : U32 := 128
  /-- Deferral limit L (R246). -/
  defer : Byte := 16
  /-- The descriptor table (R58), by handle: nothing else reaches its granules. -/
  descs : Tbl Desc := []
  scales : Tbl ScaleReg := []
  /-- The ring that last converted through a scale register (R91). -/
  scaleRing : Tbl Nat := []
  hist : Tbl Hist := []
  slots : Tbl Slot := []
  /-- Previous descriptors of stashed handles (R248). -/
  stash : Tbl Desc := []
  programs : Tbl Program := []
  hitches : Tbl Hitch := []
  /-- Held sums of tie groups, by 65,536 × program + group (R117, R118). -/
  ties : Tbl TieSum := []
  /-- Macro-operations dispatched. -/
  dispatched : Nat := 0
  /-- The macro-operation (ring, sequence of its entry) whose stores are being made, within a step (the model's own). -/
  storer : Option (Nat × Nat) := none
  /-- Bytes that later macro-operations of a stream have stored while an earlier one is unfinished: ring, sequence of the earlier
  one's entry, address, length (R68, Promise E). -/
  hidden : List (Nat × Nat × Nat × Nat) := []
deriving DecidableEq, Repr, Inhabited

/-- Peer-fabric state of one partition number. -/
structure PartPeer where
  epoch : U32 := 1
  sampleDiv : U16 := 64
  /-- The divisor in force since the last slot start (R288). -/
  sampleUse : U16 := 64
  /-- Segments sent on each channel since slot start (R271). -/
  sent : Tbl Nat := []
  peerTimeout : U32 := 100
  shardFault : BitVec 384 := 0
deriving DecidableEq, Repr

/-! ### Rooms (01, 05, 06, 09) -/

/-- A level of the loop stack (R210). -/
structure LoopLevel where
  start : Nat
  last : Nat
  remain : Nat
  index : Nat
deriving DecidableEq, Repr

/-- A binding register (R213). -/
structure Binding where
  valid : Bool := false
  desc : Desc := 0
  ofs : BitVec 48 := 0
deriving DecidableEq, Repr

/-- An operation issued to an engine and not yet complete: its slot, what it read of the registers when its word issued
(R201, R139), and the accesses it has registered (R61). -/
structure Pend where
  slot : BitVec 56
  x0 : U64 := 0
  x1 : U64 := 0
  aux : BitVec 128 := 0
  db : Binding := {}
  ptrs : List U64 := []
  bcast : List U64 := []
  /-- Scalar registers among those it read that carry a poison mark. -/
  marks : List Nat := []
  loops : U64 := 0
  waddr : Nat := 0
  reads : List Nat := []
  writes : List Nat := []
  /-- The issue slot of its word: its place in the room's program order (R68, Promise E). -/
  order : Nat := 0
  /-- It chains to the instruction before it (R113). -/
  chain : Bool := false
  /-- Chunks of a row operation that are done: p × n_c + c_k (R148). -/
  chunk : Nat := 0
  /-- Its result has been delivered; its accesses are not yet released. -/
  done : Bool := false
deriving DecidableEq, Repr

/-- A signal in a room's queue (R221): the room and counter it names, and the stores and scatters issued before it that have
not completed. -/
structure Sig where
  room : Nat
  ctr : Nat
  stores : Nat
  scats : Nat
deriving DecidableEq, Repr

/-- An attic entry with its tag (R151). -/
structure Attic where
  v1 : Nat := 0
  v2 : Nat := 0
  valid : Bool := false
  kind : Nat := 0
  handle : U16 := 0
  poison : Bool := false
deriving DecidableEq, Repr

structure Room where
  /-- The zero writes of a room reset are under way (R439). -/
  zeroing : Bool := false
  /-- Halted by debug access (R459). -/
  halted : Bool := false
  /-- The macro-operation whose share runs (ring, sequence of its entry), and whether its block still issues. -/
  run : Option (Nat × Nat) := none
  active : Bool := false
  -- the hearth (R203)
  x : Tbl U64 := []
  p : Tbl U64 := []
  v : Tbl (BitVec 128) := []
  xPoison : List Nat := []
  vPoison : List Nat := []
  pc : Nat := 0
  loops : List LoopLevel := []
  ts : Tbl U64 := []
  db : Tbl Binding := []
  ctr : Tbl Nat := []
  sflags : BitVec 7 := 0
  /-- Issue slots so far, and the one from which a register is ready (R207). -/
  issued : Nat := 0
  xReady : Tbl Nat := []
  vReady : Tbl Nat := []
  /-- Words written since their contents were last undefined (`imemFrom` = k + 1: the k-th translation). -/
  imem : Tbl RoomWord := []
  imemFrom : Nat := 0
  imemPoison : List Nat := []
  -- the matrix array (R105, R115, R117, R119, R120, R124)
  mp : Tbl U64 := []
  wg : Tbl (BitVec 128) := []
  acc : Mem := []
  accPoison : List Nat := []
  sticky : Tbl (BitVec 7) := []
  tags : Tbl (Nat × Nat) := []
  tb : Mem := []
  tbPoison : List Nat := []
  ffMat : BitVec 128 := 0
  -- the larder: bytes, and poisoned 64-byte sectors
  larder : Mem := []
  larderPoison : List Nat := []
  -- vector and row engines (R127, R128, R131, R133, R140 to R142, R145, R151)
  tiles : Tbl Nat := []
  tilePoison : List Nat := []
  tileStatus : Tbl (BitVec 7) := []
  kernels : Tbl (List U32) := []
  cmax : Nat := 0
  cmaxe : Option Int := none
  /-- The format of the latest conversion that raised CMAX, and whether one overflowed (R90, R92). -/
  cfmt : Option (BitVec 4) := none
  covf : Bool := false
  vflags : BitVec 7 := 0
  ffVec : BitVec 128 := 0
  gd : Tbl (BitVec 160) := []
  rp : Tbl (BitVec 128) := []
  attic : Tbl Attic := []
  -- the scoreboard (R61): larder regions 0 to 63, accumulator positions 64 up, transposing-buffer slots 128 up
  readers : Tbl Nat := []
  writers : Tbl Nat := []
  matQ : List Pend := []
  vecQ : List Pend := []
  rowQ : List Pend := []
  loadQ : List Pend := []
  storeQ : List Pend := []
  /-- Short-vector stores held behind a read of the same word (R62): address, bytes, poison. -/
  vstQ : List (Nat × List Byte × Bool) := []
  /-- Signals waiting (R221). -/
  sigQ : List Sig := []
deriving DecidableEq, Repr

/-- What a stop image carries of a partition (R356): its scheduler state with the descriptor table, rings, layout epoch and
rooms (DESIGN CHOICE, log 16). -/
structure PartImage where
  sched : PartSched := {}
  rings : Tbl Ring := []
  epoch : U32 := 1
  rooms : Tbl Room := []
deriving DecidableEq, Repr, Inhabited

/-! ### Peer ports (12) -/

/-- A peer port (R279 to R285). Credits are kept by pool: 0 and 2 for lanes 0 and 2; 8 + c and 24 + c for the reserves
of channel c on lanes 1 and 3; 16 and 32 for their shared pools. -/
structure Port where
  state : BitVec 2 := 0
  rate : BitVec 2 := 0
  width : BitVec 3 := 0
  prevGen : Bool := false
  lanes : BitVec 4 := 0
  limit : Byte := 0
  /-- The LSEQ expected next, and the one to be sent next. -/
  rxSeq : U16 := 0
  nakDue : Bool := false
  txSeq : U16 := 0
  replay : List (U16 × PeerFrame) := []
  /-- How often each unacknowledged frame has been replayed, by LSEQ (R285). -/
  replayed : Tbl Nat := []
  queue : List PeerFrame := []
  credits : Tbl Nat := []
  /-- Shared buffers of the receiver that each channel holds: c on lane 1, 8 + c on lane 3. -/
  sharedHeld : Tbl Nat := []
  /-- Receive buffers to be returned, by 16 × lane + 2 × channel + shared. -/
  owed : Tbl Nat := []
  /-- Frames in receive buffers that their station has not taken. -/
  wait : List PeerFrame := []
  /-- The LINK frame last sent. -/
  linkOut : Option PeerFrame := none
  lastAck : Nat := 0
  lastProgress : Nat := 0
  idleSince : Nat := 0
  unacked : Nat := 0
  counters : Tbl U32 := []
  /-- The port changes width and holds new frames (R285). -/
  hold : Bool := false
deriving DecidableEq, Repr


/-! ### Security controller (15) -/

/-- An attestation report being signed: bytes 0 to 511 as snapshotted (R363). -/
structure Report where
  body : List Byte
deriving DecidableEq, Repr

structure Security where
  debug : Bool := false
  challenge : BitVec 256 := 0
  forming : Tbl Report := []
  reports : Tbl (List Byte) := []
  attSeq : U32 := 0
deriving DecidableEq, Repr

/-- The machine. -/
structure State where
  /-- Commands waiting, first in first out. -/
  pending : List Instr := []
  /-- Which free value comes next (the model's own). -/
  free : Nat := 0
  ident : Ident := {}
  boot : Boot := {}
  time : TimeBase := {}
  events : Tbl EventEntry := []
  /-- Entries that fired in the dictionary cycle under way (R45). -/
  firedNow : List Nat := []
  /-- Slot-stops whose stop request at T − G has been made: (entry, partition) (R49). -/
  stopSent : List (Nat × Nat) := []
  /-- Slot-stops that have fired, whatever their entries hold since (R48). -/
  firedStops : List EventEntry := []
  /-- A power-cap change event of the dictionary cycle under way: its entry (R394). -/
  capEvent : Option Nat := none
  mode : PMode := .one
  pendingMode : Option PMode := none
  psec : Tbl PartSec := []
  psched : Tbl PartSched := []
  ppeer : Tbl PartPeer := []
  rings : Tbl Ring := []
  rooms : Tbl Room := []
  mem : MemSys := {}
  link : LinkSt := {}
  ports : Tbl Port := []
  rank : U16 := 0xFFFF
  sec : Security := {}
  /-- The on-chip state frozen for a stop-image export, per partition (R357). -/
  frozen : Tbl PartImage := []
  pw : Power := {}
  dict : DictSt := {}
  can : CanSt := {}
  log : TroubleLog := {}
  svc : Service := {}
  tap : Tap := {}
deriving DecidableEq, Repr

/-- The device right after power-on reset: bring-up stands in HOLD with the dies held in reset (R434) (DESIGN CHOICE, log 22). -/
def State.reset : State := {}

/-- What could stop the machine. Nothing does: every exception the spec describes is a next state. -/
inductive Fault where
  /-- Raised by no command: kept so that the type has a member. Safe. -/
  | unreachable
deriving DecidableEq, Repr

/-- Why a command has no meaning. -/
inductive Refusal where
  /-- Raised by an arm of `exec` whose command is not modelled yet, naming it. Safe. -/
  | notModelled (mnemonic : String)
deriving DecidableEq, Repr

end Sys2Proof.Machine
end

