-- ==== Sys2Proof/Machine/Flits.lean ====
section
/-! DEFINITION. Flits of the companion link as bytes (14_companion_link R318, R319): slots and trailer, CRC and FEC, and the headers
of messages. -/

namespace Sys2Proof.Machine

/-! ### Trailer, CRC and FEC (R318) -/

/-- Code k covers the bytes k, k + 3, k + 6 … of bytes 0 to 245. -/
def fecCover (k : Nat) (bs : List Byte) : List Byte := ((bs.take 246).zipIdx.filter fun e => e.2 % 3 == k).map (·.1)

/-- The generator of a FEC code, (x − 1)(x − α); the covered bytes stand highest coefficient first (DEDUCED, log 33). -/
def fecGen : List Byte := rsGenOf 2
def fecChecks (bs : List Byte) : List Byte := ((upTo 3).map fun k => rsRem fecGen (fecCover k bs)).flatten

/-- One code corrected: the place of a wrong symbol among the covered bytes and the two check bytes, and what is XORed into it; none
where more than one symbol is wrong. -/
def fecFix (w : List Byte) : Option (Nat × Byte) :=
  let at_ := fun (x : Byte) => w.foldl (fun a b => rsMul a x ^^^ b) 0
  let s0 := at_ 1
  let s1 := at_ 2
  if s0 = 0 && s1 = 0 then some (0, 0)
  else ((upTo w.length).find? fun i => s0 != 0 && rsMul s0 (rsPow (w.length - 1 - i)) == s1).map fun i => (i, s0)

/-- The flit with each of its three codes corrected. -/
def fecCorrect (raw : List Byte) : Option (List Byte) :=
  (upTo 3).foldl (fun (r : Option (List Byte)) k => r.bind fun bs =>
    (fecFix (fecCover k bs ++ (bs.drop (250 + 2 * k)).take 2)).map fun e =>
      if e.1 < 82 then xorAt bs (3 * e.1 + k) e.2 else xorAt bs (250 + 2 * k + (e.1 - 82)) e.2) (some raw)

/-- Bytes 0 to 245 of a flit: fifteen slots, and bits 47:0 of the trailer. -/
def flitBody (slots : List (BitVec 128)) (frame ack : U16) (nak : Bool) : List Byte :=
  (((upTo 15).map fun i => bytesOf (slots.getD i 0)).flatten) ++ leBytes 2 (32768 * bnat nak) ++ bytesOf ack ++ bytesOf frame

/-- A flit as sent, 256 bytes. -/
def flitBytes (slots : List (BitVec 128)) (frame ack : U16) (nak : Bool) : List Byte :=
  let b := flitBody slots frame ack nak
  b ++ bytesOf (crc32c b) ++ fecChecks b

/-- A flit as received: corrected; none where FEC correction or the CRC fails. -/
def flitRead (raw : List Byte) : Option (List Byte) :=
  if raw.length != 256 then none
  else (fecCorrect raw).filter fun bs => bytesOf (crc32c (bs.take 246)) == (bs.drop 246).take 4

/-- Is a flit corrected from what the link did to it? The codes are linear, so its slots do not matter. -/
def flitSound (fl : Flit) : Bool :=
  fl.noise.isEmpty ||
    let bs := flitBytes [] fl.frame fl.ack false
    flitRead (fl.noise.foldl (fun l e => xorAt l e.1.toNat e.2) bs) == some bs

/-! ### Messages (R319) -/

/-- Slots that a message takes, by its TYPE. -/
def msgSlots (typ : BitVec 5) : Nat := match typ.toNat with | 3 | 7 => 5 | 4 => 6 | 5 => 2 | _ => 1

/-- The header of a message of the device; it sends no atomics. -/
def OutMsg.header (m : OutMsg) : BitVec 128 :=
  let w : BitVec 128 := 0
  let w := putBits w 76 m.addr
  let w := putBits w 72 m.status
  let w := putBits w 5 m.tag
  putBits w 0 m.typ

/-- A message in slots: header, data in four, the byte mask in the sixth. -/
def OutMsg.slots (m : OutMsg) : List (BitVec 128) :=
  let data := (upTo 4).map fun i => wordOf 128 ((m.data.drop (16 * i)).take 16)
  (m.header :: (if m.typ = 3 || m.typ = 4 || m.typ = 7 then data else [])) ++ (if m.typ = 4 then [m.mask.setWidth 128] else [])

/-- The slots of the outbound flit `frame`. -/
def LinkSt.slotsOf (l : LinkSt) (frame : U16) : List (BitVec 128) :=
  (l.replay.filter fun e => e.frame == frame).foldl (fun (w : List (BitVec 128)) e =>
    (e.msg.slots.zipIdx).foldl (fun (w : List (BitVec 128)) x => w.set (e.slot + x.2) x.1) w) (List.replicate 15 0)

/-- The outbound flit `frame`, acknowledging the last one accepted. -/
def LinkSt.flit (l : LinkSt) (frame : U16) : List Byte := flitBytes (l.slotsOf frame) frame (l.rxFrame - 1) l.nakDue

/-! ### Which messages share an outbound flit (R318, R323) (DESIGN CHOICE, log 33) -/

/-- A message goes into the first flit not yet sent that has room for it after those before it, in its slots 5 to 14. -/
def LinkSt.put (l : LinkSt) (m : OutMsg) : LinkSt :=
  let k := msgSlots m.typ
  let full := decide (15 < l.slot + k)
  let ahead := if full then l.ahead + 1 else l.ahead
  let slot := if full then 5 else l.slot
  { l with ahead := ahead, slot := slot + k,
           replay := l.replay ++ [{ frame := l.txFrame + BitVec.ofNat 16 ahead, slot := slot, msg := m }] }

/-- A register-class answer goes into the response slot, slots 0 to 4, of the matching flit or the next with it free (R323). -/
def LinkSt.putReg (l : LinkSt) (m : OutMsg) : LinkSt :=
  { l with regAhead := l.regAhead + 1,
           replay := l.replay ++ [{ frame := l.txFrame + BitVec.ofNat 16 l.regAhead, slot := 0, msg := m }] }

/-- The outbound flit that matches an inbound one has gone, idle where no message is in it. -/
def LinkSt.turn (l : LinkSt) : LinkSt :=
  { l with txFrame := l.txFrame + 1, regAhead := l.regAhead - 1, ahead := l.ahead - 1, slot := if l.ahead = 0 then 5 else l.slot }

/-- Has ACK acknowledged a flit, the next to be sent being `tx`? -/
def ackCovers (tx ack frame : U16) : Bool := decide ((tx - 1 - ack).toNat < 32768) && decide ((ack - frame).toNat < 32768)

/-- Acknowledged flits leave the replay buffer. -/
def LinkSt.acked (l : LinkSt) (ack : U16) : LinkSt := { l with replay := l.replay.filter fun e => !ackCovers l.txFrame ack e.frame }

/-! ### TAGs (R319) -/

/-- The first TAG from `t` on that names no outstanding read. -/
def freeTagFrom (reads : Tbl Purpose) : Nat → Nat → Nat
  | 0, t => t
  | f + 1, t => if Tbl.has reads t then freeTagFrom reads f ((t + 1) % 2048) else t

/-- A read goes out under a TAG of its own; while all 2,048 are in use it waits. -/
def LinkSt.read (l : LinkSt) (typ : BitVec 5) (addr : Nat) (why : Purpose) : LinkSt :=
  if 2048 ≤ l.reads.length then { l with waiting := l.waiting ++ [(typ, addr, why)] }
  else
    let t := freeTagFrom l.reads 2048 l.nextTag.toNat
    let l := l.put { typ := typ, addr := BitVec.ofNat 52 addr, tag := BitVec.ofNat 11 t }
    { l with nextTag := BitVec.ofNat 11 (t + 1), reads := Tbl.set l.reads t why }

/-- The read under a TAG has been answered; one that waits for a TAG goes out. -/
def LinkSt.answered (l : LinkSt) (tag : Nat) : LinkSt :=
  let l := { l with reads := Tbl.erase l.reads tag }
  match l.waiting with
  | (typ, addr, why) :: rest => LinkSt.read { l with waiting := rest } typ addr why
  | [] => l

end Sys2Proof.Machine
end

