-- ==== Sys2Proof/Machine/Ops.lean ====
section
/-! DEFINITION. The named operations over the state that every family of commands shares: access to the tables, the
partitions' geometry, stamps, the trouble log and its fault frames, free values, and what the device sends. -/

namespace Sys2Proof.Machine

/-- What a command answers. -/
abbrev Out := Host.Outcome State Fault Refusal

/-- A command that applies answers its effect; one that does not apply changes nothing (DESIGN CHOICE, log 1). -/
def act (due : Bool) (s : State) (f : State → State) : Out := .next (if due then f s else s)

/-! ### Tables -/

def State.ps (s : State) (p : Nat) : PartSec := Tbl.get {} s.psec p
def State.updPs (s : State) (p : Nat) (f : PartSec → PartSec) : State :=
  { s with psec := Tbl.set s.psec p (f (s.ps p)) }
def State.sched (s : State) (p : Nat) : PartSched := Tbl.get {} s.psched p
def State.updSched (s : State) (p : Nat) (f : PartSched → PartSched) : State :=
  { s with psched := Tbl.set s.psched p (f (s.sched p)) }
def State.peer (s : State) (p : Nat) : PartPeer := Tbl.get {} s.ppeer p
def State.updPeer (s : State) (p : Nat) (f : PartPeer → PartPeer) : State :=
  { s with ppeer := Tbl.set s.ppeer p (f (s.peer p)) }
def State.ring (s : State) (n : Nat) : Ring := Tbl.get {} s.rings n
def State.updRing (s : State) (n : Nat) (f : Ring → Ring) : State :=
  { s with rings := Tbl.set s.rings n (f (s.ring n)) }
def State.room (s : State) (n : Nat) : Room := Tbl.get {} s.rooms n
def State.updRoom (s : State) (n : Nat) (f : Room → Room) : State :=
  { s with rooms := Tbl.set s.rooms n (f (s.room n)) }
def State.port (s : State) (n : Nat) : Port := Tbl.get {} s.ports n
def State.updPort (s : State) (n : Nat) (f : Port → Port) : State :=
  { s with ports := Tbl.set s.ports n (f (s.port n)) }
def State.event (s : State) (n : Nat) : EventEntry := Tbl.get {} s.events n
def State.updEvent (s : State) (n : Nat) (f : EventEntry → EventEntry) : State :=
  { s with events := Tbl.set s.events n (f (s.event n)) }
def State.diePw (s : State) (d : Nat) : DiePower := Tbl.get {} s.pw.dies d
def State.updDie (s : State) (d : Nat) (f : DiePower → DiePower) : State :=
  { s with pw := { s.pw with dies := Tbl.set s.pw.dies d (f (s.diePw d)) } }
def State.box (s : State) (m : Nat) : Mailbox := Tbl.get {} s.link.boxes m
def State.updBox (s : State) (m : Nat) (f : Mailbox → Mailbox) : State :=
  { s with link := { s.link with boxes := Tbl.set s.link.boxes m (f (s.box m)) } }

/-- Does one thing for each number of a list, in order. -/
def each (ns : List Nat) (s : State) (f : State → Nat → State) : State := ns.foldl f s

/-! ### What runs -/

/-- Every supply is within tolerance (R450). -/
def State.powered (s : State) : Bool := s.boot.stage != .off
/-- The control region works: from B1 on. -/
def State.ctl (s : State) : Bool := s.boot.stage != .off && s.boot.stage != .b0
/-- Firmware runs: from B2 on (R434, R437). -/
def State.fw (s : State) : Bool := s.ctl && s.boot.stage != .b1
/-- The dies work: bring-up has ended, and the device is not shut down. -/
def State.up (s : State) : Bool := s.boot.stage == .running && !s.boot.stopped

/-! ### Partitions (R14, R290) -/

def PMode.count : PMode → Nat
  | .one => 1 | .two => 2 | .four => 4

/-- Does partition number `p` exist in the current mode? -/
def State.exists_ (s : State) (p : Nat) : Bool := p < s.mode.count
/-- The partition numbers of the current mode, ascending. -/
def State.parts (s : State) : List Nat := upTo s.mode.count
/-- How many dies a partition owns. -/
def PMode.dieShare (m : PMode) : Nat := 4 / m.count
/-- The partition that owns die pair `d`. -/
def State.ownerOfDie (s : State) (d : Nat) : Nat := d / s.mode.dieShare
/-- The die pairs of partition `p`. -/
def State.diesOf (s : State) (p : Nat) : List Nat := countUp (p * s.mode.dieShare) s.mode.dieShare
def State.ownerOfRoom (s : State) (n : Nat) : Nat := s.ownerOfDie (n / 32)
/-- The rooms of partition `p` that are present (R2, R14). -/
def State.roomsOf (s : State) (p : Nat) : List Nat :=
  (countUp (32 * p * s.mode.dieShare) (32 * s.mode.dieShare)).filter fun n => s.ident.roomsPresent.getLsbD n
def State.stacksOf (s : State) (p : Nat) : List Nat := countUp (3 * p * s.mode.dieShare) (3 * s.mode.dieShare)
def State.portsOf (s : State) (p : Nat) : List Nat := countUp (4 * p * s.mode.dieShare) (4 * s.mode.dieShare)
def State.ownerOfPort (s : State) (j : Nat) : Nat := s.ownerOfDie (j / 4)
/-- The rings of partition number `p` (R257). -/
def ringsOf (p : Nat) : List Nat := countUp (16 * p) 16
def ringPart (n : Nat) : Nat := n / 16
def State.ringExists (s : State) (n : Nat) : Bool := n < 16 * s.mode.count

/-- 108 GiB: the quarter of the address space that four-partition mode gives each partition. -/
def quarterSize : Nat := 0x1B00000000
def memTop : Nat := 0x6C00000000
def State.pbase (s : State) (p : Nat) : Nat := p * s.mode.dieShare * quarterSize
def State.psize (s : State) : Nat := s.mode.dieShare * quarterSize
/-- The partition that owns a device physical address, if one does. -/
def State.ownerOfAddr (s : State) (a : Nat) : Option Nat :=
  if a < memTop then some (a / s.psize) else none
/-- The descriptor table of a partition (R294). -/
def State.descBase (s : State) (p : Nat) : Nat := s.pbase p + s.psize - 0x800000
/-- TAGBASE of a sealed partition (R294). -/
def State.tagBase (s : State) (p : Nat) : Nat := s.descBase p - s.psize / 32

/-- The code of a security state (R347). -/
def SecState.code : SecState → Byte
  | .free => 0 | .opened => 1 | .keywait => 2 | .sealed => 3 | .stopping => 4 | .scrub => 5 | .resetting => 6 | .absent => 7

/-- KEYWAIT, SEALED and STOPPING: the states in which the security rules treat a partition as sealed (R351, R365). -/
def SecState.tenanted : SecState → Bool
  | .keywait | .sealed | .stopping => true
  | _ => false
/-- Does the partition hold a slot? -/
def SecState.slot : SecState → Bool
  | .opened | .keywait | .sealed | .stopping => true
  | _ => false

def State.pst (s : State) (p : Nat) : SecState := if s.exists_ p then (s.ps p).st else .absent
/-- The partition's memory is under its slot keys: a sealed slot is in progress (R351). -/
def State.sealed (s : State) (p : Nat) : Bool := (s.ps p).sealedSlot && (s.pst p).tenanted
/-- A scrub of some partition is in progress. -/
def State.scrubbing (s : State) : Bool := s.parts.any fun p => (s.ps p).scrub.isSome
/-- Some partition holds an open slot. -/
def State.anySlot (s : State) : Bool := s.parts.any fun p => (s.pst p).slot

/-! ### Stamps (R43) -/

def TimeMode.running : TimeMode → Bool
  | .locked | .freeRunning => true
  | _ => false
/-- The stamp quality (R43). -/
def TimeMode.quality : TimeMode → BitVec 2
  | .locked => 0 | .freeRunning => 1 | _ => 2
def State.stamp (s : State) : U64 := s.time.counter
def State.tq (s : State) : BitVec 2 := s.time.mode.quality
def State.now (s : State) : Nat := s.time.now
/-- Has an interval of `ns` passed since a time of the model's clock? (DESIGN CHOICE, log 3). -/
def State.since (s : State) (t ns : Nat) : Bool := t + ns ≤ s.time.now

/-! ### Free values -/

/-- The next free value's number, which no later value shares (DESIGN CHOICE, log 2). -/
def State.takeFree (s : State) : Nat × State := (s.free, { s with free := s.free + 1 })

/-! ### The trouble log (R406, R407) and fault frames (R405) -/

/-- What a log entry says beyond its stamp and SEQ. -/
structure LogArgs where
  sev : Nat := 0
  detail : U64 := 0
  unit : Byte := 0xFF
  ring : Byte := 0xFF
  arg : U32 := 0
  part : Option Nat := none
  /-- Raised by a stream, solver call, job or export of the partition (R406). -/
  stream : Bool := false
deriving DecidableEq, Repr

/-- The 256 bits of a log entry (R406). -/
def logWord (s : State) (seq : U32) (cause : U16) (a : LogArgs) : BitVec 256 :=
  let tenant := a.stream && (match a.part with | some p => (s.pst p).tenanted | none => false)
  let w : BitVec 256 := 0
  let w := putBits w 192 s.stamp
  let w := putBits w 128 a.detail
  let w := putBits w 96 seq
  let w := putBits w 80 cause
  let w := putBits w 72 a.unit
  let w := putBits w 64 a.ring
  let w := putBits w 32 a.arg
  let w := putField w 29 3 (a.part.getD 7)
  let w := putField w 26 3 a.sev
  let w := putBits w 25 (bit1 tenant)
  putBits w 22 s.tq

/-- Writes one log entry: SEQ s occupies place (s − 1) mod 4,096 (R407). -/
def logOnly (s : State) (cause : U16) (a : LogArgs) : State :=
  let seq := s.log.seq + 1
  { s with log := { s.log with seq := seq,
                               entries := Tbl.set s.log.entries (s.log.seq.toNat % 4096) (logWord s seq cause a) } }

/-- The eight bytes of a fault frame (R405), byte 0 in the low bits. -/
def faultFrame (cause : U16) (a : LogArgs) (seq : U32) : BitVec 64 :=
  let w : BitVec 64 := 0
  let w := putBits w 0 cause
  let w := putField w 16 8 (a.part.getD 0xFF)
  let w := putField w 24 8 a.sev
  putBits w 32 seq

/-- Causes whose fault frame is sent whatever their severity (R405). -/
def alwaysFramed (cause : U16) : Bool := cause = 0x1101 || cause = 0x0502 || cause = 0x0504

/-- Queues the fault frame of the newest entry; a full queue of 16 drops and counts it (R405). -/
def queueFault (s : State) (cause : U16) (a : LogArgs) : State :=
  if s.can.threshold.toNat ≤ a.sev || alwaysFramed cause then
    if s.can.faults.length < 16 then
      { s with can := { s.can with faults := s.can.faults ++ [faultFrame cause a s.log.seq] } }
    else { s with can := { s.can with dropped := satInc s.can.dropped } }
  else s

/-- Writes a log entry, then queues its fault frame. Frames dropped from a full queue are themselves logged, at most
once a second (R405, R410). -/
def logEvent (s : State) (cause : U16) (a : LogArgs) : State :=
  let t := queueFault (logOnly s cause a) cause a
  if t.can.dropped = s.can.dropped then t
  else if (match t.log.dropLogged with | some x => !t.since x 1000000000 | none => false) then t
  else { logOnly t 0x1106 { sev := 1 } with log.dropLogged := some t.now }

/-! ### What the device sends -/

/-- The generation the strap allows (R317, R430). -/
def clGeneration (clgen : BitVec 2) : BitVec 2 := match clgen.toNat with | 0 => 1 | 1 => 2 | _ => 3

/-- The generation reached: what both ends support and the strap allows, and 0 for a training that failed even at generation 1 (R317). -/
def State.trained (s : State) (gen : BitVec 2) : BitVec 2 :=
  if (clGeneration s.boot.clgen).toNat < gen.toNat then clGeneration s.boot.clgen else gen

/-- A message on the companion link, kept until it is acknowledged (R320). While the link is down nothing but writes is
kept (R321). -/
def linkSend (s : State) (m : OutMsg) : State := { s with link := s.link.put m }

/-- Full-line or partial writes of bytes to companion memory, split at 64-byte lines: a full line goes as WR, a part of
one as WRP with its mask (R319). -/
def linkWriteLine (s : State) (line : Nat) (off : Nat) (bs : List Byte) : State :=
  if off = 0 && bs.length = 64 then
    linkSend s { typ := 3, addr := BitVec.ofNat 52 line, data := bs }
  else
    linkSend s { typ := 4, addr := BitVec.ofNat 52 line, data := padTo 64 (List.replicate off 0 ++ bs),
                 mask := (BitVec.ofNat 64 (2 ^ bs.length - 1)) <<< off }

def linkWriteLoop : Nat → State → Nat → List Byte → State
  | 0, s, _, _ => s
  | n + 1, s, a, bs =>
    if bs.isEmpty then s
    else
      let off := a % 64
      let k := min (64 - off) bs.length
      linkWriteLoop n (linkWriteLine s (a - off) off (bs.take k)) (a + k) (bs.drop k)

/-- Writes bytes to companion memory, in ascending lines (DESIGN CHOICE, log 34). -/
def linkWrite (s : State) (a : Nat) (bs : List Byte) : State := linkWriteLoop (bs.length / 64 + 2) s a bs

/-- A read of a companion line, remembered under its TAG (R319). TYPE is 0x01 RD or 0x0A RDOWN. -/
def linkRead (s : State) (typ : BitVec 5) (addr : Nat) (why : Purpose) : State :=
  { s with link := s.link.read typ addr why }

/-- A frame on the field bus. Node ID 0 transmits nothing (R401); nothing leaves before firmware runs (R400), while
bus-off lasts, or while boundary cells hold the balls (R456). A frame sent counts TEC down (ISO 11898-1, R400). -/
def canSend (s : State) (f : CanFrame) : State :=
  if s.fw && s.boot.nodeId != 0 && !s.can.busOff && !s.tap.held then
    { s with can := { s.can with out := s.can.out ++ [f], sent := s.can.sent + 1, tec := s.can.tec - 1 } }
  else s

/-! ### Keys (R343) -/

/-- The slot's keys, destroyed together (R342). Checkpoint and scrub keys are kept. -/
def Keys.endSlot (k : Keys) : Keys :=
  { k with kT := none, kP := none, kC := none, k1 := none, k2 := none, kM := none, importKey := none }

def Keys.endCheckpoint (k : Keys) : Keys := { k with c1 := none, c2 := none, cM := none }
def Keys.endScrub (k : Keys) : Keys := { k with s1 := none, s2 := none }

/-- A key as bytes for the functions of R342. -/
def keyBytes (k : Option (BitVec 256)) : List Byte := match k with | some x => bytesOf x | none => []

/-- A fresh random key (R343): a free value. -/
def freshKey (s : State) : BitVec 256 × State := (Config.freeKey s.free, { s with free := s.free + 1 })

end Sys2Proof.Machine
end

