-- ==== Sys2Proof/Machine/Memory.lean ====
section
/-! DEFINITION. The memory system (13_memory_system): the address hash, the atrium, the write-combining buffers, poison,
the memory event ring and the blocked-granule table. A granule is 256 bytes, named by its address divided by 256. -/

namespace Sys2Proof.Machine

/-! ### Placement (R291, R296) -/

/-- The XOR of the consecutive `n`-bit groups of `x` from bit 0 up (fuel 64). -/
def foldLoop (n : Nat) : Nat → Nat → Nat
  | 0, _ => 0
  | k + 1, x => if x = 0 then 0 else Nat.xor (x % 2 ^ n) (foldLoop n k (x / 2 ^ n))

def fold (x n : Nat) : Nat := foldLoop n 64 x

/-- Where a granule lies: its stack, pseudo-channel, granule within it, and the index i of R291. -/
structure Place where
  stack : Nat
  pc : Nat
  w : Nat
  i : Nat
deriving DecidableEq, Repr

/-- The address hash (R291) of granule `g` of partition `p` in a mode. -/
def placeOf (m : PMode) (p g : Nat) : Place :=
  let lam := g - p * m.dieShare * quarterSize / 256
  let r := lam % 3
  let u := lam / 3
  let (h, i) := match m with
    | .one => (fold (u % 2 ^ 30) 2, u % 2 ^ 30 / 4)
    | .two => (2 * p + fold (u % 2 ^ 29) 1, u % 2 ^ 29 / 2)
    | .four => (p, u)
  ⟨r + 3 * h, fold (i % 2 ^ 28) 5, i / 32, i⟩

def State.place (s : State) (g : Nat) : Place := placeOf s.mode (g * 256 / s.psize) g
def Place.die (q : Place) : Nat := q.stack / 3
def Place.bank (q : Place) : Nat := fold (q.i % 2 ^ 28) 6
def Place.set (q : Place) : Nat := q.i / 64 % 1792

/-! ### What the stacks hold -/

/-- The pseudo-channel of address `a` in a mode. -/
def chanOf (m : PMode) (a : Nat) : Nat := let q := placeOf m (a / (m.dieShare * quarterSize)) (a / 256); 32 * q.stack + q.pc

/-- Did quarantine write the pseudo-channel of address `a` zero since it took the contents `k` (R420)? (DEDUCED, log 99). -/
def zeroedBy (z : List (PMode × Nat × Nat)) (k a : Nat) : Bool := z.any fun e => k < e.2.2 && chanOf e.1 a == e.2.1

/-- What an unlisted byte of a stack reads as: zero, or the undefined contents of its quarter (DEDUCED, log 12) (DESIGN CHOICE, log 13). -/
def backByte (back : Tbl Nat) (z : List (PMode × Nat × Nat)) (a : Nat) : Byte :=
  match Tbl.get 0 back (a / quarterSize) with
  | 0 => 0
  | k + 1 => if zeroedBy z k a then 0 else Config.freeByte k a

def MemSys.unlisted (m : MemSys) : Nat → Byte := backByte m.back m.zeroPc
def MemSys.stackByte (m : MemSys) (a : Nat) : Byte := m.hbm.read m.unlisted a
def MemSys.setStackByte (m : MemSys) (a : Nat) (v : Byte) : MemSys := { m with hbm := m.hbm.write m.unlisted a v }

/-- The stacks' bytes stand in canonical form. -/
abbrev MemSys.ok (m : MemSys) : Prop := m.hbm.wf m.unlisted

/-- Sorted insertion into a list of sector numbers. -/
def insertNat (n : Nat) : List Nat → List Nat
  | [] => [n]
  | m :: t => if n < m then n :: m :: t else if n = m then m :: t else m :: insertNat n t

def MemSys.sectorPoison (m : MemSys) (sector : Nat) : Bool := m.poison.contains sector
def MemSys.setSectorPoison (m : MemSys) (sector : Nat) (b : Bool) : MemSys :=
  { m with poison := if b then insertNat sector m.poison else m.poison.filter (· != sector) }

/-- The 256 bytes and four stored-poison marks of a granule as its stack holds them. -/
def MemSys.stackGranule (m : MemSys) (g : Nat) : BitVec 2048 × BitVec 4 :=
  (BitVec.ofNat 2048 (ofLe ((upTo 256).map fun j => m.stackByte (256 * g + j))),
   BitVec.ofNat 4 (ofBits4 fun k => m.sectorPoison (4 * g + k)))
where
  ofBits4 (f : Nat → Bool) : Nat := bnat (f 0) + 2 * bnat (f 1) + 4 * bnat (f 2) + 8 * bnat (f 3)

/-! ### Masks -/

/-- A byte mask stretched to bits. -/
def maskBits (mask : BitVec 256) : BitVec 2048 :=
  BitVec.ofNat 2048 (ofLe ((upTo 256).map fun j => if mask.getLsbD j then (0xFF : Byte) else 0))

/-- `new` under a byte mask, `old` elsewhere. -/
def merge (mask : BitVec 256) (old new : BitVec 2048) : BitVec 2048 :=
  let b := maskBits mask
  (old &&& ~~~b) ||| (new &&& b)

/-- The mask of sector k. -/
def sectorMask (mask : BitVec 256) (k : Nat) : BitVec 64 := bits mask (64 * k) 64

/-- The poison marks of a granule's sectors after a write: a sector that receives a poisoned byte is poisoned, one wholly
overwritten with clean bytes loses its mark (R311) (DEDUCED, log 95). -/
def poisonAfter (old : BitVec 4) (mask : BitVec 256) (new : BitVec 4) : BitVec 4 :=
  (upTo 4).foldl (fun (r : BitVec 4) k =>
    let m := sectorMask mask k
    let v := if m = 0 then old.getLsbD k
             else if new.getLsbD k then true
             else if m = BitVec.allOnes 64 then false
             else old.getLsbD k
    putBits r k (bit1 v)) 0

/-! ### Reading a stack (R308 to R310, R352) -/

/-- The slot keys K1, K2 and K_M of the sealed partition that a granule lies in. -/
abbrev Seal := Nat → Option (List Byte × List Byte × List Byte)

def State.seal (s : State) : Seal := fun g =>
  match s.ownerOfAddr (256 * g) with
  | some p => if s.sealed p then let k := (s.ps p).keys; some (keyBytes k.k1, keyBytes k.k2, keyBytes k.kM) else none
  | none => none

/-- The 256 bytes of a granule on their way to the stack: enciphered in a sealed partition (R351). -/
def onStack (k : Seal) (g : Nat) (d : List Byte) : List Byte :=
  match k g with | some (k1, k2, _) => xtsEnc k1 k2 g d | none => d
def offStack (k : Seal) (g : Nat) (c : List Byte) : List Byte :=
  match k g with | some (k1, k2, _) => xtsDec k1 k2 g c | none => c

/-- The integrity tag of a granule with ciphertext `c`; zero is stored as one (R352). -/
def granuleTag (km : List Byte) (g : Nat) (c : List Byte) : U64 :=
  let t : U64 := wordOf 64 (kmac256 km (leBytes 8 g ++ c) 8 "DCG900 MEMORY TAG")
  if t = 0 then 1 else t

def MemSys.granuleBytes (m : MemSys) (g : Nat) : List Byte := (upTo 256).map fun j => m.stackByte (256 * g + j)

/-- The tag that the tag region holds for a granule: zero until it is written (R295, R352). -/
def MemSys.storedTag (m : MemSys) (k : Seal) (g : Nat) : U64 :=
  let t := match k g with
    | some (_, _, km) => if m.written.contains g then granuleTag km g (onStack k g (m.granuleBytes g)) else 0
    | none => 0
  t ^^^ Tbl.get 0 m.tagFlaws g

/-- The 36 bytes of beat `b` of a granule as its stack holds them. -/
def MemSys.beatBytes (m : MemSys) (k : Seal) (g b : Nat) : List Byte :=
  xorBytes (rsEncode (((onStack k g (m.granuleBytes g)).drop (32 * b)).take 32) (m.sectorPoison (4 * g + b / 2)))
    (bytesOf (Tbl.get 0 m.flaws (8 * g + b)))

/-- What reading a granule from its stack gives: its bytes, the sectors that hold stored poison, those that hold a beat that cannot
be corrected, how many beats were corrected, how many could not be, and whether the tag mismatched. -/
structure StackRead where
  data : BitVec 2048
  stored : BitVec 4
  bad : BitVec 4 := 0
  fixed : Nat := 0
  badBeats : Nat := 0
  mismatch : Bool := false

/-- Has an error struck the granule's beats or its tag? -/
def MemSys.flawed (m : MemSys) (g : Nat) : Bool := m.tagFlaws.has g || (upTo 8).any fun b => m.flaws.has (8 * g + b)

/-- A granule with errors, through its check codes and its tag. A stored tag of zero reads as zero bytes with no error (R352). -/
def MemSys.decodeGranule (m : MemSys) (k : Seal) (g : Nat) : StackRead :=
  let beats := (upTo 8).map fun b => (m.beatBytes k g b, rsDecode (m.beatBytes k g b))
  let sectors := fun (f : BeatRead → Bool) => (upTo 4).foldl (fun (w : BitVec 4) i =>
    putBits w i (bit1 (((beats.drop (2 * i)).take 2).any fun e => f e.2))) 0
  let c := (beats.map fun e => match e.2 with | .fixed d => d | _ => e.1.take 32).flatten
  let r : StackRead :=
    { data := BitVec.ofNat 2048 (ofLe (offStack k g c)), stored := sectors (· == .stored), bad := sectors (· == .bad)
      fixed := (beats.filter fun e => match e.2 with | .fixed _ => true | _ => false).length
      badBeats := (beats.filter fun e => e.2 == .bad).length }
  match k g with
  | some (_, _, km) =>
    let t := m.storedTag k g
    if t = 0 then { data := 0, stored := 0 } else { r with mismatch := t != granuleTag km g c }
  | none => r

def MemSys.readStack (m : MemSys) (k : Seal) (g : Nat) : StackRead :=
  if m.flawed g then m.decodeGranule k g else { data := (m.stackGranule g).1, stored := (m.stackGranule g).2 }

/-- The marks of a line filled with what was read: a beat that cannot be corrected or a tag that mismatches poisons it whole (R310). -/
def StackRead.poison (r : StackRead) : BitVec 4 := if 0 < r.badBeats || r.mismatch then 0xF else r.stored
/-- The marks before a read-modify-write: sector by sector (R300). -/
def StackRead.marks (r : StackRead) : BitVec 4 := if r.mismatch then 0xF else r.stored ||| r.bad

/-- Something found is kept to be reported, where there is something. -/
def MemSys.note (m : MemSys) (l : List Found) : MemSys :=
  { m with found := m.found ++ l.filter fun f => match f with
      | .stack _ x y z => 0 < x || 0 < y || z
      | .line _ x y => 0 < x || 0 < y
      | .buffer _ x y => 0 < x || 0 < y
      | _ => true }

def StackRead.found (r : StackRead) (g : Nat) : List Found := [.stack g r.fixed r.badBeats r.mismatch]

/-- Words of on-chip memory with errors, through their check codes: the data, the marks, how many words were corrected and how many
could not be, which poison their sectors (R307, R310). -/
def cleanWords (data : BitVec 2048) (poison : BitVec 4) (flaws : Tbl (BitVec 79)) : BitVec 2048 × BitVec 4 × Nat × Nat :=
  flaws.foldl (fun (a : BitVec 2048 × BitVec 4 × Nat × Nat) e =>
    let code := bchEncode (bits data (64 * e.1) 64) ^^^ e.2
    match bchDecode code with
    | some c => (putBits a.1 (64 * e.1) (bchData c), a.2.1, a.2.2.1 + 1, a.2.2.2)
    | none => (putBits a.1 (64 * e.1) (bchData code), putField a.2.1 (e.1 / 8) 1 1, a.2.2.1, a.2.2.2 + 1)) (data, poison, 0, 0)

/-- A line or an entry as its check codes leave it, with what was found; the words corrected are rewritten. -/
def AtLine.clean (l : AtLine) : AtLine :=
  if l.flaws.isEmpty then l
  else let r := cleanWords l.data l.poison l.flaws; { l with data := r.1, poison := r.2.1, flaws := [] }
def AtLine.found (l : AtLine) (g : Nat) : List Found :=
  let r := cleanWords l.data l.poison l.flaws; [.line g r.2.2.1 r.2.2.2]
def WcbEntry.clean (e : WcbEntry) : WcbEntry :=
  if e.flaws.isEmpty then e
  else let r := cleanWords e.data e.poison e.flaws; { e with data := r.1, poison := r.2.1, flaws := [] }
def WcbEntry.found (e : WcbEntry) : List Found :=
  let r := cleanWords e.data e.poison e.flaws; [.buffer e.granule r.2.2.1 r.2.2.2]

/-! ### Write-combining buffers (R299, R300) -/

/-- The entry of a granule. -/
def MemSys.wcbAt (m : MemSys) (g : Nat) : Option WcbEntry := m.wcb.find? fun e => e.granule == g

/-- The buffers without an entry of the granule. -/
def MemSys.dropWcb (m : MemSys) (g : Nat) : MemSys := { m with wcb := m.wcb.filter fun e => e.granule != g }

/-- Writes an entry to its stack; an incomplete mask is a read-modify-write, which is counted: what the entry does not write is
read through the check codes and, in a sealed partition, verified first (R300, R315). The check bytes and the tag are new. -/
def MemSys.writeBack (m : MemSys) (k : Seal) (e : WcbEntry) : MemSys :=
  let full := e.mask = BitVec.allOnes 256
  let g := e.granule
  let r := m.readStack k g
  let m := m.note (e.found ++ if full then [] else r.found g)
  let flawed := m.flawed g
  let d := merge e.mask r.data e.clean.data
  let pn := poisonAfter r.marks e.mask e.clean.poison
  let m := loop 256 m fun m j =>
    if flawed || e.mask.getLsbD j then m.setStackByte (256 * g + j) (bits d (8 * j) 8) else m
  let m := loop 4 m fun m k => m.setSectorPoison (4 * g + k) (pn.getLsbD k)
  let m := { m with flaws := m.flaws.filter (fun x => x.1 / 8 != g), tagFlaws := Tbl.erase m.tagFlaws g, written := insertNat g m.written }
  if full then m
  else { m with stackCounters := Tbl.set m.stackCounters (4 * e.stack + 3) (satInc (Tbl.get 0 m.stackCounters (4 * e.stack + 3))) }

/-- An entry leaves its buffer for its stack. -/
def MemSys.wcbOut (m : MemSys) (k : Seal) (g : Nat) : MemSys :=
  match m.wcbAt g with
  | some e => (m.dropWcb g).writeBack k e
  | none => m

/-- The granule of the oldest entry of a stack's buffer. -/
def MemSys.wcbOldest (m : MemSys) (stack : Nat) : Option Nat := (m.wcb.find? fun e => e.stack == stack).map (·.granule)

/-- A write arriving at a buffer: it merges into its granule's entry or takes a new one, the oldest entry leaving when
all 64 are in use; a complete mask leaves at once (R299) (DEDUCED, log 92). -/
def MemSys.wcbPut (m : MemSys) (k : Seal) (stack g part now : Nat) (data : BitVec 2048) (mask : BitVec 256) (po : BitVec 4) : MemSys :=
  let was := (m.wcbAt g).getD { stack := stack, granule := g }
  let old := was.clean
  let e : WcbEntry := { stack := stack, granule := g, data := merge mask old.data data, mask := old.mask ||| mask,
                        poison := poisonAfter old.poison mask po, part := part, last := now }
  let m :=
    if (m.wcbAt g).isSome then { m.note was.found with wcb := m.wcb.map fun x => if x.granule == g then e else x }
    else
      let full := decide (64 ≤ (m.wcb.filter fun x => x.stack == stack).length)
      let m := match m.wcbOldest stack with
        | some o => if full then m.wcbOut k o else m
        | none => m
      { m with wcb := m.wcb ++ [e] }
  if e.mask = BitVec.allOnes 256 then m.wcbOut k g else m

/-! ### The atrium (R297) -/

def MemSys.line (m : MemSys) (g : Nat) : Option AtLine := Tbl.find m.lines g

/-- The lowest locked way of a set on a base die: block b takes way 15 − (b div 28) of sets 64·(b mod 28) up (R298). -/
def lockedWays (blocks set : Nat) : Nat := (blocks + 27 - set / 64) / 28

/-- The newest bytes and marks of a granule that has no line: the buffer's over the stack's. -/
def MemSys.below (m : MemSys) (k : Seal) (g : Nat) : BitVec 2048 × BitVec 4 :=
  let r := m.readStack k g
  match m.wcbAt g with
  | some e => (merge e.mask r.data e.clean.data, poisonAfter r.poison e.mask e.clean.poison)
  | none => (r.data, r.poison)

/-- The newest bytes of a granule, whichever of the atrium and the buffers holds them (R299), as the check codes leave them. -/
def State.newest (s : State) (g : Nat) : BitVec 2048 × BitVec 4 :=
  match s.mem.line g with
  | some l => (l.clean.data, l.clean.poison)
  | none => s.mem.below s.seal g

/-- Granules of the lines in the set that granule `g` maps to on its base die. -/
def State.sameSet (s : State) (g : Nat) : List (Nat × AtLine) :=
  let q := s.place g
  s.mem.lines.filter fun e => let r := s.place e.1; r.die == q.die && r.bank == q.bank && r.set == q.set

/-- The victim's way and, if the way holds a line, its granule: the lowest invalid unlocked way, otherwise the least
recently used (R297). No unlocked way: none. -/
def State.victim (s : State) (g : Nat) : Option (Nat × Option Nat) :=
  let q := s.place g
  let ways := 16 - min 16 (lockedWays (Tbl.get 0 s.mem.locked q.die) q.set)
  let held := s.sameSet g
  match (upTo ways).find? fun w => !held.any fun e => e.2.way.toNat == w with
  | some w => some (w, none)
  | none =>
    let lru := held.foldl (fun (b : Option (Nat × AtLine)) e =>
      if e.2.way.toNat < ways then
        match b with
        | some x => if e.2.use < x.2.use then some e else b
        | none => some e
      else b) none
    lru.map fun e => (e.2.way.toNat, some e.1)

def State.setMem (s : State) (m : MemSys) : State := { s with mem := m }

/-- Takes a line out of the atrium; a dirty line is written whole to the write-combining buffer (R297). -/
def evict (s : State) (g : Nat) : State :=
  match s.mem.line g with
  | none => s
  | some l =>
    let m := { s.mem with lines := Tbl.erase s.mem.lines g }
    if l.dirty then
      s.setMem ((m.note (l.found g)).wcbPut s.seal (s.place g).stack g ((s.ownerOfAddr (256 * g)).getD 0) s.now l.clean.data
        (BitVec.allOnes 256) l.clean.poison)
    else s.setMem m

/-- Brings a granule into the atrium, a write-combining entry of it merged and freed, and marks its use (R297, R299); what the check
codes find is noted, and a line filled with something corrected is dirty (R310). A granule that finds no unlocked way is served
without a line. -/
def allocate (s : State) (g : Nat) : State :=
  let clk := s.mem.useClock + 1
  match s.mem.line g with
  | some l => s.setMem { s.mem.note (l.found g) with useClock := clk, lines := Tbl.set s.mem.lines g { l.clean with use := clk } }
  | none =>
    let r := s.mem.readStack s.seal g
    let seen := r.found g ++ match s.mem.wcbAt g with | some e => e.found | none => []
    match s.victim g with
    | none => s.setMem (s.mem.note seen)
    | some (w, old) =>
      let s := s.setMem (s.mem.note seen)
      let s := match old with | some v => evict s v | none => s
      let (d, po) := s.mem.below s.seal g
      let had := (s.mem.wcbAt g).isSome || 0 < r.fixed
      let m := s.mem.dropWcb g
      s.setMem { m with useClock := clk,
                        lines := Tbl.set m.lines g { data := d, dirty := had, poison := po, way := BitVec.ofNat 4 w, use := clk } }

/-- A store to one granule: the line, if present, is updated and marked dirty; otherwise the bytes go to the buffer of
the stack (R297). -/
def storeGranule (s : State) (g : Nat) (data : BitVec 2048) (mask : BitVec 256) (po : BitVec 4) : State :=
  match s.mem.line g with
  | some l =>
    let clk := s.mem.useClock + 1
    s.setMem { s.mem.note (l.found g) with
               useClock := clk,
               lines := Tbl.set s.mem.lines g { l.clean with data := merge mask l.clean.data data, dirty := true,
                                                              poison := poisonAfter l.clean.poison mask po, use := clk } }
  | none =>
    s.setMem (s.mem.wcbPut s.seal (s.place g).stack g ((s.ownerOfAddr (256 * g)).getD 0) s.now data mask po)

/-- Stores bytes within one granule from offset `off`. -/
def storeIn (s : State) (g off : Nat) (bs : List Byte) (poisoned : Bool) : State :=
  let mask : BitVec 256 := (BitVec.ofNat 256 (2 ^ bs.length - 1)) <<< off
  let data : BitVec 2048 := (BitVec.ofNat 2048 (ofLe bs)) <<< (8 * off)
  let po : BitVec 4 := if poisoned then
      (upTo 4).foldl (fun (r : BitVec 4) k => putBits r k (bit1 (sectorMask mask k != 0))) 0
    else 0
  storeGranule s g data mask po

def storeLoop : Nat → State → Nat → List Byte → Bool → State
  | 0, s, _, _, _ => s
  | n + 1, s, a, bs, po =>
    if bs.isEmpty then s
    else
      let off := a % 256
      let k := min (256 - off) bs.length
      storeLoop n (storeIn s (a / 256) off (bs.take k) po) (a + k) (bs.drop k) po

/-- Stores bytes to partition memory, in ascending addresses, all with or all without poison. -/
def storeBytes (s : State) (a : Nat) (bs : List Byte) (poisoned : Bool := false) : State :=
  storeLoop (bs.length / 256 + 2) s a bs poisoned

/-- The newest byte at an address. -/
def State.byteAt (s : State) (a : Nat) : Byte := bits (s.newest (a / 256)).1 (8 * (a % 256)) 8

/-- The newest `n` bytes from an address up, with no trace in the atrium. -/
def State.bytesAt (s : State) (a n : Nat) : List Byte := (countUp a n).map s.byteAt

/-- Is any sector that `[a, a + n)` touches poisoned? -/
def State.poisonAt (s : State) (a n : Nat) : Bool :=
  n != 0 && (countUp (a / 64) ((a + n - 1) / 64 - a / 64 + 1)).any fun k =>
    (s.newest (k / 4)).2.getLsbD (k % 4)

/-- Reading `[a, a + n)` brings its granules into the atrium (R297). -/
def touch (s : State) (a n : Nat) : State :=
  if n = 0 then s else each (countUp (a / 256) ((a + n - 1) / 256 - a / 256 + 1)) s allocate

/-! ### Discarding, draining and clearing -/

/-- Lines and buffer entries whose granule satisfies `f` are discarded unwritten. -/
def discardWhere (s : State) (f : Nat → Bool) : State :=
  s.setMem { s.mem with lines := s.mem.lines.filter (fun e => !f e.1),
                        wcb := s.mem.wcb.filter fun x => !f x.granule }

/-- The granules of partition `p`. -/
def State.inPart (s : State) (p : Nat) (g : Nat) : Bool := s.pbase p ≤ 256 * g && 256 * g < s.pbase p + s.psize

/-- Writes every buffer entry of a partition to its stack: a drain request (R299). -/
def drainPart (s : State) (p : Nat) : State :=
  s.setMem (((s.mem.wcb.map (·.granule)).filter (s.inPart p)).foldl (fun m g => m.wcbOut s.seal g) s.mem)

/-- Writes back every dirty line and every entry of a partition and invalidates its lines (R438 step 5). -/
def flushPart (s : State) (p : Nat) : State :=
  let s := each ((s.mem.lines.map (·.1)).filter (s.inPart p)) s evict
  drainPart s p

/-- The partition's quarters of the address space take contents `k` (0: zero), with no poison (R361, R348). -/
def refill (s : State) (p k : Nat) : State :=
  let s := discardWhere s (s.inPart p)
  let lo := s.pbase p
  let hi := lo + s.psize
  s.setMem { s.mem with hbm := Tbl.dropRange s.mem.hbm lo hi,
                        poison := s.mem.poison.filter (fun x => 64 * x < lo || hi ≤ 64 * x),
                        flaws := Tbl.dropRange s.mem.flaws (lo / 32) (hi / 32), tagFlaws := Tbl.dropRange s.mem.tagFlaws (lo / 256) (hi / 256),
                        written := s.mem.written.filter (fun g => 256 * g < lo || hi ≤ 256 * g),
                        back := (countUp (lo / quarterSize) s.mode.dieShare).foldl (fun b q => Tbl.set b q k) s.mem.back }

/-! ### Errors that strike -/

/-- What an error XORs into a code word joins what others have. -/
def hitWord {n : Nat} (t : Tbl (BitVec n)) (i : Nat) (err : BitVec n) : Tbl (BitVec n) :=
  let x := Tbl.get 0 t i ^^^ err
  if x = 0 then Tbl.erase t i else Tbl.set t i x

/-- An error strikes a stored code word. Where nothing is stored nothing changes; a stack's own correction, and an error in other
on-chip memory, is noted at once. -/
def MemSys.strike (m : MemSys) (f : Flaw) : MemSys :=
  match f with
  | .beat n e => { m with flaws := hitWord m.flaws n.toNat e }
  | .tag g e => { m with tagFlaws := hitWord m.tagFlaws g.toNat e }
  | .onDie g => m.note [.onDie g.toNat]
  | .line g w e => { m with lines := m.lines.map fun x =>
      if x.1 = g.toNat then (x.1, { x.2 with flaws := hitWord x.2.flaws w.toNat e }) else x }
  | .buffer g w e => { m with wcb := m.wcb.map fun x =>
      if x.granule == g.toNat then { x with flaws := hitWord x.flaws w.toNat e } else x }
  | .other e => if e = 0 then m else m.note [.other (bchDecode e).isNone]

def strikeAll (s : State) (l : List Flaw) : State := s.setMem (l.foldl MemSys.strike s.mem)

/-! ### Memory events (R312) and blocked granules (R313, R314) -/

structure MemEvent where
  granule : Nat
  unit : Nat := 0
  pc : Nat := 0
  uclass : Nat := 0
  kind : Nat
  part : Option Nat := none

/-- Enters one event in the ring of 0x8061 (R312). -/
def memEvent (s : State) (e : MemEvent) : State :=
  let n := s.mem.eventCount
  let w : BitVec 256 := 0
  let w := putBits w 192 s.stamp
  let w := putField w 160 32 e.granule
  let w := putField w 152 8 e.unit
  let w := putField w 147 5 e.pc
  let w := putField w 144 3 e.uclass
  let w := putField w 140 4 e.kind
  let w := putField w 137 3 (e.part.getD 7)
  let w := putBits w 135 s.tq
  let w := putBits w 0 (n + 1)
  s.setMem { s.mem with events := Tbl.set s.mem.events (n.toNat % 16) w, eventCount := n + 1 }

def State.blockedEntry (s : State) (i : Nat) : U64 := Tbl.get 0 s.mem.blocked i

/-- Is the 64 KiB granule that holds address `a` blocked (R313)? -/
def State.blockedAt (s : State) (a : Nat) : Bool :=
  s.mem.blocked.any fun e => flag e.2 63 && field e.2 0 32 == a / 65536

/-- Unit numbers of the service state (R419): 512 × class + number. -/
def unitId (cls num : Nat) : Nat := 512 * cls + num
def State.outOfService (s : State) (cls num : Nat) : Bool := s.svc.out.contains (unitId cls num)
def State.pcOut (s : State) (a : Nat) : Bool :=
  let q := s.place (a / 256)
  s.outOfService 2 (32 * q.stack + q.pc)

/-- Why an access to the granule at `a` moves no byte: a blocked granule, that of its tag included, or a
pseudo-channel out of service (R314, R419). -/
def State.accessStop (s : State) (a : Nat) : Option U16 :=
  let p := (s.ownerOfAddr a).getD 0
  if s.blockedAt a || (s.sealed p && s.blockedAt (s.tagBase p + 8 * ((a - s.pbase p) / 256))) then some 0x0701
  else if s.pcOut a then some 0x0803
  else none

/-- The KIND 4 record of a refused access (R314). -/
def recordRefused (s : State) (a : Nat) : State :=
  let q := s.place (a / 256)
  memEvent s { granule := a / 65536, unit := q.stack, pc := q.pc, kind := 4, part := s.ownerOfAddr a }

/-- The first granule of `[a, a + n)` an access to which is refused. -/
def State.rangeStop (s : State) (a n : Nat) : Option (Nat × U16) :=
  if n = 0 then none
  else (countUp (a / 256) ((a + n - 1) / 256 - a / 256 + 1)).findSome? fun g =>
    (s.accessStop (256 * g)).map fun c => (256 * g, c)

end Sys2Proof.Machine
end

