-- ==== Sys2Proof/Machine/Frames.lean ====
section
/-! DEFINITION. Frames of the peer ports (12_reduction_and_peer_links R280, R281), the ports and adder groups of the
reduction paths (R269), and the ABORT a participant sends (R286). -/

namespace Sys2Proof.Machine

/-! ### Frames (R280 to R282) -/

def fType (f : PeerFrame) : Nat := field f.hdr 0 5
def fDrank (f : PeerFrame) : Nat := field f.hdr 5 14
def fSrank (f : PeerFrame) : Nat := field f.hdr 19 14
def fDpart (f : PeerFrame) : Nat := field f.hdr 33 2
def fSpart (f : PeerFrame) : Nat := field f.hdr 35 2
def fChan (f : PeerFrame) : Nat := field f.hdr 37 3
def fDown (f : PeerFrame) : Bool := flag f.hdr 40
def fPath (f : PeerFrame) : Nat := field f.hdr 41 1
def fSampled (f : PeerFrame) : Bool := flag f.hdr 42
def fLevel (f : PeerFrame) : Nat := field f.hdr 43 4
def fPmask (f : PeerFrame) : Byte := bits f.hdr 55 8
def fPiece (f : PeerFrame) : Nat := field f.hdr 63 7
def fSeg (f : PeerFrame) : Nat := field f.hdr 70 10
def fEpoch (f : PeerFrame) : Nat := field f.hdr 80 16
def fBucket (f : PeerFrame) : U32 := bits f.hdr 96 32

def tLseq (f : PeerFrame) : U16 := bits f.trl 80 16
def tAck (f : PeerFrame) : U16 := bits f.trl 64 16
def tNak (f : PeerFrame) : Bool := flag f.trl 63
def tChan (f : PeerFrame) : Nat := field f.trl 60 3
def tVl (f : PeerFrame) : Nat := field f.trl 58 2
def tCount (f : PeerFrame) : Nat := field f.trl 50 8
def tShared (f : PeerFrame) : Bool := flag f.trl 49
def tInShared (f : PeerFrame) : Bool := flag f.trl 48

/-- What a header says, each field 0 unless named (R281). -/
structure FrameHead where
  typ : Nat
  drank : Nat := 0
  dpart : Nat := 0
  chan : Nat := 0
  down : Bool := false
  path : Nat := 0
  sampled : Bool := false
  level : Nat := 0
  pmask : Byte := 0
  piece : Nat := 0
  seg : Nat := 0
  epoch : Nat := 0
  bucket : U32 := 0

/-- A frame from partition `p` with a payload in 4-byte units, its trailer still to be filled. -/
def mkFrame (s : State) (p : Nat) (h : FrameHead) (payload : List Byte) : PeerFrame :=
  let w : BitVec 128 := 0
  let w := putBits w 96 h.bucket
  let w := putField w 80 16 h.epoch
  let w := putField w 70 10 h.seg
  let w := putField w 63 7 h.piece
  let w := putBits w 55 h.pmask
  let w := putField w 47 8 (payload.length / 4)
  let w := putField w 43 4 h.level
  let w := putBits w 42 (bit1 h.sampled)
  let w := putField w 41 1 h.path
  let w := putBits w 40 (bit1 h.down)
  let w := putField w 37 3 h.chan
  let w := putField w 35 2 p
  let w := putField w 33 2 h.dpart
  let w := putField w 19 14 s.rank.toNat
  let w := putField w 5 14 h.drank
  { hdr := putField w 0 5 h.typ, payload := payload, trl := 0 }

/-- A frame is queued at a port's egress. -/
def queueFrame (s : State) (j : Nat) (f : PeerFrame) : State := s.updPort j fun q => { q with queue := q.queue ++ [f] }

/-! ### Ports and adder groups of the paths (R269) -/

/-- A port with a lane that is present and in service. -/
def State.portAlive (s : State) (j : Nat) : Bool :=
  s.ident.portsPresent.getLsbD j && (upTo 4).any fun l => !s.outOfService 3 (4 * j + l)

/-- The port set of a path in a partition: even-numbered ports for the primary, odd-numbered for the lanyard. -/
def State.portSet (s : State) (p path : Nat) : List Nat := (s.portsOf p).filter fun j => j % 2 == path % 2

/-- The member of a list from index `i` up, around the end, that first satisfies `f`; member `i` where none does. -/
def firstFrom (l : List Nat) (i : Nat) (f : Nat → Bool) : Nat :=
  let r := l.drop (i % max 1 l.length) ++ l.take (i % max 1 l.length)
  (r.find? f).getD (r.headD 0)

/-- The port on which a hop of level `l` leaves: member l mod P, or its replacement. -/
def State.pathPort (s : State) (p path l : Nat) : Nat := firstFrom (s.portSet p path) l s.portAlive

/-- The vote member: of the primary set, one further (R269). -/
def State.votePort (s : State) (p l : Nat) : Nat := firstFrom (s.portSet p 0) (l + 1) s.portAlive

/-- Adder groups of a partition. -/
def State.groupCount (s : State) : Nat := 4 * s.mode.dieShare

/-- The adder group of a role before replacement: 0 primary, 1 lanyard, 2 vote. -/
def State.groupNominal (s : State) (chan role : Nat) : Nat :=
  let g := s.groupCount
  match role with
  | 0 => chan % g
  | 1 => (chan % g + g / 2) % g
  | _ => (chan % g + 1) % g

/-- Unit number of group `g` of partition `p` in class 4. -/
def State.groupUnit (s : State) (p g : Nat) : Nat := s.groupCount * p + g

/-- The adder group that serves a role: its nominal one, or the next in service that no other path uses (DEDUCED, log 85). -/
def State.groupOf (s : State) (p chan role : Nat) : Nat :=
  let serve := fun (r : Nat) (taken : List Nat) => firstFrom (upTo s.groupCount) (s.groupNominal chan r) fun g =>
    !s.outOfService 4 (s.groupUnit p g) && !taken.contains g
  let gP := serve 0 [s.groupNominal chan 1]
  let gL := serve 1 [gP]
  match role with
  | 0 => gP
  | 1 => gL
  | _ => serve 2 [gP, gL]

/-- What the adder group of a role does to the words it sums: nothing, unless it is defective (DESIGN CHOICE, log 103). -/
def State.adderFlaw (s : State) (p chan role : Nat) : Nat := (Tbl.get 0 s.mem.adders (s.groupUnit p (s.groupOf p chan role))).toNat

/-! ### Group lists and ABORT (R264, R286) -/

/-- Rank and partition of a participant's key q. -/
def keyRank (q : Nat) : Nat := q / 4
def keyPart (q : Nat) : Nat := q % 4
/-- This partition's key (R263). -/
def State.ownKey (s : State) (p : Nat) : Nat := 4 * s.rank.toNat + p

/-- The port that carries control and exchange frames to participant `q`. -/
def State.exchangePort (s : State) (p q : Nat) : Nat := firstFrom (s.portsOf p) (Config.exchangeMember q) s.portAlive

/-- Sends a frame to participant `q` from a port. -/
def sendTo (s : State) (p j q : Nat) (h : FrameHead) (payload : List Byte) : State :=
  queueFrame s j (mkFrame s p { h with drank := keyRank q, dpart := keyPart q } payload)

/-- ABORT to every other member of a group, with the cause and the first unfinished segment or block (DEDUCED, log 96). -/
def sendAbort (s : State) (p : Nat) (group : List Nat) (tag : U32) (chan seg : Nat) (cause : U16) : State :=
  each (group.filter fun q => q != s.ownKey p) s fun s q =>
    sendTo s p (s.exchangePort p q) q { typ := 7, bucket := tag, chan := chan, seg := seg } (leBytes 4 cause.toNat)

/-- The ABORT of one macro-operation, if it is a REDUCE or an EXCHANGE under way. -/
def abortOp (s : State) (p : Nat) (o : Op) (cause : U16) : State :=
  match o.bucket, o.xchg with
  | some b, _ => sendAbort s p b.group (bits b.blk 400 32) (field b.blk 13 3) b.done cause
  | none, some x => sendAbort s p x.group (bits x.blk 400 32) 0 x.first cause
  | none, none => s

end Sys2Proof.Machine
end

