-- ==== Sys2Proof/Machine/RingOps.lean ====
section
/-! DEFINITION. Shared operations on command rings (14_companion_link R328 to R338): the lines the device holds, the
notify line's contents, and the ring reset. -/

namespace Sys2Proof.Machine

/-! ### Configuration (R328) -/

def Ring.entriesAt (r : Ring) : Nat := field r.cfg 0 64
def Ring.recordsAt (r : Ring) : Nat := field r.cfg 64 64
def Ring.tailAt (r : Ring) : Nat := field r.cfg 128 64
def Ring.notifyAt (r : Ring) : Nat := field r.cfg 192 64
def Ring.faultAt (r : Ring) : Nat := field r.cfg 256 64
def Ring.log2n (r : Ring) : Nat := field r.cfg 320 64
/-- N, the entries a ring holds. -/
def Ring.size (r : Ring) : Nat := 2 ^ r.log2n
def Ring.entryAddr (r : Ring) (seq : Nat) : Nat := r.entriesAt + 128 * ((seq - 1) % r.size)
def Ring.recordAddr (r : Ring) (seq : Nat) : Nat := r.recordsAt + 32 * ((seq - 1) % r.size)

/-! ### The notify line (R335) -/

def RState.code : RState → Nat
  | .idle => 0 | .running => 1 | .stopping => 2 | .stopped => 3 | .halted => 4 | .resetting => 5 | .disabled => 6 | .scrub => 7

/-- The contents the notify line should have now. -/
def Ring.notifyWord (r : Ring) : Line :=
  let w : Line := 0
  let w := putBits w 224 r.echoReset
  let w := putBits w 208 r.echoResume
  let w := putBits w 192 r.echoStop
  let w := putField w 188 4 r.st.code
  let w := putField w 64 64 r.faultSeq
  putField w 0 64 r.done

/-- The tail line is read again (R329). -/
def readTail (s : State) (n : Nat) : State :=
  if s.link.up && (s.ring n).enabled then linkRead s 0x01 (s.ring n).tailAt (.tail n) else s

/-- The notify line is obtained owned (R322). -/
def readNotify (s : State) (n : Nat) : State :=
  if s.link.up && (s.ring n).enabled then linkRead s 0x0A (s.ring n).notifyAt (.notify n) else s

/-! ### Faults (R238, R335, R339) -/

/-- What a fault report says beyond its stamp (R238). -/
structure FaultInfo where
  cause : U16
  seq : Nat
  room : Option Nat := none
  station : Nat := 0
  prog : U16 := 0
  entry : U16 := 0
  elem : U32 := 0
  coords : List Nat := []
  ffrec : BitVec 128 := 0
  detail : U64 := 0
  /-- The granule an access to which was refused (R314). -/
  refused : Option Nat := none
  /-- What the stream has dispatched completes as usual (R330). -/
  runOn : Bool := false

def faultWord (s : State) (f : FaultInfo) : BitVec 512 :=
  let w : BitVec 512 := 0
  let w := putBits w 384 f.ffrec
  let w := loop 4 w fun w i => putField w (256 + 32 * i) 32 (nth f.coords i)
  let w := putField w 192 64 f.seq
  let w := putBits w 176 f.entry
  let w := putBits w 160 f.prog
  let w := putBits w 128 f.elem
  let w := putBits w 112 f.cause
  let w := putField w 104 8 (f.room.getD 0)
  let w := putField w 100 4 f.station
  let w := putBits w 98 s.tq
  putBits w 0 s.stamp

/-- A stream halts on a fault: STATE 4 and FAULTSEQ; what was dispatched runs to its stop points; the log entry and the
fault report are written. What others of the
partition wait for with it follows in `haltRing`. -/
def haltOne (s : State) (n : Nat) (f : FaultInfo) : State :=
  let s := match f.refused with | some a => recordRefused s a | none => s
  let s := s.updRing n fun r => { r with st := .halted, stopReq := r.stopReq || !f.runOn, faultSeq := f.seq }
  let s := logEvent s f.cause { sev := 2, ring := BitVec.ofNat 8 n, arg := BitVec.ofNat 32 f.seq, part := some (ringPart n),
                                stream := true, detail := f.detail,
                                unit := match f.room with | some r => BitVec.ofNat 8 r | none => 0xFF }
  linkWrite s (s.ring n).faultAt (bytesOf (faultWord s f))

/-! ### Macro-operations in flight -/

/-- OPC of a macro-operation's record (R226). -/
def Op.opc (o : Op) : Nat := field o.mop 0 16
def Op.bind (o : Op) (i : Nat) : Nat := field o.mop (256 + 16 * i) 16
/-- The descriptor of a handle as read at dispatch (R59), where descriptors are kept by handle. -/
def Op.desc (o : Op) (h : Nat) : Desc := Tbl.get 0 o.descs h
def Op.bindEn (o : Op) (i : Nat) : Bool := flag o.mop (240 + i)
def Op.addr (o : Op) : Nat := field o.mop 192 48
def Op.imm (o : Op) : U64 := bits o.mop 128 64
def Op.scount (o : Op) : Nat := field o.mop 116 12
def Op.sfirst (o : Op) : Nat := field o.mop 105 11
def Op.entry (o : Op) : Nat := field o.mop 80 16
def Op.prog (o : Op) : Nat := field o.mop 64 16
def Op.isRun (o : Op) : Bool := !o.noop && o.opc == 0x12
/-- A fence or the fence of a hitch (R63, R64). -/
def Op.isFence (o : Op) : Bool := !o.noop && (o.opc == 1 || o.opc == 2)

def State.updOps (s : State) (n : Nat) (f : Op → Op) : State :=
  s.updRing n fun r => { r with ops := r.ops.map f }

/-- The macro-operation in flight whose entry has sequence `seq`. -/
def State.opAt (s : State) (n seq : Nat) : Option Op := (s.ring n).ops.find? fun o => o.orig == seq

def State.updOp (s : State) (n seq : Nat) (f : Op → Op) : State :=
  s.updOps n fun o => if o.orig = seq then f o else o

/-! ### Completion records (R332 to R334) -/

/-- A completion record: STATUS, ARG, EXC and the times of its macro-operation. A no-op's holds only SEQ, times and
status. -/
def recordWord (o : Op) (energy : Nat) : BitVec 256 :=
  let w : BitVec 256 := 0
  let w := if o.noop then w else putBits w 216 (saturate 40 energy)
  let w := putBits w 176 (saturate 40 (o.tend.toNat - o.tstart.toNat))
  let w := putBits w 112 o.tend
  let w := if o.noop && o.status != 2 then w else putBits w 80 o.arg
  let w := if o.noop then w else putBits w 73 o.exc
  let w := putBits w 71 o.tq
  let w := putField w 67 4 o.status
  putField w 0 64 o.seq

/-- Writes a record: bytes 8 to 31 first, the SEQ word last, DONE after it. -/
def writeRecord (s : State) (n : Nat) (o : Op) : State :=
  let (k, s) := s.takeFree
  let w := recordWord o (Config.activityEnergy k)
  let a := (s.ring n).recordAddr o.seq
  let s := linkWrite s (a + 8) (bytesOf (bits w 64 192))
  let s := linkWrite s a (bytesOf (bits w 0 64))
  s.updRing n fun r => { r with done := o.seq }

/-- Records of the finished macro-operations at the head of a ring, in sequence order (R334). -/
def retireLoop : Nat → State → Nat → State
  | 0, s, _ => s
  | k + 1, s, n =>
    match (s.ring n).ops with
    | o :: t => if o.finished then retireLoop k (writeRecord (s.updRing n fun r => { r with ops := t }) n o) n else s
    | [] => s

def retire (s : State) (n : Nat) : State := retireLoop (s.ring n).ops.length s n

/-- Rooms that run a share of a macro-operation drop it. -/
def Room.dropped (r : Room) : Room :=
  { r with run := none, active := false, matQ := [], vecQ := [], rowQ := [], loadQ := [], storeQ := [], sigQ := [], vstQ := [],
           readers := [], writers := [] }

def dropShares (s : State) (n : Nat) (f : Nat → Bool) : State :=
  each (s.roomsOf (ringPart n)) s fun s m =>
    match (s.room m).run with
    | some (k, q) => if k = n && f q then s.updRoom m Room.dropped else s
    | none => s

/-- A macro-operation ends with STATUS 2. -/
def Op.failed (o : Op) (s : State) (cause : U16) : Op :=
  { o with finished := true, work := true, status := 2, arg := cause.setWidth 32, tend := s.stamp, tq := s.tq }

/-! ### Phase-timer records (R257 to R261) -/

/-- A phase-timer record of running totals. -/
def phaseWord (ph : Phase) (state : Nat) (step : U32) (tend : U64) (tq : BitVec 2) (energy : U64) : BitVec 768 :=
  let w : BitVec 768 := 0
  let w := putBits w 704 (energy - ph.energy0)
  let w := loop 8 w fun w i => putField w (192 + 64 * i) 64 (nth ph.t i)
  let w := putBits w 128 tend
  let w := putBits w 64 ph.tstart
  let w := putBits w 32 step
  let w := putBits w 2 tq
  putField w 0 2 state

def State.ringEnergy (s : State) (n : Nat) : U64 := Tbl.get 0 s.pw.energyRing n

/-- A stop closes the running step (R261). -/
def closeStep (s : State) (n : Nat) : State :=
  match (s.ring n).phase with
  | some ph => s.updRing n fun r => { r with phase := none, lastStep := phaseWord ph 2 r.steps s.stamp s.tq (s.ringEnergy n) }
  | none => s

/-- A step begins. -/
def beginStep (s : State) (n : Nat) : State :=
  s.updRing n fun r => { r with phase := some { tstart := s.stamp, energy0 := s.ringEnergy n } }

/-! ### Hitches that end without release (R65) -/

/-- The hitch at which a ring waits. -/
def State.hitchOf (s : State) (n : Nat) : Option Nat :=
  ((s.sched (ringPart n)).hitches.find? fun e => e.2.arrived.contains n).map (·.1)

def setHitch (s : State) (p k : Nat) (h : Hitch) : State := s.updSched p fun q => { q with hitches := Tbl.set q.hitches k h }

/-- A participant waiting at a hitch halts: its hitch macro-operation ends with STATUS 2. -/
def haltWaiter (s : State) (n : Nat) (cause : U16) : State :=
  match (s.ring n).ops.find? fun o => o.isFence && !o.finished with
  | some o =>
    let s := haltOne s n { cause := cause, seq := o.seq }
    let s := s.updOp n o.orig fun o => o.failed s cause
    retire s n
  | none => s

/-- The hitches a stopped or halted ring takes part in break for the others that wait there; these halt in turn. -/
def breakLoop : Nat → State → List Nat → State
  | 0, s, _ => s
  | _, s, [] => s
  | k + 1, s, n :: rest =>
    let p := ringPart n
    let broken := (s.sched p).hitches.filter fun e => !e.2.arrived.isEmpty && e.2.mask.getLsbD (n % 16)
    let (s, more) := broken.foldl (fun (a : State × List Nat) e =>
      let others := e.2.arrived.filter fun m => m != n
      let s := setHitch a.1 p e.1 { e.2 with arrived := [], mask := 0 }
      (each others s fun s m => haltWaiter s m 0x0A0C, a.2 ++ others)) (s, [])
    breakLoop k s (rest ++ more)

def breakHitches (s : State) (n : Nat) : State := breakLoop 32 s [n]

/-- A stream halts on a fault, and the hitches it takes part in break. -/
def haltRing (s : State) (n : Nat) (f : FaultInfo) : State := breakHitches (haltOne s n f) n

/-- The program and entry that a fault of a macro-operation names: those of its record (R238). -/
def FaultInfo.of (f : FaultInfo) (o : Op) : FaultInfo :=
  { f with prog := if !o.noop && 0x10 ≤ o.opc && o.opc ≤ 0x12 then BitVec.ofNat 16 o.prog else f.prog
           entry := if o.isRun then BitVec.ofNat 16 o.entry else f.entry }

/-- A macro-operation in flight faults: its shares are dropped, a REDUCE or EXCHANGE sends ABORT, its stream halts, its record
follows in sequence order (R238, R286). -/
def faultOp (s : State) (n seq : Nat) (f : FaultInfo) : State :=
  match s.opAt n seq with
  | some o =>
    if o.finished then s
    else
      let s := dropShares s n fun q => q == seq
      let s := abortOp s (ringPart n) o f.cause
      let s := haltRing s n ({ f with seq := o.seq }.of o)
      let s := match o.solve.bind (·.entry) with | some k => s.updEvent k fun _ => {} | none => s
      let s := s.updOp n seq fun o => o.failed s f.cause
      retire s n
  | none => s

/-! ### Ring reset (R337) -/

/-- A ring's arrival at a hitch is withdrawn; the hitch is cleared once no arrival remains (R65) (DEDUCED, log 54). -/
def withdraw (s : State) (n : Nat) : State :=
  match s.hitchOf n with
  | some k =>
    let p := ringPart n
    let h := Tbl.get {} (s.sched p).hitches k
    let left := h.arrived.filter fun m => m != n
    setHitch s p k { h with arrived := left, mask := if left.isEmpty then 0 else h.mask }
  | none => s

/-- Steps 2 and 3: work in flight is abandoned with no record, stopped state is discarded. -/
def abandonRing (s : State) (n : Nat) : State :=
  let r := s.ring n
  let s := dropShares s n fun _ => true
  let armed := (r.ops ++ r.stoppedOps).filterMap fun o => o.solve.bind fun c => c.entry
  let s := each armed s fun s k => s.updEvent k fun _ => {}
  let s := s.updRing n fun r => { r with ops := [], stoppedOps := [], stopReq := false, resumePend := false, fetched := [] }
  breakHitches (withdraw s n) n

/-- The ring's own fields after steps 2 to 4. -/
def Ring.cleared (r : Ring) : Ring :=
  { r with done := 0, faultSeq := 0, nextSeq := 1, fetchSeq := 1, tail := 0, head := 0, overrun := false, fresh := true,
           read := false, stopSeen := false, poisoned := false, phase := none, lastStep := noHistory, snapshot := noHistory,
           echoReset := r.takenReset, echoResume := r.takenResume, echoStop := r.takenStop }

/-- A ring reset: abandonment, cleared counters, STATE 0, generations echoed, the tail line read again. -/
def ringReset (s : State) (n : Nat) : State :=
  let s := abandonRing s n
  let s := s.updRing n fun r => { r.cleared with st := if r.enabled then .idle else .disabled }
  readTail s n

/-- Where every ring of a partition is reset, no participant of a hitch is left to halt (R438). -/
def clearHitches (s : State) (p : Nat) : State :=
  s.updSched p fun q => { q with hitches := q.hitches.map fun e => (e.1, { e.2 with arrived := [], mask := 0 }) }

/-- The work of every ring of a partition is abandoned. -/
def abandonRings (s : State) (p : Nat) : State := each (ringsOf p) (clearHitches s p) abandonRing

/-- Ring resets of the enabled rings of a partition (R348, R438). -/
def resetRings (s : State) (p : Nat) : State :=
  let s := clearHitches s p
  each ((ringsOf p).filter fun n => (s.ring n).enabled) s ringReset

/-- An overrun halts the stream once every entry up to the last good one has been dispatched; what it has dispatched completes as
usual (R330). -/
def settleOverrun (s : State) (n : Nat) : State :=
  let r := s.ring n
  if r.overrun && r.tail < r.nextSeq && (r.st == .idle || r.st == .running || r.st == .stopping || r.st == .stopped || r.st == .halted) then
    haltRing s n { cause := 0x0F03, seq := r.tail + 1, runOn := true }
  else s

/-! ### Fetching (R331) -/

/-- The reads of one entry's two lines. -/
def fetchEntry (s : State) (n seq : Nat) : State :=
  let a := (s.ring n).entryAddr seq
  linkRead (linkRead s 0x01 a (.entry n seq 0)) 0x01 (a + 64) (.entry n seq 1)

/-- Up to 64 entries ahead of dispatch are fetched, as far as TAIL goes. -/
def fetchMore (s : State) (n : Nat) : State :=
  let r := s.ring n
  let last := min r.tail (r.nextSeq + 63)
  if !s.link.up || !r.enabled || last < r.fetchSeq then s
  else
    let new := countUp r.fetchSeq (last + 1 - r.fetchSeq)
    let s := s.updRing n fun r => { r with fetched := r.fetched ++ new.map fun q => { seq := q }, fetchSeq := last + 1 }
    each new s fun s q => fetchEntry s n q

/-- The reads of entries that a link reset lost are issued again (R321). -/
def refetch (s : State) (n : Nat) : State :=
  let lost := ((s.ring n).fetched.filter fun e => e.got != 3).map (·.seq)
  let s := s.updRing n fun r => { r with fetched := r.fetched.map fun e => if e.got = 3 then e else { e with got := 0 } }
  each lost s fun s q => fetchEntry s n q

/-- Half of an entry has arrived, or its read has failed. -/
def entryHalf (s : State) (n seq half : Nat) (ok : Bool) (data : Line) : State :=
  s.updRing n fun r => { r with fetched := r.fetched.map fun e =>
    if e.seq == seq then { e with bytes := putBits e.bytes (512 * half) data, ok := e.ok && ok, got := putField e.got half 1 1 }
    else e }

/-! ### STATE -/

/-- A stream that may dispatch is running while it has entries or work, else idle. -/
def Ring.busy (r : Ring) : Bool := r.nextSeq ≤ r.tail || !r.ops.isEmpty
def runOrIdle (s : State) (n : Nat) : State :=
  s.updRing n fun r => if r.st == .idle || r.st == .running then { r with st := if r.busy then .running else .idle } else r

/-- Dispatch is enabled again, and the RESUMEGEN that asked for it echoed (R336). -/
def Ring.resumed (r : Ring) : Ring := { r with st := .running, stopReq := false, resumePend := false, echoResume := r.takenResume }

/-- The STATE that a partition's rings show (5 resetting, 7 scrub). -/
def showRings (s : State) (p : Nat) (st : RState) : State :=
  each ((ringsOf p).filter fun n => (s.ring n).enabled) s fun s n => s.updRing n fun r => { r with st := st }

end Sys2Proof.Machine
end

