-- ==== Sys2Proof/Machine/Tree.lean ====
section
/-! DEFINITION. The reduction tree (12_reduction_and_peer_links R268) and the redo of a bucket (R273, R419). -/

namespace Sys2Proof.Machine

/-! ### The tree -/

/-- ceil(log2 n) for n from 2 up. -/
def levelOf (n : Nat) : Nat := Nat.log2 (n - 1) + 1

/-- Where a position stands: the right children of the nodes it hosts, as (level, position) from the leaf up; and the host it
sends to, with the level of that hop. -/
structure TreePlace where
  kids : List (Nat × Nat) := []
  up : Option (Nat × Nat) := none
deriving DecidableEq, Repr

def treeLoop : Nat → Nat → Nat → Nat → TreePlace → TreePlace
  | 0, _, _, _, t => t
  | k + 1, lo, hi, i, t =>
    if hi - lo ≤ 1 then t
    else
      let l := levelOf (hi - lo)
      let m := lo + 2 ^ (l - 1)
      if i < m then treeLoop k lo m i { t with kids := if i = lo then (l, m) :: t.kids else t.kids }
      else treeLoop k m hi i (if i = m then { up := some (l, lo) } else t)

/-- The place of position `i` among `n`. -/
def treePlace (n i : Nat) : TreePlace := treeLoop 16 0 n i {}

/-! ### A REDUCE's block (R265) -/

def Bucket.tag (b : Bucket) : U32 := bits b.blk 400 32
def Bucket.chan (b : Bucket) : Nat := field b.blk 13 3
def Bucket.ownerOnly (b : Bucket) : Bool := flag b.blk 12
def Bucket.owner (b : Bucket) : Nat := field b.blk 386 14
def Bucket.place (b : Bucket) : TreePlace := treePlace b.group.length b.pos
def Bucket.key (b : Bucket) (i : Nat) : Nat := nth b.group i
/-- Is a result due here? -/
def Bucket.resultDue (b : Bucket) : Bool := !b.ownerOnly || b.owner == b.pos
/-- Is the segment reduced on both paths: sampled (R271), or in a redo (R273)? -/
def Bucket.sampled (b : Bucket) (d seg : Nat) : Bool := (b.base + seg) % max 1 d == 0
def Bucket.both (b : Bucket) (d seg : Nat) : Bool := b.sampled d seg || 0 < b.redo

/-- The bucket of a REDUCE that the channel is at: the earliest dispatched of the partition not complete (R267). -/
def State.reduces (s : State) (p : Nat) : List (Nat × Op × Bucket) :=
  ((ringsOf p).map fun n => (s.ring n).ops.filterMap fun o =>
    if o.finished || o.work then none else o.bucket.map fun b => (n, o, b)).flatten

/-- A stopped REDUCE keeps its place on the channel: none issued after it goes on (R72). -/
def State.stoppedBefore (s : State) (p chan order : Nat) : Bool :=
  (ringsOf p).any fun n => (s.ring n).stoppedOps.any fun o =>
    o.order < order && (match o.bucket with | some b => b.chan == chan | none => false)

def State.currentBucket (s : State) (p chan : Nat) : Option (Nat × Op × Bucket) :=
  let first := ((s.reduces p).filter fun e => e.2.2.chan == chan).foldl (fun (b : Option (Nat × Op × Bucket)) e =>
    match b with
    | some x => if e.2.1.order < x.2.1.order then some e else b
    | none => some e) none
  first.filter fun e => !s.stoppedBefore p chan e.2.1.order

def State.updBucket (s : State) (n seq : Nat) (f : Bucket → Bucket) : State := s.updOp n seq fun o => { o with bucket := o.bucket.map f }

/-! ### Redo (R273) -/

/-- Hops up the tree that frames come from, on both paths. -/
def Bucket.hops (b : Bucket) : List Nat := (b.place.kids.map fun e => [e.1, 16 + e.1]).flatten

/-- A bucket starts again at segment 0, on both paths. -/
def Bucket.again (b : Bucket) (seg : Nat) : Bucket :=
  { b with bad := seg, recv := [], sums := [], res := [], sent := 0, done := 0, redo := b.redo + 1, vote := none, stale := b.hops }

/-- REDO to a participant, up or down a hop of a level. LEVEL is 0, but in a REDO down that asks for the values of a segment on that
hop once more (DESIGN CHOICE, log 84). -/
def sendRedo (s : State) (p : Nat) (b : Bucket) (down : Bool) (e : Nat × Nat) (seg : Nat) (fetch : Bool := false) : State :=
  sendTo s p (s.pathPort p 0 e.1) (b.key e.2)
    { typ := 8, bucket := b.tag, chan := b.chan, seg := seg, level := if fetch then e.1 else 0, down := down } []

/-- REDO down the tree, and the bucket's own restart. -/
def redoBelow (s : State) (p n seq : Nat) (b : Bucket) (seg : Nat) : State :=
  let s := b.place.kids.foldl (fun s e => sendRedo s p b true e seg) s
  s.updBucket n seq fun b => b.again seg

/-- A redo is wanted: the root starts it, any other host asks the root up the tree. -/
def wantRedo (s : State) (p n seq : Nat) (b : Bucket) (seg : Nat) : State :=
  match b.place.up with
  | some e => sendRedo s p b false e seg
  | none => redoBelow s p n seq b seg

/-- Every bucket under way whose channel uses group `g` of a partition, before replacement, in a role. -/
def State.bucketsOf (s : State) (p g : Nat) : List (Nat × Op × Bucket) :=
  (s.reduces p).filter fun e => [0, 1, 2].any fun r => s.groupNominal e.2.2.chan r == g

end Sys2Proof.Machine
end

