-- ==== Sys2Proof/Machine/Tenancy.lean ====
section
/-! DEFINITION. Shared operations on partitions (15_tenancy_and_security, 19_reset_and_bring_up): room reset, partition
reset, scrub, slot begin and end, stop requests, sealing, formation and the shutdown. -/

namespace Sys2Proof.Machine

/-! ### Stop images (R354, R356): the spec gives the sections and their sizes, not the bytes within them -/

/-- The bytes of the sections of a stop image. -/
opaque encodeImage : PartImage → List Byte
/-- What a stop image's section bytes carry. -/
opaque decodeImage : List Byte → PartImage

/-- Snapshot of what R356 puts into partition `p`'s image. -/
def snapshot (s : State) (p : Nat) : PartImage :=
  { sched := s.sched p
    rings := (ringsOf p).map fun n => (n, s.ring n)
    epoch := (s.peer p).epoch
    rooms := ((s.roomsOf p).filter fun n => !s.outOfService 0 n).map fun n => (n, s.room n) }

/-- G of a stop image: 4 MiB, 8 MiB, 2,112 KiB a room in service, and the locked blocks (R356). -/
def imageGranules (s : State) (p : Nat) : Nat :=
  let rooms := ((s.roomsOf p).filter fun n => !s.outOfService 0 n).length
  (12 * 1048576 + rooms * 2112 * 1024 + (2 + (s.sched p).sreg.toNat * s.mode.dieShare) * 1048576) / 256

/-- The first 8 bytes of SHAKE256 of a byte string, as a number (R344, R363). -/
def finger (bs : List Byte) : U64 := wordOf 64 (shake256 bs 8)
def idfp : U64 := finger Config.identityKey
/-- TKFP (R363): 0 without K_T. -/
def tkfp (k : Keys) : U64 := match k.kT with
  | some x => finger (ascii "DCG900 TENANT FP" ++ bytesOf x)
  | none => 0
/-- SKFP (R363): 0 when no slot keys exist. -/
def skfp (k : Keys) : U64 := match k.k1, k.k2, k.kM with
  | some a, some b, some c => finger (ascii "DCG900 SLOT FP" ++ bytesOf a ++ bytesOf b ++ bytesOf c)
  | _, _, _ => 0

/-- The 32 bytes of 0x5041 and 0x5042 (R367), as laid out by the model (DESIGN CHOICE, log 21): STATE, OP, CAUSE,
granules done, failing granule, TEND. -/
def statusWord (st op : Nat) (cause : U16) (done failing : U32) (tend : U64) : BitVec 256 :=
  let w : BitVec 256 := 0
  let w := putField w 0 8 st
  let w := putField w 8 8 op
  let w := putBits w 16 cause
  let w := putBits w 32 done
  let w := putBits w 64 failing
  putBits w 128 tend

/-- The checkpoint keys of K_T and a CKID (R342). -/
def deriveCheckpoint (k : Keys) (ckid : U32) : Keys :=
  let o := kmac256 (keyBytes k.kT) (bytesOf ckid) 96 "DCG900 CHECKPOINT"
  { k with c1 := some (wordOf 256 (o.take 32)), c2 := some (wordOf 256 ((o.drop 32).take 32)), cM := some (wordOf 256 (o.drop 64)) }

/-- A running job or export becomes void with cause 0x1007 (R360). -/
def PartSec.voidJobs (s : State) (q : PartSec) : PartSec :=
  let q := match q.job with
    | some j => { q with job := none, jobStatus := statusWord 4 j.op.toNat 0x1007 j.done 0 s.stamp }
    | none => q
  match q.exporting with
  | some _ => { q with exporting := none, exportStatus := statusWord 4 1 0x1007 0 0 s.stamp,
                       keys := q.keys.endCheckpoint }
  | none => { q with keys := q.keys.endCheckpoint }

/-! ### Rooms (R439) -/

/-- A room reset: every register, count, tag and kernel takes its reset value and the memories are written zero; the room
issues nothing until the writes end. -/
def roomReset (s : State) (n : Nat) : State := s.updRoom n fun _ => { zeroing := true }

def resetRooms (s : State) (p : Nat) : State := each (s.roomsOf p) s roomReset
def State.roomsClear (s : State) (p : Nat) : Bool := (s.roomsOf p).all fun n => !(s.room n).zeroing

/-! ### Formation values (R432) -/

/-- Scheduling and peer state at formation; the written settings stay. -/
def PartSched.formed (q : PartSched) : PartSched := { sreg := q.sreg, sregNew := q.sregNew, defer := q.defer }
def PartPeer.formed (q : PartPeer) : PartPeer := { sampleDiv := q.sampleDiv, peerTimeout := q.peerTimeout }

/-- The scheduler state of a partition takes its values at formation. -/
def formState (s : State) (p : Nat) : State :=
  (s.updSched p fun q => q.formed).updPeer p fun q => q.formed

/-- The blocks the security controller locks at formation: 2 + S on the lowest base die, S on each other (R298). -/
def lockBlocks (s : State) (p : Nat) : State :=
  let sz := (s.sched p).sreg.toNat
  let f := fun t d => Tbl.set t d (if d = p * s.mode.dieShare then 2 + sz else sz)
  s.setMem { s.mem with locked := (s.diesOf p).foldl f s.mem.locked }

/-- A partition is formed in FREE: the solver-region size takes effect (R155, R298). -/
def formPart (s : State) (p : Nat) : State :=
  let s := s.updSched p fun q => { q with sreg := q.sregNew }
  let s := lockBlocks (formState s p) p
  let s := resetRings s p
  s.updPs p fun q => { q with st := .free, sealedSlot := false, slotId := 0, tslot := 0, stopReq := none, stopped := false,
                              scrub := none, tenantCtr := 0, holdResume := false }

/-- The partition's on-chip state is cleared: lines invalidated, rooms reset, scheduler state at its formation values
(R361 step 3, R432). -/
def clearOnChip (s : State) (p : Nat) : State :=
  formState (resetRooms (discardWhere s (s.inPart p)) p) p

/-! ### ABORT of what the partition has in flight on the fabric (R286, R438): written with the fabric -/

/-- REDUCE and EXCHANGE of a partition send ABORT; the fabric's operation, kept here so that a reset can call it. -/
def abortPart (s : State) (p : Nat) : State :=
  each (ringsOf p) s fun s n => ((s.ring n).ops.filter fun o => !o.finished).foldl (fun s o => abortOp s p o 0x0E05) s

/-! ### The scrub (R361) -/

/-- Step 3, once no stop-image export is under way. -/
def scrubClear (s : State) (p : Nat) : State :=
  let q := s.ps p
  match q.scrub with
  | some c =>
    if q.exporting.isSome || c.cleared then s
    else (clearOnChip s p).updPs p fun q => { q with scrub := some { c with cleared := true } }
  | none => s

/-- Steps 2 and 3 of a scrub: zero-fill under fresh keys, whose result carries no information; then the on-chip clear (DEDUCED, log 27). -/
def scrubSteps (s : State) (p : Nat) (st : SecState) : State :=
  let (a, s) := freshKey s
  let (b, s) := freshKey s
  let (k, s) := s.takeFree
  let s := refill s p (k + 1)
  let s := s.updPs p fun q => { q with st := st, scrub := some { zeroFilled := true },
                                       keys := { q.keys with s1 := some a, s2 := some b } }
  let s := showRings s p .scrub
  scrubClear s p

/-- Step 1 and the steps after it: the slot's keys are destroyed, buffer entries discarded. -/
def startScrub (s : State) (p : Nat) (st : SecState) : State :=
  let s := s.updPs p fun q => { q with keys := q.keys.endSlot, stopReq := none, stopped := false, sealedSlot := false,
                                       slotId := 0, tslot := 0 }
  let s := logEvent s 0x1101 { sev := 3, part := some p }
  let s := s.setMem { s.mem with wcb := s.mem.wcb.filter fun x => !s.inPart p x.granule }
  let s := abandonRings (abortPart s p) p
  scrubSteps s p st

/-- Step 4: the scrub keys are destroyed and the partition becomes FREE (R361). -/
def endScrub (s : State) (p : Nat) : State :=
  let s := s.updPs p fun q => { q with st := .free, scrub := none, slotId := 0, tslot := 0, keys := q.keys.endScrub,
                                       tenantCtr := 0, holdResume := false }
  each ((ringsOf p).filter fun n => (s.ring n).enabled) s fun s n => s.updRing n fun r => { r.cleared with st := .idle }

/-! ### Partition reset (R438) -/

def partReset (s : State) (p : Nat) : State :=
  let was := s.pst p
  let s := s.updPs p fun q =>
    let q := PartSec.voidJobs s { q with jobStatus := 0, exportStatus := 0 }
    { q with st := .resetting, keys := q.keys.endSlot, ckid := 0, ckAddr := 0, stopReq := none, stopped := false,
             holdResume := false }
  let s := s.updPeer p fun q => { q with shardFault := 0 }
  let s := resetRooms (abortPart s p) p
  let s := abandonRings s p
  if was.tenanted then startScrub s p .resetting
  else
    let s := showRings s p .resetting
    let s := formState (flushPart s p) p
    s.updPs p fun q => { q with sealedSlot := false }

/-! ### Stop requests (R49, R70) -/

/-- A stop request reaches a ring's stream. -/
def stopRing (s : State) (n : Nat) : State :=
  s.updRing n fun r =>
    if r.enabled && (r.st == .idle || r.st == .running) then { r with st := .stopping, stopReq := true } else r

/-- A stop request to every stream of a partition, remembered with what is to be sealed once it has stopped. -/
def stopPart (s : State) (p : Nat) (st : SecState) (rq : StopReq) : State :=
  let s := s.updPs p fun q => { q with st := st, stopReq := some rq, stopped := false }
  each (ringsOf p) s stopRing

/-- Has every stream of the partition stopped (R72)? -/
def State.streamsStopped (s : State) (p : Nat) : Bool :=
  (ringsOf p).all fun n =>
    let r := s.ring n
    !r.enabled || r.st == .stopped || r.st == .disabled || (r.st == .halted && r.ops.isEmpty)

/-- Sealing of a stop image (R357): buffers drained, state frozen, TSEAL recorded, checkpoint keys derived, export
begun. -/
def sealImage (s : State) (p : Nat) (rq : StopReq) : State :=
  let s := drainPart s p
  let q := s.ps p
  let s := { s with frozen := Tbl.set s.frozen p (snapshot s p) }
  let g := BitVec.ofNat 32 (imageGranules s p)
  s.updPs p fun q' => { q' with
    keys := deriveCheckpoint q'.keys rq.ckid
    exporting := some { ckid := rq.ckid, reason := rq.reason, tseal := s.stamp, tq := s.tq, addr := q.ckAddr, slotId := q.slotId, tslot := q.tslot, tkfp := tkfp q.keys, granules := g }
    exportStatus := statusWord 1 1 0 0 0 0
    holdResume := true }

/-- Once every stream has stopped, the partition has stopped, and a stop image that is due is sealed (R49, R357). -/
def settleStop (s : State) (p : Nat) : State :=
  match (s.ps p).stopReq with
  | some rq =>
    if !(s.ps p).stopped && s.streamsStopped p then
      let s := each (ringsOf p) s closeStep
      let s := s.updPs p fun q => { q with stopped := true, stopReq := if q.st == .stopping then q.stopReq else none }
      if rq.reason != 0 && (s.ps p).exporting.isNone then sealImage s p rq else s
    else s
  | none => s

/-! ### Slots (R48, R49, R348) -/

/-- Where a slot-stop's PART reaches partition `p`. -/
def EventEntry.reaches (e : EventEntry) (p : Nat) : Bool := e.part.toNat == p || e.part == 7
def EventEntry.armed (e : EventEntry) : Bool := e.state == 1
/-- A slot-stop's guard for partition `p` in ns (R49). -/
def State.guardNs (s : State) (e : EventEntry) (p : Nat) : Nat :=
  1000000 * (if e.arg = 0 then (s.ps p).guard.toNat else e.arg.toNat)

/-- The stop request of a slot-stop in partition `p` (R49, R360). A stop image that a checkpoint-sealing event has asked for and
that waits for the streams to stop is the one that is sealed (R357). -/
def slotStopRequest (s : State) (p : Nat) : State :=
  let q := s.ps p
  match s.pst p with
  | .opened | .keywait => settleStop (stopPart s p .stopping { at_ := s.now }) p
  | .sealed =>
    let due := q.ckid != 0 && q.exporting.isNone && !q.holdResume
    let rq : StopReq := match q.stopReq with
      | some r => if r.reason != 0 then { r with at_ := s.now } else { at_ := s.now, reason := if due then 1 else 0, ckid := q.ckid }
      | none => { at_ := s.now, reason := if due then 1 else 0, ckid := q.ckid }
    settleStop (stopPart s p .stopping rq) p
  | _ => s

/-- Entries 0x5030 to 0x5042 are cleared at a slot start (R367); the request counter too (R399). -/
def PartSec.beginSlot (q : PartSec) (e : EventEntry) : PartSec :=
  { q with slotId := e.arg, tslot := e.time, ckid := 0, ckAddr := 0, job := none, jobStatus := 0, exportStatus := 0,
           exporting := none, tenantCtr := 0, failedImports := 0, stopReq := none, stopped := false, holdResume := false,
           ek := [], keys := {} }

/-- A slot begins (R348): open, or sealed with fresh slot keys, zeroed tags and an import key pair. -/
def beginSlot (s : State) (p : Nat) (e : EventEntry) : State :=
  let sealedMode := (s.ps p).sealMode == 1
  let s := s.updPs p fun q => { q.beginSlot e with st := if sealedMode then .keywait else .opened, sealedSlot := sealedMode }
  let s := each (ringsOf p) (resetRings s p) fun s n => s.updRing n fun r => { r with steps := 0 }
  let s := s.updPeer p fun q => { q with sampleUse := q.sampleDiv, sent := [] }
  let s := s.updSched p fun q => { q with slots := q.slots.map fun e => (e.1, { e.2 with st := 0, ver := 0, ending := false }) }
  if !sealedMode then s
  else
    let (a, s) := freshKey s
    let (b, s) := freshKey s
    let (c, s) := freshKey s
    let (k, s) := s.takeFree
    let pair := Config.kemPair k
    let s := refill s p 0
    s.updPs p fun q => { q with keys := { k1 := some a, k2 := some b, kM := some c, importKey := some pair.2 },
                                ek := padTo 1568 pair.1 }

/-- The end of a slot at T (R49, R360): a stop image still due is void and reported, a range job is void, the scrub
begins. -/
def endSlot (T : U64) (s : State) (p : Nat) : State :=
  if (s.pst p).slot then
    let q := s.ps p
    let due := match q.stopReq with | some rq => rq.reason != 0 && !q.stopped && q.exporting.isNone | none => false
    let s := if due then logEvent s 0x0904 { sev := 3, part := some p } else s
    let s := s.updPs p fun q => match q.job with
      | some j => { q with job := none, jobStatus := statusWord 4 j.op.toNat 0x1007 j.done 0 s.stamp }
      | none => q
    let s := s.updPs p fun q => { q with exporting := q.exporting.map fun e => { e with deadline := some T } }
    startScrub s p .scrub
  else s

/-! ### Mode change (R30) -/

/-- Forms the partitions of a mode at once in `absent`, to be formed once their rooms are zeroed: used by a mode change
and by bring-up. HBM contents are undefined after a mode change (R292). -/
def changeMode (s : State) (m : PMode) : State :=
  let s := each s.parts s partReset
  let (k, s) := s.takeFree
  let s := { s with mode := m, pendingMode := none }
  let s := s.setMem { s.mem with hbm := [], poison := [], lines := [], wcb := [], zeroPc := [], flaws := [], tagFlaws := [], written := [],
                                 back := (upTo 4).map fun q => (q, k + 1) }
  let s := each (upTo 4) s fun s p => s.updPs p fun q =>
    { q with st := if p < m.count then .resetting else .absent, scrub := none, keys := {}, exporting := none, job := none,
             sealedSlot := false }
  each s.parts s formState

/-! ### The shutdown (R382, R423) -/

/-- Every key that R342 destroys at slot end, and every checkpoint key, is destroyed, with it what the buffers hold of the partitions
whose slot keys those are (R299); every partition enters RESETTING
with no scrub; the clocks are gated and the voltages commanded to their minimum. -/
def shutdown (s : State) (cause : U16) (ctl : Bool) : State :=
  let s := s.setMem { s.mem with wcb := s.mem.wcb.filter fun x => (s.seal x.granule).isNone }
  let s := each s.parts s fun s p => s.updPs p fun q =>
    let q := PartSec.voidJobs s q
    { q with st := .resetting, keys := q.keys.endSlot, scrub := none }
  let s := { s with boot := { s.boot with stopped := true, ctlFail := ctl }, pw := { s.pw with gated := true, vmin := true } }
  logEvent s cause { sev := 4 }

end Sys2Proof.Machine
end

