-- ==== Sys2Proof/Machine/Events.lean ====
section
/-! DEFINITION. The event table and its kinds (02_installation_time R44 to R49), and the rows that fire one entry each. -/

namespace Sys2Proof.Machine

/-! ### Entries -/

/-- The 128 bits of an entry (R44). -/
def EventEntry.word (e : EventEntry) : BitVec 128 :=
  let w : BitVec 128 := 0
  let w := putBits w 96 e.arg
  let w := putBits w 88 e.kind
  let w := putBits w 85 e.state
  let w := putBits w 82 e.part
  putBits w 0 e.time

/-- The last slot-stop for `p`: armed or fired, the greatest TIME not after `t` (R48) (DEDUCED, log 24). -/
def State.lastStop (s : State) (p : Nat) (t : Nat) : Option Nat :=
  ((s.events.map (·.2)).filter EventEntry.armed ++ s.firedStops).foldl (fun (b : Option Nat) (e : EventEntry) =>
    if e.kind == 1 && e.reaches p && decide (e.time.toNat ≤ t)
    then (match b with | some x => some (max x e.time.toNat) | none => some e.time.toNat) else b) none

/-- Is a slot-stop for `p` with a later TIME armed (R48)? -/
def State.laterStop (s : State) (p : Nat) (t : Nat) : Bool :=
  s.events.any fun e => e.2.kind == 1 && e.2.armed && e.2.reaches p && t < e.2.time.toNat

/-- The check of a write of `val` (R46, R48): the code that refuses it, or 0. `after` is the state once every write of the
dictionary cycle, this one too, has taken effect (DEDUCED, log 23); the last slot-stop of the 60 ms is looked up in it as the
later one is (DEDUCED, log 24). -/
def eventCheck (after : State) (val : BitVec 128) : Byte :=
  let kind := field val 88 8
  let part := field val 82 3
  let time := field val 0 64
  if kind = 0 then (if 4 ≤ part && part < 7 then 0x13 else 0)
  else if 7 ≤ kind || (4 ≤ part && part < 7) then 0x13
  else if (kind = 1 || kind = 3) && time % 1000000 != 0 then 0x13
  else if kind = 3 && part = 7 then 0x13
  else if kind = 3 && ((match after.lastStop part time with | some t => time < t + 60000000 | none => false)
      || !after.laterStop part time) then 0x16
  else 0

/-- An entry that a write of `val` has reached: a nonzero KIND arms it, KIND 0 cancels it if it is armed (R44). -/
def EventEntry.written (e : EventEntry) (val : BitVec 128) : EventEntry :=
  { time := bits val 0 64, kind := bits val 88 8, state := if bits val 88 8 != 0 then 1 else if e.armed then 3 else e.state,
    part := bits val 82 3, arg := bits val 96 32 }

/-- A write of all 128 bits of an entry (R44, R45): its code and effect. -/
def writeEvent (s after : State) (n : Nat) (val : BitVec 128) : State × Byte :=
  if 192 ≤ n then (s, 0x10)
  else if s.firedNow.contains n then (s, 0x14)
  else
    let bad := eventCheck (after.updEvent n fun e => e.written val) val
    if bad != 0 then (s, bad)
    else
      let s := s.updEvent n fun e => e.written val
      ({ s with stopSent := s.stopSent.filter fun x => x.1 != n },
        if field val 85 3 != 0 || field val 64 18 != 0 then 0x01 else 0x00)

/-! ### Firing (R45) -/

/-- The order of firing: TIME, then KIND, then entry number. -/
def firesBefore (a : Nat × EventEntry) (b : Nat × EventEntry) : Bool :=
  let ta := a.2.time.toNat; let tb := b.2.time.toNat
  let ka := a.2.kind.toNat; let kb := b.2.kind.toNat
  ta < tb || (ta = tb && (ka < kb || (ka = kb && a.1 < b.1)))

/-- A solver deadline whose call is stopped or stopping stays armed (R192). -/
def State.deadlineHeld (s : State) (n : Nat) : Bool :=
  let own := fun (o : Op) => match o.solve with | some c => c.entry == some n | none => false
  s.rings.any fun r => r.2.stoppedOps.any own || (r.2.stopReq && r.2.ops.any own)

/-- The counter runs and has reached an armed entry's TIME. -/
def State.reached (s : State) (n : Nat) (e : EventEntry) : Bool :=
  s.time.mode.running && e.armed && e.time.toNat ≤ s.time.counter.toNat && !(e.kind == 8 && s.deadlineHeld n)

/-- Entry `n` of the given kind is the next to fire. -/
def State.due (s : State) (n kind : Nat) : Bool :=
  let e := s.event n
  s.ctl && !s.boot.stopped && e.kind.toNat == kind && s.reached n e &&
    s.events.all fun x => x.1 == n || !s.reached x.1 x.2 || !firesBefore x (n, e)

/-- The entry has fired (STATE 2); a write that reaches it in the same dictionary cycle is refused (R45). -/
def markFired (s : State) (n : Nat) : State :=
  let e := s.event n
  { s.updEvent n (fun e => { e with state := 2 }) with
    firedNow := n :: s.firedNow
    firedStops := if e.kind == 1 && !s.firedStops.contains e then e :: s.firedStops else s.firedStops }

/-- The entry is refused (STATE 4). -/
def markRefused (s : State) (n : Nat) : State :=
  { s.updEvent n (fun e => { e with state := 4 }) with firedNow := n :: s.firedNow }

/-- The partitions of the current mode that an entry reaches. -/
def State.reachedParts (s : State) (e : EventEntry) : List Nat := s.parts.filter e.reaches

/-! ### Slot-stop (R49) -/

/-- The stop request of a slot-stop is due in `p`: the counter has reached T − G and the request has not been made. -/
def State.stopDue (s : State) (n p : Nat) : Bool :=
  let e := s.event n
  s.ctl && !s.boot.stopped && s.time.mode.running && e.kind == 1 && e.armed && e.reaches p && s.exists_ p &&
    !s.stopSent.contains (n, p) && e.time.toNat ≤ s.time.counter.toNat + s.guardNs e p

def sendStop (s : State) (n p : Nat) : State :=
  slotStopRequest { s with stopSent := (n, p) :: s.stopSent } p

/-- SLOT_STOP (R49): at T − G every stream of the partition receives a stop request. -/
def execSlotStop (n : BitVec 8) (p : BitVec 2) (s : State) : Out :=
  act (s.stopDue n.toNat p.toNat) s fun s => sendStop s n.toNat p.toNat

/-- SLOT_END (R49): at T the slot keys are destroyed, what is not sealed is void, and the scrub begins. A stop request that has not
been made by then comes first, as the sequence of R49 has it. -/
def execSlotEnd (n : BitVec 8) (s : State) : Out :=
  act (s.due n.toNat 1) s fun s =>
    let e := s.event n.toNat
    let ps := s.reachedParts e
    let s := each ps s fun s p => if s.stopDue n.toNat p then sendStop s n.toNat p else s
    each ps (markFired s n.toNat) (endSlot e.time)

/-! ### Slot start (R48) -/

/-- May a slot begin in `p` now? -/
def State.slotMayBegin (s : State) (p : Nat) : Bool :=
  s.time.mode == .locked && s.pst p == .free && !s.tap.held && !((s.ps p).sealMode == 1 && s.sec.debug)

/-- After a slot has begun at or after T − G of a slot-stop for it, the stop request is made at once (R49). -/
def lateStops (s : State) (p : Nat) : State :=
  let s := { s with stopSent := s.stopSent.filter fun x => x.2 != p }
  each ((s.events.map (·.1)).filter fun n => s.stopDue n p) s fun s n => sendStop s n p

/-- SLOT_START (R48, R348). -/
def execSlotStart (n : BitVec 8) (s : State) : Out :=
  act (s.due n.toNat 3) s fun s =>
    let e := s.event n.toNat
    let p := e.part.toNat
    if s.slotMayBegin p then lateStops (beginSlot (markFired s n.toNat) p e) p
    else logEvent (markRefused s n.toNat) 0x0903 { sev := 3, part := some p }

/-! ### The other kinds -/

/-- Is a power cap one the device accepts (R374)? -/
def capOk (v : Nat) : Bool := 500 ≤ v && v ≤ 2000

/-- POWER_CAP_CHANGE (R374): the new cap is stored and acts from the next control period; in a dictionary cycle in which
writes of 0x3000 are taken too, the event is one more writer (R394). -/
def execPowerCapChange (n : BitVec 8) (s : State) : Out :=
  act (s.due n.toNat 2) s fun s =>
    let e := s.event n.toNat
    if capOk e.arg.toNat then
      let v := match s.capEvent with | some x => min x e.arg.toNat | none => e.arg.toNat
      { markFired s n.toNat with pw := { s.pw with cap := BitVec.ofNat 16 v }, capEvent := some v }
    else markRefused s n.toNat

/-- May a checkpoint-sealing event seal partition `p` (R357)? -/
def State.maySeal (s : State) (p : Nat) : Bool :=
  s.pst p == .sealed && (s.ps p).stopReq.isNone && (s.ps p).exporting.isNone

/-- CHECKPOINT_SEALING (R357): every stream of a SEALED partition receives a stop request, and the stop image is sealed
with the CKID of ARG once it has stopped (DEDUCED, log 20). -/
def execCheckpointSealing (n : BitVec 8) (s : State) : Out :=
  act (s.due n.toNat 4) s fun s =>
    let e := s.event n.toNat
    let ps := (s.reachedParts e).filter s.maySeal
    if ps.isEmpty then markRefused s n.toNat
    else each ps (markFired s n.toNat) fun s p =>
      settleStop (stopPart s p .sealed { at_ := s.now, reason := 2, ckid := e.arg }) p

/-- SCRUB (R362): steps 2 to 4 of a scrub in each FREE partition named, once its buffer entries have drained (R299). -/
def execScrub (n : BitVec 8) (s : State) : Out :=
  act (s.due n.toNat 5) s fun s =>
    let e := s.event n.toNat
    let ps := (s.reachedParts e).filter fun p => s.pst p == .free
    if ps.isEmpty then markRefused s n.toNat
    else each ps (markFired s n.toNat) fun s p => scrubSteps (drainPart s p) p .scrub

/-- TROUBLE_LOG_STAMP (R410): a log entry of cause 0x1105 whose ARG is the marker. -/
def execTroubleLogStamp (n : BitVec 8) (s : State) : Out :=
  act (s.due n.toNat 6) s fun s =>
    let e := s.event n.toNat
    logEvent (markFired s n.toNat) 0x1105
      { arg := e.arg, part := if e.part.toNat < 4 then some e.part.toNat else none }

/-- SCRUB_END (R361): once zero-fill and on-chip clear are done, the scrub keys are destroyed and the partition is
FREE. -/
def execScrubEnd (p : BitVec 2) (s : State) : Out :=
  act (s.ctl && !s.boot.stopped && s.exists_ p.toNat && s.roomsClear p.toNat &&
      (match (s.ps p.toNat).scrub with | some c => c.zeroFilled && c.cleared | none => false)) s
    fun s => endScrub s p.toNat

/-! ### Device-created entries (R47) -/

/-- The device-created entries of partition `p` in the current mode: 64, 32 or 16. -/
def State.deviceEntries (s : State) (p : Nat) : List Nat := countUp (192 + p * (64 / s.mode.count)) (64 / s.mode.count)

/-- A free device-created entry: one that is not armed. -/
def State.freeEntry (s : State) (p : Nat) : Option Nat := (s.deviceEntries p).find? fun n => !(s.event n).armed

/-- Arms a device-created entry. -/
def armDevice (s : State) (n : Nat) (kind : Byte) (p : Nat) (time : U64) (arg : U32) : State :=
  s.updEvent n fun _ => { time := time, kind := kind, state := 1, part := BitVec.ofNat 3 p, arg := arg }

/-- Frees a device-created entry. -/
def freeDevice (s : State) (n : Nat) : State := s.updEvent n fun _ => {}

end Sys2Proof.Machine
end

