-- ==== Sys2Proof/Machine/Service.lean ====
section
/-! DEFINITION. Unit service and the errors of wider scope (18_errors_and_recovery R413 to R423). A unit is numbered
512 × class + number. -/

namespace Sys2Proof.Machine

/-- Units of each class (R419). -/
def classSize : Nat → Nat
  | 0 => 128 | 1 => 16 | 2 => 384 | 3 => 64 | 4 => 16 | _ => 0

/-- Fused off (R421)? Pseudo-channels and adder groups always exist. -/
def State.fusedOff (s : State) (cls num : Nat) : Bool :=
  match cls with
  | 0 => !s.ident.roomsPresent.getLsbD num
  | 1 => !s.ident.unitsPresent.getLsbD num
  | 3 => !s.ident.portsPresent.getLsbD (num / 4)
  | _ => false

/-- The die pair a unit sits on. -/
def unitDie (cls num : Nat) : Nat :=
  match cls with
  | 0 => num / 32 | 1 => num / 4 | 2 => num / 32 / 3 | 3 => num / 4 / 4 | _ => num / 4

/-- The UNIT field of a log entry about a unit (R406): room, solver unit, stack, port or base die. -/
def unitField (cls num : Nat) : Byte :=
  BitVec.ofNat 8 (match cls with | 2 => num / 32 | 3 => num / 4 | 4 => num / 4 | _ => num)

def State.inQuarantine (s : State) (cls num : Nat) : Bool := s.svc.quar.contains (unitId cls num)

/-! ### A port changes width (R285) -/

/-- The width that a set of healthy lanes gives. -/
def widthOf (lanes : BitVec 4) : BitVec 3 :=
  match ((upTo 4).filter fun i => lanes.getLsbD i).length with
  | 4 => 4 | 3 => 2 | 2 => 2 | 1 => 1 | _ => 0

/-- The port that takes over the traffic of a port that is down: the next in service of its path for RDATA, of the partition for
other frames (R269, R285). -/
def State.takesOver (s : State) (j : Nat) (f : PeerFrame) : Option Nat :=
  let l := (s.portsOf (s.ownerOfPort j)).filter fun k => fType f != 1 || k % 2 == j % 2
  (l.drop (posIn l j + 1) ++ l.take (posIn l j)).find? s.portAlive
where
  posIn (l : List Nat) (j : Nat) : Nat := (l.findIdx? (· == j)).getD 0

/-- The frames of a port that is down, unacknowledged ones first, move to the ports that take over; those without one stay, and
LINK frames go (R285). -/
def moveTraffic (s : State) (j : Nat) : State :=
  let q := s.port j
  let l := ((q.replay.map (·.2)) ++ q.queue).filter fun f => fType f != 9
  let s' := s.updPort j fun q => { q with replay := [], replayed := [], queue := l.filter fun f => (s.takesOver j f).isNone }
  l.foldl (fun t f => match s.takesOver j f with | some k => queueFrame t k f | none => t) s'

/-- The port takes the width its healthy lanes give, holds new frames, retrains, and replays from the oldest
unacknowledged frame; no lane left takes it down, and its traffic moves. Width changes are counted in 0x9005. -/
def setLanes (s : State) (j : Nat) (lanes : BitVec 4) : State :=
  let w := widthOf lanes
  let s := s.updPort j fun q =>
    { q with lanes := lanes, width := w, hold := w != 0, rate := if w = 0 then 0 else q.rate,
             state := if w = 0 then 0 else if q.state = 0 then 0 else 2,
             counters := if w = q.width then q.counters else Tbl.set q.counters 4 (satInc (Tbl.get 0 q.counters 4)) }
  if w = 0 then moveTraffic s j else s

/-! ### What ends or moves on a room, solver unit or adder group: written with the schedulers -/

/-- The rooms a solver call borrows (R179, R185). -/
def SolveOp.borrowed (c : SolveOp) : List Nat := countUp (field c.call 26 7) (field c.call 22 4)
def SolveOp.borrows (c : SolveOp) (n : Nat) : Bool := c.borrowed.contains n

/-- The running share of a room taken out is abandoned; a call that borrows it factors again on the rooms left (R419 class 0). -/
def roomTaken (s : State) (n : Nat) : State :=
  let p := s.ownerOfRoom n
  let s := s.updSched p fun q => { q with programs := q.programs.map fun e =>
    (e.1, if e.2.rooms.getLsbD n then { e.2 with lost := putField e.2.lost n 1 1 } else e.2) }
  let s := match (s.room n).run with
    | some (k, q) => faultOp s k q { cause := 0x0803, seq := q, room := some n }
    | none => s
  each (ringsOf p) s fun s k => ((s.ring k).ops.filter fun o => !o.finished).foldl (fun s o => match o.solve with
    | some c =>
      if !c.borrows n then s
      else if c.needRooms && c.borrowed.all fun m => s.svc.out.contains m then faultOp s k o.orig { cause := 0x0803, seq := o.seq, room := some n }
      else s.updOp k o.orig fun o => { o with solve := o.solve.map fun c =>
        { c with probs := c.probs.map fun e => (e.1, if e.2.stage == .factor || e.2.stage == .adjFactor then { e.2 with interval := 0 } else e.2) } }
    | none => s) s

/-- Problems on a solver unit taken out start again on the lowest free unit; with no unit left in the partition their calls halt
(R419 class 1). -/
def solverTaken (s : State) (u : Nat) : State :=
  let p := s.ownerOfDie (u / 4)
  let left := (countUp (4 * p * s.mode.dieShare) (4 * s.mode.dieShare)).any fun v =>
    s.ident.unitsPresent.getLsbD v && !s.svc.out.contains (512 + v)
  each (ringsOf p) s fun s k => ((s.ring k).ops.filter fun o => !o.finished).foldl (fun s o => match o.solve with
    | some c =>
      let here := fun (q : Problem) => q.on && q.unit == u
      if !c.probs.any (fun e => here e.2) then s
      else if !left then faultOp s k o.orig { cause := 0x0803, seq := o.seq }
      else s.updOp k o.orig fun o => { o with solve := o.solve.map fun c =>
        { c with probs := c.probs.map fun e => (e.1, if here e.2 then { e.2 with on := false, again := true } else e.2) } }
    | none => s) s

/-- Everything a pseudo-channel's lines and buffer entries held is discarded unwritten (R419 class 2). -/
def pcTaken (s : State) (n : Nat) : State :=
  discardWhere s fun g => let q := s.place g; 32 * q.stack + q.pc == n

/-- Buckets under way that use the group in a role are redone (R419 class 4); `before` is the state while it served. -/
def adderTaken (before s : State) (u : Nat) : State :=
  let p := s.ownerOfDie (u / 4)
  let g := u % s.groupCount
  ((s.reduces p).filter fun e => e.2.2.active && [0, 1, 2].any fun r => before.groupOf p e.2.2.chan r == g).foldl (fun s e =>
    wantRedo s p e.1 e.2.1.orig e.2.2 0) s

/-- Ends or moves the traffic on a unit (R419). -/
def endTraffic (before s : State) (cls num : Nat) : State :=
  match cls with
  | 0 => roomTaken s num
  | 1 => solverTaken s num
  | 2 => pcTaken s num
  | 3 => setLanes s (num / 4) ((s.port (num / 4)).lanes &&& ~~~((1 : BitVec 4) <<< (num % 4)))
  | _ => adderTaken before s num

/-- Takes a unit out of service and starts its quarantine; a unit already in quarantine starts it again (R419, R421). -/
def takeOut (s : State) (cls num : Nat) : State :=
  let u := unitId cls num
  if s.inQuarantine cls num then { s with svc := { s.svc with passed := s.svc.passed.filter (· != u) } }
  else if s.outOfService cls num then s
  else
    let before := s
    let s := { s with svc := { s.svc with out := insertNat u s.svc.out, quar := insertNat u s.svc.quar,
                                          passed := s.svc.passed.filter (· != u) } }
    let s := endTraffic before s cls num
    logEvent s 0x0804 { sev := 3, unit := unitField cls num, part := some (s.ownerOfDie (unitDie cls num)) }

/-! ### Windows of events (R413, R414, R419) -/

def windowNs : Nat := 60000000000

/-- Events of one unit in the last 60 s. -/
def State.inWindow (s : State) (l : List (Nat × Nat)) (u : Nat) : Nat :=
  (l.filter fun e => e.1 == u && s.now < e.2 + windowNs).length

/-- A correctable event of a unit: at most one log entry a second, with the number of events since the last (R413);
at the class's threshold the unit is taken out (R414). -/
def noteCorrected (s : State) (cls num : Nat) (cause : U16) : State :=
  let u := unitId cls num
  let (t, c) := Tbl.get (0, 0) s.svc.lastLogged u
  let first := !Tbl.has s.svc.lastLogged u
  let log := first || s.since t 1000000000
  let entry := if log then (s.now, 0) else (t, c + 1)
  let keep := s.svc.corrected.filter fun e => s.now < e.2 + windowNs
  let s' := { s with svc := { s.svc with lastLogged := Tbl.set s.svc.lastLogged u entry, corrected := keep ++ [(u, s.now)] } }
  let s' := if log then logEvent s' cause { sev := 1, unit := unitField cls num, detail := BitVec.ofNat 64 (c + 1),
                                            part := some (s.ownerOfDie (unitDie cls num)) } else s'
  let thr := (Tbl.get 0 s'.svc.thresholds cls).toNat
  if cls != 3 && thr != 0 && thr ≤ s'.inWindow s'.svc.corrected u && !s'.outOfService cls num then
    takeOut (logEvent s' 0x0808 { sev := 1, unit := unitField cls num }) cls num
  else s'

/-- An uncorrectable event in a unit's memory: the third within 60 s takes the unit out (R419). -/
def noteUncorrectable (s : State) (cls num : Nat) : State :=
  let u := unitId cls num
  let keep := s.svc.uncorrectable.filter fun e => s.now < e.2 + windowNs
  let s' : State := { s with svc := { s.svc with uncorrectable := keep ++ [(u, s.now)] } }
  if 3 ≤ s'.inWindow s'.svc.uncorrectable u then takeOut s' cls num else s'

/-! ### What the check codes have found (R310, R312) -/

/-- Counts events of the beats of granule `g` in 0x9020, or of its atrium words in 0x9021 (R315). -/
def countBeat (s : State) (g k : Nat) : State :=
  let i := 4 * (s.place g).stack + k
  s.setMem { s.mem with stackCounters := Tbl.set s.mem.stackCounters i (satInc (Tbl.get 0 s.mem.stackCounters i)) }
def countLine (s : State) (g k : Nat) : State :=
  let i := 4 * (s.place g).die + k
  s.setMem { s.mem with atriumCounters := Tbl.set s.mem.atriumCounters i (satInc (Tbl.get 0 s.mem.atriumCounters i)) }

/-- An uncorrectable event or a tag mismatch of granule `g` is reported in the event ring and the trouble log (R312). -/
def reportGranule (s : State) (g kind : Nat) (cause : U16) : State :=
  let q := s.place g
  let p := s.ownerOfAddr (256 * g)
  logEvent (memEvent s { granule := g / 256, unit := q.stack, pc := q.pc, kind := kind, part := p }) cause
    { sev := 2, unit := BitVec.ofNat 8 q.stack, part := p }

/-- A word of on-chip memory that cannot be corrected is reported (R312). -/
def reportWord (s : State) (g unit uclass : Nat) (logUnit : Byte) (p : Option Nat) : State :=
  logEvent (memEvent s { granule := g / 256, unit := unit, uclass := uclass, kind := 2, part := p }) 0x0702
    { sev := 2, unit := logUnit, part := p }

/-- One thing found is counted and reported, and counts against its unit: the pseudo-channel of a beat, the adder group of an atrium
bank (R310, R312, R413, R419). -/
def reportFound (s : State) (f : Found) : State :=
  match f with
  | .stack g fixed bad mismatch =>
    let q := s.place g
    let pc := 32 * q.stack + q.pc
    let s := loop fixed s fun s _ => noteCorrected (countBeat s g 0) 2 pc 0x0705
    let s := if bad = 0 then s else noteUncorrectable (reportGranule (loop bad s fun s _ => countBeat s g 1) g 1 0x0702) 2 pc
    if mismatch then reportGranule s g 3 0x0703 else s
  | .line g fixed bad =>
    let q := s.place g
    let grp := 4 * q.die + q.bank / 16
    let s := loop fixed s fun s _ => noteCorrected (countLine s g 0) 4 grp 0x0705
    loop bad s fun s _ => noteUncorrectable
      (reportWord (countLine s g 1) g (64 * q.die + q.bank) 2 (BitVec.ofNat 8 q.die) (s.ownerOfAddr (256 * g))) 4 grp
  | .buffer g _ bad =>
    let st := (s.place g).stack
    loop bad s fun s _ => reportWord s g st 3 (BitVec.ofNat 8 st) (s.ownerOfAddr (256 * g))
  | .other bad => if bad then reportWord s 0 0xFF 4 0xFF none else s
  | .onDie g => countBeat s g 2

/-- What was found since the last tick is reported: within 1 µs (R312) (DESIGN CHOICE, log 101). -/
def settleFound (s : State) : State :=
  if s.mem.found.isEmpty then s
  else s.mem.found.foldl reportFound (s.setMem { s.mem with found := [] })

/-! ### Service commands (R421, R427) -/

/-- A write of 0x8090: the code it receives, and its effect. -/
def serviceCommand (s : State) (action cls num : Nat) : State × Byte :=
  if 5 ≤ cls || (action != 1 && action != 2) || classSize cls ≤ num then (s, 0x13)
  else if s.fusedOff cls num then (s, 0x16)
  else if action = 1 then
    if s.outOfService cls num then (s, 0x16) else (takeOut s cls num, 0x00)
  else if !s.outOfService cls num || s.inQuarantine cls num || s.svc.passed.contains (unitId cls num) then (s, 0x16)
  else ({ s with svc := { s.svc with quar := insertNat (unitId cls num) s.svc.quar } }, 0x00)

/-- QUARANTINE_END (R420): the unit passes, or stays out of service with 0x0806. -/
def execQuarantineEnd (cls : BitVec 3) (num : BitVec 9) (pass : Bool) (s : State) : Out :=
  act (s.up && s.inQuarantine cls.toNat num.toNat) s fun s =>
    let u := unitId cls.toNat num.toNat
    let s := { s with svc := { s.svc with quar := s.svc.quar.filter (· != u) } }
    if pass then { s with svc := { s.svc with passed := insertNat u s.svc.passed } }
    else logEvent s 0x0806 { sev := 1, unit := unitField cls.toNat num.toNat,
                             part := some (s.ownerOfDie (unitDie cls.toNat num.toNat)) }

/-- No LOADP of the partition is translating (R420): written with the loader. -/
def State.noTranslation (s : State) (p : Nat) : Bool := (s.sched p).programs.all fun e => e.2.ready
/-- No bucket holds an adder group in a role through its replacement (R420). -/
def State.adderIdle (s : State) (u : Nat) : Bool := (s.bucketsOf (s.ownerOfDie (u / 4)) (u % s.groupCount)).isEmpty

/-- An idle interval of a port: 10 µs with no frame queued and its replay buffer empty (R285). -/
def State.portIdle (s : State) (j : Nat) : Bool :=
  let q := s.port j
  q.queue.isEmpty && q.replay.isEmpty && s.since q.idleSince 10000

/-- The class condition of readmission (R420). -/
def State.mayReadmit (s : State) (cls num : Nat) : Bool :=
  match cls with
  | 0 => s.noTranslation (s.ownerOfRoom num)
  | 3 => s.portIdle (num / 4)
  | 4 => s.adderIdle num
  | _ => true

/-- What readmission of a unit leaves: a room's memories and a pseudo-channel's granules are zero; a lane serves its port
again from PORT_WIDEN on (R420). -/
def readmitUnit (s : State) (cls num : Nat) : State :=
  match cls with
  | 0 => s.updRoom num fun _ => {}
  | 2 =>
    let on := fun a => chanOf s.mode a == num
    let s' := s.setMem { s.mem with hbm := s.mem.hbm.filter (fun c => !on c.1), poison := s.mem.poison.filter (fun x => !on (64 * x)),
                                    flaws := s.mem.flaws.filter (fun x => !on (32 * x.1)), tagFlaws := s.mem.tagFlaws.filter (fun x => !on (256 * x.1)),
                                    written := s.mem.written.filter (fun g => !on (256 * g)),
                                    zeroPc := (s.mode, num, s.free) :: s.mem.zeroPc }
    { s' with free := s.free + 1 }
  | _ => s

/-- READMISSION (R420): a unit that passed is readmitted once its class condition holds, and 0x0805 is logged. -/
def execReadmission (cls : BitVec 3) (num : BitVec 9) (s : State) : Out :=
  act (s.up && s.svc.passed.contains (unitId cls.toNat num.toNat) && s.mayReadmit cls.toNat num.toNat) s fun s =>
    let u := unitId cls.toNat num.toNat
    let s := { s with svc := { s.svc with passed := s.svc.passed.filter (· != u), out := s.svc.out.filter (· != u) } }
    let s := readmitUnit s cls.toNat num.toNat
    logEvent s 0x0805 { sev := 0, unit := unitField cls.toNat num.toNat,
                        part := some (s.ownerOfDie (unitDie cls.toNat num.toNat)) }

/-- STOP_OVERRUN (R422): a stop request that has not stopped its partition after 1 ms. -/
def execStopOverrun (p : BitVec 2) (s : State) : Out :=
  let q := s.ps p.toNat
  act (s.up && s.exists_ p.toNat && !q.stopped &&
      (match q.stopReq with | some r => s.since r.at_ 1000000 | none => false)) s fun s =>
    partReset (logEvent s 0x080A { sev := 3, part := some p.toNat }) p.toNat

/-- CONTROL_MEMORY_ERROR (R423): a device failure. -/
def execControlMemoryError (s : State) : Out :=
  act (s.ctl && !s.boot.stopped) s fun s => shutdown s 0x080B true

end Sys2Proof.Machine
end

