-- ==== Sys2Proof/Machine/Ports.lean ====
section
/-! DEFINITION. The link layer of the peer ports (12_reduction_and_peer_links R279 to R287): frames, credits,
acknowledgement, replay and width; and the port arbiter of 13_memory_system R303 to R306. -/

namespace Sys2Proof.Machine

/-! ### The CRC (R282) -/

/-- The CRC of a frame: header, payload and trailer bits 95:0 (R282). -/
def frameCrc (f : PeerFrame) : U32 := crc32c (bytesOf f.hdr ++ f.payload ++ bytesOf (bits f.trl 0 96))

def crcGood (f : PeerFrame) : Bool := bits f.trl 96 32 == frameCrc f && f.payload.length == 4 * field f.hdr 47 8

/-- The virtual lane of a frame (R281). -/
def frameLane (f : PeerFrame) : Nat :=
  match fType f with
  | 1 => if fPath f = 1 then 3 else 1
  | 2 | 5 => 2
  | _ => 0

/-- The channel whose buffers a frame takes: only lanes 1 and 3 have channels. -/
def laneChan (f : PeerFrame) : Nat := if frameLane f = 1 || frameLane f = 3 then fChan f else 0

/-! ### Credits (R283) -/

/-- Reserve or lane pool, and shared pool, of a lane and channel. -/
def poolOf (lane chan : Nat) : Nat := if lane = 1 then 8 + chan else if lane = 3 then 24 + chan else lane
def sharedPool (lane : Nat) : Nat := if lane = 3 then 32 else 16
def heldKey (lane chan : Nat) : Nat := if lane = 3 then 8 + chan else chan

/-- The credits granted at link-up: one per buffer. -/
def fullCredits : Tbl Nat :=
  (0, 32) :: (2, 256) :: ((countUp 8 8).map fun k => (k, 32)) ++ [(16, 768)] ++ ((countUp 24 8).map fun k => (k, 32)) ++ [(32, 768)]

def Port.credit (q : Port) (k : Nat) : Nat := Tbl.get 0 q.credits k

/-- The pool a frame may take a credit of, if it may. -/
def Port.creditFor (q : Port) (f : PeerFrame) : Option Nat :=
  let lane := frameLane f
  let c := laneChan f
  if 0 < q.credit (poolOf lane c) then some (poolOf lane c)
  else if (lane = 1 || lane = 3) && 0 < q.credit (sharedPool lane) && Tbl.get 0 q.sharedHeld (heldKey lane c) < 512 then
    some (sharedPool lane)
  else none

/-- Credits that a trailer returns. -/
def Port.returned (q : Port) (f : PeerFrame) : Port :=
  let n := tCount f
  if n = 0 then q
  else
    let lane := tVl f
    let k := if tShared f then sharedPool lane else poolOf lane (tChan f)
    let q := { q with credits := Tbl.set q.credits k (min (q.credit k + n) (Tbl.get 0 fullCredits k)) }
    if tShared f then
      { q with sharedHeld := Tbl.set q.sharedHeld (heldKey lane (tChan f)) (Tbl.get 0 q.sharedHeld (heldKey lane (tChan f)) - n) }
    else q

/-- A receive buffer is freed: a credit is owed. -/
def Port.free (q : Port) (f : PeerFrame) : Port :=
  let k := 16 * frameLane f + 2 * laneChan f + bnat (tInShared f)
  { q with owed := Tbl.set q.owed k (Tbl.get 0 q.owed k + 1) }

/-! ### Sending -/

/-- Is the link of the port up, and not retraining (R285)? -/
def State.portUp (s : State) (j : Nat) : Bool := s.up && !s.tap.held && (s.port j).state == 2 && !(s.port j).hold

def State.scrubs (s : State) (p : Nat) : Bool := (s.ps p).scrub.isSome

/-- May the port carry frames? In scrub it sends none and discards what it receives (R287). -/
def State.portOpen (s : State) (j : Nat) : Bool := s.portUp j && !s.scrubs (s.ownerOfPort j)

/-- The trailer of a frame (R282): its number, the acknowledgement, and the credits owed that head the list. -/
def Port.sealFrame (q : Port) (f : PeerFrame) (lseq : U16) (nak shared credits : Bool) : PeerFrame × Port :=
  let (k, n) := if credits then (match q.owed with | e :: _ => (e.1, min e.2 255) | [] => (0, 0)) else (0, 0)
  let w : BitVec 128 := 0
  let w := putBits w 80 lseq
  let w := putBits w 64 (q.rxSeq - 1)
  let w := putBits w 63 (bit1 nak)
  let w := putField w 60 3 (k / 2)
  let w := putField w 58 2 (k / 16)
  let w := putField w 50 8 n
  let w := putField w 49 1 k
  let w := putBits w 48 (bit1 shared)
  let f := { f with trl := w }
  let f := { f with trl := putBits w 96 (frameCrc f) }
  let left := Tbl.get 0 q.owed k - n
  (f, { q with owed := if n = 0 then q.owed else if left = 0 then Tbl.erase q.owed k else Tbl.set q.owed k left, unacked := 0 })

/-- Sends one frame that holds a credit of a pool, keeping it for replay (R284). -/
def sendNow (s : State) (j : Nat) (f : PeerFrame) (pool : Nat) : State :=
  s.updPort j fun q =>
    let shared := pool = 16 || pool = 32
    let (f, q) := q.sealFrame f q.txSeq false shared true
    let h := heldKey (frameLane f) (laneChan f)
    { q with txSeq := q.txSeq + 1, replay := q.replay ++ [(tLseq f, f)], lastAck := s.now,
             lastProgress := if q.replay.isEmpty then s.now else q.lastProgress,
             credits := Tbl.set q.credits pool (q.credit pool - 1),
             sharedHeld := if shared then Tbl.set q.sharedHeld h (Tbl.get 0 q.sharedHeld h + 1) else q.sharedHeld }

/-- A LINK frame: of its header only TYPE is used (R281). -/
def linkFrame : PeerFrame := { hdr := 9, payload := [], trl := 0 }

/-- Sends a LINK frame (R283, R284). One that returns credits is numbered and kept for replay while the replay buffer has room; one
that only acknowledges is not. Neither takes a receive buffer (DEDUCED, log 90). -/
def sendLink (s : State) (j : Nat) (nak : Bool) : State :=
  s.updPort j fun q =>
    if q.owed.isEmpty || nak || 1024 ≤ q.replay.length then
      let (f, q) := q.sealFrame linkFrame (q.txSeq - 1) nak false false
      { q with linkOut := some f, lastAck := s.now }
    else
      let (f, q) := q.sealFrame linkFrame q.txSeq false false true
      { q with linkOut := some f, lastAck := s.now, txSeq := q.txSeq + 1, replay := q.replay ++ [(tLseq f, f)],
               lastProgress := if q.replay.isEmpty then s.now else q.lastProgress }

/-- A frame that has been replayed eight times fails a lane of its port, which a free value picks (R285). -/
def failLane (s : State) (j : Nat) : State :=
  let l := (upTo 4).filter fun i => (s.port j).lanes.getLsbD i
  if (s.port j).replayed.any (fun e => 8 ≤ e.2) && !l.isEmpty then
    let (k, s) := s.takeFree
    takeOut (s.updPort j fun q => { q with replayed := [] }) 3 (4 * j + nth l (Config.replayLane k % l.length))
  else s

/-- The replay buffer is sent again from the oldest unacknowledged frame, in order: each frame keeps its number and carries
the present acknowledgement (R284, R285). -/
def replayPort (s : State) (j : Nat) : State :=
  failLane (s.updPort j fun q =>
    if q.replay.isEmpty then q
    else
      let again := q.replay.map fun e =>
        let w := putBits e.2.trl 64 (q.rxSeq - 1)
        let f : PeerFrame := { e.2 with trl := w }
        (e.1, { f with trl := putBits w 96 (frameCrc f) })
      { q with replay := again, lastProgress := s.now, lastAck := s.now, unacked := 0,
               replayed := again.foldl (fun t e => Tbl.set t e.1.toNat (Tbl.get 0 t e.1.toNat + 1)) q.replayed,
               counters := Tbl.set q.counters 3 (satInc (Tbl.get 0 q.counters 3)) }) j

/-! ### Receiving (R284) -/

def countPort (s : State) (j k : Nat) : State :=
  s.updPort j fun q => { q with counters := Tbl.set q.counters k (satInc (Tbl.get 0 q.counters k)) }

/-- Is sequence `a` at or before `b`, modulo 2^16? -/
def seqLe (a b : U16) : Bool := (b - a).toNat < 0x8000

/-- The acknowledgement of a trailer frees the replay buffer. -/
def takeAck (s : State) (j : Nat) (ack : U16) : State :=
  s.updPort j fun q =>
    let left := q.replay.filter fun e => !seqLe e.1 ack
    if left.length = q.replay.length then q
    else { q with replay := left, replayed := q.replayed.filter fun e => left.any fun x => x.1.toNat == e.1
                  lastProgress := s.now
                  idleSince := if left.isEmpty && q.queue.isEmpty then s.now else q.idleSince }

/-- A NAK with the last in-order acknowledgement, once for each gap. -/
def sendNak (s : State) (j : Nat) : State :=
  if (s.port j).nakDue then s else sendLink (s.updPort j fun q => { q with nakDue := true }) j true

/-- A frame accepted in order: its number is taken, and after 64 without an acknowledgement one is sent. -/
def acceptSeq (s : State) (j : Nat) : State :=
  let s := s.updPort j fun q => { q with rxSeq := q.rxSeq + 1, nakDue := false, unacked := q.unacked + 1, idleSince := s.now }
  if 64 ≤ (s.port j).unacked then sendLink s j false else s

/-- What the link layer does with an arriving frame: the state, and whether the frame was accepted. A frame that fails its
CRC or follows a gap is discarded with a NAK; one already accepted is discarded. -/
def linkLayer (s : State) (j : Nat) (f : PeerFrame) : State × Bool :=
  if !crcGood f then (sendNak (countPort s j 2) j, false)
  else if fType f = 9 && tCount f = 0 then
    let s := takeAck s j (tAck f)
    (if tNak f then replayPort s j else s, false)
  else
    let q := s.port j
    if tLseq f = q.rxSeq then
      let s := takeAck (acceptSeq s j) j (tAck f)
      let s := s.updPort j fun q => q.returned f
      (if tNak f then replayPort s j else s, true)
    else if seqLe q.rxSeq (tLseq f) then (sendNak s j, false)
    else (s.updPort j fun q => { q with unacked := q.unacked + 1 }, false)

/-! ### Timeouts and faults of the link layer -/

/-- REPLAY_TIMEOUT (R284): 5 µs without progress in ACK. -/
def execReplayTimeout (port : BitVec 4) (s : State) : Out :=
  let q := s.port port.toNat
  act (s.portOpen port.toNat && !q.replay.isEmpty && s.since q.lastProgress 5000) s fun s => replayPort s port.toNat

/-- ACK_TIMEOUT (R284): 500 ns since the last acknowledgement, with frames or credits to return. -/
def execAckTimeout (port : BitVec 4) (s : State) : Out :=
  let q := s.port port.toNat
  act (s.portOpen port.toNat && (0 < q.unacked || !q.owed.isEmpty) && s.since q.lastAck 500) s fun s => sendLink s port.toNat false

/-- PEER_FRAME_CRC_FAILURE (R284): the frame is discarded and counted, and NAK is sent unless the partition is in scrub. -/
def execPeerFrameCrcFailure (port : BitVec 4) (s : State) : Out :=
  let j := port.toNat
  act (s.portUp j) s fun s => if s.scrubs (s.ownerOfPort j) then countPort s j 5 else sendNak (countPort s j 2) j

/-- Lanes of a port that are present and in service. -/
def State.lanesInService (s : State) (j : Nat) : BitVec 4 :=
  loop 4 0 fun w l => if s.fusedOff 3 (4 * j + l) || s.outOfService 3 (4 * j + l) then w else putField w l 1 1

/-- LINK_UP (R279, R283, R285): a port that was down comes up with every credit at the rate both ends can run; one that
changed width goes on with its credits and replays from the oldest unacknowledged frame. Previous-generation peers run at
106.25 Gb/s. -/
def execLinkUp (port : BitVec 4) (fast prevGen : Bool) (lanes : BitVec 4) (s : State) : Out :=
  let j := port.toNat
  let ok := lanes &&& s.lanesInService j
  act (s.up && !s.tap.held && ok != 0 && ((s.port j).state != 2 || (s.port j).hold)) s fun s =>
    let was := s.port j
    if was.state = 2 then
      let s := s.updPort j fun q => { q with hold := false, width := widthOf ok, lanes := ok }
      if s.scrubs (s.ownerOfPort j) then s else replayPort s j
    else
      s.updPort j fun q =>
        { limit := q.limit, counters := q.counters, queue := q.queue, state := 2, prevGen := prevGen,
          rate := if fast && !prevGen && q.limit == 0 then 2 else 1, width := widthOf ok, lanes := ok, credits := fullCredits,
          idleSince := s.now, lastAck := s.now, lastProgress := s.now }

/-- LANE_FAILURE (R285, R419): the lane is taken out of service and the port narrows. -/
def execLaneFailure (port : BitVec 4) (lane : BitVec 2) (s : State) : Out :=
  let n := 4 * port.toNat + lane.toNat
  act (s.up && (s.port port.toNat).lanes.getLsbD lane.toNat && !s.outOfService 3 n) s fun s => takeOut s 3 n

/-- PORT_WIDEN (R285): at an idle interval the port takes every lane in service again. -/
def execPortWiden (port : BitVec 4) (s : State) : Out :=
  let j := port.toNat
  act (s.portUp j && s.portIdle j && (s.lanesInService j != (s.port j).lanes)) s fun s => setLanes s j (s.lanesInService j)

/-! ### The port arbiter (R303 to R306) -/

/-- One decision among `reqs`, ascending, of a port with `n` requesters and wait limit `w` (DEDUCED, log 91). -/
def Arb.decide (a : Arb) (n w : Nat) (reqs : List Nat) : Arb :=
  let pick := match a.forced.filter fun i => reqs.contains i with
    | i :: _ => some i
    | [] => match reqs.find? fun i => a.ptr ≤ i with
      | some i => some i
      | none => reqs.head?
  match pick with
  | none => { a with winner := none, beats := 0 }
  | some k =>
    let losers := reqs.filter fun i => i != k
    let waits := losers.foldl (fun (t : Tbl Nat) i => Tbl.set t i (Tbl.get 0 t i + 1)) (Tbl.set a.waits k 0)
    let newly := losers.filter fun i => w ≤ Tbl.get 0 waits i && !a.forced.contains i
    { winner := some k, beats := 0, ptr := (k + 1) % n, waits := waits, forced := a.forced.filter (fun i => i != k) ++ newly,
      owed := a.owed.filter (· != k) }

/-- Is the winner's turn a forced one? -/
def Arb.isForced (a : Arb) (reqs : List Nat) : Bool := a.forced.any fun i => reqs.contains i

def State.arb (s : State) (k : Nat) : Arb := Tbl.get {} s.mem.arb k
def setArb (s : State) (k : Nat) (a : Arb) : State := s.setMem { s.mem with arb := Tbl.set s.mem.arb k a }

/-- A decision at a bank port, remainders of transfers cut off being requests (R305); a forced win is counted in 0x9021. -/
def bankDecide (s : State) (n : Nat) (reqs : List Nat) : State :=
  let a := s.arb n
  let reqs := (upTo 8).filter fun i => reqs.contains i || a.owed.contains i
  let s' := setArb s n (a.decide 8 s.mem.bankW.toNat reqs)
  if a.isForced reqs then
    let i := 4 * (n / 64) + 3
    s'.setMem { s'.mem with atriumCounters := Tbl.set s'.mem.atriumCounters i (satInc (Tbl.get 0 s'.mem.atriumCounters i)) }
  else s'

/-- The requester of an egress that a frame belongs to (R306). -/
def egressReq (f : PeerFrame) : Nat :=
  match frameLane f with
  | 0 => 0
  | 1 => 1 + fChan f
  | 2 => 9
  | _ => 10 + fChan f

/-- Requester `i` has a frame ready and holds a credit for it, and the replay buffer has room (R283, R284). While the rank is
unset only LINK frames are carried, and none while the port's partition is in scrub (R287). -/
def State.egressWants (s : State) (j i : Nat) : Option (PeerFrame × Nat) :=
  let q := s.port j
  if s.rank == 0xFFFF || s.scrubs (s.ownerOfPort j) || 1024 ≤ q.replay.length then none
  else match q.queue.find? fun f => egressReq f == i with
    | some f => (q.creditFor f).map fun k => (f, k)
    | none => none

def State.egressRequests (s : State) (j : Nat) : List Nat := (upTo 18).filter fun i => (s.egressWants j i).isSome

/-- Takes the first frame of a requester out of the queue. -/
def dropFirst (i : Nat) : List PeerFrame → List PeerFrame
  | [] => []
  | f :: t => if egressReq f = i then t else f :: dropFirst i t

/-- Moves up to `n` frames of requester `i`, counting beats. -/
def moveFrames : Nat → State → Nat → Nat → State
  | 0, s, _, _ => s
  | n + 1, s, j, i =>
    match s.egressWants j i with
    | none => s
    | some (f, k) =>
      let s := s.updPort j fun q => { q with queue := dropFirst i q.queue }
      let s := sendNow s j f k
      let s := setArb s (256 + j) { s.arb (256 + j) with beats := (s.arb (256 + j)).beats + 1 }
      moveFrames n s j i

/-- A decision at an egress, and the winner's transfer up to the hold limit. -/
def egressDecide (s : State) (j : Nat) : State :=
  let s := setArb s (256 + j) ((s.arb (256 + j)).decide 18 s.mem.egressW.toNat (s.egressRequests j))
  match (s.arb (256 + j)).winner with
  | some i => moveFrames s.mem.egressH.toNat s j i
  | none => s

/-- Has the winner of an egress moved H frames with more ready (R305)? -/
def State.egressCut (s : State) (j : Nat) : Bool :=
  let a := s.arb (256 + j)
  match a.winner with
  | some i => s.mem.egressH.toNat ≤ a.beats && (s.egressWants j i).isSome
  | none => false

def reqList {n : Nat} (r : BitVec n) : List Nat := (upTo n).filter fun i => r.getLsbD i

/-- ARBITER_DECISION (R303, R304): at the last beat of a transfer, which has moved no more than H. -/
def execArbiterDecision (port : ArbPort) (s : State) : Out :=
  match port with
  | .bank n req beats => act (s.up && beats ≤ s.mem.bankH) s fun s => bankDecide s n.toNat (reqList req)
  | .egress j => act (s.portOpen j.toNat && !s.egressCut j.toNat) s fun s => egressDecide s j.toNat

/-- At most one entry with cause 0x0704 a port and millisecond (R305). -/
def logCut (s : State) (k : Nat) (unit : Byte) : State :=
  let due := match Tbl.find s.mem.lastCutLog k with | some t => s.since t 1000000 | none => true
  if due then
    let s := logEvent s 0x0704 { unit := unit }
    s.setMem { s.mem with lastCutLog := Tbl.set s.mem.lastCutLog k s.now }
  else s

/-- HOLD_CUT_OFF (R305): the winner's transfer is cut off at H beats; its remainder is a new request of the same requester
with its wait counter at zero, and the arbiter decides. -/
def execHoldCutOff (port : ArbPort) (s : State) : Out :=
  match port with
  | .bank n req beats =>
    let k := n.toNat
    act (s.up && (s.arb k).winner.isSome && beats == s.mem.bankH) s fun s =>
      let a := s.arb k
      let i := a.winner.getD 0
      let s := setArb s k { a with owed := insertNat i a.owed, waits := Tbl.set a.waits i 0 }
      let c := 4 * (k / 64) + 2
      let s := s.setMem { s.mem with atriumCounters := Tbl.set s.mem.atriumCounters c (satInc (Tbl.get 0 s.mem.atriumCounters c)) }
      bankDecide (logCut s k (BitVec.ofNat 8 (k / 64))) k (reqList req)
  | .egress j =>
    let k := 256 + j.toNat
    act (s.portOpen j.toNat && s.egressCut j.toNat) s fun s =>
      let a := s.arb k
      let i := a.winner.getD 0
      let s := setArb s k { a with waits := Tbl.set a.waits i 0 }
      egressDecide (logCut s k (BitVec.ofNat 8 j.toNat)) j.toNat

/-- WCB_TIMEOUT (R299): 2 µs without a write to an entry; it is written to its stack. `found`: errors that have struck. -/
def execWcbTimeout (stack : BitVec 4) (granule : BitVec 40) (found : List Flaw) (s : State) : Out :=
  act (s.up && (match s.mem.wcbAt granule.toNat with | some x => x.stack == stack.toNat && s.since x.last 2000 | none => false)) s fun s =>
    let s := strikeAll s found
    s.setMem (s.mem.wcbOut s.seal granule.toNat)

end Sys2Proof.Machine
end

