-- ==== Sys2Proof/Machine/Transc.lean ====
section
/-! DEFINITION. The correctly rounded functions of R138. Each is enclosed between two fixed-point numbers, the precision
rising until both ends round to one value; the rounding of that value is then the rounding of the exact one. -/

namespace Sys2Proof

/-- A fixed-point number: the integer stands for itself over 2^p. -/
abbrev Fix := Int

def fixMul (p : Nat) (a b : Fix) : Fix := a * b / 2 ^ p
def fixDiv (p : Nat) (a b : Fix) : Fix := a * 2 ^ p / b

/-- The exact value m · 2^e in fixed point, rounded down. -/
def fixOf (p : Nat) (neg : Bool) (m : Nat) (e : Int) : Fix :=
  let v : Int := if 0 ≤ e + p then (m : Int) * 2 ^ (e + p).toNat else (m : Int) / 2 ^ (-(e + p)).toNat
  if neg then -v else v

/-- Σ x^i / i!, the terms running until they vanish (fuel `n`). -/
def expSeries (p : Nat) (x : Fix) : Nat → Nat → Fix → Fix
  | 0, _, _ => 0
  | n + 1, i, t => if t = 0 then 0 else t + expSeries p x n (i + 1) (fixMul p t x / (i + 1 : Int))

/-- Σ (−1)^i x^(2i+1) / (2i+1) for arctangents of 1/k: `t` holds the power. -/
def atanInvSeries (k : Int) : Nat → Nat → Int → Int
  | 0, _, _ => 0
  | n + 1, i, t =>
    if t = 0 then 0
    else (if i % 2 = 0 then t / (2 * i + 1 : Int) else -(t / (2 * i + 1 : Int))) + atanInvSeries k n (i + 1) (t / (k * k))

/-- Σ x^(2i+1) / (2i+1). -/
def atanhSeries (p : Nat) (x2 : Fix) : Nat → Nat → Fix → Fix
  | 0, _, _ => 0
  | n + 1, i, t => if t = 0 ∨ t = -1 then 0 else t / (2 * i + 1 : Int) + atanhSeries p x2 n (i + 1) (fixMul p t x2)

/-- π in fixed point (Machin's formula). -/
def fixPi (p : Nat) : Fix :=
  let g := p + 32
  let one : Int := 2 ^ g
  4 * (4 * atanInvSeries 5 g 0 (one / 5) - atanInvSeries 239 g 0 (one / 239)) / 2 ^ 32

/-- ln 2 in fixed point, as 2 artanh(1/3). -/
def fixLn2 (p : Nat) : Fix :=
  let g := p + 32
  2 * atanhSeries g (2 ^ g / 9) g 0 (2 ^ g / 3) / 2 ^ 32

/-- An approximation: its integer mantissa, exponent and error bound in units of the mantissa. -/
structure Approx where
  m : Int
  e : Int
  err : Nat

/-- e^x for x in fixed point at precision p: the argument is reduced by multiples of ln 2. -/
def approxExp (p : Nat) (x : Fix) : Approx :=
  let l := fixLn2 p
  let k := x / l
  let r := x - k * l
  ⟨expSeries p r (2 * p) 0 (2 ^ p), k - p, 64 + 4 * p + 4 * k.natAbs⟩

/-- 2^x for x in fixed point. -/
def approxExp2 (p : Nat) (x : Fix) : Approx :=
  let k := x / 2 ^ p
  let r := fixMul p (x - k * 2 ^ p) (fixLn2 p)
  ⟨expSeries p r (2 * p) 0 (2 ^ p), k - p, 64 + 4 * p⟩

/-- ln of m · 2^e at precision p: the mantissa is brought near 1. -/
def approxLn (p : Nat) (m : Nat) (e : Int) : Approx :=
  let l := (Nat.log2 m : Int)
  let y := fixOf p false m (-l)
  let (y, k) := if 3 * 2 ^ p < 2 * y then (y / 2, e + l + 1) else (y, e + l)
  let z := fixDiv p (y - 2 ^ p) (y + 2 ^ p)
  ⟨2 * atanhSeries p (fixMul p z z) (2 * p) 0 z + k * fixLn2 p, -(p : Int), 64 + 8 * p + 4 * k.natAbs⟩

/-- Σ (−1)^i t with t the next power over factorials, two at a time: sine and cosine series. -/
def sinCosSeries (p : Nat) (x2 : Fix) : Nat → Nat → Fix → Fix
  | 0, _, _ => 0
  | n + 1, i, t =>
    if t = 0 then 0 else t - sinCosSeries p x2 n (i + 2) (fixMul p t x2 / ((i + 1) * (i + 2) : Int))

/-- sin (or cos) of m · 2^e: reduced by multiples of π/2. -/
def approxTrig (p : Nat) (cosine : Bool) (neg : Bool) (m : Nat) (e : Int) : Approx :=
  let g := p + (max 0 (e + Nat.log2 m)).toNat
  let half := fixPi g / 2
  let x := fixOf g neg m e
  let k := x / half
  let r := (x - k * half) / 2 ^ (g - p)
  let quad := (k + (if cosine then 1 else 0)) % 4
  let r2 := fixMul p r r
  let v := if quad % 2 = 0 then sinCosSeries p r2 p 1 r else sinCosSeries p r2 p 0 (2 ^ p)
  ⟨if quad < 2 then v else -v, -(p : Int), 64 + 8 * p⟩

/-- Σ (−1)^i x^(2i+1) / (i! (2i+1)): `t` holds x^(2i+1)/i!. -/
def erfSeries (p : Nat) (x2 : Fix) : Nat → Nat → Fix → Fix
  | 0, _, _ => 0
  | n + 1, i, t =>
    if t = 0 ∨ t = -1 then 0
    else t / (2 * i + 1 : Int) + erfSeries p x2 n (i + 1) (-(fixMul p t x2 / (i + 1 : Int)))

def approxErf (p : Nat) (m : Nat) (e : Int) : Approx :=
  let g := p + 160
  let x := fixOf g false m e
  let s := erfSeries g (fixMul g x x) (4 * g) 0 x
  let rootPi : Int := isqrt ((fixPi g).toNat * 2 ^ g)
  ⟨fixDiv g (2 * s) rootPi / 2 ^ 160, -(p : Int), 64⟩

/-- The rounding of an approximation when both ends of its error interval round alike. -/
def settle (f : Fmt) (a : Approx) : Option (Nat × Flags) :=
  let lo := a.m - a.err
  let hi := a.m + a.err
  if lo < 0 && 0 < hi then none
  else
    let l := roundPack f .rne (lo < 0) lo.natAbs a.e
    let h := roundPack f .rne (hi < 0) hi.natAbs a.e
    if l.1 = h.1 then some (l.1, (if l.2 = h.2 then l.2 else l.2 ||| h.2) ||| fInexact) else none

/-- Tries rising precisions; the last attempt's midpoint stands if none settles. -/
def settleAt (f : Fmt) (approx : Nat → Approx) : List Nat → Nat × Flags
  | [] => (f.qnan, 0)
  | [p] => (settle f (approx p)).getD
      (let a := approx p; let r := roundPack f .rne (a.m < 0) a.m.natAbs a.e; (r.1, r.2 ||| fInexact))
  | p :: q :: ps => match settle f (approx p) with
    | some r => r
    | none => settleAt f approx (q :: ps)

/-- Working precisions: `x` bits beyond the format, then more. -/
def precisions (f : Fmt) (extra : Nat) : List Nat :=
  let b := f.fw + 40 + extra
  [b, b + 64, b + 160, b + 400]

/-- How many leading zero bits a small argument has. -/
def smallness (m : Nat) (e : Int) : Nat := (-(e + Nat.log2 m)).toNat

/-- Results beyond the format's range, inexact. -/
def hugeResult (f : Fmt) : Nat × Flags := roundPack f .rne false 1 (2 ^ (f.ew + 2))
def tinyResult (f : Fmt) : Nat × Flags := roundPack f .rne false 1 (-(2 ^ (f.ew + 2)))

/-- EXP, or EXP2 with `base2`. -/
def fExpGen (f : Fmt) (base2 : Bool) (a : Nat) : Nat × Flags :=
  let x := decodeNum f a
  match nanResult f [x], x with
  | some r, _ => r
  | none, .inf n => if n then (f.zero false, 0) else (f.inf false, 0)
  | none, .fin n m e =>
    if m = 0 then (f.one, 0)
    else if e + Nat.log2 m > f.ew + 1 then (if n then tinyResult f else hugeResult f)
    else if base2 && (quantise .rtz n m e 0).2 = false then
      let k : Int := (quantise .rtz n m e 0).1
      roundPack f .rne false 1 (if n then -k else k)
    else settleAt f (fun p => let q := p + f.ew + 2
                              let fx := fixOf q n m e
                              let r := if base2 then approxExp2 q fx else approxExp q fx
                              ⟨r.m, r.e, r.err + 4⟩) (precisions f 0)
  | none, _ => (f.qnan, 0)

/-- LOG, or LOG2 with `base2`. -/
def fLogGen (f : Fmt) (base2 : Bool) (a : Nat) : Nat × Flags :=
  let x := decodeNum f a
  match nanResult f [x], x with
  | some r, _ => r
  | none, .inf n => if n then (f.qnan, fInvalid) else (f.inf false, 0)
  | none, .fin n m e =>
    if m = 0 then (f.inf true, fDivZero)
    else if n then (f.qnan, fInvalid)
    else
      let l := Nat.log2 m
      if m = 2 ^ l then
        let k := e + l
        if k = 0 then (f.zero false, 0)
        else if base2 then roundPack f .rne (k < 0) k.natAbs 0
        else settleAt f (fun p => ⟨k * fixLn2 p, -(p : Int), 4 * k.natAbs + 4⟩) (precisions f 0)
      else settleAt f (fun p =>
        let r := approxLn p m e
        if base2 then ⟨fixDiv p r.m (fixLn2 p), r.e, 2 * r.err + 16 + 4 * (e + l).natAbs⟩ else r) (precisions f (f.fw + 8))
  | none, _ => (f.qnan, 0)

/-- TANH as (e^2x − 1) / (e^2x + 1). -/
def fTanh (f : Fmt) (a : Nat) : Nat × Flags :=
  let x := decodeNum f a
  match nanResult f [x], x with
  | some r, _ => r
  | none, .inf n => (bnat n * f.signBit + f.one, 0)
  | none, .fin n m e =>
    if m = 0 then (f.zero n, 0)
    else if 7 ≤ e + Nat.log2 m then
      let r := roundPack f .rne n (2 ^ 200 - 1) (-200)
      (r.1, r.2)
    else
      let r := settleAt f (fun p =>
        let t := approxExp p (fixOf p false m (e + 1))
        let v : Int := if 0 ≤ t.e + p then t.m * 2 ^ (t.e + p).toNat else t.m / 2 ^ (-(t.e + p)).toNat
        ⟨fixDiv p (v - 2 ^ p) (v + 2 ^ p), -(p : Int), 16 + t.err⟩) (precisions f (smallness m e))
      (bnat n * f.signBit + r.1, r.2)
  | none, _ => (f.qnan, 0)

/-- SIGM as 1 / (1 + e^−x), formed as a ratio that keeps its relative precision on both sides. -/
def fSigm (f : Fmt) (a : Nat) : Nat × Flags :=
  let x := decodeNum f a
  match nanResult f [x], x with
  | some r, _ => r
  | none, .inf n => if n then (f.zero false, 0) else (f.one, 0)
  | none, .fin n m e =>
    if m = 0 then (roundPack f .rne false 1 (-1))
    else if e + Nat.log2 m > f.ew + 1 then
      (if n then tinyResult f else roundPack f .rne false (2 ^ 200 - 1) (-200))
    else settleAt f (fun p =>
      let q := p + f.ew + 4
      let t := approxExp q (fixOf q (!n) m e)
      -- 1 / (1 + t) with t = t.m · 2^t.e
      if 0 ≤ t.e then
        let d := 2 ^ (2 * q) + t.m * 2 ^ (t.e.toNat + 2 * q)
        let s := q + Nat.log2 d.natAbs
        ⟨2 ^ (s + 2 * q) / d, -(s : Int), 8 * t.err + 16⟩
      else
        let d := 2 ^ (-t.e).toNat + t.m
        let s := q + Nat.log2 d.natAbs
        ⟨2 ^ s / d * 1, (-t.e) - s, 8 * t.err + 16⟩) (precisions f 24)
  | none, _ => (f.qnan, 0)

/-- ERF; beyond 6 it rounds to ±1. -/
def fErf (f : Fmt) (a : Nat) : Nat × Flags :=
  let x := decodeNum f a
  match nanResult f [x], x with
  | some r, _ => r
  | none, .inf n => (bnat n * f.signBit + f.one, 0)
  | none, .fin n m e =>
    if m = 0 then (f.zero n, 0)
    else
      let r :=
        if 0 ≤ cmpNum (.fin false m e) (.fin false 6 0) then roundPack f .rne false (2 ^ 200 - 1) (-200)
        else settleAt f (fun p => approxErf p m e) (precisions f (smallness m e))
      (bnat n * f.signBit + r.1, r.2)
  | none, _ => (f.qnan, 0)

/-- SIN, or COS with `cosine`. -/
def fTrig (f : Fmt) (cosine : Bool) (a : Nat) : Nat × Flags :=
  let x := decodeNum f a
  match nanResult f [x], x with
  | some r, _ => r
  | none, .inf _ => (f.qnan, fInvalid)
  | none, .fin n m e =>
    if m = 0 then (if cosine then (f.one, 0) else (f.zero n, 0))
    else settleAt f (fun p => approxTrig p cosine n m e) (precisions f (smallness m e + f.fw))
  | none, _ => (f.qnan, 0)

def fExp (f : Fmt) (a : Nat) : Nat × Flags := fExpGen f false a
def fExp2 (f : Fmt) (a : Nat) : Nat × Flags := fExpGen f true a
def fLog (f : Fmt) (a : Nat) : Nat × Flags := fLogGen f false a
def fLog2 (f : Fmt) (a : Nat) : Nat × Flags := fLogGen f true a
def fSin (f : Fmt) (a : Nat) : Nat × Flags := fTrig f false a
def fCos (f : Fmt) (a : Nat) : Nat × Flags := fTrig f true a

end Sys2Proof
end

