-- ==== Sys2Proof/Machine/Operands.lean ====
section
/-! DEFINITION. Operands: tensor descriptors and their checks (03 R54 to R60), the elements they name, and reading and
writing elements with their scales, maxima and histograms (04 R82 to R97). -/

namespace Sys2Proof.Machine

/-! ### Fields of a descriptor (R54) -/

def dBase (d : Desc) : Nat := field d 0 48
def dFmt (d : Desc) : Nat := field d 48 4
def dRank (d : Desc) : Nat := field d 52 3
def dValid (d : Desc) : Bool := flag d 55
def dDim (d : Desc) (i : Nat) : Nat := field d (64 + 32 * i) 32
def dStride (d : Desc) (i : Nat) : Int := signed 48 (field d (256 + 48 * i) 48)
def dScaleReg (d : Desc) : Nat := field d 544 10
def dScaleEn (d : Desc) : Bool := flag d 554
def dHist (d : Desc) : Nat := field d 555 12
def dHistEn (d : Desc) : Bool := flag d 567
def dEpoch (d : Desc) : Nat := field d 576 32
def dGen (d : Desc) : Nat := field d 608 64
def dVersion (d : Desc) : Nat := field d 672 32
def dTie (d : Desc) : Nat := field d 704 16
def dAclass (d : Desc) : Nat := field d 720 4

/-- The axes a descriptor has. -/
def dAxes (d : Desc) : List Nat := upTo (min 6 (dRank d))
def dDims (d : Desc) : List Nat := (dAxes d).map (dDim d)
/-- Number of elements: one for rank 0, none when an axis is empty. -/
def dCount (d : Desc) : Nat := (dDims d).foldl (· * ·) 1
def dEmpty (d : Desc) : Bool := dCount d == 0

/-- Reserved fields of a descriptor (R54). Bits 31:7 of EXCSUM, which R57 reserves within a field of R54, are none of them: a descriptor
write may leave any value there (DESIGN CHOICE, log 115). -/
def dReservedClear (d : Desc) : Bool := field d 768 256 == 0 && field d 724 12 == 0 && field d 568 8 == 0 && field d 56 8 == 0

/-! ### Extents (R60, R83) -/

def lowSum (d : Desc) : Int := (dAxes d).foldl (fun (t : Int) i => t + min 0 (((dDim d i : Int) - 1) * dStride d i)) 0
def highSum (d : Desc) : Int := (dAxes d).foldl (fun (t : Int) i => t + max 0 (((dDim d i : Int) - 1) * dStride d i)) 0

/-- [lo, hi] of a tensor that is not empty. -/
def dExtent (d : Desc) : Int × Int :=
  let b : Int := dBase d
  if dFmt d = cQ4 then (b + 17 * (lowSum d / 32), b + 17 * (highSum d / 32 + 1) - 1)
  else
    let s : Int := fmtBytes (dFmt d)
    (b + s * lowSum d, b + s * (highSum d + 1) - 1)

/-- Are [lo, hi] within the partition's bounds? -/
def State.inBounds (s : State) (p : Nat) (lo hi : Int) : Bool := (s.pbase p : Int) ≤ lo && hi < (s.pbase p + s.psize : Int)

/-- Do [lo, hi] meet the descriptor table, or the tag region while the partition is sealed (R294)? -/
def State.meetsProtected (s : State) (p : Nat) (lo hi : Int) : Bool :=
  let from_ : Int := if s.sealed p then s.tagBase p else s.descBase p
  from_ ≤ hi && lo < (s.descBase p + 0x800000 : Int)

/-- Checks 7 and 8 of R60. -/
def State.extentStop (s : State) (p : Nat) (lo hi : Int) : Option U16 :=
  if !s.inBounds p lo hi then some 0x0A07
  else if s.meetsProtected p lo hi then some 0x0A08
  else none

/-- The check of an operand block of `n` bytes at `a` (R227). -/
def State.blockStop (s : State) (p a n : Nat) : Option U16 := s.extentStop p a ((a : Int) + n - 1)

/-- BASE alignment and the layout rules of Q4 (R56). -/
def dAligned (d : Desc) : Bool :=
  if dFmt d = cQ4 then
    dBase d % 32 == 0 && dStride d 0 == 1 && dDim d 0 % 32 == 0 && (dAxes d).all fun i => i == 0 || dStride d i % 32 == 0
  else dBase d % fmtBytes (dFmt d) == 0

/-- The ten checks of R60 in order; `dest` says that the descriptor is written through, `epochs` which layout epochs
check 10 admits. -/
def State.descStop (s : State) (p : Nat) (d : Desc) (dest : Bool) (epochs : List Nat) : Option U16 :=
  let e := dExtent d
  if !dValid d then some 0x0A01
  else if !dReservedClear d then some 0x0A02
  else if !fmtDefined (dFmt d) then some 0x0A03
  else if 6 < dRank d || !((upTo 6).all fun i => i < dRank d || (dDim d i == 0 && dStride d i == 0)) then some 0x0A04
  else if 2 < dAclass d then some 0x0A05
  else if !dAligned d then some 0x0A06
  else if !dEmpty d && !s.inBounds p e.1 e.2 then some 0x0A07
  else if !dEmpty d && s.meetsProtected p e.1 e.2 then some 0x0A08
  else if dest && (dAxes d).any fun i => dStride d i == 0 && 1 < dDim d i then some 0x0A09
  else if dEpoch d != 0 && !epochs.contains (dEpoch d) then some 0x0A0A
  else none

/-- The descriptor table (R58). -/
def State.descOf (s : State) (p h : Nat) : Desc := Tbl.get 0 (s.sched p).descs h
/-- Writes a descriptor of the table (DEDUCED, log 19). -/
def setDesc (s : State) (p h : Nat) (d : Desc) : State := s.updSched p fun q => { q with descs := Tbl.set q.descs h d }

/-- Reading descriptor `h` at dispatch: a blocked granule, a unit out of service, or a poisoned sector (R314, R417,
R419). -/
def State.descReadStop (s : State) (p h : Nat) : Option U16 :=
  let a := s.descBase p + 128 * h
  match s.accessStop a with
  | some c => some c
  | none => if s.poisonAt a 128 then some 0x0802 else none

def State.epochs (s : State) (p : Nat) : List Nat := [(s.peer p).epoch.toNat]

/-- A handle named at dispatch: the read, then the checks of R60. -/
def State.handleStop (s : State) (p h : Nat) (d : Desc) (dest : Bool) (epochs : List Nat) : Option U16 :=
  match s.descReadStop p h with
  | some c => some c
  | none => s.descStop p d dest epochs

/-! ### Elements (R56, R83) -/

/-- Indices of the element of linear number `n`, axis 0 fastest. -/
def unravel : List Nat → Nat → List Nat
  | [], _ => []
  | m :: t, n => n % m :: unravel t (n / m)

/-- The linear number of indices. -/
def ravel : List Nat → List Nat → Nat
  | m :: t, i :: u => i + m * ravel t u
  | _, _ => 0

/-- Offset in elements of an index vector. -/
def offsetOf (d : Desc) (idx : List Nat) : Int :=
  (idx.zipIdx).foldl (fun (t : Int) e => t + (e.1 : Int) * dStride d e.2) 0

/-- Offset in elements of linear element `n`. -/
def offsetAt (d : Desc) (n : Nat) : Int := offsetOf d (unravel (dDims d) n)

/-- First byte and length of what holds element offset `o`: the element, or its Q4 block. -/
def cellAt (d : Desc) (o : Int) : Nat × Nat :=
  if dFmt d = cQ4 then (((dBase d : Int) + 17 * (o / 32)).toNat, 17)
  else (((dBase d : Int) + fmtBytes (dFmt d) * o).toNat, fmtBytes (dFmt d))

/-- An element as read: its value, whether it is poisoned, and the flags of reading it (R84). -/
structure Elem where
  x : Num
  po : Bool := false
  fl : Flags := 0

/-- The bit pattern of an element that is not Q4. -/
def State.rawAt (s : State) (d : Desc) (o : Int) : Nat :=
  let c := cellAt d o
  ofLe (s.bytesAt c.1 c.2)

/-- The element at an offset. -/
def State.elemAt (s : State) (d : Desc) (o : Int) : Elem :=
  let c := cellAt d o
  let po := s.poisonAt c.1 c.2
  if dFmt d = cQ4 then
    let (xs, fl) := q4Read (s.bytesAt c.1 17)
    { x := xs.getD (o % 32).toNat (.fin false 0 0), po := po, fl := fl }
  else { x := elemNum (dFmt d) (s.rawAt d o), po := po }

def State.elem (s : State) (d : Desc) (n : Nat) : Elem := s.elemAt d (offsetAt d n)

/-- An element as it enters a room: Q4 expanded to P8 (R84). -/
def Elem.expanded (e : Elem) (d : Desc) : Elem :=
  if dFmt d = cQ4 then
    let r := elemPack cP8 .rne 0 e.x
    { e with x := elemNum cP8 r.1, fl := e.fl ||| r.2 }
  else e

/-- The first access to the given elements that is refused (R314, R419), and its cause. -/
def State.elemsStop (s : State) (d : Desc) (ns : List Nat) : Option (Nat × U16) :=
  ns.findSome? fun n => let c := cellAt d (offsetAt d n); s.rangeStop c.1 c.2

/-- Brings the granules of the given elements into the atrium (R297). -/
def touchElems (s : State) (d : Desc) (ns : List Nat) : State :=
  ns.foldl (fun s n => let c := cellAt d (offsetAt d n); touch s c.1 c.2) s

/-! ### Scales (R88, R89) -/

/-- The exponent a descriptor's values are stored at, under given register contents; integers take none (R86). -/
def scaleOf (regs : Tbl ScaleReg) (d : Desc) : Int :=
  if dScaleEn d && fmtFloat (dFmt d) then (Tbl.get {} regs (dScaleReg d)).scale.toInt else 0

/-- Does a write through `d` gather maxima (R86, R90)? -/
def gathers (d : Desc) : Bool := dScaleEn d && fmtFloat (dFmt d)

/-- The value an element represents: v × 2^(−scale) (R88) (DEDUCED, log 70). -/
def Elem.rep (e : Elem) (k : Int) : Num := scaleNum (-k) e.x

/-! ### Writing elements (R88 to R97) -/

/-- What writing gathers beside the bytes. -/
structure Sink where
  reg : ScaleReg
  hist : Hist
  fl : Flags := 0
  /-- Runs of bytes: address, bytes, poisoned. The latest run first. -/
  runs : List (Nat × List Byte × Bool) := []

/-- A run of bytes joins the latest run when it continues it (DEDUCED, log 71). -/
def Sink.put (k : Sink) (a : Nat) (bs : List Byte) (po : Bool) : Sink :=
  match k.runs with
  | (b, cs, q) :: t => if b + cs.length = a && q == po then { k with runs := (b, cs ++ bs, q) :: t }
                       else { k with runs := (a, bs, po) :: k.runs }
  | [] => { k with runs := [(a, bs, po)] }

/-- Gathers one source value at scale `src`, unless poisoned (R90). -/
def Sink.gather (k : Sink) (d : Desc) (src : Int) (x : Num) (po : Bool) : Sink :=
  if gathers d && !po then { k with reg := k.reg.gather src x } else k

/-- Counts one written value, unless poisoned (R96, R97). -/
def Sink.count (k : Sink) (d : Desc) (x : Num) (po : Bool) : Sink :=
  if dHistEn d && !po then { k with hist := k.hist.count (dFmt d) x } else k

/-- Notes the flags of one conversion; one that overflows sets OVF (R92). -/
def Sink.note (k : Sink) (d : Desc) (f : Flags) : Sink :=
  let k := { k with fl := k.fl ||| f }
  if gathers d && f &&& fOverflow != 0 then { k with reg := { k.reg with ovf := true } } else k

/-- One element through a descriptor at scale `dst`, from a source at scale `src` (R88). -/
def Sink.elem (k : Sink) (d : Desc) (dst src : Int) (rm : Rm) (o : Int) (x : Num) (po : Bool) : Sink :=
  let r := elemPack (dFmt d) rm (dst - src) x
  let c := cellAt d o
  let k := ((k.gather d src x po).note d (if po then r.2 ||| fPoison else r.2)).count d (elemNum (dFmt d) r.1) po
  k.put c.1 (leBytes c.2 r.1) po

/-- One block of 32 elements in Q4 (R85); a poisoned element poisons the block. -/
def Sink.block (k : Sink) (d : Desc) (dst src : Int) (o : Int) (xs : List (Num × Bool)) : Sink :=
  let po := xs.any (·.2)
  let k := xs.foldl (fun k x => k.gather d src x.1 x.2) k
  let (bs, fl) := q4Write (xs.map fun x => scaleNum (dst - src) x.1)
  let k := k.note d (if po then fl ||| fPoison else fl)
  let k := (q4Read bs).1.foldl (fun k x => k.count d x po) k
  k.put (cellAt d o).1 bs po

/-- Groups of 32. -/
def blocksOf32 {α : Type} : Nat → List α → List (List α)
  | 0, _ => []
  | n + 1, l => if l.isEmpty then [] else l.take 32 :: blocksOf32 n (l.drop 32)

/-- The sink of a descriptor: its register and slot as they stand. -/
def State.sink (s : State) (p : Nat) (d : Desc) : Sink :=
  { reg := { (Tbl.get {} (s.sched p).scales (dScaleReg d) : ScaleReg) with tfmt := BitVec.ofNat 4 (dFmt d) }
    hist := Tbl.get {} (s.sched p).hist (dHist d) }

/-! ### Stores of a stream (R68, Promise E) -/

/-- The stores of a macro-operation begin, and end. -/
def beginStore (s : State) (n q : Nat) : State := s.updSched (ringPart n) fun x => { x with storer := some (n, q) }
def endStore (s : State) (p : Nat) : State := s.updSched p fun x => { x with storer := none }

/-- Has a later macro-operation of the stream stored the byte? -/
def PartSched.hides (q : PartSched) (n seq a : Nat) : Bool :=
  q.hidden.any fun e => e.1 == n && e.2.1 == seq && e.2.2.1 ≤ a && a < e.2.2.1 + e.2.2.2

/-- Stores the bytes that no later macro-operation of the stream has stored. -/
def storeUnhidden (s : State) (n seq a : Nat) (bs : List Byte) (po : Bool) : State :=
  let q := s.sched (ringPart n)
  if (upTo bs.length).all fun i => !q.hides n seq (a + i) then storeBytes s a bs po
  else (bs.zipIdx).foldl (fun s e => if q.hides n seq (a + e.2) then s else storeBytes s (a + e.2) [e.1] po) s

/-- What a macro-operation stores stands over what unfinished earlier ones of its stream store later (DEDUCED, log 102). -/
def hideEarlier (s : State) (n seq a len : Nat) : State :=
  let l := ((s.ring n).ops.takeWhile fun o => o.orig != seq).filter fun o => !o.finished
  s.updSched (ringPart n) fun q => { q with hidden := q.hidden ++ l.map fun o => (n, o.orig, a, len) }

/-- A store of a station, for the macro-operation whose stores are being made. -/
def streamStore (s : State) (p a : Nat) (bs : List Byte) (po : Bool := false) : State :=
  match (s.sched p).storer with
  | some (n, q) => hideEarlier (storeUnhidden s n q a bs po) n q a bs.length
  | none => storeBytes s a bs po

/-- What a sink leaves: bytes stored in the order written, the register, the slot. -/
def drainSink (s : State) (p : Nat) (d : Desc) (k : Sink) : State :=
  let s := k.runs.reverse.foldl (fun s r => streamStore s p r.1 r.2.1 r.2.2) s
  let s := if gathers d then s.updSched p fun q => { q with scales := Tbl.set q.scales (dScaleReg d) k.reg } else s
  if dHistEn d && fmtFloat (dFmt d) then s.updSched p fun q => { q with hist := Tbl.set q.hist (dHist d) k.hist } else s

/-- Writes values to the elements of linear numbers `ns`, which for Q4 are whole blocks in order; the flags raised. -/
def writeElems (s : State) (p : Nat) (d : Desc) (dst src : Int) (rm : Rm) (ns : List Nat) (vs : List (Num × Bool)) : State × Flags :=
  if ns.isEmpty then (s, 0)
  else
    let k := s.sink p d
    let k := if dFmt d = cQ4 then
        ((blocksOf32 ns.length ns).zip (blocksOf32 vs.length vs)).foldl
          (fun k e => k.block d dst src (offsetAt d (e.1.headD 0)) e.2) k
      else (ns.zip vs).foldl (fun k e => k.elem d dst src rm (offsetAt d e.1) e.2.1 e.2.2) k
    (drainSink s p d k, k.fl)

/-- Writes bit patterns unchanged: a move of elements with neither a change of format nor a scale (R88). -/
def moveElems (s : State) (p : Nat) (d : Desc) (ns : List Nat) (vs : List (Nat × Bool)) : State × Flags :=
  if ns.isEmpty then (s, 0)
  else
    let k := (ns.zip vs).foldl (fun k e =>
      let c := cellAt d (offsetAt d e.1)
      let k := (k.count d (elemNum (dFmt d) e.2.1) e.2.2).note d (if e.2.2 then fPoison else 0)
      k.put c.1 (leBytes c.2 e.2.1) e.2.2) (s.sink p d)
    (drainSink s p d { k with reg := Tbl.get {} (s.sched p).scales (dScaleReg d) }, k.fl)

/-! ### The first-use pre-pass (R93) -/

/-- The register contents with which a destination is written: as read at dispatch, or, where that had SET = 0, as they
stand since another macro-operation's pre-pass. -/
def State.destReg (s : State) (p : Nat) (regs : Tbl ScaleReg) (d : Desc) : ScaleReg :=
  let r := Tbl.get {} regs (dScaleReg d)
  if r.set then r else Tbl.get {} (s.sched p).scales (dScaleReg d)

/-- Runs the pre-pass of a destination whose register is unset over the values to be converted: the state, the registers
to use, and flag bit 6. -/
def prepass (s : State) (p : Nat) (regs : Tbl ScaleReg) (d : Desc) (src : Int) (vs : List (Num × Bool)) :
    State × Tbl ScaleReg × Flags :=
  if !gathers d then (s, regs, 0)
  else
    let i := dScaleReg d
    let r := s.destReg p regs d
    if r.set then (s, Tbl.set regs i r, 0)
    else
      let r := vs.foldl (fun (r : ScaleReg) v => if v.2 then r else r.gather src v.1) r
      let r := r.endPrepass (dFmt d)
      (s.updSched p fun q => { q with scales := Tbl.set q.scales i r }, Tbl.set regs i r, fPrepass)

/-- A whole conversion into the elements `ns` of a destination: pre-pass, then the writes. -/
def convertInto (s : State) (p : Nat) (regs : Tbl ScaleReg) (d : Desc) (src : Int) (ns : List Nat) (vs : List (Num × Bool)) :
    State × Tbl ScaleReg × Flags :=
  let (s, regs, f) := prepass s p regs d src vs
  let (s, g) := writeElems s p d (scaleOf regs d) src .rne ns vs
  (s, regs, f ||| g)

end Sys2Proof.Machine
end

