-- ==== Sys2Proof/Machine/Flags.lean ====
section
/-! DEFINITION. Exception flags (R57, R98): the EXCSUM word of a descriptor, and the flags a macro-operation reports. -/

namespace Sys2Proof.Machine

/-- ORs flags into the EXCSUM word of handle `h` (R57). -/
def orExcsum (s : State) (p h : Nat) (f : Flags) : State :=
  if f = 0 then s
  else
    let d := s.descOf p h
    setDesc s p h (putBits d 736 (bits d 736 32 ||| f.setWidth 32))

/-- The EXCSUM word. -/
def excsum (d : Desc) : U32 := bits d 736 32

/-- Flags raised through destination handle `h` go into the macro-operation's record and, at its completion, into EXCSUM
unless the descriptor has been written since dispatch. -/
def Op.raise (o : Op) (f : Flags) : Op := { o with exc := o.exc ||| f, poison := o.poison || f &&& fPoison != 0 }

end Sys2Proof.Machine
end

