-- ==== Sys2Proof/Machine/Prog.lean ====
section
/-! DEFINITION. Ituno program images (10_ituno_form R228 to R235): their parts, the checks of LOADP, and what an entry reads
and writes. Operand letters are numbered A 0, B 1, C 2, D 3, OUT 4. -/

namespace Sys2Proof.Machine

/-! ### Parts of an image (R228 to R230) -/

def hdrOf (img : List Byte) : BitVec 1024 := wordOf 1024 (img.take 128)
def hLength (h : BitVec 1024) : Nat := field h 224 32
def hNent (h : BitVec 1024) : Nat := field h 208 16
def hNdecl (h : BitVec 1024) : Nat := field h 200 8
def hNker (h : BitVec 1024) : Nat := field h 192 8
def hFormrev (h : BitVec 1024) : Nat := field h 176 16
def hFmtmask (h : BitVec 1024) : BitVec 16 := bits h 160 16
def hSlots (h : BitVec 1024) : Nat := field h 144 16
def hMinRooms (h : BitVec 1024) : Nat := field h 136 8
def hMinSu (h : BitVec 1024) : Nat := field h 128 8

abbrev Decl := BitVec 256
abbrev PEntry := BitVec 512

def imgDecl (img : List Byte) (i : Nat) : Decl := wordOf 256 ((img.drop (128 + 32 * i)).take 32)
def imgEntry (img : List Byte) (i : Nat) : PEntry := wordOf 512 ((img.drop (128 + 32 * hNdecl (hdrOf img) + 64 * i)).take 64)
/-- The 32 operations of kernel `k` (R134). -/
def imgKernel (img : List Byte) (k : Nat) : List U32 :=
  let h := hdrOf img
  let b := (img.drop (128 + 32 * hNdecl h + 64 * hNent h + 128 * k)).take 128
  (upTo 32).map fun j => wordOf 32 ((b.drop (4 * j)).take 4)

def declDim (d : Decl) (i : Nat) : Nat := field d (64 + 32 * i) 32
def declTie (d : Decl) : Nat := field d 48 16
def declSeqax (d : Decl) : Nat := field d 9 3
def declUse (d : Decl) : Nat := field d 7 2
def declRank (d : Decl) : Nat := field d 4 3
def declFmt (d : Decl) : Nat := field d 0 4
def declDims (d : Decl) : List Nat := (upTo (min 6 (declRank d))).map (declDim d)
def declCount (d : Decl) : Nat := (declDims d).foldl (· * ·) 1

def pOp (e : PEntry) : Nat := field e 0 8
/-- Operand field of letter `k`; 0xFFF for an unused operand. -/
def pOperand (e : PEntry) (k : Nat) : Nat := field e (52 + 12 * k) 12
def pKsel (e : PEntry) : Nat := field e 112 4
def pSub (e : PEntry) : Nat := field e 116 4
def pKer (e : PEntry) : Nat := field e 120 8
def pFarg (e : PEntry) : Nat := field e 320 64
def pWin (e : PEntry) : BitVec 128 := bits e 384 128

def pUses (e : PEntry) (k : Nat) : Bool := pOperand e k != 0xFFF
def pPos (e : PEntry) (k : Nat) : Nat := pOperand e k / 256
def pDecl (e : PEntry) (k : Nat) : Nat := pOperand e k % 256
/-- Which operands an operation uses; the fields of the others are not checked (DEDUCED, log 72). -/
def pUsed (e : PEntry) : List Nat := (upTo 5).filter (pUses e)

/-! ### Operands of each operation (R231) -/

/-- Letters an OP requires, and letters it may use besides; none for an undefined OP. -/
def opLetters : Nat → Option (List Nat × List Nat)
  | 1 | 2 => some ([0, 1, 4], [])
  | 3 => some ([0, 1, 3, 4], [])
  | 4 => some ([0, 4], [1, 2])
  | 5 => some ([0, 4], [1, 2, 3])
  | 6 => some ([0, 4], [])
  | 7 | 8 => some ([0, 1, 4], [])
  | _ => none

/-- Does the entry read, and does it write, operand `k` (R231)? -/
def pReads (e : PEntry) (k : Nat) : Bool :=
  if k = 4 then pOp e == 1 && pSub e / 4 % 2 == 1
  else if k = 3 then pOp e != 3
  else true
def pWrites (e : PEntry) (k : Nat) : Bool := k == 4 || (k == 3 && (pOp e == 3 || (pOp e == 5 && 3 ≤ pSub e && pSub e ≤ 5)))

/-! ### Windows (R120, R121) -/

def wCh (w : BitVec 128) : Nat := field w 104 16
def wSlots (w : BitVec 128) : Nat := field w 96 8
def wNax (w : BitVec 128) : Nat := field w 120 2
def wWalk (w : BitVec 128) : Nat := field w 122 1
def wPadNan (w : BitVec 128) : Bool := flag w 123
def wSize (w : BitVec 128) (d : Nat) : Nat := field w (32 * d + 16) 16
def wKer (w : BitVec 128) (d : Nat) : Nat := field w (32 * d + 11) 5
def wStr (w : BitVec 128) (d : Nat) : Nat := field w (32 * d + 8) 3 + 1
def wDil (w : BitVec 128) (d : Nat) : Nat := field w (32 * d + 4) 4 + 1
def wPad (w : BitVec 128) (d : Nat) : Nat := field w (32 * d) 4

/-- Does a window register image keep R120? -/
def winOk (w : BitVec 128) : Bool :=
  field w 124 4 == 0 && 1 ≤ wNax w && 1 ≤ wCh w
    && (if wWalk w = 0 then wSlots w == 0 else 1 ≤ wSlots w && wCh w ≤ 32)
    && (upTo (wNax w)).all (fun d => 1 ≤ wKer w d)
    && (upTo 3).all fun d => d < wNax w || field w (32 * d) 32 == 0

/-- Output extent of spatial axis `d`: 0 where the kernel does not fit. -/
def wOut (w : BitVec 128) (d : Nat) : Nat :=
  let span := wDil w d * (wKer w d - 1) + 1
  if wSize w d + 2 * wPad w d < span then 0 else (wSize w d + 2 * wPad w d - span) / wStr w d + 1

def wOuts (w : BitVec 128) : List Nat := (upTo (wNax w)).map (wOut w)
def wKers (w : BitVec 128) : List Nat := (upTo (wNax w)).map (wKer w)
def wPositions (w : BitVec 128) : Nat := (wOuts w).foldl (· * ·) 1
def wTaps (w : BitVec 128) : Nat := (wKers w).foldl (· * ·) 1

/-! ### Encodings of kernel operations (R133 to R136) -/

abbrev KOpW := BitVec 32

def kOpc (w : KOpW) : Nat := field w 26 6
def kRm (w : KOpW) : Nat := field w 24 2
def kDst (w : KOpW) : Nat := field w 20 4
def kSa (w : KOpW) : Nat := field w 14 6
def kSb (w : KOpW) : Nat := field w 8 6
def kSc (w : KOpW) : Nat := field w 2 6

/-- Sources an operation takes (R136); none for an undefined code. -/
def kSources (opc : Nat) : Option Nat :=
  if opc = 0 then some 0
  else if opc = 5 || opc = 6 || opc = 0x13 then some 3
  else if opc = 7 || opc = 0x0A || opc = 0x0B || opc = 0x0D || opc = 0x0E || (0x18 ≤ opc && opc ≤ 0x22) || opc = 0x37 || opc = 0x38
    then some 1
  else if opc ≤ 0x0E || (0x10 ≤ opc && opc ≤ 0x12) || (0x30 ≤ opc && opc ≤ 0x36) then some 2
  else none

/-- Operations for which RM must be 0: those of R138 and the integer ones. -/
def kNoRm (opc : Nat) : Bool := (0x18 ≤ opc && opc ≤ 0x22) || (0x30 ≤ opc && opc ≤ 0x36)

/-- Is an operation well encoded (R133, R135, R144)? The Ituno form narrows the broadcast codes to P0 to P7 (R231). -/
def kOpOk (ituno : Bool) (w : KOpW) : Bool :=
  match kSources (kOpc w) with
  | none => false
  | some n =>
    let src := fun (i v : Nat) => if n ≤ i then v == 0 else v ≤ 22 || (32 ≤ v && (!ituno || v < 40))
    field w 0 2 == 0 && src 0 (kSa w) && src 1 (kSb w) && src 2 (kSc w) && (!kNoRm (kOpc w) || kRm w == 0)

/-- The operations up to the first END. -/
def kBody (ops : List KOpW) : List KOpW := ops.takeWhile fun w => kOpc w != 0

/-- The operations that are checked: up to and including the first END. -/
def kernelOk (ituno : Bool) (ops : List KOpW) : Bool :=
  (kBody ops).all (kOpOk ituno) && match ops.drop (kBody ops).length with | w :: _ => kOpOk ituno w | [] => true

/-! ### Check 2 of LOADP (R232) -/

def declOk (d : Decl) : Bool :=
  field d 12 36 == 0 && declUse d != 0 && fmtDefined (declFmt d) && declRank d ≤ 6
    && (upTo 6).all (fun i => i < declRank d || declDim d i == 0) && (declSeqax d == 7 || declSeqax d < declRank d)

/-- The format in which an operand reaches the array: Q4 as P8 (R84). -/
def arrayFmt (c : Nat) : Nat := if c = cQ4 then cP8 else c

/-- Does a pair of operand formats have an accumulator (R104)? -/
def pairOk (a b : Nat) : Bool :=
  let a := arrayFmt a
  let b := arrayFmt b
  ((a == cS8 || a == cP8) && (b == cS8 || b == cP8)) || ((a == cS16 || a == cP16) && (b == cS16 || b == cP16))
    || (a == cF32 && b == cF32) || (a == cF64 && b == cF64)

/-- Rows of a row operation lie along axis 0. -/
def rowLen (d : Decl) : Nat := if declRank d = 0 then 1 else declDim d 0

/-- Formats and shapes of an entry's operands; `d k` is the declaration of letter `k`. -/
def shapesOk (e : PEntry) (d : Nat → Decl) (nker : Nat) : Bool :=
  match pOp e with
  | 1 =>
    let ta := pSub e % 2 == 1
    let tb := pSub e / 2 % 2 == 1
    let m := declDim (d 0) (if ta then 0 else 1)
    let k := declDim (d 0) (if ta then 1 else 0)
    let n := declDim (d 1) (if tb then 1 else 0)
    let k' := declDim (d 1) (if tb then 0 else 1)
    pairOk (declFmt (d 0)) (declFmt (d 1)) && fmtFloat (declFmt (d 4)) && declRank (d 0) == 2 && declRank (d 1) == 2
      && declRank (d 4) == 2 && k == k' && declDims (d 4) == [n, m] && pSub e < 8
  | 2 =>
    let w := pWin e
    winOk w && wWalk w == 0 && pairOk (declFmt (d 0)) (declFmt (d 1)) && declFmt (d 0) != cQ4 && fmtFloat (declFmt (d 4))
      && (declRank (d 0) == wNax w + 1 || declRank (d 0) == wNax w + 2) && declRank (d 1) == 2
      && wCh w ≤ declDim (d 0) 0 && (upTo (wNax w)).all (fun i => wSize w i ≤ declDim (d 0) (i + 1))
      && declDim (d 1) 1 == wCh w * wTaps w && 1 ≤ declRank (d 4) && declDim (d 4) 0 == declDim (d 1) 0
      && declCount (d 4) == declDim (d 1) 0 * wPositions w * (if declRank (d 0) = wNax w + 2 then declDim (d 0) (wNax w + 1) else 1)
  | 3 =>
    let w := pWin e
    winOk w && wWalk w == 1 && pSub e < 2 && 1 ≤ pKsel e && pKsel e ≤ 8
      && ((declFmt (d 0) == cF32 && declFmt (d 1) == cF32) || (declFmt (d 0) == cS16 && declFmt (d 1) == cS16))
      && declFmt (d 4) == cF32 && declFmt (d 3) == cI32
      && 2 ≤ declRank (d 0) && declDim (d 0) 0 == wCh w && declRank (d 1) == wNax w + 2
      && wCh w ≤ declDim (d 1) 0 && wSlots w ≤ declDim (d 1) 1
      && (upTo (wNax w)).all (fun i => wSize w i ≤ declDim (d 1) (i + 2))
      && declCount (d 0) == wCh w * declDim (d 0) 1 * wPositions w
      && 1 ≤ declRank (d 4) && declDim (d 4) 0 == pKsel e && declDims (d 3) == declDims (d 4)
      && declCount (d 4) == pKsel e * (declDim (d 0) 1 * wPositions w)
  | 4 => pKer e < nker && (pUsed e).all fun k => declDims (d k) == declDims (d 4)
  | 5 =>
    let back := 3 ≤ pSub e
    let l := rowLen (d 0)
    pSub e ≤ 5 && declFmt (d 0) ≤ 5 && declFmt (d 4) ≤ 5 && declDims (d 4) == declDims (d 0)
      && (if back then pUses e 2 && declFmt (d 2) == cS16 && declDims (d 2) == declDims (d 0) else !pUses e 2 && !pUses e 3)
      && (if pUses e 1 then declFmt (d 1) == cF32 && (declCount (d 1) == l || declCount (d 1) == 2 * l) && pSub e % 3 != 2 else true)
      && (if pUses e 3 then declFmt (d 3) == cF32 && pUses e 1 && declCount (d 3) == declCount (d 1) else !(back && pUses e 1))
  | 6 => declDims (d 0) == declDims (d 4)
  | 7 | 8 =>
    declFmt (d 1) == cI32 && declRank (d 1) == 1 && declRank (d 0) == 2 && declRank (d 4) == 2
      && declDim (d 0) 0 == declDim (d 4) 0 && declDim (d 1) 0 == declDim (d (if pOp e = 7 then 4 else 0)) 1
  | _ => false

def entryOk (e : PEntry) (ndecl nker : Nat) (decl : Nat → Decl) : Bool :=
  let d := fun k => decl (pDecl e k)
  match opLetters (pOp e) with
  | none => false
  | some (need, may) =>
    field e 128 192 == 0 && field e 8 44 == 0 && need.all (pUses e)
      && (pUsed e).all (fun k => (need.contains k || may.contains k) && pDecl e k < ndecl
          && (!pReads e k || declUse (d k) % 2 == 1) && (!pWrites e k || 2 ≤ declUse (d k)))
      && shapesOk e d nker

/-- LENGTH as the counts give it (R228). -/
def imageBody (h : BitVec 1024) : Nat := 128 + 32 * hNdecl h + 64 * hNent h + 128 * hNker h

def imageOk (img : List Byte) : Bool :=
  let h := hdrOf img
  field h 0 8 == 1 && field h 8 120 == 0 && 1 ≤ hNent h && hNent h ≤ 4096 && 1 ≤ hNdecl h
    && 1 ≤ hMinRooms h && hMinRooms h ≤ 128 && hMinSu h ≤ 16 && hSlots h ≤ 2048
    && hLength h == (imageBody h + 63) / 64 * 64 && allZero ((img.drop (imageBody h)).take (hLength h - imageBody h))
    && (upTo (hNdecl h)).all (fun i => declOk (imgDecl img i))
    && (upTo (hNent h)).all (fun i => entryOk (imgEntry img i) (hNdecl h) (hNker h) (imgDecl img))
    && (upTo (hNker h)).all fun i => let k := imgKernel img i; kernelOk true k && k.all fun w => field w 0 2 == 0

/-! ### Checks 3 to 7 -/

/-- Rooms and solver units of a partition in service, and its sample slots (R2, R23). -/
def State.roomsServing (s : State) (p : Nat) : List Nat := (s.roomsOf p).filter fun n => !s.outOfService 0 n
def State.unitsOf (s : State) (p : Nat) : List Nat :=
  (countUp (4 * p * s.mode.dieShare) (4 * s.mode.dieShare)).filter fun u => s.ident.unitsPresent.getLsbD u
def State.slotCount (s : State) : Nat := 2048 / s.mode.count

def roomMaskOf (l : List Nat) : BitVec 128 := l.foldl (fun (w : BitVec 128) n => putField w n 1 1) 0

/-- The authorisation tag of an image under the program key (R353). -/
def programTag (key : Option (BitVec 256)) (img : List Byte) : List Byte :=
  kmac256 (keyBytes key) ((img.drop 64).take 64) 32 "DCG900 IMAGE"

/-- Longest sequence and row (R232 check 6). -/
def seqOk (img : List Byte) : Bool :=
  let h := hdrOf img
  (upTo (hNdecl h)).all (fun i => let d := imgDecl img i; declSeqax d == 7 || declDim d (declSeqax d) ≤ 262144)
    && (upTo (hNent h)).all fun i => let e := imgEntry img i; pOp e != 5 || rowLen (imgDecl img (pDecl e 0)) ≤ 262144

/-! ### Attic ranges (R151, R234) -/

/-- Rows of a ROW entry. -/
def entryRows (img : List Byte) (e : PEntry) : Nat :=
  let d := imgDecl img (pDecl e 0)
  if rowLen d = 0 then 0 else declCount d / rowLen d

/-- The ROW entries of an attic group. -/
def groupEntries (img : List Byte) (g : Nat) : List PEntry :=
  ((upTo (hNent (hdrOf img))).map (imgEntry img)).filter fun e => pOp e == 5 && pKer e == g

/-- Entries that an attic group takes in each of `n` rooms: one for each row of a room, one more each for the scratch values of a
backward operation. -/
def groupRange (img : List Byte) (n g : Nat) : Nat :=
  let l := groupEntries img g
  let per := l.foldl (fun m e => max m ((entryRows img e + n - 1) / n)) 0
  per * if l.any fun e => 3 ≤ pSub e then 2 else 1

/-- Where the range of group `g` begins among those of its program, and what all take. -/
def groupsBefore (img : List Byte) (n g : Nat) : Nat := (upTo g).foldl (fun t i => t + groupRange img n i) 0
def atticTotal (img : List Byte) (n : Nat) : Nat := groupsBefore img n 256

/-- Checks 2 to 7 of an image of a partition (R232) (DEDUCED, log 73). -/
def imageStop (s : State) (p : Nat) (img : List Byte) : Option U16 :=
  let h := hdrOf img
  let rooms := s.roomsServing p
  if 0x1000000 < hLength h || !imageOk img then some 0x0B01
  else if shake256 ((img.take (hLength h)).drop 128) 64 != (img.drop 64).take 64 then some 0x0B02
  else if s.sealed p && programTag (s.ps p).keys.kP img != (img.drop 32).take 32 then some 0x0B03
  else if 1 < hFormrev h || hFmtmask h &&& ~~~(0x037F : BitVec 16) != 0 || rooms.length < hMinRooms h
      || (s.unitsOf p).length < hMinSu h || s.slotCount < hSlots h then some 0x0B04
  else if !seqOk img then some 0x0B05
  else if 4096 < atticTotal img rooms.length || Config.translationOver img (roomMaskOf rooms) then some 0x0B06
  else none


/-! ### Tie groups (R117, R118, R234) -/

/-- How many MATMUL entries of an image name a tie group. -/
def tieCount (img : List Byte) (g : Nat) : Nat :=
  ((upTo (hNent (hdrOf img))).filter fun i =>
    let e := imgEntry img i
    pOp e == 1 && declTie (imgDecl img (pDecl e 4)) == g).length

end Sys2Proof.Machine
end

