-- ==== Sys2Proof/Machine/Sched.lean ====
section
/-! DEFINITION. The stream scheduler (03_stations_and_streams R52 to R70, 10_ituno_form R226 to R238, 11_training_support,
14_companion_link R331 to R336): what waits, what is checked, how a macro-operation is dispatched, completes and stops. -/

namespace Sys2Proof.Machine

/-! ### Entries (R226, R227, R331, R336) -/

def eKind (e : Entry) : Nat := field e.bytes 0 8
def eTag (e : Entry) : Byte := bits e.bytes 8 8
def eCseq (e : Entry) : Nat := field e.bytes 64 64
def eEseq (e : Entry) : Nat := field e.bytes 128 64
def eMop (e : Entry) : BitVec 512 := bits e.bytes 512 512

/-- Is an OPC one of R227? -/
def opcDefined (opc : Nat) : Bool := (1 ≤ opc && opc ≤ 7) || (0x10 ≤ opc && opc ≤ 0x12) || opc == 0x20 || (0x30 ≤ opc && opc ≤ 0x32)

/-- The bits of the record that an operation's row of R227 lists; an EXCHANGE names sample slots too (R252). -/
def opcMask (opc : Nat) : BitVec 512 :=
  let ones := fun (lo w : Nat) => ((BitVec.allOnes w).setWidth 512) <<< lo
  let addr := ones 192 48
  let base := ones 0 16
  let slots := ones 105 23
  match opc with
  | 0x01 => base
  | 0x02 => base ||| ones 128 4 ||| ones 144 16
  | 0x03 => base ||| addr ||| ones 256 16
  | 0x04 | 0x05 => base ||| addr ||| ones 128 10
  | 0x06 => base ||| addr ||| ones 128 12
  | 0x07 => base ||| ones 128 12
  | 0x10 => base ||| addr ||| ones 64 16
  | 0x11 => base ||| ones 64 16
  | 0x12 => base ||| addr ||| ones 64 32 ||| slots ||| ones 128 7 ||| ones 240 272
  | 0x31 => base ||| addr ||| slots
  | _ => base ||| addr

/-- The training tag (R241, R242). -/
def tagPhase (t : Byte) : Nat := field t 0 3
def tagMbend (t : Byte) : Bool := flag t 3
def tagStepend (t : Byte) : Bool := flag t 4
def tagOk (t : Byte) (opc : Nat) : Bool := field t 5 3 == 0 && (tagPhase t == 0 || (tagPhase t ≤ 5 && opc == 0x12))

/-- What an entry asks for. -/
inductive Ask where
  | noop
  | cont
  | mop (opc : Nat)
deriving DecidableEq, Repr

/-- The head entry of a ring as the scheduler reads it: what it asks for, or the cause that halts the stream (DEDUCED, log 60). -/
def readHead (r : Ring) (e : Entry) : Except U16 Ask :=
  let k := eKind e
  if !e.ok then .error 0x0F05
  else if 2 < k || field e.bytes 192 320 != 0 || field e.bytes 16 48 != 0 || (k != 2 && eCseq e != 0)
      || (k != 1 && (eTag e != 0 || eMop e != 0)) then .error 0x0F01
  else if eEseq e != e.seq then .error 0x0F02
  else if k = 2 then
    match r.stoppedOps with
    | o :: _ => if eCseq e = o.seq then .ok .cont else .error 0x0F04
    | [] => .error 0x0F04
  else if !r.stoppedOps.isEmpty then .error 0x0F04
  else if k = 0 then .ok .noop
  else
    let opc := field (eMop e) 0 16
    if opcDefined opc then .ok (.mop opc)
    else .error (if tagOk (eTag e) opc then 0x0B01 else 0x0D09)

/-- The checks that every macro-operation makes first at its dispatch: the training tag, fields that must be zero (R462, R227) (DEDUCED, log 61). -/
def Ask.stop (a : Ask) (e : Entry) : Option FaultInfo :=
  match a with
  | .mop opc =>
    if !tagOk (eTag e) opc then some { cause := 0x0D09, seq := e.seq }
    else if eMop e &&& ~~~(opcMask opc) != 0 then some { cause := 0x0B01, seq := e.seq }
    else none
  | _ => none

/-- May the ring's partition dispatch (R347)? -/
def State.mayRun (s : State) (p : Nat) : Bool := s.up && (s.pst p == .opened || s.pst p == .sealed)

/-- Is a stop image being imported into a partition: no stream of it dispatches (R58)? -/
def State.importing (s : State) (p : Nat) : Bool := match (s.ps p).job with | some j => j.op == 3 && j.result.isNone | none => false

/-- The entry next to be dispatched, if the stream may dispatch: STATE 0 or 1, no stop requested, no fence or hitch of the
stream uncompleted (R63). -/
def State.headEntry (s : State) (n : Nat) : Option Entry :=
  let r := s.ring n
  if s.mayRun (ringPart n) && !s.importing (ringPart n) && r.enabled && (r.st == .idle || r.st == .running) && !r.stopReq && r.nextSeq ≤ r.tail
      && !(r.ops.any fun o => o.isFence && !o.finished) then
    r.fetched.find? fun e => e.seq == r.nextSeq && e.got == 3
  else none

/-! ### What a macro-operation reads and writes (R53, R89) -/

/-- Handles, registers and slots of descriptors read and written. -/
def usesOf (scales : Tbl ScaleReg) (reads writes : List (Nat × Desc)) : Uses :=
  let conv := fun (l : List (Nat × Desc)) => (l.filter fun e => gathers e.2).map fun e => dScaleReg e.2
  let writesReg := (conv writes).filter fun i =>
    let r := Tbl.get ({} : ScaleReg) scales i
    r.policy == 1 || r.policy == 2 || !r.set
  { rh := reads.map (·.1), wh := writes.map (·.1), rs := conv reads ++ conv writes, ws := writesReg,
    rg := (writes.filter fun e => dHistEn e.2 && fmtFloat (dFmt e.2)).map fun e => dHist e.2 }

/-- Must a macro-operation that uses `m` wait for an earlier one that uses `e`? -/
def Uses.waitsFor (m e : Uses) : Bool :=
  let hit := fun (a b : List Nat) => a.any b.contains
  hit m.rh e.wh || hit m.wh e.rh || hit m.wh e.wh || hit m.rs e.ws || hit m.ws e.rs || hit m.ws e.ws
    || hit m.rg e.wg || hit m.wg e.rg || hit m.wg e.wg

/-! ### Claims on sample slots (R66, R67) -/

def Op.live (o : Op) : Bool := !o.finished
def Op.is (o : Op) (opc : Nat) : Bool := !o.noop && o.opc == opc
/-- A SOLVE claims exclusively. -/
def Op.exclusive (o : Op) : Bool := o.is 0x20
def Op.slotList (o : Op) : List Nat := countUp o.slots.1 o.slots.2
def Op.holdsSlot (o : Op) (i : Nat) : Bool := o.slots.1 ≤ i && i < o.slots.1 + o.slots.2
def slotsMeet (a b : Nat × Nat) : Bool := a.1 < b.1 + b.2 && b.1 < a.1 + a.2

/-- Unfinished macro-operations of a partition in flight, with their rings. -/
def State.liveOps (s : State) (p : Nat) : List (Nat × Op) :=
  ((ringsOf p).map fun n => ((s.ring n).ops.filter Op.live).map fun o => (n, o)).flatten
/-- Those that hold claims: stopped ones too, since they have not completed (R236, R337). -/
def State.openOps (s : State) (p : Nat) : List (Nat × Op) :=
  s.liveOps p ++ ((ringsOf p).map fun n => (s.ring n).stoppedOps.map fun o => (n, o)).flatten

def State.claimWait (s : State) (p : Nat) (o : Op) : Bool :=
  (s.openOps p).any fun e => slotsMeet o.slots e.2.slots && (o.exclusive || e.2.exclusive)

/-- Does some splice that has not changed the epoch hold a macro-operation that names a sharded descriptor (R274)? -/
def State.spliceWait (s : State) (p : Nat) (names : List Nat) : Bool :=
  names.any (fun h => dEpoch (s.descOf p h) != 0)
    && (s.openOps p).any fun e => match e.2.splice with | some x => !x.changed | none => false

/-- The waits at dispatch that every macro-operation obeys. -/
def State.mustWait (s : State) (n : Nat) (o : Op) (names : List Nat) : Bool :=
  (s.ring n).ops.any (fun e => e.live && o.uses.waitsFor e.uses)
    || s.claimWait (ringPart n) o || s.spliceWait (ringPart n) names

/-! ### Dispatch (R52, R53, R462) -/

/-- The macro-operation of an entry as it is dispatched. -/
def newOp (s : State) (n : Nat) (e : Entry) : Op :=
  { seq := e.seq, orig := e.seq, tag := eTag e, mop := eMop e, noop := eKind e == 0, order := (s.sched (ringPart n)).dispatched, first := (s.sched (ringPart n)).dispatched,
    tstart := s.stamp }

/-- An entry leaves the fetch buffer; the next ones are fetched. -/
def consume (s : State) (n : Nat) (e : Entry) : State :=
  let s := s.updRing n fun r => { r with nextSeq := e.seq + 1, fetched := r.fetched.filter fun x => e.seq < x.seq }
  fetchMore s n

/-- A dispatched macro-operation is in flight. A step begins with the first dispatch after one was closed (R257). -/
def enter (s : State) (n : Nat) (e : Entry) (o : Op) : State :=
  let p := ringPart n
  let s := consume s n e
  let s := if (s.ring n).phase.isNone then beginStep s n else s
  let s := s.updSched p fun q => { q with dispatched := q.dispatched + 1 }
  let s := s.updRing n fun r => { r with ops := r.ops ++ [o] }
  settleOverrun (runOrIdle (retire s n) n) n

/-- A fault at dispatch: the stream halts, and the entry's record says so (R73, R240) (DEDUCED, log 62). -/
def rejectEntry (s : State) (n : Nat) (e : Entry) (f : FaultInfo) : State :=
  let s := haltRing s n { f with seq := e.seq }
  let s := consume s n e
  let s := s.updRing n fun r => { r with ops := r.ops ++ [(newOp s n e).failed s f.cause] }
  retire s n

/-- How a kind of macro-operation is dispatched: the record with what it uses filled in; the handles it names; whether it
waits for something of its own; the first check it fails, and what a failure leaves beside the halt; and its effect at dispatch. -/
structure Plan where
  prep : State → Nat → Op → Op := fun _ _ o => o
  names : State → Nat → Op → List Nat := fun _ _ o => o.uses.rh ++ o.uses.wh
  wait : State → Nat → Op → Bool := fun _ _ _ => false
  check : State → Nat → Op → Option FaultInfo := fun _ _ _ => none
  reject : State → Nat → Op → State := fun s _ _ => s
  go : State → Nat → Op → State × Op

/-- The dispatch of the head entry of a ring, when it asks for what a row of the command table dispatches (`want`); an entry that
reads as malformed halts the stream whichever row meets it. -/
def dispatchHead (n : Nat) (want : State → Op → Ask → Bool) (k : Plan) (s : State) : Out :=
  match s.headEntry n with
  | none => .next s
  | some e =>
    match readHead (s.ring n) e with
    | .error c => .next (rejectEntry s n e { cause := c, seq := e.seq })
    | .ok a =>
      let o := k.prep s n (newOp s n e)
      if !want s o a || s.mustWait n o (k.names s n o) || k.wait s n o then .next s
      else match a.stop e, k.check s n o with
        | some f, _ => .next (rejectEntry s n e (f.of o))
        | none, some f => .next (rejectEntry (k.reject s n o) n e (f.of o))
        | none, none => let (s, o) := k.go s n o; .next (enter s n e o)

def wantOpc (opc : Nat) (_ : State) (_ : Op) (a : Ask) : Bool := a == .mop opc

/-! ### Shared checks -/

/-- The cause of a check, with the granule to report where an access was refused. -/
def stopAt (o : Op) (a : Nat) (c : U16) : FaultInfo :=
  { cause := c, seq := o.seq, refused := if c == 0x0701 || c == 0x0803 then some a else none }

/-- A block that a macro-operation names is read: bounds, protected regions, blocked granules, poison (R227, R314, R417). -/
def State.blockRead (s : State) (n : Nat) (o : Op) (a len : Nat) : Option FaultInfo :=
  match s.blockStop (ringPart n) a len with
  | some c => some (stopAt o a c)
  | none =>
    match s.rangeStop a len with
    | some (g, c) => some (stopAt o g c)
    | none => if s.poisonAt a len then some (stopAt o a 0x0802) else none

/-- A block that a macro-operation writes. -/
def State.blockWrite (s : State) (n : Nat) (o : Op) (a len : Nat) : Option FaultInfo :=
  match s.blockStop (ringPart n) a len with
  | some c => some (stopAt o a c)
  | none => (s.rangeStop a len).map fun e => stopAt o e.1 e.2

/-- A handle named at dispatch, with the descriptor it stands for (R60, R417). -/
def State.handleRead (s : State) (n : Nat) (o : Op) (h : Nat) (d : Desc) (dest : Bool) (epochs : List Nat) : Option FaultInfo :=
  let p := ringPart n
  (s.handleStop p h d dest epochs).map (stopAt o (s.descBase p + 128 * h))

/-- The first of several checks that fails. -/
def firstStop (l : List (Unit → Option FaultInfo)) : Option FaultInfo := l.findSome? fun f => f ()

/-- Activation classes of a descriptor written (R254). -/
def State.classOk (s : State) (p : Nat) (d : Desc) : Bool :=
  match dAclass d with
  | 1 => (dFmt d == cF64 || dFmt d == cF32) && !dScaleEn d
  | 2 => (dFmt d == cP8 || dFmt d == cS8) && dScaleEn d
          && (Tbl.get ({} : ScaleReg) (s.sched p).scales (dScaleReg d)).policy == 0
  | _ => true

def State.classStop (s : State) (n : Nat) (o : Op) (ds : List Desc) : Option FaultInfo :=
  if ds.all (s.classOk (ringPart n)) then none else some (stopAt o 0 0x0D08)

/-- The range of sample slots (R66). -/
def State.slotStop (s : State) (o : Op) : Option FaultInfo :=
  if o.slots.2 != 0 && s.slotCount < o.slots.1 + o.slots.2 then some (stopAt o 0 0x0A0D) else none

/-! ### Completion (R57, R91, R249, R257, R334) -/

/-- Flags reach EXCSUM, save through handles written by a DWRITE since dispatch (R57). -/
def raiseAll (s : State) (p : Nat) (o : Op) : State :=
  o.dexc.foldl (fun s e => if o.rewritten.contains e.1 then s else orExcsum s p e.1 e.2) s

/-- Registers converted through: POLICY 1 advances now; the stream is remembered (R91). -/
def advanceRegs (s : State) (n : Nat) (o : Op) : State :=
  each o.convs s fun s i => s.updSched (ringPart n) fun q =>
    let r := Tbl.get ({} : ScaleReg) q.scales i
    { q with scaleRing := Tbl.set q.scaleRing i n, scales := if r.policy == 1 then Tbl.set q.scales i r.advance else q.scales }

/-- POLICY 2 registers that the stream last converted through advance at its next fence, and no later one (R91). -/
def advanceAtFence (s : State) (n : Nat) : State :=
  s.updSched (ringPart n) fun q =>
    let q := q.scaleRing.foldl (fun (q : PartSched) e =>
      let r := Tbl.get ({} : ScaleReg) q.scales e.1
      if e.2 == n && r.policy == 2 then { q with scales := Tbl.set q.scales e.1 r.advance } else q) q
    { q with scaleRing := q.scaleRing.filter fun e => e.2 != n }

/-- Handle `h` has been written: what is in flight keeps its flags to its record (R57). -/
def markRewritten (s : State) (p h : Nat) : State :=
  each (ringsOf p) s fun s n => s.updRing n fun r =>
    { r with ops := r.ops.map (fun o => { o with rewritten := h :: o.rewritten }),
             stoppedOps := r.stoppedOps.map fun o => { o with rewritten := h :: o.rewritten } }

/-- The slots of a macro-operation that carries MBEND end their micro-batch (R249). -/
def endBatch (s : State) (p : Nat) (o : Op) : State :=
  if tagMbend o.tag then each o.slotList s fun s i => s.updSched p fun q =>
    { q with slots := Tbl.set q.slots i { (Tbl.get {} q.slots i : Slot) with ending := true } }
  else s

/-- STEPEND: the running totals become the last-step record and the next step begins (R257). -/
def endStep (s : State) (n : Nat) : State :=
  match (s.ring n).phase with
  | some ph =>
    let s := s.updRing n fun r =>
      { r with steps := r.steps + 1, lastStep := phaseWord ph 1 (r.steps + 1) s.stamp s.tq (s.ringEnergy n) }
    beginStep s n
  | none => s

/-- A macro-operation completes. -/
def finishOp (s : State) (n : Nat) (o : Op) : State :=
  let p := ringPart n
  let s := advanceRegs (raiseAll s p o) n o
  let s := if o.is 0x03 then markRewritten s p (o.bind 0) else s
  let s := endBatch s p o
  let s := s.updOp n o.orig fun o => { o with finished := true, work := true, tend := s.stamp, tq := s.tq,
                                              status := if o.poison then 3 else o.status }
  let s := s.updRing n fun r => { r with poisoned := r.poisoned || o.poison }
  let s := s.updSched p fun q => { q with hidden := q.hidden.filter fun e => !(e.1 == n && e.2.1 == o.orig) }
  let s := if tagStepend o.tag then endStep s n else s
  runOrIdle (retire s n) n

/-- MICRO_BATCH_END (R249): ended slots with no claim left become idle and lose their version. -/
def State.batchEnds (s : State) (p : Nat) : List Nat :=
  (((s.sched p).slots.filter fun e => e.2.ending).map (·.1)).filter fun i => !(s.openOps p).any fun e => e.2.holdsSlot i

def execMicroBatchEnd (p : BitVec 2) (s : State) : Out :=
  act (s.up && s.exists_ p.toNat && !(s.batchEnds p.toNat).isEmpty) s fun s =>
    each (s.batchEnds p.toNat) s fun s i => s.updSched p.toNat fun q =>
      { q with slots := Tbl.set q.slots i { (Tbl.get {} q.slots i : Slot) with st := 0, ver := 0, ending := false } }

/-! ### No-ops -/

/-- NO_OP (R331): completes with status ok. -/
def execNoOp (ring : BitVec 6) (s : State) : Out :=
  dispatchHead ring.toNat (fun _ _ a => a == .noop) { go := fun s _ o => (s, { o with work := true, finished := true, tend := s.stamp, tq := s.tq }) } s

/-! ### Fences and hitches (R63 to R65) -/

/-- FENCE: dispatched; nothing of the stream follows until it completes. -/
def execFence (ring : BitVec 6) (s : State) : Out :=
  dispatchHead ring.toNat (wantOpc 1) { go := fun s _ o => (s, o) } s

def Op.hitchNo (o : Op) : Nat := field o.imm 0 4
def Op.hitchMask (o : Op) : U16 := bits o.imm 16 16

/-- The fence of a ring that may complete: everything before it has (R63), and it has not arrived yet. -/
def State.readyFence (s : State) (n : Nat) : Option Op :=
  let l := (s.ring n).ops.filter Op.live
  match l with
  | o :: _ => if o.isFence && !o.hold then some o else none
  | [] => none

/-- Every participant of a hitch is released. -/
def releaseHitch (s : State) (p k : Nat) (h : Hitch) : State :=
  let s := setHitch s p k { gen := h.gen + 1 }
  each h.arrived s fun s m =>
    match (s.ring m).ops.find? fun o => o.isFence && o.live with
    | some o => finishOp s m o
    | none => s

/-- Arrival at a hitch (R64, R65): a mask that differs halts every participant; the last arrival releases all. -/
def arrive (s : State) (n : Nat) (o : Op) : State :=
  let p := ringPart n
  let k := o.hitchNo
  let h := Tbl.get ({} : Hitch) (s.sched p).hitches k
  let s := s.updOp n o.orig fun o => { o with hold := true }
  if !h.arrived.isEmpty && h.mask != o.hitchMask then
    let s := setHitch s p k { gen := h.gen }
    let s := each (h.arrived ++ [n]) s fun s m => haltWaiter s m 0x0A0B
    each (h.arrived ++ [n]) s breakHitches
  else
    let h := { h with mask := o.hitchMask, arrived := h.arrived ++ [n] }
    if (upTo 16).all fun r => !h.mask.getLsbD r || h.arrived.contains (16 * p + r) then releaseHitch s p k h
    else setHitch s p k h

/-- The fence of a stream completes, or halts a stream that has consumed poison (R63, R415). -/
def passFence (s : State) (n : Nat) (o : Op) : State :=
  if (s.ring n).poisoned then
    faultOp (s.updRing n fun r => { r with poisoned := false }) n o.orig { cause := 0x0801, seq := o.seq }
  else
    let s := advanceAtFence s n
    if o.is 2 then arrive s n o else finishOp s n o

/-- FENCE_COMPLETE: of a fence, or the fence that an arrival at a hitch performs. -/
def execFenceComplete (ring : BitVec 6) (s : State) : Out :=
  let n := ring.toNat
  match s.readyFence n with
  | some o => act s.up s fun s => passFence s n o
  | none => .next s

/-- HITCH: an arrival whose fence is complete at once arrives at dispatch; a mask without the stream faults (R64). -/
def execHitch (ring : BitVec 6) (s : State) : Out :=
  let n := ring.toNat
  let quiet := !(s.ring n).ops.any Op.live
  match dispatchHead n (wantOpc 2)
    { check := fun _ n o => if o.hitchMask.getLsbD (n % 16) then none else some (stopAt o 0 0x0A0E)
      go := fun s _ o => (s, o) } s with
  | .next t =>
    match t.readyFence n with
    | some o => if quiet && o.is 2 && (s.opAt n o.orig).isNone then .next (passFence t n o) else .next t
    | none => .next t
  | x => x

/-! ### Descriptor writes and the stash (R248 to R251) -/

/-- Does a sample slot that is not idle hold version `v`? -/
def State.pinned (s : State) (p v : Nat) : Bool :=
  (s.sched p).slots.any fun e => e.2.st != 0 && e.2.ver.toNat == v

/-- The versions a DWRITE of version `w` to handle `h` waits for. -/
def State.stashWaits (s : State) (p h w : Nat) : List Nat :=
  let q := s.sched p
  let v := dVersion (s.descOf p h)
  let prev := match Tbl.find q.stash h with | some d => [dVersion d] | none => []
  if v = 0 || w = v then [] else if w = 0 then v :: prev else prev

/-- Why a DWRITE cannot take effect: a version that falls, or no shadow entry. -/
def State.stashStop (s : State) (p h w : Nat) : Option U16 :=
  let q := s.sched p
  let v := dVersion (s.descOf p h)
  if v != 0 && w != 0 && w < v then some 0x0D01
  else if v != 0 && v < w && !q.stash.has h && 4096 ≤ q.stash.length then some 0x0D02
  else none

/-- A DWRITE takes effect. -/
def applyDwrite (s : State) (p h : Nat) (d : Desc) : State :=
  let old := s.descOf p h
  let v := dVersion old
  let w := dVersion d
  let s := s.updSched p fun q =>
    { q with stash := if v = 0 || w = v then q.stash else if w = 0 then Tbl.erase q.stash h else Tbl.set q.stash h old }
  setDesc s p h d

def State.dwriteImage (s : State) (o : Op) : Desc := wordOf 1024 (s.bytesAt o.addr 128)

/-- A DWRITE that has taken effect in its dispatch completes at once: no dispatch meets the new contents before it has (R59). -/
def endDwrite (n : Nat) (x : Out) : Out :=
  match x with
  | .next t => match (t.ring n).ops.find? fun o => o.is 3 && o.live && o.work with
    | some o => .next (finishOp t n o)
    | none => .next t
  | x => x

def prepDwrite (_ : State) (_ : Nat) (o : Op) : Op := { o with uses := { wh := [o.bind 0] } }

/-- DWRITE: a write that the stash rules may hold takes effect in STASH_UPDATE, any other at once. The image is kept with the
macro-operation. -/
def execDwrite (ring : BitVec 6) (s : State) : Out :=
  endDwrite ring.toNat (dispatchHead ring.toNat (wantOpc 3)
    { prep := prepDwrite
      check := fun s n o => firstStop [fun _ => s.blockRead n o o.addr 128,
        fun _ => (s.stashStop (ringPart n) (o.bind 0) (dVersion (s.dwriteImage o))).map (stopAt o 0)]
      go := fun s n o =>
        let p := ringPart n
        let d := s.dwriteImage o
        let v := dVersion (s.descOf p (o.bind 0))
        let s := touch s o.addr 128
        if v = 0 || dVersion d = v then (applyDwrite s p (o.bind 0) d, { o with work := true })
        else (s, { o with hold := true, descs := [(0, d)] }) } s)

/-- The held DWRITE of a ring that is free to act: no stop has been requested, no version it waits for is pinned, and none to its
handle was dispatched before it (R251). -/
def State.freeDwrite (s : State) (n : Nat) : Option Op :=
  let p := ringPart n
  let held := fun (o : Op) => o.is 3 && o.hold && o.live && !o.work
  if (s.ring n).stopReq then none
  else (s.ring n).ops.find? fun o => held o
    && !(s.stashWaits p (o.bind 0) (dVersion (Tbl.get 0 o.descs 0))).any (s.pinned p)
    && !(s.liveOps p).any fun e => held e.2 && e.2.bind 0 == o.bind 0 && e.2.order < o.order

/-- STASH_UPDATE: the held DWRITE takes effect and completes, or faults. -/
def execStashUpdate (ring : BitVec 6) (s : State) : Out :=
  let n := ring.toNat
  let p := ringPart n
  match s.freeDwrite n with
  | some o => act s.up s fun s =>
      let d := Tbl.get 0 o.descs 0
      match s.stashStop p (o.bind 0) (dVersion d) with
      | some c => faultOp s n o.orig { cause := c, seq := o.seq }
      | none => finishOp (applyDwrite s p (o.bind 0) d) n o
  | none => .next s

/-! ### Scale registers and histograms (R87, R89, R95) -/

def State.scaleReg (s : State) (p i : Nat) : ScaleReg := Tbl.get {} (s.sched p).scales i
def setScale (s : State) (p i : Nat) (r : ScaleReg) : State := s.updSched p fun q => { q with scales := Tbl.set q.scales i r }

def prepScale (_ : State) (_ : Nat) (o : Op) : Op := { o with uses := { ws := [field o.imm 0 10] } }
def prepHist (_ : State) (_ : Nat) (o : Op) : Op := { o with uses := { wg := [field o.imm 0 12] } }

/-- SWRITE. -/
def execSwrite (ring : BitVec 6) (s : State) : Out :=
  let value := fun (s : State) (o : Op) => (wordOf 128 (s.bytesAt o.addr 16) : BitVec 128)
  let reg := fun (o : Op) => field o.imm 0 10
  dispatchHead ring.toNat (wantOpc 4)
    { prep := prepScale
      check := fun s n o => firstStop [fun _ => s.blockRead n o o.addr 16, fun _ =>
        match (s.scaleReg (ringPart n) (reg o)).writeWord (value s o) with
        | .error c => some (stopAt o 0 c)
        | .ok _ => none]
      go := fun s n o =>
        let p := ringPart n
        match (s.scaleReg p (reg o)).writeWord (value s o) with
        | .ok r => (setScale (touch s o.addr 16) p (reg o) r, { o with work := true })
        | .error _ => (s, { o with work := true }) } s

/-- SREAD. -/
def execSread (ring : BitVec 6) (s : State) : Out :=
  let reg := fun (o : Op) => field o.imm 0 10
  dispatchHead ring.toNat (wantOpc 5)
    { prep := prepScale
      check := fun s n o => s.blockWrite n o o.addr 16
      go := fun s n o => (hideEarlier (storeBytes s o.addr (bytesOf (s.scaleReg (ringPart n) (reg o)).word)) n o.orig o.addr 16,
        { o with work := true }) } s

/-- HREAD. -/
def execHread (ring : BitVec 6) (s : State) : Out :=
  let slot := fun (o : Op) => field o.imm 0 12
  dispatchHead ring.toNat (wantOpc 6)
    { prep := prepHist
      check := fun s n o => s.blockWrite n o o.addr 288
      go := fun s n o =>
        (hideEarlier (storeBytes s o.addr (Tbl.get ({} : Hist) (s.sched (ringPart n)).hist (slot o)).bytes) n o.orig o.addr 288,
          { o with work := true }) } s

/-- HCLEAR. -/
def execHclear (ring : BitVec 6) (s : State) : Out :=
  let slot := fun (o : Op) => field o.imm 0 12
  dispatchHead ring.toNat (wantOpc 7)
    { prep := prepHist
      go := fun s n o =>
        (s.updSched (ringPart n) fun q => { q with hist := Tbl.set q.hist (slot o) {} }, { o with work := true }) } s

end Sys2Proof.Machine
end

