-- ==== Sys2Proof/Machine/Runs.lean ====
section
/-! DEFINITION. Programs and the RUN macro-operation (10_ituno_form R227, R232 to R237, R462; 11_training_support R247 to
R250, R254). -/

namespace Sys2Proof.Machine

/-! ### LOADP and UNLOADP (R232, R236) -/

/-- Must a LOADP or UNLOADP go on waiting: a RUN, or another load or unload, of its program dispatched before it, a
stopped one that has been continued among them, has not completed. -/
def State.programWait (s : State) (p : Nat) (o : Op) : Bool :=
  (s.openOps p).any fun e => (e.2.is 0x12 || e.2.is 0x10 || e.2.is 0x11) && e.2.prog == o.prog && e.2.first < o.order

/-- The load or unload of a ring whose wait may end. -/
def State.readyLoad (s : State) (n opc : Nat) : Option Op :=
  (s.ring n).ops.find? fun o => o.is opc && o.live && o.hold && !s.programWait (ringPart n) o

/-- A program is discarded, with what its tie groups hold. -/
def dropProgram (s : State) (p k : Nat) : State := s.updSched p fun q =>
  { q with programs := Tbl.erase q.programs k, ties := q.ties.filter fun e => e.1 / 65536 != k }

/-- The wait of a LOADP ends: the program number is unloaded, the image is checked, its translation starts. -/
def startLoad (s : State) (n : Nat) (o : Op) : State :=
  let p := ringPart n
  let s := dropProgram s p o.prog
  let len := max 128 (hLength (hdrOf (s.bytesAt o.addr 128)))
  let img := s.bytesAt o.addr len
  let s := touch s o.addr len
  match imageStop s p img with
  | some c => faultOp s n o.orig { cause := c, seq := o.seq, prog := BitVec.ofNat 16 o.prog }
  | none =>
    let (k, s) := s.takeFree
    let g : Program := { image := img, rooms := roomMaskOf (s.roomsServing p), xlate := k }
    let s := s.updSched p fun q => { q with programs := Tbl.set q.programs o.prog g }
    s.updOp n o.orig fun o => { o with hold := false }

/-- The wait of an UNLOADP ends. -/
def endUnload (s : State) (n : Nat) (o : Op) : State :=
  (dropProgram s (ringPart n) o.prog).updOp n o.orig fun o => { o with hold := false, work := true }

def progStop (o : Op) : Option FaultInfo := if 63 < o.prog then some (stopAt o 0 0x0B0A) else none

/-- Check 1 (R227, R228, R232), and a poisoned image (R417): the header, then the whole of it. -/
def State.imageAddrStop (s : State) (n : Nat) (o : Op) : Option FaultInfo :=
  let len := max 128 (hLength (hdrOf (s.bytesAt o.addr 128)))
  if o.addr % 256 != 0 then some (stopAt o 0 0x0A06)
  else firstStop [
    fun _ => s.blockRead n o o.addr 128,
    fun _ => (s.blockStop (ringPart n) o.addr len).map (stopAt o 0),
    fun _ => if 0x1000000 < len then some (stopAt o 0 0x0B01) else none,
    fun _ => s.blockRead n o o.addr len]

/-- LOADP: the dispatch, or the end of the wait of one dispatched before. -/
def execLoadp (ring : BitVec 6) (s : State) : Out :=
  let n := ring.toNat
  match s.readyLoad n 0x10 with
  | some o => act s.up s fun s => startLoad s n o
  | none => dispatchHead n (wantOpc 0x10)
      { check := fun s n o => firstStop [fun _ => progStop o, fun _ => s.imageAddrStop n o]
        reject := fun s n o => if 63 < o.prog then s else dropProgram s (ringPart n) o.prog
        go := fun s _ o => (s, { o with hold := true }) } s

/-- TRANSLATION_COMPLETE (R234): the program is loaded, its words stand in the rooms. -/
def execTranslationComplete (ring : BitVec 6) (seq : BitVec 64) (s : State) : Out :=
  let n := ring.toNat
  let p := ringPart n
  match s.opAt n seq.toNat with
  | some o =>
    match Tbl.find (s.sched p).programs o.prog with
    | some g =>
      act (s.up && o.is 0x10 && o.live && !o.hold && !o.work && !g.ready) s fun s =>
        let s := s.updSched p fun q => { q with programs := Tbl.set q.programs o.prog { g with ready := true } }
        let s := each ((s.roomsOf p).filter fun m => g.rooms.getLsbD m) s fun s m =>
          s.updRoom m fun r => { r with imem := [], imemFrom := g.xlate + 1, imemPoison := [] }
        s.updOp n o.orig fun o => { o with work := true }
    | none => .next s
  | none => .next s

/-- UNLOADP: the dispatch, or the end of the wait of one dispatched before. -/
def execUnloadp (ring : BitVec 6) (s : State) : Out :=
  let n := ring.toNat
  match s.readyLoad n 0x11 with
  | some o => act s.up s fun s => endUnload s n o
  | none => dispatchHead n (wantOpc 0x11)
      { check := fun _ _ o => progStop o
        go := fun s _ o => (s, { o with hold := true }) } s

/-! ### What a RUN uses -/

/-- The program of a RUN: the one it was dispatched with; before its dispatch, the one loaded under its number. -/
def State.programOf (s : State) (p : Nat) (o : Op) : Option Program :=
  match (match o.program with | some g => some g | none => Tbl.find (s.sched p).programs o.prog) with
  | some g => if g.ready && o.entry < hNent (hdrOf g.image) then some g else none
  | none => none

/-- Binding positions enabled, ascending. -/
def Op.bound (o : Op) : List Nat := (upTo 16).filter o.bindEn

/-- The entry a RUN names; an entry that uses nothing where there is none. -/
def State.entryOf (s : State) (p : Nat) (o : Op) : PEntry :=
  match s.programOf p o with
  | some g => imgEntry g.image o.entry
  | none => BitVec.allOnes 512

def State.slotAt (s : State) (p i : Nat) : Slot := Tbl.get {} (s.sched p).slots i
def Op.phase (o : Op) : Nat := tagPhase o.tag
def Op.passes (o : Op) : Bool := 1 ≤ o.phase && o.phase ≤ 4 && o.slots.2 != 0

/-- VERSION of the current descriptor of the stashed handle at the lowest binding position that a RUN reads (R249). -/
def State.firstVersion (s : State) (p : Nat) (o : Op) : Nat :=
  let e := s.entryOf p o
  let read := fun (i : Nat) => (pUsed e).any fun k => pPos e k == i && pReads e k
  match o.bound.find? fun i => read i && dVersion (s.descOf p (o.bind i)) != 0 with
  | some i => dVersion (s.descOf p (o.bind i))
  | none => 0

/-- The slot version m of a RUN (R250); 0 where it uses current descriptors. -/
def State.runVersion (s : State) (p : Nat) (o : Op) : Nat :=
  if !o.passes then 0
  else
    let v := (s.slotAt p o.slots.1).ver.toNat
    if v != 0 then v else if o.phase == 1 then s.firstVersion p o else 0

/-- The descriptor that a RUN uses for a handle, where the stash has one of version `m` (R250). -/
def State.servedDesc (s : State) (p m h : Nat) : Option Desc :=
  let d := s.descOf p h
  if m = 0 || dVersion d = 0 || dVersion d = m then some d
  else match Tbl.find (s.sched p).stash h with
    | some d' => if dVersion d' = m then some d' else none
    | none => none

/-- The same, the current descriptor where the stash has none. -/
def State.runDesc (s : State) (p : Nat) (o : Op) (h : Nat) : Desc := (s.servedDesc p (s.runVersion p o) h).getD (s.descOf p h)

/-- What the entry of a RUN reads and writes. -/
def State.runUses (s : State) (p : Nat) (o : Op) : Uses :=
  let e := s.entryOf p o
  let named := fun (k : Nat) => (o.bind (pPos e k), s.runDesc p o (o.bind (pPos e k)))
  usesOf (s.sched p).scales (((pUsed e).filter (pReads e)).map named) (((pUsed e).filter (pWrites e)).map named)

/-! ### The checks of a RUN, in the order of R462 -/

/-- A patch list: extent, poison, each patch (R227). -/
def State.patchStop (s : State) (n : Nat) (o : Op) : Option FaultInfo :=
  let c := field o.imm 0 7
  if c = 0 then none
  else if 64 < c then some (stopAt o 0 0x0B01)
  else firstStop [fun _ => s.blockRead n o o.addr (16 * c), fun _ =>
    if (upTo c).all fun i => (s.byteAt (o.addr + 16 * i)).toNat ≤ 63 && allZero (s.bytesAt (o.addr + 16 * i + 1) 7) then none
    else some (stopAt o 0 0x0B01)]

/-- The patches: register, value. -/
def State.patches (s : State) (o : Op) : List (Nat × U64) :=
  (upTo (field o.imm 0 7)).map fun i => ((s.byteAt (o.addr + 16 * i)).toNat, wordOf 64 (s.bytesAt (o.addr + 16 * i + 8) 8))

/-- Does a descriptor have the shape a declaration fixes (R235)? -/
def declMatches (d : Desc) (c : Decl) : Bool :=
  dFmt d == declFmt c && dRank d == declRank c && (upTo 6).all (fun i => dDim d i == declDim c i) && dTie d == declTie c

/-- One operand of the entry under R235. -/
def operandOk (s : State) (p : Nat) (o : Op) (img : List Byte) (e : PEntry) (k : Nat) : Bool :=
  let c := imgDecl img (pDecl e k)
  let h := o.bind (pPos e k)
  let aliasOk := (pUsed e).all fun j => j == k || !pReads e j || o.bind (pPos e j) != h
      || (declUse c == 3 && declUse (imgDecl img (pDecl e j)) == 3)
  o.bindEn (pPos e k) && declMatches (s.runDesc p o h) c && (declUse c < 2 || aliasOk)

/-- The states the slots of a RUN must agree in (R249). -/
def State.slotStates (s : State) (p : Nat) (o : Op) : Option U16 :=
  if !o.passes then none
  else
    let l := o.slotList.map (s.slotAt p)
    let one := match l with | a :: t => t.all fun b => b.ver == a.ver | [] => true
    let all := fun (st : BitVec 2) => l.all fun x => x.st == st
    if o.phase == 1 && l.any (fun x => x.st == 2) then some 0x0D04
    else if o.phase == 1 then (if all 0 || (all 1 && one) then none else some 0x0D03)
    else if (all 1 || all 2) && one then none
    else some 0x0D03

/-- The rooms that get a share of an entry: those of the translation; one for the MATMULs of a tie group (R234). -/
def shareRooms (s : State) (p : Nat) (g : Program) (e : PEntry) : List Nat :=
  let l := (s.roomsOf p).filter fun m => g.rooms.getLsbD m
  if pOp e = 1 && declTie (imgDecl g.image (pDecl e 4)) != 0 then l.take 1 else l

def State.runStop (s : State) (n : Nat) (o : Op) : Option FaultInfo :=
  let p := ringPart n
  let stop := fun (c : U16) => some (stopAt o 0 c)
  match (if 63 < o.prog then none else Tbl.find (s.sched p).programs o.prog) with
  | none => stop (if 63 < o.prog then 0x0B0A else 0x0B08)
  | some g =>
    let e := imgEntry g.image o.entry
    if !g.ready then stop 0x0B08
    else if hNent (hdrOf g.image) ≤ o.entry then stop 0x0B01
    else
      let written := (pUsed e).filter (pWrites e)
      let at_ := fun (k : Nat) => o.bind (pPos e k)
      firstStop [
        fun _ => s.patchStop n o,
        fun _ => o.bound.findSome? fun i => s.handleRead n o (o.bind i) (s.runDesc p o (o.bind i))
          (written.any fun k => pPos e k == i) (s.epochs p),
        fun _ => if (pUsed e).all (operandOk s p o g.image e) then none else stop 0x0B09,
        fun _ => if (o.phase == 3 || o.phase == 4) && !(pUses e 4 && dFmt (s.runDesc p o (at_ 4)) == cS16) then stop 0x0D07 else none,
        fun _ => s.classStop n o (written.map fun k => s.runDesc p o (at_ k)),
        fun _ => s.slotStop o,
        fun _ => (s.slotStates p o).map (stopAt o 0),
        fun _ => if o.bound.all fun i => (s.servedDesc p (s.runVersion p o) (o.bind i)).isSome then none else stop 0x0D05,
        fun _ => if (shareRooms s p g e).any fun m => g.lost.getLsbD m then stop 0x0406 else none]

/-! ### Dispatch of a RUN -/

/-- Solver calls of a partition in flight. -/
def State.calls (s : State) (p : Nat) : List (Nat × Op × SolveOp) :=
  (s.liveOps p).filterMap fun e => e.2.solve.map fun c => (e.1, e.2, c)
/-- Is room `m` reserved, or to be reserved, by a call in flight (R185)? -/
def State.roomReserved (s : State) (m : Nat) : Bool := (s.calls (s.ownerOfRoom m)).any fun e => e.2.2.borrows m

/-- What a RUN does to its slots (R249). -/
def runSlots (s : State) (p : Nat) (o : Op) : State :=
  if !o.passes then s
  else
    let v := BitVec.ofNat 32 (s.runVersion p o)
    each o.slotList s fun s i => s.updSched p fun q =>
      let x := Tbl.get ({} : Slot) q.slots i
      let x := match o.phase with
        | 1 => { x with st := 1, ver := if x.ver = 0 then v else x.ver }
        | 2 => x
        | _ => { x with st := 2 }
      { q with slots := Tbl.set q.slots i x }

/-- RUN: slots, descriptors and scale registers as they stand, one share per room. -/
def startRun (s : State) (n : Nat) (o : Op) : State × Op :=
  let p := ringPart n
  match s.programOf p o with
  | none => (s, o)
  | some g =>
    let e := imgEntry g.image o.entry
    let ds := o.bound.map fun i => (i, s.runDesc p o (o.bind i))
    let outs := ((pUsed e).filter (pWrites e)).map fun k => s.runDesc p o (o.bind (pPos e k))
    let shares := (shareRooms s p g e).map fun m => ({ room := m, limit := (s.sched p).defer.toNat } : Share)
    let o' := { o with program := some g, descs := ds.foldl (fun t d => Tbl.set t d.1 d.2) [],
                       scales := (s.sched p).scales, convs := (outs.filter gathers).map dScaleReg, shares := shares }
    (runSlots (touch s o.addr (16 * field o.imm 0 7)) p o, o')

def prepRun (s : State) (n : Nat) (o : Op) : Op :=
  let o := { o with slots := (o.sfirst, o.scount) }
  { o with uses := s.runUses (ringPart n) o }

/-- RUN (R227, R462). -/
def execRun (ring : BitVec 6) (s : State) : Out :=
  dispatchHead ring.toNat (wantOpc 0x12)
    { prep := prepRun
      names := fun _ _ o => o.bound.map o.bind
      wait := fun s n o => match s.programOf (ringPart n) o with
        | some g => (shareRooms s (ringPart n) g (imgEntry g.image o.entry)).any s.roomReserved
        | none => false
      check := fun s n o => (s.runStop n o).map fun f =>
        { f with prog := BitVec.ofNat 16 o.prog, entry := BitVec.ofNat 16 o.entry }
      go := startRun } s

end Sys2Proof.Machine
end

