-- ==== Sys2Proof/Machine/RoomOps.lean ====
section
/-! DEFINITION. Rooms: their memories, the scoreboard, the share that runs, and the faults of room words (03_stations_and_streams R61,
R62; 09_room_instruction_words R202, R203, R225; 11_training_support R243, R244). -/

namespace Sys2Proof.Machine

/-! ### Byte memories of a room -/

def larderSize : Nat := 1572864
def regionSize : Nat := 24576

def memBytes (m : Mem) (a n : Nat) : List Byte := (countUp a n).map fun x => m.read zeroByte x
def memPut (m : Mem) (a : Nat) (bs : List Byte) : Mem :=
  (bs.zipIdx).foldl (fun m e => m.write zeroByte (a + e.2) e.1) m

/-- 64-byte sectors that `[a, a + n)` meets. -/
def sectorsOf (a n : Nat) : List Nat := if n = 0 then [] else countUp (a / 64) ((a + n - 1) / 64 - a / 64 + 1)

def anyPoison (l : List Nat) (a n : Nat) : Bool := (sectorsOf a n).any l.contains

/-- Poison marks after a run of elements of `e` bytes is written from `a` up: a sector that receives a poisoned element is marked,
one wholly overwritten with clean ones loses its mark (R311). -/
def markRun (l : List Nat) (a e : Nat) (ps : List Bool) : List Nat :=
  let n := e * ps.length
  (sectorsOf a n).foldl (fun l k =>
    let lo := (64 * k - a) / e
    let hi := (64 * k + 63 - a) / e
    if ((ps.drop lo).take (hi + 1 - lo)).any id then insertNat k l
    else if a ≤ 64 * k && 64 * k + 64 ≤ a + n then l.filter (· != k)
    else l) l

/-- A run of equal-sized elements, as numbers with marks, written to the larder. -/
def Room.putLarder (r : Room) (a e : Nat) (vs : List (Nat × Bool)) : Room :=
  { r with larder := memPut r.larder a ((vs.map fun v => leBytes e v.1).flatten),
           larderPoison := markRun r.larderPoison a e (vs.map (·.2)) }

/-- An element of the larder. -/
def Room.larderElem (r : Room) (a e : Nat) : Nat × Bool := (ofLe (memBytes r.larder a e), anyPoison r.larderPoison a e)

/-- Regions of the larder that `[a, a + n)` touches. -/
def regionsOf (a n : Nat) : List Nat :=
  if n = 0 then [] else countUp (a / regionSize) ((a + n - 1) / regionSize - a / regionSize + 1)

/-! ### Registers -/

def Room.x_ (r : Room) (i : Nat) : U64 := Tbl.get 0 r.x i
def Room.p_ (r : Room) (i : Nat) : U64 := Tbl.get 0 r.p i
def Room.v_ (r : Room) (i : Nat) : BitVec 128 := Tbl.get 0 r.v i
def Room.binding (r : Room) (i : Nat) : Binding := Tbl.get {} r.db i

/-- LOOP3 to LOOP0 of a first-fault record: INDEX[15:0] of each level, level 0 in the low bits (R210). -/
def Room.loopWord (r : Room) : U64 :=
  (r.loops.zipIdx).foldl (fun (w : U64) e => putField w (16 * e.2) 16 e.1.index) 0

/-! ### The scoreboard (R61, R62): identifiers 0 to 63 larder regions, 64 up accumulator positions, 128 up
transposing-buffer slots -/

def posId (p : Nat) : Nat := 64 + p
def tbId (t : Nat) : Nat := 128 + t

def Room.reading (r : Room) (i : Nat) : Nat := Tbl.get 0 r.readers i
def Room.writing (r : Room) (i : Nat) : Nat := Tbl.get 0 r.writers i

def bump (t : Tbl Nat) (l : List Nat) : Tbl Nat := l.foldl (fun t i => Tbl.set t i (Tbl.get 0 t i + 1)) t
def drop_ (t : Tbl Nat) (l : List Nat) : Tbl Nat := l.foldl (fun t i => Tbl.set t i (Tbl.get 0 t i - 1)) t

/-- Must the reads, or the writes, of a word wait? A count holds at most 15 reads, those of the word among them (DEDUCED, log 64). -/
def Room.readWaits (r : Room) (l : List Nat) : Bool := l.any fun i => r.writing i == 1 || 15 < r.reading i + l.count i
def Room.writeWaits (r : Room) (l : List Nat) : Bool := l.any fun i => r.writing i == 1 || 0 < r.reading i

/-- Registers the accesses of an operation, a chained one's write excepted (R113). -/
def Room.register (r : Room) (o : Pend) : Room :=
  { r with readers := bump r.readers o.reads, writers := if o.chain then r.writers else bump r.writers o.writes }

/-- An operation's writes wait for every read registered before them but its own (R62). -/
def Room.mayWrite (r : Room) (o : Pend) : Bool :=
  o.writes.all fun i => r.reading i - (o.reads.filter (· == i)).length == 0

/-- Short-vector stores whose regions nobody reads any longer are done. -/
def Room.settleVst (r : Room) : Room :=
  r.vstQ.foldl (fun (r : Room) e =>
    let l := regionsOf e.1 e.2.1.length
    if l.any fun i => 0 < r.reading i then r
    else
      let r := r.putLarder e.1 1 (e.2.1.map fun b => (b.toNat, e.2.2))
      { r with vstQ := r.vstQ.filter (· != e), writers := drop_ r.writers l }) r

/-- Releases the accesses of an operation; `keep` says that the next one extends its write. -/
def Room.release (r : Room) (o : Pend) (keep : Bool) : Room :=
  Room.settleVst { r with readers := drop_ r.readers o.reads, writers := if keep then r.writers else drop_ r.writers o.writes }

/-! ### The share that runs -/

/-- The macro-operation whose share a room runs. -/
def State.roomOp (s : State) (n : Nat) : Option (Nat × Op) :=
  match (s.room n).run with
  | some (k, q) => (s.opAt k q).map fun o => (k, o)
  | none => none

/-- May operations of a room go on: it is in service, not being zeroed, its die clocked. -/
def State.roomLive (s : State) (n : Nat) : Bool :=
  s.up && s.ident.roomsPresent.getLsbD n && !(s.room n).zeroing && s.ownerOfRoom n < s.mode.count

/-- May a room issue words: its share's macro-operation is in flight, no stop has been requested, debug access has not halted
it (R212, R459). -/
def State.roomIssues (s : State) (n : Nat) : Bool :=
  s.roomLive n && (s.room n).active && !(s.room n).halted &&
    match s.roomOp n with
    | some (k, o) => o.live && !(s.ring k).stopReq
    | none => false

/-- May what a room has issued go on: the macro-operation it runs a share of is in flight. -/
def State.roomWorks (s : State) (n : Nat) : Bool :=
  s.roomLive n && match s.roomOp n with
    | some (_, o) => o.live
    | none => false

/-- Every queue of a room is empty. -/
def Room.quiet (r : Room) : Bool :=
  r.matQ.isEmpty && r.vecQ.isEmpty && r.rowQ.isEmpty && r.loadQ.isEmpty && r.storeQ.isEmpty && r.sigQ.isEmpty

/-- The descriptor set and scale registers a room's macro-operation was dispatched with. -/
def State.roomScales (s : State) (n : Nat) : Tbl ScaleReg := match s.roomOp n with | some (_, o) => o.scales | none => []

/-- The stores of a room's macro-operation (R68, R219). -/
def State.roomStores (s : State) (n : Nat) (f : State → State) : State :=
  match s.roomOp n with
  | some (k, o) => endStore (f (beginStore s k o.orig)) (ringPart k)
  | none => f s

/-- Flags raised through the handle bound at position `b` (R57). -/
def raiseThrough (s : State) (n b : Nat) (f : Flags) : State :=
  match s.roomOp n with
  | some (k, o) => s.updOp k o.orig fun o =>
      let h := o.bind b
      { o.raise f with dexc := Tbl.set o.dexc h (Tbl.get 0 o.dexc h ||| f) }
  | none => s

/-! ### Shares (R243, R244) -/

/-- Handles through which an entry writes. -/
def State.outHandles (s : State) (p : Nat) (o : Op) : List Nat :=
  let e := s.entryOf p o
  ((pUsed e).filter (pWrites e)).map fun k => o.bind (pPos e k)

/-- A gather register loaded from a binding (R142). -/
def gatherReg (d : Desc) : BitVec 160 :=
  if dRank d != 1 then 0
  else
    let w : BitVec 160 := 0
    let w := putField w 128 32 (dDim d 0)
    let w := putBits w 80 (bits d 256 48)
    let w := putField w 76 4 (dFmt d)
    let w := putField w 75 1 1
    putField w 0 48 (dBase d)

/-- A room as it stands when a block starts: parameters patched, bindings and gather registers loaded, flags, maxima and records
cleared (R203, R208, R211, R213, R124, R131, R140, R142). -/
def Room.begin (r : Room) (o : Op) (patches : List (Nat × U64)) (start : Nat) (key : Nat × Nat) : Room :=
  let dbs : Tbl Binding := o.bound.foldl (fun t i => match Tbl.find o.descs i with
    | some d => Tbl.set t i { valid := true, desc := d }
    | none => t) []
  { r with run := some key, active := true, pc := start, loops := [],
           p := patches.foldl (fun t e => Tbl.set t e.1 e.2) r.p,
           db := dbs, gd := (upTo 4).foldl (fun t i => Tbl.set t i (gatherReg (Tbl.get ({} : Binding) dbs i).desc)) [],
           sflags := 0, vflags := 0, ffMat := 0, ffVec := 0, cmax := 0, cmaxe := none, cfmt := none, covf := false }

/-- The maxima of a room folded into the registers of the destinations, with the format and the overflow of its conversions (R90, R92,
R131). -/
def foldMax (s : State) (p : Nat) (o : Op) (r : Room) : State :=
  each o.convs s fun s i => s.updSched p fun q =>
    let g := Tbl.get ({} : ScaleReg) q.scales i
    let me := match r.cmaxe with
      | some e => if g.maxe = 0x8000 || g.maxe.toInt < e then ofInt 16 e else g.maxe
      | none => g.maxe
    { q with scales := Tbl.set q.scales i { g with max := BitVec.ofNat 32 (fMax fF32 g.max.toNat r.cmax).1, maxe := me, tfmt := r.cfmt.getD g.tfmt, ovf := g.ovf || r.covf } }

/-- SHARE_COMPLETE: the block has ended and nothing of it is outstanding, or the entry has been computed as a whole. Its flag
words reach the destinations; the last share makes the macro-operation's effect whole. -/
def execShareComplete (room : BitVec 7) (s : State) : Out :=
  let n := room.toNat
  match s.roomOp n with
  | some (k, o) =>
    let r := s.room n
    act (s.roomLive n && o.live && ((!r.active && r.quiet) || o.computed)) s fun s =>
      let p := ringPart k
      let f := r.vflags ||| r.sflags
      let s := if o.computed then s else foldMax s p o r
      let s := s.updRoom n fun r => r.dropped
      let hs := s.outHandles p o
      s.updOp k o.orig fun q =>
        let q := { q.raise f with dexc := if f = 0 then q.dexc else hs.foldl (fun t h => Tbl.set t h (Tbl.get 0 t h ||| f)) q.dexc }
        let sh := q.shares.map fun h => if h.room = n then { h with ended := true } else h
        { q with shares := sh, work := sh.all (·.ended) }
  | none => .next s

end Sys2Proof.Machine
end

