-- ==== Sys2Proof/Machine/Hearth.lean ====
section
/-! DEFINITION. The scalar slot of a room word (09_room_instruction_words R204 to R210, R223, R224): its fields, its checks and what
it does. -/

namespace Sys2Proof.Machine

/-! ### Fields (R204) -/

abbrev SSlot := BitVec 48

def scOpc (w : SSlot) : Nat := field w 40 8
def scD (w : SSlot) : Nat := field w 34 6
def scA (w : SSlot) : Nat := field w 28 6
def scB (w : SSlot) : Nat := field w 22 6
def scC (w : SSlot) : Nat := field w 16 6
def scRm (w : SSlot) : Nat := field w 14 2
def scG (w : SSlot) : Nat := field w 12 2
def scW (w : SSlot) : Bool := flag w 11
def scImm (w : SSlot) : Nat := field w 0 11
def scImm22 (w : SSlot) : Nat := field w 0 22

/-- The kind of register an operand field names. -/
inductive Reg where
  | x | p | v | mp | wg | rp | ts | db | lvl
deriving DecidableEq, Repr

/-- Registers of a kind. -/
def Reg.count : Reg → Nat
  | .x => 32 | .p => 64 | .v => 64 | .mp => 16 | .wg => 8 | .rp => 8 | .ts => 8 | .db => 16 | .lvl => 4

/-- What an operation uses: D, A, B, C, and whether RM, G, W, IMM (R205, R206). -/
structure ScalarForm where
  d : Option Reg := none
  a : Option Reg := none
  b : Option Reg := none
  c : Option Reg := none
  rm : Bool := false
  g : Bool := false
  w : Bool := false
  imm : Bool := false
  imm22 : Bool := false
deriving DecidableEq, Repr

/-- The operations of R205. -/
def scalarForm (opc : Nat) : Option ScalarForm :=
  let arith2 : ScalarForm := { d := some .x, a := some .x, b := some .x, rm := true, w := true }
  let arith1 : ScalarForm := { d := some .x, a := some .x, rm := true, w := true }
  let vec2 : ScalarForm := { d := some .v, a := some .v, b := some .v, rm := true, g := true, w := true }
  if opc = 0 then some {}
  else if opc ≤ 0x0B then some { d := some .x, a := some .x, b := some .x }
  else if opc = 0x0C || opc = 0x0E || opc = 0x0F then some { d := some .x, a := some .x, imm22 := true }
  else if opc = 0x0D then some { d := some .x, imm22 := true }
  else if opc = 0x10 then some { d := some .x, a := some .p }
  else if opc = 0x11 then some { d := some .x, a := some .lvl }
  else if 0x18 ≤ opc && opc ≤ 0x1B then some { a := some .x, b := some .x, imm := true }
  else if opc = 0x1C then some { imm := true }
  else if opc = 0x1D then some { a := some .x, imm := true }
  else if opc = 0x20 then some { d := some .mp, a := some .x }
  else if opc = 0x21 then some { d := some .wg, a := some .v }
  else if opc = 0x22 then some { d := some .rp, a := some .v }
  else if opc = 0x23 then some { d := some .ts, a := some .x }
  else if opc = 0x24 then some { d := some .db, a := some .x }
  else if 0x28 ≤ opc && opc ≤ 0x2B then some arith2
  else if opc = 0x2C then some arith1
  else if opc = 0x2D then some { arith2 with c := some .x }
  else if 0x2E ≤ opc && opc ≤ 0x31 then some arith2
  else if 0x32 ≤ opc && opc ≤ 0x34 then some arith1
  else if opc = 0x40 then some { d := some .v, a := some .x, g := true, imm := true }
  else if opc = 0x41 then some { a := some .x, b := some .v, g := true, imm := true }
  else if opc = 0x42 then some { d := some .v, a := some .x, w := true, imm := true }
  else if opc = 0x43 then some { d := some .x, a := some .v, w := true, imm := true }
  else if 0x44 ≤ opc && opc ≤ 0x46 then some vec2
  else if opc = 0x47 then some { vec2 with c := some .v }
  else if opc = 0x48 || opc = 0x49 then some vec2
  else if opc = 0x4A || opc = 0x4B then some { vec2 with c := some .v }
  else none

/-- Is a register field within its kind, and a group aligned (R205, R223)? -/
def regOk (f : ScalarForm) (g : Nat) (r : Option Reg) (v : Nat) : Bool :=
  match r with
  | none => v == 0
  | some .v => v < 64 && (!f.g || v % 2 ^ g == 0)
  | some k => v < k.count

/-- Byte address of VLDV and VSTV. -/
def vldvAddr (r : Room) (w : SSlot) : Nat := field (r.x_ (scA w)) 0 21 + 16 * scImm w
def groupBytes (w : SSlot) : Nat := 16 * 2 ^ scG w

/-- The cause a scalar slot faults with (R225). -/
def scalarStop (r : Room) (w : SSlot) : Option U16 :=
  match scalarForm (scOpc w) with
  | none => some 0x0401
  | some f =>
    let g := scG w
    let lane := scOpc w == 0x42 || scOpc w == 0x43
    let fieldsOk := if f.imm22 then regOk f g f.b (scB w)
      else regOk f g f.b (scB w) && regOk f g f.c (scC w) && (f.rm || scRm w == 0) && (f.g || g == 0) && (f.w || !scW w)
        && (f.imm || scImm w == 0) && (!lane || scImm w < if scW w then 2 else 4)
    if g = 3 && f.g || !fieldsOk || !regOk f g f.d (scD w) || !regOk f g f.a (scA w)
        || (f.imm22 && f.a.isNone && scA w != 0) then some 0x0401
    else if scOpc w = 0x1D then
      let e := scImm w
      let outer := match r.loops.getLast? with | some l => l.last | none => 2047
      if e ≤ r.pc || outer < e || 4 ≤ r.loops.length then some 0x0402 else none
    else if scOpc w = 0x40 || scOpc w = 0x41 then
      let a := vldvAddr r w
      if a % groupBytes w != 0 || larderSize < a + groupBytes w then some 0x0403 else none
    else none

/-- X and V registers that an operation reads or writes, as the interlock sees them (R207). -/
def scalarRegs (w : SSlot) : List Nat × List Nat :=
  match scalarForm (scOpc w) with
  | none => ([], [])
  | some f =>
    let all := [(f.d, scD w), (f.a, scA w), (f.b, scB w), (f.c, scC w)]
    let grp := fun (v : Nat) => if f.g then countUp v (2 ^ scG w) else [v]
    (all.filterMap (fun e => if e.1 = some .x then some e.2 else none),
      (all.map fun e => if e.1 = some .v then grp e.2 else []).flatten)

/-- Words until a result is ready (R207). -/
def scalarLatency (w : SSlot) : Nat :=
  let c := scOpc w
  if c < 0x28 then 1
  else if c = 0x2B || c = 0x2C then 8
  else if c < 0x44 then 2
  else if scG w = 2 then 3 else 2

/-! ### Arithmetic (R206, R224) -/

def widthFmt (w : SSlot) : Fmt := if scW w then fF64 else fF32
def lowBits (w : SSlot) (v : U64) : Nat := if scW w then v.toNat else v.toNat % 2 ^ 32

/-- Operations 0x28 to 0x34 on bit patterns: the result with its flags. -/
def scalarArith (w : SSlot) (a b c : U64) : Nat × Flags :=
  let f := widthFmt w
  let rm := rmOf (scRm w)
  let x := lowBits w a
  let y := lowBits w b
  let z := lowBits w c
  match scOpc w with
  | 0x28 => fAdd f rm x y
  | 0x29 => fSub f rm x y
  | 0x2A => fMul f rm x y
  | 0x2B => fDiv f rm x y
  | 0x2C => fSqrt f rm x
  | 0x2D => fFma f rm x y z
  | 0x2E => fMin f x y
  | 0x2F => fMax f x y
  | 0x30 => let r := fLt f x y; (bnat r.1, r.2)
  | 0x31 => let r := fEq f x y; (bnat r.1, r.2)
  | 0x32 => if scW w then fConvert fF32 fF64 rm 0 (a.toNat % 2 ^ 32) else fConvert fF64 fF32 rm 0 a.toNat
  | 0x33 => packNum f rm (intNum (signed 32 (a.toNat % 2 ^ 32)))
  | _ => numToI32 rm (decodeNum f x)

/-- A V group as its lanes, lane 0 first. -/
def Room.lanes (r : Room) (w : SSlot) (v : Nat) : List Nat :=
  let all := (countUp v (2 ^ scG w)).foldl (fun (a : Nat × Nat) i => (a.1 + (r.v_ i).toNat * 2 ^ (128 * a.2), a.2 + 1)) (0, 0)
  let e := if scW w then 64 else 32
  (upTo (128 * 2 ^ scG w / e)).map fun i => all.1 / 2 ^ (e * i) % 2 ^ e

/-- Lanes back into the registers of a group. -/
def fromLanes (w : SSlot) (l : List Nat) : List (BitVec 128) :=
  let e := if scW w then 64 else 32
  let k := 128 / e
  (upTo (2 ^ scG w)).map fun j =>
    BitVec.ofNat 128 (((l.drop (k * j)).take k).zipIdx.foldl (fun a x => a + x.1 * 2 ^ (e * x.2)) 0)

/-- One component of a complex operation: exact sum of its terms, one rounding (R224). The operands stand in the order in which a
NaN among them is looked for. -/
def complexPart (f : Fmt) (rm : Rm) (ops : List Num) (terms : List Term) : Nat × Flags :=
  let has := fun (neg : Bool) => terms.any fun t => match t with | .inf n => n == neg | _ => false
  let bad := (terms.any fun t => match t with | .nan true => true | _ => false) || (has true && has false)
  match ops.find? isNan with
  | some x => (packNan f x, if bad || ops.any sigNan then fInvalid else 0)
  | none =>
    let (x, inv) := sumTerms terms
    match x with
    | .nan .. => (f.qnan, if inv then fInvalid else 0)
    | .inf n => (f.inf n, 0)
    | .fin n m e => if m = 0 then (f.zero (n || rm == .rtn), 0)
                    else roundPack f rm n m e

def negTerm : Term → Term
  | .nan i => .nan i
  | .inf n => .inf (!n)
  | .fin n m e => .fin (!n) m e

def numTerm : Num → Term
  | .nan n x w => .nan (sigNan (.nan n x w))
  | .inf n => .inf n
  | .fin n m e => .fin n m e

/-- Complex multiply, with the conjugate of b, with an addend (R224): pairs of lanes (DEDUCED, log 75). -/
def complexOp (f : Fmt) (rm : Rm) (conj acc : Bool) : List Nat → List Nat → List Nat → List Nat × Flags
  | ar :: ai :: as, br :: bi :: bs, cs =>
    let cr := decodeNum f (nth cs 0)
    let ci := decodeNum f (nth cs 1)
    let xr := decodeNum f ar
    let xi := decodeNum f ai
    let yr := decodeNum f br
    let yi := decodeNum f bi
    let s := fun t => if conj then negTerm t else t
    let add := fun (x : Num) (l : List Term) => if acc then numTerm x :: l else l
    let re := complexPart f rm ([xr, xi, yr, yi] ++ if acc then [cr] else [])
      (add cr [prodTerm xr yr, negTerm (s (prodTerm xi yi))])
    let im := complexPart f rm ([xr, xi, yr, yi] ++ if acc then [ci] else [])
      (add ci [s (prodTerm xr yi), prodTerm xi yr])
    let (t, g) := complexOp f rm conj acc as bs (cs.drop 2)
    (re.1 :: im.1 :: t, re.2 ||| im.2 ||| g)
  | _, _, _ => ([], 0)

/-- Lanewise operations 0x44 to 0x4B. -/
def vectorArith (w : SSlot) (a b c : List Nat) : List Nat × Flags :=
  let f := widthFmt w
  let rm := rmOf (scRm w)
  let map2 := fun (g : Nat → Nat → Nat × Flags) =>
    ((a.zip b).map fun e => (g e.1 e.2).1, (a.zip b).foldl (fun (z : Flags) e => z ||| (g e.1 e.2).2) 0)
  match scOpc w with
  | 0x44 => map2 (fAdd f rm)
  | 0x45 => map2 (fSub f rm)
  | 0x46 => map2 (fMul f rm)
  | 0x47 =>
    let l := (a.zip (b.zip c)).map fun e => fFma f rm e.1 e.2.1 e.2.2
    (l.map (·.1), l.foldl (fun (z : Flags) e => z ||| e.2) 0)
  | 0x48 => complexOp f rm false false a b c
  | 0x49 => complexOp f rm true false a b c
  | 0x4A => complexOp f rm false true a b c
  | _ => complexOp f rm true true a b c

/-- Integer operations on 64 bits (R205). -/
def scalarInt (opc : Nat) (a b : U64) : U64 :=
  match opc with
  | 0x01 => a + b
  | 0x02 => a - b
  | 0x03 => a &&& b
  | 0x04 => a ||| b
  | 0x05 => a ^^^ b
  | 0x06 => a <<< (b.toNat % 64)
  | 0x07 => a >>> (b.toNat % 64)
  | 0x08 => a.sshiftRight (b.toNat % 64)
  | 0x09 => a * b
  | 0x0A => if a.slt b then 1 else 0
  | _ => if a.ult b then 1 else 0

/-! ### Effect -/

def Room.setX (r : Room) (w : SSlot) (v : U64) (po : Bool) : Room :=
  let d := scD w
  { r with x := Tbl.set r.x d v, xReady := Tbl.set r.xReady d (r.issued + scalarLatency w),
           xPoison := if po then insertNat d r.xPoison else r.xPoison.filter (· != d) }

def Room.setVs (r : Room) (w : SSlot) (d : Nat) (l : List (BitVec 128)) (po : Bool) : Room :=
  (l.zipIdx).foldl (fun (r : Room) e =>
    let i := d + e.2
    { r with v := Tbl.set r.v i e.1, vReady := Tbl.set r.vReady i (r.issued + scalarLatency w),
             vPoison := if po then insertNat i r.vPoison else r.vPoison.filter (· != i) }) r

def Room.noteFlags (r : Room) (f : Flags) : Room := { r with sflags := r.sflags ||| (f &&& 0x3F) }

/-- Where the loops leave the PC after the word at the present PC (R210): the innermost loop that ends here is considered first. -/
def loopBack : Nat → Room → Room
  | 0, r => r
  | k + 1, r =>
    match r.loops.getLast? with
    | some l =>
      if l.last = r.pc then
        if 1 < l.remain then
          { r with pc := l.start, loops := r.loops.dropLast ++ [{ l with remain := l.remain - 1, index := l.index + 1 }] }
        else loopBack k { r with loops := r.loops.dropLast }
      else { r with pc := r.pc + 1 }
    | none => { r with pc := r.pc + 1 }

/-- A taken branch leaves every loop whose body does not hold its target (R209). -/
def branchTo (r : Room) (t : Nat) : Room :=
  let kept := r.loops.takeWhile fun l => l.start ≤ t && t ≤ l.last
  { r with pc := t, loops := kept }

/-- The next PC: branches and LOOP, else the loop returns (R209, R210). A LOOP with a count of 0 goes to the word after its last
one, whatever loop encloses it. `x` is the room before the word. -/
def nextPc (x r : Room) (w : SSlot) : Room :=
  let a := x.x_ (scA w)
  let b := x.x_ (scB w)
  let taken := match scOpc w with
    | 0x18 => a == b
    | 0x19 => a != b
    | 0x1A => a.slt b
    | 0x1B => !a.slt b
    | 0x1C => true
    | _ => false
  if taken then branchTo r (scImm w)
  else if scOpc w = 0x1D then
    let c := field a 0 32
    if c = 0 then { r with pc := scImm w + 1 }
    else { r with pc := r.pc + 1, loops := r.loops ++ [{ start := r.pc + 1, last := scImm w, remain := c, index := 0 }] }
  else loopBack 5 r

/-- What the scalar slot writes; `x` is the room before the word (R201). VSTV holds its write behind reads of the same word. -/
def scalarEffect (x r : Room) (w : SSlot) : Room :=
  let a := x.x_ (scA w)
  let b := x.x_ (scB w)
  let po2 := fun (l : List Nat) => l.any x.xPoison.contains
  let opc := scOpc w
  if opc = 0 then r
  else if opc ≤ 0x0B then r.setX w (scalarInt opc a b) (po2 [scA w, scB w])
  else if opc = 0x0C then r.setX w (a + ofInt 64 (signed 22 (scImm22 w))) (po2 [scA w])
  else if opc = 0x0D then r.setX w (BitVec.ofNat 64 (scImm22 w)) false
  else if opc = 0x0E then r.setX w (a ||| BitVec.ofNat 64 (scImm22 w * 2 ^ 22)) (po2 [scA w])
  else if opc = 0x0F then r.setX w (a ||| BitVec.ofNat 64 (scImm22 w * 2 ^ 44)) (po2 [scA w])
  else if opc = 0x10 then r.setX w (x.p_ (scA w)) false
  else if opc = 0x11 then r.setX w (BitVec.ofNat 64 (match x.loops[scA w]? with | some l => l.index | none => 0)) false
  else if opc < 0x20 then r
  else if opc = 0x20 then { r with mp := Tbl.set r.mp (scD w) a }
  else if opc = 0x21 then { r with wg := Tbl.set r.wg (scD w) (x.v_ (scA w)) }
  else if opc = 0x22 then { r with rp := Tbl.set r.rp (scD w) (x.v_ (scA w)) }
  else if opc = 0x23 then { r with ts := Tbl.set r.ts (scD w) a }
  else if opc = 0x24 then { r with db := Tbl.set r.db (scD w) { x.binding (scD w) with ofs := bits a 0 48 } }
  else if opc < 0x40 then
    let (v, f) := scalarArith w a b (x.x_ (scC w))
    let po := po2 (match scalarForm opc with
      | some g => (if g.b.isSome then [scB w] else []) ++ (if g.c.isSome then [scC w] else []) ++ [scA w]
      | none => [])
    (r.setX w (BitVec.ofNat 64 v) po).noteFlags (if po then f ||| fPoison else f)
  else if opc = 0x40 then
    let l := (upTo (2 ^ scG w)).map fun j => (wordOf 128 (memBytes x.larder (vldvAddr x w + 16 * j) 16) : BitVec 128)
    r.setVs w (scD w) l (anyPoison x.larderPoison (vldvAddr x w) (groupBytes w) || po2 [scA w])
  else if opc = 0x41 then
    let g := countUp (scB w) (2 ^ scG w)
    let e := (vldvAddr x w, (g.map fun i => bytesOf (x.v_ i)).flatten, g.any x.vPoison.contains || po2 [scA w])
    Room.settleVst { r with vstQ := r.vstQ ++ [e], writers := bump r.writers (regionsOf e.1 e.2.1.length) }
  else if opc = 0x42 then
    let e := if scW w then 64 else 32
    r.setVs w (scD w) [putBits (x.v_ (scD w)) (e * scImm w) (BitVec.ofNat e a.toNat)] (po2 [scA w] || x.vPoison.contains (scD w))
  else if opc = 0x43 then
    let e := if scW w then 64 else 32
    r.setX w (BitVec.ofNat 64 (field (x.v_ (scA w)) (e * scImm w) e)) (x.vPoison.contains (scA w))
  else
    let (l, f) := vectorArith w (x.lanes w (scA w)) (x.lanes w (scB w)) (x.lanes w (scC w))
    let three := match scalarForm opc with | some g => g.c.isSome | none => false
    let grp := fun (v : Nat) => (countUp v (2 ^ scG w)).any x.vPoison.contains
    let po := grp (scA w) || grp (scB w) || (three && grp (scC w))
    (r.setVs w (scD w) (fromLanes w l) po).noteFlags (if po then f ||| fPoison else f)

end Sys2Proof.Machine
end

