-- ==== Sys2Proof/Machine/Xfer.lean ====
section
/-! DEFINITION. The load and store slots of a room word (09_room_instruction_words R214 to R219; 05_matrix_array R119 to R121):
checks at issue, and the transfers. -/

namespace Sys2Proof.Machine

/-! ### Fields -/

abbrev XSlot := BitVec 40

def xOp (w : XSlot) : Nat := field w 37 3
def xDb (w : XSlot) : Nat := field w 33 4
def xXs (w : XSlot) : Nat := field w 28 5
def xTs (w : XSlot) : Nat := field w 25 3
def xReg (w : XSlot) : Nat := field w 19 6
def xOff (w : XSlot) : Nat := field w 12 7
def xFmt (w : XSlot) : Nat := field w 8 4
/-- TBS and WGI of a load; PART of a store. -/
def xTbs (w : XSlot) : Nat := field w 4 4
def xWgi (w : XSlot) : Nat := field w 1 3
def xPart (w : XSlot) : Nat := field w 5 3

/-- A tile-shape register (R214). -/
structure Shape where
  n0 : Nat
  n1 : Nat
  ax0 : Nat
  ax1 : Nat
  clean : Bool
deriving DecidableEq, Repr

def shapeOf (t : U64) : Shape :=
  { n1 := field t 48 16, n0 := field t 32 16, ax1 := field t 29 3, ax0 := field t 26 3, clean := field t 0 26 == 0 }

/-- What a tile transfer works on. -/
structure TileXfer where
  d : Desc
  ofs : Int
  j0 : Nat
  j1 : Nat
  sh : Shape

def tileXfer (b : Binding) (x : U64) (t : U64) : TileXfer :=
  { d := b.desc, ofs := signed 48 b.ofs.toNat, j0 := field x 0 32, j1 := field x 32 32, sh := shapeOf t }

/-- Element offset of (r, c), and whether it is clipped (R214). -/
def TileXfer.at_ (t : TileXfer) (r c : Nat) : Int :=
  t.ofs + (t.j0 + c : Nat) * dStride t.d t.sh.ax0 + (t.j1 + r : Nat) * dStride t.d t.sh.ax1

def TileXfer.clipped (t : TileXfer) (r c : Nat) : Bool :=
  dRank t.d != 0 && (dDim t.d t.sh.ax0 ≤ t.j0 + c || dDim t.d t.sh.ax1 ≤ t.j1 + r)

/-- The shape rules of R214. -/
def TileXfer.shapeOk (t : TileXfer) : Bool :=
  let h := t.sh
  h.clean && 1 ≤ h.n0 && 1 ≤ h.n1
    && (if dRank t.d = 0 then h.n0 == 1 && h.n1 == 1
        else h.ax0 < dRank t.d && h.ax1 < dRank t.d && (h.ax1 != h.ax0 || h.n1 == 1))

/-- The corners, after clipping, lie within the extent checked at dispatch. -/
def TileXfer.cornersOk (t : TileXfer) : Bool :=
  let e := dExtent t.d
  let rows := (upTo t.sh.n1).filter fun r => !t.clipped r 0
  let cols := (upTo t.sh.n0).filter fun c => !t.clipped 0 c
  match rows.getLast?, cols.getLast? with
  | some rl, some cl =>
    !dEmpty t.d && [(0, 0), (0, cl), (rl, 0), (rl, cl)].all fun q =>
      let o := t.at_ q.1 q.2
      let lo : Int := if dFmt t.d = cQ4 then (dBase t.d : Int) + 17 * (o / 32) else (dBase t.d : Int) + fmtBytes (dFmt t.d) * o
      let n : Int := if dFmt t.d = cQ4 then 17 else fmtBytes (dFmt t.d)
      e.1 ≤ lo && lo + n - 1 ≤ e.2
  | _, _ => true

/-- Positions (r, c) of a tile, rows ascending. -/
def TileXfer.cells (t : TileXfer) : List (Nat × Nat) :=
  ((upTo t.sh.n1).map fun r => (upTo t.sh.n0).map fun c => (r, c)).flatten

/-! ### The pairing of formats (R217) -/

def pairFmtOk (mem larder : Nat) (t : TileXfer) (load : Bool) : Bool :=
  if mem = cQ4 then
    (if load then larder == cP8 else larder ≤ 5) && t.sh.ax0 == 0 && t.j0 % 32 == 0 && t.sh.n0 % 32 == 0
  else if mem ≤ 5 then larder ≤ 5
  else larder == mem

def tileEnds (w : XSlot) (t : TileXfer) : Bool :=
  256 * xOff w + fmtBytes (xFmt w) * (t.sh.n0 * t.sh.n1) ≤ regionSize

/-! ### Issue checks: the cause of a load slot (R225) -/

/-- The cause of a load slot. Beyond the fields that no window register may break, an LDWIN faults with 0x0107 where the window's channels,
slots, spatial extents or rank exceed the descriptor's (DESIGN CHOICE, log 110). -/
def loadStop (r : Room) (w : XSlot) : Option U16 :=
  let b := r.binding (xDb w)
  let t := tileXfer b (r.x_ (xXs w)) (Tbl.get 0 r.ts (xTs w))
  match xOp w with
  | 0 => none
  | 1 =>
    let conv := b.valid && dFmt b.desc ≤ 6
    if flag w 0 || !b.valid || !t.shapeOk || !fmtDefined (xFmt w) || xFmt w == cQ4
        || !pairFmtOk (dFmt b.desc) (xFmt w) t true || (conv && xXs w == 31) || !tileEnds w t then some 0x0403
    else if !t.cornersOk then some 0x0404
    else none
  | 2 =>
    let g := Tbl.get (0 : BitVec 128) r.wg (xWgi w)
    let spatial := if wWalk g = 0 then 1 else 2
    if flag w 0 || xReg w != 0 || !b.valid || 5 < xFmt w || dFmt b.desc != xFmt w then some 0x0403
    else if !winOk g || dRank b.desc < wNax g + spatial || dDim b.desc 0 < wCh g || (wWalk g == 1 && dDim b.desc 1 < wSlots g)
        || !(upTo (wNax g)).all (fun i => wSize g i ≤ dDim b.desc (i + spatial)) then some 0x0107
    else none
  | 3 =>
    if flag w 0 || 5 < xFmt w || regionSize < 256 * xOff w + 1024 * fmtBytes (xFmt w) then some 0x0403
    else none
  | _ => some 0x0403

/-- What a load reads and writes of the scoreboard. -/
def loadAccess (w : XSlot) : List Nat × List Nat :=
  match xOp w with
  | 1 => ([], [xReg w])
  | 2 => ([], [tbId (xTbs w)])
  | 3 => ([xReg w], [tbId (xTbs w)])
  | _ => ([], [])

/-! ### Issue checks: a store slot -/

/-- Largest N1 and N0 of a part, and its positions (R218). -/
def partLimit (p : Nat) : Nat × Nat := if p < 4 then (16, 16) else if p < 6 then (32, 32) else (32, 8)
def partFmt (p : Nat) : Nat := if p = 5 then cF64 else if p = 7 then cI32 else cF32
def partPositions (w : XSlot) : List Nat :=
  if xPart w < 5 then [xReg w] else if xPart w = 5 then [2 * xReg w, 2 * xReg w + 1] else [xReg w + 1]

def storeStop (r : Room) (w : XSlot) : Option U16 :=
  let b := r.binding (xDb w)
  let t := tileXfer b (r.x_ (xXs w)) (Tbl.get 0 r.ts (xTs w))
  match xOp w with
  | 0 => none
  | 1 =>
    let conv := b.valid && dFmt b.desc ≤ 6
    if field w 0 5 != 0 || !b.valid || !t.shapeOk || !fmtDefined (xFmt w) || xFmt w == cQ4
        || !pairFmtOk (dFmt b.desc) (xFmt w) t false || (conv && xXs w == 31) || !tileEnds w t then some 0x0403
    else if !t.cornersOk then some 0x0404
    else none
  | 2 =>
    let lim := partLimit (xPart w)
    if field w 0 5 != 0 || !b.valid || !t.shapeOk || lim.1 < t.sh.n1 || lim.2 < t.sh.n0
        || !pairFmtOk (dFmt b.desc) (partFmt (xPart w)) t false || !(partPositions w).all (· < 64) then some 0x0403
    else if !t.cornersOk then some 0x0404
    else none
  | _ => some 0x0403

def storeAccess (w : XSlot) : List Nat × List Nat :=
  match xOp w with
  | 1 => ([xReg w], [])
  | 2 => ((partPositions w).map posId, [])
  | _ => ([], [])

/-- A store of a tagged position waits for the tag to clear (R117). -/
def storeTagged (r : Room) (w : XSlot) : Bool := xOp w == 2 && (partPositions w).any fun p => r.tags.has p

/-- Scalar registers whose marks reach what a transfer delivers: its origin, and σ where it is read (R216, R217). -/
def xferScalars (w : XSlot) (sigma : Bool) : List Nat := xXs w :: (if sigma then [xXs w + 1] else [])

/-! ### Loads -/

def sigmaOf (x : U64) : Int := signed 16 (field x 0 16)

/-- The first access of a list of element offsets that is refused. -/
def State.offsetsStop (s : State) (d : Desc) (os : List Int) : Option (Nat × U16) :=
  os.findSome? fun o => let c := cellAt d o; s.rangeStop c.1 c.2

/-- Brings the granules of elements into the atrium. -/
def touchOffsets (s : State) (d : Desc) (os : List Int) : State :=
  os.foldl (fun s o => let c := cellAt d o; touch s c.1 c.2) s

/-- One element converted for the larder: its bits and mark, and the flags raised. -/
def convertIn (s : State) (d : Desc) (o : Int) (fmt : Nat) (k : Int) : Nat × Bool × Flags :=
  if fmtFloat (dFmt d) then
    let e := (s.elemAt d o).expanded d
    let (v, f) := elemPack fmt .rne k e.x
    (v, e.po, if e.po then f ||| e.fl ||| fPoison else f ||| e.fl)
  else
    let c := cellAt d o
    (s.rawAt d o, s.poisonAt c.1 c.2, 0)

/-- LDT: the tile is converted into the larder; no lane writes through a descriptor, so the flags of the conversion go into the
completion record alone (R57, R98). -/
def loadTile (s : State) (n : Nat) (o : Pend) (w : XSlot) : State :=
  let t := tileXfer o.db o.x0 (bits o.aux 0 64)
  let scale := if fmtFloat (dFmt t.d) then scaleOf (s.roomScales n) t.d else 0
  let k := sigmaOf o.x1 - scale
  let vs := t.cells.map fun q => if t.clipped q.1 q.2 then (0, false, (0 : Flags)) else
    let v := convertIn s t.d (t.at_ q.1 q.2) (xFmt w) k
    if o.marks.isEmpty then v else (v.1, true, v.2.2 ||| fPoison)
  let os := (t.cells.filter fun q => !t.clipped q.1 q.2).map fun q => t.at_ q.1 q.2
  let s := touchOffsets s t.d os
  let s := note s n (vs.foldl (fun (f : Flags) v => f ||| v.2.2 ||| (if v.2.1 then fPoison else 0)) 0)
  s.updRoom n fun r => r.putLarder (regionSize * xReg w + 256 * xOff w) (fmtBytes (xFmt w)) (vs.map fun v => (v.1, v.2.1))
where
  /-- Flags, that of poison read among them (R415), go into the macro-operation's record. -/
  note (s : State) (n : Nat) (f : Flags) : State :=
    match s.roomOp n with
    | some (k, o) => s.updOp k o.orig fun o => o.raise f
    | none => s

def Room.putTb (r : Room) (slot e : Nat) (vs : List (Nat × Bool)) : Room :=
  { r with tb := memPut r.tb (8192 * slot) ((vs.map fun v => leBytes e v.1).flatten),
           tbPoison := markRun r.tbPoison (8192 * slot) e (vs.map (·.2)) }

/-- Indices (axis by axis, innermost first) of a number counted with the first axis fastest. -/
def windowIndex (w : BitVec 128) (o ker : List Nat) : Option (List Nat) :=
  let l := (upTo (wNax w)).map fun d => ((nth o d * wStr w d + nth ker d * wDil w d : Nat) : Int) - wPad w d
  if (l.zipIdx).all fun e => 0 ≤ e.1 && e.1 < (wSize w e.2 : Int) then some (l.map Int.toNat) else none

/-- The element a window walk reads at (row, column) of a generated tile (R121): its indices, or none where it delivers PADV. Columns
from CH up of a neighbour walk deliver PADV, and the batch index of a convolution walk is the outermost of the output positions
(DESIGN CHOICE, log 111). -/
def walkIndex (d : Desc) (w : BitVec 128) (x : U64) (r c : Nat) : Option (List Nat) :=
  if wWalk w = 0 then
    let pos := field x 0 32 + r
    let kap := field x 32 32 + c
    let outs := wOuts w
    let total := wPositions w
    let batch := if dRank d = wNax w + 2 then dDim d (wNax w + 1) else 1
    if total * batch ≤ pos || wCh w * wTaps w ≤ kap || total = 0 then none
    else
      (windowIndex w (unravel outs (pos % total)) (unravel (wKers w) (kap / wCh w))).map fun i =>
        (kap % wCh w :: i) ++ (if dRank d = wNax w + 2 then [pos / total] else [])
  else
    let centre := [field x 0 16, field x 16 16, field x 32 16]
    let cand := field x 48 16 + r
    if wSlots w * wTaps w ≤ cand || wCh w ≤ c then none
    else (windowIndex w centre (unravel (wKers w) (cand / wSlots w))).map fun i => [c, cand % wSlots w] ++ i

/-- Offsets read by an LDWIN, with their places. -/
def walkCells (o : Pend) : List (Option Int) :=
  let d := o.db.desc
  let ofs : Int := signed 48 o.db.ofs.toNat
  ((upTo 32).map fun r => (upTo 32).map fun c => (walkIndex d o.aux o.x0 r c).map fun i => ofs + offsetOf d i).flatten

/-- An element that an LDWIN would read lies outside the partition, or in its protected region: the word faults before any byte moves
(R33). OFS takes elements beyond the extent checked at dispatch (DESIGN CHOICE, log 110). -/
def State.windowStop (s : State) (n : Nat) (w : XSlot) : Option U16 :=
  let r := s.room n
  let d := (r.binding (xDb w)).desc
  let o : Pend := { slot := w.setWidth 56, x0 := r.x_ (xXs w), aux := Tbl.get 0 r.wg (xWgi w), db := r.binding (xDb w) }
  if xOp w = 2 then
    (walkCells o).findSome? fun c => c.bind fun i =>
      let lo : Int := dBase d + fmtBytes (dFmt d) * i
      s.extentStop (s.ownerOfRoom n) lo (lo + fmtBytes (dFmt d) - 1)
  else none

/-- LDWIN: the generated tile goes into a transposing-buffer slot, unconverted. -/
def loadWindow (s : State) (n : Nat) (o : Pend) (w : XSlot) : State :=
  let d := o.db.desc
  let pad := if wPadNan o.aux then elemNan (xFmt w) else 0
  let vs := (walkCells o).map fun c => match c with
    | some i => let a := cellAt d i; (s.rawAt d i, s.poisonAt a.1 a.2 || !o.marks.isEmpty)
    | none => (pad, false)
  let s := touchOffsets s d ((walkCells o).filterMap id)
  let s := if vs.any (·.2) then loadTile.note s n fPoison else s
  s.updRoom n fun r => r.putTb (xTbs w) (fmtBytes (xFmt w)) vs

/-- TRN: a larder tile is copied into a slot. -/
def transposeTile (s : State) (n : Nat) (w : XSlot) : State :=
  s.updRoom n fun r =>
    let e := fmtBytes (xFmt w)
    r.putTb (xTbs w) e ((upTo 1024).map fun i => r.larderElem (regionSize * xReg w + 256 * xOff w + e * i) e)

/-- The first access of a load that is refused. -/
def loadRefused (s : State) (o : Pend) (w : XSlot) : Option (Nat × U16) :=
  match xOp w with
  | 1 =>
    let t := tileXfer o.db o.x0 (bits o.aux 0 64)
    s.offsetsStop t.d ((t.cells.filter fun q => !t.clipped q.1 q.2).map fun q => t.at_ q.1 q.2)
  | 2 => s.offsetsStop o.db.desc ((walkCells o).filterMap id)
  | _ => none

/-! ### Stores -/

/-- The maxima of what a room's macro-operation reads (R90, R93). -/
def gatherInputs (s : State) (n : Nat) (r : ScaleReg) : ScaleReg :=
  match s.roomOp n with
  | some (_, o) =>
    let e := s.entryOf (s.ownerOfRoom n) o
    ((pUsed e).filter (pReads e)).foldl (fun (r : ScaleReg) l =>
      let d := Tbl.get (0 : Desc) o.descs (pPos e l)
      if fmtFloat (dFmt d) then
        (upTo (dCount d)).foldl (fun (r : ScaleReg) i =>
          let x := s.elem d i
          if x.po then r else r.gather (scaleOf o.scales d) x.x) r
      else r) r
  | none => r

/-- The scale a room's destination is written with; an unset register runs its pre-pass over the macro-operation's inputs (R93)
(DEDUCED, log 71). -/
def roomPrepass (s : State) (n : Nat) (d : Desc) : State × Int × Flags :=
  let p := s.ownerOfRoom n
  if !gathers d then (s, 0, 0)
  else
    let r := s.destReg p (s.roomScales n) d
    if r.set then (s, r.scale.toInt, 0)
    else
      let r := (gatherInputs s n r).endPrepass (dFmt d)
      (setScale s p (dScaleReg d) r, r.scale.toInt, fPrepass)

/-- Writes tile elements, each an exact value with its mark at scale `src`, at their offsets; 32 along axis 0 at a time where the
destination is Q4. -/
def storeCells (s : State) (n b : Nat) (d : Desc) (src : Int) (os : List Int) (vs : List (Num × Bool)) (own : Flags) : State :=
  let p := s.ownerOfRoom n
  let (s, dst, f0) := roomPrepass s n d
  let k := s.sink p d
  let k := if dFmt d = cQ4 then
      ((blocksOf32 os.length os).zip (blocksOf32 vs.length vs)).foldl (fun k e => k.block d dst src (e.1.headD 0) e.2) k
    else (os.zip vs).foldl (fun k e => k.elem d dst src .rne e.1 e.2.1 e.2.2) k
  raiseThrough (drainSink s p d k) n b (k.fl ||| f0 ||| own)

/-- The same for bits that move unchanged. -/
def storeRaw (s : State) (n b : Nat) (d : Desc) (os : List Int) (vs : List (Nat × Bool)) : State :=
  let s := (os.zip vs).foldl (fun s e => let c := cellAt d e.1; streamStore s (s.ownerOfRoom n) c.1 (leBytes c.2 e.2.1) e.2.2) s
  raiseThrough s n b (if vs.any (·.2) then fPoison else 0)

/-- Element (r, c) of an accumulator part: its bits and mark (R218). -/
def Room.partElem (r : Room) (w : XSlot) (i j : Nat) : Nat × Bool :=
  let acc := xReg w
  let a := if xPart w < 4 then 4096 * acc + 4 * (32 * (16 * (xPart w / 2) + i) + 16 * (xPart w % 2) + j)
    else if xPart w = 4 then 4096 * acc + 4 * (32 * i + j)
    else if xPart w = 5 then 8192 * acc + 8 * (32 * i + j)
    else 4096 * (acc + 1) + 64 * i + 8 * j + (if xPart w = 7 then 4 else 0)
  let e := fmtBytes (partFmt (xPart w))
  (ofLe (memBytes r.acc a e), anyPoison r.accPoison a e)

/-- Sticky flags of the part stored (R115, R116). -/
def Room.partFlags (r : Room) (w : XSlot) : Flags :=
  let get := fun (p q : Nat) => (Tbl.get 0 r.sticky (4 * p + q) : Flags)
  let p := match partPositions w with | a :: _ => a | [] => 0
  if xPart w < 4 then get p (xPart w) else get p 0 ||| get p 1 ||| get p 2 ||| get p 3

def storeTile (s : State) (n : Nat) (o : Pend) (w : XSlot) : State :=
  let t := tileXfer o.db o.x0 (bits o.aux 0 64)
  let r := s.room n
  let keep := t.cells.filter fun q => !t.clipped q.1 q.2
  let os := keep.map fun q => t.at_ q.1 q.2
  let stt := xOp w == 1
  let fmt := if stt then xFmt w else partFmt (xPart w)
  let vs := keep.map fun q =>
    let v := if stt then r.larderElem (regionSize * xReg w + 256 * xOff w + fmtBytes fmt * (t.sh.n0 * q.1 + q.2)) (fmtBytes fmt)
      else r.partElem w q.1 q.2
    (v.1, v.2 || !o.marks.isEmpty)
  let own : Flags := if stt then 0 else r.partFlags w
  if fmtFloat (dFmt t.d) then
    storeCells s n (xDb w) t.d (if stt then sigmaOf o.x1 else 0) os (vs.map fun v => (elemNum fmt v.1, v.2)) own
  else raiseThrough (storeRaw s n (xDb w) t.d os vs) n (xDb w) own

def storeRefused (s : State) (o : Pend) (w : XSlot) : Option (Nat × U16) :=
  if xOp w = 0 then none
  else
    let t := tileXfer o.db o.x0 (bits o.aux 0 64)
    s.offsetsStop t.d ((t.cells.filter fun q => !t.clipped q.1 q.2).map fun q => t.at_ q.1 q.2)

end Sys2Proof.Machine
end

