-- ==== Sys2Proof/Machine/Matrix.lean ====
section
/-! DEFINITION. The matrix array (05_matrix_array): the matrix slot, its checks, the accumulation order, distance mode and
selection lists, tie tags, and the first-fault record. -/

namespace Sys2Proof.Machine

/-! ### The slot (R102) -/

abbrev MSlot := BitVec 40

def mOp (w : MSlot) : Nat := field w 37 3
def mFmtA (w : MSlot) : Nat := field w 34 3
def mFmtB (w : MSlot) : Nat := field w 31 3
def mAptr (w : MSlot) : Nat := field w 27 4
def mBptr (w : MSlot) : Nat := field w 23 4
def mTieReg (w : MSlot) : Nat := field w 27 5
def mAcc (w : MSlot) : Nat := field w 17 6
def mZero (w : MSlot) : Bool := flag w 16
def mAinc (w : MSlot) : Bool := flag w 15
def mBinc (w : MSlot) : Bool := flag w 14
def mDop (w : MSlot) : Bool := flag w 13
def mKsel (w : MSlot) : Nat := field w 9 4
def mFin (w : MSlot) : Bool := flag w 8
def mSinit (w : MSlot) : Bool := flag w 7
def mQuad (w : MSlot) : Bool := mOp w == 2
/-- The accumulator is F64 when the operands are (R104). -/
def mF64 (w : MSlot) : Bool := mFmtA w == cF64

/-! ### Pointers (R105, R106) -/

def ptMask (p : U64) : U32 := bits p 32 32
def ptKvalid (p : U64) : Nat := field p 26 6
def ptTrans (p : U64) : Bool := flag p 25
def ptTb (p : U64) : Bool := flag p 24
def ptRegion (p : U64) : Nat := field p 18 6
def ptOffset (p : U64) : Nat := field p 11 7

/-- Pointer registers of operand A, or B: one, or four in quadrant mode. -/
def ptrRegs (w : MSlot) (b : Bool) : List Nat :=
  let f := if b then mBptr w else mAptr w
  if mQuad w then (upTo 4).map fun q => (f + q) % 16 else [f]

/-- Size of an operand in bytes. -/
def operandBytes (w : MSlot) (b : Bool) : Nat := (if mQuad w then 512 else 1024) * fmtBytes (if b then mFmtB w else mFmtA w)

/-- The pointer checks of R125 (cause 0x0102). -/
def pointerOk (w : MSlot) (b : Bool) (p : U64) : Bool :=
  field p 0 11 == 0 && 1 ≤ ptKvalid p && ptKvalid p ≤ 32 && (!mQuad w || bits (ptMask p) 16 16 == 0)
    && (if ptTb p then ptRegion p < 16 && ptOffset p < (if mQuad w then 4 else 1)
        else !ptTrans p && 256 * ptOffset p + operandBytes w b ≤ regionSize)

/-! ### What an instruction touches -/

/-- Accumulator positions written (R115). -/
def matPositions (w : MSlot) : List Nat :=
  let a := mAcc w
  match mOp w with
  | 1 | 2 => if mF64 w then [2 * a, 2 * a + 1] else [a]
  | 3 => [a, a + 1]
  | 4 => [a]
  | _ => []

def ptrId (p : U64) : Nat := if ptTb p then tbId (ptRegion p) else ptRegion p

/-- Regions and slots read, positions written. -/
def matAccess (r : Room) (w : MSlot) : List Nat × List Nat :=
  if mOp w = 0 then ([], [])
  else if mOp w = 4 then ([], (matPositions w).map posId)
  else (((ptrRegs w false ++ ptrRegs w true).map fun i => ptrId (Tbl.get 0 r.mp i)).eraseDups, (matPositions w).map posId)

/-- Is this the instruction that chains to `last` (R113)? -/
def matChains (w last : MSlot) : Bool :=
  1 ≤ mOp w && mOp w ≤ 4 && mOp w == mOp last && mFmtA w == mFmtA last && mFmtB w == mFmtB last && mAcc w == mAcc last && !mZero w

/-! ### Issue checks (R125) -/

/-- The cause of a matrix slot. Where several checks fail it is that of the first in this order: 0x0108, 0x0105, 0x0101, 0x0102, 0x0103,
0x0104, 0x0106; a DIST whose formats pair for MMA but not for it reports 0x0106; a DIST with ZERO = 1 meets a tag of either of its
positions (DESIGN CHOICE, log 106). -/
def matrixStop (r : Room) (w : MSlot) : Option U16 :=
  let op := mOp w
  let ptr := fun (i : Nat) => Tbl.get (0 : U64) r.mp i
  let dist0 := !mDop w && mKsel w == 0 && !mFin w && !mSinit w
  if op = 0 then (if dist0 then none else some 0x0108)
  else if 4 < op || field w 0 7 != 0 || (op != 3 && !dist0) then some 0x0108
  else if op = 4 then
    if mFmtA w != 0 || field w 32 2 != 0 || mBptr w != 0 || mZero w || mAinc w || mBinc w then some 0x0108
    else
      let x := r.x_ (mTieReg w)
      let g := field x 0 16
      let u := field x 16 16
      match Tbl.find r.tags (mAcc w) with
      | none => if u = 0 then some 0x0105 else none
      | some t => if t.1 = g && u = 0 then none else some 0x0105
  else if 5 < mFmtA w || 5 < mFmtB w || !pairOk (mFmtA w) (mFmtB w) then some 0x0101
  else
    let pa := (ptrRegs w false).map ptr
    let pb := (ptrRegs w true).map ptr
    if !pa.all (pointerOk w false) || !pb.all (pointerOk w true)
        || !(pa.zip pb).all (fun e => ptKvalid e.1 == ptKvalid e.2) then some 0x0102
    else if (op != 3 && mF64 w && 32 ≤ mAcc w) || (op == 3 && mAcc w % 2 == 1) then some 0x0103
    else if mZero w && (matPositions w).any fun p => r.tags.has p then some 0x0104
    else if op = 3 && (!((mFmtA w == cF32 && mFmtB w == cF32) || (mFmtA w == cS16 && mFmtB w == cS16)) || mKsel w < 1 || 8 < mKsel w)
      then some 0x0106
    else none

/-! ### Operand elements -/

/-- Element (x, y) of an operand: bits and mark (R106). Indices beyond 31 of a quadrant operand in a transposing-buffer slot read on in
the order of the slot's bytes (DESIGN CHOICE, log 107). -/
def Room.operand (r : Room) (w : MSlot) (b : Bool) (p : U64) (x y : Nat) : Nat × Bool :=
  let e := fmtBytes (if b then mFmtB w else mFmtA w)
  if ptTb p then
    let r0 := 16 * (ptOffset p / 2)
    let c0 := 16 * (ptOffset p % 2)
    let i := if ptTrans p then 32 * (y + r0) + (x + c0) else 32 * (x + r0) + (y + c0)
    let a := 8192 * ptRegion p + e * i
    (ofLe (memBytes r.tb a e), anyPoison r.tbPoison a e)
  else
    let width := if b && mQuad w then 16 else 32
    let a := regionSize * ptRegion p + 256 * ptOffset p + e * (width * x + y)
    (ofLe (memBytes r.larder a e), anyPoison r.larderPoison a e)

/-! ### One output element (R107, R108) -/

/-- A group's event for the first-fault record: kind, K index (R124). -/
def groupEvent (g : Nat) (ts : List Term) (f : Flags) : Option (Nat × Nat) :=
  let inv := ts.any fun t => match t with | .nan i => i | _ => false
  let p := ts.any fun t => match t with | .inf n => !n | _ => false
  let m := ts.any fun t => match t with | .inf n => n | _ => false
  if inv || (p && m) then
    let bad := (ts.zipIdx).find? fun e => match e.1 with | .nan _ => true | .inf _ => p && m | _ => false
    some (0, 4 * g + match bad with | some e => e.2 | none => 0)
  else if f &&& fInvalid != 0 then some (0, 4 * g)
  else if f &&& fOverflow != 0 then some (1, 4 * g)
  else none

/-- What one element of an instruction delivers: its value, flags, and its events by group: (group, kind, K index). -/
structure ElemOut where
  v : Nat
  fl : Flags
  ev : List (Nat × Nat × Nat)
deriving DecidableEq, Repr

def chainGroups (f : Fmt) : Nat → Nat → Flags → List (List Term) → List (Nat × Nat × Nat) → ElemOut
  | _, c, fl, [], ev => ⟨c, fl, ev.reverse⟩
  | g, c, fl, ts :: rest, ev =>
    let r := groupStep f c ts
    chainGroups f (g + 1) r.1 (fl ||| r.2) rest (match groupEvent g ts r.2 with | some e => (g, e) :: ev | none => ev)

/-- The update of element (m, n) from its K terms. -/
def matElement (w : MSlot) (c : Nat) (as bs : List Nat) : ElemOut :=
  let f := if mF64 w then fF64 else fF32
  let ts := (as.zip bs).map fun e =>
    let a := elemNum (mFmtA w) e.1
    let b := elemNum (mFmtB w) e.2
    if mOp w = 3 then distTerm (mDop w) a b else prodTerm a b
  chainGroups f 0 (if mZero w then f.zero false else c) 0 (groupsOf4 ts) []

/-- Where element (m, n) of an accumulator lies. -/
def accAddr (w : MSlot) (m n : Nat) : Nat :=
  if mF64 w then 8192 * mAcc w + 8 * (32 * m + n) else 4096 * mAcc w + 4 * (32 * m + n)

/-- An output element: quadrant (4 in full mode), row and column within the instruction's output, place in the position. -/
structure OutElem where
  q : Nat
  row : Nat
  col : Nat
  m : Nat
  n : Nat
deriving DecidableEq, Repr

/-- Unmasked output elements in the order of quadrant, row, column (R110, R111). -/
def matOutputs (w : MSlot) (ptrs : List U64) : List OutElem :=
  let side := if mQuad w then 16 else 32
  let k := if mQuad w then 4 else 1
  ((upTo k).map fun q =>
    let am := ptMask (ptrs.getD q 0)
    let bm := ptMask (ptrs.getD (k + q) 0)
    ((upTo side).map fun i =>
      ((upTo side).filter fun j => am.getLsbD i && bm.getLsbD j).map fun j =>
        ({ q := if mQuad w then q else 4, row := i, col := j,
           m := i + 16 * (if mQuad w then q / 2 else 0), n := j + 16 * (if mQuad w then q % 2 else 0) } : OutElem)).flatten).flatten

/-! ### MMA, MMAQ, DIST -/

/-- The first-fault record (R124). -/
def matRecord (w : MSlot) (o : Pend) (e : OutElem) (kind k : Nat) : BitVec 128 :=
  let x : BitVec 128 := 0
  let x := putBits x 64 o.loops
  let x := putField x 63 1 1
  let x := putField x 62 1 kind
  let x := putField x 59 3 e.q
  let x := putField x 53 6 (mAcc w)
  let x := putField x 48 5 e.row
  let x := putField x 43 5 e.col
  let x := putField x 38 5 k
  putField x 27 11 o.waddr

/-- The event with the lowest group, then quadrant, row, column: the elements come in the order of the latter three. -/
def firstEvent (l : List (OutElem × ElemOut)) : Option (OutElem × Nat × Nat) :=
  (upTo 8).findSome? fun g => l.findSome? fun e => (e.2.ev.find? fun v => v.1 == g).map fun v => (e.1, v.2.1, v.2.2)

/-- Marks of the operands: rows of A and columns of B with a poisoned element inside mask and kvalid (R110, R416). -/
def poisonedRows (r : Room) (w : MSlot) (b : Bool) (p : U64) : List Nat :=
  (upTo (if mQuad w then 16 else 32)).filter fun i => (ptMask p).getLsbD i &&
    (upTo (ptKvalid p)).any fun k => (if b then r.operand w b p k i else r.operand w b p i k).2

/-- Accumulator sectors that a poisoned row or column marks (DEDUCED, log 68). A quadrant whose A MASK is zero does no work (R111). -/
def matPoison (r : Room) (w : MSlot) (ptrs : List U64) : List Nat :=
  let k := if mQuad w then 4 else 1
  let side := if mQuad w then 16 else 32
  (((upTo k).filter fun q => ptMask (ptrs.getD q 0) != 0).map fun q =>
    let r0 := if mQuad w then 16 * (q / 2) else 0
    let c0 := if mQuad w then 16 * (q % 2) else 0
    let rows := poisonedRows r w false (ptrs.getD q 0)
    let cols := poisonedRows r w true (ptrs.getD (k + q) 0)
    (rows.map fun i => ((upTo side).map fun j => accAddr w (i + r0) (j + c0) / 64)).flatten
      ++ (cols.map fun j => ((upTo side).map fun i => accAddr w (i + r0) (j + c0) / 64)).flatten).flatten.eraseDups

/-- Sectors that this instruction overwrites wholly from +0. -/
def matFresh (w : MSlot) (outs : List OutElem) : List Nat :=
  if !mZero w then []
  else
    let per := 64 / (if mF64 w then 8 else 4)
    let secs := outs.map fun e => accAddr w e.m e.n / 64
    secs.eraseDups.filter fun k => secs.count k == per

/-- Quadrant sets an instruction writes (R115): those of position 2t for F64 tile t (DESIGN CHOICE, log 108). -/
def matSets (w : MSlot) : List Nat :=
  let p := if mF64 w && mOp w != 3 then 2 * mAcc w else mAcc w
  (upTo 4).map fun q => 4 * p + q

/-- The larger part of a matrix instruction: every unmasked element, flags, poison, the record. -/
def matCompute (r : Room) (o : Pend) (w : MSlot) : Room :=
  let k := if mQuad w then 4 else 1
  let outs := matOutputs w o.ptrs
  let es := outs.map fun e =>
    let q := if mQuad w then e.q else 0
    let pa := o.ptrs.getD q 0
    let pb := o.ptrs.getD (k + q) 0
    let kv := upTo (ptKvalid pa)
    let e8 := if mF64 w then 8 else 4
    (e, matElement w (ofLe (memBytes r.acc (accAddr w e.m e.n) e8)) (kv.map fun i => (r.operand w false pa e.row i).1)
      (kv.map fun i => (r.operand w true pb i e.col).1))
  let acc := es.foldl (fun m x => memPut m (accAddr w x.1.m x.1.n) (leBytes (if mF64 w then 8 else 4) x.2.v)) r.acc
  let flagsOf := fun (q : Nat) => es.foldl (fun (f : Flags) x => if !mQuad w || x.1.q == q then f ||| x.2.fl else f) 0
  let active := fun (q : Nat) => !mQuad w || ptMask (o.ptrs.getD q 0) != 0
  let sticky := (matSets w).zipIdx.foldl (fun t e =>
    if active e.2 then Tbl.set t e.1 ((if mZero w then 0 else Tbl.get 0 t e.1) ||| (flagsOf e.2 &&& 0x1F)) else t) r.sticky
  let po := matPoison r w o.ptrs
  let fresh := matFresh w outs
  let accPoison := po.foldl (fun l s => insertNat s l) (r.accPoison.filter fun s => !fresh.contains s)
  let ff := if flag r.ffMat 63 then r.ffMat else match firstEvent es with
    | some e => matRecord w o e.1 e.2.1 e.2.2
    | none => r.ffMat
  { r with acc := acc, sticky := sticky, accPoison := accPoison, ffMat := ff }

/-! ### Selection lists (R122, R123) -/

/-- Keys in ascending order: by value, then by index. -/
def keyLess (a b : Nat × Nat) : Bool :=
  let c := cmpNum (decodeNum fF32 a.1) (decodeNum fF32 b.1)
  c < 0 || (c == 0 && signed 32 a.2 < signed 32 b.2)

def insertKey (x : Nat × Nat) : List (Nat × Nat) → List (Nat × Nat)
  | [] => [x]
  | y :: t => if keyLess x y then x :: y :: t else y :: insertKey x t

/-- An entry that holds no candidate. -/
def noKey : Nat × Nat := (0x7F800000, 0xFFFFFFFF)

/-- A list after candidates are merged: the `k` smallest of its own keys and the candidates, sorted, entries k to 7 empty. A NaN among
the old values is no key (DESIGN CHOICE, log 109). -/
def mergeKeys (k : Nat) (old cands : List (Nat × Nat)) : List (Nat × Nat) :=
  let l := ((old.filter (fun x => !fIsNan fF32 x.1) ++ cands).foldl (fun l c => insertKey c l) []).take k
  l ++ List.replicate (8 - l.length) noKey

def listAddr (w : MSlot) (m : Nat) : Nat := 4096 * (mAcc w + 1) + 64 * m
def readList (r : Room) (w : MSlot) (m : Nat) : List (Nat × Nat) :=
  (upTo 8).map fun j => (ofLe (memBytes r.acc (listAddr w m + 8 * j) 4), ofLe (memBytes r.acc (listAddr w m + 8 * j + 4) 4))
def putList (acc : Mem) (w : MSlot) (m : Nat) (l : List (Nat × Nat)) : Mem :=
  memPut acc (listAddr w m) ((l.map fun x => leBytes 4 x.1 ++ leBytes 4 x.2).flatten)

/-- SINIT: empty lists, CBASE 0, no marks. -/
def initLists (r : Room) (w : MSlot) : Room :=
  let acc := (upTo 32).foldl (fun m i => putList m w i (List.replicate 8 noKey)) r.acc
  let lo := 64 * (mAcc w + 1)
  { r with acc := memPut acc (listAddr w 32) (leBytes 4 0), accPoison := r.accPoison.filter fun s => s < lo || lo + 33 ≤ s }

/-- FIN: finished row distances enter the lists; CBASE rises by 32. A row that saw a poisoned candidate is marked. -/
def finishLists (r : Room) (o : Pend) (w : MSlot) : Room :=
  let am := ptMask (o.ptrs.getD 0 0)
  let bm := ptMask (o.ptrs.getD 1 0)
  let base := ofLe (memBytes r.acc (listAddr w 32) 4)
  let r := ((upTo 32).filter fun m => am.getLsbD m).foldl (fun (r : Room) m =>
    let cands := ((upTo 32).filter fun n => bm.getLsbD n).filterMap fun n =>
      let d := ofLe (memBytes r.acc (accAddr w m n) 4)
      if fIsNan fF32 d then none else some (d, (base + n) % 2 ^ 32)
    let po := ((upTo 32).filter fun n => bm.getLsbD n).any fun n => anyPoison r.accPoison (accAddr w m n) 4
    { r with acc := putList r.acc w m (mergeKeys (mKsel w) (readList r w m) cands),
             accPoison := if po then insertNat (listAddr w m / 64) r.accPoison else r.accPoison }) r
  { r with acc := memPut r.acc (listAddr w 32) (leBytes 4 ((base + 32) % 2 ^ 32)) }

/-- A TIE that tags a position zeroes it. -/
def tieZero (r : Room) (w : MSlot) (x : U64) : Room :=
  if field x 16 16 = 0 then r
  else
    let p := mAcc w
    { r with acc := Tbl.dropRange r.acc (4096 * p) (4096 * p + 4096),
             accPoison := r.accPoison.filter fun s => s < 64 * p || 64 * p + 64 ≤ s,
             sticky := (upTo 4).foldl (fun t q => Tbl.set t (4 * p + q) 0) r.sticky }

/-- The result of a matrix instruction. -/
def matResult (r : Room) (o : Pend) : Room :=
  let w : MSlot := bits o.slot 0 40
  match mOp w with
  | 4 => tieZero r w o.x0
  | 3 =>
    let r := if mSinit w then initLists r w else r
    let r := matCompute r o w
    if mFin w then finishLists r o w else r
  | _ => matCompute r o w

/-- MATRIX_RESULT (R112): the oldest instruction without a result delivers it, once its write may land. -/
def execMatrixResult (room : BitVec 7) (s : State) : Out :=
  let n := room.toNat
  let r := s.room n
  match r.matQ with
  | o :: t =>
    if o.done then
      match t with
      | o' :: t' => act (s.roomLive n && !o'.done && (o'.chain || r.mayWrite o')) s fun s =>
          s.updRoom n fun r => { matResult r o' with matQ := o :: { o' with done := true } :: t' }
      | [] => .next s
    else act (s.roomLive n && r.mayWrite o) s fun s => s.updRoom n fun r => { matResult r o with matQ := { o with done := true } :: t }
  | [] => .next s

/-! ### Issue -/

/-- AINC and BINC (R105): each pointer the instruction used advances once, by the operand's size in the larder, also where it names a
transposing-buffer slot (DESIGN CHOICE, log 107). -/
def advancePtrs (mp : Tbl U64) (w : MSlot) : Tbl U64 :=
  let adv := fun (b : Bool) (mp : Tbl U64) (l : List Nat) => l.eraseDups.foldl (fun (mp : Tbl U64) i =>
    let p := Tbl.get 0 mp i
    Tbl.set mp i (putField p 11 7 (ptOffset p + operandBytes w b / 256))) mp
  let mp := if mAinc w then adv false mp (ptrRegs w false) else mp
  if mBinc w then adv true mp ((ptrRegs w true).filter fun i => !(mAinc w && (ptrRegs w false).contains i)) else mp

/-- The tag of a position after a TIE issues (R117) (DEDUCED, log 94). -/
def tieTag (r : Room) (w : MSlot) (x : U64) : Tbl (Nat × Nat) :=
  match Tbl.find r.tags (mAcc w) with
  | none => Tbl.set r.tags (mAcc w) (field x 0 16, field x 16 16)
  | some t => if t.2 ≤ 1 then Tbl.erase r.tags (mAcc w) else Tbl.set r.tags (mAcc w) (t.1, t.2 - 1)

/-- What the matrix slot starts; `x` is the room before the word. -/
def matrixIssue (x r : Room) (w : MSlot) : Room :=
  if mOp w = 0 then r
  else
    let (rd, wr) := matAccess x w
    let chain := match x.matQ.getLast? with | some l => !l.done && matChains w (bits l.slot 0 40) | none => false
    let o : Pend := { slot := (w.setWidth 56), x0 := x.x_ (mTieReg w), ptrs := (ptrRegs w false ++ ptrRegs w true).map fun i => Tbl.get 0 x.mp i,
                      loops := x.loopWord, waddr := x.pc, reads := rd, writes := wr, chain := chain, order := x.issued }
    let r := { r with matQ := r.matQ ++ [o] }
    if mOp w = 4 then { r with tags := tieTag x w o.x0 } else { r with mp := advancePtrs r.mp w }

end Sys2Proof.Machine
end

