-- ==== Sys2Proof/Machine/Kernel.lean ====
section
/-! DEFINITION. Element kernels (06_vector_row_engines R133 to R138): the encoding of their operations, its checks, and what they
compute for one element. -/

namespace Sys2Proof.Machine

/-- Tile inputs that a kernel's sources name: 0, 1, 2 (R137). -/
def kInputs (ops : List KOpW) : List Nat :=
  (upTo 3).filter fun i => (kBody ops).any fun w =>
    let n := (kSources (kOpc w)).getD 0
    (0 < n && kSa w == 16 + i) || (1 < n && kSb w == 16 + i) || (2 < n && kSc w == 16 + i)

/-- One operation on bit patterns; integers in the low 32 bits (R136, R137). CVTIF delivers the kernel's format. -/
def kApply (f64 : Bool) (w : KOpW) (a b c : Nat) : Nat × Flags :=
  let f := if f64 then fF64 else fF32
  let rm := rmOf (kRm w)
  let lo := fun (v : Nat) => v % 2 ^ 32
  match kOpc w with
  | 0x01 => fAdd f rm a b
  | 0x02 => fSub f rm a b
  | 0x03 => fMul f rm a b
  | 0x04 => fDiv f rm a b
  | 0x05 => fFma f rm a b c
  | 0x06 => fFms f rm a b c
  | 0x07 => fSqrt f rm a
  | 0x08 => fMin f a b
  | 0x09 => fMax f a b
  | 0x0A => (fAbs f a, 0)
  | 0x0B => (fNeg f a, 0)
  | 0x0C => (fCopySign f a b, 0)
  | 0x0D => (a, 0)
  | 0x0E => fRint f rm a
  | 0x10 => let r := fEq f a b; (bnat r.1, r.2)
  | 0x11 => let r := fLt f a b; (bnat r.1, r.2)
  | 0x12 => let r := fLe f a b; (bnat r.1, r.2)
  | 0x13 => (if lo a != 0 then b else c, 0)
  | 0x18 => fExp f a
  | 0x19 => fLog f a
  | 0x1A => fExp2 f a
  | 0x1B => fLog2 f a
  | 0x1C => fRsqrt f a
  | 0x1D => fRcp f a
  | 0x1E => fTanh f a
  | 0x1F => fSigm f a
  | 0x20 => fErf f a
  | 0x21 => fSin f a
  | 0x22 => fCos f a
  | 0x30 => (lo (a + b), 0)
  | 0x31 => (lo (lo a + 2 ^ 32 - lo b), 0)
  | 0x32 => (lo (a * b), 0)
  | 0x33 => (Nat.land (lo a) (lo b), 0)
  | 0x34 => (Nat.lor (lo a) (lo b), 0)
  | 0x35 => (Nat.xor (lo a) (lo b), 0)
  | 0x36 => (bnat (signed 32 (lo a) < signed 32 (lo b)), 0)
  | 0x37 => packNum f rm (intNum (signed 32 (lo a)))
  | _ => numToI32 rm (decodeNum f a)

/-- What the sources of an element are: inputs, place, broadcasts. -/
structure KEnv where
  f64 : Bool
  ins : List (Nat × Bool)
  row : Nat
  col : Nat
  bcast : List U64
  /-- Scalar registers that carry a mark. -/
  marks : List Nat := []

def KEnv.src (e : KEnv) (regs : List (Nat × Bool)) (v : Nat) : Nat × Bool :=
  let f := if e.f64 then fF64 else fF32
  if v < 16 then regs.getD v (0, false)
  else if v < 19 then e.ins.getD (v - 16) (0, false)
  else if v = 19 then (e.row, false)
  else if v = 20 then (e.col, false)
  else if v = 21 then (0, false)
  else if v = 22 then (f.one, false)
  else
    let x := (e.bcast.getD (v - 32) 0).toNat
    (if e.f64 then x else x % 2 ^ 32, e.marks.contains (v - 32))

/-- What a kernel leaves of one element: E0, its flags, and each operation's flags that could enter the first-fault record. -/
structure KOut where
  v : Nat
  po : Bool
  fl : Flags
  ev : List (Nat × Flags)
deriving DecidableEq, Repr

def kLoop (e : KEnv) : List KOpW → Nat → List (Nat × Bool) → Flags → List (Nat × Flags) → KOut
  | [], _, regs, fl, ev => let r := regs.getD 0 (0, false); ⟨r.1, r.2, fl, ev.reverse⟩
  | w :: t, j, regs, fl, ev =>
    let n := (kSources (kOpc w)).getD 0
    let a := e.src regs (kSa w)
    let b := e.src regs (kSb w)
    let c := e.src regs (kSc w)
    let r := kApply e.f64 w a.1 b.1 c.1
    let po := (0 < n && a.2) || (1 < n && b.2) || (2 < n && c.2)
    kLoop e t (j + 1) (setNth regs (kDst w) (r.1, po)) (fl ||| r.2)
      (if r.2 &&& (fInvalid ||| fDivZero ||| fOverflow) != 0 then (j, r.2) :: ev else ev)

/-- A kernel over one element; E0 to E15 start at +0. -/
def runKernel (e : KEnv) (ops : List KOpW) : KOut := kLoop e (kBody ops) 0 (List.replicate 16 (0, false)) 0 []

end Sys2Proof.Machine
end

