-- ==== Sys2Proof/Machine/Vector.lean ====
section
/-! DEFINITION. The vector engine (06_vector_row_engines R127 to R144): tile registers, the vector slot with its checks, and its
operations. -/

namespace Sys2Proof.Machine

/-! ### The slot (R129) -/

abbrev VSlot := BitVec 56

def vOp (w : VSlot) : Nat := field w 52 4
def vTd (w : VSlot) : Nat := field w 47 5
def vTa (w : VSlot) : Nat := field w 42 5
def vTb (w : VSlot) : Nat := field w 37 5
def vTc (w : VSlot) : Nat := field w 32 5
def vXs (w : VSlot) : Nat := field w 27 5
def vSub (w : VSlot) : Nat := field w 23 4
def vReg (w : VSlot) : Nat := field w 17 6
def vOff (w : VSlot) : Nat := field w 10 7
def vStart (w : VSlot) : Nat := field w 6 4
def vTrow (w : VSlot) : Nat := field w 2 4
def vF64 (w : VSlot) : Bool := flag w 1

/-- The bits of the fields that an operation uses (R130). -/
def vMask (op : Nat) : VSlot :=
  let ones := fun (lo w : Nat) => (((BitVec.allOnes w).setWidth 56) <<< lo : VSlot)
  let td := ones 47 5
  let ta := ones 42 5
  let tb := ones 37 5
  let tc := ones 32 5
  let xs := ones 27 5
  let sub := ones 23 4
  let mem := ones 10 13
  let gs := ones 2 8
  let f := ones 1 1
  ones 52 4 ||| match op with
  | 1 => td ||| xs ||| sub ||| mem ||| f
  | 2 => ta ||| xs ||| sub ||| mem ||| f
  | 3 => td ||| ta ||| tb ||| tc ||| sub ||| f
  | 4 => xs ||| sub
  | 5 => td ||| ta ||| xs ||| sub ||| gs ||| f
  | 6 => ta ||| tb ||| xs ||| sub ||| gs ||| f
  | 7 => ta ||| tb ||| xs ||| sub
  | _ => 0

/-! ### Tile registers (R127, R128) -/

def tileKey (t r c : Nat) : Nat := 256 * t + 16 * r + c

/-- Element (r, c) of a tile, of 64 bits in F64 mode, with its mark. -/
def Room.tile (x : Room) (f64 : Bool) (t r c : Nat) : Nat × Bool :=
  let lo := Tbl.get 0 x.tiles (tileKey t r c)
  if f64 then
    (lo + 2 ^ 32 * Tbl.get 0 x.tiles (tileKey (t + 1) r c),
      x.tilePoison.contains (tileKey t r c) || x.tilePoison.contains (tileKey (t + 1) r c))
  else (lo, x.tilePoison.contains (tileKey t r c))

def markKey (l : List Nat) (k : Nat) (po : Bool) : List Nat := if po then insertNat k l else l.filter (· != k)

def Room.putTile (x : Room) (f64 : Bool) (t r c v : Nat) (po : Bool) : Room :=
  let k := tileKey t r c
  let ts := Tbl.set x.tiles k (v % 2 ^ 32)
  let tp := markKey x.tilePoison k po
  if f64 then
    let k2 := tileKey (t + 1) r c
    { x with tiles := Tbl.set ts k2 (v / 2 ^ 32), tilePoison := markKey tp k2 po }
  else { x with tiles := ts, tilePoison := tp }

def Room.status (x : Room) (t : Nat) : Flags := Tbl.get 0 x.tileStatus t
def Room.setStatus (x : Room) (t : Nat) (f : Flags) : Room := { x with tileStatus := Tbl.set x.tileStatus t (f &&& 0x3F) }
def Room.orVflags (x : Room) (f : Flags) : Room := { x with vflags := x.vflags ||| (f &&& 0x3F) }

/-- Places of a tile, rows ascending. -/
def tileCells : List (Nat × Nat) := ((upTo 16).map fun r => (upTo 16).map fun c => (r, c)).flatten

/-! ### Gather registers (R142) -/

def gdCount (g : BitVec 160) : Nat := field g 128 32
def gdStride (g : BitVec 160) : Int := signed 48 (field g 80 48)
def gdFmt (g : BitVec 160) : Nat := field g 76 4
def gdValid (g : BitVec 160) : Bool := flag g 75
def gdBase (g : BitVec 160) : Nat := field g 0 48
def Room.gather_ (r : Room) (w : VSlot) : BitVec 160 := Tbl.get 0 r.gd (vSub w % 4)

/-! ### Checks at issue (R144); those of the index tile and of a kernel's words come later -/

def vTileBytes (w : VSlot) : Nat := 256 * fmtBytes (vSub w)

/-- The checks of a vector slot (DEDUCED, log 74). -/
def vectorStop (r : Room) (w : VSlot) : Option U16 :=
  let op := vOp w
  let odd := fun (t : Nat) => vF64 w && t % 2 == 1
  if 8 < op || w &&& ~~~(vMask op) != 0 then some 0x0201
  else match op with
  | 1 | 2 =>
    if odd (if op = 1 then vTd w else vTa w) then some 0x0201
    else if !(vSub w ≤ 5 || vSub w == cI32 || vSub w == cU8) || vF64 w != (vSub w == cF64)
        || regionSize < 256 * vOff w + vTileBytes w then some 0x0202
    else none
  | 3 =>
    let coming := r.vecQ.any fun o => vOp o.slot == 4 && vSub o.slot == vSub w
    if odd (vTd w) || odd (vTa w) || odd (vTb w) || odd (vTc w) then some 0x0201
    else if !r.kernels.has (vSub w) && !coming then some 0x0204
    else none
  | 4 => if 2047 < field (r.x_ (vXs w)) 0 11 + 3 then some 0x0203 else none
  | 5 | 6 =>
    if odd (if op = 5 then vTd w else vTa w) then some 0x0201
    else if 4 ≤ vSub w || !gdValid (r.gather_ w) || !fmtFloat (gdFmt (r.gather_ w)) || gdFmt (r.gather_ w) == cQ4
        || vF64 w != (gdFmt (r.gather_ w) == cF64) then some 0x0207
    else none
  | _ => none

/-- Regions a vector operation reads and writes of the larder. -/
def vecAccess (w : VSlot) : List Nat × List Nat :=
  match vOp w with
  | 1 => ([vReg w], [])
  | 2 => ([], [vReg w])
  | _ => ([], [])

/-! ### The conversion maximum (R131) -/

/-- CMAX and its binade with one more source value at scale `u`, unless poisoned; the format and the overflow of its conversion, which
reach the destination's register with them (R90, R92). -/
def Room.noteMax (r : Room) (c : Nat) (u : Int) (x : Num) (f : Flags) (po : Bool) : Room :=
  let g : ScaleReg := { max := BitVec.ofNat 32 r.cmax, maxe := match r.cmaxe with | some e => ofInt 16 e | none => 0x8000 }
  let g := if po then g else g.gather u x
  { r with cmax := g.max.toNat, cmaxe := if g.maxe = 0x8000 then none else some g.maxe.toInt, cfmt := some (BitVec.ofNat 4 c),
           covf := r.covf || f &&& fOverflow != 0 }

/-! ### The first-fault record (R141) -/

/-- EVENT of a set of flags: invalid, division by zero, overflow. -/
def vecEvent (f : Flags) : Option Nat :=
  if f &&& fInvalid != 0 then some 0 else if f &&& fDivZero != 0 then some 1 else if f &&& fOverflow != 0 then some 2 else none

def Room.latchVec (r : Room) (o : Pend) (vop kop treg row col : Nat) (f : Flags) : Room :=
  match vecEvent f with
  | some e =>
    if flag r.ffVec 63 then r
    else
      let x : BitVec 128 := 0
      let x := putBits x 64 o.loops
      let x := putField x 63 1 1
      let x := putField x 61 2 e
      let x := putField x 57 4 vop
      let x := putField x 52 5 kop
      let x := putField x 47 5 treg
      let x := putField x 42 5 row
      let x := putField x 38 4 col
      { r with ffVec := putField x 27 11 o.waddr }
  | none => r

/-! ### VLD, VST, KRUN -/

def xsK (x : U64) : Int := signed 16 (field x 0 16)
def xsU (x : U64) : Int := signed 16 (field x 16 16)
def xsMaxen (x : U64) : Bool := flag x 32

def vld (r : Room) (o : Pend) (w : VSlot) : Room :=
  let e := fmtBytes (vSub w)
  let base := regionSize * vReg w + 256 * vOff w
  let out := if vF64 w then cF64 else cF32
  let (r, fl) := tileCells.foldl (fun (a : Room × Flags) q =>
    let l := a.1.larderElem (base + e * (16 * q.1 + q.2)) e
    let v := (l.1, l.2 || !o.marks.isEmpty)
    let (b, f) := if fmtFloat (vSub w) then elemPack out .rne (xsK o.x0) (elemNum (vSub w) v.1) else (v.1, (0 : Flags))
    let x := a.1.putTile (vF64 w) (vTd w) q.1 q.2 b v.2
    (x.latchVec o 1 0 (vTd w) q.1 q.2 f, a.2 ||| f ||| (if v.2 then fPoison else 0))) (r, 0)
  r.setStatus (vTd w) fl

def vst (r : Room) (o : Pend) (w : VSlot) : Room :=
  let e := fmtBytes (vSub w)
  let base := regionSize * vReg w + 256 * vOff w
  let src := if vF64 w then cF64 else cF32
  let vs := tileCells.map fun q => let v := r.tile (vF64 w) (vTa w) q.1 q.2; (v.1, v.2 || !o.marks.isEmpty)
  let out := vs.map fun v => if fmtFloat (vSub w) then elemPack (vSub w) .rne (xsK o.x0) (elemNum src v.1) else (v.1, (0 : Flags))
  let r := if fmtFloat (vSub w) && xsMaxen o.x0 then
      (vs.zip out).foldl (fun (r : Room) v => r.noteMax (vSub w) (xsU o.x0) (elemNum src v.1.1) v.2.2 v.1.2) r
    else r
  let r := (tileCells.zip out).foldl (fun (r : Room) x => r.latchVec o 2 0 0 x.1.1 x.1.2 x.2.2) r
  let fl := out.foldl (fun (f : Flags) x => f ||| x.2) (if vs.any (·.2) then fPoison else 0)
  (r.putLarder base e ((out.zip vs).map fun x => (x.1.1, x.2.2))).orVflags (fl ||| r.status (vTa w))

def krun (r : Room) (o : Pend) (w : VSlot) : Room :=
  let ops := (Tbl.get [] r.kernels (vSub w) : List U32)
  let ins := kInputs ops
  let outs := tileCells.map fun q =>
    (q, runKernel { f64 := vF64 w, row := q.1, col := q.2, bcast := o.bcast, marks := o.marks,
                    ins := [r.tile (vF64 w) (vTa w) q.1 q.2, r.tile (vF64 w) (vTb w) q.1 q.2, r.tile (vF64 w) (vTc w) q.1 q.2] } ops)
  let st := (if ins.contains 0 then r.status (vTa w) else 0) ||| (if ins.contains 1 then r.status (vTb w) else 0)
    ||| (if ins.contains 2 then r.status (vTc w) else 0)
  let fl := outs.foldl (fun (f : Flags) x => f ||| x.2.fl ||| (if x.2.po then fPoison else 0)) st
  let first := (upTo 32).findSome? fun j => outs.findSome? fun x => (x.2.ev.find? fun e => e.1 == j).map fun e => (j, x.1, e.2)
  let r := outs.foldl (fun (r : Room) x => r.putTile (vF64 w) (vTd w) x.1.1 x.1.2 x.2.v x.2.po) r
  let r := match first with
    | some e => r.latchVec o 3 e.1 (vTd w) e.2.1.1 e.2.1.2 e.2.2
    | none => r
  r.setStatus (vTd w) fl

/-! ### Kernels in the instruction memory (R133) -/

/-- A word of a room's instruction memory: as written, else of the latest translation, else zero (R239). -/
def Room.word (r : Room) (n a : Nat) : RoomWord :=
  match Tbl.find r.imem a with
  | some w => w
  | none => match r.imemFrom with
    | 0 => 0
    | k + 1 => Config.freeWord k n a

def kernelAt (r : Room) (n a : Nat) : List U32 :=
  ((upTo 4).map fun i => (upTo 8).map fun j => bits (r.word n (a + i)) (32 * j) 32).flatten

def kernelPoisoned (r : Room) (a : Nat) : Bool := (upTo 4).any fun i => r.imemPoison.contains (a + i)

/-! ### Gather and scatter (R143) -/

/-- Index of element `c`, and whether it is poisoned. -/
def gatherIndex (r : Room) (w : VSlot) (c : Nat) : Nat × Bool := r.tile false (if vOp w = 5 then vTa w else vTb w) (vTrow w) c

def skipIndex : Nat := 0x80000000

/-- The first element whose index fails; 16 if none. -/
def firstBad (r : Room) (w : VSlot) : Nat :=
  ((countUp (vStart w) (16 - vStart w)).find? fun c =>
    let i := gatherIndex r w c
    i.2 || (i.1 != skipIndex && !(0 ≤ signed 32 i.1 && i.1 < gdCount (r.gather_ w)))).getD 16

/-- The elements transferred, each with the byte address of its memory element. -/
def gatherElems (r : Room) (w : VSlot) : List (Nat × Nat) :=
  let g := r.gather_ w
  ((countUp (vStart w) (firstBad r w - vStart w)).filter fun c => (gatherIndex r w c).1 != skipIndex).map fun c =>
    (c, ((gdBase g : Int) + fmtBytes (gdFmt g) * ((gatherIndex r w c).1 : Int) * gdStride g).toNat)

def gatherRefused (s : State) (r : Room) (w : VSlot) : Option (Nat × U16) :=
  (gatherElems r w).findSome? fun e => s.rangeStop e.2 (fmtBytes (gdFmt (r.gather_ w)))

/-- The status of TD after a VGATH: with START above 0 it keeps what the elements before left (R128, R143) (DEDUCED, log 65). -/
def gatherStatus (r : Room) (w : VSlot) (f : Flags) : Room :=
  if firstBad r w ≤ vStart w then r
  else r.setStatus (vTd w) (f ||| r.status (vTa w) ||| if vStart w = 0 then 0 else r.status (vTd w))

/-- VGATH: memory elements into a row of TD. -/
def vgath (s : State) (n : Nat) (o : Pend) (w : VSlot) : State :=
  let r := s.room n
  let e := fmtBytes (gdFmt (r.gather_ w))
  let out := if vF64 w then cF64 else cF32
  let els := gatherElems r w
  let (r', fl) := els.foldl (fun (a : Room × Flags) x =>
    let po := s.poisonAt x.2 e || !o.marks.isEmpty
    let (b, f) := elemPack out .rne (xsK o.x0) (elemNum (gdFmt (r.gather_ w)) (ofLe (s.bytesAt x.2 e)))
    ((a.1.putTile (vF64 w) (vTd w) (vTrow w) x.1 b po).latchVec o 5 0 (vTd w) (vTrow w) x.1 f,
      a.2 ||| f ||| (if po then fPoison else 0))) (r, 0)
  let s := els.foldl (fun s x => touch s x.2 e) s
  let s := s.updRoom n fun _ => gatherStatus r' w fl
  if fl &&& fPoison != 0 then loadTile.note s n fPoison else s

/-- A scattered element is counted in the histogram of the descriptor it is written through (R96, R97). -/
def countScat (s : State) (p : Nat) (d : Desc) (x : Num) (po : Bool) : State :=
  if dHistEn d && !po then
    s.updSched p fun q => { q with hist := Tbl.set q.hist (dHist d) ((Tbl.get {} q.hist (dHist d) : Hist).count (dFmt d) x) }
  else s

/-- VSCAT: a row of TA to memory, in ascending elements. -/
def vscat (s : State) (n : Nat) (o : Pend) (w : VSlot) : State :=
  let r := s.room n
  let f := gdFmt (r.gather_ w)
  let src := if vF64 w then cF64 else cF32
  let p := s.ownerOfRoom n
  let d := (r.binding (vSub w % 4)).desc
  let els := gatherElems r w
  let (s, r', fl) := els.foldl (fun (a : State × Room × Flags) x =>
    let l := r.tile (vF64 w) (vTa w) (vTrow w) x.1
    let v := (l.1, l.2 || !o.marks.isEmpty)
    let (b, g) := elemPack f .rne (xsK o.x0) (elemNum src v.1)
    let q := if xsMaxen o.x0 then a.2.1.noteMax f (xsU o.x0) (elemNum src v.1) g v.2 else a.2.1
    (countScat (streamStore a.1 p x.2 (leBytes (fmtBytes f) b) v.2) p d (elemNum f b) v.2, q.latchVec o 6 0 0 (vTrow w) x.1 g,
      a.2.2 ||| g ||| (if v.2 then fPoison else 0))) (s, r, 0)
  s.updRoom n fun _ => r'.orVflags (fl ||| r.status (vTa w))

/-! ### Issue -/

/-- Scalar registers whose marks reach the results of a vector operation. -/
def vecScalars (w : VSlot) : List Nat :=
  match vOp w with
  | 3 => upTo 32
  | 7 => [vXs w, vTb w]
  | 1 | 2 | 5 | 6 => [vXs w]
  | _ => []

/-- What the vector slot starts; `x` is the room before the word. -/
def vectorIssue (x r : Room) (w : VSlot) (extra : List Nat × List Nat) (rp : BitVec 128) : Room :=
  if vOp w = 0 then r
  else
    let (rd, wr) := vecAccess w
    let o : Pend := { slot := w, x0 := x.x_ (vXs w), x1 := x.x_ (vTb w), aux := rp, loops := x.loopWord, waddr := x.pc,
                      order := x.issued, bcast := if vOp w = 3 then (upTo 32).map x.x_ else [], marks := (vecScalars w).filter x.xPoison.contains,
                      reads := rd ++ extra.1, writes := wr ++ extra.2 }
    { r with vecQ := r.vecQ ++ [o] }

end Sys2Proof.Machine
end

