-- ==== Sys2Proof/Machine/Row.lean ====
section
/-! DEFINITION. The row engine (06_vector_row_engines R145 to R153): its parameters and checks, the six row operations on F64
values, and what they write, chunk by chunk. -/

namespace Sys2Proof.Machine

/-! ### The operations on one row (R149, R150): every number is an F64 pattern -/

def allFlags (l : List Flags) : Flags := l.foldl (fun (f : Flags) g => f ||| g) 0

def addD (a b : Nat) : Nat × Flags := fAdd fF64 .rne a b
def subD (a b : Nat) : Nat × Flags := fSub fF64 .rne a b
def mulD (a b : Nat) : Nat × Flags := fMul fF64 .rne a b
def divD (a b : Nat) : Nat × Flags := fDiv fF64 .rne a b
def fmaD (a b c : Nat) : Nat × Flags := fFma fF64 .rne a b c
/-- A count as F64. -/
def ofCount (n : Nat) : Nat := (roundPack fF64 .rne false n 0).1

/-- What element i of a row meets: x(i), dy(i), γ(i), β(i), widened; +0 where the operation does not read it. -/
structure RowEl where
  x : Nat
  dy : Nat := 0
  g : Nat := 0
  b : Nat := 0
deriving DecidableEq, Repr

/-- VAL1 and VAL2 of an entry: the running quantities of a pass, or what the statistics passes leave. -/
abbrev RowVals := Nat × Nat

/-- The passes of an operation (R147), the last of which applies the statistics. -/
def rowPasses (sub : Nat) : Nat := if sub = 0 || sub = 2 then 3 else 2

/-- The running quantities before the first element. -/
def rowBegin (sub : Nat) : RowVals := if sub = 2 then (fF64.inf true, 0) else (0, 0)

/-- h(i) of a row from its statistics; the soft maximum for SMAX and SMAXB. -/
def rowH (sub : Nat) (st : RowVals) (x : Nat) : Nat × Flags :=
  match sub % 3 with
  | 0 =>
    let d := subD x st.1
    let h := mulD d.1 st.2
    (h.1, d.2 ||| h.2)
  | 1 => mulD x st.1
  | _ =>
    let d := subD x st.1
    let e := fExp fF64 d.1
    let y := divD e.1 st.2
    (y.1, d.2 ||| e.2 ||| y.2)

/-- g of R150. -/
def rowG (aff : Nat) (e : RowEl) : Nat × Flags := if aff = 0 then (e.dy, 0) else mulD e.dy e.g

/-- affine(h, i) of R149. -/
def affine (aff : Nat) (h : Nat) (e : RowEl) : Nat × Flags :=
  match aff with
  | 0 => (h, 0)
  | 1 => mulD h e.g
  | _ => fmaD h e.g e.b

/-- One element of statistics pass `p`, from the running quantities `v`; `st` are the statistics a backward operation reads. A NaN in a
row of SMAX raises invalid where the maximum meets it, as R149 says of such a row (DEDUCED, log 105). -/
def rowStat (sub aff p : Nat) (st v : RowVals) (e : RowEl) : RowVals × Flags :=
  match sub, p with
  | 0, 0 => let r := addD v.1 e.x; ((r.1, v.2), r.2)
  | 0, _ =>
    let d := subD e.x v.1
    let r := fmaD d.1 d.1 v.2
    ((v.1, r.1), d.2 ||| r.2)
  | 1, _ => let r := fmaD e.x e.x v.1; ((r.1, v.2), r.2)
  | 2, 0 => let r := fMax fF64 v.1 e.x; ((r.1, v.2), if fIsNan fF64 e.x then r.2 ||| fInvalid else r.2)
  | 2, _ =>
    let d := subD e.x v.1
    let x := fExp fF64 d.1
    let r := addD v.2 x.1
    ((v.1, r.1), d.2 ||| x.2 ||| r.2)
  | 5, _ =>
    let y := rowH sub st e.x
    let r := fmaD e.dy y.1 v.1
    ((r.1, v.2), y.2 ||| r.2)
  | _, _ =>
    let h := rowH sub st e.x
    let g := rowG aff e
    let a := if sub = 3 then addD v.1 g.1 else (v.1, 0)
    let b := fmaD g.1 h.1 v.2
    ((a.1, b.1), h.2 ||| g.2 ||| a.2 ||| b.2)

/-- The end of statistics pass `p` of a row of length `len`. -/
def rowEnd (sub p len eps : Nat) (v : RowVals) : RowVals × Flags :=
  match sub, p with
  | 0, 0 => let m := divD v.1 len; ((m.1, v.2), m.2)
  | 0, _ =>
    let q := divD v.2 len
    let e := addD q.1 eps
    let rho := fRsqrt fF64 e.1
    ((v.1, rho.1), q.2 ||| e.2 ||| rho.2)
  | 1, _ =>
    let q := divD v.1 len
    let e := addD q.1 eps
    let rho := fRsqrt fF64 e.1
    ((rho.1, q.1), q.2 ||| e.2 ||| rho.2)
  | _, _ => (v, 0)

/-- What the last pass makes of an element: the output before conversion, h for dγ, and flags. `v` is the scratch of a backward
operation. -/
structure RowPut where
  y : Nat
  h : Nat
  fl : Flags
deriving DecidableEq, Repr

def rowApply (sub aff len : Nat) (st v : RowVals) (e : RowEl) : RowPut :=
  let h := rowH sub st e.x
  match sub with
  | 0 | 1 => let y := affine aff h.1 e; ⟨y.1, h.1, h.2 ||| y.2⟩
  | 2 => ⟨h.1, h.1, h.2⟩
  | 5 =>
    let d := subD e.dy v.1
    let r := mulD h.1 d.1
    ⟨r.1, h.1, h.2 ||| d.2 ||| r.2⟩
  | _ =>
    let g := rowG aff e
    let t := if sub = 3 then fmaD h.1 v.2 v.1 else mulD h.1 v.2
    let t' := divD t.1 len
    let d := subD g.1 t'.1
    let r := mulD (if sub = 3 then st.2 else st.1) d.1
    ⟨r.1, h.1, h.2 ||| g.2 ||| t.2 ||| t'.2 ||| d.2 ||| r.2⟩

/-- Elements of a statistics pass in ascending order, with the flags of each. -/
def rowFold (sub aff p : Nat) (st : RowVals) : RowVals → List RowEl → RowVals × List Flags
  | v, [] => (v, [])
  | v, e :: t =>
    let r := rowStat sub aff p st v e
    let x := rowFold sub aff p st r.1 t
    (x.1, r.2 :: x.2)

/-- A whole row at once: the statistics or the scratch values it leaves, what it puts, its flags. `st` are the statistics of a backward
operation. -/
structure RowOut where
  vals : RowVals
  puts : List RowPut
  fl : Flags
deriving DecidableEq, Repr

def rowWhole (sub aff eps : Nat) (st : RowVals) (els : List RowEl) : RowOut :=
  let len := ofCount els.length
  let (v, f) := (upTo (rowPasses sub - 1)).foldl (fun (a : RowVals × Flags) p =>
    let r := rowFold sub aff p st a.1 els
    let e := rowEnd sub p len eps r.1
    (e.1, a.2 ||| allFlags r.2 ||| e.2)) (rowBegin sub, 0)
  let puts := els.map (rowApply sub aff len (if sub < 3 then v else st) v)
  ⟨v, puts, f ||| allFlags (puts.map (·.fl))⟩

/-- An F32 pattern widened, and the flags of that. -/
def widen32 (v : Nat) : Nat × Flags := fConvert fF32 fF64 .rne 0 v

/-- One more row in dγ, or dβ: the product rounded to F64, added to the widened F32 value in F64, the sum rounded once to F32. -/
def gradAdd (old : Nat) (term : Nat × Flags) : Nat × Flags :=
  let o := widen32 old
  let s := addD o.1 term.1
  let r := fConvert fF64 fF32 .rne 0 s.1
  (r.1, term.2 ||| o.2 ||| s.2 ||| r.2)

/-! ### Parameters (R145) -/

def rpLen (p : BitVec 128) : Nat := field p 110 18 + 1
def rpRows (p : BitVec 128) : Nat := field p 105 5 + 1
def rpFmtX (p : BitVec 128) : Nat := field p 102 3
def rpFmtY (p : BitVec 128) : Nat := field p 99 3
/-- Byte address of an operand whose REG field stands at bit `i` and OFF below it. -/
def rpAddr (p : BitVec 128) (i : Nat) : Nat := regionSize * field p i 6 + 256 * field p (i - 7) 7
def rpX (p : BitVec 128) : Nat := rpAddr p 93
def rpY (p : BitVec 128) : Nat := rpAddr p 80
def rpG (p : BitVec 128) : Nat := rpAddr p 67
def rpP (p : BitVec 128) : Nat := rpAddr p 54
def rpD (p : BitVec 128) : Nat := rpAddr p 41
def rpAff (p : BitVec 128) : Nat := field p 32 2
def rpHandle (p : BitVec 128) : U16 := bits p 16 16
def rpAbase (p : BitVec 128) : Nat := field p 4 12

/-- Operands of a row operation: byte address and bytes, those read and those written (R146, R147). -/
def rowReads (sub : Nat) (p : BitVec 128) : List (Nat × Nat) :=
  let l := rpLen p
  let n := l * rpRows p
  [(rpX p, fmtBytes (rpFmtX p) * n)] ++ (if 3 ≤ sub then [(rpG p, 2 * n)] else [])
    ++ (if rpAff p = 0 then [] else [(rpP p, 4 * l * (if rpAff p = 2 && sub < 3 then 2 else 1))])
def rowWrites (sub : Nat) (p : BitVec 128) : List (Nat × Nat) :=
  let l := rpLen p
  [(rpY p, fmtBytes (rpFmtY p) * (l * rpRows p))]
    ++ (if 3 ≤ sub && rpAff p != 0 then [(rpD p, 4 * l * (if rpAff p = 2 then 2 else 1))] else [])

def rowAccess (sub : Nat) (p : BitVec 128) : List Nat × List Nat :=
  let regs := fun (l : List (Nat × Nat)) => (l.map fun e => regionsOf e.1 e.2).flatten.eraseDups
  (regs (rowReads sub p), regs (rowWrites sub p))

/-- The KIND that a forward operation leaves, and a backward one expects. -/
def rowKind (sub : Nat) : Nat := sub % 3 + 1

/-- Checks of R153, in the order of its table; `sbase` is the scratch base of a backward operation. -/
def rowStop (r : Room) (w : VSlot) : Option U16 :=
  let p := Tbl.get (0 : BitVec 128) r.rp (vTa w % 8)
  let sub := vSub w
  let sbase := field (r.x_ (vXs w)) 0 12
  let zero := fun (lo n : Nat) => field p lo n == 0
  let unused := (3 ≤ sub || (zero 60 13 && zero 34 13)) && (rpAff p != 0 || (zero 47 13 && zero 34 13)) && (sub % 3 != 2 || rpAff p == 0)
  if 5 < sub then some 0x0304
  else if !zero 0 4 || 5 < rpFmtX p || 5 < rpFmtY p || rpAff p == 3 || 8 ≤ vTa w || !unused
      || (rowReads sub p ++ rowWrites sub p).any (fun e => larderSize < e.1 + e.2) then some 0x0301
  else if 4096 < rpAbase p + rpRows p || (3 ≤ sub && (4096 < sbase + rpRows p
      || (sbase < rpAbase p + rpRows p && rpAbase p < sbase + rpRows p))) then some 0x0302
  else if 3 ≤ sub && !(upTo (rpRows p)).all (fun j =>
      let a := (Tbl.get {} r.attic (rpAbase p + j) : Attic)
      a.valid && a.handle == rpHandle p && a.kind == rowKind sub) then some 0x0303
  else none

/-! ### Chunks (R148) -/

/-- Chunks of 1,024 elements in a row. -/
def rpChunks (p : BitVec 128) : Nat := (rpLen p + 1023) / 1024

/-- Chunks of all passes: one more than the last value of p × n_c + c_k. -/
def rowTotal (o : Pend) : Nat := rowPasses (vSub o.slot) * rpChunks o.aux

/-- Element i of row j as pass `p` reads it: its values, the marks of x and dy, those of γ and β, and the flags of the widening. -/
structure RowRead where
  e : RowEl
  mark : Bool
  markP : Bool
  fl : Flags
deriving DecidableEq, Repr

def rowRead (r : Room) (o : Pend) (last : Bool) (j i : Nat) : RowRead :=
  let p := o.aux
  let sub := vSub o.slot
  let ex := fmtBytes (rpFmtX p)
  let none_ : (Nat × Bool) × Flags := ((0, false), 0)
  let get := fun (f a n : Nat) => let v := r.larderElem a n; let w := packNum fF64 .rne (elemNum f v.1); ((w.1, v.2), w.2)
  let x := get (rpFmtX p) (rpX p + ex * (j * rpLen p + i)) ex
  let dy := if 3 ≤ sub then get cS16 (rpG p + 2 * (j * rpLen p + i)) 2 else none_
  let g := if rpAff p != 0 && (3 ≤ sub || last) then get cF32 (rpP p + 4 * i) 4 else none_
  let b := if rpAff p = 2 && sub < 3 && last then get cF32 (rpP p + 4 * (rpLen p + i)) 4 else none_
  { e := { x := x.1.1, dy := dy.1.1, g := g.1.1, b := b.1.1 }, mark := x.1.2 || dy.1.2, markP := g.1.2 || b.1.2,
    fl := x.2 ||| dy.2 ||| g.2 ||| b.2 }

/-- The attic entry that holds a row's running quantities. -/
def rowEntry (o : Pend) (j : Nat) : Nat := (if vSub o.slot < 3 then rpAbase o.aux else field o.x0 0 12) + j

/-- A chunk of a statistics pass of row j: the running quantities go into its entry, KIND 4 until a forward operation's last
statistics pass ends, KIND 5 for a backward one (R151). A poisoned element of the row, or a poisoned ε, marks the entry (R416). -/
def rowStatChunk (r : Room) (o : Pend) (j : Nat) : Room × List (Nat × Flags) :=
  let p := o.aux
  let sub := vSub o.slot
  let k := o.chunk
  let pass := k / rpChunks p
  let lo := 1024 * (k % rpChunks p)
  let at_ := (Tbl.get {} r.attic (rpAbase p + j) : Attic)
  let own := (Tbl.get {} r.attic (rowEntry o j) : Attic)
  let ins := (countUp lo (min 1024 (rpLen p - lo))).map (rowRead r o false j)
  let f := rowFold sub (rpAff p) pass (at_.v1, at_.v2) (if k = 0 then rowBegin sub else (own.v1, own.v2)) (ins.map (·.e))
  let ends := (k + 1) % rpChunks p == 0
  let e := if ends then rowEnd sub pass (ofCount (rpLen p)) o.x0.toNat f.1 else (f.1, 0)
  let po := (k != 0 && own.poison) || ins.any (fun i => i.mark || i.markP) || (3 ≤ sub && at_.poison)
    || (sub != 2 && o.marks.contains (vXs o.slot))
  let kind := if 3 ≤ sub then 5 else if ends && pass + 2 = rowPasses sub then rowKind sub else 4
  let fl := ((f.2.zip ins).map fun x => x.1 ||| x.2.fl) ++ [e.2]
  let a : Attic := { v1 := e.1.1, v2 := e.1.2, valid := true, kind := kind, handle := rpHandle p, poison := po }
  let r := { r with attic := Tbl.set r.attic (rowEntry o j) a }
  (r.orVflags (if po then allFlags fl ||| fPoison else allFlags fl), (fl.zipIdx).map fun x => (lo + x.2, x.1))

/-- A chunk of the last pass of row j: its outputs, and its part of dγ and dβ. A poisoned element of the row marks every output of
it (R416), one of γ or β the outputs that read it. -/
def rowApplyChunk (r : Room) (o : Pend) (j : Nat) : Room × List (Nat × Flags) :=
  let p := o.aux
  let sub := vSub o.slot
  let l := rpLen p
  let lo := 1024 * (o.chunk % rpChunks p)
  let ey := fmtBytes (rpFmtY p)
  let at_ := (Tbl.get {} r.attic (rpAbase p + j) : Attic)
  let own := (Tbl.get {} r.attic (rowEntry o j) : Attic)
  let ins := (countUp lo (min 1024 (l - lo))).map (rowRead r o true j)
  let puts := ins.map fun i => rowApply sub (rpAff p) (ofCount l) (at_.v1, at_.v2) (own.v1, own.v2) i.e
  let all := own.poison || at_.poison || o.marks.contains (vTb o.slot)
  let out := (puts.zip ins).map fun x => (elemPack (rpFmtY p) .rne (xsK o.x1) (decodeNum fF64 x.1.y), all || x.2.mark || x.2.markP)
  let r := if xsMaxen o.x1 then
      (puts.zip out).foldl (fun (r : Room) x => r.noteMax (rpFmtY p) (xsU o.x1) (decodeNum fF64 x.1.y) x.2.1.2 x.2.2) r
    else r
  let r := r.putLarder (rpY p + ey * (j * l + lo)) ey (out.map fun x => (x.1.1, x.2))
  let add := fun (r : Room) (a : Nat) (term : RowPut × RowRead → Nat × Flags) =>
    let vs := ((puts.zip ins).zipIdx).map fun x =>
      let old := r.larderElem (a + 4 * (lo + x.2)) 4
      (gradAdd old.1 (term x.1), old.2 || all || x.1.2.mark)
    (r.putLarder (a + 4 * lo) 4 (vs.map fun v => (v.1.1, v.2)), vs.map (·.1.2))
  let (r, fg) := if 3 ≤ sub && rpAff p != 0 then add r (rpD p) fun x => mulD x.2.e.dy x.1.h else (r, [])
  let (r, fb) := if 3 ≤ sub && rpAff p = 2 then add r (rpD p + 4 * l) fun x => (x.2.e.dy, 0) else (r, [])
  let fl := ((puts.zip (ins.zip out)).zipIdx).map fun x =>
    x.1.1.fl ||| x.1.2.1.fl ||| x.1.2.2.1.2 ||| fg.getD x.2 0 ||| fb.getD x.2 0
  (r.orVflags (if out.any (·.2) then allFlags fl ||| fPoison else allFlags fl), (fl.zipIdx).map fun x => (lo + x.2, x.1))

/-- One chunk of every row of the block, rows in ascending order. Of their events the record takes that of the lowest element, then
row: the lanes run side by side, one element of every row at a time. -/
def rowChunk (r : Room) (o : Pend) : Room :=
  let pass := o.chunk / rpChunks o.aux
  let out := (upTo (rpRows o.aux)).foldl (fun (a : Room × List (Nat × Nat × Flags)) j =>
    let x := if pass + 1 = rowPasses (vSub o.slot) then rowApplyChunk a.1 o j else rowStatChunk a.1 o j
    (x.1, a.2 ++ x.2.map fun e => (e.1, j, e.2))) (r, [])
  let first := (out.2.filter fun e => (vecEvent e.2.2).isSome).foldl (fun (b : Option (Nat × Nat × Flags)) e =>
    match b with
    | some g => if e.1 < g.1 then some e else some g
    | none => some e) none
  match first with
  | some (_, j, f) => out.1.latchVec o 7 (pass + 1) (vTa o.slot) j 0 f
  | none => out.1

/-- The next chunks of a row operation. -/
def rowRun : Nat → Room → Pend → Room × Pend
  | 0, r, o => (r, o)
  | n + 1, r, o =>
    if o.done then (r, o)
    else rowRun n (rowChunk r o) { o with chunk := o.chunk + 1, done := o.chunk + 1 == rowTotal o }

/-- Has a stop request reached the stream that a room works for? -/
def State.roomStopping (s : State) (n : Nat) : Bool :=
  match s.roomOp n with
  | some (k, _) => (s.ring k).stopReq
  | none => false

/-- A row operation of kind `sub` at the head of the row engine runs, to its end; on a stop request, to the end of its chunk (R71, R148)
(DESIGN CHOICE, log 67). -/
def rowCommand (room : BitVec 7) (sub : Nat) (s : State) : Out :=
  let n := room.toNat
  match (s.room n).rowQ with
  | o :: t => act (s.roomWorks n && vSub o.slot == sub && !o.done && (s.room n).mayWrite o) s fun s =>
      s.updRoom n fun r =>
        let x := rowRun (if s.roomStopping n then 1 else rowTotal o) r o
        { x.1 with rowQ := x.2 :: t }
  | [] => .next s

def execNorm (room : BitVec 7) (s : State) : Out := rowCommand room 0 s
def execRms (room : BitVec 7) (s : State) : Out := rowCommand room 1 s
def execSmax (room : BitVec 7) (s : State) : Out := rowCommand room 2 s
def execNormb (room : BitVec 7) (s : State) : Out := rowCommand room 3 s
def execRmsb (room : BitVec 7) (s : State) : Out := rowCommand room 4 s
def execSmaxb (room : BitVec 7) (s : State) : Out := rowCommand room 5 s

end Sys2Proof.Machine
end

