-- ==== Sys2Proof/Machine/Issue.lean ====
section
/-! DEFINITION. How a room word issues (09_room_instruction_words R199 to R202, R208, R220 to R222), what releases the accesses of an
engine, and the delivery of signals. -/

namespace Sys2Proof.Machine

/-! ### Slots of a word (R199) -/

def slotScalar (w : RoomWord) : SSlot := bits w 208 48
def slotVector (w : RoomWord) : VSlot := bits w 152 56
def slotMatrix (w : RoomWord) : MSlot := bits w 112 40
def slotLoad (w : RoomWord) : XSlot := bits w 72 40
def slotStore (w : RoomWord) : XSlot := bits w 32 40
def slotSync (w : RoomWord) : U32 := bits w 0 32

def syOp (w : U32) : Nat := field w 28 4
def syRoom (w : U32) : Nat := field w 21 7
def syCtr (w : U32) : Nat := field w 17 4
def syN (w : U32) : Nat := field w 9 8

/-- The fields that a sync operation uses. -/
def syMask (op : Nat) : U32 :=
  match op with
  | 1 => 0xF00001F0
  | 2 => 0xFFFE0000
  | 3 => 0xF01FFE00
  | _ => 0xF0000000

/-- The cause of a sync slot (R222, R225). -/
def syncStop (s : State) (n : Nat) (w : U32) : Option U16 :=
  if 4 < syOp w || w &&& ~~~(syMask (syOp w)) != 0 then some 0x0405
  else if syOp w = 2 then
    let m := syRoom w
    if s.ownerOfRoom m != s.ownerOfRoom n then some 0x0407
    else if !s.ident.roomsPresent.getLsbD m || s.outOfService 0 m || (s.room m).zeroing then some 0x0406
    else none
  else none

/-! ### Checks, highest slot first (R202) -/

/-- The cause and station of the first failing slot. -/
def wordStop (s : State) (n : Nat) (w : RoomWord) : Option (U16 × Nat) :=
  let r := s.room n
  let v := slotVector w
  if 2047 < r.pc then some (0x0409, 0)
  else if r.imemPoison.contains r.pc then some (0x0802, 0)
  else match scalarStop r (slotScalar w) with
  | some c => some (c, 0)
  | none =>
    let vs := match vectorStop r v with
      | some c => some (c, 4)
      | none =>
        if vOp v = 4 then
          let a := field (r.x_ (vXs v)) 0 11
          if kernelPoisoned r a then some (0x0802, 4) else if !kernelOk false (kernelAt r n a) then some (0x0203, 4) else none
        else if vOp v = 7 then (rowStop r v).map fun c => (c, 5)
        else none
    match vs with
    | some e => some e
    | none =>
      match matrixStop r (slotMatrix w) with
      | some c => some (c, 3)
      | none =>
        match (loadStop r (slotLoad w)).or (s.windowStop n (slotLoad w)) with
        | some c => some (c, 1)
        | none =>
          match storeStop r (slotStore w) with
          | some c => some (c, 9)
          | none => (syncStop s n (slotSync w)).map fun c => (c, 0)

/-! ### Waiting (R200, R61, R62) -/

/-- Accesses of each slot: matrix, vector and row, load, store, short-vector. A chained matrix instruction's writes are those of the
instruction before it (R113). -/
def wordAccess (r : Room) (w : RoomWord) : List (List Nat × List Nat) :=
  let m := slotMatrix w
  let chain := match r.matQ.getLast? with | some l => !l.done && matChains m (bits l.slot 0 40) | none => false
  let v := slotVector w
  let sc := slotScalar w
  let grp := regionsOf (vldvAddr r sc) (groupBytes sc)
  let ma := matAccess r m
  [(ma.1, if chain then [] else ma.2),
   if vOp v = 7 then rowAccess (vSub v) (Tbl.get 0 r.rp (vTa v % 8)) else vecAccess v,
   loadAccess (slotLoad w), storeAccess (slotStore w),
   if scOpc sc = 0x40 then (grp, []) else if scOpc sc = 0x41 then ([], grp) else ([], [])]

/-- Scalar registers that the vector, matrix, load and store slots of a word name (R207); of a KRUN, those that its kernel's sources do,
all of them while its KLOAD is outstanding. -/
def wordRegs (r : Room) (w : RoomWord) : List Nat :=
  let v := slotVector w
  let m := slotMatrix w
  let xfer := fun (x : XSlot) => if xOp x = 0 || xOp x = 3 && x == slotLoad w then [] else
    xferScalars x (xOp x == 1 && fmtFloat (dFmt (r.binding (xDb x)).desc))
  let coming := r.vecQ.any fun o => vOp o.slot == 4 && vSub o.slot == vSub v
  (match vOp v with
    | 3 => if coming then upTo 32 else ((kBody (Tbl.get [] r.kernels (vSub v))).map fun k =>
        ([kSa k, kSb k, kSc k].filter (32 ≤ ·)).map (· - 32)).flatten
    | 4 => [vXs v]
    | _ => vecScalars v)
  ++ (if mOp m = 4 then [mTieReg m] else []) ++ xfer (slotLoad w) ++ xfer (slotStore w)

/-- Must a word wait? Every access of the word is registered in one place, its reads counted together. A VSCAT and the stores of the
room keep their program order (Promise E, R143). -/
def wordWaits (r : Room) (w : RoomWord) : Bool :=
  let acc := wordAccess r w
  let wr := (acc.map (·.2)).flatten
  let v := slotVector w
  let (xs', vs) := scalarRegs (slotScalar w)
  let xs := xs' ++ wordRegs r w
  let sy := slotSync w
  let mask := fun (b : Nat) => syOp sy == 1 && flag sy b
  r.readWaits (acc.map (·.1)).flatten || r.writeWaits wr || wr.eraseDups.length != wr.length
    || xs.any (fun i => r.issued < Tbl.get 0 r.xReady i) || vs.any (fun i => r.issued < Tbl.get 0 r.vReady i)
    || (mOp (slotMatrix w) != 0 && 2 ≤ (r.matQ.filter fun o => !o.done).length)
    || (vOp v != 0 && 2 ≤ r.vecQ.length) || (vOp v == 7 && 2 ≤ r.rowQ.length + (r.vecQ.filter fun o => vOp o.slot == 7).length)
    || ((vOp v == 5 || vOp v == 6) && !r.vecQ.isEmpty) || (vOp v == 6 && firstBad r v < 16 && !r.storeQ.isEmpty)
    || (xOp (slotLoad w) != 0 && 8 ≤ r.loadQ.length) || (xOp (slotStore w) != 0 && 8 ≤ r.storeQ.length)
    || storeTagged r (slotStore w)
    || (mask 8 && !r.matQ.isEmpty) || (mask 7 && !r.vecQ.isEmpty) || (mask 6 && (!r.rowQ.isEmpty || r.vecQ.any fun o => vOp o.slot == 7))
    || (mask 5 && !r.loadQ.isEmpty) || (mask 4 && (!r.storeQ.isEmpty || r.vecQ.any fun o => vOp o.slot == 6))
    || (syOp sy == 2 && 4 ≤ r.sigQ.length) || (syOp sy == 3 && Tbl.get 0 r.ctr (syCtr sy) < syN sy)

/-! ### Issue -/

def loadIssue (x r : Room) (w : XSlot) : Room :=
  if xOp w = 0 then r
  else
    let (rd, wr) := loadAccess w
    let aux : BitVec 128 := if xOp w = 2 then Tbl.get 0 x.wg (xWgi w) else (Tbl.get (0 : U64) x.ts (xTs w)).setWidth 128
    { r with loadQ := r.loadQ ++ [{ slot := w.setWidth 56, x0 := x.x_ (xXs w), x1 := x.x_ (xXs w + 1), aux := aux,
                                    marks := if xOp w = 3 then [] else
                                      (xferScalars w (xOp w == 1 && fmtFloat (dFmt (x.binding (xDb w)).desc))).filter x.xPoison.contains,
                                    db := x.binding (xDb w), reads := rd, writes := wr, order := x.issued }] }

def storeIssue (x r : Room) (w : XSlot) : Room :=
  if xOp w = 0 then r
  else
    let (rd, wr) := storeAccess w
    { r with storeQ := r.storeQ ++ [{ slot := w.setWidth 56, x0 := x.x_ (xXs w), x1 := x.x_ (xXs w + 1),
                                      aux := (Tbl.get (0 : U64) x.ts (xTs w)).setWidth 128,
                                      marks := (xferScalars w (xOp w == 1 && fmtFloat (dFmt (x.binding (xDb w)).desc))).filter
                                        x.xPoison.contains, db := x.binding (xDb w), reads := rd, writes := wr, order := x.issued }] }

/-- The sync slot (R221); BLKEND ends the block. -/
def syncIssue (x r : Room) (w : U32) : Room :=
  match syOp w with
  | 2 => { r with sigQ := r.sigQ ++ [{ room := syRoom w, ctr := syCtr w, stores := x.storeQ.length,
                                       scats := (x.vecQ.filter fun o => vOp o.slot == 6).length }] }
  | 3 => { r with ctr := Tbl.set r.ctr (syCtr w) (Tbl.get 0 r.ctr (syCtr w) - syN w) }
  | 4 => { r with active := false }
  | _ => r

/-- The operations a word starts are registered, reads before writes (R62). -/
def registerNew (old r : Room) : Room :=
  let fresh := fun (a b : List Pend) => b.drop a.length
  let os := fresh old.matQ r.matQ ++ fresh old.vecQ r.vecQ ++ fresh old.loadQ r.loadQ ++ fresh old.storeQ r.storeQ
  os.foldl (fun r o => r.register o) r

/-- A word issues: every slot reads the room as it stood before (R201). The scalar slot acts last, so that a pointer it writes
stands over an advance. -/
def issueWord (x : Room) (w : RoomWord) : Room :=
  let v := slotVector w
  let rp := Tbl.get (0 : BitVec 128) x.rp (vTa v % 8)
  let r := matrixIssue x x (slotMatrix w)
  let r := vectorIssue x r v (if vOp v = 7 then rowAccess (vSub v) rp else ([], [])) rp
  let r := storeIssue x (loadIssue x r (slotLoad w)) (slotStore w)
  let r := registerNew x r
  let r := scalarEffect x r (slotScalar w)
  let r := nextPc x r (slotScalar w)
  syncIssue x r (slotSync w)

/-- The sector of a room's memory that a word lies in is poisoned (R310). -/
def Room.hurt (r : Room) : RoomPlace → Room
  | .larder k => { r with larderPoison := insertNat k.toNat r.larderPoison }
  | .accumulator k => { r with accPoison := insertNat k.toNat r.accPoison }
  | .transposing k => { r with tbPoison := insertNat k.toNat r.tbPoison }
  | .attic e => { r with attic := (upTo 4).foldl (fun (a : Tbl Attic) i =>
      let k := 4 * (e.toNat / 4) + i
      Tbl.set a k { Tbl.get ({} : Attic) a k with poison := true }) r.attic }
  | .imem w => { r with imemPoison := (upTo 2).foldl (fun (l : List Nat) i => insertNat (2 * (w.toNat / 2) + i) l) r.imemPoison }

/-- An error in a word of a room's memories, as its check code finds it: the code being linear, by what is XORed in alone (R307, R310, R312 to R314, R419): it is counted in 0x8072; one that cannot be corrected
poisons its sector and is reported. -/
def roomFound (s : State) (n : Nat) (c : RoomCheck) : State :=
  if c.err = 0 then s
  else if (bchDecode c.err).isSome then
    noteCorrected { s with svc := { s.svc with roomCorrected := Tbl.set s.svc.roomCorrected n (satInc (Tbl.get 0 s.svc.roomCorrected n)) } } 0 n 0x0705
  else
    let p := some (s.ownerOfRoom n)
    let s := s.updRoom n fun r => r.hurt c.place
    let s := { s with svc := { s.svc with roomUncorrectable := Tbl.set s.svc.roomUncorrectable n (satInc (Tbl.get 0 s.svc.roomUncorrectable n)) } }
    let s := memEvent s { granule := 0, unit := n, uclass := 1, kind := 2, part := p }
    noteUncorrectable (logEvent s 0x0702 { sev := 2, unit := BitVec.ofNat 8 n, part := p }) 0 n

/-! ### ACCESS_RELEASE (R61) -/

/-- A completed store or scatter no longer holds back signals issued after it. -/
def Room.storeDone (r : Room) : Room := { r with sigQ := r.sigQ.map fun g => { g with stores := g.stores - 1 } }
def Room.scatDone (r : Room) : Room := { r with sigQ := r.sigQ.map fun g => { g with scats := g.scats - 1 } }

/-- The oldest matrix instruction, its result delivered, ends. -/
def releaseMatrix (s : State) (n : Nat) : State :=
  s.updRoom n fun r => match r.matQ with
    | o :: t => if o.done then { r with matQ := t }.release o (match t with | p :: _ => p.chain | [] => false) else r
    | [] => r

/-- The access a gather or scatter, a load or a store at the head of its queue is refused (R314). -/
def State.headRefused (s : State) (n : Nat) (e : Engine) : Option (Nat × U16) :=
  let r := s.room n
  match e with
  | .vector => match r.vecQ with
    | o :: _ => if vOp o.slot = 5 || vOp o.slot = 6 then gatherRefused s r o.slot else none
    | [] => none
  | .load => match r.loadQ with
    | o :: _ => loadRefused s o (bits o.slot 0 40)
    | [] => none
  | .store => match r.storeQ with
    | o :: _ => storeRefused s o (bits o.slot 0 40)
    | [] => none
  | _ => none

/-- May the oldest vector operation end: its writes may land, a ROW finds a place, a KSYNC the row engine empty, a VSCAT no earlier store
of the room (Promise E) (DEDUCED, log 102). -/
def Room.vectorReady (r : Room) (o : Pend) : Bool :=
  match vOp o.slot with
  | 7 => r.rowQ.length < 2
  | 8 => r.rowQ.isEmpty && r.mayWrite o
  | 6 => r.mayWrite o && r.storeQ.all fun q => o.order ≤ q.order
  | _ => r.mayWrite o

/-- The oldest vector operation takes effect and ends: a ROW is handed to the row engine. -/
def releaseVector (s : State) (n : Nat) : State :=
  let r := s.room n
  match r.vecQ with
  | [] => s
  | o :: t =>
    let w : VSlot := o.slot
    let pop := fun (s : State) => s.updRoom n fun r => { r with vecQ := t }.release o false
    if !r.vectorReady o then s
    else match vOp w with
    | 1 => pop (s.updRoom n fun r => vld r o w)
    | 2 => pop (s.updRoom n fun r => vst r o w)
    | 3 => pop (s.updRoom n fun r => krun r o w)
    | 4 => pop (s.updRoom n fun r => { r with kernels := Tbl.set r.kernels (vSub w) (kernelAt r n (field o.x0 0 11)) })
    | 5 => pop (vgath s n o w)
    | 6 => (pop (s.roomStores n fun s => vscat s n o w)).updRoom n Room.scatDone
    | 7 => s.updRoom n fun r => { r with vecQ := t, rowQ := r.rowQ ++ [o] }
    | _ => pop s

/-- The oldest row operation, computed, ends. -/
def releaseRow (s : State) (n : Nat) : State :=
  s.updRoom n fun r => match r.rowQ with
    | o :: t => if o.done then { r with rowQ := t }.release o false else r
    | [] => r

/-- The oldest load lands. -/
def releaseLoad (s : State) (n : Nat) : State :=
  let r := s.room n
  match r.loadQ with
  | [] => s
  | o :: t =>
    let w : XSlot := bits o.slot 0 40
    if !r.mayWrite o then s
    else
      let s := match xOp w with
        | 1 => loadTile s n o w
        | 2 => loadWindow s n o w
        | _ => transposeTile s n w
      s.updRoom n fun r => { r with loadQ := t }.release o false

/-- May the oldest store be accepted: no VSCAT of the room comes before it (Promise E) (DEDUCED, log 102). -/
def Room.storeReady (r : Room) (o : Pend) : Bool := !(r.vecQ.any fun q => vOp q.slot == 6 && q.order ≤ o.order)

/-- The oldest store is accepted. -/
def releaseStore (s : State) (n : Nat) : State :=
  match (s.room n).storeQ with
  | [] => s
  | o :: t =>
    if !(s.room n).storeReady o then s
    else
      let s := s.roomStores n fun s => storeTile s n o (bits o.slot 0 40)
      s.updRoom n fun r => ({ r with storeQ := t }.release o false).storeDone

/-- The oldest operation of an engine ends. -/
def releaseFrom (s : State) (n : Nat) : Engine → State
  | .matrix => releaseMatrix s n
  | .vector => releaseVector s n
  | .row => releaseRow s n
  | .load => releaseLoad s n
  | .store => releaseStore s n

/-! ### Faults of a room (R126, R202, R225, R238) -/

/-- The oldest operation of an engine without what it would access: that is refused. -/
def dropHead (s : State) (n : Nat) (e : Engine) : State :=
  s.updRoom n fun r => match e with
    | .vector => match r.vecQ with
      | o :: t => ({ r with vecQ := t }.release o false).scatDone
      | [] => r
    | .load => match r.loadQ with
      | o :: t => { r with loadQ := t }.release o false
      | [] => r
    | .store => match r.storeQ with
      | o :: t => ({ r with storeQ := t }.release o false).storeDone
      | [] => r
    | _ => r

/-- What an engine of a room has yet to do before its oldest operation can end. -/
def Room.computeHead (r : Room) : Engine → Room
  | .matrix => match r.matQ with
    | o :: t => if o.done then r else { matResult r o with matQ := { o with done := true } :: t }
    | [] => r
  | .row => match r.rowQ with
    | o :: t => let x := rowRun (rowTotal o) r o; { x.1 with rowQ := x.2 :: t }
    | [] => r
  | _ => r

/-- Can the oldest operation of an engine end? -/
def Room.headReady (r : Room) : Engine → Bool
  | .matrix => match r.matQ with | o :: _ => o.done || o.chain || r.mayWrite o | [] => false
  | .vector => match r.vecQ with | o :: _ => r.vectorReady o | [] => false
  | .row => match r.rowQ with | o :: _ => o.done || r.mayWrite o | [] => false
  | .load => match r.loadQ with | o :: _ => r.mayWrite o | [] => false
  | .store => match r.storeQ with | o :: _ => r.storeReady o | [] => false

/-- The operations that words before a faulting word issued complete, in an order that the scoreboard admits, so that reissuing the word
gives the result of an uninterrupted run (R126, R225) (DEDUCED, log 113). -/
def finishRoom : Nat → State → Nat → State
  | 0, s, _ => s
  | k + 1, s, n =>
    match [Engine.store, .matrix, .vector, .row, .load].find? (s.room n).headReady with
    | some e =>
      let s := if (s.headRefused n e).isSome then dropHead s n e else releaseFrom (s.updRoom n fun r => r.computeHead e) n e
      finishRoom k s n
    | none => s

/-- Rooms that run a share of a macro-operation. -/
def State.roomsRunning (s : State) (k q : Nat) : List Nat := (s.roomsOf (ringPart k)).filter fun m => (s.room m).run == some (k, q)

/-- A room word or an operation of it faults: what its macro-operation's rooms have issued completes, the stream halts (R202, R225, R238).
Stations: 1 load, 2 transpose, 3 matrix, 4 vector, 5 row, 9 store, 0 none. -/
def roomFault (s : State) (n : Nat) (cause : U16) (station : Nat) (elem : Nat) (refused : Option Nat) : State :=
  match s.roomOp n with
  | some (k, o) =>
    let s := each (s.roomsRunning k o.orig) s fun s m => finishRoom 64 s m
    let (j, s) := s.takeFree
    let r := s.room n
    let ff := if station = 3 then r.ffMat else if station = 4 || station = 5 then r.ffVec else 0
    faultOp s k o.orig { cause := cause, seq := o.seq, room := some n, station := station, prog := BitVec.ofNat 16 o.prog,
                         entry := BitVec.ofNat 16 o.entry, elem := BitVec.ofNat 32 elem, ffrec := ff, refused := refused,
                         coords := (upTo 4).map fun i => (Config.tileCoord j i).toNat }
  | none => s

/-- Where the accesses of an engine are made (R51). -/
def stationOf : Engine → Nat
  | .matrix => 3 | .vector => 4 | .row => 5 | .load => 1 | .store => 9

/-- The oldest operation of an engine ends; one whose access is refused faults. -/
def endHead (s : State) (n : Nat) (e : Engine) : State :=
  if !(s.room n).headReady e then s
  else match s.headRefused n e with
    | some (a, c) => roomFault s n c (stationOf e) 0 (some a)
    | none => releaseFrom s n e

/-- ACCESS_RELEASE: the last beat of the oldest operation of an engine is done, and its accesses are released (DEDUCED, log 100). `found`: errors that have struck before
the access reads. -/
def execAccessRelease (room : BitVec 7) (eng : Engine) (found : List Flaw) (s : State) : Out :=
  let n := room.toNat
  act (s.roomLive n && (s.roomOp n).isSome) s fun s => endHead (strikeAll s found) n eng

/-! ### ROOM_WORD_ISSUE (R200, R202) -/

/-- A room attempts to issue its next word: a fault, a wait that takes an issue slot, or the word (R200, R202). A gather or scatter
whose index fails has moved the elements before it (R143) (DESIGN CHOICE, log 65). -/
def roomStep (s : State) (n : Nat) : State :=
  let r := s.room n
  let w := r.word n r.pc
  let v := slotVector w
  match wordStop s n w with
  | some (c, st) => roomFault s n c st 0 none
  | none =>
    let s := s.updRoom n fun r => { r with issued := r.issued + 1 }
    if wordWaits r w then s
    else
      let bad := if vOp v = 5 || vOp v = 6 then firstBad r v else 16
      if bad < 16 then
        match gatherRefused s r v with
        | some (a, c) => roomFault s n c 4 0 (some a)
        | none =>
          let o : Pend := { slot := v, x0 := r.x_ (vXs v), marks := (vecScalars v).filter r.xPoison.contains, loops := r.loopWord,
                            waddr := r.pc, order := r.issued }
          let s := if vOp v = 5 then vgath s n o v else s.roomStores n fun s => vscat s n o v
          roomFault s n 0x0206 4 bad none
      else s.updRoom n fun _ => { issueWord r w with issued := r.issued + 1 }

/-- Is the word at a room's PC one whose bits are known: written to it, or zero for want of a translation? A translated word has no
bits that the spec fixes (R239): what a translated share does as a whole, the rows of the Ituno form say (R231, R234, R245)
(DESIGN CHOICE, log 51). -/
def Room.wordKnown (r : Room) : Bool := r.imemFrom == 0 || r.imem.has r.pc

/-- ROOM_WORD_ISSUE; `found`: an error in the word of a room memory that the issue reads. -/
def execRoomWordIssue (room : BitVec 7) (found : Option RoomCheck) (s : State) : Out :=
  act (s.roomIssues room.toNat && (s.room room.toNat).wordKnown) s fun s =>
    let s := match found with
      | some c => roomFound s room.toNat c
      | none => s
    if s.roomIssues room.toNat then roomStep s room.toNat else s

/-! ### SIGNAL_DELIVERY (R221, R222) -/

/-- The oldest signal is delivered once the stores before it are visible and its counter has room; one to a room that has gone faults
the stream. -/
def execSignalDelivery (room : BitVec 7) (s : State) : Out :=
  let n := room.toNat
  match (s.room n).sigQ with
  | g :: t =>
    act (s.roomLive n && g.stores == 0 && g.scats == 0) s fun s =>
      if s.outOfService 0 g.room || (s.room g.room).zeroing then roomFault s n 0x0406 0 0 none
      else if 255 ≤ Tbl.get 0 (s.room g.room).ctr g.ctr then s
      else
        let s := s.updRoom n fun r => { r with sigQ := t }
        s.updRoom g.room fun r => { r with ctr := Tbl.set r.ctr g.ctr (Tbl.get 0 r.ctr g.ctr + 1) }
  | [] => .next s

end Sys2Proof.Machine
end

