-- ==== Sys2Proof/Machine/Ituno.lean ====
section
/-! DEFINITION. The operations of the Ituno form over whole tensors (10_ituno_form R231, R234): each computes the result of the entry
that a RUN names as its defining rules give it, whatever the translation. Axis 0 is the column axis; operands enter at the values
they represent. -/

namespace Sys2Proof.Machine

/-- A RUN's entry at work: the state so far, the scale registers in use, flags by destination handle, and how it ended. -/
structure Work where
  s : State
  p : Nat
  o : Op
  e : PEntry
  img : List Byte
  regs : Tbl ScaleReg
  fl : Tbl Flags := []
  /-- Flags of no destination in particular. -/
  all : Flags := 0
  stop : Option FaultInfo := none


def Work.desc (k : Work) (l : Nat) : Desc := Tbl.get 0 k.o.descs (pPos k.e l)
def Work.handle (k : Work) (l : Nat) : Nat := k.o.bind (pPos k.e l)
def Work.count (k : Work) (l : Nat) : Nat := dCount (k.desc l)
def Work.dim (k : Work) (l i : Nat) : Nat := dDim (k.desc l) i
/-- An element of operand `l` as a room takes it in: at the value it represents, Q4 expanded (R84), with its mark and the flags of
reading it. -/
def Work.value (k : Work) (l n : Nat) : Elem :=
  let d := k.desc l
  let e := (k.s.elem d n).expanded d
  if fmtFloat (dFmt d) then { e with x := scaleNum (-(scaleOf k.regs d)) e.x } else e

/-- The rooms of the entry's shares. -/
def Work.rooms (k : Work) : List Nat := k.o.shares.map (·.room)

/-- Fails with a cause, unless it has failed already. The report names a room of the entry (R238) (DESIGN CHOICE, log 53). -/
def Work.fail (k : Work) (cause : U16) (station : Nat) (elem : Nat := 0) : Work :=
  if k.stop.isSome then k
  else
    let (j, s) := k.s.takeFree
    let room := k.rooms[Config.faultRoom j % k.rooms.length]?
    let f : FaultInfo := { cause := cause, seq := k.o.seq, room := room, station := station, elem := BitVec.ofNat 32 elem,
                           prog := BitVec.ofNat 16 k.o.prog, entry := BitVec.ofNat 16 k.o.entry,
                           coords := (upTo 4).map fun i => (Config.tileCoord j i).toNat }
    { k with s := s, stop := some f }

/-- Access to elements of an operand: a refused one ends the entry (R314), any other brings its granule in. -/
def Work.access (k : Work) (l : Nat) (ns : List Nat) (station : Nat) : Work :=
  if k.stop.isSome then k
  else match k.s.elemsStop (k.desc l) ns with
    | some (a, c) =>
      let k := k.fail c station
      { k with stop := k.stop.map fun f => { f with refused := some a } }
    | none => if station = 9 then k else { k with s := touchElems k.s (k.desc l) ns }

def Work.note (k : Work) (l : Nat) (f : Flags) : Work := { k with fl := Tbl.set k.fl (k.handle l) (Tbl.get 0 k.fl (k.handle l) ||| f) }
def Work.noteAll (k : Work) (f : Flags) : Work := { k with all := k.all ||| f }

/-- A descriptor without scale and histogram: conversions to or from integers use neither (R86). -/
def Work.plain (d : Desc) : Desc := putField (putField d 554 1 0) 567 1 0

/-- Exact values at scale `src` into elements of operand `l` (R88, R90 to R97). -/
def Work.put (k : Work) (l : Nat) (src : Int) (ns : List Nat) (vs : List (Num × Bool)) : Work :=
  if k.stop.isSome then k
  else
    let (s, regs, f) := convertInto k.s k.p k.regs (k.desc l) src ns vs
    { k with s := s, regs := regs }.note l f

/-- Values of an integer conversion into operand `l`. -/
def Work.putPlain (k : Work) (l : Nat) (ns : List Nat) (vs : List (Num × Bool)) : Work :=
  if k.stop.isSome then k
  else
    let (s, f) := writeElems k.s k.p (Work.plain (k.desc l)) 0 0 .rne ns vs
    { k with s := s }.note l f

/-- Bit patterns moved unchanged into operand `l`. -/
def Work.putBitsOf (k : Work) (l : Nat) (ns : List Nat) (vs : List (Nat × Bool)) : Work :=
  if k.stop.isSome then k
  else
    let (s, f) := moveElems k.s k.p (k.desc l) ns vs
    { k with s := s }.note l f

/-- Elements of operand `l` go to operand 4, OUT: moved where neither format nor scale changes, else converted (R86, R88). -/
def Work.transfer (k : Work) (l : Nat) (src dst : List Nat) : Work :=
  let a := k.desc l
  let b := k.desc 4
  let read := src.map (k.s.elem a)
  if dFmt a = dFmt b && dFmt a != cQ4 && !gathers a && !gathers b then
    k.putBitsOf 4 dst (src.map fun n => let c := cellAt a (offsetAt a n); (k.s.rawAt a (offsetAt a n), k.s.poisonAt c.1 c.2))
  else
    let vs := read.map fun e => (e.x, e.po)
    let k := k.note 4 (read.foldl (fun (f : Flags) e => f ||| e.fl) 0)
    if fmtFloat (dFmt a) && fmtFloat (dFmt b) then k.put 4 (scaleOf k.regs a) dst vs else k.putPlain 4 dst vs


/-! ### Running one (R231) -/

/-- The entry of a RUN that may run: some share has started, nothing has stopped it, the result is not there yet. -/
def State.entryWork (s : State) (n : Nat) (seq : Nat) (op : Nat) : Option Work :=
  let p := ringPart n
  match s.opAt n seq with
  | some o =>
    if s.up && o.live && o.is 0x12 && !o.computed && !(s.ring n).stopReq && o.shares.any (·.started) then
      match s.programOf p o with
      | some g =>
        let e := imgEntry g.image o.entry
        if pOp e = op then some { s := s, p := p, o := o, e := e, img := g.image, regs := o.scales } else none
      | none => none
    else none
  | none => none

/-- What running leaves: the fault, or the result with its flags; the shares' blocks have nothing left to do. -/
def Work.finish (k : Work) (n : Nat) : State :=
  let k := { k with s := endStore k.s (ringPart n) }
  match k.stop with
  | some f => faultOp (each (k.s.roomsRunning n k.o.orig) k.s fun s m => finishRoom 64 s m) n k.o.orig f
  | none => k.s.updOp n k.o.orig fun o =>
      let f := k.fl.foldl (fun (f : Flags) e => f ||| e.2) k.all
      { o.raise f with computed := true, scales := k.regs,
                       dexc := k.fl.foldl (fun t e => Tbl.set t e.1 (Tbl.get 0 t e.1 ||| e.2 ||| k.all)) o.dexc }

/-- A row of the form: runs the entry if it is due. -/
def runEntry (ring : BitVec 6) (seq : BitVec 64) (op : Nat) (f : Work → Work) (s : State) : Out :=
  match s.entryWork ring.toNat seq.toNat op with
  | some k => act true s fun s => (f { k with s := beginStore s ring.toNat k.o.orig }).finish ring.toNat
  | none => .next s

/-! ### MATMUL and CONV (R104, R107, R109, R116 to R118) -/

/-- Exact terms of one output element, by ascending K. -/
def dotTerms (as bs : List Elem) : List Term := (as.zip bs).map fun e => prodTerm e.1.x e.2.x

/-- Marks and flags of elements read. -/
def anyMark (l : List Elem) : Bool := l.any (·.po)
def readFlags (l : List Elem) : Flags := l.foldl (fun (f : Flags) e => f ||| e.fl) 0

/-- Output elements from seeds and terms: bits in the accumulator format, marks, sticky flags. -/
def accumulate (f : Fmt) (l : List (Nat × Bool × List Term)) : List (Nat × Bool) × Flags :=
  let r := l.map fun e => (groupChain f e.1 e.2.2, e.2.1)
  (r.map fun e => (e.1.1, e.2), r.foldl (fun (g : Flags) e => g ||| (e.1.2 &&& 0x1F)) 0)

/-- Accumulator bits as exact values. -/
def accNums (f : Fmt) (l : List (Nat × Bool)) : List (Num × Bool) := l.map fun e => (decodeNum f e.1, e.2)

/-- A product's results go to OUT, or, in a tie group, into the held sum, which leaves with its last use. A use whose output elements
differ in number or accumulator format from the held sum's faults with 0x0105 (DESIGN CHOICE, log 112). -/
def deliver (k : Work) (f : Fmt) (l : List (Nat × Bool × List Term)) (seed : Nat → Nat × Bool) : Work :=
  let g := declTie (imgDecl k.img (pDecl k.e 4))
  let n := l.length
  if g = 0 || pOp k.e != 1 then
    let (r, fl) := accumulate f ((l.zipIdx).map fun e => let s0 := seed e.2; (s0.1, e.1.2.1 || s0.2, e.1.2.2))
    (k.put 4 0 (upTo n) (accNums f r)).note 4 fl
  else
    let key := 65536 * k.o.prog + g
    let held := (Tbl.find (k.s.sched k.p).ties key).getD
      { fmt := f.fw, acc := (upTo n).map fun i => (seed i).1, marks := (upTo n).map fun i => (seed i).2, flags := 0, left := tieCount k.img g }
    if held.fmt != f.fw || held.acc.length != n then k.fail 0x0105 3
    else
      let (r, fl) := accumulate f ((l.zipIdx).map fun e => (nth held.acc e.2, e.1.2.1 || held.marks.getD e.2 false, e.1.2.2))
      let fl := fl ||| held.flags
      if held.left ≤ 1 then
        let k := { k with s := k.s.updSched k.p fun q => { q with ties := Tbl.erase q.ties key } }
        (k.put 4 0 (upTo n) (accNums f r)).note 4 fl
      else
        let t : TieSum := { fmt := f.fw, acc := r.map (·.1), marks := r.map (·.2), flags := fl, left := held.left - 1 }
        { k with s := k.s.updSched k.p fun q => { q with ties := Tbl.set q.ties key t } }

/-- The accumulator format of the operands (R104). -/
def Work.accFmt (k : Work) : Fmt := if dFmt (k.desc 0) = cF64 then fF64 else fF32

/-- MATMUL: OUT(n, m), at linear n + N·m (DEDUCED, log 69). -/
def matmul (k : Work) : Work :=
  let ta := pSub k.e % 2 == 1
  let tb := pSub k.e / 2 % 2 == 1
  let nN := k.dim 4 0
  let mM := k.dim 4 1
  let kK := k.dim 0 (if ta then 1 else 0)
  let k := ((k.access 0 (upTo (k.count 0)) 1).access 1 (upTo (k.count 1)) 1).access 4 (upTo (k.count 4)) 9
  let f := k.accFmt
  let rows := (upTo mM).map fun m => (upTo kK).map fun i => k.value 0 (if ta then m + k.dim 0 0 * i else i + k.dim 0 0 * m)
  let cols := (upTo nN).map fun n => (upTo kK).map fun i => k.value 1 (if tb then i + k.dim 1 0 * n else n + k.dim 1 0 * i)
  let l := (rows.map fun r => cols.map fun c => (0, anyMark r || anyMark c, dotTerms r c)).flatten
  let own := if pSub k.e / 4 % 2 = 1 then (upTo l.length).map (k.value 4) else []
  let seeds := own.map fun v => let r := packNum f .rne v.x; ((r.1, v.po), v.fl ||| r.2)
  let k := k.note 4 (seeds.foldl (fun (f : Flags) e => f ||| e.2) (readFlags (rows.flatten ++ cols.flatten)))
  deliver k f l fun i => (seeds.map (·.1)).getD i (0, false)

/-- CONV: the product of the expanded input with the weights, positions with o_0 fastest. -/
def conv (k : Work) : Work :=
  let a := k.desc 0
  let w := pWin k.e
  let batch := if dRank a = wNax w + 2 then dDim a (wNax w + 1) else 1
  let kK := wCh w * wTaps w
  let nN := k.dim 4 0
  let k := ((k.access 0 (upTo (k.count 0)) 1).access 1 (upTo (k.count 1)) 1).access 4 (upTo (k.count 4)) 9
  let f := k.accFmt
  let pad : Elem := { x := elemNum (dFmt a) (if wPadNan w then elemNan (dFmt a) else 0) }
  let cols := (upTo nN).map fun n => (upTo kK).map fun i => k.value 1 (n + k.dim 1 0 * i)
  let rows := (upTo (wPositions w * batch)).map fun pos => (upTo kK).map fun kap =>
    match walkIndex a w (BitVec.ofNat 64 (pos + 2 ^ 32 * kap)) 0 0 with
    | some i => k.value 0 (ravel (dDims a) i)
    | none => pad
  deliver (k.note 4 (readFlags (rows.flatten ++ cols.flatten))) f
    ((rows.map fun r => cols.map fun c => (0, anyMark r || anyMark c, dotTerms r c)).flatten) (fun _ => (0, false))

/-! ### KNN (R122, R123) -/

/-- One query: the k smallest keys among the candidates of its centre cell, a mark, flags. -/
def knnRow (k : Work) (q : Nat) : List (Nat × Nat) × Bool × Flags :=
  let w := pWin k.e
  let b := k.desc 1
  let per := max 1 (k.dim 0 1)
  let centre := unravel (wOuts w) (q / per)
  let x : U64 := BitVec.ofNat 64 (nth centre 0 + 2 ^ 16 * nth centre 1 + 2 ^ 32 * nth centre 2)
  let pad : Elem := { x := elemNum (dFmt b) (if wPadNan w then elemNan (dFmt b) else 0) }
  let qs := (upTo (wCh w)).map fun c => k.value 0 (c + k.dim 0 0 * q)
  let cands := (upTo (wSlots w * wTaps w)).map fun n =>
    let cs := (upTo (wCh w)).map fun c => match walkIndex b w x n c with
      | some i => k.value 1 (ravel (dDims b) i)
      | none => pad
    let r := groupChain fF32 0 ((qs.zip cs).map fun e => distTerm (pSub k.e % 2 == 1) e.1.x e.2.x)
    (r.1, n, anyMark cs, r.2)
  let keys := (cands.filter fun c => !fIsNan fF32 c.1).map fun c => (c.1, c.2.1)
  ((mergeKeys (pKsel k.e) (List.replicate 8 noKey) keys).take (pKsel k.e), anyMark qs || cands.any (·.2.2.1),
    cands.foldl (fun (f : Flags) c => f ||| (c.2.2.2 &&& 0x1F)) 0)

def knn (k : Work) : Work :=
  let k := (((k.access 0 (upTo (k.count 0)) 1).access 1 (upTo (k.count 1)) 1).access 4 (upTo (k.count 4)) 9).access 3 (upTo (k.count 3)) 9
  let rows := (upTo (k.count 4 / max 1 (pKsel k.e))).map (knnRow k)
  let vals := (rows.map fun r => r.1.map fun e => (decodeNum fF32 e.1, r.2.1)).flatten
  let idxs := (rows.map fun r => r.1.map fun e => (e.2, r.2.1)).flatten
  let fl := rows.foldl (fun (f : Flags) r => f ||| r.2.2) 0
  ((k.put 4 0 (upTo vals.length) vals).putBitsOf 3 (upTo idxs.length) idxs).note 4 fl

/-! ### ELEM (R137, R231) -/

/-- P0 to P7 as the started rooms hold them after the patches (R211). -/
def Work.params (k : Work) : List U64 :=
  match k.o.shares.find? (·.started) with
  | some h => (upTo 8).map (k.s.room h.room).p_
  | none => []

/-- An input of a kernel: in the kernel's format, integers as their bits. -/
def kernelInput (k : Work) (f64 : Bool) (l n : Nat) : Nat × Bool × Flags :=
  if !pUses k.e l then (0, false, 0)
  else
    let d := k.desc l
    if fmtFloat (dFmt d) then
      let e := (k.s.elem d n).expanded d
      let r := elemPack (if f64 then cF64 else cF32) .rne (-(scaleOf k.regs d)) e.x
      (r.1, e.po, e.fl ||| r.2)
    else let c := cellAt d (offsetAt d n); (k.s.rawAt d (offsetAt d n), k.s.poisonAt c.1 c.2, 0)

/-- Row and column of an element in its 16×16 tile of OUT's axes 0 and 1. -/
def tilePlace (dims : List Nat) (n : Nat) : Nat × Nat :=
  match unravel dims n with
  | c :: r :: _ => (r % 16, c % 16)
  | [c] => (c / 16 % 16, c % 16)
  | [] => (0, 0)

def elem (k : Work) : Work :=
  let ops := imgKernel k.img (pKer k.e)
  let d := k.desc 4
  let f64 := dFmt d == cF64
  let k := if kernelOk true ops then k else k.fail 0x0203 4
  let ls := [0, 1, 2].filter (pUses k.e)
  let k := (ls.foldl (fun (k : Work) l => k.access l (upTo (k.count l)) 1) k).access 4 (upTo (k.count 4)) 9
  let ps := k.params
  let outs := (upTo (k.count 4)).map fun n =>
    let ins := [0, 1, 2].map fun l => kernelInput k f64 l n
    let q := tilePlace (dDims d) n
    let r := runKernel { f64 := f64, row := q.1, col := q.2, bcast := ps, ins := ins.map fun i => (i.1, i.2.1) } ops
    (r.v, r.po, ins.foldl (fun (f : Flags) i => f ||| i.2.2) r.fl)
  let fl := outs.foldl (fun (f : Flags) o => f ||| o.2.2) 0
  let k := if fmtFloat (dFmt d) then
      k.put 4 0 (upTo outs.length) (outs.map fun o => (decodeNum (if f64 then fF64 else fF32) o.1, o.2.1))
    else k.putBitsOf 4 (upTo outs.length) (outs.map fun o => (o.1 % 2 ^ fmtBits (dFmt d), o.2.1))
  k.note 4 fl

/-! ### ROW (R149, R150, R152) -/

/-- Rows of the entry that each room of it works on: a run of ascending rows (DESIGN CHOICE, log 114). -/
def Work.rowsEach (k : Work) : Nat := (entryRows k.img k.e + k.rooms.length - 1) / k.rooms.length

/-- The room that works on row `j`, and the attic entry of its statistics, or of its scratch values: one range for each attic group (R234)
(DESIGN CHOICE, log 114). -/
def Work.atticAt (k : Work) (scratch : Bool) (j : Nat) : Nat × Nat :=
  let n := k.rooms.length
  let off := match k.o.program with
    | some g => Config.atticOffset g.xlate % (4096 - atticTotal k.img n + 1)
    | none => 0
  let extra := if scratch then groupRange k.img n (pKer k.e) / 2 else 0
  (nth k.rooms (j / max 1 k.rowsEach), off + groupsBefore k.img n (pKer k.e) + extra + j % max 1 k.rowsEach)

def Work.attic (k : Work) (scratch : Bool) (j : Nat) : Attic :=
  let q := k.atticAt scratch j
  Tbl.get {} (k.s.room q.1).attic q.2

/-- A row at work: what it leaves, its marks (of the whole row, then of each output), and the flags of widening its elements. -/
structure RowWork where
  out : RowOut
  po : Bool
  pos : List Bool
  fl : Flags

/-- One row. -/
def rowOf (k : Work) (len j : Nat) : RowWork :=
  let sub := pSub k.e
  let at_ := k.attic false j
  let aff := if pUses k.e 1 then k.count 1 / max 1 len else 0
  let zero : Elem := { x := .fin false 0 0 }
  let ins := (upTo len).map fun i =>
    [k.value 0 (i + len * j), if sub < 3 then zero else k.value 2 (i + len * j), if aff = 0 then zero else k.value 1 i,
     if aff = 2 && sub < 3 then k.value 1 (len + i) else zero]
  let wide := ins.map fun l => l.map fun v => packNum fF64 .rne v.x
  let els := wide.map fun l =>
    let v := fun (i : Nat) => (l.getD i (0, 0)).1
    ({ x := v 0, dy := v 1, g := v 2, b := v 3 } : RowEl)
  let mark := fun (l : List Elem) (i n : Nat) => anyMark ((l.drop i).take n)
  let po := ins.any (fun l => mark l 0 2 || (3 ≤ sub && mark l 2 1)) || (3 ≤ sub && at_.poison)
  { out := rowWhole sub aff (pFarg k.e) (at_.v1, at_.v2) els
    po := po
    pos := ins.map fun l => po || mark l 2 2
    fl := readFlags ins.flatten ||| allFlags (wide.flatten.map (·.2)) }

/-- dγ and dβ after all rows, in ascending order (R150): F32 patterns with marks, and the flags. -/
def rowGrads (k : Work) (len : Nat) (rows : List RowWork) : List (Nat × Bool) × Flags :=
  let old := (upTo (k.count 3)).map fun n => let v := k.value 3 n; let r := packNum fF32 .rne v.x; ((r.1, v.po), v.fl ||| r.2)
  (rows.zipIdx).foldl (fun (a : List (Nat × Bool) × Flags) r =>
    let dys := (upTo len).map fun i => (packNum fF64 .rne (k.value 2 (i + len * r.2)).x).1
    let upd := (a.1.zipIdx).map fun e =>
      let dy := nth dys (e.2 % max 1 len)
      let h := ((r.1.out.puts.map (·.h)).getD e.2 0)
      let g := gradAdd e.1.1 (if e.2 < len then mulD dy h else (dy, 0))
      (g, e.1.2 || r.1.po)
    (upd.map fun e => (e.1.1, e.2), upd.foldl (fun (f : Flags) e => f ||| e.1.2) a.2))
    (old.map (·.1), old.foldl (fun (f : Flags) e => f ||| e.2) 0)

/-- The entry of a row of the attic after it: statistics, or scratch values (R151). -/
def putAttic (k : Work) (s : State) (j : Nat) (r : RowWork) : State :=
  let sub := pSub k.e
  let q := k.atticAt (3 ≤ sub) j
  let a : Attic := { v1 := r.out.vals.1, v2 := r.out.vals.2, valid := true, kind := if 3 ≤ sub then 5 else rowKind sub,
                     handle := BitVec.ofNat 16 (k.handle 0), poison := r.po }
  s.updRoom q.1 fun x => { x with attic := Tbl.set x.attic q.2 a }

def row (k : Work) : Work :=
  let sub := pSub k.e
  let len := if dRank (k.desc 0) = 0 then 1 else k.dim 0 0
  let nRows := if len = 0 then 0 else k.count 0 / len
  let bad := (upTo nRows).any fun j =>
    let a := k.attic false j
    !(a.valid && a.kind == rowKind sub && a.handle.toNat == k.handle 0)
  let k := if 3 ≤ sub && bad then k.fail 0x0303 5 else k
  let ls := [0, 1, 2, 3].filter (pUses k.e)
  let k := (ls.foldl (fun (k : Work) l => k.access l (upTo (k.count l)) 1) k).access 4 (upTo (k.count 4)) 9
  if k.stop.isSome then k
  else
    let rows := (upTo nRows).map (rowOf k len)
    let fl := rows.foldl (fun (f : Flags) r => f ||| r.out.fl ||| r.fl ||| if r.pos.any id then fPoison else 0) 0
    let grads := rowGrads k len rows
    let k := { k with s := (rows.zipIdx).foldl (fun (s : State) (r : RowWork × Nat) => putAttic k s r.2 r.1) k.s }
    let k := k.put 4 0 (upTo (len * nRows)) ((rows.map fun (r : RowWork) => (r.out.puts.zip r.pos).map fun y => (decodeNum fF64 y.1.y, y.2)).flatten)
    let k := if 3 ≤ sub && pUses k.e 3 then
        (k.put 3 0 (upTo grads.1.length) (grads.1.map fun g => (decodeNum fF32 g.1, g.2))).note 3 grads.2
      else k
    k.noteAll fl

/-! ### CONVERT, GATHER, SCATTER (R88, R143) -/

def convertAll (k : Work) : Work :=
  let n := k.count 4
  let k := (k.access 0 (upTo n) 1).access 4 (upTo n) 9
  k.transfer 0 (upTo n) (upTo n)

/-- Indices of operand B, as bits, with marks. -/
def Work.indices (k : Work) : List (Nat × Bool) :=
  (upTo (k.count 1)).map fun n =>
    let d := k.desc 1
    let c := cellAt d (offsetAt d n)
    (k.s.rawAt d (offsetAt d n), k.s.poisonAt c.1 c.2)

/-- Rows moved by a gather or scatter: those before the first bad index, skips left out; and the position of the bad one. -/
def goodRows (idx : List (Nat × Bool)) (bound : Nat) : List (Nat × Nat) × Option Nat :=
  let bad := (idx.zipIdx).find? fun e => e.1.2 || (e.1.1 != skipIndex && !(0 ≤ signed 32 e.1.1 && e.1.1 < bound))
  let upto := match bad with | some e => e.2 | none => idx.length
  ((((idx.zipIdx).take upto).filter fun e => e.1.1 != skipIndex).map fun e => (e.2, e.1.1), bad.map (·.2))

/-- GATHER: OUT row i := A row B(i). SCATTER: OUT row B(i) := A row i, ascending i. -/
def moveRows (scatter : Bool) (k : Work) : Work :=
  let w := k.dim 0 0
  let table := if scatter then 4 else 0
  let k := if fmtFloat (dFmt (k.desc table)) then k else k.fail 0x0207 4
  let k := k.access 1 (upTo (k.count 1)) 1
  if k.stop.isSome then k
  else
    let (rows, bad) := goodRows k.indices (k.dim table 1)
    let els := fun (r : Nat) => countUp (w * r) w
    let src := (rows.map fun r => els (if scatter then r.1 else r.2)).flatten
    let dst := (rows.map fun r => els (if scatter then r.2 else r.1)).flatten
    let k := ((k.access 0 src 1).access 4 dst 9).transfer 0 src dst
    match bad with
    | some i => k.fail 0x0206 4 i
    | none => k

/-! ### The rows of the command table -/

def execMatmul (ring : BitVec 6) (seq : BitVec 64) (s : State) : Out := runEntry ring seq 1 matmul s
def execConv (ring : BitVec 6) (seq : BitVec 64) (s : State) : Out := runEntry ring seq 2 conv s
def execKnn (ring : BitVec 6) (seq : BitVec 64) (s : State) : Out := runEntry ring seq 3 knn s
def execElem (ring : BitVec 6) (seq : BitVec 64) (s : State) : Out := runEntry ring seq 4 elem s
def execRowOperation (ring : BitVec 6) (seq : BitVec 64) (s : State) : Out := runEntry ring seq 5 row s
def execConvert (ring : BitVec 6) (seq : BitVec 64) (s : State) : Out := runEntry ring seq 6 convertAll s
def execGather (ring : BitVec 6) (seq : BitVec 64) (s : State) : Out := runEntry ring seq 7 (moveRows false) s
def execScatter (ring : BitVec 6) (seq : BitVec 64) (s : State) : Out := runEntry ring seq 8 (moveRows true) s

end Sys2Proof.Machine
end

