-- ==== Sys2Proof/Machine/SolverMath.lean ====
section
/-! DEFINITION. The arithmetic of the factor engines (08_solver_factorisation R181 to R189): grouped dot products, the dense
factorisations and solves, the tree-sparse factor, the Schur complement and the projected sweep. Every number is an F64 pattern. -/

namespace Sys2Proof.Machine

/-! ### Operations that gather flags -/

/-- A computation that raises flags. -/
abbrev FM := StateM Flags

def raise (r : Nat × Flags) : FM Nat := fun f => (r.1, f ||| (r.2 &&& 0x1F))
def fadd (a b : Nat) : FM Nat := raise (addD a b)
def fsub (a b : Nat) : FM Nat := raise (subD a b)
def fmul (a b : Nat) : FM Nat := raise (mulD a b)
def fdiv (a b : Nat) : FM Nat := raise (divD a b)
def ffma (a b c : Nat) : FM Nat := raise (fmaD a b c)
def fsqrt (a : Nat) : FM Nat := raise (fSqrt fF64 .rne a)

/-- Exact: the sign bit turned over. -/
def negD (a : Nat) : Nat := fNeg fF64 a
def absD (a : Nat) : Nat := fAbs fF64 a
def nanD (a : Nat) : Bool := fIsNan fF64 a
/-- NaN or infinity. -/
def badD (a : Nat) : Bool := fNotFinite fF64 a
/-- The plain truth of `a > b`: false on a NaN. -/
def gtD (a b : Nat) : Bool := (fLt fF64 b a).1

/-- gdot (R181): the procedure of R107 with ZERO = 1, index ascending. -/
def gdot (xs ys : List Nat) : FM Nat :=
  raise (groupChain fF64 0 ((xs.zip ys).map fun e => prodTerm (decodeNum fF64 e.1) (decodeNum fF64 e.2)))

/-! ### Matrices by rows -/

abbrev Mat := List (List Nat)

def matRow (m : Mat) (i : Nat) : List Nat := m.getD i []
def matAt (m : Mat) (i j : Nat) : Nat := nth (matRow m i) j
def matPut (m : Mat) (i j v : Nat) : Mat := m.set i ((matRow m i).set j v)
/-- Entries `lo` to `hi − 1` of row `i`, of column `j`. -/
def rowPart (m : Mat) (i lo hi : Nat) : List Nat := ((matRow m i).take hi).drop lo
def colPart (m : Mat) (j lo hi : Nat) : List Nat := ((m.take hi).drop lo).map fun r => nth r j
def zeroMat (r c : Nat) : Mat := List.replicate r (List.replicate c 0)
def swapAt (l : List Nat) (i j : Nat) : List Nat := (l.set i (nth l j)).set j (nth l i)
def swapRows (m : Mat) (i j : Nat) : Mat := (m.set i (matRow m j)).set j (matRow m i)
def swapCols (m : Mat) (i j : Nat) : Mat := m.map fun r => swapAt r i j

/-- A matrix of `r` rows and `c` columns whose lower triangle is read, in full symmetric form. -/
def symmetric (m : Mat) : Mat := (upTo m.length).map fun i => (upTo m.length).map fun j => if j ≤ i then matAt m i j else matAt m j i

/-- What a factorisation leaves: the factor, how far it came, and how it failed: status of R197, INDEX. -/
structure Fact where
  a : Mat := []
  l : Mat := []
  wv : Mat := []
  d : List Nat := []
  /-- DQR: the reflectors by column and their denominators. -/
  vs : Mat := []
  den : List Nat := []
  perm : List Nat := []
  rank : Nat := 0
  intervals : Nat := 0
  /-- DLDLT: a c(i) of the panel at work is NaN or infinite. -/
  bad : Bool := false
  stop : Option (Nat × Nat) := none

/-! ### DCHOL and DLDLT (R182) -/

/-- The panels of a matrix of order `n`. -/
def panels (n : Nat) : List Nat := (upTo ((n + 31) / 32)).map fun i => 32 * i

/-- Column `j` of a Cholesky panel that starts at `p`. -/
def cholCol (n p : Nat) (k : Fact) (j : Nat) : FM Fact := do
  if k.stop.isSome then return k
  let g ← gdot (rowPart k.l j p j) (rowPart k.l j p j)
  let d ← fsub (matAt k.a j j) g
  if nanD d then return { k with stop := some (0x15, 0) }
  if !gtD d 0 then return { k with stop := some (0x12, j) }
  let r ← fsqrt d
  let l ← (countUp (j + 1) (n - j - 1)).foldlM (fun (l : Mat) i => do
    let g ← gdot (rowPart l i p j) (rowPart l j p j)
    let x ← fsub (matAt k.a i j) g
    let y ← fdiv x r
    return matPut l i j y) (matPut k.l j j r)
  return { k with l := l }

/-- The trailing update after the panel at `p` of width `w`. -/
def trailing (n p w : Nat) (u l : Mat) (a : Mat) : FM Mat :=
  (countUp (p + w) (n - p - w)).foldlM (fun (a : Mat) c =>
    (countUp c (n - c)).foldlM (fun (a : Mat) i => do
      let g ← gdot (rowPart u i p (p + w)) (rowPart l c p (p + w))
      let x ← fsub (matAt a i c) g
      return matPut (matPut a i c x) c i x) a) a

/-- A NaN or infinity met in the panel ends the factorisation at the panel boundary, unless a column has ended it (DEDUCED, log 116). -/
def endPanel (bad : Bool) (k : Fact) : Fact :=
  { k with intervals := k.intervals + 1, stop := if k.stop.isNone && (bad || k.bad) then some (0x15, 0) else k.stop }

def cholPanel (n : Nat) (k : Fact) (p : Nat) : FM Fact := do
  if k.stop.isSome then return k
  let w := min 32 (n - p)
  let k ← (countUp p w).foldlM (cholCol n p) k
  let k := endPanel ((countUp p w).any fun j => (colPart k.l j p n).any badD) k
  if k.stop.isSome then return k
  let a ← trailing n p w k.l k.l k.a
  return { k with a := a }

def dchol (a : Mat) : FM Fact :=
  let n := a.length
  (panels n).foldlM (cholPanel n) { a := symmetric a, l := zeroMat n n }

/-- Column `j` of an LDLᵀ panel. -/
def ldltCol (n p : Nat) (k : Fact) (j : Nat) : FM Fact := do
  if k.stop.isSome then return k
  let cs ← (countUp j (n - j)).mapM fun i => do
    let g ← gdot (rowPart k.wv i p j) (rowPart k.l i p j)
    fsub (matAt k.a i i) g
  let best := (cs.zipIdx).foldl (fun (b : Nat × Nat) c => if gtD (absD c.1) (absD b.1) then c else b) (cs.headD 0, 0)
  let s := j + best.2
  let k := { k with a := swapCols (swapRows k.a j s) j s, l := swapRows k.l j s, wv := swapRows k.wv j s, perm := swapAt k.perm j s,
                    d := k.d ++ [best.1], bad := k.bad || cs.any badD }
  if (fEq fF64 best.1 0).1 then return { k with stop := some (0x13, j) }
  (countUp (j + 1) (n - j - 1)).foldlM (fun (k : Fact) i => do
    let g ← gdot (rowPart k.wv i p j) (rowPart k.l j p j)
    let x ← fsub (matAt k.a i j) g
    let y ← fdiv x best.1
    return { k with wv := matPut k.wv i j x, l := matPut k.l i j y }) k

def ldltPanel (n : Nat) (k : Fact) (p : Nat) : FM Fact := do
  if k.stop.isSome then return k
  let w := min 32 (n - p)
  let k ← (countUp p w).foldlM (ldltCol n p) k
  let k := endPanel ((countUp p w).any fun j => (colPart k.l j p n ++ colPart k.wv j p n).any badD) k
  if k.stop.isSome then return k
  let a ← trailing n p w k.wv k.l k.a
  return { k with a := a }

def dldlt (a : Mat) : FM Fact :=
  let n := a.length
  (panels n).foldlM (ldltPanel n) { a := symmetric a, l := zeroMat n n, wv := zeroMat n n, perm := upTo n }

/-! ### DQR (R183) -/

/-- A reflector applied to entries `j` to `r − 1` of a column. -/
def reflect (j : Nat) (v : List Nat) (den : Nat) (col : List Nat) : FM (List Nat) := do
  let g ← gdot v (col.drop j)
  let f ← fdiv g den
  let t ← (v.zip (col.drop j)).mapM fun e => ffma f e.1 e.2
  return col.take j ++ t

def column (m : Mat) (c : Nat) : List Nat := m.map fun r => nth r c
def setColumn (m : Mat) (c : Nat) (l : List Nat) : Mat := (m.zip l).map fun e => e.1.set c e.2

def qrCol (r n : Nat) (k : Fact) (j : Nat) : FM Fact := do
  if k.rank < n then return k
  let nrm ← (countUp j (n - j)).mapM fun c => gdot (colPart k.a c j r) (colPart k.a c j r)
  let best := (nrm.zipIdx).foldl (fun (b : Nat × Nat) c => if gtD c.1 b.1 then c else b) (nrm.headD 0, 0)
  let s := j + best.2
  let k := { k with a := swapCols k.a j s, perm := swapAt k.perm j s, intervals := k.intervals + 1 }
  if (fEq fF64 best.1 0).1 then return { k with rank := j }
  let q ← fsqrt best.1
  let ajj := matAt k.a j j
  let alpha := negD (fCopySign fF64 q ajj)
  let vj ← fsub ajj alpha
  let v := vj :: colPart k.a j (j + 1) r
  let den ← fmul alpha vj
  let a ← (countUp (j + 1) (n - j - 1)).foldlM (fun (a : Mat) c => do
    let col ← reflect j v den (column a c)
    return setColumn a c col) k.a
  return { k with a := a, d := k.d ++ [alpha], vs := k.vs ++ [v], den := k.den ++ [den] }

def dqr (a : Mat) (n : Nat) : FM Fact := do
  let r := a.length
  (upTo n).foldlM (qrCol r n) { a := a, perm := upTo n, rank := n }

/-! ### Dense solves (R184) -/

/-- Forward substitution; `div` divides by the diagonal. -/
def forwardSub (l : Mat) (n : Nat) (div : Bool) (b : List Nat) : FM (List Nat) :=
  (upTo n).foldlM (fun (y : List Nat) i => do
    let g ← gdot (rowPart l i 0 i) y
    let x ← fsub (nth b i) g
    let z ← if div then fdiv x (matAt l i i) else pure x
    return y ++ [z]) []

/-- Back substitution with the transpose of a lower factor. -/
def backSub (l : Mat) (n : Nat) (div : Bool) (y : List Nat) : FM (List Nat) :=
  ((upTo n).reverse).foldlM (fun (x : List Nat) i => do
    let g ← gdot (colPart l i (i + 1) n) x
    let t ← fsub (nth y i) g
    let z ← if div then fdiv t (matAt l i i) else pure t
    return z :: x) []

def cholSolve (k : Fact) (b : List Nat) : FM (List Nat) := do
  let n := k.l.length
  let y ← forwardSub k.l n true b
  backSub k.l n true y

/-- Entry `perm(i)` of the result is entry `i` of the argument. -/
def unpermute (perm : List Nat) (n : Nat) (x : List Nat) : List Nat :=
  (perm.zip x).foldl (fun (r : List Nat) e => r.set e.1 e.2) (List.replicate n 0)

def ldltSolve (k : Fact) (b : List Nat) : FM (List Nat) := do
  let n := k.l.length
  let y ← forwardSub k.l n false (k.perm.map (nth b))
  let z ← (y.zip k.d).mapM fun e => fdiv e.1 e.2
  let x ← backSub k.l n false z
  return unpermute k.perm n x

/-- Back substitution with the upper triangle of a QR factor, over the first `rank` columns. -/
def qrBack (k : Fact) (y : List Nat) : FM (List Nat) :=
  ((upTo k.rank).reverse).foldlM (fun (x : List Nat) i => do
    let g ← gdot (rowPart k.a i (i + 1) k.rank) x
    let t ← fsub (nth y i) g
    let z ← fdiv t (nth k.d i)
    return z :: x) []

def qrSolve (k : Fact) (n : Nat) (b : List Nat) : FM (List Nat) := do
  let c ← (upTo k.vs.length).foldlM (fun (c : List Nat) j => reflect j (k.vs.getD j []) (nth k.den j) c) b
  let x ← qrBack k c
  return unpermute k.perm n x

/-- y of the adjoint of DQR: forward substitution with the upper triangle transposed (R194). -/
def qrForward (k : Fact) (xb : List Nat) : FM (List Nat) :=
  (upTo k.rank).foldlM (fun (y : List Nat) i => do
    let g ← gdot (colPart k.a i 0 i) y
    let t ← fsub (nth xb i) g
    let z ← fdiv t (nth k.d i)
    return y ++ [z]) []

/-! ### The tree-sparse factor (R187) -/

/-- The entries of H, by 2,048 × row + column. -/
abbrev HTab := Tbl Nat

def hAt (h : HTab) (k i : Nat) : Nat := Tbl.get 0 h (2048 * k + i)
def hPut (h : HTab) (k i v : Nat) : HTab := Tbl.set h (2048 * k + i) v

/-- The ancestor dofs of dof `k`, nearest first; `par` gives λ. -/
def ancestors (par : List (Option Nat)) : Nat → Nat → List Nat
  | 0, _ => []
  | f + 1, k => match par.getD k none with
    | some i => i :: ancestors par f i
    | none => []
def dofChain (par : List (Option Nat)) (k : Nat) : List Nat := ancestors par par.length k

/-- The factor in place: the table, the steps taken, and how it failed. -/
structure TreeFact where
  h : HTab
  steps : Nat := 0
  stop : Option (Nat × Nat) := none

def treeFactor (par : List (Option Nat)) (h : HTab) : FM TreeFact :=
  ((upTo par.length).reverse).foldlM (fun (t : TreeFact) k => do
    if t.stop.isSome then return t
    let d := hAt t.h k k
    if nanD d then return { t with stop := some (0x15, 0) }
    if !gtD d 0 then return { t with stop := some (0x12, k) }
    (dofChain par k).foldlM (fun (t : TreeFact) i => do
      let x ← fdiv (hAt t.h k i) (hAt t.h k k)
      let h ← (i :: dofChain par i).foldlM (fun (h : HTab) j => do
        let y ← ffma (negD (hAt h k j)) x (hAt h i j)
        return hPut h i j y) t.h
      return { t with h := hPut h k i x, steps := t.steps + 1 }) t) { h := h }

def treeSolve (par : List (Option Nat)) (h : HTab) (rhs : List Nat) : FM (List Nat) := do
  let n := par.length
  let x ← ((upTo n).reverse).foldlM (fun (x : List Nat) k =>
    (dofChain par k).foldlM (fun (x : List Nat) i => do
      let y ← ffma (negD (hAt h k i)) (nth x k) (nth x i)
      return x.set i y) x) rhs
  let x ← (x.zipIdx).mapM fun e => fdiv e.1 (hAt h e.2 e.2)
  (upTo n).foldlM (fun (x : List Nat) k =>
    (dofChain par k).foldlM (fun (x : List Nat) i => do
      let y ← ffma (negD (hAt h k i)) (nth x i) (nth x k)
      return x.set k y) x) x

/-! ### Constraints and contacts (R188, R189) -/

/-- The Schur complement: x0, the columns of Y, S in full, bb. -/
structure Schur where
  x0 : List Nat := []
  y : Mat := []
  sm : Mat := []
  bb : List Nat := []

def schur (par : List (Option Nat)) (h : HTab) (j : Mat) (r e : List Nat) : FM Schur := do
  let x0 ← treeSolve par h r
  let y ← j.mapM (treeSolve par h)
  let low ← (j.zipIdx).mapM fun ji => (y.take (ji.2 + 1)).mapM fun c => gdot ji.1 c
  let bb ← (j.zip e).mapM fun je => do
    let g ← gdot je.1 x0
    fsub g je.2
  let m := j.length
  return { x0 := x0, y := y, sm := symmetric (low.map fun l => l ++ List.replicate (m - l.length) 0), bb := bb }

/-- x := x0 + Y λ, row by row (R188). -/
def addY (c : Schur) (lam : List Nat) : FM (List Nat) :=
  (c.x0.zipIdx).mapM fun e => do
    let g ← gdot (c.y.map fun col => nth col e.2) lam
    fadd e.1 g

/-- The bounds of a row: none for a normal row, else the row of the normal. -/
abbrev RowBound := Option Nat

/-- What a sweep leaves: the iterate, dmax, and how it failed. -/
structure SweepOut where
  lam : List Nat
  dmax : Nat := 0
  stop : Option (Nat × Nat) := none

/-- One projected sweep (R189). -/
def sweepOnce (c : Schur) (mu : Nat) (bound : List RowBound) (lam : List Nat) : FM SweepOut :=
  (upTo c.bb.length).foldlM (fun (o : SweepOut) j => do
    if o.stop.isSome then return o
    let sjj := matAt c.sm j j
    if !gtD sjj 0 then return { o with stop := some (0x12, j) }
    let g ← gdot (matRow c.sm j) o.lam
    let n ← fadd (nth c.bb j) g
    let q ← fdiv n sjj
    let t ← fsub (nth o.lam j) q
    let hi ← match bound.getD j none with
      | some nj => fmul mu (nth o.lam nj)
      | none => pure (fF64.inf false)
    let lo := if (bound.getD j none).isSome then negD hi else 0
    let a ← raise (fMax fF64 t lo)
    let new ← raise (fMin fF64 a hi)
    let d ← fsub new (nth o.lam j)
    let m ← raise (fMax fF64 o.dmax (absD d))
    return { o with lam := o.lam.set j new, dmax := m }) { lam := lam }

end Sys2Proof.Machine
end

