-- ==== Sys2Proof/Machine/SolverTree.lean ====
section
/-! DEFINITION. Assembly of jointed-body problems (07_solver_assembly R157 to R175): the parts of a tree descriptor, the phases P1
to P6 as operations on a trace, the structure signature, the costs of passes, and the reversed trace of the adjoint pass. -/

namespace Sys2Proof.Machine

/-! ### Parts of a tree descriptor (R157 to R161) -/

def treeHdr (t : List Byte) : BitVec 512 := wordOf 512 (t.take 64)
def tNb (t : List Byte) : Nat := field (treeHdr t) 16 16
def tNcon (t : List Byte) : Nat := field (treeHdr t) 32 16
def tNbind (t : List Byte) : Nat := field (treeHdr t) 48 16
def tFext (t : List Byte) : Bool := flag (treeHdr t) 66
def tMeas (t : List Byte) : Bool := flag (treeHdr t) 67
/-- Gradient enables: 0 q, 1 qd, 2 fext, 3 meas. -/
def tGradEn (t : List Byte) (k : Nat) : Bool := flag (treeHdr t) (68 + k)
/-- Handles: 0 to 3 HQ, HQD, HFEXT, HMEAS; 4 to 7 their gradients. -/
def tHandle (t : List Byte) (k : Nat) : Nat := field (treeHdr t) (128 + 16 * k) 16
def tGravity (t : List Byte) (k : Nat) : Nat := field (treeHdr t) (320 + 64 * k) 64

abbrev BodyRec := BitVec 1536
abbrev ConRec := BitVec 512
abbrev BindRec := BitVec 128

def tBody (t : List Byte) (i : Nat) : BodyRec := wordOf 1536 ((t.drop (64 + 192 * i)).take 192)
def tCon (t : List Byte) (i : Nat) : ConRec := wordOf 512 ((t.drop (64 + 192 * tNb t + 64 * i)).take 64)
def tBind (t : List Byte) (i : Nat) : BindRec := wordOf 128 ((t.drop (64 + 192 * tNb t + 64 * tNcon t + 16 * i)).take 16)
def treeLen (nb ncon nbind : Nat) : Nat := 64 + 192 * nb + 64 * ncon + 16 * nbind

def bParent (b : BodyRec) : Nat := field b 0 11
def bType (b : BodyRec) : Nat := field b 12 3
/-- Inline parameter of a body, by the PARAM codes of R161. -/
def bParam (b : BodyRec) (c : Nat) : Nat :=
  if c < 1 then field b 256 64
  else if c < 4 then field b (320 + 64 * (c - 1)) 64
  else if c < 10 then field b (512 + 64 * (c - 4)) 64
  else if c < 13 then field b (896 + 64 * (c - 10)) 64
  else if c < 16 then field b (1088 + 64 * (c - 13)) 64
  else field b (1280 + 64 * (c - 16)) 64

def cKind (c : ConRec) : Nat := field c 26 2
def cBodyA (c : ConRec) : Nat := field c 28 10
def cBodyB (c : ConRec) : Nat := field c 38 10
def cMidx (c : ConRec) : Nat := field c 48 16
def cParam (c : ConRec) (k : Nat) : Nat := if k < 23 then field c (128 + 64 * (k - 20)) 64 else field c (320 + 64 * (k - 23)) 64
def cRows (c : ConRec) : Nat := if cKind c = 1 then 1 else 3

def nGen (b : BindRec) : Bool := flag b 46
def nTarget (b : BindRec) : Nat := field b 47 1
def nParam (b : BindRec) : Nat := field b 48 6
def nTidx (b : BindRec) : Nat := field b 54 10
def nElem (b : BindRec) : Nat := field b 64 32
def nGhandle (b : BindRec) : Nat := field b 96 16
def nHandle (b : BindRec) : Nat := field b 112 16

/-- Coordinates and dofs of a joint type (R159). -/
def jointNq (t : Nat) : Nat := nth [0, 1, 1, 2, 4, 3, 7] t
def jointNv (t : Nat) : Nat := nth [0, 1, 1, 2, 3, 3, 6] t

def tBodies (t : List Byte) : List BodyRec := (upTo (tNb t)).map (tBody t)
def tCons (t : List Byte) : List ConRec := (upTo (tNcon t)).map (tCon t)
def tBinds (t : List Byte) : List BindRec := (upTo (tNbind t)).map (tBind t)
def sumOf (l : List Nat) : Nat := l.foldl (· + ·) 0
def tNq (t : List Byte) : Nat := sumOf ((tBodies t).map fun b => jointNq (bType b))
def tNv (t : List Byte) : Nat := sumOf ((tBodies t).map fun b => jointNv (bType b))
def tRows (t : List Byte) : Nat := sumOf ((tCons t).map cRows)

/-- The first dof of each body. -/
def dofBases (bs : List BodyRec) : List Nat := (upTo bs.length).map fun i => sumOf ((bs.take i).map fun b => jointNv (bType b))
def qBases (bs : List BodyRec) : List Nat := (upTo bs.length).map fun i => sumOf ((bs.take i).map fun b => jointNq (bType b))

def parentOf (bs : List BodyRec) (i : Nat) : Option Nat := match bs[i]? with
  | some b => if bParent b < i then some (bParent b) else none
  | none => none
/-- Body `i` and its ancestors, up to the root. -/
def bodyPath (bs : List BodyRec) : Nat → Nat → List Nat
  | 0, _ => []
  | f + 1, i => i :: (match parentOf bs i with | some j => bodyPath bs f j | none => [])
def bodyChain (bs : List BodyRec) (i : Nat) : List Nat := bodyPath bs bs.length i

/-- The dofs of body `i`. -/
def bodyDofs (bs : List BodyRec) (i : Nat) : List Nat :=
  countUp (nth (dofBases bs) i) (match bs[i]? with | some b => jointNv (bType b) | none => 0)

/-- λ of each dof (R187). -/
def dofParents (bs : List BodyRec) : List (Option Nat) :=
  ((upTo bs.length).map fun i =>
    let up := ((bodyChain bs i).drop 1).findSome? fun j => (bodyDofs bs j).getLast?
    (bodyDofs bs i).map fun k => if k = nth (dofBases bs) i then up else some (k - 1)).flatten

/-- NH: entries of H (R169). -/
def hEntries (bs : List BodyRec) : List (Nat × Nat) :=
  let par := dofParents bs
  ((upTo par.length).map fun k => ((k :: dofChain par k).reverse).map fun i => (k, i)).flatten

/-- The workspace and the trace of a problem (R156) (DEDUCED, log 76). -/
def workspaceBytes (t : List Byte) : Nat :=
  let m := tRows t
  256 * ((16 * (12 * tNb t + (hEntries (tBodies t)).length + tNv t + m * tNv t + m) + 8 * tNbind t + 64 + 255) / 256)
def traceBytes (t : List Byte) : Nat := 2048 * tNb t + 256 * tRows t

/-- The structure that the signature is taken over, and the signature (R175). -/
def structureBytes (t : List Byte) : List Byte :=
  let bodies := ((tBodies t).map fun b => leBytes 2 (bParent b) ++ leBytes 1 (bType b)).flatten
  let cons := ((tCons t).map fun c => leBytes 1 (cKind c) ++ leBytes 2 (cBodyA c) ++ leBytes 2 (cBodyB c)).flatten
  leBytes 2 (tNb t) ++ bodies ++ leBytes 2 (tNcon t) ++ cons
def signature (t : List Byte) : U64 := wordOf 64 (shake256 (structureBytes t) 8)

/-! ### Costs of passes (R170) -/

/-- Dofs on the paths of a record's rows. -/
def rowDofs (bs : List BodyRec) (c : ConRec) : Nat :=
  let path := bodyChain bs (cBodyA c) ++ (if cKind c = 0 then bodyChain bs (cBodyB c) else [])
  sumOf (path.eraseDups.map fun b => (bodyDofs bs b).length)

/-- The cost of each item of phases P1 to P6. -/
def phaseCosts (t : List Byte) : List (List Nat) :=
  let bs := tBodies t
  let par := dofParents bs
  let nv := fun (b : BodyRec) => jointNv (bType b)
  [bs.map fun b => if 4 ≤ bType b then 64 else 48,
   bs.map fun _ => 40,
   (upTo bs.length).map fun i => 8 + 2 * sumOf ((bodyDofs bs i).map fun k => 1 + (dofChain par k).length),
   bs.map fun b => 32 + 8 * nv b,
   bs.reverse.map fun b => 12 + 4 * nv b,
   (tCons t).map fun c => cRows c * (24 + 2 * rowDofs bs c)]

/-- Items in each pass of a phase: a pass ends before the item that would bring it above 320,000 ac. The last pass stands first. -/
def cutPhase (costs : List Nat) : List Nat :=
  (costs.foldl (fun (a : List Nat × Nat) c => match a.1 with
    | n :: l => if 320000 < a.2 + c then (1 :: n :: l, c) else ((n + 1) :: l, a.2 + c)
    | [] => ([1], c)) ([], 0)).1

/-- Items in each pass, in order, of the forward phases, or of the adjoint phases, which go the other way and cost three times as much. -/
def passItems (t : List Byte) (adjoint : Bool) : List Nat :=
  if adjoint then ((phaseCosts t).reverse.map fun l => (cutPhase (l.reverse.map (3 * ·))).reverse).flatten
  else ((phaseCosts t).map fun l => (cutPhase l).reverse).flatten

def passes (t : List Byte) (adjoint : Bool) : Nat := (passItems t adjoint).length
/-- Items done when the first `n` passes are. -/
def itemsAfter (t : List Byte) (adjoint : Bool) (n : Nat) : Nat := sumOf ((passItems t adjoint).take n)

/-! ### The operation trace (R163, R172) -/

/-- A value with its place in the trace; a constant has place 0, each use of it an adjoint of its own (DEDUCED, log 77). -/
structure V where
  id : Nat := 0
  v : Nat := 0
deriving DecidableEq, Repr, Inhabited

inductive TOp where
  | add (a b : V)
  | sub (a b : V)
  | mul (a b : V)
  | fma (a b c : V)
  | rsqrt (a : V)
  | sin (a : V)
  | cos (a : V)
  /-- Exact: negation, multiplication by the given power of two, copying. -/
  | neg (a : V)
  | scale (k a : V)
  | copy (a : V)
deriving DecidableEq, Repr

/-- The trace, last operation first: result place, result, operation. Beside it, for each item of a phase that is done, last first,
the place that follows it and the flags raised so far. -/
structure Tape where
  next : Nat
  nodes : List (Nat × Nat × TOp) := []
  fl : Flags := 0
  items : List (Nat × Flags) := []

abbrev TM := StateM Tape

def record (o : TOp) (r : Nat × Flags) : TM V := fun t =>
  ({ id := t.next, v := r.1 }, { t with next := t.next + 1, nodes := (t.next, r.1, o) :: t.nodes, fl := t.fl ||| (r.2 &&& 0x1F) })

/-- The end of an item of a phase (R170). -/
def itemDone : TM Unit := fun t => ((), { t with items := (t.next, t.fl) :: t.items })

def trAdd (a b : V) : TM V := record (.add a b) (addD a.v b.v)
def trSub (a b : V) : TM V := record (.sub a b) (subD a.v b.v)
def trMul (a b : V) : TM V := record (.mul a b) (mulD a.v b.v)
def trFma (a b c : V) : TM V := record (.fma a b c) (fmaD a.v b.v c.v)
def trRsqrt (a : V) : TM V := record (.rsqrt a) (fRsqrt fF64 a.v)
def trSin (a : V) : TM V := record (.sin a) (fSin fF64 a.v)
def trCos (a : V) : TM V := record (.cos a) (fCos fF64 a.v)
def trNeg (a : V) : TM V := record (.neg a) (negD a.v, 0)
def trScale (k a : V) : TM V := record (.scale k a) (mulD k.v a.v)
def trCopy (a : V) : TM V := record (.copy a) (a.v, 0)

def cst (x : Nat) : V := { v := x }
def c0 : V := cst 0
def c1 : V := cst 0x3FF0000000000000
def c2 : V := cst 0x4000000000000000
def cHalf : V := cst 0x3FE0000000000000
def cMinus2 : V := cst 0xC000000000000000

abbrev Vec := List V
def vAt (a : Vec) (i : Nat) : V := a.getD i c0
def vZero : Vec := [c0, c0, c0]

def zipV (f : V → V → TM V) (a b : Vec) : TM Vec := (a.zip b).mapM fun e => f e.1 e.2
def addV (a b : Vec) : TM Vec := zipV trAdd a b
def subV (a b : Vec) : TM Vec := zipV trSub a b
def scaleV (s : V) (a : Vec) : TM Vec := a.mapM (trMul s)
def fmaV (s : V) (a b : Vec) : TM Vec := zipV (trFma s) a b
def dotV (a b : Vec) : TM V := do
  let p ← trMul (vAt a 0) (vAt b 0)
  ((a.zip b).drop 1).foldlM (fun p e => trFma e.1 e.2 p) p
def crossV (a b : Vec) : TM Vec := (upTo 3).mapM fun j => do
  let t ← trMul (vAt a ((j + 2) % 3)) (vAt b ((j + 1) % 3))
  let n ← trNeg t
  trFma (vAt a ((j + 1) % 3)) (vAt b ((j + 2) % 3)) n
/-- Matrices by rows. -/
abbrev VMat := List Vec
def mRow (m : VMat) (i : Nat) : Vec := m.getD i vZero
def mCol (m : VMat) (k : Nat) : Vec := m.map fun r => vAt r k
def matvecV (m : VMat) (x : Vec) : TM Vec := m.mapM fun r => dotV r x
def matmulV (a b : VMat) : TM VMat := a.mapM fun r => (upTo 3).mapM fun k => dotV r (mCol b k)
def normaliseV (x : Vec) : TM Vec := do
  let d ← dotV x x
  let k ← trRsqrt d
  scaleV k x
def identityV : VMat := [[c1, c0, c0], [c0, c1, c0], [c0, c0, c1]]

/-- Motion and force vectors: (ω, v) and (n, f), six components. -/
def hi3 (c : Vec) : Vec := c.take 3
def lo3 (c : Vec) : Vec := c.drop 3
def pairV (c f : Vec) : TM V := dotV c f
def crmV (a b : Vec) : TM Vec := do
  let w ← crossV (hi3 a) (hi3 b)
  let x ← crossV (hi3 a) (lo3 b)
  let y ← crossV (lo3 a) (hi3 b)
  let v ← addV x y
  return w ++ v
def crfV (a f : Vec) : TM Vec := do
  let x ← crossV (hi3 a) (hi3 f)
  let y ← crossV (lo3 a) (lo3 f)
  let n ← addV x y
  let g ← crossV (hi3 a) (lo3 f)
  return n ++ g

/-- sp(a, b, c, d) of R164. -/
def spV (a b c d : V) : TM V := do
  let p ← trMul a b
  trFma c d p

/-- Rotq (R164). -/
def rotqV (q : Vec) : TM VMat := do
  let n ← dotV q q
  let k ← trRsqrt n
  let u ← scaleV k q
  let w := vAt u 0
  let x := vAt u 1
  let y := vAt u 2
  let z := vAt u 3
  let diag := fun (a b : V) => do
    let p ← spV a a b b
    trFma cMinus2 p c1
  let off := fun (a b c d : V) => do
    let p ← spV a b c d
    trScale c2 p
  let nw := trNeg w
  let r00 ← diag y z
  let m ← nw
  let r01 ← off x y m z
  let r02 ← off x z w y
  let r10 ← off x y w z
  let r11 ← diag x z
  let m ← nw
  let r12 ← off y z m x
  let m ← nw
  let r20 ← off x z m y
  let r21 ← off y z w x
  let r22 ← diag x y
  return [[r00, r01, r02], [r10, r11, r12], [r20, r21, r22]]

/-- Tangents of a unit vector (R168). -/
def tangentsV (n : Vec) : TM (Vec × Vec) := do
  let mag := fun i => absD (vAt n i).v
  let k := if mag 0 ≤ mag 1 && mag 0 ≤ mag 2 then 0 else if mag 1 ≤ mag 2 then 1 else 2
  let c ← crossV n (mRow identityV k)
  let t1 ← normaliseV c
  let t2 ← crossV n t1
  return (t1, t2)

/-! ### Inertias: M, h, and the upper elements of J by rows -/

/-- Place of element (j, k) among the upper elements. -/
def upPlace (j k : Nat) : Nat := let a := min j k; let b := max j k; nth [0, 3, 5] a + (b - a)
def upperPairs : List (Nat × Nat) := [(0, 0), (0, 1), (0, 2), (1, 1), (1, 2), (2, 2)]

def applyInertia (i c : Vec) : TM Vec := do
  let h := (i.drop 1).take 3
  let j := i.drop 4
  let jm : VMat := (upTo 3).map fun a => (upTo 3).map fun b => vAt j (upPlace a b)
  let x ← matvecV jm (hi3 c)
  let y ← crossV h (lo3 c)
  let n ← addV x y
  let z ← crossV h (hi3 c)
  let f ← (upTo 3).mapM fun k => do
    let m ← trNeg (vAt z k)
    trFma (vAt i 0) (vAt (lo3 c) k) m
  return n ++ f

/-! ### The inputs of a problem as values of the trace -/

/-- Places: bindings from 1, then q, qd, fext, meas, then the inline fields: bodies, records, gravity. -/
structure Places where
  q : Nat
  qd : Nat
  fext : Nat
  meas : Nat
  body : Nat
  con : Nat
  grav : Nat
  next : Nat

def placesOf (i : ProbIn) : Places :=
  let q := 1 + i.bound.length
  let qd := q + i.q.length
  let fext := qd + i.qd.length
  let meas := fext + i.fext.length
  let body := meas + i.meas.length
  let con := body + 20 * tNb i.tree
  let grav := con + 6 * tNcon i.tree
  { q := q, qd := qd, fext := fext, meas := meas, body := body, con := con, grav := grav, next := grav + 3 }

def inQ (i : ProbIn) (k : Nat) : V := { id := (placesOf i).q + k, v := nth i.q k }
def inQd (i : ProbIn) (k : Nat) : V := { id := (placesOf i).qd + k, v := nth i.qd k }
def inFext (i : ProbIn) (k : Nat) : V := { id := (placesOf i).fext + k, v := nth i.fext k }
def inMeas (i : ProbIn) (k : Nat) : V := { id := (placesOf i).meas + k, v := nth i.meas k }

/-- The place of a parameter: its binding's, or its own. -/
def paramPlace (i : ProbIn) (target tidx param : Nat) : Nat :=
  match (tBinds i.tree).findIdx? fun b => nTarget b == target && nTidx b == tidx && nParam b == param with
  | some k => 1 + k
  | none => if target = 0 then (placesOf i).body + 20 * tidx + param else (placesOf i).con + 6 * tidx + (param - 20)

/-- A parameter: its binding's value, or the inline one. -/
def paramV (i : ProbIn) (target tidx param inline : Nat) : V :=
  let k := paramPlace i target tidx param
  { id := k, v := if k ≤ i.bound.length then nth i.bound (k - 1) else inline }

def bodyParams (i : ProbIn) (b lo n : Nat) : Vec := (countUp lo n).map fun c => paramV i 0 b c (bParam (tBody i.tree b) c)

/-! ### P1: kinematics (R159, R165, R166) -/

/-- What P1 gives of a body: orientation, origin, motion columns. -/
structure Pose where
  r : VMat := identityV
  p : Vec := vZero
  cols : List Vec := []
deriving Inhabited

/-- Rotation about a unit axis by a coordinate. -/
def axisRot (th : V) (a : Vec) : TM VMat := do
  let h ← trScale cHalf th
  let c ← trCos h
  let s ← trSin h
  let v ← scaleV s a
  rotqV (c :: v)

def rotCol (w q : Vec) : TM Vec := do
  let v ← crossV q w
  return w ++ v
def trCol (u : Vec) : Vec := vZero ++ u

/-- R_J and t_J of a joint with axis `a` and tangents `u`. -/
def jointV (jt : Nat) (q a : Vec) (u : Vec × Vec) : TM (VMat × Vec) :=
  match jt with
  | 1 => do let r ← axisRot (vAt q 0) a; return (r, vZero)
  | 2 => do let t ← scaleV (vAt q 0) a; return (identityV, t)
  | 3 => do let r ← axisRot (vAt q 0) a; let t ← scaleV (vAt q 1) a; return (r, t)
  | 4 => do let r ← rotqV q; return (r, vZero)
  | 5 => do
    let r ← axisRot (vAt q 2) a
    let t ← scaleV (vAt q 0) u.1
    let t ← fmaV (vAt q 1) u.2 t
    return (r, t)
  | 6 => do let r ← rotqV (q.drop 3); return (r, q.take 3)
  | _ => return (identityV, vZero)

/-- The motion columns (R166). -/
def columnsV (jt : Nat) (a : Vec) (u : Vec × Vec) (rf : VMat) (o : Vec) (r : VMat) (p : Vec) : TM (List Vec) :=
  match jt with
  | 1 => do let w ← matvecV rf a; let c ← rotCol w o; return [c]
  | 2 => do let w ← matvecV rf a; return [trCol w]
  | 3 => do let w ← matvecV rf a; let c ← rotCol w o; return [c, trCol w]
  | 4 => (upTo 3).mapM fun k => rotCol (mCol r k) p
  | 5 => do
    let x ← matvecV rf u.1
    let y ← matvecV rf u.2
    let w ← matvecV rf a
    let c ← rotCol w p
    return [trCol x, trCol y, c]
  | 6 => do
    let c ← (upTo 3).mapM fun k => rotCol (mCol r k) p
    return ((upTo 3).map fun k => trCol (mCol rf k)) ++ c
  | _ => return []

def kinematics (i : ProbIn) : TM (List Pose) :=
  let bs := tBodies i.tree
  (bs.zipIdx).foldlM (fun (ps : List Pose) e => do
    let b := e.2
    let jt := bType e.1
    let up := match parentOf bs b with | some j => ps.getD j {} | none => {}
    let ro ← rotqV (bodyParams i b 16 4)
    let rf ← matmulV up.r ro
    let t ← matvecV up.r (bodyParams i b 13 3)
    let o ← addV up.p t
    let a ← if jt = 1 || jt = 2 || jt = 3 || jt = 5 then normaliseV (bodyParams i b 10 3) else pure vZero
    let u ← if jt = 5 then tangentsV a else pure (vZero, vZero)
    let q := (countUp (nth (qBases bs) b) (jointNq jt)).map (inQ i)
    let (rj, tj) ← jointV jt q a u
    let r ← matmulV rf rj
    let d ← matvecV rf tj
    let p ← addV o d
    let cols ← columnsV jt a u rf o r p
    itemDone
    return ps ++ [{ r := r, p := p, cols := cols }]) []

/-! ### P2 and P3: inertias and the mass matrix (R165) -/

def worldInertia (i : ProbIn) (b : Nat) (s : Pose) : TM Vec := do
  let x ← matvecV s.r (bodyParams i b 1 3)
  let cw ← addV x s.p
  let mass := vAt (bodyParams i b 0 1) 0
  let h ← scaleV mass cw
  let n := bodyParams i b 4 6
  let at_ := fun k => vAt n k
  let im : VMat := [[at_ 0, at_ 3, at_ 4], [at_ 3, at_ 1, at_ 5], [at_ 4, at_ 5, at_ 2]]
  let ri ← matmulV s.r im
  let iw ← upperPairs.mapM fun e => dotV (mRow ri e.1) (mRow s.r e.2)
  let t ← dotV h cw
  let jo ← (upperPairs.zip iw).mapM fun e => do
    let m ← trNeg (vAt h e.1.1)
    let y ← trFma m (vAt cw e.1.2) (if e.1.1 = e.1.2 then t else c0)
    trAdd e.2 y
  return mass :: h ++ jo

def composites (bs : List BodyRec) (ib : List Vec) : TM (List Vec) := do
  let ic ← ib.mapM fun v => v.mapM trCopy
  ((upTo bs.length).reverse).foldlM (fun (ic : List Vec) i => match parentOf bs i with
    | some j => do
      let s ← addV (ic.getD j []) (ic.getD i [])
      return ic.set j s
    | none => return ic) ic

/-- Entries of H with their rows and columns, in the order of R169. -/
def massMatrix (bs : List BodyRec) (ps : List Pose) (ic : List Vec) : TM (List (Nat × Nat × V)) :=
  (upTo bs.length).foldlM (fun (h : List (Nat × Nat × V)) i => do
    let h ← (((ps.getD i {}).cols).zip (bodyDofs bs i)).foldlM (fun (h : List (Nat × Nat × V)) c => do
      let f ← applyInertia (ic.getD i []) c.1
      let new ← (bodyChain bs i).mapM fun b => ((((ps.getD b {}).cols).zip (bodyDofs bs b)).filter fun d => d.2 ≤ c.2).mapM fun d => do
        let x ← pairV d.1 f
        return (c.2, d.2, x)
      return h ++ new.reverse.flatten) h
    itemDone
    return h) []

/-! ### P4 and P5: bias forces (R167) -/

def forcesV (i : ProbIn) (ps : List Pose) (ib : List Vec) : TM (List Vec) := do
  let bs := tBodies i.tree
  let g ← (upTo 3).mapM fun k => trNeg { id := (placesOf i).grav + k, v := tGravity i.tree k }
  let r ← (upTo bs.length).foldlM (fun (acc : List (Vec × Vec × Vec)) b => do
    let up : Vec × Vec × Vec := match parentOf bs b with
      | some j => acc.getD j ([], [], [])
      | none => (vZero ++ vZero, vZero ++ g, [])
    let cols := ((ps.getD b {}).cols).zip (bodyDofs bs b)
    let v ← up.1.mapM trCopy
    let v ← cols.foldlM (fun (v : Vec) c => fmaV (inQd i c.2) c.1 v) v
    let a ← up.2.1.mapM trCopy
    let a ← cols.foldlM (fun (a : Vec) c => do
      let x ← crmV v c.1
      fmaV (inQd i c.2) x a) a
    let x ← applyInertia (ib.getD b []) a
    let y ← applyInertia (ib.getD b []) v
    let z ← crfV v y
    let f ← addV x z
    let f ← if tFext i.tree then subV f ((upTo 6).map fun k => inFext i (6 * b + k)) else pure f
    itemDone
    return acc ++ [(v, a, f)]) []
  return r.map fun e => e.2.2

/-- cb, by dof. -/
def biasV (bs : List BodyRec) (ps : List Pose) (fs : List Vec) : TM (Tbl V) := do
  let r ← ((upTo bs.length).reverse).foldlM (fun (acc : List Vec × Tbl V) i => do
    let f := acc.1.getD i []
    let cb ← (((ps.getD i {}).cols).zip (bodyDofs bs i)).foldlM (fun (t : Tbl V) c => do
      let x ← pairV c.1 f
      return Tbl.set t c.2 x) acc.2
    let fs ← match parentOf bs i with
      | some j => do
        let s ← addV (acc.1.getD j []) f
        pure (acc.1.set j s)
      | none => pure acc.1
    itemDone
    return (fs, cb)) (fs, [])
  return r.2

/-! ### P6: constraint rows (R168) -/

/-- A row along `d` from point `pa`, with `pb` for a closure. -/
def rowV (bs : List BodyRec) (ps : List Pose) (nv : Nat) (c : ConRec) (pa pb d : Vec) : TM Vec := do
  let w ← crossV pa d
  let on := fun (b : Nat) => ((ps.getD b {}).cols).zip (bodyDofs bs b)
  let j ← ((bodyChain bs (cBodyA c)).map on).flatten.foldlM (fun (j : Vec) e => do
    let x ← pairV e.1 (w ++ d)
    return j.set e.2 x) (List.replicate nv c0)
  if cKind c = 0 then do
    let wb ← crossV pb d
    ((bodyChain bs (cBodyB c)).map on).flatten.foldlM (fun (j : Vec) e => do
      let x ← pairV e.1 (wb ++ d)
      let y ← trSub (vAt j e.2) x
      return j.set e.2 y) j
  else return j

/-- The rows of a record with their residuals. -/
def recordV (i : ProbIn) (ps : List Pose) (k : Nat) : TM (List (Vec × V)) := do
  let bs := tBodies i.tree
  let nv := tNv i.tree
  let c := tCon i.tree k
  let pt := fun (lo b : Nat) => do
    let v := (countUp lo 3).map fun x => paramV i 1 k x (cParam c x)
    let x ← matvecV (ps.getD b {}).r v
    addV x (ps.getD b {}).p
  let pa ← pt 20 (cBodyA c)
  if cKind c = 0 then do
    let pb ← pt 23 (cBodyB c)
    let res ← subV pa pb
    let rows ← (upTo 3).mapM fun e => rowV bs ps nv c pa pb (mRow identityV e)
    return rows.zip res
  else do
    let meas := fun lo => (countUp lo 3).map fun x => inMeas i (6 * cMidx c + x)
    let n ← normaliseV (meas 3)
    let t ← if cKind c = 2 then tangentsV n else pure (vZero, vZero)
    let d ← subV pa (meas 0)
    let e ← dotV n d
    let dirs := if cKind c = 2 then [n, t.1, t.2] else [n]
    let rows ← dirs.mapM fun x => rowV bs ps nv c pa vZero x
    return rows.zip [e, c0, c0]

/-! ### A problem assembled (R169) -/

structure Asm where
  pose : List V
  h : List (Nat × Nat × V)
  c : List V
  j : List Vec
  e : List V

/-- The assembly of one problem, operation by operation (DEDUCED, log 77). -/
def assemble (i : ProbIn) : TM Asm := do
  let bs := tBodies i.tree
  let ps ← kinematics i
  let ib ← (upTo bs.length).mapM fun b => do
    if b ≠ 0 then itemDone
    worldInertia i b (ps.getD b {})
  let ic ← composites bs ib
  itemDone
  let h ← massMatrix bs ps ic
  let fs ← forcesV i ps ib
  let cb ← biasV bs ps fs
  let rows ← (upTo (tNcon i.tree)).mapM (fun k => do
    let r ← recordV i ps k
    itemDone
    return r)
  return { pose := (ps.map fun p => p.r.flatten ++ p.p).flatten, h := h, c := (upTo (tNv i.tree)).map (Tbl.get c0 cb),
           j := rows.flatten.map (·.1), e := rows.flatten.map (·.2) }

/-- The outputs, the trace, and the flags raised. -/
def assembled (i : ProbIn) : Asm × Tape := (assemble i).run { next := (placesOf i).next }

/-- The outputs in the order of R169. -/
def Asm.outputs (a : Asm) : List V := a.pose ++ a.h.map (·.2.2) ++ a.c ++ a.j.flatten ++ a.e

/-- Is there a NaN in an output block (R177)? -/
def Asm.nonFinite (a : Asm) : Bool := a.outputs.any fun v => nanD v.v

/-- The flags raised once `n` items are done. -/
def Tape.flagsAt (t : Tape) (n : Nat) : Flags := if n = 0 then 0 else ((t.items.reverse[n - 1]?).map (·.2)).getD t.fl
/-- The operations of the last `n` items, last operation first. -/
def Tape.lastOps (t : Tape) (n : Nat) : List (Nat × Nat × TOp) :=
  let from_ := ((t.items[n]?).map (·.1)).getD 0
  t.nodes.filter fun e => from_ ≤ e.1

/-! ### The workspace (R156, R169) -/

def f64Bytes (l : List Nat) : List Byte := (l.map (leBytes 8)).flatten

/-- INFO; its fields follow one another, the rest zero (DESIGN CHOICE, log 76). -/
def infoBlock (t : List Byte) (fl : Flags) : List Byte :=
  let l := ([tNb t, tNq t, tNv t, tRows t, (hEntries (tBodies t)).length].map (leBytes 4)).flatten ++ bytesOf (signature t)
    ++ leBytes 4 fl.toNat
  l ++ List.replicate (64 - l.length) 0

/-- A workspace, with what is in it so far; a block not yet written reads as zero (DESIGN CHOICE, log 76). -/
def workspace (i : ProbIn) (outs : Option (Asm × Flags)) (seeds : List Nat) : List Byte :=
  let t := i.tree
  let m := tRows t
  let n := 12 * tNb t + (hEntries (tBodies t)).length + tNv t + m * tNv t + m
  let blank := List.replicate (8 * n) (0 : Byte)
  let first := match outs with
    | some (a, fl) => f64Bytes (a.outputs.map (·.v)) ++ infoBlock t fl
    | none => blank ++ List.replicate 64 0
  let w := first ++ (if seeds.isEmpty then blank else f64Bytes seeds) ++ f64Bytes i.bound
  w ++ List.replicate (workspaceBytes t - w.length) 0

def Asm.table (a : Asm) : HTab := a.h.foldl (fun t e => hPut t e.1 e.2.1 e.2.2.v) []

/-! ### The adjoint pass (R172) -/

def adjGet (t : Tbl Nat) (a : V) : Nat := Tbl.get 0 t a.id

/-- One update: ā := f(ā). The adjoint of a use of a constant is formed and discarded. -/
def update (t : Tbl Nat) (a : V) (f : Nat → FM Nat) : FM (Tbl Nat) := do
  let x ← f (adjGet t a)
  return if a.id = 0 then t else Tbl.set t a.id x

def reverseOp (t : Tbl Nat) (e : Nat × Nat × TOp) : FM (Tbl Nat) := do
  let r := Tbl.get 0 t e.1
  match e.2.2 with
  | .add a b => do
    let t ← update t a fun x => fadd x r
    update t b fun x => fadd x r
  | .sub a b => do
    let t ← update t a fun x => fadd x r
    update t b fun x => fsub x r
  | .mul a b => do
    let t ← update t a fun x => ffma r b.v x
    update t b fun x => ffma r a.v x
  | .fma a b c => do
    let t ← update t a fun x => ffma r b.v x
    let t ← update t b fun x => ffma r a.v x
    update t c fun x => fadd x r
  | .rsqrt a => do
    let y ← fmul e.2.1 e.2.1
    let z ← fmul y e.2.1
    let w ← fmul 0xBFE0000000000000 z
    update t a fun x => ffma r w x
  | .sin a => do
    let c ← raise (fCos fF64 a.v)
    update t a fun x => ffma r c x
  | .cos a => do
    let c ← raise (fSin fF64 a.v)
    update t a fun x => ffma r (negD c) x
  | .neg a => update t a fun x => fadd x (negD r)
  | .scale k a => do
    let y ← fmul r k.v
    update t a fun x => fadd x y
  | .copy a => update t a fun x => fadd x r

/-- Seeds of outputs, by their values. -/
def seedAll (l : List (V × Nat)) : FM (Tbl Nat) := l.foldlM (fun t e => update t e.1 fun x => fadd x e.2) []

/-- The adjoints of every place, given seeds of the outputs. -/
def reversePass (nodes : List (Nat × Nat × TOp)) (seeds : List (V × Nat)) : FM (Tbl Nat) := do
  let t ← seedAll seeds
  nodes.foldlM reverseOp t

end Sys2Proof.Machine
end

