-- ==== Sys2Proof/Machine/Solver.lean ====
section
/-! DEFINITION. Solver calls (07_solver_assembly R154 to R156, R162, R170 to R177; 08_solver_factorisation R178 to R198): their
checks, their problems from start to result record, adjoints, deadlines and borrowed rooms. -/

namespace Sys2Proof.Machine

/-! ### The call block (R179) -/

def sTol (c : BitVec 1024) : Nat := field c 960 64
def sKp (c : BitVec 1024) : Nat := field c 896 64
def sMu (c : BitVec 1024) : Nat := field c 832 64
def sDeadline (c : BitVec 1024) : U64 := bits c 768 64
def sResult (c : BitVec 1024) : Nat := field c 720 48
def sTree (c : BitVec 1024) : Nat := field c 672 48
def sMaxit (c : BitVec 1024) : Nat := field c 528 16
def sCount (c : BitVec 1024) : Nat := field c 44 12
def sFirst (c : BitVec 1024) : Nat := field c 33 11
def sNroom (c : BitVec 1024) : Nat := field c 22 4
def sDlform (c : BitVec 1024) : Nat := field c 20 2
def sWarm (c : BitVec 1024) : Bool := flag c 19
def sTrace (c : BitVec 1024) : Bool := flag c 18
def sMode (c : BitVec 1024) : Nat := field c 16 2
def sAdj (c : BitVec 1024) : Bool := sMode c == 1
def sKind (c : BitVec 1024) : Nat := field c 13 3
/-- Kinds that use no TREE; 6 and 7, which no call has, among them (R198). -/
def sDense (c : BitVec 1024) : Bool := sKind c < 3 || 5 < sKind c

/-- The handles of a call, in the order HA, HRHS, HX, HLAM, HGX, HGLAM, HGRHS, HGA. -/
def hA : Nat := 0
def hRhs : Nat := 1
def hX : Nat := 2
def hLam : Nat := 3
def hGx : Nat := 4
def hGlam : Nat := 5
def hGrhs : Nat := 6
def hGa : Nat := 7
def sHandle (c : BitVec 1024) (k : Nat) : Nat := field c (656 - 16 * k) 16
/-- Enabled, and not one that the kind ignores (R180). -/
def sEn (c : BitVec 1024) (k : Nat) : Bool := flag c (520 + k) && (sDense c || (k != hA && k != hGa))

/-! ### What a call names -/

/-- Handles of the tree that are read: with the axis-0 length each must have, and whether exactly (R162). -/
def treeReads (t : List Byte) : List (Nat × Nat × Bool) :=
  let top := ((tCons t).filter fun c => cKind c != 0).foldl (fun m c => max m (cMidx c + 1)) 0
  [(tHandle t 0, tNq t, true), (tHandle t 1, tNv t, true)]
    ++ (if tFext t then [(tHandle t 2, 6 * tNb t, true)] else [])
    ++ (if tMeas t then [(tHandle t 3, 6 * top, true)] else [])
    ++ (tBinds t).map fun b => (nHandle b, nElem b + 1, false)

/-- Gradient handles of the tree with their sources. -/
def treeGrads (t : List Byte) : List (Nat × Nat) :=
  (((upTo 4).filter fun k => tGradEn t k && (k < 2 || (k == 2 && tFext t) || (k == 3 && tMeas t))).map fun k => (tHandle t (4 + k), tHandle t k))
    ++ ((tBinds t).filter nGen).map fun b => (nGhandle b, nHandle b)

/-- Handles of the call that are read, and those that are written. -/
def callReads (c : BitVec 1024) : List Nat :=
  (([hA, hRhs] ++ (if sAdj c then [hGx, hGlam] else [])).filter (sEn c)).map (sHandle c)
def callWrites (c : BitVec 1024) : List Nat :=
  ((if sAdj c then [hGrhs, hGa] else [hX, hLam]).filter (sEn c)).map (sHandle c)

/-- The call block and tree that a SOLVE names, as far as they can be read. -/
def State.callOf (s : State) (o : Op) : BitVec 1024 := wordOf 1024 (s.bytesAt o.addr 128)
def State.treeOf (s : State) (c : BitVec 1024) : List Byte :=
  if sDense c then []
  else
    let h := s.bytesAt (sTree c) 64
    s.bytesAt (sTree c) (treeLen (min 1024 (tNb h)) (min 512 (tNcon h)) (min 4096 (tNbind h)))

def readHandles (c : BitVec 1024) (t : List Byte) : List Nat := callReads c ++ if sDense c then [] else (treeReads t).map (·.1)
def writeHandles (c : BitVec 1024) (t : List Byte) : List Nat :=
  callWrites c ++ if sDense c || !sAdj c then [] else (treeGrads t).map (·.1)
/-- Gradient destinations (R195). -/
def gradHandles (c : BitVec 1024) (t : List Byte) : List Nat :=
  ([hGrhs, hGa].filter (sEn c)).map (sHandle c) ++ if sDense c then [] else (treeGrads t).map (·.1)
def namedHandles (c : BitVec 1024) (t : List Byte) : List Nat :=
  (((upTo 8).filter (sEn c)).map (sHandle c)) ++ if sDense c then [] else (treeReads t).map (·.1) ++ (treeGrads t).map (·.1)

/-- Order of a dense problem: columns and rows, from the matrix, or, where its handle is disabled, from the other tensors. -/
def denseShape (c : BitVec 1024) (d : Nat → Desc) : Nat × Nat :=
  let at_ := fun k => d (sHandle c k)
  if sEn c hA then (dDim (at_ hA) 0, dDim (at_ hA) 1)
  else
    let n := dDim (at_ (if sAdj c then hGx else hX)) 0
    (n, if sEn c hRhs && sKind c = 2 then dDim (at_ hRhs) 0 else n)

/-! ### Checks at dispatch (R176, R180, R195, R198) -/

def treeFieldsOk (t : List Byte) : Bool :=
  let h := treeHdr t
  field h 0 8 == 1 && field h 8 8 == 0 && field h 64 2 == 0 && field h 72 56 == 0 && field h 256 64 == 0
    && 1 ≤ tNb t && tNb t ≤ 1024 && tNcon t ≤ 512 && tNbind t ≤ 4096

def recordsOk (t : List Byte) : Bool :=
  ((tBodies t).zipIdx).all (fun e => field e.1 15 241 == 0 && field e.1 11 1 == 0 && bType e.1 != 7
      && (bParent e.1 == 0x7FF || bParent e.1 < e.2))
    && (tCons t).all (fun c => field c 0 26 == 0 && field c 64 64 == 0 && cKind c != 3 && cBodyA c < tNb t && cBodyB c < tNb t
      && (if cKind c = 0 then cMidx c == 0 && cBodyB c != cBodyA c else cBodyB c == 0 && field c 320 192 == 0))
    && tNv t ≤ 2048 && tRows t ≤ 512 && (tBinds t).all fun b => field b 0 46 == 0

def bindsOk (t : List Byte) : Bool :=
  let l := (tBinds t).map fun b => (nTarget b, nTidx b, nParam b)
  (tBinds t).all (fun b => if nTarget b = 0 then nParam b < 20 && nTidx b < tNb t else 20 ≤ nParam b && nParam b < 26 && nTidx b < tNcon t)
    && (l.eraseDups.length == l.length)

/-- Batch axis `i` of a tensor: one column for all, or enough. -/
def batchOk (d : Desc) (i count : Nat) : Bool := dDim d i == 1 || count ≤ dDim d i

def tensorsOk (c : BitVec 1024) (t : List Byte) (d : Nat → Desc) : Bool :=
  (treeReads t).all (fun e => let x := d e.1
      dRank x == 2 && fmtFloat (dFmt x) && batchOk x 1 (sCount c) && (if e.2.2 then dDim x 0 == e.2.1 else e.2.1 ≤ dDim x 0))
    && (treeGrads t).all fun e => dDims (d e.1) == dDims (d e.2) && fmtFloat (dFmt (d e.1))

/-- Bytes of the solver region in a partition (R155). -/
def State.regionBytes (s : State) (p : Nat) : Nat := (s.sched p).sreg.toNat * 2 ^ 20 * s.mode.dieShare
/-- What one problem occupies. -/
def problemBytes (c : BitVec 1024) (t : List Byte) : Nat :=
  if sDense c then 0 else workspaceBytes t + if sTrace c || sAdj c then traceBytes t else 0

/-- The rules of R179 and R180 that fields alone break. -/
def callFieldsOk (c : BitVec 1024) (slots : Nat) : Bool :=
  field c 0 8 == 1 && field c 8 5 == 0 && field c 56 464 == 0 && sKind c < 6 && sMode c < 2 && sDlform c != 3
    && 1 ≤ sCount c && sCount c ≤ slots && (sKind c != 5 || sMaxit c != 0) && (sKind c == 5 || !sWarm c) && !(sAdj c && sTrace c)
    && (if sAdj c then sEn c hGx else sEn c hX)

/-- The shapes of R180 but for the dense matrices. -/
def callShapesOk (c : BitVec 1024) (t : List Byte) (d : Nat → Desc) : Bool :=
  let (n, r) := denseShape c d
  let nx := if sDense c then n else tNv t
  let nb := if sDense c then (if sKind c = 2 then r else n) else tNv t
  let m := if sDense c then 0 else tRows t
  let ok := fun (k len : Nat) => let x := d (sHandle c k)
    !sEn c k || (fmtFloat (dFmt x) && dRank x == 2 && dDim x 0 == len && batchOk x 1 (sCount c))
  ok hRhs nb && ok hX nx && ok hLam m && ok hGx nx && ok hGlam m && ok hGrhs nb

/-- The dense matrices, and the kinds of records allowed. -/
def problemShapeOk (c : BitVec 1024) (t : List Byte) (d : Nat → Desc) : Bool :=
  let (n, r) := denseShape c d
  if sDense c then
    let ok := fun (k : Nat) => let x := d (sHandle c k)
      !sEn c k || (fmtFloat (dFmt x) && dRank x == 3 && dDim x 0 == n && dDim x 1 == r && batchOk x 2 (sCount c))
    ok hA && ok hGa && n ≤ r && r ≤ 512 && (sKind c == 2 || n == r)
  else sKind c != 5 || (tCons t).all fun x => cKind x != 0

/-- Can the problems not do without borrowed rooms (R182)? -/
def bigProblem (c : BitVec 1024) (t : List Byte) (d : Nat → Desc) : Bool :=
  if sDense c then 256 < (denseShape c d).1 else 4 ≤ sKind c && 256 < tRows t

def roomsOk (s : State) (p : Nat) (c : BitVec 1024) (big : Bool) : Bool :=
  sNroom c ≤ 8 && (countUp (field c 26 7) (sNroom c)).all (fun m => (s.roomsOf p).contains m && !s.outOfService 0 m)
    && !(sNroom c == 0 && big)

/-- A gradient destination under R195. -/
def convPointOk (d : Desc) : Bool := dFmt d == cF64 || dFmt d == cF32 || (dFmt d == cS16 && dScaleEn d)

/-- The checks of a SOLVE in order: its block; the tree (R176); the call (R198) (DEDUCED, log 79). -/
def State.solveStop (s : State) (n : Nat) (o : Op) : Option FaultInfo :=
  let p := ringPart n
  let stop := fun (c : U16) => some (stopAt o 0 c)
  let test := fun (ok : Bool) (c : U16) => if ok then none else stop c
  let align := fun (a k : Nat) => test (a % k == 0) 0x0A06
  let c := s.callOf o
  let t := s.treeOf c
  let d := s.descOf p
  let handles := fun (l : List Nat) => l.findSome? fun h => s.handleRead n o h (d h) ((writeHandles c t).contains h) (s.epochs p)
  let useTree := fun (f : Unit → Option FaultInfo) => if sDense c then none else f ()
  firstStop [
    fun _ => align o.addr 128, fun _ => s.blockRead n o o.addr 128,
    fun _ => useTree fun _ => firstStop [
      fun _ => align (sTree c) 256, fun _ => s.blockRead n o (sTree c) 64,
      fun _ => test (treeFieldsOk t) 0x0601, fun _ => s.blockRead n o (sTree c) t.length,
      fun _ => test (recordsOk t) 0x0601, fun _ => test (bindsOk t) 0x0602,
      fun _ => handles ((treeReads t).map (·.1) ++ (treeGrads t).map (·.1)),
      fun _ => test (tensorsOk c t d) 0x0603,
      fun _ => test (problemBytes c t ≤ s.regionBytes p) 0x0604],
    fun _ => test (callFieldsOk c s.slotCount) 0x0605,
    fun _ => handles (((upTo 8).filter (sEn c)).map (sHandle c)),
    fun _ => test (callShapesOk c t d) 0x0605,
    fun _ => test (roomsOk s p c (bigProblem c t d)) 0x0606,
    fun _ => test ((gradHandles c t).all fun h => convPointOk (d h)) 0x0607,
    fun _ => test (sDlform c == 0 || s.time.mode != .unset) 0x0608,
    fun _ => test (problemShapeOk c t d) 0x0609,
    fun _ => s.slotStop o,
    fun _ => s.classStop n o ((writeHandles c t).map d),
    fun _ => align (sResult c) 64, fun _ => s.blockWrite n o (sResult c) (64 * sCount c)]

/-! ### Borrowed rooms (R185) -/

/-- ROOM_RESERVATION: every word issued to the borrowed rooms has completed. -/
def execRoomReservation (ring : BitVec 6) (seq : BitVec 64) (s : State) : Out :=
  let n := ring.toNat
  match (s.opAt n seq.toNat).bind fun o => o.solve.map fun c => (o, c) with
  | some (o, c) => act (s.up && o.live && !c.reserved && c.borrowed.all fun m => (s.room m).quiet) s fun s =>
      s.updOp n o.orig fun o => { o with solve := o.solve.map fun c => { c with reserved := true } }
  | none => .next s

/-! ### Deadlines (R47, R191) -/

/-- The call takes a device-created entry for its deadline, if one is free. -/
def armDeadline (s : State) (n : Nat) (o : Op) : State :=
  match o.solve with
  | some c =>
    match c.deadline, c.entry with
    | some t, none =>
      match s.freeEntry (ringPart n) with
      | some k =>
        let (i, s) := s.takeFree
        let s := armDevice s k 8 (ringPart n) t (Config.callIdent i)
        s.updOp n o.orig fun o => { o with solve := o.solve.map fun c => { c with entry := some k } }
      | none => s
    | _, _ => s
  | none => s

/-! ### SOLVE (R198) -/

/-- The problems of a call as it is dispatched. -/
def freshProblems (c : BitVec 1024) : Tbl Problem := (upTo (sCount c)).map fun b => (b, {})

/-- A forward call ends the adjoint records of its slots (R193). -/
def dropRecords (s : State) (p first count : Nat) : State :=
  s.updSched p fun q => { q with slots := q.slots.map fun e =>
    (e.1, if first ≤ e.1 && e.1 < first + count then { e.2 with record := none } else e.2) }

def startCall (s : State) (n : Nat) (o : Op) : State × Op :=
  let p := ringPart n
  let c := s.callOf o
  let t := s.treeOf c
  let ds := (namedHandles c t).foldl (fun (l : Tbl Desc) h => Tbl.set l h (s.descOf p h)) []
  let s := touch (touch s o.addr 128) (sTree c) t.length
  let s := if sAdj c then s else dropRecords s p (sFirst c) (sCount c)
  let outs := (writeHandles c t).map fun h => Tbl.get 0 ds h
  (s, { o with descs := ds, scales := (s.sched p).scales, convs := (outs.filter gathers).map dScaleReg,
               solve := some { call := c, tree := t, reserved := sNroom c == 0, units := (s.unitsOf p).filter fun u => !s.outOfService 1 u,
                               deadline := match sDlform c with | 1 => some (sDeadline c) | 2 => some (o.tstart + sDeadline c) | _ => none,
                               needRooms := bigProblem c t fun h => Tbl.get 0 ds h, probs := freshProblems c } })

def prepSolve (s : State) (n : Nat) (o : Op) : Op :=
  let c := s.callOf o
  let t := s.treeOf c
  let named := fun (l : List Nat) => l.map fun h => (h, s.descOf (ringPart n) h)
  { o with slots := (sFirst c, sCount c)
           uses := usesOf (s.sched (ringPart n)).scales (named (readHandles c t)) (named (writeHandles c t)) }

/-- SOLVE: checked and dispatched; it takes an entry for its deadline where one is free. -/
def execSolve (ring : BitVec 6) (s : State) : Out :=
  let n := ring.toNat
  let p := ringPart n
  let before := (s.sched p).dispatched
  match dispatchHead n (wantOpc 0x20)
    { prep := prepSolve
      names := fun s _ o => namedHandles (s.callOf o) (s.treeOf (s.callOf o))
      wait := fun s _ o => (countUp (field (s.callOf o) 26 7) (sNroom (s.callOf o))).any s.roomReserved
      check := fun s n o => s.solveStop n o
      go := startCall } s with
  | .next t =>
    if (t.sched p).dispatched = before then .next t
    else match (t.ring n).ops.getLast? with
      | some o => .next (armDeadline t n o)
      | none => .next t
  | x => x

/-! ### Reading the inputs of a problem (R162, R180) -/

/-- Numbers read: F64 patterns, whether one was poisoned, flags, a refused granule. -/
structure Got where
  vals : List Nat := []
  po : Bool := false
  fl : Flags := 0
  stop : Option (Nat × U16) := none
  from_ : List (Desc × List Nat) := []

/-- Linear element (k, b) of a rank-2 tensor. -/
def lin2 (d : Desc) (k b : Nat) : Nat := k + dDim d 0 * (if dDim d 1 = 1 then 0 else b)
/-- Linear element (j, i, b) of a dense matrix: column j, row i. -/
def lin3 (d : Desc) (j i b : Nat) : Nat := j + dDim d 0 * (i + dDim d 1 * (if dDim d 2 = 1 then 0 else b))

def Got.read (g : Got) (s : State) (o : Op) (h : Nat) (ns : List Nat) : List Nat × Got :=
  let d := Tbl.get 0 o.descs h
  let es := ns.map fun n =>
    let e := s.elem d n
    let r := elemPack cF64 .rne (-(scaleOf o.scales d)) e.x
    (r.1, e.po, r.2 ||| e.fl)
  (es.map (·.1), { g with po := g.po || es.any (·.2.1), fl := es.foldl (fun (f : Flags) e => f ||| e.2.2) g.fl,
                          stop := if g.stop.isSome then g.stop else s.elemsStop d ns, from_ := g.from_ ++ [(d, ns)] })

/-- Handle `k` of the call where it is enabled; else `other`. -/
def Got.vec (g : Got) (s : State) (o : Op) (c : BitVec 1024) (k b len : Nat) (other : Nat → Nat) : List Nat × Got :=
  if sEn c k then
    let d := Tbl.get 0 o.descs (sHandle c k)
    g.read s o (sHandle c k) ((upTo len).map fun i => lin2 d i b)
  else ((upTo len).map other, g)

/-- The inputs and seeds of problem `b`, of a symmetric matrix its lower triangle alone (R182); free values, numbered from `k`, where a disabled handle would be read (DEDUCED, log 83). -/
def problemInputs (s : State) (o : Op) (c : SolveOp) (b k : Nat) : Problem × Got :=
  let w := c.call
  let free := fun (j i : Nat) => (Config.unread k (2 ^ 20 * j + i)).toNat
  let d := fun h => Tbl.get 0 o.descs h
  let t := c.tree
  let base : ProbIn := { tree := t, kp := sKp w, mu := sMu w }
  if sDense w then
    let (n, r) := denseShape w d
    let width := fun (i : Nat) => if sKind w = 2 then n else min n (i + 1)
    let places := ((upTo r).map fun i => (upTo (width i)).map fun j => (i, j)).flatten
    let (vs, g) := if sEn w hA then
        let x := d (sHandle w hA)
        ({} : Got).read s o (sHandle w hA) (places.map fun e => lin3 x e.2 e.1 b)
      else (places.map fun e => free 0 (n * e.1 + e.2), ({} : Got))
    let a := ((upTo r).map fun i =>
      (vs.drop (sumOf ((upTo i).map width))).take (width i) ++ List.replicate (n - width i) 0).flatten
    let (rhs, g) := g.vec s o w hRhs b (if sKind w = 2 then r else n) (free 1)
    let (xb, g) := if sAdj w then g.vec s o w hGx b n (free 2) else ([], g)
    ({ inp := { base with a := a, rows := r, cols := n, rhs := rhs }, xbar := xb }, g)
  else
    let nv := tNv t
    let col := fun (h len : Nat) => (upTo len).map fun i => lin2 (d h) i b
    let (bound, g) := (tBinds t).foldl (fun (a : List Nat × Got) x =>
      let y := a.2.read s o (nHandle x) [lin2 (d (nHandle x)) (nElem x) b]
      (a.1 ++ y.1, y.2)) ([], ({} : Got))
    let (q, g) := g.read s o (tHandle t 0) (col (tHandle t 0) (tNq t))
    let (qd, g) := g.read s o (tHandle t 1) (col (tHandle t 1) nv)
    let (fx, g) := if tFext t then g.read s o (tHandle t 2) (col (tHandle t 2) (6 * tNb t)) else ([], g)
    let top := ((tCons t).filter fun x => cKind x != 0).foldl (fun m x => max m (cMidx x + 1)) 0
    let (ms, g) := if tMeas t then g.read s o (tHandle t 3) (col (tHandle t 3) (6 * top)) else ((upTo (6 * top)).map (free 3), g)
    let (rhs, g) := g.vec s o w hRhs b nv fun _ => 0
    let (xb, g) := if sAdj w then g.vec s o w hGx b nv (free 2) else ([], g)
    let (lb, g) := if sAdj w then g.vec s o w hGlam b (tRows t) fun _ => 0 else ([], g)
    ({ inp := { base with bound := bound, q := q, qd := qd, fext := fx, meas := ms, rhs := rhs }, xbar := xb, lbar := lb }, g)

/-! ### A problem's factorisation as a whole (R182 to R188) -/

/-- What factoring a problem leaves: its factors, the intervals it took, how it failed, and, but for CONTACT, the solution. -/
structure Factored where
  fact : Fact := {}
  asm : Option Asm := none
  tape : Tape := { next := 0 }
  par : List (Option Nat) := []
  tf : TreeFact := { h := [] }
  sch : Schur := {}
  stop : Option (Nat × Nat) := none
  /-- Panel intervals up to the end of Schur formation, and in all. -/
  schurEnd : Nat := 0
  intervals : Nat := 0
  x : List Nat := []
  lam : List Nat := []

/-- Rows of a dense matrix. -/
def denseRows (i : ProbIn) : Mat := (upTo i.rows).map fun r => (i.a.drop (i.cols * r)).take i.cols

/-- The bounds of each row (R189). -/
def rowBounds (t : List Byte) : List RowBound :=
  ((tCons t).foldl (fun (a : List RowBound) c =>
    a ++ (if cKind c = 2 then [none, some a.length, some a.length] else List.replicate (cRows c) none)) [])

def factorTree (kind : Nat) (i : ProbIn) : FM Factored := do
  let (a, tape) := assembled i
  let par := dofParents (tBodies i.tree)
  let j := a.j.map fun r => r.map (·.v)
  let rv ← (i.rhs.zip a.c).mapM fun e => fsub e.1 e.2.v
  let ev ← a.e.mapM fun e => fmul (negD i.kp) e.v
  let tf ← treeFactor par a.table
  let k : Factored := { asm := some a, tape := tape, par := par, tf := tf, stop := tf.stop, intervals := tf.steps }
  if k.stop.isSome then return k
  if kind = 3 then
    let x ← treeSolve par tf.h rv
    return { k with x := x }
  let sc ← schur par tf.h j rv ev
  let m := j.length
  let formed := tf.steps + 3 * par.length * (m + 1) + m * (m + 1) / 2 + m
  let k := { k with sch := sc, schurEnd := formed, intervals := formed }
  if kind = 5 then return k
  let f ← dchol sc.sm
  let k := { k with stop := f.stop, intervals := k.intervals + f.intervals }
  if k.stop.isSome then return k
  let lam ← cholSolve f (sc.bb.map negD)
  let x ← addY sc lam
  return { k with x := x, lam := lam }

def factorDense (kind : Nat) (i : ProbIn) : FM Factored := do
  let m := denseRows i
  let f ← if kind = 0 then dchol m else if kind = 1 then dldlt m else dqr m i.cols
  let k : Factored := { fact := f, stop := f.stop, intervals := f.intervals }
  if k.stop.isSome then return k
  let x ← if kind = 0 then cholSolve f i.rhs else if kind = 1 then ldltSolve f i.rhs else qrSolve f i.cols i.rhs
  return { k with x := x }

/-- The factors of a problem with the flags raised. -/
def factored (kind : Nat) (i : ProbIn) : Factored × Flags := (if kind < 3 then factorDense kind i else factorTree kind i).run 0

/-! ### Adjoints (R194) -/

/-- b̄ and Ā of a dense problem, Ā by rows. -/
def denseAdjoint (kind : Nat) (i : ProbIn) (f : Fact) (x xb : List Nat) : FM (List Nat × Mat) := do
  if kind < 2 then
    let bb ← if kind = 0 then cholSolve f xb else ldltSolve f xb
    let ab ← bb.mapM fun b => x.mapM fun xj => do let p ← fmul b xj; return negD p
    return (bb, ab)
  else
    let y ← qrForward f (f.perm.map (nth xb))
    let z0 ← qrBack f y
    let z := unpermute f.perm i.cols z0
    let rows := denseRows i
    let ax ← rows.mapM fun r => gdot r x
    let res ← (i.rhs.zip ax).mapM fun e => fsub e.1 e.2
    let bb ← rows.mapM fun r => gdot r z
    let ab ← (res.zip bb).mapM fun e => (z.zip x).mapM fun w => do
      let p ← fmul e.2 w.2
      ffma e.1 w.1 (negD p)
    return (bb, ab)

/-- The rows of the active set. -/
def activeRows (kind : Nat) (i : ProbIn) (lam : List Nat) : List Nat :=
  if kind = 3 then []
  else if kind = 4 then upTo lam.length
  else
    let bd := rowBounds i.tree
    (upTo lam.length).filter fun j => match bd.getD j none with
      | none => gtD (nth lam j) 0
      | some n => gtD (nth lam n) 0 && gtD (mulD i.mu (nth lam n)).1 (absD (nth lam j))

/-- The factor of S_a, the rows of the active set of S. -/
def activeFactor (kind : Nat) (i : ProbIn) (k : Factored) (lam : List Nat) : FM Fact :=
  let rows := activeRows kind i lam
  dchol (rows.map fun r => rows.map fun c => matAt k.sch.sm r c)

/-- The adjoint solve of a tree kind: u, the seed block in the order of R169, and how S_a failed. -/
structure TreeAdj where
  u : List Nat := []
  seeds : List Nat := []
  stop : Option (Nat × Nat) := none

def treeAdjoint (kind : Nat) (i : ProbIn) (k : Factored) (x lam xb lb : List Nat) : FM TreeAdj := do
  match k.asm with
  | none => return {}
  | some a =>
    let j := a.j.map fun r => r.map (·.v)
    let rows := activeRows kind i lam
    let u0 ← treeSolve k.par k.tf.h xb
    let f ← activeFactor kind i k lam
    if f.stop.isSome then return { stop := f.stop }
    let rhs ← rows.mapM fun r => do
      let g ← gdot (j.getD r []) u0
      fadd g (nth lb r)
    let wa ← cholSolve f rhs
    let w := (rows.zip wa).foldl (fun (l : List Nat) e => l.set e.1 e.2) (List.replicate j.length 0)
    let u ← (u0.zipIdx).mapM fun e => do
      let g ← gdot (rows.map fun r => nth (k.sch.y.getD r []) e.2) wa
      fsub e.1 g
    let es ← w.mapM fun wj => do
      let p ← fmul i.kp wj
      return negD p
    let hs ← a.h.mapM fun e => do
      let p ← if e.1 = e.2.1 then fmul (nth u e.1) (nth x e.1) else do
        let q ← fmul (nth u e.2.1) (nth x e.1)
        ffma (nth u e.1) (nth x e.2.1) q
      return negD p
    let js ← if kind = 3 then pure (a.j.map fun r => r.map fun _ => 0) else
      (w.zip lam).mapM fun r => (x.zip u).mapM fun e => do
        let p ← fmul r.1 e.1
        ffma r.2 e.2 (negD p)
    return { u := u, seeds := a.pose.map (fun _ => 0) ++ hs ++ u.map negD ++ js.flatten ++ es }

/-! ### The course of a problem -/

/-- What the course of a problem depends on besides the problem. -/
structure Course where
  call : BitVec 1024
  d : Nat → Desc
  b : Nat
  tree : List Byte
  warm : Option (List Nat)
  sig : U64
  /-- The iterate from which the sweeps of the slot's latest forward problem started. -/
  start : List Nat

def Problem.noted (pr : Problem) (f : Flags) : Problem := { pr with exc := pr.exc ||| f }
/-- A problem that has come out, to be recorded. -/
def Problem.out (pr : Problem) (status index : Nat) (outs : List (Nat × Nat × Nat)) : Problem :=
  { pr with stage := .outputs, status := status, index := index, outs := outs }

/-- Values for the elements of handle `k` of the call. -/
def Course.column (c : Course) (k : Nat) (vs : List Nat) : List (Nat × Nat × Nat) :=
  let h := sHandle c.call k
  if sEn c.call k then (vs.zipIdx).map fun e => (h, lin2 (c.d h) e.2 c.b, e.1) else []

/-- Gradients of the tensors that the call's tree names, from the adjoints of all places of the record's; +0 where the record has no such
value (DEDUCED, log 81). -/
def Course.gradients (c : Course) (i : ProbIn) (t : Tbl Nat) : List (Nat × Nat × Nat) :=
  let pl := placesOf i
  let tr := c.tree
  let own := fun (k from_ have_ len : Nat) =>
    let h := tHandle tr (4 + k)
    if tGradEn tr k then (upTo len).map fun e => (h, lin2 (c.d h) e c.b, if e < have_ then Tbl.get 0 t (from_ + e) else 0) else []
  let groups := ((tCons tr).filter fun x => cKind x != 0).foldl (fun m x => max m (cMidx x + 1)) 0
  own 0 pl.q i.q.length (tNq tr) ++ own 1 pl.qd i.qd.length (tNv tr)
    ++ (if tFext tr then own 2 pl.fext i.fext.length (6 * tNb tr) else [])
    ++ (if tMeas tr then own 3 pl.meas i.meas.length (6 * groups) else [])
    ++ ((tBinds tr).filter nGen).map fun e =>
        (nGhandle e, lin2 (c.d (nGhandle e)) (nElem e) c.b, Tbl.get 0 t (paramPlace i (nTarget e) (nTidx e) (nParam e)))

/-- The adjoint solve of a dense problem; it comes out. -/
def denseSolved (c : Course) (pr : Problem) : Problem :=
  let kind := sKind c.call
  let (k, _) := factored kind pr.inp
  let (r, fl) := (denseAdjoint kind pr.inp k.fact pr.x pr.xbar).run 0
  let h := sHandle c.call hGa
  let am := if sEn c.call hGa then
      ((r.2.zipIdx).map fun e => (e.1.zipIdx).map fun x => (h, lin3 (c.d h) x.2 e.2 c.b, x.1)).flatten else []
  (pr.noted fl).out pr.status pr.index (c.column hGrhs r.1 ++ am)

/-- S_a is factored: the seed block is written and the adjoint passes begin. -/
def beginPasses (c : Course) (pr : Problem) : Problem :=
  let (k, _) := factored (sKind c.call) pr.inp
  let (r, fl) := (treeAdjoint (sKind c.call) pr.inp k pr.x pr.lam pr.xbar pr.lbar).run 0
  match r.stop with
  | some (st, i) => (pr.noted fl).out st i []
  | none => { pr.noted fl with stage := .adjoint, pass := 0,
                               work := workspace pr.inp (k.asm.map fun a => (a, k.tape.fl)) r.seeds }

/-- Once x and λ are known: a dense problem comes out, another factors S_a, in panel intervals as DCHOL (R186). -/
def beginAdjoint (c : Course) (pr : Problem) : Problem :=
  if sDense c.call then denseSolved c pr
  else if (activeRows (sKind c.call) pr.inp pr.lam).isEmpty then beginPasses c pr
  else { pr with stage := .adjFactor, interval := 0 }

/-- The adjoints once the last `n` items are reversed, with the flags raised; and u. -/
def reversed (c : Course) (pr : Problem) (n : Nat) : List Nat × Tbl Nat × Flags :=
  let (k, _) := factored (sKind c.call) pr.inp
  let (r, _) := (treeAdjoint (sKind c.call) pr.inp k pr.x pr.lam pr.xbar pr.lbar).run 0
  let outs := match k.asm with | some a => a.outputs | none => []
  (r.u, (reversePass (k.tape.lastOps n) (outs.zip r.seeds)).run 0)

/-- The end of the adjoint passes. -/
def endAdjoint (c : Course) (pr : Problem) : Problem :=
  let (u, t, fl) := reversed c pr (itemsAfter pr.inp.tree true (passes pr.inp.tree true))
  (pr.noted fl).out pr.status pr.index (c.column hGrhs u ++ c.gradients pr.inp t)

/-- The solution is known. -/
def solved (c : Course) (pr : Problem) : Problem :=
  if sAdj c.call then beginAdjoint c pr
  else pr.out pr.status pr.index (c.column hX pr.x ++ c.column hLam pr.lam)

/-- The sweeps begin, from the slot's warm start or from +0 (R190); those that an adjoint reruns, from where the forward's began (R193)
(DEDUCED, log 81). -/
def beginSweeps (c : Course) (pr : Problem) : Problem :=
  let m := tRows pr.inp.tree
  let zero := List.replicate m 0
  let (lam, f) : List Nat × Nat :=
    if sAdj c.call then (if c.start.length = m then c.start else zero, 0)
    else if !sWarm c.call then (zero, 0)
    else match c.warm with
      | none => (zero, 4)
      | some l => if c.sig = signature pr.inp.tree then (l, 1) else (zero, 2)
  { pr with stage := .sweeps, sweep := 0, start := lam, lam := lam, best := lam, bestm := fF64.inf false,
            flags := pr.flags ||| BitVec.ofNat 16 f }

/-- The end of factorisation and Schur formation. -/
def endFactor (c : Course) (pr : Problem) : Problem :=
  let kind := sKind c.call
  let (k, fl) := factored kind pr.inp
  let pr := pr.noted fl
  match k.stop with
  | some (st, i) => pr.out st i []
  | none =>
    if kind = 5 then beginSweeps c pr
    else
      let short := kind == 2 && k.fact.rank < pr.inp.cols
      solved c { pr with x := k.x, lam := k.lam, status := if short then 4 else 0, index := if short then k.fact.rank else 0 }

/-- Factorisation begins; one that takes no interval ends at once. -/
def beginFactor (c : Course) (pr : Problem) : Problem :=
  let pr := { pr with stage := .factor, interval := 0 }
  if (factored (sKind c.call) pr.inp).1.intervals = 0 then endFactor c pr else pr

/-- The end of the assembly passes (R177): the outputs stand in the workspace. -/
def endAssembly (c : Course) (pr : Problem) : Problem :=
  let (a, t) := assembled pr.inp
  let pr := { pr.noted t.fl with work := workspace pr.inp (some (a, t.fl)) [] }
  if a.nonFinite then pr.out 0x14 0 [] else beginFactor c pr

/-- Does a retained record serve: of the call's kind, and of the shape that the call's tensors have (DEDUCED, log 81)? -/
def Course.serves (c : Course) (x : AdjRec) (pr : Problem) : Bool :=
  x.kind == sKind c.call && x.inp.rows == pr.inp.rows && x.inp.cols == pr.inp.cols
    && structureBytes x.inp.tree == structureBytes pr.inp.tree

/-- The first phase of a problem: none where a record of its kind serves (R193). -/
def launch (c : Course) (r : Option AdjRec) (pr : Problem) : Problem :=
  let laid := fun (i : ProbIn) => if sDense c.call then [] else workspace i none []
  let pr := { pr with again := false, pass := 0, interval := 0, work := laid pr.inp }
  match (if sAdj c.call then r.filter fun x => c.serves x pr else none) with
  | some x => beginAdjoint c { pr with inp := x.inp, x := x.x, lam := x.lam, work := laid x.inp }
  | none =>
    let pr := if sAdj c.call then { pr with flags := pr.flags ||| 16 } else pr
    if sDense c.call then beginFactor c pr else { pr with stage := .assembly }

/-- The flags that the passes done of the phase have raised (R177). -/
def passFlags (c : Course) (pr : Problem) : Flags :=
  let t := pr.inp.tree
  if pr.stage == .adjoint then (reversed c pr (itemsAfter t true pr.pass)).2.2
  else (assembled pr.inp).2.flagsAt (itemsAfter t false pr.pass)

/-- The phase after a phase whose passes are done. -/
def endPasses (c : Course) (pr : Problem) : Problem :=
  if pr.stage == .assembly && passes pr.inp.tree false ≤ pr.pass then endAssembly c pr
  else if pr.stage == .adjoint && passes pr.inp.tree true ≤ pr.pass then endAdjoint c pr
  else pr

/-- One assembly pass; where a deadline or a stop waits for it, no phase follows (R191, R192). -/
def onePass (c : Course) (halt : Bool) (pr : Problem) : Problem :=
  let pr := { pr with pass := pr.pass + 1 }
  if halt then pr.noted (passFlags c pr) else endPasses c (pr.noted (passFlags c pr))

/-- Panel intervals of the factorisation at work: of the problem's, or of S_a. -/
def intervalsOf (c : Course) (pr : Problem) : Nat :=
  let k := (factored (sKind c.call) pr.inp).1
  if pr.stage == .adjFactor then ((activeFactor (sKind c.call) pr.inp k pr.lam).run 0).1.intervals else k.intervals

/-- One panel interval. -/
def oneInterval (c : Course) (pr : Problem) : Problem :=
  let pr := { pr with interval := pr.interval + 1 }
  if intervalsOf c pr ≤ pr.interval then (if pr.stage == .adjFactor then beginPasses c pr else endFactor c pr) else pr

/-- A factorisation abandoned in the interval at work: the interval it restarts from (R192). -/
def abandoned (c : Course) (pr : Problem) : Problem :=
  let k := (factored (sKind c.call) pr.inp).1
  { pr with interval := if pr.stage == .adjFactor || pr.interval < k.tf.steps then 0
                        else if pr.interval < k.schurEnd then k.tf.steps else k.schurEnd }

/-- The iterate of lowest merit is the solution. -/
def endSweeps (c : Course) (pr : Problem) (status : Nat) : Problem :=
  let (k, _) := factored 5 pr.inp
  let (x, fl) := (addY k.sch pr.best).run 0
  solved c { pr.noted fl with x := x, lam := pr.best, status := status, index := 0 }

/-- One sweep, and its termination: at a deadline or a stop, which an adjoint's rerun answers with no result, at TOL, at MAXIT. -/
def oneSweep (c : Course) (fired stop : Bool) (pr : Problem) : Problem :=
  let (k, _) := factored 5 pr.inp
  let (o, fl) := (sweepOnce k.sch pr.inp.mu (rowBounds pr.inp.tree) pr.lam).run 0
  let pr := pr.noted fl
  match o.stop with
  | some (st, i) => pr.out st i []
  | none =>
    let pr := { pr with sweep := pr.sweep + 1, lam := o.lam }
    let pr := if gtD pr.bestm o.dmax then { pr with best := o.lam, bestm := o.dmax } else pr
    if fired && !sAdj c.call then endSweeps c pr 1
    else if stop && !sAdj c.call then { endSweeps c pr 2 with stage := .sweeps, stopped := true }
    else if (fLe fF64 o.dmax (sTol c.call)).1 then endSweeps c pr 0
    else if sMaxit c.call ≤ pr.sweep then endSweeps c pr 3
    else pr

/-- All that is left of a problem, up to its outputs. -/
def sweepOut (c : Course) : Nat → Problem → Problem
  | 0, pr => pr
  | n + 1, pr => if pr.stage == .sweeps then sweepOut c n (oneSweep c false false pr) else pr

def runOut (c : Course) (pr : Problem) : Problem :=
  let pr := if pr.stage == .assembly then endAssembly c pr else pr
  let pr := if pr.stage == .factor then endFactor c pr else pr
  let pr := sweepOut c (sMaxit c.call + 1) pr
  let pr := if pr.stage == .adjFactor then beginPasses c pr else pr
  if pr.stage == .adjoint then endAdjoint c pr else pr

/-- A stopped problem goes on at its first unfinished phase (R192). -/
def resumeProblem (c : Course) (pr : Problem) : Problem :=
  if pr.stage == .sweeps then beginSweeps c pr else endPasses c pr

/-! ### Starting problems (R154, R156, R193) -/

def State.updProb (s : State) (n seq b : Nat) (f : Problem → Problem) : State :=
  s.updOp n seq fun o => { o with solve := o.solve.map fun c => { c with probs := Tbl.set c.probs b (f (Tbl.get {} c.probs b)) } }
def State.probAt (s : State) (n seq b : Nat) : Option (Op × SolveOp × Problem) :=
  match s.opAt n seq with
  | some o => if o.live then o.solve.bind fun c => (Tbl.find c.probs b).map fun q => (o, c, q) else none
  | none => none

def State.courseOf (s : State) (n : Nat) (o : Op) (c : SolveOp) (b : Nat) : Course :=
  let q := s.slotAt (ringPart n) (sFirst c.call + b)
  { call := c.call, d := fun h => Tbl.get 0 o.descs h, b := b, tree := c.tree, warm := q.warm, sig := q.sig, start := q.start }

/-- Units of a partition that no problem occupies, lowest first, among those in service when the call was dispatched. -/
def State.freeUnits (s : State) (p : Nat) (c : SolveOp) : List Nat :=
  c.units.filter fun u => !s.outOfService 1 u && !(s.calls p).any fun e => e.2.2.probs.any fun q => q.2.on && q.2.unit == u

/-- Bytes of the solver region in use: problems in progress or stopped, and adjoint records. -/
def State.usedBytes (s : State) (p : Nat) : Nat :=
  let probs := (s.openOps p).map fun e => match e.2.solve with
    | some c => problemBytes c.call c.tree * (c.probs.filter fun q => q.2.begun && q.2.stage != .ended).length
    | none => 0
  let recs := (s.sched p).slots.map fun e => match e.2.record with
    | some r => if r.kind < 3 then 0 else workspaceBytes r.inp.tree + traceBytes r.inp.tree
    | none => 0
  sumOf probs + sumOf recs

/-- The slot that holds the oldest adjoint record. -/
def State.oldestRecord (s : State) (p : Nat) : Option Nat :=
  ((s.sched p).slots.foldl (fun (b : Option (Nat × Nat)) e => match e.2.record with
    | some r => (match b with
      | some x => if r.order < x.2 then some (e.1, r.order) else b
      | none => some (e.1, r.order))
    | none => b) none).map (·.1)

def dropRecord (s : State) (p i : Nat) : State :=
  s.updSched p fun q => { q with slots := Tbl.set q.slots i { (Tbl.get {} q.slots i : Slot) with record := none } }

/-- Releases records, oldest first, until `need` bytes are free. -/
def releaseSpace : Nat → State → Nat → Nat → State
  | 0, s, _, _ => s
  | k + 1, s, p, need =>
    if s.usedBytes p + need ≤ s.regionBytes p then s
    else match s.oldestRecord p with
      | some i => releaseSpace k (dropRecord s p i) p need
      | none => s

/-- The call may work: not stopping, its deadline not fired, its entry and its rooms at hand. -/
def State.callRuns (s : State) (n : Nat) (o : Op) (c : SolveOp) : Bool :=
  s.up && o.live && !(s.ring n).stopReq && !c.fired && c.reserved && (c.deadline.isNone || c.entry.isSome)

/-- The lowest problem of a call that is to go on a unit. -/
def SolveOp.nextProblem (c : SolveOp) : Option Nat :=
  (c.probs.find? fun e => !e.2.on && e.2.stage != .outputs && e.2.stage != .ended).map (·.1)

/-- The state with space for one more problem, if it can be had. -/
def makeSpace (s : State) (p : Nat) (c : SolveOp) (pr : Problem) : Option State :=
  if pr.begun then some s
  else
    let need := problemBytes c.call c.tree
    let s := releaseSpace ((s.sched p).slots.length + 1) s p need
    if s.usedBytes p + need ≤ s.regionBytes p then some s else none

/-- A problem that has begun goes on; one that has not reads its inputs, the slot's record serving or going. -/
def startProblem (s : State) (n : Nat) (o : Op) (c : SolveOp) (b u : Nat) (pr : Problem) : State :=
  let p := ringPart n
  let rec_ := (s.slotAt p (sFirst c.call + b)).record
  let s := { s with free := s.free + 1 }
  let (new, g) := problemInputs s o c b (s.free - 1)
  if pr.begun then
    let cr := s.courseOf n o c b
    s.updProb n o.orig b fun pr =>
      let pr := { pr with on := true, stopped := false, unit := u, status := 0 }
      if pr.again then launch cr rec_ pr else resumeProblem cr pr
  else match g.stop with
    | some (a, cause) => faultOp s n o.orig { cause := cause, seq := o.seq, station := 6, refused := some a }
    | none =>
      let s := g.from_.foldl (fun s e => touchElems s e.1 e.2) s
      let cr := s.courseOf n o c b
      let pr : Problem := { new with begun := true, on := true, unit := u, tstart := s.stamp, exc := g.fl }
      s.updProb n o.orig b fun _ => if g.po then (pr.noted fPoison).out 0x16 0 [] else launch cr rec_ pr

/-- The next problem of a call starts if a unit and space are free. -/
def State.tryStart (s : State) (n : Nat) (o : Op) : Option State :=
  match o.solve with
  | some c =>
    if !s.callRuns n o c then none
    else match c.nextProblem with
      | some b => match (s.freeUnits (ringPart n) c).head? with
        | some u =>
          let pr := Tbl.get {} c.probs b
          (makeSpace s (ringPart n) c pr).map fun s => startProblem s n o c b u pr
        | none => none
      | none => none
  | none => none

/-- PROBLEM_START (R154): a call that waits for a deadline entry takes one first. -/
def execProblemStart (ring : BitVec 6) (seq : BitVec 64) (s : State) : Out :=
  let n := ring.toNat
  match s.opAt n seq.toNat with
  | some o =>
    let s' := armDeadline s n o
    match (s'.opAt n o.orig).bind (s'.tryStart n) with
    | some t => act s.up s fun _ => t
    | none => .next s
  | none => .next s

/-! ### Passes, intervals and sweeps (R170, R171, R186, R191, R192) -/

/-- How a boundary leaves a problem: a deadline that has fired, or a stop, ends it, unless it has come out or a sweep has answered
the stop with its best iterate (DEDUCED, log 81). -/
def atBoundary (fired stop : Bool) (pr : Problem) : Problem :=
  if pr.stage == .outputs || pr.stopped then pr
  else if fired then pr.out 0x10 0 []
  else if stop then { pr with stopped := true, status := 0x11, index := 0, outs := [] }
  else pr

/-- A problem of a call that is at work in one of the given phases. -/
def stepProblem (ring : BitVec 6) (seq : BitVec 64) (b : BitVec 11) (ph : ProbStage → Bool) (f : Course → Bool → Problem → Problem) (s : State) :
    Out :=
  let n := ring.toNat
  match s.probAt n seq.toNat b.toNat with
  | some (o, c, pr) => act (s.up && pr.on && !pr.stopped && ph pr.stage) s fun s =>
      let cr := s.courseOf n o c b.toNat
      s.updProb n o.orig b.toNat fun pr => atBoundary c.fired (s.ring n).stopReq (f cr c.fired pr)
  | none => .next s

/-- ASSEMBLY_PASS. -/
def execAssemblyPass (ring : BitVec 6) (seq : BitVec 64) (b : BitVec 11) (s : State) : Out :=
  let stop := (s.ring ring.toNat).stopReq
  stepProblem ring seq b (fun g => g == .assembly || g == .adjoint) (fun cr fired pr => onePass cr (fired || stop) pr) s

/-- PANEL_INTERVAL: a deadline or a stop abandons the factorisation. -/
def execPanelInterval (ring : BitVec 6) (seq : BitVec 64) (b : BitVec 11) (s : State) : Out :=
  let stop := (s.ring ring.toNat).stopReq
  stepProblem ring seq b (fun g => g == .factor || g == .adjFactor)
    (fun cr fired pr => if fired || stop then abandoned cr pr else oneInterval cr pr) s

/-- SWEEP: the best iterate is judged; a stop returns it with status stopped. -/
def execSweep (ring : BitVec 6) (seq : BitVec 64) (b : BitVec 11) (s : State) : Out :=
  let stop := (s.ring ring.toNat).stopReq
  stepProblem ring seq b (· == .sweeps) (fun cr fired pr => oneSweep cr fired stop pr) s

/-! ### The end of a problem (R174, R195, R196) -/

/-- Is the destination written with one sum (R174)? -/
def sharedSum (o : Op) (c : SolveOp) (h : Nat) : Bool := sAdj c.call && (dDims (Tbl.get 0 o.descs h)).getLast? == some 1

/-- The destination is written once, after the last problem: a shared gradient, or one whose scale register was unset (DEDUCED, log 80). -/
def heldHandle (o : Op) (c : SolveOp) (h : Nat) : Bool :=
  let d := Tbl.get 0 o.descs h
  sharedSum o c h || (gathers d && !(Tbl.get ({} : ScaleReg) o.scales (dScaleReg d)).set)

/-- The sums of the values of a shared destination, element by element in the order given; with the flags raised. -/
def gathered (l : List (Nat × Nat)) : List (Nat × Nat) × Flags :=
  l.foldl (fun (a : Tbl Nat × Flags) e => match Tbl.find a.1 e.1 with
    | some x => let r := addD x e.2; (Tbl.set a.1 e.1 r.1, a.2 ||| (r.2 &&& 0x1F))
    | none => (Tbl.set a.1 e.1 e.2, a.2)) ([], 0)

/-- Writes values through destination `h` under R88; `f` was raised in forming them. -/
def writeOuts (s : State) (n seq h : Nat) (l : List (Nat × Nat)) (f : Flags) : State × Flags :=
  match s.opAt n seq with
  | some o =>
    let d := Tbl.get 0 o.descs h
    let (s, regs, g) := convertInto (beginStore s n seq) (ringPart n) o.scales d 0 (l.map (·.1)) (l.map fun e => (decodeNum fF64 e.2, false))
    let f := f ||| g
    let s := endStore s (ringPart n)
    (s.updOp n seq fun o => { o.raise f with scales := regs, dexc := Tbl.set o.dexc h (Tbl.get 0 o.dexc h ||| f) }, f)
  | none => (s, 0)

/-- The 64 bytes of a result record (R196). -/
def resultBytes (c : SolveOp) (pr : Problem) : List Byte :=
  let w : BitVec 512 := 0
  let w := putBits w 448 pr.tend
  let w := putBits w 384 pr.tstart
  let w := putField w 320 64 (if sKind c.call = 5 then pr.bestm else 0)
  let w := putBits w 256 (if sDense c.call then 0 else signature c.tree)
  let w := putField w 112 16 pr.sweep
  let w := putField w 96 16 pr.index
  let w := putField w 88 8 pr.unit
  let w := putBits w 86 pr.tq
  let w := putBits w 64 pr.flags
  let w := putBits w 32 pr.exc
  bytesOf (putField w 0 8 pr.status)

/-- The record of problem `b`, STATUS last. -/
def writeResult (s : State) (n seq b : Nat) : State :=
  match (s.opAt n seq).bind (·.solve) with
  | some c =>
    let pr := Tbl.get ({} : Problem) c.probs b
    let a := sResult c.call + 64 * b
    let bs := resultBytes c pr
    let p := ringPart n
    let s := endStore (streamStore (streamStore (beginStore s n seq) p (a + 8) (bs.drop 8)) p a (bs.take 8)) p
    s.updProb n seq b fun pr => { pr with recorded := true, outs := [] }
  | none => s

/-- What a problem leaves in its sample slot: its status, a warm start, an adjoint record. -/
def keepInSlot (s : State) (p : Nat) (c : SolveOp) (b : Nat) (pr : Problem) : State :=
  let made := pr.status < 0x10
  let i := sFirst c.call + b
  s.updSched p fun q =>
    let x := Tbl.get ({} : Slot) q.slots i
    let x := { x with status := BitVec.ofNat 8 pr.status }
    let x := if made && sKind c.call = 5 && !sAdj c.call then { x with warm := some pr.lam, sig := signature c.tree, start := pr.start } else x
    let x := if made && sTrace c.call then { x with record := some { kind := sKind c.call, inp := pr.inp, x := pr.x, lam := pr.lam, order := s.free } }
             else x
    { q with slots := Tbl.set q.slots i x }

/-- The last problem of a call has ended: what was held is written, and the records that waited for it; the call completes. -/
def endCall (s : State) (n : Nat) (o : Op) (c : SolveOp) : State :=
  let outs := (c.probs.map fun e => e.2.outs).flatten
  let hs := (outs.map (·.1)).eraseDups
  let s := hs.foldl (fun s h =>
    let vs := (outs.filter fun e => e.1 == h).map (·.2)
    let (vs, f) := if sharedSum o c h then gathered vs else (vs, 0)
    (writeOuts s n o.orig h vs f).1) s
  let s := ((c.probs.filter fun e => !e.2.recorded).map (·.1)).foldl (fun s b => writeResult s n o.orig b) s
  let s := match c.entry with | some k => freeDevice s k | none => s
  let failed := c.probs.any fun e => 0x10 ≤ e.2.status
  s.updOp n o.orig fun o => { o with work := true, status := if failed then 4 else o.status,
                                     poison := o.poison || c.probs.any fun e => e.2.status == 0x16 }

/-- May a problem end: it has come out, it has stopped, or a stop or deadline has met it before it began? -/
def State.mayEnd (s : State) (n : Nat) (c : SolveOp) (pr : Problem) : Bool :=
  pr.stage != .ended && (pr.stage == .outputs || (pr.stopped && pr.on) || (!pr.on && !pr.stopped && ((s.ring n).stopReq || c.fired)))

/-- A problem ends: its outputs, then its record; its unit is free. -/
def endProblem (s : State) (n : Nat) (o : Op) (c : SolveOp) (b : Nat) (pr : Problem) : State :=
  let early := pr.stage != .outputs && !pr.stopped
  let stop := pr.stopped || (early && !c.fired)
  let pr : Problem := { pr with on := false, tend := s.stamp, tq := s.tq, stopped := stop, status := if early then (if c.fired then 0x10 else 0x11) else pr.status,
                                stage := if stop then pr.stage else .ended,
                                flags := if pr.status < 0x10 && sTrace c.call && !early then pr.flags ||| 8 else pr.flags }
  let s := keepInSlot s (ringPart n) c b pr
  let s : State := { s with free := s.free + 1 }
  let now := pr.outs.filter fun e => stop || !heldHandle o c e.1
  let (s, fl) := ((now.map (·.1)).eraseDups).foldl (fun (a : State × Flags) h =>
    let r := writeOuts a.1 n o.orig h ((now.filter fun e => e.1 == h).map (·.2)) 0
    (r.1, a.2 ||| r.2)) (s, 0)
  let late := if stop then [] else pr.outs.filter fun e => heldHandle o c e.1
  let s := s.updOp n o.orig fun o => o.raise pr.exc
  let s := s.updProb n o.orig b fun _ => { pr.noted fl with outs := late }
  let s := if late.isEmpty then writeResult s n o.orig b else s
  match (s.opAt n o.orig).bind fun o => o.solve.map fun c => (o, c) with
  | some (o, c) => if c.probs.all fun e => e.2.stage == .ended then endCall s n o c else s
  | none => s

/-- PROBLEM_END. -/
def execProblemEnd (ring : BitVec 6) (seq : BitVec 64) (b : BitVec 11) (s : State) : Out :=
  let n := ring.toNat
  match s.probAt n seq.toNat b.toNat with
  | some (o, c, pr) => act (s.up && s.mayEnd n c pr) s fun s => endProblem s n o c b.toNat pr
  | none => .next s

/-! ### A problem of one kind, and a call, as a whole -/

/-- Problem `b`, on its unit, runs out. -/
def runKind (kind : Nat) (ring : BitVec 6) (seq : BitVec 64) (b : BitVec 11) (s : State) : Out :=
  let n := ring.toNat
  match s.probAt n seq.toNat b.toNat with
  | some (o, c, pr) => act (s.callRuns n o c && sKind c.call == kind && pr.on && !pr.stopped) s fun s =>
      let cr := s.courseOf n o c b.toNat
      s.updProb n o.orig b.toNat (runOut cr)
  | none => .next s

def execDchol (ring : BitVec 6) (seq : BitVec 64) (b : BitVec 11) (s : State) : Out := runKind 0 ring seq b s
def execDldlt (ring : BitVec 6) (seq : BitVec 64) (b : BitVec 11) (s : State) : Out := runKind 1 ring seq b s
def execDqr (ring : BitVec 6) (seq : BitVec 64) (b : BitVec 11) (s : State) : Out := runKind 2 ring seq b s
def execTree (ring : BitVec 6) (seq : BitVec 64) (b : BitVec 11) (s : State) : Out := runKind 3 ring seq b s
def execKkt (ring : BitVec 6) (seq : BitVec 64) (b : BitVec 11) (s : State) : Out := runKind 4 ring seq b s
def execContact (ring : BitVec 6) (seq : BitVec 64) (b : BitVec 11) (s : State) : Out := runKind 5 ring seq b s

/-- Runs out and ends every problem of a call that is on a unit. -/
def drainCall (s : State) (n seq : Nat) : State :=
  match (s.opAt n seq).bind (·.solve) with
  | some c => each ((c.probs.filter fun e => e.2.on).map (·.1)) s fun s b =>
      match s.probAt n seq b with
      | some (o, c, _) =>
        let cr := s.courseOf n o c b
        let s := s.updProb n seq b (runOut cr)
        match s.probAt n seq b with
        | some (o, c, pr) => endProblem s n o c b pr
        | none => s
      | none => s
  | none => s

/-- Starts problems and runs them out until none can start. -/
def wholeCall : Nat → State → Nat → Nat → State
  | 0, s, _, _ => s
  | k + 1, s, n, seq =>
    let s := drainCall s n seq
    match (s.opAt n seq).bind fun o => s.tryStart n o with
    | some t => wholeCall k t n seq
    | none => s

/-- A call of the given mode runs to its end, as far as units and space allow. -/
def runCall (mode : Nat) (ring : BitVec 6) (seq : BitVec 64) (s : State) : Out :=
  let n := ring.toNat
  match (s.opAt n seq.toNat).bind fun o => o.solve.map fun c => (o, c) with
  | some (o, c) => act (sMode c.call == mode && s.callRuns n o c && !o.work) s fun s => wholeCall (2 * sCount c.call + 1) s n o.orig
  | none => .next s

def execSolveForward (ring : BitVec 6) (seq : BitVec 64) (s : State) : Out := runCall 0 ring seq s
def execSolveAdjoint (ring : BitVec 6) (seq : BitVec 64) (s : State) : Out := runCall 1 ring seq s

/-! ### SOLVER_DEADLINE (R191) -/

/-- The call that an event entry belongs to. -/
def State.callOfEntry (s : State) (k : Nat) : Option (Nat × Op) :=
  (s.rings.map (·.1)).findSome? fun n => ((s.ring n).ops.find? fun o => o.live && (match o.solve with | some c => c.entry == some k | none => false)).map
    fun o => (n, o)

def execSolverDeadline (k : BitVec 8) (s : State) : Out :=
  act (s.due k.toNat 8) s fun s =>
    let s := markFired s k.toNat
    match s.callOfEntry k.toNat with
    | some (n, o) => s.updOp n o.orig fun o => { o with solve := o.solve.map fun c => { c with fired := true } }
    | none => s

end Sys2Proof.Machine
end

