-- ==== Sys2Proof/Machine/Fabric.lean ====
section
/-! DEFINITION. The reduce and exchange stations (12_reduction_and_peer_links R263 to R289, 11_training_support R252, R253): the
blocks of REDUCE, EXCHANGE and SPLICE and their checks, buckets, exchanges and gathers. Times of frames on the wire are the
installation's; what a frame does when it is taken is here. -/

namespace Sys2Proof.Machine

/-! ### Group lists (R264) -/

def State.groupAt (s : State) (a : Nat) : List Nat :=
  (upTo (ofLe (s.bytesAt a 2))).map fun j => ofLe (s.bytesAt (a + 8 + 2 * j) 2)

def ascending : List Nat → Bool
  | a :: b :: t => a < b && ascending (b :: t)
  | _ => true

def State.groupStop (s : State) (n : Nat) (o : Op) (a : Nat) : Option FaultInfo :=
  let bad := fun (_ : Unit) => some (stopAt o 0 0x0E02)
  firstStop [
    fun _ => if a % 8 = 0 then none else some (stopAt o 0 0x0A06),
    fun _ => s.blockRead n o a 8,
    fun _ => let k := ofLe (s.bytesAt a 2); if 1 ≤ k && k ≤ 16384 && allZero (s.bytesAt (a + 2) 6) then none else bad (),
    fun _ => s.blockRead n o a (8 + 2 * ofLe (s.bytesAt a 2)),
    fun _ => let g := s.groupAt a; if ascending g && g.contains (s.ownKey (ringPart n)) then none else bad ()]

/-- The position of a key in a group. -/
def posOf (g : List Nat) (q : Nat) : Nat := (g.findIdx? (· == q)).getD g.length

/-! ### REDUCE: the block (R265, R266) -/

def State.block64 (s : State) (o : Op) : BitVec 512 := wordOf 512 (s.bytesAt o.addr 64)
def xGroup (b : BitVec 512) : Nat := field b 464 48
def xSrc (b : BitVec 512) : Nat := field b 448 16
def xDst (b : BitVec 512) : Nat := field b 432 16
def xTag (b : BitVec 512) : U32 := bits b 400 32
def rOwner (b : BitVec 512) : Nat := field b 386 14
def rMode (b : BitVec 512) : Nat := field b 12 1

/-- Does this participant write HDST? -/
def State.writesResult (s : State) (p : Nat) (b : BitVec 512) : Bool :=
  rMode b == 0 || posOf (s.groupAt (xGroup b)) (s.ownKey p) == rOwner b

/-- The checks of REDUCE in the order the model takes (DEDUCED, log 88). -/
def State.reduceStop (s : State) (n : Nat) (o : Op) : Option FaultInfo :=
  let p := ringPart n
  let b := s.block64 o
  let test := fun (ok : Bool) (c : U16) => if ok then none else some (stopAt o 0 c)
  let src := s.descOf p (xSrc b)
  let dst := s.descOf p (xDst b)
  firstStop [
    fun _ => test (o.addr % 64 == 0) 0x0A06, fun _ => s.blockRead n o o.addr 64,
    fun _ => test (field b 0 8 == 1 && field b 8 4 == 0 && field b 16 370 == 0) 0x0E01,
    fun _ => test (s.rank != 0xFFFF) 0x0E0A,
    fun _ => s.groupStop n o (xGroup b),
    fun _ => test (rMode b == 0 || rOwner b < (s.groupAt (xGroup b)).length) 0x0E01,
    fun _ => s.handleRead n o (xSrc b) src false (s.epochs p),
    fun _ => if s.writesResult p b then s.handleRead n o (xDst b) dst true (s.epochs p) else none,
    fun _ => test (fmtFloat (dFmt src) && dFmt src != cQ4 && 2 ^ 18 ≤ dCount src && dCount src ≤ 2 ^ 24) 0x0E01,
    fun _ => test (!s.writesResult p b || (fmtFloat (dFmt dst) && dFmt dst != cQ4
      && (upTo 6).all fun i => dDim dst i == dDim src i)) 0x0E01,
    fun _ => if s.writesResult p b then s.classStop n o [dst] else none]

/-- The record of a REDUCE as dispatched. -/
def startReduce (s : State) (n : Nat) (o : Op) : State × Op :=
  let p := ringPart n
  let b := s.block64 o
  let g := s.groupAt (xGroup b)
  let s := touch (touch s o.addr 64) (xGroup b) (8 + 2 * g.length)
  let dst := s.descOf p (xDst b)
  (s, { o with scales := (s.sched p).scales,
               convs := if s.writesResult p b && gathers dst then [dScaleReg dst] else [],
               bucket := some { blk := b, group := g, pos := posOf g (s.ownKey p), last := s.now,
                                segs := (dCount (s.descOf p (xSrc b)) + 16383) / 16384 } })

/-! ### Pieces (R266, R268) -/

def Op.src (o : Op) (b : Bucket) : Desc := o.desc (xSrc b.blk)
def Op.dst (o : Op) (b : Bucket) : Desc := o.desc (xDst b.blk)
/-- Elements of a segment, and frames of it. -/
def segElems (d : Desc) (seg : Nat) : Nat := min 16384 (dCount d - 16384 * seg)
def segPieces (d : Desc) (seg : Nat) : Nat := (segElems d seg + 127) / 128
def pieceElems (d : Desc) (seg piece : Nat) : List Nat :=
  countUp (16384 * seg + 128 * piece) (min 128 (segElems d seg - 128 * piece))

/-- A piece: F32 words, and a poison mark for each 16 of them. -/
abbrev Piece := List Nat × Byte

def markOf (l : List Bool) : Byte :=
  (upTo 8).foldl (fun (w : Byte) i => putBits w i (bit1 (((l.drop (16 * i)).take 16).any id))) 0

/-- w of R266: a piece of the own contribution as it enters the wire, with the flags of its conversions and of poison (R270). -/
def State.contribution (s : State) (o : Op) (b : Bucket) (seg piece : Nat) : Piece × Flags :=
  let d := o.src b
  let es := (pieceElems d seg piece).map fun n =>
    let e := s.elem d n
    let r := elemPack cF32 .rne (-(scaleOf o.scales d)) e.x
    (r.1, e.po, r.2)
  ((es.map (·.1), markOf (es.map (·.2.1))),
   es.foldl (fun (f : Flags) e => f ||| e.2.2 ||| if e.2.1 then fPoison else 0) 0)

/-- round_f32(l + r) of two words; any NaN is the canonical one (R268). -/
def addWord (l r : Nat) : Nat × Flags :=
  let x := fAdd fF32 .rne l r
  (match decodeNum fF32 x.1 with | .nan .. => 0x7FC00000 | _ => x.1, x.2 &&& 0x1F)

/-- The sum of two pieces, word by word, in an adder group with flaw `w`. -/
def addPieces (w : Nat) (l r : Piece) : Piece × Flags :=
  let t := (l.1.zip r.1).map fun e => addWord e.1 e.2
  ((t.map (fun e => Nat.xor e.1 w), l.2 ||| r.2), t.foldl (fun (f : Flags) e => f ||| e.2) 0)

def pieceKey (path seg piece : Nat) : Nat := (path * 1024 + seg) * 128 + piece
def hopKey (path seg piece level : Nat) : Nat := pieceKey path seg piece * 16 + level

/-- The node sum this host forms for a piece from a path's values in the adder group of a role, once every right child's value has
come. -/
def State.nodeSum (s : State) (p role : Nat) (o : Op) (b : Bucket) (path seg piece : Nat) : Option (Piece × Flags) :=
  b.place.kids.foldl (fun (acc : Option (Piece × Flags)) k =>
    match acc, Tbl.find b.recv (hopKey path seg piece k.1) with
    | some a, some r => let t := addPieces (s.adderFlaw p b.chan role) a.1 r; some (t.1, a.2 ||| t.2)
    | _, _ => none) (some (s.contribution o b seg piece))

def pieceBytes (x : Piece) : List Byte := (x.1.map (leBytes 4)).flatten

/-- One RDATA frame of a bucket, from a port. -/
def sendPieceOn (s : State) (p : Nat) (o : Op) (b : Bucket) (port path level seg piece q : Nat) (down : Bool) (x : Piece) : State :=
  sendTo s p port q
    { typ := 1, chan := b.chan, down := down, path := path, sampled := b.sampled (s.peer p).sampleUse.toNat seg, level := level,
      pmask := x.2, piece := piece, seg := seg, epoch := dEpoch (o.src b) % 65536, bucket := b.tag } (pieceBytes x)

def sendPiece (s : State) (p : Nat) (o : Op) (b : Bucket) (path level seg piece q : Nat) (down : Bool) (x : Piece) : State :=
  sendPieceOn s p o b (s.pathPort p path level) path level seg piece q down x

/-! ### Results (R270) -/

/-- A result piece is at hand: kept where it is due, sent on down the tree, or from the root to the owner. -/
def resultPiece (s : State) (p n seq : Nat) (o : Op) (b : Bucket) (seg piece : Nat) (x : Piece) : State :=
  let s := if b.resultDue then s.updBucket n seq fun b => { b with res := Tbl.set b.res (pieceKey 0 seg piece) x } else s
  if b.ownerOnly then
    if b.pos = 0 && b.owner != 0 then sendPiece s p o b 0 0 seg piece (b.key b.owner) true x else s
  else b.place.kids.foldl (fun s k => sendPiece s p o b 0 k.1 seg piece (b.key k.2) true x) s

/-- The root's two sums of a segment: none while a piece is missing, else whether they agree (R272). -/
def rootAgrees (o : Op) (b : Bucket) (seg : Nat) : Option Bool :=
  let l := (upTo (segPieces (o.src b) seg)).map fun i => (Tbl.find b.sums (pieceKey 0 seg i), Tbl.find b.sums (pieceKey 1 seg i))
  if l.all fun e => e.1.isSome && e.2.isSome then some (l.all fun e => (e.1.map (·.1)) == (e.2.map (·.1))) else none

def endBucket (s : State) (n : Nat) (o : Op) (cause : U16) : State :=
  faultOp s n o.orig { cause := cause, seq := o.seq, station := 7 }

/-- What the root does with a piece of its sum: sent down as formed, or, for a segment on both paths, once the whole segment's two
sums agree. -/
def rootPiece (s : State) (p n seq seg piece : Nat) : State :=
  match (s.opAt n seq).bind fun o => o.bucket.map fun b => (o, b) with
  | none => s
  | some (o, b) =>
    if !b.both (s.peer p).sampleUse.toNat seg then
      match Tbl.find b.sums (pieceKey 0 seg piece) with
      | some x => resultPiece s p n seq o b seg piece x
      | none => s
    else match rootAgrees o b seg with
      | none => s
      | some true => each (upTo (segPieces (o.src b) seg)) s fun s i =>
          match Tbl.find b.sums (pieceKey 0 seg i) with
          | some x => resultPiece s p n seq o b seg i x
          | none => s
      | some false =>
        if b.redo = 0 then redoBelow s p n seq b seg
        else if 2 ≤ b.redo then endBucket s n o 0x0E06
        else s

/-! ### Forming nodes (R268, R273) -/

/-- In a redo, right-child values that have come on both paths and differ: the lowest level of one. -/
def Bucket.differs (b : Bucket) (seg piece : Nat) : Option Nat :=
  (b.place.kids.map (·.1)).find? fun l =>
    match Tbl.find b.recv (hopKey 0 seg piece l), Tbl.find b.recv (hopKey 1 seg piece l) with
    | some x, some y => x.1 != y.1
    | _, _ => false

/-- May a node be formed: in a redo, only from values that have come on both paths? -/
def Bucket.mayForm (b : Bucket) (seg piece : Nat) : Bool :=
  b.redo = 0 || b.place.kids.all fun k => b.recv.has (hopKey 0 seg piece k.1) && b.recv.has (hopKey 1 seg piece k.1)

/-- Segments sent are counted on the channel (R271). -/
def countSent (s : State) (p : Nat) (b : Bucket) (k : Nat) : State :=
  s.updPeer p fun q => { q with sent := Tbl.set q.sent b.chan (max (Tbl.get 0 q.sent b.chan) (b.base + k)) }

/-- Forms the node of a piece on a path, sends it up or hands it to the root. -/
def formNode (s : State) (p n seq path seg piece : Nat) : State :=
  match (s.opAt n seq).bind fun o => o.bucket.map fun b => (o, b) with
  | none => s
  | some (o, b) =>
    if b.sums.has (pieceKey path seg piece) || o.finished then s
    else match s.elemsStop (o.src b) (pieceElems (o.src b) seg piece) with
      | some (a, c) => faultOp s n seq { cause := c, seq := o.seq, station := 7, refused := some a }
      | none => match s.nodeSum p path o b path seg piece with
        | none => s
        | some (x, f) =>
          let s := countSent s p b (seg + 1)
          let s := touchElems s (o.src b) (pieceElems (o.src b) seg piece)
          let s := s.updOp n seq fun o => o.raise f
          let s := s.updBucket n seq fun b => { b with sums := Tbl.set b.sums (pieceKey path seg piece) x }
          match b.place.up with
          | some (l, h) => sendPiece s p o b path l seg piece (b.key h) false x
          | none => rootPiece s p n seq seg piece

/-- In a redo, the two node sums of a piece whose inputs agree are compared: none where they do too or a value is missing, else the
adder group that a third sum, formed in the vote group, does not bear out; without majority neither (R273). -/
def State.sumVote (s : State) (p : Nat) (o : Op) (b : Bucket) (seg piece : Nat) : Option (Option Nat) :=
  let sum := fun (role : Nat) => (s.nodeSum p role o b 0 seg piece).map (·.1.1)
  if b.redo = 0 || b.place.kids.isEmpty || sum 0 == sum 1 then none
  else if sum 2 == sum 0 then some (some 1)
  else if sum 2 == sum 1 then some (some 0)
  else some none

/-- Values of a piece that have come are put to use: compared in a redo, added, forwarded. -/
def usePiece (s : State) (p n seq seg piece : Nat) : State :=
  match (s.opAt n seq).bind fun o => o.bucket.map fun b => (o, b) with
  | none => s
  | some (o, b) =>
    let dif := if b.redo = 0 then none else b.differs seg piece
    match dif with
    | some l =>
      if 2 ≤ b.redo then endBucket s n o 0x0E06
      else if b.vote.isSome then s
      else
        let s := match b.place.kids.find? fun k => k.1 == l with
          | some k => sendRedo s p b true k seg true
          | none => s
        s.updBucket n seq fun b => { b with vote := some (hopKey 0 seg piece l) }
    | none =>
      if !b.mayForm seg piece then s
      else match s.sumVote p o b seg piece with
        | some (some role) =>
          if 2 ≤ b.redo then endBucket s n o 0x0E06 else takeOut s 4 (s.groupUnit p (s.groupOf p b.chan role))
        | some none => endBucket s n o 0x0E06
        | none =>
          let s := formNode s p n seq 0 seg piece
          if b.both (s.peer p).sampleUse.toNat seg then formNode s p n seq 1 seg piece else s

/-- Takes a suspect port out of service, lane by lane (R273, R419) (DEDUCED, log 85). -/
def suspectPort (s : State) (j : Nat) : State := each (upTo 4) s fun s l => takeOut s 3 (4 * j + l)

/-- The third value of a vote (R273): the port whose value disagrees with the majority is suspect; without majority the bucket
ends. -/
def countVote (s : State) (p n seq : Nat) (o : Op) (b : Bucket) (k : Nat) (x : Piece) : State :=
  let seg := k / 2048 % 1024
  let level := k % 16
  let v0 := (Tbl.find b.recv k).map (·.1)
  let v1 := (Tbl.find b.recv (k + hopKey 1 0 0 0)).map (·.1)
  let bad := if v0 == some x.1 then some 1 else if v1 == some x.1 then some 0 else none
  match bad with
  | none => endBucket s n o 0x0E06
  | some path =>
    let s := suspectPort s (Tbl.get 0 b.via (16 * path + level))
    let s := s.updBucket n seq fun b => { b with vote := none }
    wantRedo s p n seq b seg

/-! ### Segments and buckets (R267) -/

/-- Every frame of a segment sent from here has been acknowledged. -/
def State.segAcked (s : State) (p : Nat) (b : Bucket) (seg : Nat) : Bool :=
  let mine := fun (f : PeerFrame) => fType f == 1 && fBucket f == b.tag && fSeg f == seg && fChan f == b.chan
  (s.portsOf p).all fun j => !((s.port j).queue.any mine || (s.port j).replay.any fun e => mine e.2)

/-- May the segment that is next complete now? -/
def State.segReady (s : State) (p : Nat) (o : Op) (b : Bucket) : Bool :=
  let seg := b.done
  let k := upTo (segPieces (o.src b) seg)
  if b.resultDue then k.all fun i => b.res.has (pieceKey 0 seg i)
  else
    let d := (s.peer p).sampleUse.toNat
    k.all (fun i => b.sums.has (pieceKey 0 seg i) && (!b.both d seg || b.sums.has (pieceKey 1 seg i)))
      && (b.pos != 0 || !b.both d seg || rootAgrees o b seg == some true) && s.segAcked p b seg

/-- The values of a segment's result with their marks. -/
def Bucket.resultOf (b : Bucket) (d : Desc) (seg : Nat) : List (Nat × Bool) :=
  ((upTo (segPieces d seg)).map fun i =>
    let x := Tbl.get (([], 0) : Piece) b.res (pieceKey 0 seg i)
    (x.1.zipIdx).map fun e => (e.1, x.2.getLsbD (e.2 / 16))).flatten

/-- The register of an unset destination is set over the own contribution, the macro-operation's input (R93). -/
def reducePrepass (s : State) (p : Nat) (o : Op) (b : Bucket) : State × Tbl ScaleReg × Flags :=
  let d := o.dst b
  if gathers d && !(s.destReg p o.scales d).set then
    let vs := ((upTo b.segs).map fun seg => (upTo (segPieces d seg)).map fun i =>
      let x := (s.contribution o b seg i).1
      (x.1.zipIdx).map fun e => (decodeNum fF32 e.1, x.2.getLsbD (e.2 / 16))).flatten.flatten
    prepass s p o.scales d 0 vs
  else prepass s p o.scales d 0 []

/-- Writes the result of a segment from F32 at scale 0. -/
def writeSegment (s : State) (p n seq : Nat) (o : Op) (b : Bucket) (seg : Nat) : State :=
  let d := o.dst b
  let ns := countUp (16384 * seg) (segElems d seg)
  match s.elemsStop d ns with
  | some (a, c) => faultOp s n seq { cause := c, seq := o.seq, station := 7, refused := some a }
  | none =>
    let (s, regs, f) := reducePrepass s p o b
    let (s, g) := writeElems (beginStore s n seq) p d (scaleOf regs d) 0 .rne ns
      ((b.resultOf d seg).map fun e => (decodeNum fF32 e.1, e.2))
    let s := endStore s p
    s.updOp n seq fun o =>
      let e := Tbl.set o.dexc (xDst b.blk) (Tbl.get 0 o.dexc (xDst b.blk) ||| f ||| g)
      { o.raise (f ||| g) with scales := regs, dexc := e }

/-- Values of segments that are complete are let go. -/
def Bucket.tidy (b : Bucket) : Bucket :=
  let old := fun (k : Nat) => k / 128 % 1024 + 1 < b.done
  { b with recv := b.recv.filter (fun e => !old (e.1 / 16)), sums := b.sums.filter (fun e => !old e.1), res := b.res.filter fun e => !old e.1 }

/-- The next segment completes; with the last the bucket's work is whole. -/
def completeSegment (s : State) (p n seq : Nat) (o : Op) (b : Bucket) : State :=
  let s := if b.resultDue then writeSegment s p n seq o b b.done else s
  match s.opAt n seq with
  | none => s
  | some o' =>
    if o'.finished then s
    else
      let s := countSent s p b (b.done + 1)
      let s := s.updBucket n seq fun b => { b with done := b.done + 1 }.tidy
      if b.segs ≤ b.done + 1 then
        let s := s.updOp n seq fun o =>
          let e := if b.resultDue then Tbl.set o.dexc (xDst b.blk) (Tbl.get 0 o.dexc (xDst b.blk) ||| o.exc) else o.dexc
          { o with work := true, dexc := e }
        if b.redo = 1 && b.pos = 0 then logEvent s 0x0807 { sev := 1, arg := BitVec.ofNat 32 b.bad, part := some p } else s
      else s

/-- A bucket becomes its channel's current one. -/
def activate (s : State) (p n seq : Nat) : State :=
  s.updBucket n seq fun b => { b with active := true, base := Tbl.get 0 (s.peer p).sent b.chan, last := s.now }

/-- A participant that hosts no node forms and sends the pieces of a segment itself. -/
def sendSegment (s : State) (p n seq : Nat) (o : Op) (b : Bucket) (seg : Nat) : State :=
  let s := countSent s p b (seg + 1)
  let s := s.updBucket n seq fun b => { b with sent := seg + 1 }
  each (upTo (segPieces (o.src b) seg)) s fun s i => usePiece s p n seq seg i

/-- Does the channel's current bucket have something to do now? What it then does (DEDUCED, log 84). -/
def pumpStep (s : State) (p chan : Nat) : Option State :=
  match s.currentBucket p chan with
  | none => none
  | some (n, o, b) =>
    let stop := (s.ring n).stopReq
    if !b.active then (if stop then none else some (activate s p n o.orig))
    else if b.done < b.segs && s.segReady p o b then some (completeSegment s p n o.orig o b)
    else if !stop && b.place.kids.isEmpty && b.sent < b.segs && b.sent < b.done + 16 then some (sendSegment s p n o.orig o b b.sent)
    else none

/-! ### EXCHANGE: the block (R276 to R278) -/

def xTable (b : BitVec 512) : Nat := field b 352 48
def xMode (b : BitVec 512) : Nat := field b 12 2

/-- Cells of a row: element offsets and the bytes of each; a Q4 row moves by blocks. -/
def rowCells (d : Desc) (r : Nat) : List Int :=
  if dFmt d = cQ4 then (upTo (dDim d 0 / 32)).map fun i => offsetOf d [32 * i, r]
  else (upTo (dDim d 0)).map fun i => offsetOf d [i, r]
def cellBytes (d : Desc) : Nat := if dFmt d = cQ4 then 17 else fmtBytes (dFmt d)
def rowBytes (d : Desc) : Nat := (if dFmt d = cQ4 then dDim d 0 / 32 else dDim d 0) * cellBytes d

/-- Send counts of a token exchange. -/
def State.sendCounts (s : State) (b : BitVec 512) (k : Nat) : List Nat :=
  (upTo k).map fun j => ofLe (s.bytesAt (xTable b + 4 * j) 4)

/-- The granules of the rows to be sent. -/
def State.rowsStop (s : State) (o : Op) (d : Desc) (rows : Nat) : Option FaultInfo :=
  ((upTo rows).findSome? fun r => (rowCells d r).findSome? fun x => let c := cellAt d x; s.rangeStop c.1 c.2).map
    fun e => stopAt o e.1 e.2

/-- The exchange block at an address may be read. -/
def State.xblockStop (s : State) (n : Nat) (o : Op) (a : Nat) : Option FaultInfo :=
  if a % 64 = 0 then s.blockRead n o a 64 else some (stopAt o 0 0x0A06)

/-- The checks of an exchange block, for an EXCHANGE or a move of a splice, on the descriptors read at dispatch. -/
def State.xchgStop (s : State) (n : Nat) (o : Op) (b : BitVec 512) (epochs : List Nat) : Option FaultInfo :=
  let test := fun (ok : Bool) (c : U16) => if ok then none else some (stopAt o 0 c)
  let src := o.desc (xSrc b)
  let dst := o.desc (xDst b)
  let k := (s.groupAt (xGroup b)).length
  let v := fun (_ : Unit) => dGen dst
  firstStop ([
    fun _ => test (field b 0 8 == 1 && field b 8 4 == 0 && field b 14 338 == 0 && xMode b < 2) 0x0E07,
    fun _ => test (s.rank != 0xFFFF) 0x0E0A,
    fun _ => s.groupStop n o (xGroup b)]
    ++ (if xMode b = 0 then [
      fun _ => s.handleRead n o (xSrc b) src false epochs, fun _ => s.handleRead n o (xDst b) dst true epochs,
      fun _ => test (dRank src == 2 && dRank dst == 2 && dFmt src == dFmt dst && dDim src 0 == dDim dst 0 && rowBytes src ≤ 65536) 0x0E07,
      fun _ => s.blockRead n o (xTable b) (4 * k), fun _ => s.blockWrite n o (xTable b + 4 * k) (4 * k),
      fun _ => test (sumOf (s.sendCounts b k) ≤ dDim src 1) 0x0E07,
      fun _ => s.rowsStop o src (sumOf (s.sendCounts b k))]
    else [
      fun _ => s.handleRead n o (xDst b) dst true epochs,
      fun _ => s.blockRead n o (xTable b) (2 * k),
      fun _ => test (dCount dst % max 1 k == 0) 0x0E08,
      fun _ => test (v () == 0 || v () % 2 ^ 32 == dEpoch dst) 0x0D06])
    ++ [fun _ => s.classStop n o [dst]])

/-! ### Token rows (R277) -/

/-- Bytes with their poison marks. -/
abbrev Marked := List (Byte × Bool)

def State.cellData (s : State) (d : Desc) (x : Int) : Marked :=
  let c := cellAt d x
  let po := s.poisonAt c.1 c.2
  (s.bytesAt c.1 c.2).map fun b => (b, po)

def State.rowData (s : State) (d : Desc) (r : Nat) : Marked := ((rowCells d r).map (s.cellData d)).flatten

/-- Frames of a block: payloads of up to 512 bytes in 4-byte units, with PMASK. -/
def payloads : Nat → Marked → List (List Byte × Byte)
  | 0, _ => []
  | k + 1, l =>
    if l.isEmpty then []
    else
      let h := l.take 512
      let mask := (upTo 8).foldl (fun (w : Byte) i => putBits w i (bit1 (((h.drop (64 * i)).take 64).any (·.2)))) 0
      (padTo ((h.length + 3) / 4 * 4) (h.map (·.1)), mask) :: payloads k (l.drop 512)

/-- Splits a list into runs of `n`. -/
def runsOf {α : Type} (n : Nat) : Nat → List α → List (List α)
  | 0, _ => []
  | k + 1, l => if l.isEmpty then [] else l.take n :: runsOf n k (l.drop n)

/-- Sends blocks of bytes to a participant. -/
def sendBlocks (s : State) (p q typ : Nat) (tag : U32) (epoch : Nat) (blocks : List Marked) : State :=
  (blocks.zipIdx).foldl (fun s b => ((payloads (b.1.length / 512 + 1) b.1).zipIdx).foldl (fun s f =>
    sendTo s p (s.exchangePort p q) q { typ := typ, bucket := tag, epoch := epoch, seg := b.2 % 1024, piece := f.2, pmask := f.1.2 } f.1.1) s) s

def rowsPerBlock (d : Desc) : Nat := max 1 (65536 / max 1 (rowBytes d))

/-- First row that goes to position `j`. -/
def firstRow (send : List Nat) (j : Nat) : Nat := sumOf (send.take j)

/-- The descriptors of an exchange as read at dispatch. -/
def Op.xsrc (o : Op) (x : Xchg) : Desc := o.desc (xSrc x.blk)
def Op.xdst (o : Op) (x : Xchg) : Desc := o.desc (xDst x.blk)

/-- Brings the granules of rows into the atrium (R297). -/
def touchRows (s : State) (d : Desc) (rows : Nat) : State :=
  each (upTo rows) s fun s r => (rowCells d r).foldl (fun s x => let c := cellAt d x; touch s c.1 c.2) s

/-- The group list of an exchange and its table of `k` bytes a participant are read (R297). -/
def touchBlock (s : State) (b : BitVec 512) (k : Nat) : State :=
  let n := (s.groupAt (xGroup b)).length
  touch (touch s (xGroup b) (8 + 2 * n)) (xTable b) (k * n)

/-- The start of a token exchange: counts first, then the rows of each position. -/
def beginTokens (s : State) (n : Nat) (o : Op) (b : BitVec 512) : State × Xchg :=
  let p := ringPart n
  let g := s.groupAt (xGroup b)
  let src := o.desc (xSrc b)
  let send := s.sendCounts b g.length
  let me := posOf g (s.ownKey p)
  let others := (upTo g.length).filter (· != me)
  let s := touchRows (touchBlock s b 4) src (sumOf send)
  let s := each others s fun s j =>
    sendTo s p (s.exchangePort p (nth g j)) (nth g j) { typ := 3, bucket := xTag b } (leBytes 4 (nth send j))
  let s := each others s fun s j =>
    let rows := countUp (firstRow send j) (nth send j)
    sendBlocks s p (nth g j) 2 (xTag b) (dEpoch src % 65536)
      ((runsOf (rowsPerBlock src) rows.length rows).map fun l => (l.map (s.rowData src)).flatten)
  (s, { blk := b, group := g, pos := me, send := send, counts := [(me, nth send me)], last := s.now })

/-- Bytes of each block that `rows` rows make. -/
def blockSizes (d : Desc) (rows : Nat) : List Nat := (runsOf (rowsPerBlock d) rows (upTo rows)).map fun l => l.length * rowBytes d

def recvKey (src block piece : Nat) : Nat := 2 ^ 44 * src + 128 * block + piece

/-- The index of the block that a frame of a position belongs to: the frames of one position come in order, so that it is the one
the position was at or the next. -/
def Xchg.blockOf (x : Xchg) (j seg : Nat) : Nat :=
  let at_ := Tbl.get 0 x.blockAt j
  at_ + (seg + 1024 - at_ % 1024) % 1024

/-- A frame of a block is kept. -/
def Xchg.took (x : Xchg) (f : PeerFrame) (j : Nat) : Xchg :=
  let i := x.blockOf j (fSeg f)
  { x with recv := Tbl.set x.recv (recvKey j i (fPiece f)) (f.payload, fPmask f), blockAt := Tbl.set x.blockAt j i }

/-- Has every frame of blocks of given sizes come from a position? -/
def Xchg.whole (x : Xchg) (src : Nat) (sizes : List Nat) : Bool :=
  (sizes.zipIdx).all fun b => (upTo ((b.1 + 511) / 512)).all fun i => x.recv.has (recvKey src b.2 i)

/-- The bytes of those blocks. -/
def Xchg.data (x : Xchg) (src : Nat) (sizes : List Nat) : Marked :=
  ((sizes.zipIdx).map fun b =>
    (((upTo ((b.1 + 511) / 512)).map fun i =>
      let f := Tbl.get ([], 0) x.recv (recvKey src b.2 i)
      (f.1.zipIdx).map fun e => (e.1, f.2.getLsbD (e.2 / 64))).flatten).take b.1).flatten

/-- Stores the cells of a row of a destination, counting what is written. -/
def putRow (s : State) (p : Nat) (d : Desc) (r : Nat) (l : Marked) : State :=
  let k := ((rowCells d r).zip (runsOf (cellBytes d) l.length l)).foldl (fun (k : Sink) e =>
    let bs := e.2.map (·.1)
    let po := e.2.any (·.2)
    let k := if dFmt d = cQ4 then (q4Read bs).1.foldl (fun (k : Sink) v => k.count d v po) k
             else k.count d (elemNum (dFmt d) (ofLe bs)) po
    k.put (cellAt d e.1).1 bs po) (s.sink p d)
  drainSink s p d { k with reg := Tbl.get {} (s.sched p).scales (dScaleReg d) }

/-- Every count and every row of a token exchange has come. -/
def Xchg.tokensWhole (x : Xchg) (d : Desc) : Bool :=
  (upTo x.group.length).all fun j => x.counts.has j && (j == x.pos || x.whole j (blockSizes d (Tbl.get 0 x.counts j)))

/-- Rows are placed in ascending source position, and the receive counts written. -/
def placeTokens (s : State) (n : Nat) (o : Op) (x : Xchg) : State × Bool :=
  let p := ringPart n
  let src := o.xsrc x
  let dst := o.xdst x
  let cnt := (upTo x.group.length).map fun j => Tbl.get 0 x.counts j
  let rows := ((upTo x.group.length).map fun j =>
    if j = x.pos then (countUp (firstRow x.send j) (nth x.send j)).map (s.rowData src)
    else runsOf (rowBytes dst) (nth cnt j) (x.data j (blockSizes dst (nth cnt j)))).flatten
  let po := rows.any fun r => r.any (·.2)
  let s := (rows.zipIdx).foldl (fun s e => putRow s p dst e.2 e.1) (beginStore s n o.orig)
  let s := streamStore s p (xTable x.blk + 4 * x.group.length) (cnt.map (leBytes 4)).flatten
  (endStore s p, po)

/-! ### Shard gathers (R252, R253, R278) -/

/-- V and E of a gather: from the destination's stamp or its slots; none where the lowest owner is to be asked. -/
def State.gatherVersion (s : State) (p : Nat) (o : Op) (d : Desc) : Option Nat :=
  if dGen d != 0 then some (dGen d / 2 ^ 32)
  else
    let q := s.slotAt p o.slots.1
    if o.slots.2 != 0 && q.st != 0 && q.ver != 0 then some q.ver.toNat else none

def ownerHandle (s : State) (b : BitVec 512) (j : Nat) : Nat := ofLe (s.bytesAt (xTable b + 2 * j) 2)

/-- SHREQ to an owner: its payload as the model lays it out (DEDUCED, log 87). -/
def sendShreq (s : State) (p : Nat) (x : Xchg) (e v j : Nat) : State :=
  sendTo s p (s.exchangePort p (nth x.group j)) (nth x.group j) { typ := 4, bucket := xTag x.blk, epoch := e % 65536 }
    (leBytes 4 (ownerHandle s x.blk j) ++ leBytes 4 v ++ leBytes 4 e)

/-- The descriptor an owner serves for a request: its version, and the layout epoch (R252). -/
def State.shardDesc (s : State) (p h v e : Nat) : Option Desc :=
  let d := s.descOf p h
  let old := Tbl.find (s.sched p).stash h
  let pick := if dVersion d = v then some d else match old with
    | some x => if dVersion x = v then some x else none
    | none => none
  match pick with
  | some x => if dEpoch x = e && dVersion x != 0 && (s.descStop p x false [e]).isNone then some x else none
  | none => none

def State.offered (s : State) (p h : Nat) : U64 :=
  let d := s.descOf p h
  BitVec.ofNat 64 (dVersion d * 2 ^ 32 + dEpoch d)

/-- The elements of a shard on the wire: in its own format at scale 0. -/
def State.shardData (s : State) (p : Nat) (d : Desc) : Marked :=
  let k := -(scaleOf (s.sched p).scales d)
  if dFmt d = cQ4 then
    ((upTo (dCount d / 32)).map fun i =>
      let es := (upTo 32).map fun j => s.elem d (32 * i + j)
      let po := es.any (·.po)
      let bs := if gathers d then (q4Write (es.map fun e => scaleNum k e.x)).1 else (s.cellData d (offsetAt d (32 * i))).map (·.1)
      bs.map fun b => (b, po)).flatten
  else ((upTo (dCount d)).map fun n =>
    let e := s.elem d n
    (leBytes (fmtBytes (dFmt d)) (if gathers d then (elemPack (dFmt d) .rne k e.x).1 else s.rawAt d (offsetAt d n))).map fun b => (b, e.po)).flatten

/-- Bytes that each of `k` owners' shards of a format takes. -/
def shardBytes (d : Desc) (fmt k : Nat) : Nat :=
  let e := dCount d / max 1 k
  if fmt = cQ4 then e / 32 * 17 else e * fmtBytes fmt
/-- Blocks of 64 KiB. -/
def shardSizes (n : Nat) : List Nat := (runsOf 65536 (n / 65536 + 1) (List.replicate n ())).map List.length
/-- Block sizes of each shard of a gather into `d`. -/
def Xchg.shards (x : Xchg) (d : Desc) : List Nat := shardSizes (shardBytes d x.fmt x.group.length)

/-- Asks every other owner for version `v`; the own shard is looked up at once. Every shard is held to be in the own one's
FORMAT (DEDUCED, log 87). -/
def askOwners (s : State) (p : Nat) (o : Op) (x : Xchg) (e v : Nat) : State × Xchg :=
  let s := each ((upTo x.group.length).filter (· != x.pos)) s fun s j => sendShreq s p x e v j
  let h := ownerHandle s x.blk x.pos
  let x := { x with ver := some v, asked := true }
  match s.shardDesc p h v e with
  | some d =>
    match s.elemsStop d (upTo (dCount d)) with
    | some e => (s, { x with stop := some e })
    | none =>
      let blocks := runsOf 65536 (dCount d + 1) (s.shardData p d)
      (touchElems s d (upTo (dCount d)), { x with
        fmt := dFmt d, badSize := dCount d != dCount (o.xdst x) / max 1 x.group.length
        recv := (blocks.zipIdx).foldl (fun t b => ((payloads (b.1.length / 512 + 1) b.1).zipIdx).foldl (fun t f =>
          Tbl.set t (recvKey x.pos b.2 f.2) f.1) t) x.recv })
  | none => (s, { x with refused := Tbl.set x.refused x.pos (s.offered p h) })

/-- The start of a gather. The version of the lowest owner is asked for with V = 0, which it holds in no stashed descriptor, so
that it answers with what it offers. -/
def beginGather (s : State) (n : Nat) (o : Op) (b : BitVec 512) : State × Xchg :=
  let p := ringPart n
  let g := s.groupAt (xGroup b)
  let d := o.desc (xDst b)
  let s := touchBlock s b 2
  let x : Xchg := { blk := b, group := g, pos := posOf g (s.ownKey p), last := s.now }
  match s.gatherVersion p o d with
  | some v => askOwners s p o x (dEpoch d) v
  | none =>
    if x.pos = 0 then askOwners s p o x (dEpoch d) (dVersion (s.descOf p (ownerHandle s b 0)))
    else (sendShreq s p x (dEpoch d) 0 0, x)

/-- Has every owner that was asked answered? -/
def Xchg.answered (x : Xchg) (d : Desc) : Bool :=
  if x.asked then (upTo x.group.length).all fun j => x.refused.has j || x.whole j (x.shards d)
  else !x.refused.isEmpty

/-- The gather faults: the refusing owner of lowest rank goes into 0x8040 (R253). -/
def refuseGather (s : State) (n : Nat) (o : Op) (x : Xchg) (d : Desc) : State :=
  let p := ringPart n
  match x.refused with
  | (j, off) :: _ =>
    let w : BitVec 384 := 0
    let w := putBits w 320 off
    let w := putField w 256 64 (x.ver.getD 0 * 2 ^ 32 + dEpoch d)
    let w := putField w 192 64 o.seq
    let w := putBits w 128 s.stamp
    let w := putField w 112 16 (xDst x.blk)
    let w := putField w 98 14 (keyRank (nth x.group j))
    let w := putField w 94 4 (n % 16)
    let w := putBits w 92 s.tq
    let s := s.updPeer p fun q => { q with shardFault := w }
    faultOp s n o.orig { cause := 0x0D06, seq := o.seq, station := 8 }
  | [] => s

/-- Has every earlier macro-operation of the stream completed? -/
def State.firstOfStream (s : State) (n : Nat) (o : Op) : Bool := ((s.ring n).ops.takeWhile fun x => x.orig != o.orig).all (·.finished)

/-- Shards are placed in ascending owner position, converted under R88, and the destination is stamped. -/
def placeShards (s : State) (n seq : Nat) (o : Op) (x : Xchg) (d : Desc) : State :=
  let p := ringPart n
  let all := ((upTo x.group.length).map fun j => x.data j (x.shards d)).flatten
  let (vs, g) :=
    if x.fmt = cQ4 then (runsOf 17 all.length all).foldl (fun (a : List (Num × Bool) × Flags) c =>
      let (q, f) := q4Read (c.map (·.1))
      (a.1 ++ q.map (fun v => (v, c.any (·.2))), a.2 ||| f)) ([], 0)
    else ((runsOf (fmtBytes x.fmt) all.length all).map fun c => (elemNum x.fmt (ofLe (c.map (·.1))), c.any (·.2)), 0)
  let (s, regs, f) := convertInto (beginStore s n seq) p o.scales d 0 (upTo (dCount d)) vs
  let s := (endStore s p).updOp n seq fun o =>
    { o.raise (f ||| g) with scales := regs, dexc := Tbl.set o.dexc (xDst x.blk) (Tbl.get 0 o.dexc (xDst x.blk) ||| f ||| g) }
  setDesc s p (xDst x.blk) (putField (s.descOf p (xDst x.blk)) 608 64 (x.ver.getD 0 * 2 ^ 32 + dEpoch d))

/-! ### Blocks (R72, R286) -/

/-- Sizes of the blocks that come from a position, once they are known. -/
def Xchg.sizes (x : Xchg) (d : Desc) (j : Nat) : Option (List Nat) :=
  if xMode x.blk = 0 then (Tbl.find x.counts j).map (blockSizes d) else some (x.shards d)

/-- Has a block of `n` bytes come? The own rows of a token exchange never travel. -/
def Xchg.blockIn (x : Xchg) (j i n : Nat) : Bool :=
  (xMode x.blk == 0 && j == x.pos) || (upTo ((n + 511) / 512)).all fun k => x.recv.has (recvKey j i k)

/-- Index, in source order, of the first block not fully received. -/
def Xchg.firstOpen (x : Xchg) (d : Desc) : Nat :=
  ((upTo x.group.length).foldl (fun (a : Nat × Bool) j =>
    match a.2, x.sizes d j with
    | true, some l =>
      let k := ((l.zipIdx).takeWhile fun e => x.blockIn j e.2 e.1).length
      (a.1 + k, k == l.length)
    | _, _ => (a.1, false)) (0, true)).1

/-- Frames of blocks not fully received are discarded. -/
def Xchg.keepWhole (x : Xchg) (d : Desc) : Xchg :=
  let whole := fun (k : Nat) =>
    let j := k / 2 ^ 44
    let i := k % 2 ^ 44 / 128
    match x.sizes d j with
    | some l => i < l.length && x.blockIn j i (nth l i)
    | none => false
  { x with recv := x.recv.filter (fun e => whole e.1), blockAt := [] }

/-! ### Ends of exchanges -/

/-- An exchange of an operation is whole: an EXCHANGE's work is; a splice goes on to its next move. -/
def xchgEnd (s : State) (n seq : Nat) : State :=
  s.updOp n seq fun o => match o.splice with
    | some c => { o with xchg := none, splice := some { c with next := c.next + 1 } }
    | none => { o with work := true }

/-- Exchanges of a partition under way. -/
def State.exchanges (s : State) (p : Nat) : List (Nat × Op × Xchg) :=
  (s.liveOps p).filterMap fun e => if e.2.work then none else e.2.xchg.map fun x => (e.1, e.2, x)

/-- Have all counts of a token exchange come, for more rows than the destination holds (R277)? -/
def Xchg.overfull (x : Xchg) (d : Desc) : Bool := x.counts.length == x.group.length && dDim d 1 < sumOf (x.counts.map (·.2))

/-- The end of an exchange that is ready for it. -/
def endXchg (s : State) (n : Nat) (o : Op) (x : Xchg) : Option State :=
  let d := o.xdst x
  let fault := fun (c : U16) (a : Option Nat) => some (faultOp s n o.orig { cause := c, seq := o.seq, station := 8, refused := a })
  if xMode x.blk = 0 then
    if x.overfull d then fault 0x0E08 none
    else if !x.tokensWhole d then none
    else match s.rowsStop o d (sumOf ((upTo x.group.length).map fun j => Tbl.get 0 x.counts j)) with
      | some f => some (faultOp s n o.orig { f with station := 8 })
      | none =>
        let (s, po) := placeTokens s n o x
        let s := if po then s.updOp n o.orig fun o => { o.raise fPoison with
          dexc := Tbl.set o.dexc (xDst x.blk) (Tbl.get 0 o.dexc (xDst x.blk) ||| fPoison) } else s
        some (xchgEnd s n o.orig)
  else match x.stop with
    | some (a, c) => fault c (some a)
    | none =>
      if x.badSize then fault 0x0E08 none
      else if !x.answered d then none
      else if !x.refused.isEmpty then (if s.firstOfStream n o then some (refuseGather s n o x d) else none)
      else match s.elemsStop d (upTo (dCount d)) with
        | some (a, c) => fault c (some a)
        | none => some (xchgEnd (placeShards s n o.orig o x d) n o.orig)

/-! ### SPLICE (R274, R275) -/

def spMoves (b : BitVec 512) : Nat := field b 464 48
def spCount (b : BitVec 512) : Nat := field b 448 16
def spEpoch (b : BitVec 512) : Nat := field b 416 32

def State.spliceEpochs (s : State) (p : Nat) (b : BitVec 512) : List Nat := spEpoch b :: s.epochs p

/-- The block of move `i` of a splice block. -/
def State.moveBlock (s : State) (b : BitVec 512) (i : Nat) : BitVec 512 := wordOf 512 (s.bytesAt (spMoves b + 64 * i) 64)
def State.moveBlocks (s : State) (b : BitVec 512) : List (BitVec 512) := (upTo (min 4096 (spCount b))).map (s.moveBlock b)

/-- The checks of a SPLICE at dispatch: of its block, then of every move (R60, R274). -/
def State.spliceStop (s : State) (n : Nat) (o : Op) : Option FaultInfo :=
  let p := ringPart n
  let b := s.block64 o
  let test := fun (ok : Bool) (c : U16) => if ok then none else some (stopAt o 0 c)
  let e := (s.peer p).epoch
  firstStop [
    fun _ => test (o.addr % 64 == 0) 0x0A06, fun _ => s.blockRead n o o.addr 64,
    fun _ => test (field b 0 8 == 1 && field b 8 408 == 0 && spCount b ≤ 4096
      && spEpoch b == (if e = 0xFFFFFFFF then 1 else e.toNat + 1)) 0x0E09,
    fun _ => test (spMoves b % 64 == 0) 0x0A06,
    fun _ => if spCount b = 0 then none else s.blockRead n o (spMoves b) (64 * spCount b),
    fun _ => test (spCount b == 0 || s.rank != 0xFFFF) 0x0E0A,
    fun _ => (s.moveBlocks b).findSome? fun m => s.xchgStop n o m (s.spliceEpochs p b)]

/-- Handles of an exchange block: read, written. -/
def xchgHandles (b : BitVec 512) : List Nat × List Nat := (if xMode b = 0 then [xSrc b] else [], [xDst b])

/-- The splice of a partition, if one is under way. -/
def State.spliceOf (s : State) (p : Nat) : Option (Nat × Op × SpliceOp) :=
  (s.liveOps p).findSome? fun e => if e.2.work then none else e.2.splice.map fun c => (e.1, e.2, c)

/-- Step 2: every REDUCE and EXCHANGE dispatched before the splice has completed. -/
def State.spliceClear (s : State) (p : Nat) (o : Op) : Bool :=
  !(s.openOps p).any fun e => e.2.order < o.order && (e.2.is 0x30 || e.2.is 0x31)

/-- The next move of the splice begins, unless what it reads has come to fail its checks. -/
def pumpSplice (s : State) (p : Nat) : Option State :=
  match s.spliceOf p with
  | none => none
  | some (n, o, c) =>
    if c.changed || o.xchg.isSome || (s.ring n).stopReq || !s.spliceClear p o || spCount c.blk ≤ c.next then none
    else
      let b := c.moves.getD c.next 0
      match s.xchgStop n o b (s.spliceEpochs p c.blk) with
      | some f => some (faultOp s n o.orig { f with station := 8 })
      | none =>
        let (s, x) := if xMode b = 0 then beginTokens s n o b else beginGather s n o b
        some (s.updOp n o.orig fun o => { o with xchg := some x })

/-- EPOCH_CHANGE: after the moves the current epoch becomes NEWEPOCH. -/
def execEpochChange (p : BitVec 2) (s : State) : Out :=
  match s.spliceOf p.toNat with
  | some (n, o, c) => act (s.up && s.spliceClear p.toNat o && o.xchg.isNone && !c.changed && spCount c.blk ≤ c.next && !(s.ring n).stopReq) s fun s =>
      let s := s.updPeer p.toNat fun q => { q with epoch := BitVec.ofNat 32 (spEpoch c.blk) }
      s.updOp n o.orig fun o => { o with work := true, splice := o.splice.map fun c => { c with changed := true } }
  | none => .next s

/-! ### Taking frames (R263, R271, R275, R283, R286) -/

/-- Key of the participant a frame comes from. -/
def fKey (f : PeerFrame) : Nat := 4 * fSrank f + fSpart f

/-- The hops, as key of the participant and path, from which a bucket still expects frames: right children's values on the primary
path, and on the lanyard as far as segments are reduced on both; a result. -/
def Bucket.waitsOn (b : Bucket) (d : Desc) (div : Nat) : List (Nat × Nat) :=
  let last := fun (seg : Nat) => segPieces d seg - 1
  let end_ := b.segs - 1
  let up := fun (path seg : Nat) => (b.place.kids.filter fun k => b.done ≤ seg && !b.recv.has (hopKey path seg (last seg) k.1)).map
    fun k => (b.key k.2, path)
  let lanyard := match ((upTo b.segs).filter (b.both div)).getLast? with | some seg => up 1 seg | none => []
  let result := if b.done ≤ end_ && !b.res.has (pieceKey 0 end_ (last end_)) then
      if b.ownerOnly then (if b.owner == b.pos && b.pos != 0 then [(b.key 0, 0)] else [])
      else match b.place.up with | some (_, h) => [(b.key h, 0)] | none => []
    else []
  up 0 end_ ++ lanyard ++ result

def frameWords (f : PeerFrame) : List Nat := (runsOf 4 f.payload.length f.payload).map ofLe

/-- The hop a frame comes over: the participant's key and the path. -/
def fHop (f : PeerFrame) : Nat × Nat := (fKey f, if fType f = 1 && !fDown f then fPath f else 0)
def hopNo (e : Nat × Nat) : Nat := 2 * e.1 + e.2

/-- The bucket sees a frame of its tag on a hop. -/
def seenBucket (s : State) (n seq : Nat) (f : PeerFrame) : State :=
  s.updBucket n seq fun b => { b with heard := Tbl.set b.heard (hopNo (fHop f)) s.now }

/-- A value down the tree. -/
def takeDown (s : State) (p n : Nat) (o : Op) (b : Bucket) (f : PeerFrame) : State :=
  let from_ := if b.ownerOnly then (if b.owner = b.pos then some (0, 0) else none) else b.place.up
  match from_ with
  | some (l, h) =>
    if l = fLevel f && b.key h = fKey f && fSeg f < b.segs && b.done ≤ fSeg f then
      resultPiece s p n o.orig o b (fSeg f) (fPiece f) (frameWords f, fPmask f)
    else countPort s (s.exchangePort p 0) 5
  | none => s

/-- A value up the tree, from the right child of a node hosted here. -/
def takeUp (s : State) (p j n : Nat) (o : Op) (b : Bucket) (f : PeerFrame) : State :=
  let hop := 16 * fPath f + fLevel f
  let x : Piece := (frameWords f, fPmask f)
  if !(b.place.kids.any fun k => k.1 == fLevel f && b.key k.2 == fKey f) || b.segs ≤ fSeg f || fSeg f < b.done then countPort s j 5
  else if fSampled f != b.sampled (s.peer p).sampleUse.toNat (fSeg f) then endBucket s n o 0x0E04
  else if b.stale.contains hop && !(fSeg f == 0 && fPiece f == 0) then s
  else if b.vote == some (hopKey 0 (fSeg f) (fPiece f) (fLevel f)) && fPath f == 0 then
    countVote s p n o.orig o b (hopKey 0 (fSeg f) (fPiece f) (fLevel f)) x
  else
    let s := s.updBucket n o.orig fun b =>
      { b with recv := Tbl.set b.recv (hopKey (fPath f) (fSeg f) (fPiece f) (fLevel f)) x, via := Tbl.set b.via hop j,
               stale := b.stale.filter (· != hop) }
    usePiece s p n o.orig (fSeg f) (fPiece f)

/-- RDATA: none where it cannot be taken yet. -/
def takeRdata (s : State) (p j : Nat) (f : PeerFrame) : Option State :=
  match s.currentBucket p (fChan f) with
  | none => none
  | some (n, o, b) =>
    if !b.active then none
    else if fBucket f != b.tag then
      if (b.waitsOn (o.src b) (s.peer p).sampleUse.toNat).contains (fHop f) then some (endBucket s n o 0x0E03) else none
    else if fEpoch f != dEpoch (o.src b) % 65536 then some (endBucket s n o 0x0E0B)
    else if !fDown f && b.done + 16 ≤ fSeg f then none
    else
      let s := seenBucket s n o.orig f
      some (if fDown f then takeDown s p n o b f else takeUp s p j n o b f)

/-- The exchange under way that a frame belongs to. -/
def State.xchgFor (s : State) (p : Nat) (mode : Nat) (f : PeerFrame) : Option (Nat × Op × Xchg) :=
  (s.exchanges p).find? fun e => xTag e.2.2.blk == fBucket f && xMode e.2.2.blk == mode && e.2.2.group.contains (fKey f)

def State.updXchg (s : State) (n seq : Nat) (f : PeerFrame) (g : Xchg → Xchg) : State :=
  s.updOp n seq fun o => { o with xchg := o.xchg.map fun x =>
    let x := { g x with heard := Tbl.set x.heard (hopNo (fHop f)) s.now }
    { x with first := x.firstOpen (o.xdst x) } }

/-- XCOUNT. -/
def takeXcount (s : State) (p : Nat) (f : PeerFrame) : Option State :=
  (s.xchgFor p 0 f).map fun (n, o, _) =>
    s.updXchg n o.orig f fun x => { x with counts := Tbl.set x.counts (posOf x.group (fKey f)) (ofLe (f.payload.take 4)) }

/-- XDATA: kept until every row is there, since placement goes by source position. -/
def takeXdata (s : State) (p : Nat) (f : PeerFrame) : Option State :=
  (s.xchgFor p 0 f).map fun (n, o, _) => s.updXchg n o.orig f fun x => x.took f (posOf x.group (fKey f))

/-- SHDATA: a shard of another size than E_D / N faults the gather. -/
def takeShdata (s : State) (p : Nat) (f : PeerFrame) : Option State :=
  (s.xchgFor p 1 f).map fun (n, o, x) =>
    let j := posOf x.group (fKey f)
    let size := nth (x.shards (o.xdst x)) (x.blockOf j (fSeg f))
    let want := (min 512 (size - 512 * fPiece f) + 3) / 4 * 4
    if x.asked && f.payload.length != want then faultOp s n o.orig { cause := 0x0E08, seq := o.seq, station := 8 }
    else s.updXchg n o.orig f fun x => x.took f j

/-- SHREF: an owner's refusal, or the lowest owner's answer to what it offers. -/
def takeShref (s : State) (p : Nat) (f : PeerFrame) : Option State :=
  (s.xchgFor p 1 f).map fun (n, o, x) =>
    let off : U64 := wordOf 64 (f.payload.take 8)
    let j := posOf x.group (fKey f)
    let e := dEpoch (o.xdst x)
    if !x.asked && off.toNat % 2 ^ 32 = e && off.toNat / 2 ^ 32 != 0 then
      let (s, x) := askOwners s p o x e (off.toNat / 2 ^ 32)
      s.updXchg n o.orig f fun _ => x
    else s.updXchg n o.orig f fun x => { x with refused := Tbl.set x.refused j off }

/-- SHREQ: served from the stash as it stands, or refused with what is offered, as is a shard an access to which is refused; such an
access is recorded (R252, R253, R278, R314) (DEDUCED, log 87). -/
def serveShard (s : State) (p : Nat) (f : PeerFrame) : State :=
  let h := ofLe (f.payload.take 2)
  let v := ofLe ((f.payload.drop 4).take 4)
  let e := ofLe ((f.payload.drop 8).take 4)
  let refuse := fun (s : State) =>
    sendTo s p (s.exchangePort p (fKey f)) (fKey f) { typ := 6, bucket := fBucket f } (leBytes 8 (s.offered p h).toNat)
  match s.shardDesc p h v e with
  | some d =>
    match s.elemsStop d (upTo (dCount d)) with
    | some x => refuse (recordRefused s x.1)
    | none =>
      let s := touchElems s d (upTo (dCount d))
      sendBlocks s p (fKey f) 5 (fBucket f) (dEpoch d % 65536) (runsOf 65536 (dCount d + 1) (s.shardData p d))
  | none => refuse s

/-- Is the stream or its partition stopping? -/
def State.stopping (s : State) (n : Nat) : Bool := (s.ring n).stopReq || (s.ps (ringPart n)).stopReq.isSome

/-- ABORT: the matching operations end, or stop with their partition (R286). -/
def takeAbort (s : State) (p : Nat) (f : PeerFrame) : State :=
  (s.liveOps p).foldl (fun s e =>
    let hit := (match e.2.bucket with
        | some b => b.tag == fBucket f && b.chan == fChan f && b.group.contains (fKey f)
        | none => false)
      || (match e.2.xchg with
        | some x => xTag x.blk == fBucket f && x.group.contains (fKey f)
        | none => false)
    let open_ := match e.2.bucket, e.2.xchg with
      | some b, _ => b.done
      | none, some x => x.first
      | none, none => 0
    if hit && !e.2.work && !s.stopping e.1 then
      faultOp s e.1 e.2.orig { cause := 0x0E05, seq := e.2.seq, station := if e.2.bucket.isSome then 7 else 8, detail := BitVec.ofNat 64 open_ }
    else s) s

/-- The values of a segment are sent up a third time, over the vote member (R273). -/
def sendAgain (s : State) (p : Nat) (o : Op) (b : Bucket) (f : PeerFrame) : State :=
  match b.place.up with
  | some (l, h) =>
    if l != fLevel f || b.key h != fKey f then s
    else each (upTo (segPieces (o.src b) (fSeg f))) s fun s i =>
      match Tbl.find b.sums (pieceKey 0 (fSeg f) i) with
      | some x => sendPieceOn s p o b (s.votePort p l) 0 l (fSeg f) i (b.key h) false x
      | none => s
  | none => s

/-- REDO: down the tree the bucket restarts at segment 0, or with a LEVEL sends a segment's values again; up the tree it is passed
to the root (R273). -/
def takeRedo (s : State) (p : Nat) (f : PeerFrame) : State :=
  match s.currentBucket p (fChan f) with
  | some (n, o, b) =>
    if b.tag != fBucket f || !b.active || !b.group.contains (fKey f) then s
    else
      let s := seenBucket s n o.orig f
      if fDown f && fLevel f != 0 then sendAgain s p o b f
      else if fDown f then redoBelow s p n o.orig b (fSeg f)
      else if b.place.up.isNone && 2 ≤ b.redo then endBucket s n o 0x0E06
      else wantRedo s p n o.orig b (fSeg f)
  | none => s

/-- The station takes a frame; none where it must stay in its buffer (DEDUCED, log 89). -/
def takeFrame (s : State) (p j : Nat) (f : PeerFrame) : Option State :=
  match fType f with
  | 1 => takeRdata s p j f
  | 2 => takeXdata s p f
  | 3 => takeXcount s p f
  | 4 => some (serveShard s p f)
  | 5 => takeShdata s p f
  | 6 => takeShref s p f
  | 7 => some (takeAbort s p f)
  | 8 => some (takeRedo s p f)
  | _ => some s

/-- What a frame waits behind: an earlier frame of its channel on lanes 1 and 3, of its tag on lanes 0 and 2. -/
def waitKey (f : PeerFrame) : Nat × Nat × Nat :=
  if frameLane f = 1 || frameLane f = 3 then (frameLane f, fChan f, 0) else (frameLane f, 8, (fBucket f).toNat)

/-- The first frame waiting at a port that can be taken, with what taking it does. -/
def takeScan (s : State) (p j : Nat) : List PeerFrame → List (Nat × Nat × Nat) → Option (PeerFrame × State)
  | [], _ => none
  | f :: t, held =>
    if held.contains (waitKey f) then takeScan s p j t held
    else match takeFrame s p j f with
      | some s' => some (f, s')
      | none => takeScan s p j t (waitKey f :: held)

/-- One waiting frame of a partition is taken and its buffer freed. -/
def takeOne (s : State) (p : Nat) : Option State :=
  (s.portsOf p).findSome? fun j => (takeScan s p j (s.port j).wait []).map fun e =>
    e.2.updPort j fun q => { q.free e.1 with wait := q.wait.erase e.1 }

/-! ### Settling: what follows at once from what has come -/

def settleStep (s : State) (p : Nat) : Option State :=
  match (upTo 8).findSome? fun c => pumpStep s p c with
  | some t => some t
  | none => match (s.exchanges p).findSome? fun e => endXchg s e.1 e.2.1 e.2.2 with
    | some t => some t
    | none => match pumpSplice s p with
      | some t => some t
      | none => takeOne s p

def settleLoop : Nat → State → Nat → State
  | 0, s, _ => s
  | k + 1, s, p => match settleStep s p with
    | some t => settleLoop k t p
    | none => s

/-- Steps that settling can take: segments to send and complete, frames waiting, operations. -/
def State.settleFuel (s : State) (p : Nat) : Nat :=
  8 * sumOf ((s.reduces p).map fun e => 2 * e.2.2.segs + 4) + 2 * sumOf ((s.portsOf p).map fun j => (s.port j).wait.length)
    + 4 * (s.liveOps p).length + sumOf ((s.liveOps p).map fun e => match e.2.splice with | some c => 2 * spCount c.blk | none => 0) + 16

def settleFabric (s : State) (p : Nat) : State := settleLoop (s.settleFuel p) s p

/-! ### The rows of the macro-operations -/

/-- What a dispatched operation starts at once. -/
def thenSettle (n : Nat) (o : Out) : Out :=
  match o with
  | .next t => .next (settleFabric t (ringPart n))
  | x => x

/-- The descriptors of handles as they stand, kept with the macro-operation (R59). -/
def Op.reading (o : Op) (s : State) (p : Nat) (hs : List Nat × List Nat) : Op :=
  let named := fun (l : List Nat) => l.map fun h => (h, s.descOf p h)
  { o with descs := (hs.1 ++ hs.2).foldl (fun (t : Tbl Desc) h => Tbl.set t h (s.descOf p h)) []
           uses := usesOf (s.sched p).scales (named hs.1) (named hs.2) }

def prepReduce (s : State) (n : Nat) (o : Op) : Op :=
  let b := s.block64 o
  o.reading s (ringPart n) ([xSrc b], if s.writesResult (ringPart n) b then [xDst b] else [])

/-- REDUCE. -/
def execReduce (ring : BitVec 6) (s : State) : Out :=
  let n := ring.toNat
  thenSettle n (dispatchHead n (wantOpc 0x30)
    { prep := prepReduce
      check := fun s n o => s.reduceStop n o
      go := startReduce } s)

def prepExchange (s : State) (n : Nat) (o : Op) : Op :=
  { o.reading s (ringPart n) (xchgHandles (s.block64 o)) with slots := (o.sfirst, o.scount) }

/-- An EXCHANGE of a mode. -/
def exchangeRow (mode : Nat) (ring : BitVec 6) (s : State) : Out :=
  let n := ring.toNat
  let p := ringPart n
  let blk := fun (s : State) (o : Op) => s.block64 o
  thenSettle n (dispatchHead n (fun s o a => a == .mop 0x31 && (if mode = 1 then xMode (blk s o) == 1 else xMode (blk s o) != 1))
    { prep := prepExchange
      check := fun s n o => firstStop [fun _ => s.xblockStop n o o.addr, fun _ => s.xchgStop n o (blk s o) (s.epochs p),
        fun _ => s.slotStop o]
      go := fun s n o =>
        let b := blk s o
        let dst := o.desc (xDst b)
        let o := { o with scales := (s.sched p).scales, convs := if mode = 1 && gathers dst then [dScaleReg dst] else [] }
        let s := touch s o.addr 64
        let (s, x) := if mode = 0 then beginTokens s n o b else beginGather s n o b
        (s, { o with xchg := some x }) } s)

def execTokenExchange (ring : BitVec 6) (s : State) : Out := exchangeRow 0 ring s
def execShardGather (ring : BitVec 6) (s : State) : Out := exchangeRow 1 ring s

def prepSplice (s : State) (n : Nat) (o : Op) : Op :=
  let hs := (s.moveBlocks (s.block64 o)).map xchgHandles
  o.reading s (ringPart n) ((hs.map (·.1)).flatten, (hs.map (·.2)).flatten)

/-- SPLICE: one at a time; its moves begin once earlier reductions and exchanges have completed. -/
def execSplice (ring : BitVec 6) (s : State) : Out :=
  let n := ring.toNat
  let p := ringPart n
  thenSettle n (dispatchHead n (wantOpc 0x32)
    { prep := prepSplice
      names := fun _ _ _ => []
      wait := fun s _ _ => (s.openOps p).any fun e => e.2.is 0x32
      check := fun s n o => s.spliceStop n o
      go := fun s _ o =>
        let b := s.block64 o
        (touch (touch s o.addr 64) (spMoves b) (64 * spCount b),
         { o with scales := (s.sched p).scales, splice := some { blk := b, moves := s.moveBlocks b } }) } s)

/-- MACRO_OP_COMPLETE (R334): a macro-operation whose effect is whole completes. -/
def execMacroOpComplete (ring : BitVec 6) (seq : BitVec 64) (s : State) : Out :=
  let n := ring.toNat
  match s.opAt n seq.toNat with
  | some o => act (s.up && o.live && o.work) s fun s => settleFabric (finishOp s n o) (ringPart n)
  | none => .next s

/-! ### The rows of frames -/

/-- Frames that a partition discards and counts: addressed elsewhere, or while the rank is unset (R263, R287). -/
def State.notForUs (s : State) (j : Nat) (f : PeerFrame) : Bool :=
  s.rank == 0xFFFF || fDrank f != s.rank.toNat || fDpart f != s.ownerOfPort j

/-- A frame arrives at a port: in scrub it is discarded and counted; else the link layer, the receive buffer, and what can be taken from it. -/
def receive (ok : Nat → Bool) (known : Bool) (port : BitVec 4) (f : PeerFrame) (s : State) : Out :=
  let j := port.toNat
  act (s.portUp j && ok (fType f)) s fun s =>
    if s.scrubs (s.ownerOfPort j) then countPort s j 5
    else
    let (s, taken) := linkLayer s j f
    let s := if !taken || fType f = 9 then s
      else if !known || s.notForUs j f then (countPort s j 5).updPort j fun q => q.free f
      else s.updPort j fun q => { q with wait := q.wait ++ [f] }
    settleFabric s (s.ownerOfPort j)

def execRdata (port : BitVec 4) (f : PeerFrame) (s : State) : Out := receive (· == 1) true port f s
def execXdata (port : BitVec 4) (f : PeerFrame) (s : State) : Out := receive (· == 2) true port f s
def execXcount (port : BitVec 4) (f : PeerFrame) (s : State) : Out := receive (· == 3) true port f s
def execShreq (port : BitVec 4) (f : PeerFrame) (s : State) : Out := receive (· == 4) true port f s
def execShdata (port : BitVec 4) (f : PeerFrame) (s : State) : Out := receive (· == 5) true port f s
def execShref (port : BitVec 4) (f : PeerFrame) (s : State) : Out := receive (· == 6) true port f s
def execAbort (port : BitVec 4) (f : PeerFrame) (s : State) : Out := receive (· == 7) true port f s
def execRedo (port : BitVec 4) (f : PeerFrame) (s : State) : Out := receive (· == 8) true port f s
def execLink (port : BitVec 4) (f : PeerFrame) (s : State) : Out := receive (· == 9) true port f s
/-- FRAME_OF_UNDEFINED_TYPE (R281): discarded and counted. -/
def execFrameOfUndefinedType (port : BitVec 4) (f : PeerFrame) (s : State) : Out := receive (fun t => t == 0 || 9 < t) false port f s

/-- NAK (R284): replay from ACK + 1. -/
def execNak (port : BitVec 4) (ack : BitVec 16) (s : State) : Out :=
  let j := port.toNat
  act (s.portUp j) s fun s => if s.scrubs (s.ownerOfPort j) then countPort s j 5 else settleFabric (replayPort (takeAck s j ack) j) (s.ownerOfPort j)

/-- Participants from which an exchange still waits for frames. -/
def Xchg.waitsOn (x : Xchg) (d : Desc) : List (Nat × Nat) :=
  ((upTo x.group.length).filter fun j => j != x.pos &&
    (if xMode x.blk = 0 then !(x.counts.has j && x.whole j (blockSizes d (Tbl.get 0 x.counts j)))
     else if x.asked then !(x.refused.has j || x.whole j (x.shards d)) else j == 0)).map fun j => (nth x.group j, 0)

/-- PEER_TIMEOUT (R286): a hop that an operation waits on has brought no frame of its tag for the peer timeout (DEDUCED, log 93). -/
def execPeerTimeout (ring : BitVec 6) (seq : BitVec 64) (s : State) : Out :=
  let n := ring.toNat
  let p := ringPart n
  let t := (s.peer p).peerTimeout.toNat * 1000000
  match s.opAt n seq.toNat with
  | some o =>
    let silent := fun (l : List (Nat × Nat)) (heard : Tbl Nat) (start : Nat) => l.any fun e => s.since (Tbl.get start heard (hopNo e)) t
    let due := match o.bucket, o.xchg with
      | some b, _ => b.active && silent (b.waitsOn (o.src b) (s.peer p).sampleUse.toNat) b.heard b.last
      | none, some x => silent (x.waitsOn (o.xdst x)) x.heard x.last
      | none, none => false
    act (s.up && o.live && !o.work && t != 0 && due) s fun s =>
      settleFabric (faultOp s n o.orig { cause := 0x0E0C, seq := o.seq, station := if o.bucket.isSome then 7 else 8 }) p
  | none => .next s

end Sys2Proof.Machine
end

