-- ==== Sys2Proof/Machine/Stop.lean ====
section
/-! DEFINITION. Streams that stop at their stop points and are continued (03_stations_and_streams R65, R70 to R72;
14_companion_link R336; 08_solver_factorisation R192; 11_training_support R261). -/

namespace Sys2Proof.Machine

/-! ### Stop points (R70 to R72) -/

/-- Nothing a room has issued is under way, but row operations, each of which stands at a chunk boundary (R148); signals that wait are
state (R221). -/
def Room.atStop (r : Room) : Bool := r.matQ.isEmpty && r.vecQ.isEmpty && r.loadQ.isEmpty && r.storeQ.isEmpty

/-- Has a problem ended, or stopped with its record written? -/
def Problem.atStop (pr : Problem) : Bool := pr.stage == .ended || (pr.stopped && !pr.on)

/-- Is a macro-operation at a stop point: a solver call once each of its problems is, what has taken effect once it has
completed, any other once the rooms are. -/
def Op.atStop (o : Op) : Bool :=
  o.finished || (!o.work && match o.solve with | some c => c.probs.all fun e => e.2.atStop | none => true)

/-- Rooms that run a share of a ring's macro-operations. -/
def State.roomsOfRing (s : State) (n : Nat) : List Nat :=
  (s.roomsOf (ringPart n)).filter fun m => match (s.room m).run with | some (k, _) => k == n | none => false

/-- Every station of a stream that a stop has reached is at its stop point (R72). -/
def State.atStop (s : State) (n : Nat) : Bool :=
  (s.ring n).stopReq && (s.ring n).ops.all Op.atStop && (s.roomsOfRing n).all fun m => (s.room m).atStop

/-- The resume point of a stopped macro-operation: its first unfinished problem, segment, block or move; of a RUN whose shares have
begun, the chunk that a stopped row operation of its rooms goes on with (R148), else a tile index that the translation fixes. -/
def Op.resumePoint (s : State) (o : Op) (k : Nat) : U32 :=
  let rows := o.shares.filterMap fun h => (s.room h.room).rowQ.find? fun q => (s.room h.room).run.any (·.2 == o.orig) && !q.done
  match o.solve, o.bucket, o.xchg, o.splice with
  | some c, _, _, _ => BitVec.ofNat 32 (((c.probs.find? fun e => e.2.stage != .ended).map (·.1)).getD 0)
  | none, some b, _, _ => BitVec.ofNat 32 b.done
  | none, none, _, some c => BitVec.ofNat 32 c.next
  | none, none, some x, none => BitVec.ofNat 32 x.first
  | none, none, none, none =>
    match rows with
    | q :: _ => BitVec.ofNat 32 q.chunk
    | [] => if o.shares.any (·.started) then Config.resumePoint k else 0

/-- What a stopped macro-operation keeps: whole segments and blocks. An arrival at a hitch and a translation begin again. -/
def Op.kept (o : Op) : Op :=
  { o with
    hold := if o.is 0x10 then true else if o.isFence then false else o.hold
    bucket := o.bucket.map fun b => { b with recv := [], sums := [], res := [], sent := b.done, vote := none }
    xchg := if o.splice.isSome then none else o.xchg.map fun x => x.keepWhole (o.xdst x) }

/-- One macro-operation stops: a REDUCE or EXCHANGE sends ABORT, a translation is dropped, the record says STATUS 1. -/
def stopOp (s : State) (n : Nat) (o : Op) : State :=
  let p := ringPart n
  let s := abortOp s p o 0
  let s := if o.is 0x10 && !o.hold then dropProgram s p o.prog else s
  let (k, s) := s.takeFree
  let s := s.updRing n fun r => { r with stoppedOps := r.stoppedOps ++ [o.kept] }
  s.updOp n o.orig fun o => { o with finished := true, status := 1, arg := o.resumePoint s k, tend := s.stamp, tq := s.tq }

/-- The stream has stopped: records, STATE 3 unless it halted on a fault, the step closed by a stop of the ring alone (DEDUCED, log 56). -/
def endStop (s : State) (n : Nat) : State :=
  let p := ringPart n
  let s := withdraw s n
  let s := ((s.ring n).ops.filter Op.live).foldl (fun s o => stopOp s n o) s
  let s := retire s n
  let halted := (s.ring n).st == .halted
  let s := if !halted && (s.ps p).stopReq.isNone then closeStep s n else s
  s.updRing n fun r => { r with st := if halted then .halted else .stopped, stopReq := false, stopSeen := false, echoStop := r.takenStop }

/-- A RESUMEGEN taken behind the stop acts, unless the partition is stopping or a stop image holds it back. -/
def resumeAfter (s : State) (n : Nat) : State :=
  let q := s.ps (ringPart n)
  if (s.ring n).resumePend && q.stopReq.isNone && !q.holdResume then runOrIdle (s.updRing n Ring.resumed) n else s

/-- STREAM_STOPPED (R72). -/
def execStreamStopped (ring : BitVec 6) (s : State) : Out :=
  let n := ring.toNat
  act (s.up && s.atStop n) s fun s =>
    settleFabric (resumeAfter (settleStop (endStop s n) (ringPart n)) n) (ringPart n)

/-! ### CONTINUE (R336) -/

/-- The stopped macro-operation that a continue entry names, as it is dispatched again: under the entry's sequence; a REDUCE or
EXCHANGE keeps its place among those of its channel. -/
def continued (s : State) (n : Nat) (o : Op) : Op :=
  match (s.ring n).stoppedOps with
  | x :: _ => { x with seq := o.seq, tstart := o.tstart, order := if x.bucket.isSome || x.xchg.isSome then x.order else o.order }
  | [] => o

/-- The rooms a continued solver call borrows again. -/
def Op.rooms (o : Op) : List Nat := match o.solve with | some c => countUp (field c.call 26 7) (sNroom c.call) | none => []

/-- A solver call takes up its unfinished problems. -/
def SolveOp.resumed (c : SolveOp) (units : List Nat) : SolveOp :=
  { c with
    reserved := sNroom c.call == 0
    units := units
    probs := c.probs.map fun e =>
      (e.1, if e.2.stage = .ended then e.2 else { e.2 with stopped := false, recorded := false, status := 0, outs := [] }) }

/-- An exchange sends again; what came whole before the stop stays. -/
def againXchg (s : State) (n : Nat) (o : Op) (x : Xchg) : State × Xchg :=
  if xMode x.blk = 0 then
    let (s, y) := beginTokens s n o x.blk
    (s, { y with recv := x.recv, counts := x.counts, first := x.first })
  else
    let (s, y) := match x.ver with
      | some v => askOwners s (ringPart n) o { x with refused := [], heard := [], stop := none, badSize := false } (dEpoch (o.xdst x)) v
      | none => beginGather s n o x.blk
    (s, { y with recv := x.recv.foldl (fun t e => Tbl.set t e.1 e.2) y.recv, last := s.now })

/-- Work is taken up at the resume point. -/
def takeUpAgain (s : State) (n : Nat) (o : Op) : State × Op :=
  let p := ringPart n
  let s := s.updRing n fun r => { r with stoppedOps := r.stoppedOps.drop 1 }
  let units := (s.unitsOf p).filter fun u => !s.outOfService 1 u
  let o := { o with solve := o.solve.map fun (c : SolveOp) => c.resumed units
                    bucket := o.bucket.map fun (b : Bucket) => { b with last := s.now, heard := [] } }
  match o.xchg with
  | some x => let (s, x) := againXchg s n o x; (s, { o with xchg := some x })
  | none => (s, o)

/-- CONTINUE: the lowest stopped macro-operation; it waits by what it uses, its claims being held already (DEDUCED, log 55). -/
def execContinueEntry (ring : BitVec 6) (s : State) : Out :=
  let n := ring.toNat
  thenSettle n (dispatchHead n (fun _ _ a => a == .cont)
    { prep := fun s n o => { continued s n o with slots := (0, 0) }
      names := fun _ _ _ => []
      wait := fun s _ o => o.rooms.any s.roomReserved || o.shares.any fun h => !h.ended && s.roomReserved h.room
      go := fun s n o => takeUpAgain s n { o with slots := (continued s n o).slots } } s)

end Sys2Proof.Machine
end

