-- ==== Sys2Proof/Machine/Power.lean ====
section
/-! DEFINITION. Power, clocks and temperature (16_power_clocks_thermal R371 to R389). -/

namespace Sys2Proof.Machine

/-! ### Operating points (R371) -/

/-- CK_ARI at a point, in MHz. -/
def pointMhz (k : Nat) : U16 := BitVec.ofNat 16 (800 + 50 * k)

/-- A die's point is the lowest of the cap target, its ceiling and its fused maximum of 64. -/
def dieTarget (s : State) (d : Nat) : BitVec 7 :=
  BitVec.ofNat 7 (min s.pw.capPoint.toNat (min (s.diePw d).ceiling.toNat 64))

/-- A new target; in a droop or its hold-off it is held as pending (R380). -/
def retarget (s : State) (d : Nat) : State :=
  let q := s.diePw d
  if q.droop || q.holdoff then s.updDie d fun q => { q with pendingTarget := true }
  else s.updDie d fun q => { q with target := dieTarget s d }

/-- The dies' clocks run: from B3 on, and not after a shutdown. -/
def State.clocked (s : State) : Bool :=
  !s.boot.stopped && (match s.boot.stage with | .b3 | .b4 | .b5 | .running => true | _ => false)

/-- Sets bits of the power status that latch in 0x3003 (R377, R388). -/
def latch (s : State) (m : Byte) : State := { s with pw := { s.pw with latched := s.pw.latched ||| m } }

/-- Entry 0x3002. -/
def Power.status (p : Power) : Byte :=
  BitVec.ofNat 8 (bnat p.unattainable + 2 * bnat p.fastLimit + 4 * bnat p.coolantStop + 8 * bnat p.trip + 16 * bnat p.silent)

/-- GLIDE_STEP (R372): one step towards the target. A rising step raises the voltage and then switches the frequency, a
falling step switches first; in a droop and its hold-off the glide pauses (R380). -/
def execGlideStep (d : BitVec 2) (s : State) : Out :=
  let q := s.diePw d.toNat
  act (s.clocked && !q.droop && !q.holdoff && q.point != q.target) s fun s =>
    let k := if q.point.toNat < q.target.toNat then q.point.toNat + 1 else q.point.toNat - 1
    s.updDie d.toNat fun q => { q with point := BitVec.ofNat 7 k, mhz := pointMhz k, mv := Config.volt d.toNat k }

/-! ### Runs of samples -/

/-- Takes the oldest sample off a window kept in runs. -/
def popRun : List (Nat × Nat) → Nat × List (Nat × Nat)
  | [] => (0, [])
  | (n, v) :: t => if n ≤ 1 then (v, t) else (v, (n - 1, v) :: t)

/-- Adds a newest sample. -/
def pushRun (l : List (Nat × Nat)) (v : Nat) : List (Nat × Nat) :=
  match l.reverse with
  | (n, w) :: t => if w = v then ((n + 1, w) :: t).reverse else l ++ [(1, v)]
  | [] => [(1, v)]

def runLength (l : List (Nat × Nat)) : Nat := l.foldl (fun a e => a + e.1) 0

/-! ### The cap (R373 to R377) -/

/-- A write of w refills the window with samples equal to the current average (R373). -/
def refillWindow (s : State) (w : Nat) : State :=
  let avg := s.pw.sum / s.pw.w.toNat
  { s with pw := { s.pw with w := BitVec.ofNat 32 w, window := [(w, avg)], sum := w * avg } }

/-- Σ over the dies of f · V² at point k, and at the points they run at (DEDUCED, log 30). -/
def powerScale (k : Nat) : Nat :=
  (upTo 4).foldl (fun a d => a + (800 + 50 * k) * (Config.volt d k).toNat ^ 2) 0
def powerScaleNow (s : State) : Nat :=
  (upTo 4).foldl (fun a d => a + (s.diePw d).mhz.toNat * (s.diePw d).mv.toNat ^ 2) 0

/-- The point that the device runs at: the highest of its dies (DEDUCED, log 30). -/
def pointNow (s : State) : Nat := (upTo 4).foldl (fun a d => max a (s.diePw d).point.toNat) 0

/-- The hottest junction reading. -/
def hottest (s : State) : U32 :=
  (upTo 24).foldl (fun (a : U32) i => BitVec.ofNat 32 (fMax fF32 a.toNat (Tbl.get (0 : U32) s.pw.temps i).toNat).1) 0

/-- Does point k at duty j/8 meet p_next (R375)? Both sides are multiplied by w · 8 · the scale of the current point, so
that nothing is rounded; `e` is the period's sample. -/
def predOk (s : State) (e : Nat) (pnextW : Int) (k j : Nat) : Bool :=
  let hot := hottest s
  let dyn : Int := (e : Int) - Config.staticPower hot (pointNow s)
  let now : Int := powerScaleNow s
  decide (((Config.staticPower hot k : Int) * now * 8 + dyn * powerScale k * j) * s.pw.w.toNat ≤ pnextW * now * 8)

/-- The search of R375: the highest point at full duty, else the floor at the highest duty, else none. Duties move only rates here (DESIGN CHOICE, log 40). -/
def chooseCap (s : State) (e : Nat) (pnextW : Int) : Option (Nat × Nat) :=
  match ((countUp 1 64).reverse).find? fun k => predOk s e pnextW k 8 with
  | some k => some (k, 8)
  | none => (((countUp 1 8).reverse).find? fun j => predOk s e pnextW 0 j).map fun j => (0, j)

/-- The consumers of R385: rooms, solver units, atrium banks, HBM controllers, peer ports, each with its die pair. -/
def consumers : List Nat := upTo 428
def consumerDie (c : Nat) : Nat :=
  if c < 128 then c / 32 else if c < 144 then (c - 128) / 4 else if c < 400 then (c - 144) / 64
  else if c < 412 then (c - 400) / 3 else (c - 412) / 4

def addEnergy (t : Tbl U64) (k n : Nat) : Tbl U64 := Tbl.set t k (Tbl.get 0 t k + BitVec.ofNat 64 n)

/-- One consumer's share of a rail's energy (R385): to the partition that holds a tenant and its rings, else overhead. -/
def attributeShare (s : State) (c n : Nat) : State :=
  let p := s.ownerOfDie (consumerDie c)
  if (s.pst p).slot then
    let acts := (ringsOf p).map fun r => (Config.ringShare c r s.pw.periodCount).toNat
    let tot := max 65536 (acts.foldl (· + ·) 0)
    let f := fun (t : Tbl U64) (r : Nat) => addEnergy t r (n * (Config.ringShare c r s.pw.periodCount).toNat / tot)
    { s with pw := { s.pw with energyPart := addEnergy s.pw.energyPart p n, energyRing := (ringsOf p).foldl f s.pw.energyRing } }
  else { s with pw := { s.pw with energyOver := s.pw.energyOver + BitVec.ofNat 64 n } }

/-- Attribution of one rail's energy (R385): floors, the remainder to overhead (DEDUCED, log 31). -/
def attributeRail (s : State) (r e : Nat) : State :=
  let cs := consumers.filter fun c => (Config.railOf c).toNat == r
  let est := fun c => Config.consumerShare c s.pw.periodCount
  let t := cs.foldl (fun a c => a + est c) 0
  if t = 0 then { s with pw := { s.pw with energyOver := s.pw.energyOver + BitVec.ofNat 64 e } }
  else
    let s' := each cs s fun s c => attributeShare s c (e * est c / t)
    let given := cs.foldl (fun a c => a + e * est c / t) 0
    { s' with pw := { s'.pw with energyOver := s'.pw.energyOver + BitVec.ofNat 64 (e - given) } }

def Power.reg (p : Power) (i : Nat) : Regulator := Tbl.get {} p.regs i

/-- The device's measured energy of the period (R373). -/
def Power.sample (p : Power) : Nat := (upTo 16).foldl (fun a i => a + (p.reg i).rate.toNat) 0

/-- CONTROL_PERIOD (R373 to R377, R385). -/
def execControlPeriod (s : State) : Out :=
  act (s.clocked && s.pw.period) s fun s =>
    let e := s.pw.sample
    let (old, win) := popRun s.pw.window
    let sum := s.pw.sum - old + e
    let s := { s with pw := { s.pw with capNow := s.pw.cap, window := pushRun win e, sum := sum } }
    let w : Int := s.pw.w.toNat
    let pnextW : Int := min (2 * (1000 * s.pw.capNow.toNat : Nat) * w - sum) (2400000 * w)
    let best := chooseCap s e pnextW
    let (k, j) := best.getD (0, 1)
    let rises := best.isNone && !s.pw.unattainable
    let s := each (upTo 16) s fun s r => attributeRail s r (s.pw.reg r).rate.toNat
    let s := { s with pw := { s.pw with capPoint := BitVec.ofNat 7 k, capDuty := BitVec.ofNat 4 j, unattainable := best.isNone,
                                        lastSample := e, fastLimit := false, periodCount := s.pw.periodCount + 1,
                                        energyTotal := s.pw.energyTotal + BitVec.ofNat 64 e } }
    let s := each (upTo 4) s fun s d => retarget (s.updDie d fun q => { q with duty := BitVec.ofNat 4 j }) d
    let s := if best.isNone then latch s 0x01 else s
    if rises then logEvent s 0x0506 {} else s

/-! ### The fast limit (R378) -/

/-- Halves a die's frequency, to no less than 0.8 GHz; the glide resumes from the point nearest below. -/
def halveDie (s : State) (d : Nat) : State :=
  s.updDie d fun q =>
    let f := max 800 (q.mhz.toNat / 2)
    let k := BitVec.ofNat 7 ((f - 800) / 50)
    { q with mhz := BitVec.ofNat 16 f, point := k, target := k, pendingHalve := false }

/-- ACTIVITY_ESTIMATE (R378): an estimate of 1 µs, calibrated; when the trailing 2 ms reach 4.56 J every die is halved, a
die in a droop or its hold-off later (R380). -/
def execActivityEstimate (uj : BitVec 32) (s : State) : Out :=
  act s.clocked s fun s =>
    let (old, rest) := if runLength s.pw.fast < 2000 then (0, s.pw.fast) else popRun s.pw.fast
    let sum := s.pw.fastSum - old + uj.toNat
    let s := { s with pw := { s.pw with fast := pushRun rest uj.toNat, fastSum := sum } }
    if 4560000 ≤ sum && !s.pw.fastLimit then
      let s := latch { s with pw := { s.pw with fastLimit := true } } 0x02
      each (upTo 4) s fun s d =>
        let q := s.diePw d
        if q.droop || q.holdoff then s.updDie d fun q => { q with pendingHalve := true } else halveDie s d
    else s

/-! ### Droop (R379, R380) -/

/-- DROOP: a detector fires; the firing is counted and the die's clock stretched. -/
def execDroop (d : BitVec 2) (_group : BitVec 2) (s : State) : Out :=
  act s.clocked s fun s => s.updDie d.toNat fun q =>
    { q with droop := true, holdoff := false, droopCount := q.droopCount + 1,
             droopAt := if q.droop then q.droopAt else s.now, droopLogged := q.droop && q.droopLogged }

/-- DROOP_CLEAR: the stretch has been released; 64 ac of hold-off follow. -/
def execDroopClear (d : BitVec 2) (s : State) : Out :=
  act (s.clocked && (s.diePw d.toNat).droop) s fun s => s.updDie d.toNat fun q => { q with droop := false, holdoff := true }

/-- DROOP_HOLDOFF_END: what the droop held back acts. -/
def execDroopHoldoffEnd (d : BitVec 2) (s : State) : Out :=
  act (s.clocked && (s.diePw d.toNat).holdoff) s fun s =>
    let q := s.diePw d.toNat
    let s := s.updDie d.toNat fun q => { q with holdoff := false, pendingTarget := false, pendingHalve := false }
    let s := if q.pendingTarget then retarget s d.toNat else s
    if q.pendingHalve then halveDie s d.toNat else s

/-- PROLONGED_DROOP: more than 1 ms; logged, and the ceiling drops one step. -/
def execProlongedDroop (d : BitVec 2) (s : State) : Out :=
  let q := s.diePw d.toNat
  act (s.clocked && q.droop && !q.droopLogged && s.now > q.droopAt + 1000000) s fun s =>
    let s := logEvent s 0x0503 { unit := d.setWidth 8 }
    retarget (s.updDie d.toNat fun q => { q with droopLogged := true, ceiling := if q.ceiling = 0 then 0 else q.ceiling - 1 }) d.toNat

/-! ### Temperature (R381, R382) -/

/-- A reading above, at or above, at or below a whole number of degrees. -/
def degrees (n : Nat) : Nat := (roundPack fF32 .rne false n 0).1
def hotter (t : U32) (n : Nat) : Bool := (fLt fF32 (degrees n) t.toNat).1
def atLeast (t : U32) (n : Nat) : Bool := (fLe fF32 (degrees n) t.toNat).1
def atMost (t : U32) (n : Nat) : Bool := (fLe fF32 t.toNat (degrees n)).1

def setTemps (s : State) (base : Nat) (ts : List U32) : State :=
  { s with pw := { s.pw with temps := (upTo ts.length).foldl (fun t i => Tbl.set t (base + i) (ts.getD i 0)) s.pw.temps } }

def State.temp (s : State) (i : Nat) : U32 := Tbl.get 0 s.pw.temps i

/-- The sensors of CD d and BD d (DESIGN CHOICE, log 32) (DEDUCED, log 38). -/
def dieSensors (d : Nat) : List Nat := countUp (4 * d) 4 ++ countUp (16 + 2 * d) 2

/-- The ceiling of a die follows its hottest sensor, one step per 1 ms. -/
def thermalDie (s : State) (d : Nat) : State :=
  let ts := (dieSensors d).map s.temp
  let q := s.diePw d
  let step := s.since q.lastCeiling 1000000
  if ts.any fun t => hotter t 95 then
    let s := if q.hot then s else logEvent s 0x0501 { unit := BitVec.ofNat 8 d }
    let s := s.updDie d fun q => { q with hot := true }
    if step then
      retarget (s.updDie d fun q => { q with ceiling := if q.ceiling = 0 then 0 else q.ceiling - 1, lastCeiling := s.now }) d
    else s
  else if ts.all fun t => atMost t 93 then
    let s := s.updDie d fun q => { q with hot := false }
    if step && q.ceiling != 64 then
      retarget (s.updDie d fun q => { q with ceiling := q.ceiling + 1, lastCeiling := s.now }) d
    else s
  else s

/-- Refresh and admission rate of the stacks. -/
def thermalStacks (s : State) : State :=
  each (upTo 12) s fun s i =>
    let t := s.temp (24 + i)
    let half := if hotter t 95 then true else if atMost t 93 then false else s.pw.halfRate.getLsbD i
    { s with pw := { s.pw with refresh2x := putBits s.pw.refresh2x i (bit1 (hotter t 85)),
                               halfRate := putBits s.pw.halfRate i (bit1 half) } }

/-- A trip: any junction sensor at 115 °C or any stack at 105 °C. -/
def State.tripDue (s : State) : Bool :=
  ((upTo 24).any fun i => atLeast (s.temp i) 115) || ((upTo 12).any fun i => atLeast (s.temp (24 + i)) 105)

def tripIfDue (s : State) : State :=
  if s.tripDue && !s.boot.stopped then
    let s := latch { s with pw := { s.pw with thermtrip := true, trip := true } } 0x08
    shutdown s 0x0502 false
  else s

/-- THERMAL_READING (R381): the 24 junction sensors, every 100 µs. -/
def execThermalReading (temps : List (BitVec 32)) (s : State) : Out :=
  act s.clocked s fun s => tripIfDue (each (upTo 4) (setTemps s 0 (temps.take 24)) thermalDie)

/-- STACK_TEMPERATURE_READ (R370, R381): the 12 stacks, every 1 ms. -/
def execStackTemperatureRead (temps : List (BitVec 32)) (s : State) : Out :=
  act s.clocked s fun s => tripIfDue (thermalStacks (setTemps s 24 (temps.take 12)))

/-- COOL_OK_DEASSERT (R382): qualification begins. -/
def execCoolOkDeassert (s : State) : Out :=
  act s.ctl s fun s =>
    { s with pw := { s.pw with coolLowSince := match s.pw.coolLowSince with | some t => some t | none => some s.now } }

/-- COOLANT_STOP (R382): COOL_OK low for more than 100 µs, from B3 on (R442). -/
def execCoolantStop (s : State) : Out :=
  act (s.clocked && (match s.pw.coolLowSince with | some t => s.now > t + 100000 | none => false)) s fun s =>
    shutdown (latch { s with pw := { s.pw with coolantStop := true } } 0x04) 0x0504 false

/-- COOL_OK_ASSERT (R382): qualification ends; after a shutdown it restarts nothing. -/
def execCoolOkAssert (s : State) : Out :=
  act s.ctl s fun s => { s with pw := { s.pw with coolLowSince := none } }

/-! ### Regulators (R383) -/

/-- One regulator's part of a poll. -/
def pollOne (s : State) (x : RegReading) : State :=
  let i := x.reg.toNat
  let r := s.pw.reg i
  if r.addr = 0 then s
  else match x.eout with
    | some v =>
      let r := { r with rate := if r.known then v - r.eout else 0, eout := v, known := true, silent := 0, logged := false }
      let r := match x.telemetry with | some (a, b, c) => { r with vout := a, iout := b, temp := c } | none => r
      { s with pw := { s.pw with regs := Tbl.set s.pw.regs i r } }
    | none =>
      let n := r.silent + 1
      let s := { s with pw := { s.pw with regs := Tbl.set s.pw.regs i { r with silent := n, logged := r.logged || 3 ≤ n } } }
      if 3 ≤ n && !r.logged then logEvent s 0x0505 { unit := BitVec.ofNat 8 i } else s

/-- PMBUS_POLL (R383): readings of the regulators that the device has addresses for; one silent for three periods is
logged, and its last rate stands in its samples. -/
def execPmbusPoll (readings : List RegReading) (s : State) : Out :=
  act s.clocked s fun s =>
    let s := readings.foldl pollOne s
    let silent := (upTo 16).any fun i => 3 ≤ (s.pw.reg i).silent
    let s := { s with pw := { s.pw with silent := silent } }
    if silent then latch s 0x10 else s

end Sys2Proof.Machine
end

