-- ==== Sys2Proof/Machine/Security.lean ====
section
/-! DEFINITION. The security controller (15_tenancy_and_security R342 to R368): firmware checks, key import, checkpoint
parts, stop-image exports, attestation, debug unlock and the test-port rule. -/

namespace Sys2Proof

/-! ### Firmware images (R345, R346) -/

def FwImage.target (i : FwImage) : Nat := field i.header 32 16
def FwImage.version (i : FwImage) : Nat := field i.header 8 8
def FwImage.svn (i : FwImage) : U16 := bits i.header 48 16
def FwImage.length (i : FwImage) : Nat := field i.header 64 32
def FwImage.digest (i : FwImage) : BitVec 512 := bits i.header 512 512
def FwImage.bodyDigest (i : FwImage) : BitVec 512 := wordOf 512 (shake256 i.body 64)

end Sys2Proof

namespace Sys2Proof.Machine

/-- The number of the first check of R345 an image fails, 0 where it passes all. -/
def checkImage (svnMin : U16) (i : FwImage) : Nat :=
  if i.target != 0x0900 || i.version != 1 || i.length % 64 != 0 || 8 * 1048576 < i.length || i.body.length != i.length
      || field i.header 0 8 != 0 || field i.header 16 16 != 0 || field i.header 96 416 != 0 then 1
  else if wordOf 512 (shake256 i.vendorKey 64) != Config.vendorDigest then 2
  else if !Config.falconVerify i.vendorKey (bytesOf i.header) i.sig then 3
  else if i.bodyDigest != i.digest then 4
  else if i.svn.toNat < svnMin.toNat then 5
  else 0

/-- A write of 0x5006 (R346, R442). -/
def stageUpdate (s : State) : State × Byte :=
  if s.boot.stage == .b1 || s.boot.stage == .hold then (s, 0x16)
  else ({ s with boot := { s.boot with updating := true, staging := true, stagedOk := false, stagedFail := false } }, 0x00)

/-- STAGING_COMPLETE (R346). -/
def execStagingComplete (img : FwImage) (s : State) : Out :=
  act (s.fw && s.boot.staging) s fun s =>
    if checkImage s.boot.svnMin img = 0 then
      { s with boot := { s.boot with staging := false, stagedOk := true, stagedFail := false, stagedDigest := img.bodyDigest } }
    else { s with boot := { s.boot with staging := false, stagedOk := false, stagedFail := true } }

/-- A write of `v` to 0x5007 (R346). -/
def burnSvn (s : State) (v : U16) : State × Byte :=
  if s.boot.svnMin.toNat < v.toNat && v.toNat ≤ s.boot.svnRun.toNat then
    ({ s with boot := { s.boot with svnMin := v } }, 0x00)
  else (s, 0x13)

def Boot.fwFlags (b : Boot) : Nat := bnat b.updating + 2 * bnat b.stagedOk + 4 * bnat b.stagedFail

/-! ### Tenant key import (R349, R350) -/

/-- B, the slot binding (R342). -/
def slotBinding (q : PartSec) : List Byte := bytesOf q.slotId ++ bytesOf q.tslot

/-- An import message c ‖ W ‖ CHECK (R350): its code and effect. -/
def keyImport (s : State) (p : Nat) (msg : List Byte) : State × Byte :=
  let q := s.ps p
  match s.pst p, q.keys.importKey with
  | .keywait, some dk =>
    let ss := Config.kemDecaps dk (msg.take 1568)
    let w := (msg.drop 1568).take 32
    let chk := (msg.drop 1600).take 32
    let b := slotBinding q
    if kmac256 ss (b ++ w) 32 "DCG900 KEY CHECK" = chk then
      let kt := xorBytes w (kmac256 ss b 32 "DCG900 KEY WRAP")
      let keys := { q.keys with kT := some (wordOf 256 kt), kP := some (wordOf 256 (kmac256 kt [] 32 "DCG900 PROGRAM")),
                                kC := some (wordOf 256 (kmac256 kt b 32 "DCG900 CAPABILITY")), importKey := none }
      (s.updPs p fun q => { q with keys := keys, st := .sealed }, 0x00)
    else
      let n := q.failedImports + 1
      (s.updPs p fun q => { q with failedImports := n,
                                   keys := if n = 16 then { q.keys with importKey := none } else q.keys }, 0x13)
  | _, _ => (s, 0x16)

/-! ### Checkpoint parts (R354) -/

def modeNumber (m : PMode) : Nat := m.count

/-- Bits of a partition's enabled rings. -/
def State.ringMask (s : State) (p : Nat) : Nat :=
  (upTo 16).foldl (fun m r => m + bnat (s.ring (16 * p + r)).enabled * 2 ^ r) 0

/-- ROOMS of a stop image: the partition's rooms in service (R354). -/
def State.roomMask (s : State) (p : Nat) : Nat :=
  ((s.roomsOf p).filter fun n => !s.outOfService 0 n).foldl (fun m n => m + 2 ^ n) 0

/-- The 256-byte header of a checkpoint part (R354). -/
def partHeader (s : State) (p : Nat) (ckid : U32) (part : Nat) (reason : Nat) (g : Nat) (addr : Nat) (sreg rooms : Nat)
    (slotId : U32) (tslot : U64) (tk : U64) (tseal : U64) (tq : BitVec 2) : BitVec 2048 :=
  let w : BitVec 2048 := 0
  let w := putBits w 1280 slotId
  let w := putField w 1152 128 rooms
  let w := putBits w 1088 tseal
  let w := putBits w 1024 tslot
  let w := putBits w 960 tk
  let w := putBits w 896 idfp
  let w := putField w 848 48 addr
  let w := putField w 816 32 g
  let w := putField w 800 16 sreg
  let w := putField w 784 16 (s.ringMask p)
  let w := putField w 776 8 reason
  let w := putField w 768 8 p
  let w := putField w 760 8 (modeNumber s.mode)
  let w := putBits w 752 tq
  let w := putBits w 64 ckid
  let w := putField w 48 16 part
  putField w 0 8 1

/-- Ciphertext of body granule j (R354). -/
def ckEncrypt (keys : List Byte) (part j : Nat) (data : List Byte) : List Byte :=
  xtsEnc (keys.take 32) ((keys.drop 32).take 32) (part * 2 ^ 32 + j) data
def ckDecrypt (keys : List Byte) (part j : Nat) (data : List Byte) : List Byte :=
  xtsDec (keys.take 32) ((keys.drop 32).take 32) (part * 2 ^ 32 + j) data

/-- Tag of body granule j over its ciphertext (R354). -/
def ckTag (keys : List Byte) (ckid : U32) (part j : Nat) (ct : List Byte) : List Byte :=
  kmac256 (keys.drop 64) (bytesOf ckid ++ leBytes 2 part ++ leBytes 4 j ++ ct) 8 "DCG900 CHECKPOINT TAG"

/-- The trailer: the root tag and 32 zero bytes (R354). -/
def ckTrailer (keys : List Byte) (header tags : List Byte) : List Byte :=
  kmac256 (keys.drop 64) (header ++ tags) 32 "DCG900 CHECKPOINT ROOT" ++ List.replicate 32 0

/-- A whole part: header, body, tag block, trailer, from the plaintext granules (R354). -/
def ckPart (keys : List Byte) (ckid : U32) (part : Nat) (header : BitVec 2048) (body : List (List Byte)) : List Byte :=
  let cts := (upTo body.length).map fun j => ckEncrypt keys part j (body.getD j [])
  let tags := ((upTo body.length).map fun j => ckTag keys ckid part j (cts.getD j [])).flatten
  bytesOf header ++ cts.flatten ++ tags ++ ckTrailer keys (bytesOf header) tags

/-- A part as read: its header, its granules of ciphertext, its tags and its trailer. -/
structure CkRead where
  header : BitVec 2048
  g : Nat
  ct : Nat → List Byte
  tag : Nat → List Byte
  tags : List Byte
  trailer : List Byte

def readPart (bs : List Byte) : CkRead :=
  let h : BitVec 2048 := wordOf 2048 (bs.take 256)
  let g := field h 816 32
  let tags := (bs.drop (256 + 256 * g)).take (8 * g)
  { header := h, g := g, tags := tags
    ct := fun j => (bs.drop (256 + 256 * j)).take 256
    tag := fun j => (tags.drop (8 * j)).take 8
    trailer := (bs.drop (256 + 264 * g)).take 64 }

/-! ### Checkpoint jobs (R355) -/

/-- Checks 7 and 8 of R60 on a range: inside the partition and clear of its protected regions (R294). -/
def State.rangeOk (s : State) (p a n : Nat) : Bool :=
  s.pbase p ≤ a && a + n ≤ (if s.sealed p then s.tagBase p else s.descBase p)

/-- Does every enabled ring of the partition stand in STATE 0 with DONE = 0 and nothing dispatched (R58, R359)? -/
def State.ringsFresh (s : State) (p : Nat) : Bool :=
  (ringsOf p).all fun n => let r := s.ring n; !r.enabled || (r.st == .idle && r.done == 0 && r.ops.isEmpty)

/-- A write of 0x5040 (R355): a job begins, or fails at once with its cause in 0x5041 (R368) (DEDUCED, log 29). -/
def startJob (s : State) (p : Nat) (w : BitVec 512) : State × Byte :=
  let q := s.ps p
  if q.job.isSome then (s, 0x16)
  else
    let op := field w 0 8
    let j : CkJob := { op := bits w 0 8, part := bits w 272 16, ckid := bits w 288 32, granules := bits w 320 32,
                       caddr := bits w 352 64, addr := bits w 416 48 }
    let code : Byte := if field w 464 48 != 0 || field w 8 264 != 0 then 0x01 else 0x00
    let fail := fun (c : U16) => (s.updPs p fun q => { q with jobStatus := statusWord 3 op c 0 0 s.stamp }, code)
    if op = 0 || 3 < op || (op = 3 && j.part != 0) || (op != 3 && j.part = 0) || j.caddr.toNat % 64 != 0
        || j.addr.toNat % 256 != 0 || (op != 3 && !s.rangeOk p j.addr.toNat (256 * j.granules.toNat)) then fail 0x1001
    else if s.pst p != .sealed then fail 0x1002
    else if op = 3 && !s.ringsFresh p then fail 0x1002
    else
      let keys := kmac256 (keyBytes q.keys.kT) (bytesOf j.ckid) 96 "DCG900 CHECKPOINT"
      (s.updPs p fun q => { q with job := some { j with keys := keys }, jobStatus := statusWord 1 op 0 0 0 0 }, code)

/-- How a job came out, to be reported when it ends. -/
def jobResult (s : State) (p : Nat) (cause : U16) (done failing : U32) : State :=
  s.updPs p fun q => { q with job := q.job.map fun j => { j with result := some (cause, failing), done := done } }

/-- The first granule of an export's range that is poisoned or refuses the read (R355). -/
def badSource (s : State) (a g : Nat) : Option Nat :=
  (upTo g).find? fun j => s.poisonAt (a + 256 * j) 256 || (s.accessStop (a + 256 * j)).isSome

/-- The record of an access that was refused, if it was (R314). -/
def noteRefused (s : State) (a : Nat) : State := if (s.accessStop a).isSome then recordRefused s a else s

/-- EXPORT_RANGE (R355): the newest bytes of each granule leave as a protected part. A job that runs goes on until T (R360). -/
def execExportRange (p : BitVec 2) (s : State) : Out :=
  let q := s.ps p.toNat
  act (s.up && (s.pst p.toNat).tenanted &&
      (match q.job with | some j => j.op == 1 && j.result.isNone | none => false)) s fun s =>
    match q.job with
    | none => s
    | some j =>
      let g := j.granules.toNat
      match badSource s j.addr.toNat g with
      | some b => jobResult (noteRefused s (j.addr.toNat + 256 * b)) p.toNat 0x1003 (BitVec.ofNat 32 b) (BitVec.ofNat 32 b)
      | none =>
        if !s.link.up then jobResult s p.toNat 0x1006 0 0
        else
          let h := partHeader s p.toNat j.ckid j.part.toNat 0 g j.addr.toNat 0 0 q.slotId q.tslot (tkfp q.keys) s.stamp s.tq
          let body := (upTo g).map fun i => s.bytesAt (j.addr.toNat + 256 * i) 256
          let s := touch s j.addr.toNat (256 * g)
          let s := linkWrite s j.caddr.toNat (ckPart j.keys j.ckid j.part.toNat h body)
          jobResult s p.toNat 0 j.granules 0

/-- Verifies and writes granules from `j` up; the first whose tag fails ends the import (R355) (DEDUCED, log 37). -/
def importLoop (keys : List Byte) (ckid : U32) (part a : Nat) (r : CkRead) : Nat → Nat → State → State × Option Nat
  | 0, _, s => (s, none)
  | n + 1, j, s =>
    if ckTag keys ckid part j (r.ct j) != r.tag j || (s.accessStop (a + 256 * j)).isSome then (s, some j)
    else importLoop keys ckid part a r n (j + 1) (storeBytes s (a + 256 * j) (ckDecrypt keys part j (r.ct j)))

/-- Are the reserved bits of a part's header zero (R354) (DEDUCED, log 37)? -/
def headerReserved (h : BitVec 2048) : Bool := field h 1312 736 == 0 && field h 754 6 == 0 && field h 96 656 == 0 && field h 8 40 == 0

/-- IMPORT_RANGE (R355). -/
def execImportRange (p : BitVec 2) (part : List Byte) (s : State) : Out :=
  let q := s.ps p.toNat
  act (s.up && (s.pst p.toNat).tenanted &&
      (match q.job with | some j => j.op == 2 && j.result.isNone | none => false)) s fun s =>
    match q.job with
    | none => s
    | some j =>
      let r := readPart part
      let g := j.granules.toNat
      if part.length != 320 + 264 * g then jobResult s p.toNat 0x1006 0 0
      else if r.g != g || !headerReserved r.header || field r.header 0 8 != 1 || field r.header 48 16 != j.part.toNat
          || bits r.header 64 32 != j.ckid || bits r.header 960 64 != tkfp q.keys then jobResult s p.toNat 0x1005 0 0
      else
        match importLoop j.keys j.ckid j.part.toNat j.addr.toNat r g 0 s with
        | (s, some b) => jobResult (noteRefused s (j.addr.toNat + 256 * b)) p.toNat 0x1004 (BitVec.ofNat 32 b) (BitVec.ofNat 32 b)
        | (s, none) =>
          if ckTrailer j.keys (bytesOf r.header) r.tags != r.trailer then jobResult s p.toNat 0x1004 j.granules 0
          else jobResult s p.toNat 0 j.granules 0

/-- A ring as a stop image restores it: in STATE 3, with the sequences and stopped work it had at sealing (R359). -/
def Ring.restore (r img : Ring) : Ring :=
  { r with done := img.done, nextSeq := img.nextSeq, fetchSeq := img.nextSeq, tail := img.done, head := img.done,
           fetched := [], ops := [], stoppedOps := img.stoppedOps, st := if r.enabled then .stopped else r.st, fresh := false }

/-- Installs what a stop image carries (R356, R359). -/
def installImage (s : State) (p : Nat) (i : PartImage) : State :=
  let s := s.updSched p fun q => { i.sched with sreg := q.sreg, sregNew := q.sregNew, defer := q.defer }
  let s := s.updPeer p fun q => { q with epoch := i.epoch }
  let s := i.rings.foldl (fun s e => s.updRing e.1 fun r => r.restore e.2) s
  i.rooms.foldl (fun s e => s.updRoom e.1 fun _ => e.2) s

/-- Does a stop image's header match the partition (R359)? -/
def headerMatches (s : State) (p : Nat) (h : BitVec 2048) : Bool :=
  headerReserved h && field h 0 8 == 1 && field h 48 16 == 0 && field h 760 8 == modeNumber s.mode && field h 768 8 == p
    && field h 1152 128 == s.roomMask p && field h 800 16 == (s.sched p).sreg.toNat && field h 784 16 == s.ringMask p
    && bits h 960 64 == tkfp (s.ps p).keys

/-- The partition holds no program (R359). -/
def State.noPrograms (s : State) (p : Nat) : Bool := (s.sched p).programs.isEmpty

/-- IMPORT_STOP_IMAGE (R359): the image is verified and installed; on any failure what was written is cleared. -/
def execImportStopImage (p : BitVec 2) (part : List Byte) (s : State) : Out :=
  let q := s.ps p.toNat
  act (s.up && s.pst p.toNat == .sealed &&
      (match q.job with | some j => j.op == 3 && j.result.isNone | none => false)) s fun s =>
    match q.job with
    | none => s
    | some j =>
      let r := readPart part
      if !s.noPrograms p.toNat || !s.ringsFresh p.toNat then jobResult s p.toNat 0x1002 0 0
      else if part.length < 320 || part.length != 320 + 264 * r.g then jobResult s p.toNat 0x1006 0 0
      else if !headerMatches s p.toNat r.header || bits r.header 64 32 != j.ckid then jobResult s p.toNat 0x1005 0 0
      else
        match (upTo r.g).find? fun i => ckTag j.keys j.ckid 0 i (r.ct i) != r.tag i with
        | some b => jobResult (resetRooms (formState s p.toNat) p.toNat) p.toNat 0x1004 (BitVec.ofNat 32 b) (BitVec.ofNat 32 b)
        | none =>
          if ckTrailer j.keys (bytesOf r.header) r.tags != r.trailer then
            jobResult (resetRooms (formState s p.toNat) p.toNat) p.toNat 0x1004 (BitVec.ofNat 32 r.g) 0
          else
            let body := ((upTo r.g).map fun i => ckDecrypt j.keys 0 i (r.ct i)).flatten
            jobResult (installImage s p.toNat (decodeImage body)) p.toNat 0 (BitVec.ofNat 32 r.g) 0

/-- CHECKPOINT_JOB_END (R355, R367): the status entry takes the outcome and the job's keys are gone. -/
def execCheckpointJobEnd (p : BitVec 2) (s : State) : Out :=
  let q := s.ps p.toNat
  act (s.up && (match q.job with | some j => j.result.isSome | none => false)) s fun s =>
    s.updPs p.toNat fun q => match q.job with
      | some j => match j.result with
        | some (c, b) => { q with job := none,
                                  jobStatus := statusWord (if c = 0 then 2 else 3) j.op.toNat c j.done b s.stamp }
        | none => q
      | none => q

/-! ### Stop-image exports (R357, R358) -/

/-- A RESUMEGEN change that an export held back takes effect (R357). -/
def releaseResumes (s : State) (p : Nat) : State :=
  let s := s.updPs p fun q => { q with holdResume := false }
  each (ringsOf p) s fun s n =>
    let r := s.ring n
    if r.resumePend && r.st == .stopped then runOrIdle (s.updRing n Ring.resumed) n else s

/-- What follows the end of an export, complete or abandoned: keys destroyed, held resumes and scrub steps proceed. -/
def finishExport (s : State) (p : Nat) (status : BitVec 256) : State :=
  let s := { s with frozen := Tbl.erase s.frozen p }
  let s := s.updPs p fun q => { q with exporting := none, exportStatus := status, keys := q.keys.endCheckpoint }
  scrubClear (releaseResumes s p) p

def chunk256 (n : Nat) (bs : List Byte) : List (List Byte) := (upTo n).map fun j => padTo 256 ((bs.drop (256 * j)).take 256)

/-- EXPORT_END (R358): the image has gone to companion memory. -/
def execExportEnd (p : BitVec 2) (s : State) : Out :=
  let q := s.ps p.toNat
  act (s.ctl && q.exporting.isSome && s.link.up && s.exists_ p.toNat) s fun s =>
    match q.exporting with
    | none => s
    | some e =>
      let img := Tbl.get {} s.frozen p.toNat
      let keys := keyBytes q.keys.c1 ++ keyBytes q.keys.c2 ++ keyBytes q.keys.cM
      let rooms := (img.rooms.map (·.1)).foldl (fun m n => m + 2 ^ n) 0
      let h := partHeader s p.toNat e.ckid 0 e.reason.toNat e.granules.toNat (s.pbase p.toNat) img.sched.sreg.toNat rooms
        e.slotId e.tslot e.tkfp e.tseal e.tq
      let s := linkWrite s e.addr.toNat (ckPart keys e.ckid 0 h (chunk256 e.granules.toNat (encodeImage img)))
      finishExport s p.toNat (statusWord 2 1 0 e.granules 0 s.stamp)

/-- EXPORT_ABANDONED (R358): an export not complete at T + 56 ms is void. -/
def execExportAbandoned (p : BitVec 2) (s : State) : Out :=
  let q := s.ps p.toNat
  act (s.ctl && (match q.exporting with
      | some e => (match e.deadline with | some t => t.toNat + 56000000 ≤ s.time.counter.toNat | none => false)
      | none => false)) s fun s =>
    finishExport s p.toNat (statusWord 4 1 0x1007 0 0 s.stamp)

/-! ### Attestation (R363) -/

/-- A partition's 64-byte record. -/
def partRecord (s : State) (p : Nat) : BitVec 512 :=
  let q := s.ps p
  let st := s.pst p
  let w : BitVec 512 := 0
  let w := if st == .keywait then putBits w 256 (wordOf 256 (shake256 q.ek 32)) else w
  let w := putBits w 192 q.tslot
  let w := putBits w 128 (skfp q.keys)
  let w := putBits w 64 (tkfp q.keys)
  let w := putBits w 32 q.slotId
  putField w 0 4 st.code.toNat

/-- Bytes 0 to 511 of a report: the device's state in one CK_CTL cycle. -/
def reportBody (s : State) (cls : Nat) (nonce : BitVec 256) (seq : U32) : List Byte :=
  let b := s.boot
  let w : BitVec 2048 := 0
  let w := putBits w 1792 nonce
  let w := putBits w 1280 b.runDigest
  let w := putBits w 768 (if b.stagedOk then b.stagedDigest else 0)
  let w := putBits w 640 s.ident.roomsPresent
  let w := putBits w 576 s.stamp
  let w := putBits w 512 idfp
  let w := putBits w 480 seq
  let w := putBits w 464 s.ident.unitsPresent
  let w := putBits w 448 b.svnMin
  let w := putBits w 432 b.svnRun
  let w := putField w 424 8 (bnat s.sec.debug)
  let w := putField w 416 8 b.fwFlags
  let w := putField w 408 8 (modeNumber s.mode)
  let w := putField w 400 8 (if s.ident.grade == .a then 0 else 1)
  let w := putField w 392 8 cls
  let w := putBits w 16 s.tq
  let w := putField w 0 8 1
  bytesOf w ++ ((upTo 4).map fun p => bytesOf (partRecord s p)).flatten

/-- A nonce written by class `cls` (R363): refused as busy while that class's report is being formed. -/
def writeNonce (s : State) (cls : Nat) (nonce : BitVec 256) : State × Byte :=
  if Tbl.has s.sec.forming cls then (s, 0x15)
  else
    let seq := s.sec.attSeq + 1
    ({ s with sec := { s.sec with attSeq := seq, forming := Tbl.set s.sec.forming cls ⟨reportBody s cls nonce seq⟩ } }, 0x00)

/-- REPORT_COMPLETE (R363): the signed report replaces the previous one. -/
def execReportComplete (cls : BitVec 2) (s : State) : Out :=
  act (s.fw && Tbl.has s.sec.forming cls.toNat) s fun s =>
    match Tbl.find s.sec.forming cls.toNat with
    | none => s
    | some r =>
      let (k, s) := s.takeFree
      { s with sec := { s.sec with forming := Tbl.erase s.sec.forming cls.toNat,
                                   reports := Tbl.set s.sec.reports cls.toNat (r.body ++ padTo 1280 (Config.falconSign k r.body)) } }

/-! ### Debug unlock and the test port (R365, R366) -/

/-- The keys of a partition are destroyed and it is scrubbed, its jobs and exports void (R360). -/
def destroyAndScrub (s : State) (p : Nat) : State :=
  startScrub (s.updPs p fun q => PartSec.voidJobs s q) p .scrub

/-- A debug token of 1,344 bytes (R365): its code and effect. The challenge is renewed either way (DESIGN CHOICE, log 28). -/
def writeToken (s : State) (tok : List Byte) : State × Byte :=
  let body := tok.take 64
  let sig := tok.drop 64
  let ok := decide (body.take 32 = bytesOf s.sec.challenge) && decide ((body.drop 32).take 8 = bytesOf idfp)
    && allZero (body.drop 40) && Config.falconVerify s.boot.vendorKey body sig
  let (c, s) := freshKey s
  let s := { s with sec := { s.sec with challenge := c } }
  if !ok then (logEvent s 0x0000 {}, 0x13)
  else
    let was := s.parts.filter fun p => (s.pst p).tenanted
    let s := each (upTo 4) s fun s p => s.updPs p fun q => { PartSec.voidJobs s q with keys := {} }
    let s := each (upTo 4) s scrubClear
    let s := each was s fun s p => startScrub s p .scrub
    ({ s with sec := { s.sec with debug := true } }, 0x00)

/-- The test-port rule (R366): what any instruction but BYPASS, IDCODE and SAMPLE does to partitions under keys. -/
def testPortRule (s : State) : State :=
  each (s.parts.filter fun p => (s.pst p).tenanted) s destroyAndScrub

end Sys2Proof.Machine
end

