-- ==== Sys2Proof/Machine/Boot.lean ====
section
/-! DEFINITION. Reset kinds, stages of bring-up and firmware load (19_reset_and_bring_up), power removal (16 R384). -/

namespace Sys2Proof.Machine

/-! ### What each reset keeps (R432, R433) -/

/-- What no reset clears: fuses, the sender's queue and the model's own counters (DEDUCED, log 36). -/
def coldState (s : State) (stage : Stage) : State :=
  { State.reset with
    pending := s.pending
    free := s.free
    ident := s.ident
    boot := { svnMin := s.boot.svnMin, stage := stage }
    time := { now := s.time.now, ticks := s.time.ticks } }

/-- A power-on reset (R431): the whole device, stage B0 while PORESET_N is low. -/
def powerOn (s : State) : State :=
  let (c, s) := freshKey s
  let t := coldState s .b0
  { t with boot := { t.boot with poresetLow := true }, link := { t.link with up := false, gen := 0 }, sec := { challenge := c } }

/-- The blocked-granule table and the limits of 0x9010 to 0x9013, kept over a device reset (R433). -/
def keepMem (m : MemSys) : MemSys :=
  { blocked := m.blocked, bankW := m.bankW, bankH := m.bankH, egressW := m.egressW, egressH := m.egressH }

/-- What a device reset keeps of a partition number: seal mode, guard; solver region and deferral limit; sample divisor and
peer timeout (R433). -/
def keepPs (q : PartSec) : PartSec := { sealMode := q.sealMode, guard := q.guard }

/-- A device reset (R431 to R433): bring-up starts again at B1. -/
def deviceReset (s : State) : State :=
  let (c, s) := freshKey s
  let t := coldState s .b1
  { t with
    boot := { t.boot with warm := true, nodeId := s.boot.nodeId, clgen := s.boot.clgen, fwsrc := s.boot.fwsrc,
                          imageSrc := if s.boot.fwsrc then 2 else 0, bootLineUp := s.boot.fwsrc }
    mode := s.pendingMode.getD s.mode
    psec := s.psec.map fun e => (e.1, keepPs e.2)
    psched := s.psched.map fun e => (e.1, { sreg := e.2.sregNew, sregNew := e.2.sregNew, defer := e.2.defer })
    ppeer := s.ppeer.map fun e => (e.1, e.2.formed)
    mem := keepMem s.mem
    link := { t.link with up := false, gen := 0 }
    ports := s.ports.map fun e => (e.1, { limit := e.2.limit })
    rank := s.rank
    sec := { challenge := c }
    pw := { cap := s.pw.cap, capNow := s.pw.cap, w := s.pw.w, window := [(s.pw.w.toNat, 1000 * s.pw.cap.toNat)],
            sum := s.pw.w.toNat * (1000 * s.pw.cap.toNat), thermtrip := s.pw.thermtrip, coolLowSince := s.pw.coolLowSince,
            regs := s.pw.regs.map fun e => (e.1, { addr := e.2.addr }) }
    can := { arbNew := s.can.arbNew, dataNew := s.can.dataNew, arb := s.can.arbNew, data := s.can.dataNew,
             hbPeriod := s.can.hbPeriod, threshold := s.can.threshold }
    log := s.log
    svc := { thresholds := s.svc.thresholds }
    tap := s.tap }

/-- POWER_ON_RESET: PORESET_N low. -/
def execPowerOnReset (s : State) : Out := act true s powerOn

/-- PORESET_RELEASE (R430, R434): the straps are sampled and the control region is released. -/
def execPoresetRelease (nodeId : BitVec 7) (clgen : BitVec 2) (fwsrc : Bool) (s : State) : Out :=
  act (s.boot.stage == .b0) s fun s =>
    let s := { s with boot := { s.boot with stage := .b1, poresetLow := false, warm := false, nodeId := nodeId, clgen := clgen,
                                            fwsrc := fwsrc, imageSrc := if fwsrc then 2 else 0, bootLineUp := fwsrc } }
    if nodeId = 0 then logEvent s 0x1102 { sev := 4 } else s

/-- DEVICE_RESET: RESET_N rises, or a write of 0xA5 to 0x1020. -/
def execDeviceReset (s : State) : Out := act s.ctl s deviceReset

/-- FIRMWARE_START (R434, R345): a checked image starts. B2 configures the field bus and trains the companion link, at best at
generation `gen`, 0 for a training that fails (R317); it ends at once after a device reset, else in HOLD. -/
def execFirmwareStart (start : FwStart) (s : State) : Out :=
  act (s.boot.stage == .b1 && checkImage s.boot.svnMin start.img == 0) s fun s =>
    { s with
      boot := { s.boot with stage := if s.boot.warm then .b3 else .hold, runDigest := start.img.bodyDigest, svnRun := start.img.svn,
                            vendorKey := start.img.vendorKey, bootLineUp := false, bootLine := 0 }
      link := { s.link with up := start.gen != 0 && !s.tap.held, gen := s.trained start.gen }
      can := { s.can with first := true } }

/-- FIRMWARE_IMAGE_REJECTED (R435, R436): the primary flash image gives way to the backup, the backup to the boot line; a
failed load over the link leaves its STATUS there. -/
def execFirmwareImageRejected (status : BitVec 8) (s : State) : Out :=
  act (s.boot.stage == .b1) s fun s =>
    let b := s.boot
    match b.imageSrc.toNat with
    | 0 => { s with boot := { b with imageSrc := 1 } }
    | 1 => { s with boot := { b with imageSrc := 2, bootLineUp := true, bootLine := putField b.bootLine 32 8 1 } }
    | _ => { s with boot := { b with bootLine := putField (putBits b.bootLine 40 status) 32 8 2 } }

/-- BOOT_LINE_REQUEST (R436): a store that changes REQID starts a load of the image at ADDR. STATUS and SOURCE are the
device's own. -/
def execBootLineRequest (line : BitVec 512) (s : State) : Out :=
  act (s.boot.stage == .b1 && s.boot.bootLineUp) s fun s =>
    let b := s.boot
    let l := putBits (putBits line 40 (bits b.bootLine 40 8)) 32 (bits b.bootLine 32 8)
    let l := if field line 0 16 != field b.bootLine 0 16 then putField (putField l 40 8 1) 32 8 2 else l
    { s with boot := { b with bootLine := l } }

/-- PLL_LOCK (R434): B3 ends with the first control period; the supplies stand at point 0. -/
def execPllLock (s : State) : Out :=
  act (s.boot.stage == .b3 && !s.boot.stopped) s fun s =>
    let s := { s with boot := { s.boot with stage := .b4 }, pw := { s.pw with period := true, pmbusLocked := true } }
    each (upTo 4) s fun s d => s.updDie d fun q => { q with mv := Config.volt d 0 }

/-- SELF_TEST_DONE (R434): every unit that failed is out of service with 0x0806; then the partitions are formed. -/
def execSelfTestDone (failed : List (BitVec 3 × BitVec 9)) (s : State) : Out :=
  act (s.boot.stage == .b4 && !s.boot.stopped) s fun s =>
    let s := failed.foldl (fun s u =>
      if s.fusedOff u.1.toNat u.2.toNat || classSize u.1.toNat ≤ u.2.toNat then s
      else
        let s := { s with svc := { s.svc with out := insertNat (unitId u.1.toNat u.2.toNat) s.svc.out } }
        logEvent s 0x0806 { sev := 1, unit := unitField u.1.toNat u.2.toNat }) s
    { s with boot := { s.boot with stage := .b5, toForm := s.parts } }

/-- May partition `p` be formed now: its turn in B5, or the end of a reset whose rooms are zeroed (R434, R438)? -/
def State.mayForm (s : State) (p : Nat) : Bool :=
  !s.boot.stopped &&
    ((s.boot.stage == .b5 && s.boot.toForm.head? == some p) ||
     (s.up && s.pst p == .resetting && (s.ps p).scrub.isNone && s.roomsClear p))

/-- PARTITION_FORMATION (R434, R438). -/
def execPartitionFormation (p : BitVec 2) (s : State) : Out :=
  act (s.mayForm p.toNat) s fun s =>
    let s := formPart s p.toNat
    if s.boot.stage == .b5 then
      let rest := s.boot.toForm.drop 1
      { s with boot := { s.boot with toForm := rest, stage := if rest.isEmpty then .running else .b5 } }
    else s

/-- PARTITION_RESET (R438): a reset written by a master, or the device's answer to an uncorrectable error in the
partition's scheduler state (R422). -/
def execPartitionReset (p : BitVec 2) (uncorrectable : Bool) (s : State) : Out :=
  let st := s.pst p.toNat
  act (s.up && st != .absent && st != .resetting && st != .scrub) s fun s =>
    partReset (if uncorrectable then logEvent s 0x0809 { sev := 3, part := some p.toNat } else s) p.toNat

/-- ROOM_ZEROING_COMPLETE (R439): the room may issue again. -/
def execRoomZeroingComplete (room : BitVec 7) (s : State) : Out :=
  act (s.room room.toNat).zeroing s fun s => s.updRoom room.toNat fun r => { r with zeroing := false }

/-- MODE_CHANGE (R30): the first instant with no open slot and no scrub. -/
def execModeChange (s : State) : Out :=
  act (s.up && !s.anySlot && !s.scrubbing && s.pendingMode.isSome) s fun s =>
    match s.pendingMode with
    | some m => changeMode s m
    | none => s

/-- POWER_REMOVAL (R384): everything volatile is lost; the fuses remain. -/
def execPowerRemoval (s : State) : Out := act true s fun s => let t := coldState s .off; { t with link := { t.link with up := false, gen := 0 } }

end Sys2Proof.Machine
end

