-- ==== Sys2Proof/Machine/Dict.lean ====
section
/-! DEFINITION. The object dictionary (17_object_dictionary R390 to R409): which entries exist, who may read and write
them, what a read returns and what a write does; cycles, and writes that contradict one another. -/

namespace Sys2Proof.Machine

/-- The access codes of R10. -/
inductive Acc where
  | ro | rw | w1c | wo | rwl
deriving DecidableEq, Repr

/-- An entry: its size in bytes, its access code and the classes that may write it (0 tray, 1 companion, 2 tenant, 3
test). -/
structure Entry0 where
  size : Nat
  acc : Acc
  writers : List Nat := []
deriving DecidableEq, Repr

def Src.cls : Src → Nat
  | .tray => 0 | .companion _ => 1 | .tenant _ => 2 | .test => 3

def ro (n : Nat) : Option Entry0 := some { size := n, acc := .ro }
def rw (n : Nat) (w : List Nat) : Option Entry0 := some { size := n, acc := .rw, writers := w }
def wo (n : Nat) (w : List Nat) : Option Entry0 := some { size := n, acc := .wo, writers := w }

def when (b : Bool) (x : Option Entry0) : Option Entry0 := if b then x else none

/-- The entry at an index and subindex, if some chapter defines it (R390). -/
def entryAt (i sub : Nat) : Option Entry0 :=
  let z := sub == 0
  let p := decide (sub < 4)
  if 0x6100 ≤ i && i < 0x6200 then when z (if i < 0x61C0 then rw 16 [0, 1] else ro 16)
  else if 0x7010 ≤ i && i < 0x7050 then when z (ro 8)
  else if 0x7100 ≤ i && i < 0x7140 then when (decide (sub < 3)) (ro 96)
  else if 0x7140 ≤ i && i < 0x7180 then when z (rw 4 [1, 2])
  else if 0x8100 ≤ i && i < 0x8104 then rw 8 [0, 1]
  else if 0x9040 ≤ i && i < 0x9080 then when z (some { size := 48, acc := .rwl, writers := [1] })
  else if 0x9080 ≤ i && i < 0x90C0 then when z (rw 1 [1])
  else match i with
  | 0x1000 => when z (ro 16)
  | 0x1001 => when z (ro 32)
  | 0x1002 => when z (ro 8)
  | 0x1003 => when z (ro 2)
  | 0x1004 => when z (ro 1)
  | 0x1005 => when z (ro 2)
  | 0x1006 => when z (ro 1)
  | 0x1010 => when z (rw 2 [0])
  | 0x1011 => when z (rw 2 [0])
  | 0x1017 => when z (rw 2 [0, 1])
  | 0x1018 => when z (rw 1 [0])
  | 0x1020 => when z (wo 1 [0, 1])
  | 0x1030 => when z (ro 16)
  | 0x1031 => when z (ro 20)
  | 0x2000 => when z (ro 1)
  | 0x2001 => when z (ro 2)
  | 0x2002 => when z (ro 16)
  | 0x2003 => when z (ro 2)
  | 0x2004 => when z (ro 2)
  | 0x2005 => when z (ro 2)
  | 0x2006 => when z (ro 4)
  | 0x2007 => when z (ro 16)
  | 0x3000 => when z (rw 2 [0, 1])
  | 0x3001 => when z (rw 4 [0, 1])
  | 0x3002 => when z (ro 1)
  | 0x3003 => when z (some { size := 1, acc := .w1c, writers := [0, 1] })
  | 0x3004 => when z (ro 4)
  | 0x3005 => when z (ro 4)
  | 0x3006 => when p (ro 1)
  | 0x3008 => when p (ro 2)
  | 0x3009 => when p (ro 3)
  | 0x3010 => when p (ro 130)
  | 0x3020 => when (decide (sub < 36)) (ro 4)
  | 0x3040 => when p (ro 4)
  | 0x3050 => when (decide (sub < 16)) (some { size := 1, acc := .rwl, writers := [0] })
  | 0x4000 => when z (rw 1 [0, 1])
  | 0x4001 => when z (ro 1)
  | 0x4010 => when p (wo 1 [0, 1])
  | 0x4030 => when p (rw 4 [0, 1])
  | 0x4031 => when p (rw 1 [1, 2])
  | 0x5000 => when z (ro 1793)
  | 0x5001 => when z (ro 8)
  | 0x5002 => when z (ro 133)
  | 0x5004 => when z (ro 1)
  | 0x5006 => when z (wo 1 [0, 1])
  | 0x5007 => when z (wo 2 [0])
  | 0x5010 => when p (rw 1 [0, 1])
  | 0x5011 => when p (ro 1)
  | 0x5020 => when p (ro 1568)
  | 0x5021 => when p (wo 1632 [1])
  | 0x5022 => when p (ro 1)
  | 0x5030 => when p (rw 4 [2])
  | 0x5031 => when p (rw 8 [1, 2])
  | 0x5040 => when p (wo 64 [2])
  | 0x5041 => when p (ro 32)
  | 0x5042 => when p (ro 32)
  | 0x5050 => when p (wo 32 [sub])
  | 0x5051 => when p (ro 1792)
  | 0x5060 => when z (ro 32)
  | 0x5061 => when z (wo 1344 [0, 3])
  | 0x6000 => when z (ro 8)
  | 0x6001 => when z (ro 1)
  | 0x6002 => when p (rw 4 [0, 1])
  | 0x6003 => when z (ro 4)
  | 0x7000 => when p (ro 8)
  | 0x7004 => when z (ro 8)
  | 0x7005 => when z (ro 8)
  | 0x8000 => when z (ro 10)
  | 0x8001 => when p (ro 1024)
  | 0x8002 => when p (rw 4 [sub])
  | 0x8040 => when p (ro 48)
  | 0x8060 => when z (ro 4)
  | 0x8061 => when (decide (sub < 16)) (ro 32)
  | 0x8070 => when (sub == 0 || sub == 1 || sub == 2 || sub == 4) (rw 4 [0, 1])
  | 0x8072 => when (decide (sub < 128)) (ro 8)
  | 0x8080 => match sub % 8 with
    | 0 => when (decide (sub < 16)) (ro 16)
    | 1 => when (decide (sub < 16)) (ro 2)
    | 2 => when (decide (sub < 16)) (ro 48)
    | 3 => when (decide (sub < 16)) (ro 8)
    | 4 => when (decide (sub < 16)) (ro 2)
    | _ => none
  | 0x8090 => when z (wo 4 [0, 1])
  | 0x8104 => when z (ro 2)
  | 0x9000 => when z (some { size := 2, acc := .rwl, writers := [0] })
  | 0x9001 => when (decide (sub < 16)) (ro 4)
  | 0x9002 => when (decide (sub < 16)) (rw 1 [0])
  | 0x9003 => when p (rw 2 [0, 1, 2])
  | 0x9004 => when p (ro 4)
  | 0x9005 => when (decide (sub < 16)) (ro 24)
  | 0x9006 => when p (rw 4 [1, 2])
  | 0x9010 => when z (rw 1 [0, 1])
  | 0x9011 => when z (rw 1 [0, 1])
  | 0x9012 => when z (rw 1 [0, 1])
  | 0x9013 => when z (rw 1 [0, 1])
  | 0x9020 => when (decide (sub < 12)) (ro 16)
  | 0x9021 => when p (ro 16)
  | 0x9022 => when p (ro 32)
  | 0x9030 => when z (some { size := 8, acc := .rwl, writers := [1] })
  | 0x9031 => when p (rw 1 [0, 1])
  | 0x9032 => when z (ro 8)
  | _ => none

/-- The entries a tenant of partition `p` reaches (R391). -/
def tenantReaches (p i sub : Nat) : Bool :=
  if (0x2000 ≤ i && i ≤ 0x2007) || i == 0x6000 || i == 0x6001 then sub == 0
  else if i == 0x4031 || i == 0x5011 || i == 0x5022 || (0x5030 ≤ i && i ≤ 0x5042) || i == 0x8040 || i == 0x9003
      || i == 0x9004 || i == 0x9006 || i == 0x7000 then sub == p
  else if i == 0x5050 || i == 0x5051 || i == 0x8001 || i == 0x8002 then sub == 2
  else
    let mine := fun base => base + 16 * p ≤ i && i < base + 16 * p + 16
    mine 0x7010 || mine 0x7100 || mine 0x7140

/-! ### What entries hold -/

/-- The security state a partition reports (R347); one not yet formed in bring-up reports the default 0 (R367). -/
def State.stateCode (s : State) (p : Nat) : Byte :=
  if !s.exists_ p then 7 else match (s.ps p).st with | .absent => 0 | st => st.code

/-- Entry 0x6001 (R50). -/
def State.timeStatus (s : State) : Byte :=
  let m : Nat := match s.time.mode with | .unset => 0 | .acquiring => 1 | .locked => 2 | .freeRunning => 3
  BitVec.ofNat 8 (m + 8 * bnat s.time.stepPending + 16 * bnat s.time.mflag + 32 * bnat s.time.tref)

/-- Entry 0x1006 (R443). -/
def Stage.code : Stage → Nat
  | .off => 0 | .b0 => 0 | .b1 => 1 | .b2 => 2 | .hold => 3 | .b3 => 4 | .b4 => 5 | .b5 => 6 | .running => 7

/-- Rooms in service: present and not out of service (R233, R419). -/
def State.roomsInService (s : State) : BitVec 128 :=
  (upTo 128).foldl (fun (b : BitVec 128) n => if s.outOfService 0 n then putField b n 1 0 else b) s.ident.roomsPresent

/-- Bits of the service state of a class (R426). -/
def serviceBits (l : List Nat) (cls : Nat) : Nat :=
  (upTo (classSize cls)).foldl (fun a n => a + bnat (l.contains (unitId cls n)) * 2 ^ n) 0

/-- Subindex 1 of a ring's records: the running step, or no history (R260, R261). -/
def runningRecord (s : State) (n : Nat) : BitVec 768 :=
  match (s.ring n).phase with
  | some ph => phaseWord ph 3 (s.ring n).steps s.stamp s.tq (s.ringEnergy n)
  | none => noHistory

/-- A log entry as a reader receives it (R408). -/
def redact (src : Src) (e : BitVec 256) : BitVec 256 :=
  let part := field e 29 3
  match src with
  | .tenant p =>
    if part = p.toNat || part = 7 then e
    else
      let w : BitVec 256 := 0
      let w := putBits w 192 (bits e 192 64)
      let w := putBits w 96 (bits e 96 32)
      let w := putBits w 22 (bits e 22 2)
      putField w 24 1 1
  | _ => if flag e 25 then putField (putField (putField e 128 64 0) 32 32 0) 24 1 1 else e

/-- The 32 entries from a cursor up (R407). -/
def logWindow (s : State) (src : Src) (m : Nat) : List Byte :=
  let cur := (Tbl.get (1 : U32) s.dict.cursors m).toNat
  ((upTo 32).map fun k =>
    let q := cur + k
    let e := if q = 0 then 0 else Tbl.get 0 s.log.entries ((q - 1) % 4096)
    if field e 96 32 = q && q != 0 then bytesOf (redact src e) else List.replicate 32 0).flatten

/-- The status word of a port (R288). -/
def portStatus (s : State) (j : Nat) : U32 :=
  let q := s.port j
  let out := q.width = 0 && (upTo 4).all fun l => s.outOfService 3 (4 * j + l)
  let w : U32 := 0
  let w := putField w 0 2 (if out then 3 else if q.hold then 1 else q.state.toNat)
  let w := putBits w 2 q.rate
  let w := putBits w 4 q.width
  let w := putBits w 7 (bit1 q.prevGen)
  putBits w 8 q.lanes

def f32OfUj (uj n : Nat) : List Byte := leBytes 4 (packRatio fF32 .rne false uj (1000 * n) 0).1

def u (n v : Nat) : List Byte := leBytes n v

/-- What a read of an existing entry returns (R390, R409): WO entries read as zero. -/
def readRaw (s : State) (src : Src) (i sub : Nat) : List Byte :=
  let q := s.ps sub
  if 0x6100 ≤ i && i < 0x6200 then bytesOf (s.event (i - 0x6100)).word
  else if 0x7010 ≤ i && i < 0x7050 then bytesOf (Tbl.get (0 : U64) s.pw.energyRing (i - 0x7010))
  else if 0x7100 ≤ i && i < 0x7140 then
    let r := s.ring (i - 0x7100)
    bytesOf (if sub = 0 then r.lastStep else if sub = 1 then runningRecord s (i - 0x7100) else r.snapshot)
  else if 0x7140 ≤ i && i < 0x7180 then bytesOf (s.ring (i - 0x7140)).stampPeriod
  else if 0x8100 ≤ i && i < 0x8104 then bytesOf (s.blockedEntry (256 * (i - 0x8100) + sub))
  else if 0x9040 ≤ i && i < 0x9080 then bytesOf (s.ring (i - 0x9040)).cfg
  else if 0x9080 ≤ i && i < 0x90C0 then u 1 (bnat (s.ring (i - 0x9080)).enabled)
  else match i with
  | 0x1000 => padTo 16 (ascii (if s.ident.grade == .a then "DCG-900A" else "DCG-900B"))
  | 0x1001 => padTo 32 (ascii "Deolmend Computing")
  | 0x1002 => bytesOf s.ident.serial
  | 0x1003 => bytesOf s.ident.revision
  | 0x1004 => u 1 s.boot.nodeId.toNat
  | 0x1005 => u 2 (s.boot.nodeId.toNat + 128 * s.boot.clgen.toNat + 512 * bnat s.boot.fwsrc + 1024 * s.boot.imageSrc.toNat)
  | 0x1006 => u 1 s.boot.stage.code
  | 0x1010 => bytesOf s.can.arbNew
  | 0x1011 => bytesOf s.can.dataNew
  | 0x1017 => bytesOf s.can.hbPeriod
  | 0x1018 => bytesOf s.can.threshold
  | 0x1030 => bytesOf s.dict.requests ++ bytesOf s.dict.refusals ++ bytesOf s.dict.conflicts ++ bytesOf s.dict.aborts
  | 0x1031 => bytesOf s.can.received ++ bytesOf s.can.sent ++ bytesOf s.can.passives ++ bytesOf s.can.recoveries
      ++ bytesOf s.can.dropped
  | 0x2000 => u 1 (if s.ident.grade == .a then 0 else 1)
  | 0x2001 => u 2 1
  | 0x2002 => bytesOf s.ident.roomsPresent
  | 0x2003 => bytesOf s.ident.unitsPresent
  | 0x2004 => bytesOf s.ident.portsPresent
  | 0x2005 => u 2 0x037F
  | 0x2006 => u 4 262144
  | 0x2007 => bytesOf s.roomsInService
  | 0x3000 => bytesOf s.pw.cap
  | 0x3001 => bytesOf s.pw.w
  | 0x3002 => bytesOf s.pw.status
  | 0x3003 => bytesOf s.pw.latched
  | 0x3004 => f32OfUj s.pw.lastSample 1
  | 0x3005 => f32OfUj s.pw.sum s.pw.w.toNat
  | 0x3006 => u 1 (s.diePw sub).duty.toNat
  | 0x3008 => bytesOf (s.diePw sub).mhz
  | 0x3009 => u 1 (s.diePw sub).target.toNat ++ u 1 (s.diePw sub).ceiling.toNat
      ++ u 1 (bnat ((s.diePw sub).pendingTarget || (s.diePw sub).pendingHalve))
  | 0x3010 => ((upTo 65).map fun k => bytesOf (Config.volt sub k)).flatten
  | 0x3020 => bytesOf (s.temp sub)
  | 0x3040 => bytesOf (s.diePw sub).droopCount
  | 0x3050 => bytesOf (s.pw.reg sub).addr
  | 0x4000 => u 1 (match s.mode with | .one => 0 | .two => 1 | .four => 2)
  | 0x4001 => u 1 (match s.pendingMode with | none => 0 | some .one => 0x80 | some .two => 0x81 | some .four => 0x82)
  | 0x4030 => bytesOf (s.sched sub).sregNew
  | 0x4031 => bytesOf (s.sched sub).defer
  | 0x5000 => padTo 1793 Config.identityKey
  | 0x5001 => bytesOf idfp
  | 0x5002 => bytesOf s.boot.runDigest ++ bytesOf (if s.boot.stagedOk then s.boot.stagedDigest else 0)
      ++ bytesOf s.boot.svnRun ++ bytesOf s.boot.svnMin ++ u 1 s.boot.fwFlags
  | 0x5004 => u 1 (bnat s.sec.debug)
  | 0x5010 => bytesOf q.sealMode
  | 0x5011 => bytesOf (s.stateCode sub)
  | 0x5020 => padTo 1568 q.ek
  | 0x5022 => bytesOf q.failedImports
  | 0x5030 => bytesOf q.ckid
  | 0x5031 => bytesOf q.ckAddr
  | 0x5041 => bytesOf (match q.job with | some j => statusWord 1 j.op.toNat 0 j.done 0 0 | none => q.jobStatus)
  | 0x5042 => bytesOf q.exportStatus
  | 0x5051 => padTo 1792 (Tbl.get [] s.sec.reports sub)
  | 0x5060 => bytesOf s.sec.challenge
  | 0x6000 => bytesOf s.time.counter
  | 0x6001 => bytesOf s.timeStatus
  | 0x6002 => bytesOf q.guard
  | 0x6003 => bytesOf s.time.lastErr
  | 0x7000 => bytesOf (Tbl.get (0 : U64) s.pw.energyPart sub)
  | 0x7004 => bytesOf s.pw.energyOver
  | 0x7005 => bytesOf s.pw.energyTotal
  | 0x8000 =>
    let n := s.log.seq.toNat
    let held := min n 4096
    u 4 n ++ u 4 (if n = 0 then 0 else n - held + 1) ++ u 2 held
  | 0x8001 => logWindow s src sub
  | 0x8002 => bytesOf (Tbl.get (1 : U32) s.dict.cursors sub)
  | 0x8040 => bytesOf (s.peer sub).shardFault
  | 0x8060 => bytesOf s.mem.eventCount
  | 0x8061 => bytesOf (Tbl.get (0 : BitVec 256) s.mem.events sub)
  | 0x8070 => bytesOf (Tbl.get (0 : U32) s.svc.thresholds sub)
  | 0x8072 => bytesOf (Tbl.get (0 : U32) s.svc.roomCorrected sub) ++ bytesOf (Tbl.get (0 : U32) s.svc.roomUncorrectable sub)
  | 0x8080 => u ((classSize (sub % 8) + 7) / 8) (serviceBits (if sub < 8 then s.svc.out else s.svc.quar) (sub % 8))
  | 0x8104 => u 2 (s.mem.blocked.filter fun e => flag e.2 63).length
  | 0x9000 => bytesOf s.rank
  | 0x9001 => bytesOf (portStatus s sub)
  | 0x9002 => bytesOf (s.port sub).limit
  | 0x9003 => bytesOf (s.peer sub).sampleDiv
  | 0x9004 => bytesOf (s.peer sub).epoch
  | 0x9005 => ((upTo 6).map fun k => bytesOf (Tbl.get (0 : U32) (s.port sub).counters k)).flatten
  | 0x9006 => bytesOf (s.peer sub).peerTimeout
  | 0x9010 => bytesOf s.mem.bankW
  | 0x9011 => bytesOf s.mem.bankH
  | 0x9012 => bytesOf s.mem.egressW
  | 0x9013 => bytesOf s.mem.egressH
  | 0x9020 => ((upTo 4).map fun k => bytesOf (Tbl.get (0 : U32) s.mem.stackCounters (4 * sub + k))).flatten
  | 0x9021 => ((upTo 4).map fun k => bytesOf (Tbl.get (0 : U32) s.mem.atriumCounters (4 * sub + k))).flatten
  | 0x9022 =>
    if s.exists_ sub then
      u 8 (s.pbase sub) ++ u 8 s.psize ++ u 8 (s.descBase sub) ++ u 8 (if s.sealed sub then s.tagBase sub else 0)
    else List.replicate 32 0
  | 0x9030 => bytesOf s.link.base
  | 0x9031 => u 1 (bnat q.windowEn)
  | 0x9032 => u 8 (s.link.gen.toNat + 4 * bnat s.link.up + 256 * s.link.retrains.toNat + 65536 * s.link.crcFails.toNat
      + 2 ^ 32 * s.link.discarded.toNat)
  | _ => match entryAt i sub with | some e => List.replicate e.size 0 | none => []

/-- A read by a class (R391, R395): its code and value. -/
def readEntry (s : State) (src : Src) (i sub : Nat) : Byte × List Byte :=
  match src with
  | .tenant p => if !tenantReaches p.toNat i sub then (0x11, []) else
      match entryAt i sub with | some _ => (0x00, readRaw s src i sub) | none => (0x17, [])
  | _ => match entryAt i sub with | some _ => (0x00, readRaw s src i sub) | none => (0x17, [])

/-! ### What writes do -/

/-- The lock of an RWL entry is closed (R288, R328, R388). -/
def State.locked (s : State) (i : Nat) : Bool :=
  if i == 0x3050 then s.pw.pmbusLocked
  else if i == 0x9000 then s.anySlot || s.scrubbing
  else if i == 0x9030 then
    (upTo 64).any (fun n => (s.ring n).enabled) ||
      s.parts.any fun p => (s.ps p).windowEn && ((s.pst p) == .free || (s.pst p) == .opened ||
        ((s.pst p) == .stopping && !(s.ps p).sealedSlot))
  else if 0x9040 ≤ i && i < 0x9080 then (s.ring (i - 0x9040)).enabled
  else false

/-- An enable write (R328) (DESIGN CHOICE, log 14). -/
def enableRing (s : State) (n : Nat) : State :=
  let s := s.updRing n fun r => { r with enabled := true, takenReset := 0, takenResume := 0, takenStop := 0 }
  readNotify (ringReset s n) n

/-- A write of 0 to an enabled ring: steps 1 to 3 of R337, DONE and FAULTSEQ cleared, the notify line given up with a WR
of its contents, the tail line dropped. -/
def disableRing (s : State) (n : Nat) : State :=
  let s := abandonRing s n
  let s := s.updRing n fun r => { r.cleared with st := .disabled }
  let r := s.ring n
  let s := if r.owned then linkWrite s r.notifyAt (bytesOf r.notifyWord) else s
  s.updRing n fun r => { r with enabled := false, owned := false, lineHeld := false, notify := r.notifyWord, fresh := true,
                                nextSeq := 1, fetchSeq := 1 }

/-- The stamp entry of a ring is armed at `t`, if a device-created entry is free (R261). -/
def armStamp (s : State) (n : Nat) (t : U64) : State :=
  let s := s.updRing n fun r => { r with nextStamp := t, stampEntry := none }
  match s.freeEntry (ringPart n) with
  | some e => (armDevice s e 7 (ringPart n) t (BitVec.ofNat 32 n)).updRing n fun r => { r with stampEntry := some e }
  | none => s

/-- A stamp-period write (R260, R261): the armed firing is withdrawn and the first one armed at the new period. -/
def writeStampPeriod (s : State) (n : Nat) (v : U32) : State :=
  let r := s.ring n
  let s := match r.stampEntry with | some e => freeDevice s e | none => s
  let s := s.updRing n fun r => { r with stampPeriod := v, stampEntry := none }
  if v = 0 then s else armStamp s n (s.stamp + BitVec.ofNat 64 (1000000 * v.toNat))

/-- A blocked-granule entry (R314): the lines and buffer entries of the granule are discarded unwritten. -/
def writeBlocked (s : State) (n : Nat) (w : U64) : State × Byte :=
  let v := putField w 32 31 0
  let s := s.setMem { s.mem with blocked := if v = 0 then Tbl.erase s.mem.blocked n else Tbl.set s.mem.blocked n v }
  let s := if flag v 63 then discardWhere s fun g => g / 256 == field v 0 32 else s
  (s, if field w 32 31 != 0 then 0x01 else 0x00)

def modeOf : Nat → Option PMode
  | 0 => some .one | 1 => some .two | 2 => some .four | _ => none

/-- A write of the partition mode (R30). -/
def writeMode (s : State) (v : Nat) : State × Byte :=
  match modeOf v with
  | none => (s, 0x13)
  | some m => if m = s.mode then ({ s with pendingMode := none }, 0x00) else ({ s with pendingMode := some m }, 0x02)

/-- A partition-reset write of 1 (R438, R442). -/
def writeReset (s : State) (p v : Nat) : State × Byte :=
  if v != 1 then (s, 0x13)
  else if !s.up || !s.exists_ p || s.pst p == .absent || s.pst p == .resetting || s.pst p == .scrub then (s, 0x16)
  else (partReset s p, 0x00)

/-- Does `v` lie in a range, and what storing it does. -/
def ranged (s : State) (v lo hi : Nat) (f : State) : State × Byte := if lo ≤ v && v ≤ hi then (f, 0x00) else (s, 0x13)

/-- What a write does once its entry, class, size and lock are found good. `after` is the state once every write of the
cycle has taken effect (R48). Bits 7:5 of 0x3003, which R388 does not name, count as no reserved bits of R8: ones written there
clear nothing and the code is 0x00 (DESIGN CHOICE, log 118). -/
def writeRaw (s after : State) (src : Src) (i sub : Nat) (bs : List Byte) : State × Byte :=
  let v := ofLe bs
  if 0x6100 ≤ i && i < 0x6200 then writeEvent s after (i - 0x6100) (wordOf 128 bs)
  else if 0x7140 ≤ i && i < 0x7180 then
    if !s.ringExists (i - 0x7140) then (s, 0x16) else ranged s v 0 60000 (writeStampPeriod s (i - 0x7140) (BitVec.ofNat 32 v))
  else if 0x8100 ≤ i && i < 0x8104 then writeBlocked s (256 * (i - 0x8100) + sub) (wordOf 64 bs)
  else if 0x9040 ≤ i && i < 0x9080 then
    let w : BitVec 384 := wordOf 384 bs
    let bad := field w 0 64 % 256 != 0 || field w 64 64 % 256 != 0 || field w 128 64 % 64 != 0 || field w 192 64 % 64 != 0
      || field w 256 64 % 64 != 0 || field w 320 64 < 4 || 16 < field w 320 64
    if bad then (s, 0x13) else (s.updRing (i - 0x9040) fun r => { r with cfg := w }, 0x00)
  else if 0x9080 ≤ i && i < 0x90C0 then
    let n := i - 0x9080
    if !s.ringExists n then (s, 0x16)
    else if v = 1 then (enableRing s n, 0x00)
    else if v = 0 then (if (s.ring n).enabled then disableRing s n else s, 0x00)
    else (s, 0x13)
  else match i with
  | 0x1010 => if v = 125 || v = 250 || v = 500 || v = 1000 then ({ s with can := { s.can with arbNew := BitVec.ofNat 16 v } }, 0x00)
      else (s, 0x13)
  | 0x1011 => if v = 1000 || v = 2000 || v = 4000 || v = 5000 || v = 8000 then
      ({ s with can := { s.can with dataNew := BitVec.ofNat 16 v } }, 0x00) else (s, 0x13)
  | 0x1017 => ranged s v 0 60000 { s with can := { s.can with hbPeriod := BitVec.ofNat 16 v, hbSent := s.now } }
  | 0x1018 => ranged s v 1 4 { s with can := { s.can with threshold := BitVec.ofNat 8 v } }
  | 0x1020 => if v = 0xA5 then (deviceReset s, 0x00) else (s, 0x13)
  | 0x3000 => ranged s v 500 2000 { s with pw := { s.pw with cap := BitVec.ofNat 16 v } }
  | 0x3001 => ranged s v 1000 60000 (refillWindow s v)
  | 0x3003 => ({ s with pw := { s.pw with latched := s.pw.latched &&& ~~~(BitVec.ofNat 8 v) } }, 0x00)
  | 0x3050 => ranged s v 0 127 { s with pw := { s.pw with regs := Tbl.set s.pw.regs sub { s.pw.reg sub with addr := BitVec.ofNat 8 v } } }
  | 0x4000 => writeMode s v
  | 0x4010 => writeReset s sub v
  | 0x4030 => ranged s v 32 256 (s.updSched sub fun q => { q with sregNew := BitVec.ofNat 32 v })
  | 0x4031 => (s.updSched sub fun q => { q with defer := BitVec.ofNat 8 v }, 0x00)
  | 0x5006 => stageUpdate s
  | 0x5007 => burnSvn s (BitVec.ofNat 16 v)
  | 0x5010 => ranged s v 0 1 (s.updPs sub fun q => { q with sealMode := BitVec.ofNat 8 v })
  | 0x5021 => keyImport s sub bs
  | 0x5030 => (s.updPs sub fun q => { q with ckid := BitVec.ofNat 32 v }, 0x00)
  | 0x5031 => (s.updPs sub fun q => { q with ckAddr := BitVec.ofNat 64 v }, 0x00)
  | 0x5040 => startJob s sub (wordOf 512 bs)
  | 0x5050 => writeNonce s sub (wordOf 256 bs)
  | 0x5061 => writeToken s bs
  | 0x6002 => ranged s v 2 20 (s.updPs sub fun q => { q with guard := BitVec.ofNat 32 v })
  | 0x8002 => ({ s with dict := { s.dict with cursors := Tbl.set s.dict.cursors sub (BitVec.ofNat 32 v) } }, 0x00)
  | 0x8070 => ({ s with svc := { s.svc with thresholds := Tbl.set s.svc.thresholds sub (BitVec.ofNat 32 v) } }, 0x00)
  | 0x8090 => serviceCommand s (v / 2 ^ 24) (v / 65536 % 256) (v % 65536)
  | 0x9000 => if v ≤ 16383 || v = 0xFFFF then ({ s with rank := BitVec.ofNat 16 v }, 0x00) else (s, 0x13)
  | 0x9002 => ranged s v 0 1 (s.updPort sub fun q => { q with limit := BitVec.ofNat 8 v })
  | 0x9003 => ranged s v 1 4096 (s.updPeer sub fun q => { q with sampleDiv := BitVec.ofNat 16 v })
  | 0x9006 => ranged s v 0 60000 (s.updPeer sub fun q => { q with peerTimeout := BitVec.ofNat 32 v })
  | 0x9010 => ranged s v 1 255 (s.setMem { s.mem with bankW := BitVec.ofNat 8 v })
  | 0x9011 => ranged s v 4 255 (s.setMem { s.mem with bankH := BitVec.ofNat 8 v })
  | 0x9012 => ranged s v 1 255 (s.setMem { s.mem with egressW := BitVec.ofNat 8 v })
  | 0x9013 => ranged s v 1 255 (s.setMem { s.mem with egressH := BitVec.ofNat 8 v })
  | 0x9030 => if v % 0x8000000000 = 0 then ({ s with link := { s.link with base := BitVec.ofNat 64 v } }, 0x00) else (s, 0x13)
  | 0x9031 => ranged s v 0 1 (s.updPs sub fun q => { q with windowEn := v == 1 })
  | _ => match src with | _ => (s, 0x10)

/-- The checks before a write of `n` bytes takes effect (R390, R391, R395): 0 where it may. -/
def writeCheckLen (s : State) (src : Src) (i sub : Nat) (n : Nat) : Byte :=
  let reach := match src with | .tenant p => tenantReaches p.toNat i sub | _ => true
  if !reach then 0x11
  else match entryAt i sub with
  | none => 0x17
  | some e =>
    if e.acc == .ro then 0x10
    else if !e.writers.contains (Src.cls src) then 0x11
    else if n != e.size then 0x18
    else if e.acc == .rwl && s.locked i then 0x12
    else 0x00

def writeCheck (s : State) (src : Src) (i sub : Nat) (bs : List Byte) : Byte := writeCheckLen s src i sub bs.length

/-- One write on its own: check, then effect. -/
def writeEntry (s after : State) (src : Src) (i sub : Nat) (bs : List Byte) : State × Byte :=
  let c := writeCheck s src i sub bs
  if c != 0 then (s, c) else writeRaw s after src i sub bs

/-! ### Contradictory writes (R394) -/

def Req.key (r : Req) : Nat := 256 * r.index.toNat + r.sub.toNat
def Req.value (r : Req) : Nat := ofLe r.data

/-- Does a request write and pass the checks? -/
def Req.good (s : State) (r : Req) : Bool := r.write && !r.badOp && writeCheck s r.src r.index.toNat r.sub.toNat r.data == 0

/-- Does a write arm a slot start? Those are judged once every other write of the cycle has taken effect (R48). -/
def Req.armsStart (r : Req) : Bool :=
  0x6100 ≤ r.index.toNat && r.index.toNat < 0x61C0 && (r.data.getD 11 0) == 3

/-- A value that the entry would refuse, were it written alone in the state before the cycle's writes, does not compete (DEDUCED, log 25). -/
def Req.competes (s : State) (r : Req) : Bool :=
  r.good s && (r.armsStart || (writeRaw s s r.src r.index.toNat r.sub.toNat r.data).2.toNat < 0x10)

/-- The last write of class `c` to the entry of `k` in a batch (R394). -/
def repOf (s : State) (batch : List Req) (k c : Nat) : Option Req :=
  (batch.reverse).find? fun r => r.key == k && Src.cls r.src == c && r.competes s

/-- The classes in the order in which an entry prefers them: mode entries the tray, every other entry the companion. -/
def preference (i : Nat) : List Nat :=
  if i == 0x4000 || i == 0x5010 || i == 0x9031 then [0, 1, 2, 3] else [1, 0, 2, 3]

/-- The value that takes effect among the represented ones (R394); a power-cap event of the cycle is one more writer. -/
def winnerOf (s : State) (batch : List Req) (k : Nat) : Option Nat :=
  let i := k / 256
  let reps := (preference i).filterMap (repOf s batch k)
  let vs := reps.map Req.value
  if i == 0x3000 || i == 0x4031 then
    let vs := match s.capEvent with | some v => if i == 0x3000 then v :: vs else vs | none => vs
    vs.foldl (fun (b : Option Nat) v => some (match b with | some x => min x v | none => v)) none
  else if i == 0x6002 || i == 0x9002 then
    vs.foldl (fun (b : Option Nat) v => some (match b with | some x => max x v | none => v)) none
  else vs.head?

/-- Command entries, performed once however many classes write them in a cycle (R394). -/
def isCommand (k : Nat) : Bool := match entryAt (k / 256) (k % 256) with | some e => e.acc == .wo | none => false

/-- Has the request's class lost the conflict: does its represented value differ from the one that takes effect? -/
def Req.lost (s : State) (batch : List Req) (r : Req) : Bool :=
  match winnerOf s batch r.key, repOf s batch r.key (Src.cls r.src) with
  | some w, some x => x.value != w
  | _, _ => false

/-- Does a request carry out a command written more than once: its class is the first in the entry's order of preference, and no
earlier write of the class asks for the same? -/
def Req.carries (s : State) (batch : List Req) (r : Req) : Bool :=
  let same := batch.find? fun x => x.key == r.key && Src.cls x.src == Src.cls r.src && x.value == r.value && x.competes s
  (match (preference (r.key / 256)).filterMap (repOf s batch r.key) |>.head? with
   | some x => Src.cls x.src == Src.cls r.src
   | none => true) && (match same with | some x => x == r | none => true)

/-- One write of a batch; `before` is the state before the batch. -/
def writeOne (before s after : State) (batch : List Req) (r : Req) : State × Byte :=
  if r.badOp then (s, 0x13)
  else if !r.competes before then writeEntry s after r.src r.index.toNat r.sub.toNat r.data
  else if isCommand r.key then
    if r.carries before batch then writeEntry s after r.src r.index.toNat r.sub.toNat r.data else (s, 0x00)
  else if r.lost before batch then (s, 0x03)
  else writeEntry s after r.src r.index.toNat r.sub.toNat r.data

/-- The state once the writes of a batch have taken effect: the slot starts come last, each judged by what stands then (R48). -/
def afterOthers (before s : State) (batch : List Req) : State :=
  let s := batch.foldl (fun t r => if r.write && !r.armsStart then (writeOne before t t batch r).1 else t) s
  batch.foldl (fun t r => if r.write && r.armsStart then (writeOne before t t batch r).1 else t) s

/-! ### Tenant capability (R399) -/

/-- Bytes 0 to 47 of a mailbox line followed by its CTR. -/
def capText (line : Line) : List Byte := (bytesOf line).take 48 ++ bytesOf (bits line 384 64)

/-- Does tenant mailbox `p` accept a request line: 0, or the code that refuses it? -/
def capCheck (s : State) (p : Nat) (line : Line) : Byte :=
  let q := s.ps p
  let tag := bits line 448 64
  let ctr := bits line 384 64
  let sealedRule := s.pst p == .sealed || (s.pst p == .stopping && q.sealedSlot)
  let openRule := s.pst p == .opened || (s.pst p == .stopping && !q.sealedSlot)
  if openRule then (if tag = 0 && ctr = 0 then 0x00 else 0x19)
  else if sealedRule then
    if q.tenantCtr.toNat < ctr.toNat && q.keys.kC.isSome
        && kmac256 (keyBytes q.keys.kC) (capText line) 8 "DCG900 TENANT REQUEST" = bytesOf tag then 0x00 else 0x19
  else 0x16

/-- The response tag (R399). -/
def responseTag (s : State) (p : Nat) (line : Line) (data : List Byte) : BitVec 64 :=
  let q := s.ps p
  if s.pst p == .sealed || (s.pst p == .stopping && q.sealedSlot) then
    wordOf 64 (kmac256 (keyBytes q.keys.kC) (capText line ++ data) 8 "DCG900 TENANT RESPONSE")
  else 0

/-! ### Answers -/

/-- Numbers a request's path for the answers that are kept: tray 0, companion boxes 1 to 16, tenants 17 to 20, test
21. -/
def pathKey : Src → Nat
  | .tray => 0
  | .companion m => 1 + m.toNat
  | .tenant p => 17 + p.toNat
  | .test => 21

/-- The response line of a mailbox (R398), without its TAG. -/
def responseLine (r : Req) (code : Byte) (data : List Byte) : Line :=
  let w : Line := 0
  let w := putBits w 384 r.ctr
  let w := if data.length ≤ 8 then putField w 64 64 (ofLe data) else w
  let w := putBits w 48 r.index
  let w := putBits w 40 r.sub
  let w := putBits w 32 code
  let w := putField w 16 16 data.length
  putBits w 0 r.reqid

/-- The bytes of a buffer from offset 0. -/
def bufWrite (m : Mem) (bs : List Byte) : Mem :=
  (upTo bs.length).foldl (fun m i => m.write zeroByte i (bs.getD i 0)) m

/-- The DDA identifier of the device's responses (R401). -/
def ddaId (s : State) : BitVec 11 := BitVec.ofNat 11 (0x280 + s.boot.nodeId.toNat)

/-- CAN FD data lengths: zero padding to the next one; a classic frame carries 8 (R402). -/
def padFrame (fd : Bool) (bs : List Byte) : List Byte :=
  let sizes := if fd then [0, 1, 2, 3, 4, 5, 6, 7, 8, 12, 16, 20, 24, 32, 48, 64] else [8]
  padTo (match sizes.find? fun n => bs.length ≤ n with | some n => n | none => bs.length) bs

def ddaFrame (s : State) (fd : Bool) (bs : List Byte) : State := canSend s { ident := ddaId s, fd := fd, data := padFrame fd bs }

/-- Command byte, SUB and INDEX (R402). -/
def ddaHead (cmd : Byte) (sub : Byte) (i : U16) : List Byte := [cmd, sub] ++ bytesOf i

/-- A read's answer on the field bus: in one frame where it fits, else a segmented read begins (R402). -/
def ddaReadAnswer (s : State) (fd : Bool) (i : U16) (sub : Byte) (bs : List Byte) : State :=
  if bs.length ≤ (if fd then 60 else 4) then ddaFrame s fd (ddaHead (BitVec.ofNat 8 bs.length) sub i ++ bs)
  else
    let s := ddaFrame s fd (ddaHead 0x84 sub i ++ leBytes 4 bs.length)
    { s with can := { s.can with dda := some { reading := true, fd := fd, index := i, sub := sub, data := bs,
                                               len := bs.length, last := s.now } } }

/-- A DDA abort (R403): sent by the device unless the tray aborted, logged with 0x1104 and counted. -/
def ddaAbort (s : State) (fd : Bool) (i : U16) (sub : Byte) (code : Byte) (send : Bool) : State :=
  let s := if send then ddaFrame s fd (ddaHead 0xFF sub i ++ [code]) else s
  let s := { s with can := { s.can with dda := none }, dict := { s.dict with aborts := satInc s.dict.aborts } }
  logEvent s 0x1104 { detail := code.setWidth 64 }

/-- Gives a request its answer over its path (R395, R398, R402, R458). -/
def answer (s : State) (r : Req) (code : Byte) (data : List Byte) : State :=
  let s := { s with dict := { s.dict with answers := Tbl.set s.dict.answers (pathKey r.src)
                                            { index := r.index, sub := r.sub, code := code, data := data } } }
  match r.path with
  | .direct => s
  | .can fd =>
    if r.write then ddaFrame s fd (ddaHead 0x41 r.sub r.index ++ [code])
    else if code = 0 then ddaReadAnswer s fd r.index r.sub data
    else ddaAbort s fd r.index r.sub code true
  | .canSeg fd => ddaFrame s fd (ddaHead 0x41 r.sub r.index ++ [code])
  | .box m =>
    let line := responseLine r code data
    let s := if 8 < data.length then s.updBox m fun b => { b with buf := bufWrite b.buf data } else s
    let line := if 16 ≤ m then putBits line 448 (responseTag s (m - 16) line data) else line
    s.updBox m fun b => { b with rsp := line }
  | .tap =>
    let line := responseLine r code data
    let tap := s.tap
    let buf := if 8 < data.length then
        putBits tap.dictBuf 0 (BitVec.ofNat (8 * data.length) (ofLe data)) else tap.dictBuf
    { s with tap := { tap with dictRsp := line.setWidth 384, dictBuf := buf } }

/-- Counts a request and how it came out (0x1030). -/
def countRequest (s : State) (code : Byte) : State :=
  let d := s.dict
  { s with dict := { d with requests := satInc d.requests,
                            refusals := if 0x10 ≤ code.toNat then satInc d.refusals else d.refusals,
                            conflicts := if code = 0x03 then satInc d.conflicts else d.conflicts } }

/-- Why a tenant mailbox's request is not accepted (R399): 0 where it is, and over every other path. -/
def Req.refusal (s : State) (r : Req) : Byte :=
  match r.path with
  | .box m => if m < 16 then 0 else capCheck s (m - 16) r.line
  | _ => 0

/-- The counter of an accepted tenant request is the last accepted one (R399). -/
def acceptCtr (s : State) (r : Req) : State :=
  match r.path with
  | .box m => if m < 16 then s else s.updPs (m - 16) fun q => { q with tenantCtr := r.ctr }
  | _ => s

/-- Serves one request of a batch. Reads see `before`, the state before the batch's writes (R393). -/
def serve (before : State) (batch : List Req) (s : State) (r : Req) : State :=
  let c := r.refusal s
  let s := if c = 0 then acceptCtr s r else s
  if c != 0 then answer (countRequest s c) r c []
  else if !r.write then
    let (code, data) := if r.badOp then (0x13, []) else readEntry before r.src r.index.toNat r.sub.toNat
    answer (countRequest s code) r code data
  else
    let (t, code) := writeOne before s (afterOthers before s batch) batch r
    answer (countRequest t code) r code []

/-- Acts on a batch of requests in order of arrival (R393). -/
def serveBatch (s : State) (batch : List Req) : State := batch.foldl (serve s batch) s

/-- Is the dictionary served? From B1, and not before. -/
def State.dictUp (s : State) : Bool := s.ctl

/-- The requests a cycle takes: the first 16 in order of arrival (R393). -/
def cycleSize : Nat := 16

/-- DICTIONARY_CYCLE (R393, R394). -/
def execDictionaryCycle (s : State) : Out :=
  act s.dictUp s fun s =>
    let batch := s.dict.waiting.take cycleSize
    let rest := s.dict.waiting.drop cycleSize
    let s := serveBatch { s with dict := { s.dict with waiting := rest } } batch
    { s with firedNow := [], capEvent := none }

/-- A request that stands alone in its cycle. -/
def single (s : State) (r : Req) : State := serveBatch s [r]

/-- DICTIONARY_READ (R391, R395). -/
def execDictionaryRead (src : Src) (index : BitVec 16) (sub : BitVec 8) (s : State) : Out :=
  act s.dictUp s fun s => single s { src := src, index := index, sub := sub }

/-- DICTIONARY_WRITE (R395). -/
def execDictionaryWrite (src : Src) (index : BitVec 16) (sub : BitVec 8) (data : List Byte) (s : State) : Out :=
  act s.dictUp s fun s => single s { src := src, index := index, sub := sub, write := true, data := data }

/-- A write of one entry by its own row. -/
def writeRow (s : State) (src : Src) (i sub : Nat) (bs : List Byte) : Out :=
  act s.dictUp s fun s => single s { src := src, index := BitVec.ofNat 16 i, sub := BitVec.ofNat 8 sub, write := true, data := bs }

/-- EVENT_ARM (R44): a write with a nonzero KIND. -/
def execEventArm (src : Src) (n : BitVec 8) (val : BitVec 128) (s : State) : Out :=
  act (s.dictUp && field val 88 8 != 0) s fun s =>
    single s { src := src, index := BitVec.ofNat 16 (0x6100 + n.toNat), sub := 0, write := true, data := bytesOf val }

/-- EVENT_CANCEL (R44): a write with KIND 0. -/
def execEventCancel (src : Src) (n : BitVec 8) (val : BitVec 128) (s : State) : Out :=
  act (s.dictUp && field val 88 8 == 0) s fun s =>
    single s { src := src, index := BitVec.ofNat 16 (0x6100 + n.toNat), sub := 0, write := true, data := bytesOf val }

/-- PARTITION_MODE_WRITE (R30). -/
def execPartitionModeWrite (src : Src) (v : BitVec 8) (s : State) : Out := writeRow s src 0x4000 0 (bytesOf v)
/-- CAP_WRITE (R374). -/
def execCapWrite (src : Src) (v : BitVec 16) (s : State) : Out := writeRow s src 0x3000 0 (bytesOf v)
/-- WINDOW_WRITE (R373). -/
def execWindowWrite (src : Src) (v : BitVec 32) (s : State) : Out := writeRow s src 0x3001 0 (bytesOf v)
/-- STAMP_PERIOD_WRITE (R261). -/
def execStampPeriodWrite (src : Src) (ring : BitVec 6) (v : BitVec 32) (s : State) : Out :=
  writeRow s src (0x7140 + ring.toNat) 0 (bytesOf v)
/-- WINDOW_ENABLE (R327, R328). -/
def execWindowEnable (src : Src) (p : BitVec 2) (v : BitVec 8) (s : State) : Out := writeRow s src 0x9031 p.toNat (bytesOf v)
/-- RING_ENABLE (R328). -/
def execRingEnable (src : Src) (ring : BitVec 6) (s : State) : Out := writeRow s src (0x9080 + ring.toNat) 0 [1]
/-- RING_DISABLE (R328). -/
def execRingDisable (src : Src) (ring : BitVec 6) (s : State) : Out := writeRow s src (0x9080 + ring.toNat) 0 [0]
/-- BLOCKED_GRANULE_WRITE (R313, R314). -/
def execBlockedGranuleWrite (src : Src) (entry : BitVec 10) (val : BitVec 64) (s : State) : Out :=
  writeRow s src (0x8100 + entry.toNat / 256) (entry.toNat % 256) (bytesOf val)
/-- TAKE_OUT_OF_SERVICE (R419): a service command with ACTION 1. -/
def execTakeOutOfService (src : Src) (cls : BitVec 8) (num : BitVec 16) (s : State) : Out :=
  writeRow s src 0x8090 0 (bytesOf num ++ bytesOf cls ++ [1])
/-- READMIT (R420): a service command with ACTION 2. -/
def execReadmit (src : Src) (cls : BitVec 8) (num : BitVec 16) (s : State) : Out :=
  writeRow s src 0x8090 0 (bytesOf num ++ bytesOf cls ++ [2])
/-- KEY_IMPORT (R350). -/
def execKeyImport (src : Src) (p : BitVec 2) (msg : List Byte) (s : State) : Out := writeRow s src 0x5021 p.toNat msg
/-- ATTESTATION_NONCE (R363): written at the subindex of the writer's own class. -/
def execAttestationNonce (src : Src) (nonce : BitVec 256) (s : State) : Out :=
  writeRow s src 0x5050 (Src.cls src) (bytesOf nonce)
/-- STAGE_UPDATE (R346). -/
def execStageUpdate (src : Src) (v : BitVec 8) (s : State) : Out := writeRow s src 0x5006 0 (bytesOf v)
/-- BURN_MINIMUM_SVN (R346). -/
def execBurnMinimumSvn (src : Src) (v : BitVec 16) (s : State) : Out := writeRow s src 0x5007 0 (bytesOf v)
/-- DEBUG_UNLOCK (R365). -/
def execDebugUnlock (src : Src) (token : List Byte) (s : State) : Out := writeRow s src 0x5061 0 token

end Sys2Proof.Machine
end

