-- ==== Sys2Proof/Machine/Time.lean ====
section
/-! DEFINITION. The time base (02_installation_time R34 to R43): TCODE frames, TSYNC edges, loss and return of the
references, and the CK_TIME tick. -/

namespace Sys2Proof.Machine

/-! ### TCODE frames (R35, R36) -/

/-- The TIME of a frame whose bit i was the i-th on the line. -/
def tcodeTime (bits_ : BitVec 112) : U64 := bits bits_ 16 64

/-- SYNC and CRC are correct (R35). -/
def tcodeSound (b : BitVec 112) : Bool := field b 0 16 == 0xA55A && bits b 96 16 == crc16 ((bytesOf b).drop 2 |>.take 10)

/-- Is a frame that ends now well-formed (R36)? -/
def State.wellFormed (s : State) (b : BitVec 112) : Bool :=
  tcodeSound b && (match s.time.lastEdge with
    | some e => e + 100000000 ≤ s.time.ticks && s.time.ticks ≤ e + 900000000
    | none => false)

/-- Is a well-formed frame valid (R36)? -/
def State.frameValid (s : State) (b : BitVec 112) : Bool :=
  match s.time.lastFrame with
  | some (t, e) => e + 1500000000 < s.time.ticks || tcodeTime b == t + 1000000000
  | none => true

/-- LOCKED gives way to FREE-RUNNING, with a log entry (R41). Frames of before count for nothing now (R39). -/
def loseLock (s : State) : State :=
  if s.time.mode == .locked then
    logEvent { s with time := { s.time with mode := .freeRunning, run := 0, slew := 0, slewing := false } } 0x0901 { sev := 3 }
  else s

/-- The time base enters LOCKED (R39). -/
def lock (s : State) : State :=
  logEvent { s with time := { s.time with mode := .locked, stepPending := false, slewing := false, slew := 0, badRun := 0 } } 0x0902 {}

/-- What a valid frame does: it counts towards the three-frame condition and names the next edge (R38, R39). -/
def validFrame (s : State) (b : BitVec 112) : State :=
  let t := s.time
  let run := if !t.tref then 0 else if t.interval.isNone then t.run + 1 else t.run
  { s with time := { t with run := run, badRun := 0, interval := some (tcodeTime b),
                            mode := if t.mode == .unset && t.tref then .acquiring else t.mode } }

/-- What an invalid frame does: it breaks the run, and the second in a row ends LOCKED (R39, R41). -/
def invalidFrame (s : State) : State :=
  let t := s.time
  let s := { s with time := { t with run := 0, badRun := t.badRun + 1, interval := none } }
  if 2 ≤ s.time.badRun then loseLock s else s

/-- TCODE_FRAME (R36): a frame ends at the ball. MFLAGS[0] is recorded from every well-formed frame, valid or not, and from no
other (DEDUCED, log 42). -/
def execTcodeFrame (b : BitVec 112) (s : State) : Out :=
  act (s.ctl && !s.tap.held) s fun s =>
    if s.wellFormed b then
      let ok := s.frameValid b
      let s := { s with time := { s.time with mflag := flag b 80, lastFrame := some (tcodeTime b, s.time.ticks) } }
      if ok then validFrame s b else invalidFrame s
    else invalidFrame s

/-! ### TSYNC edges (R39 to R41) -/

/-- The error of the counter against a frame's TIME, in ns (DEDUCED, log 41). -/
def State.timeError (s : State) (t : U64) : Int := (s.time.counter.toNat : Int) - (t.toNat : Int)

/-- An error as entry 0x6003 holds it: the nearest I32. -/
def errorWord (e : Int) : U32 := ofInt 32 (max (-2147483648) (min 2147483647 e))

/-- The counter is set to a TIME and the time base is LOCKED. -/
def setCounter (s : State) (t : U64) : State :=
  lock { s with time := { s.time with counter := t, frac := 0, slew := 0 } }

/-- An error measured while LOCKED: corrected, or the end of LOCKED (R38, R41). -/
def lockedEdge (s : State) (e : Int) : State :=
  if 1000 < e.natAbs then loseLock s
  else { s with time := { s.time with slew := -10000 * e, slewing := e != 0 } }

/-- An error measured from FREE-RUNNING once the three-frame condition holds (R39, R40). -/
def freeEdge (s : State) (t : U64) (e : Int) : State :=
  if e.natAbs ≤ 20 then lock s
  else if e.natAbs ≤ 10000000 then
    { s with time := { s.time with slew := -10000 * e, slewing := true, stepPending := false } }
  else if s.anySlot || s.scrubbing then { s with time := { s.time with stepPending := true, slewing := false, slew := 0 } }
  else setCounter s t

/-- An edge that a valid frame has named. -/
def namedEdge (s : State) (t : U64) : State :=
  match s.time.mode with
  | .unset => s
  | .acquiring => if 3 ≤ s.time.run && s.time.tref then setCounter s t else s
  | .locked =>
    let e := s.timeError t
    lockedEdge { s with time := { s.time with lastErr := errorWord e } } e
  | .freeRunning =>
    if 3 ≤ s.time.run && s.time.tref then
      let e := s.timeError t
      freeEdge { s with time := { s.time with lastErr := errorWord e } } t e
    else s

/-- Does an edge now lie within 1 s ± 500 ns of the one before (R39)? (DEDUCED, log 42). -/
def State.edgeInStep (s : State) : Bool :=
  match s.time.lastEdge with
  | some e => e + 999999500 ≤ s.time.ticks && s.time.ticks ≤ e + 1000000500
  | none => false

/-- TSYNC_EDGE (R39). -/
def execTsyncEdge (s : State) : Out :=
  act (s.ctl && !s.tap.held) s fun s =>
    let ok := s.edgeInStep
    let s := match s.time.interval with
      | some t => namedEdge s t
      | none => { s with time := { s.time with run := 0 } }
    let run := if ok then s.time.run else 0
    { s with time := { s.time with run := run, interval := none, lastEdge := some s.time.ticks } }

/-- TSYNC_TIMEOUT (R41): no edge within 1 s + 500 ns of the previous one. -/
def execTsyncTimeout (s : State) : Out :=
  act (s.ctl && s.time.mode == .locked &&
      (match s.time.lastEdge with | some e => decide (e + 1000000500 ≤ s.time.ticks) | none => false)) s loseLock

/-- TREF_LOSS (R41, R38): no TREF edge for 200 ns. -/
def execTrefLoss (s : State) : Out :=
  act (s.ctl && s.time.tref) s fun s =>
    let t := s.time
    let s := { s with time := { t with tref := false, run := 0, mode := if t.mode == .acquiring then .unset else t.mode } }
    let s := loseLock s
    { s with time := { s.time with slew := 0, slewing := false } }

/-- TREF_RETURN (R42): the edges of TREF are there. -/
def execTrefReturn (s : State) : Out :=
  act s.ctl s fun s => { s with time := { s.time with tref := true } }

/-! ### The CK_TIME tick (R37, R39, R42) -/

/-- What one tick slews, in 10^-4 ns: towards the error's end, at most 100 ppm (R39). -/
def TimeBase.slewTick (t : TimeBase) : Int :=
  let k : Int := Config.slewStep t.ticks
  if 0 ≤ t.slew then min t.slew k else max t.slew (-k)

/-- The adjustment of one tick's 4 ns, in 10^-4 ns. -/
def TimeBase.adjust (t : TimeBase) : Int :=
  if t.slewing then t.slewTick
  else if t.mode == .freeRunning && !t.tref then Config.drift t.ticks
  else 0

/-- Whole ns, and the fraction left, by which a running counter moves in a tick. -/
def TimeBase.gain (t : TimeBase) : Nat × Nat :=
  let x := t.frac + 40000 + t.adjust.toNat - (-t.adjust).toNat
  (x / 10000, x % 10000)

/-- A time base after a tick of its running counter. -/
def TimeBase.ticked (t : TimeBase) : TimeBase :=
  let left := if t.slewing then t.slew - t.adjust else t.slew
  { t with counter := t.counter + BitVec.ofNat 64 t.gain.1, frac := t.gain.2, now := t.now + t.gain.1, slew := left,
           slewing := t.slewing && left != 0 }

/-- One CK_TIME tick: the counter, and the end of slewing from FREE-RUNNING (R39). A duration is installation time where the
counter runs, and the tick's own 4 ns where it holds (R5); a step of R40 moves the counter and no duration (DESIGN CHOICE,
log 3). -/
def timeTick (s : State) : State :=
  let t := s.time
  let t := if s.ctl && t.mode.running then t.ticked else { t with now := t.now + 4 }
  let s := { s with time := { t with ticks := t.ticks + 4 } }
  if s.ctl && s.time.mode == .freeRunning && t.slewing && s.time.slew.natAbs ≤ 200000 then lock s else s

end Sys2Proof.Machine
end

