-- ==== Sys2Proof/Machine/Clock.lean ====
section
/-! DEFINITION. The CK_TIME tick with the phase timers, and phase-timer stamps (02_installation_time R37, R47; 11_training_support
R258, R261). -/

namespace Sys2Proof.Machine

/-! ### Phase timers (R258) -/

/-- Does a share of the RUN execute: it has started and not reached BLKEND? (DEDUCED, log 58). -/
def State.executes (s : State) (n : Nat) (o : Op) : Bool :=
  o.is 0x12 && o.live && o.shares.any fun h => h.started && !h.ended && (s.room h.room).active && (s.room h.room).run == some (n, o.orig)

/-- Does a SOLVE execute: it does not wait for borrowed rooms? -/
def Op.solves (o : Op) : Bool := o.live && match o.solve with | some c => c.reserved | none => false

/-- Which timer of its step a tick adds to. -/
def State.timerOf (s : State) (n : Nat) : Nat :=
  let l := (s.ring n).ops
  let runs := fun (f : Nat → Bool) => l.any fun o => f (tagPhase o.tag) && s.executes n o
  if l.any Op.solves then 4
  else if runs (· == 3) then 1
  else if runs (· ≤ 2) then 0
  else if runs (· == 4) then 2
  else if runs (· == 5) then 3
  else if l.any fun o => o.is 0x31 && o.live then 6
  else if l.any fun o => o.is 0x30 && o.live then 5
  else 7

/-- A tick of a ring's running step. -/
def tickPhase (s : State) (n : Nat) : State :=
  let k := s.timerOf n
  s.updRing n fun r => { r with phase := r.phase.map fun ph => { ph with t := ph.t.modify k (· + 4) } }

/-! ### Stamps (R261) -/

/-- A stamp whose time comes with no entry armed for it is skipped; the next falls one period later (DEDUCED, log 59). -/
def skipStamp (s : State) (n : Nat) : State :=
  let r := s.ring n
  if s.time.mode.running && r.stampPeriod != 0 && r.stampEntry.isNone && r.nextStamp.toNat ≤ s.time.counter.toNat then
    armStamp s n (r.nextStamp + BitVec.ofNat 64 (1000000 * r.stampPeriod.toNat))
  else s

/-- The running totals go into the snapshot; with no running step it keeps its contents. -/
def takeStamp (s : State) (n : Nat) : State :=
  match (s.ring n).phase with
  | some ph => s.updRing n fun r => { r with snapshot := phaseWord ph 3 r.steps s.stamp s.tq (s.ringEnergy n) }
  | none => s

/-- PHASE_TIMER_STAMP: the snapshot, and the next firing one period later. -/
def execPhaseTimerStamp (k : BitVec 8) (s : State) : Out :=
  act (s.due k.toNat 7) s fun s =>
    let e := s.event k.toNat
    let n := e.arg.toNat % 64
    let s := takeStamp (markFired s k.toNat) n
    let r := s.ring n
    if r.stampPeriod != 0 && r.stampEntry == some k.toNat then armStamp s n (e.time + BitVec.ofNat 64 (1000000 * r.stampPeriod.toNat))
    else s

/-! ### The tick -/

/-- What CK_TIME does in one tick: time, the running step of every ring, stamps that find no entry. -/
def clockTick (s : State) : State :=
  let s := timeTick s
  if s.up then
    let ns := (s.rings.map (·.1))
    each ns (each ns s tickPhase) skipStamp
  else s

/-- One tick: the clock, then the reports of what the check codes have found. -/
def tick (s : State) : State := settleFound (clockTick s)

end Sys2Proof.Machine
end

