-- ==== Sys2Proof/Machine/Can.lean ====
section
/-! DEFINITION. The field bus (17_object_dictionary R400 to R405): DDA requests and transfers, heartbeats, fault frames
and error confinement. -/

namespace Sys2Proof.Machine

/-! ### Heartbeat (R404) -/

/-- Bytes 0 to 6 of the heartbeat now (R404); bit 0 of byte 0 stays clear after a failure of a controller memory (R423). -/
def State.heartbeat (s : State) : List Byte :=
  [BitVec.ofNat 8 (bnat (s.boot.stopped && !s.boot.ctlFail) + 2 * bnat s.sec.debug + 4 * bnat s.boot.updating)] ++ (upTo 4).map s.stateCode
    ++ [s.timeStatus, s.pw.status]

/-- What a change of sends a heartbeat: byte 0, bytes 1 to 4 and bits 2:0 of byte 5. -/
def State.heartbeatKey (s : State) : List Byte :=
  let h := s.heartbeat
  h.take 5 ++ [h.getD 5 0 &&& 7]

/-- Can the device send on the bus (R400, R401)? -/
def State.canOn (s : State) : Bool := s.fw && s.boot.nodeId != 0 && !s.can.busOff && !s.tap.held

def sendHeartbeat (s : State) : State :=
  let t := canSend s { ident := BitVec.ofNat 11 (0x700 + s.boot.nodeId.toNat), data := s.heartbeat ++ [s.can.hbCount] }
  { t with can := { t.can with hbCount := s.can.hbCount + 1, hbLast := s.heartbeatKey, hbSent := s.now, first := false } }

/-- Is a heartbeat due: the first frame, a change, or the end of the period? (DEDUCED, log 35). -/
def State.heartbeatDue (s : State) : Bool :=
  s.can.first || s.heartbeatKey != s.can.hbLast ||
    (s.can.hbPeriod != 0 && s.since s.can.hbSent (1000000 * s.can.hbPeriod.toNat))

/-- HEARTBEAT. -/
def execHeartbeat (s : State) : Out := act (s.canOn && s.heartbeatDue) s sendHeartbeat

/-! ### Fault frames (R405) -/

/-- FAULT_FRAME: the oldest queued frame is sent. -/
def execFaultFrame (s : State) : Out :=
  act (s.canOn && !s.can.first && !s.can.faults.isEmpty) s fun s =>
    match s.can.faults with
    | w :: rest =>
      let t := { s with can := { s.can with faults := rest } }
      canSend t { ident := BitVec.ofNat 11 (0x100 + s.boot.nodeId.toNat), data := bytesOf w }
    | [] => s

/-! ### Error confinement (R400, by ISO 11898-1) -/

/-- A frame received without error: REC counts down, from above 127 to 127. -/
def CanSt.received_ (c : CanSt) : CanSt :=
  let rec_ := if 127 < c.rec_ then 127 else c.rec_ - 1
  { c with received := satInc c.received, rec_ := rec_, passive := 127 < c.tec || 127 < rec_ }

/-- An error: TEC rises by 8 while transmitting, REC by 1 while receiving (PRESUMED, log 45). -/
def CanSt.error (c : CanSt) (transmitting : Bool) : CanSt :=
  let tec := if transmitting then c.tec + 8 else c.tec
  let rec_ := if transmitting then c.rec_ else c.rec_ + 1
  let passive := 127 < tec || 127 < rec_
  { c with tec := tec, rec_ := rec_, passive := passive, busOff := 255 < tec,
           passives := if passive && !c.passive then satInc c.passives else c.passives }

/-- CAN_BUS_ERROR. -/
def execCanBusError (transmitting : Bool) (s : State) : Out :=
  act s.canOn s fun s => { s with can := s.can.error transmitting }

/-- BUS_OFF_RECOVERY: logged with 0x1103. -/
def execBusOffRecovery (s : State) : Out :=
  act (s.fw && s.can.busOff) s fun s =>
    logEvent { s with can := { s.can with busOff := false, passive := false, tec := 0, rec_ := 0,
                                          recoveries := satInc s.can.recoveries } } 0x1103 { sev := 1 }

/-! ### DDA (R402, R403) -/

/-- A request frame arrives: the first frame the device sends is a heartbeat, so one goes out before any answer. -/
def receiveFrame (s : State) : State :=
  let s := { s with can := s.can.received_ }
  if s.can.first then sendHeartbeat s else s

/-- A new request ends a transfer under way with abort 0x22 (R403). -/
def endOld (s : State) : State :=
  match s.can.dda with
  | some d => ddaAbort s d.fd d.index d.sub 0x22 true
  | none => s

/-- A request joins those that wait for a dictionary cycle (R393). -/
def submit (s : State) (r : Req) : State := { s with dict := { s.dict with waiting := s.dict.waiting ++ [r] } }

/-- READ_REQUEST. -/
def execReadRequest (fd : Bool) (index : BitVec 16) (sub : BitVec 8) (s : State) : Out :=
  act s.canOn s fun s =>
    submit (endOld (receiveFrame s)) { src := .tray, path := .can fd, index := index, sub := sub }

/-- An undefined command byte: abort 0x24, for the transfer under way if there is one (R403). -/
def unknownByte (s : State) (fd : Bool) : State :=
  match s.can.dda with
  | some d => ddaAbort s d.fd d.index d.sub 0x24 true
  | none => ddaAbort s fd 0 0 0x24 true

/-- The longest expedited value of a frame. -/
def expeditedMax (fd : Bool) : Nat := if fd then 60 else 4

/-- EXPEDITED_WRITE of L bytes; an L that no command byte or frame carries is an undefined command byte. -/
def execExpeditedWrite (fd : Bool) (index : BitVec 16) (sub : BitVec 8) (data : List Byte) (s : State) : Out :=
  act s.canOn s fun s =>
    let s := receiveFrame s
    if data.isEmpty || expeditedMax fd < data.length then unknownByte s fd
    else submit (endOld s) { src := .tray, path := .can fd, index := index, sub := sub, write := true, data := data }

/-- SEGMENTED_WRITE_INITIATE: the checks of R391 and R395 come first. -/
def execSegmentedWriteInitiate (fd : Bool) (index : BitVec 16) (sub : BitVec 8) (len : BitVec 32) (s : State) : Out :=
  act s.canOn s fun s =>
    let s := endOld (receiveFrame s)
    let c := writeCheckLen s .tray index.toNat sub.toNat len.toNat
    if c != 0 then ddaAbort (countRequest s c) fd index sub c true
    else
      let s := ddaFrame s fd (ddaHead 0x80 sub index)
      { s with can := { s.can with dda := some { reading := false, fd := fd, index := index, sub := sub,
                                                 len := len.toNat, last := s.now } } }

/-- Data bytes of a full segment. -/
def segmentMax (fd : Bool) : Nat := if fd then 63 else 7

def segmentByte (toggle last : Bool) : Byte := BitVec.ofNat 8 (0xC0 + 32 * bnat toggle + 16 * bnat last)

/-- A segment of a read is asked for: the device sends it, and the transfer ends with the last (R403). -/
def readSegment (s : State) (d : Dda) (fd toggle : Bool) : State :=
  let n := segmentMax fd
  let last := decide (d.data.length ≤ n)
  let s := ddaFrame s fd ([segmentByte toggle last] ++ d.data.take n)
  { s with can := { s.can with dda := if last then none
                                      else some { d with data := d.data.drop n, seg := d.seg + 1, last := s.now } } }

/-- A segment of a write arrives: acknowledged, or, if it is the last, the value written in its cycle (R403). -/
def writeDdaSegment (s : State) (d : Dda) (fd toggle last : Bool) (data : List Byte) : State :=
  if last then
    let v := d.data ++ data.take (min (segmentMax fd) (d.len - d.data.length))
    submit { s with can := { s.can with dda := none } }
      { src := .tray, path := .canSeg fd, index := d.index, sub := d.sub, write := true, data := v }
  else
    let s := ddaFrame s fd [segmentByte toggle false]
    { s with can := { s.can with dda := some { d with data := d.data ++ data.take (segmentMax fd), seg := d.seg + 1, last := s.now } } }

/-- SEGMENT_FRAME: a wrong toggle aborts with 0x20; outside a transfer it is ignored (DEDUCED, log 46). -/
def execSegmentFrame (fd toggle last : Bool) (data : List Byte) (s : State) : Out :=
  act s.canOn s fun s =>
    let s := receiveFrame s
    match s.can.dda with
    | none => s
    | some d =>
      if toggle != (d.seg % 2 == 1) then ddaAbort s fd d.index d.sub 0x20 true
      else if d.reading then readSegment s d fd toggle
      else writeDdaSegment s d fd toggle last data

/-- DDA_ABORT: the tray ends the transfer, recorded as 0x23. -/
def execDdaAbort (s : State) : Out :=
  act s.canOn s fun s =>
    let s := receiveFrame s
    match s.can.dda with
    | some d => ddaAbort s d.fd d.index d.sub 0x23 false
    | none => s

/-- DDA_TIMEOUT: 100 ms without the next frame of the transfer. -/
def execDdaTimeout (s : State) : Out :=
  act (s.fw && (match s.can.dda with | some d => s.since d.last 100000000 | none => false)) s fun s =>
    match s.can.dda with
    | some d => ddaAbort s d.fd d.index d.sub 0x21 true
    | none => s

/-- Does the tray have a frame with this command byte (R402)? -/
def trayCommand (c : Byte) : Bool :=
  let n := c.toNat
  n == 0 || (0x41 ≤ n && n ≤ 0x7C) || n == 0x84 || n == 0xC0 || n == 0xD0 || n == 0xE0 || n == 0xF0 || n == 0xFF

/-- UNKNOWN_COMMAND. -/
def execUnknownCommand (fd : Bool) (cmd : BitVec 8) (s : State) : Out :=
  act (s.canOn && !trayCommand cmd) s fun s => unknownByte (receiveFrame s) fd

end Sys2Proof.Machine
end

