-- ==== Sys2Proof/Machine/Mirror.lean ====
section
/-! DEFINITION. The mirror window (17_object_dictionary R396 to R399): status lines, mailboxes, and how a request is
submitted. -/

namespace Sys2Proof.Machine

/-- The value a request line and its buffer give a write of LEN bytes (R397). -/
def requestData (line : BitVec 384) (buf : Nat → Byte) : List Byte :=
  let len := field line 16 16
  if len ≤ 8 then leBytes len (field line 64 64) else (upTo len).map fun i => if i < 2048 then buf i else 0

/-- The request that a request line asks for (R397). -/
def requestOf (src : Src) (path : Path) (line : Line) (buf : Nat → Byte) : Req :=
  let op := field line 32 2
  { src := src, path := path, index := bits line 48 16, sub := bits line 40 8, write := op == 2,
    badOp := op == 0 || op == 3, data := if op = 2 then requestData (line.setWidth 384) buf else [],
    reqid := bits line 0 16, ctr := bits line 384 64, line := line }

/-- A request of a mailbox takes the place of one that still waits (R397) (DEDUCED, log 26). -/
def submitFrom (s : State) (r : Req) : State :=
  { s with dict := { s.dict with waiting := (s.dict.waiting.filter fun x => x.path != r.path) ++ [r] } }

/-- Mailbox m is of companion m, or of tenant m − 16. -/
def boxSrc (m : Nat) : Src := if m < 16 then .companion (BitVec.ofNat 4 m) else .tenant (BitVec.ofNat 2 (m - 16))

/-- A store to a request line: a changed REQID submits (R397). -/
def storeRequest (s : State) (m : Nat) (line : Line) : State :=
  let old := (s.box m).req
  let t := s.updBox m fun b => { b with req := line }
  if bits line 0 16 = bits old 0 16 then t
  else submitFrom t (requestOf (boxSrc m) (.box m) line fun i => (s.box m).buf.read zeroByte i)

/-- What a line of the mirror is. -/
inductive MirrorLine where
  | status (ring : Nat)
  | request (box : Nat)
  | response (box : Nat)
  | buffer (box : Nat) (off : Nat)
  | reserved
deriving DecidableEq, Repr

/-- The line at a 64-byte aligned offset (R396). -/
def mirrorLine (off : Nat) : MirrorLine :=
  if off < 0x1000 then .status (off / 64)
  else if 0x4000 ≤ off && off < 0x18000 then
    let m := (off - 0x4000) / 0x1000
    let o := off % 0x1000
    if o = 0 then .request m else if o = 0x40 then .response m
    else if 0x800 ≤ o then .buffer m (o - 0x800) else .reserved
  else .reserved

/-- The contents of a mirror line. -/
def mirrorRead (s : State) (off : Nat) : Line :=
  match mirrorLine off with
  | .status n => (s.ring n).notify
  | .request m => (s.box m).req
  | .response m => (s.box m).rsp
  | .buffer m o => wordOf 512 ((countUp o 64).map fun i => (s.box m).buf.read zeroByte i)
  | .reserved => 0

/-- `new` in the bytes a 64-bit byte mask names, `old` elsewhere. -/
def mergeLine (mask : U64) (old new : Line) : Line :=
  loop 64 old fun l j => if mask.getLsbD j then putBits l (8 * j) (bits new (8 * j) 8) else l

/-- A store to a mirror line: the state after it, and the STATUS it is answered with (R326, R396) (DEDUCED, log 49). -/
def mirrorWrite (s : State) (off : Nat) (data : Line) (mask : U64) : State × BitVec 4 :=
  match mirrorLine off with
  | .status _ => (s, 6)
  | .response _ => (s, 6)
  | .request m => (storeRequest s m (mergeLine mask (s.box m).req data), 0)
  | .buffer m o =>
    (s.updBox m fun b => { b with buf := (upTo 64).foldl (fun w j =>
      if mask.getLsbD j then w.write zeroByte (o + j) (bits data (8 * j) 8) else w) b.buf }, 0)
  | .reserved => (s, 0)

end Sys2Proof.Machine
end

