-- ==== Sys2Proof/Machine/Tap.lean ====
section
/-! DEFINITION. The test access port (20_package_pins_test R452 to R460): loading an instruction, the boundary register,
and the dictionary over the port. A row of this family is an Update-IR to its instruction followed by one scan of its
data register. -/

namespace Sys2Proof.Machine

/-- Bytes of controller memory `n` (R22): the stream scheduler firmware and Ituno loader of compute dies 0 to 3, the security controller,
the object dictionary store, the power, thermal and time-base controllers, the trouble log. Memory n begins at address 2^24 × n of
debug access (DESIGN CHOICE, log 50). -/
def controlSize (n : Nat) : Nat :=
  1024 * if n < 4 then 768 else if n = 4 then 2048 else if n = 5 then 512 else if n = 6 then 384 else if n = 7 then 128 else 0

/-- Instructions that hand the balls to the boundary cells (R456). -/
def holdsBalls (code : Byte) : Bool := code = 0x00 || code = 0x04 || code = 0x05 || code = 0x06 || code = 0x07

/-- The debug instructions (R454). -/
def isDebugCode (code : Byte) : Bool := code = 0x20 || code = 0x21 || code = 0x22

/-- Instructions that leave a partition's keys alone (R366). -/
def sparesKeys (code : Byte) : Bool := code = 0xFF || code = 0x03 || code = 0x01

/-- The IDCODE word (R453). -/
def idcodeWord (s : State) : U32 :=
  let part : U16 := match s.ident.grade with | .a => 0x0900 | .b => 0x0901
  let w : U32 := 1
  let w := putField w 1 11 0x57B
  let w := putBits w 12 part
  putBits w 28 (bits s.ident.revision 0 4)

/-- The balls are handed to the boundary cells (R456): the device logs 0x1107, every partition takes a partition reset, which
scrubs one with a tenant, and the links go down. -/
def takeBalls (s : State) : State :=
  let s := { s with tap := { s.tap with held := true } }
  let s := if s.ctl then logEvent s 0x1107 { sev := 3 } else s
  let s := each (s.parts.filter fun p => s.pst p != .absent && s.pst p != .resetting && s.pst p != .scrub) s partReset
  { s with link := { s.link with up := false }, ports := s.ports.map fun e => (e.1, { e.2 with state := 0 }) }

/-- Leaving SCANCHAIN: the die takes a room reset of every room (R459). -/
def endScan (s : State) : State :=
  match s.tap.scanDie with
  | some d =>
    let rooms := (countUp (32 * d.toNat) 32).filter fun n => s.ident.roomsPresent.getLsbD n
    each rooms { s with tap := { s.tap with scanDie := none } } roomReset
  | none => s

/-- Update-IR (R452 to R457): the test-port rule for keys, then the change from the old instruction to the new. A debug
instruction acts as BYPASS while DEBUG reads 0, and so does an undefined code. Where the balls change hands the partition resets
destroy the keys and scrub. -/
def loadIr (s : State) (code : Byte) : State :=
  let hold := holdsBalls code
  let s := if sparesKeys code || (hold && !s.tap.held) then s else testPortRule s
  let s := endScan s
  let s := if hold && !s.tap.held then takeBalls s
           else if !hold && s.tap.held then { s with tap := { s.tap with held := false } } else s
  { s with tap := { s.tap with ir := code, highz := code == 0x05, ac := code == 0x06 || code == 0x07, dr := 0 } }

/-- The port runs while its supply is present (R447). -/
def tapOn (s : State) : Bool := s.powered

/-- EXTEST: the boundary cells drive and observe the balls. -/
def execExtest (s : State) : Out := act (tapOn s) s fun s => loadIr s 0x00

/-- SAMPLE: Capture-DR loads the levels at the cells, which are free. -/
def execSample (s : State) : Out :=
  act (tapOn s) s fun s =>
    let (k, s) := (loadIr s 0x01).takeFree
    { s with tap := { s.tap with bsr := Config.cells k } }

/-- PRELOAD: the shifted levels stand in the boundary register. -/
def execPreload (cells : BitVec 222) (s : State) : Out :=
  act (tapOn s) s fun s => let s := loadIr s 0x02; { s with tap := { s.tap with bsr := cells } }

/-- IDCODE: Capture-DR loads the IDCODE word. -/
def execIdcode (s : State) : Out :=
  act (tapOn s) s fun s => let s := loadIr s 0x03; { s with tap := { s.tap with dr := idcodeWord s } }

/-- CLAMP: the boundary register holds the balls behind the bypass register. -/
def execClamp (s : State) : Out := act (tapOn s) s fun s => loadIr s 0x04

/-- HIGHZ: every output is in high impedance. -/
def execHighz (s : State) : Out := act (tapOn s) s fun s => loadIr s 0x05

/-- EXTEST_PULSE (R455): an AC test pulse on every transmitter pair. -/
def execExtestPulse (s : State) : Out := act (tapOn s) s fun s => loadIr s 0x06

/-- EXTEST_TRAIN (R455): an AC test train on every transmitter pair. -/
def execExtestTrain (s : State) : Out := act (tapOn s) s fun s => loadIr s 0x07

/-- BYPASS. -/
def execBypass (s : State) : Out := act (tapOn s) s fun s => loadIr s 0xFF

/-- Any code of no instruction acts as BYPASS; the codes of instructions are their own rows (R454). -/
def tapDefined (code : Byte) : Bool :=
  code.toNat ≤ 0x07 || code = 0x10 || code = 0x11 || isDebugCode code || code = 0xFF

def execUndefinedInstruction (code : BitVec 8) (s : State) : Out :=
  act (tapOn s && !tapDefined code) s fun s => loadIr s code

/-- TEST_LOGIC_RESET loads IDCODE (R452). -/
def execTestLogicReset (s : State) : Out := act (tapOn s) s fun s => loadIr s 0x03

/-- DICT (R458): Capture-DR leaves the response for the master; Update-DR submits the request when REQID has changed. -/
def execDict (dr : BitVec 384) (s : State) : Out :=
  act (tapOn s) s fun s =>
    let s := loadIr s 0x10
    let old := s.tap.dictReq
    let t := { s with tap := { s.tap with dictReq := dr } }
    if bits dr 0 16 = bits old 0 16 || !s.fw then t
    else submitFrom t (requestOf .test .tap (dr.setWidth 512) fun i => bits s.tap.dictBuf (8 * i) 8)

/-- DICTBUF (R458): the test class's data buffer. -/
def execDictbuf (dr : BitVec 16384) (s : State) : Out :=
  act (tapOn s) s fun s => let s := loadIr s 0x11; { s with tap := { s.tap with dictBuf := dr } }

/-- SCANCHAIN (R459): the die's clocks stop while it shifts. -/
def execScanchain (die : BitVec 3) (s : State) : Out :=
  act (tapOn s) s fun s =>
    let s := loadIr s 0x21
    if s.sec.debug && die.toNat < 4 then { s with tap := { s.tap with scanDie := some die } } else s

/-- The march test (R420) leaves the memory written zero (DEDUCED, log 97). -/
def marchMem (s : State) : DbgMem → State
  | .room n => s.updRoom n.toNat fun r =>
      { r with imem := [], imemFrom := 0, imemPoison := [], larder := [], larderPoison := [], acc := [], accPoison := [],
               tb := [], tbPoison := [], attic := [], tiles := [], tilePoison := [] }
  | .baseDie n => discardWhere s fun g => (s.place g).die == n.toNat
  | .control n => { s with tap := { s.tap with control := Tbl.dropRange s.tap.control (2 ^ 24 * n.toNat) (2 ^ 24 * (n.toNat + 1)) } }

/-- MBIST (R459): the march test on a named memory, its result in the debug data field. -/
def execMbist (mem : DbgMem) (pass : Bool) (s : State) : Out :=
  act (tapOn s) s fun s =>
    let s := loadIr s 0x22
    if s.sec.debug then
      let s := marchMem s mem
      { s with tap := { s.tap with dbg := if pass then 1 else 0 } }
    else s

end Sys2Proof.Machine
end

