-- ==== Sys2Proof/Machine/Debug.lean ====
section
/-! DEFINITION. Debug access (20_package_pins_test R459): the memories and registers of a room, atrium lines, controller memories,
and the halt and single-word step of a hearth. The spec gives the 128-bit command no layout, so a command is held by its fields. -/

namespace Sys2Proof.Machine

/-- A 64-bit word of a byte memory. -/
def debugWord (m : Mem) (a : Nat) : U64 := BitVec.ofNat 64 (ofLe (memBytes m (8 * (a / 8)) 8))
def debugPut (m : Mem) (a : Nat) (v : U64) : Mem := memPut m (8 * (a / 8)) (leBytes 8 v.toNat)

/-- Does the word exist? -/
def debugHas (r : Room) : DbgWord → Bool
  | .larder a => a.toNat < larderSize
  | .loopLevel l _ => l.toNat < r.loops.length
  | .binding _ k => k.toNat < 18
  | _ => true

/-- The 1,104 bits of a binding register (R213), in 18 words of 64. -/
def bindingBits (b : Binding) : BitVec 1152 :=
  putBits (putField (b.desc.setWidth 1152) 1024 1 (if b.valid then 1 else 0)) 1056 b.ofs

def bindingOf (w : BitVec 1152) : Binding := { valid := flag w 1024, desc := w.setWidth 1024, ofs := bits w 1056 48 }

def loopHalf (l : LoopLevel) (half : Bool) : U64 :=
  if half then putField (BitVec.ofNat 64 (l.remain % 2 ^ 32)) 32 32 l.index
  else putField (BitVec.ofNat 64 (l.start % 2048)) 16 11 l.last

def debugRead (r : Room) (n : Nat) : DbgWord → U64
  | .larder a => debugWord r.larder a.toNat
  | .imem w k => bits (r.word n w.toNat) (64 * k.toNat) 64
  | .accumulator a => debugWord r.acc a.toNat
  | .transposing a => debugWord r.tb a.toNat
  | .attic e h => let q := Tbl.get ({} : Attic) r.attic e.toNat; BitVec.ofNat 64 (if h then q.v2 else q.v1)
  | .scalar i => r.x_ i.toNat
  | .parameter i => r.p_ i.toNat
  | .vector i h => bits (r.v_ i.toNat) (if h then 64 else 0) 64
  | .pc => BitVec.ofNat 64 r.pc
  | .loopLevel l h => loopHalf (r.loops.getD l.toNat ⟨0, 0, 0, 0⟩) h
  | .tileShape i => Tbl.get 0 r.ts i.toNat
  | .binding i k => bits (bindingBits (r.binding i.toNat)) (64 * k.toNat) 64
  | .token c => BitVec.ofNat 64 (Tbl.get 0 r.ctr c.toNat)
  | .sflags => r.sflags.setWidth 64

/-- A scalar register written whole loses its poison mark (R311). -/
def debugWrite (r : Room) (n : Nat) (v : U64) : DbgWord → Room
  | .larder a => { r with larder := debugPut r.larder a.toNat v }
  | .imem w k => { r with imem := Tbl.set r.imem w.toNat (putBits (r.word n w.toNat) (64 * k.toNat) v) }
  | .accumulator a => { r with acc := debugPut r.acc a.toNat v }
  | .transposing a => { r with tb := debugPut r.tb a.toNat v }
  | .attic e h =>
    let q := Tbl.get ({} : Attic) r.attic e.toNat
    { r with attic := Tbl.set r.attic e.toNat (if h then { q with v2 := v.toNat } else { q with v1 := v.toNat }) }
  | .scalar i => { r with x := Tbl.set r.x i.toNat v, xPoison := r.xPoison.filter (· != i.toNat) }
  | .parameter i => { r with p := Tbl.set r.p i.toNat v }
  | .vector i h => { r with v := Tbl.set r.v i.toNat (putBits (r.v_ i.toNat) (if h then 64 else 0) v) }
  | .pc => { r with pc := v.toNat % 2048 }
  | .loopLevel l h => { r with loops := r.loops.modify l.toNat fun q =>
      if h then { q with remain := field v 0 32, index := field v 32 32 } else { q with start := field v 0 11, last := field v 16 11 } }
  | .tileShape i => { r with ts := Tbl.set r.ts i.toNat v }
  | .binding i k => { r with db := Tbl.set r.db i.toNat (bindingOf (putBits (bindingBits (r.binding i.toNat)) (64 * k.toNat) v)) }
  | .token c => { r with ctr := Tbl.set r.ctr c.toNat (v.toNat % 256) }
  | .sflags => { r with sflags := (bits v 0 6).setWidth 7 }

/-- The data field of the debug register. -/
def setDbg (s : State) (v : U64) : State := { s with tap := { s.tap with dbg := v } }

/-- A word that debug access does not reach has no value in the spec. -/
def unreachedDbg (s : State) : State := let (k, s) := s.takeFree; setDbg s (Config.controlWord k)

/-- A halted hearth attempts one word. -/
def stepRoom (s : State) (n : Nat) : State :=
  let t := s.updRoom n fun r => { r with halted := false }
  if t.roomIssues n && (t.room n).wordKnown then (roomStep t n).updRoom n fun r => { r with halted := true } else s

/-- Does a controller memory have the 64-bit word at an address (R22)? -/
def controlHas (a : Nat) : Bool := a % 2 ^ 24 < controlSize (a / 2 ^ 24)

/-- The effect of one debug access. -/
def debugAccess (s : State) : DbgCmd → State
  | .roomRead n w => if debugHas (s.room n.toNat) w then setDbg s (debugRead (s.room n.toNat) n.toNat w) else unreachedDbg s
  | .roomWrite n w v => if debugHas (s.room n.toNat) w then s.updRoom n.toNat fun r => debugWrite r n.toNat v w else s
  | .lineRead g i => match s.mem.line g.toNat with
    | some l => setDbg s (bits l.data (64 * i.toNat) 64)
    | none => unreachedDbg s
  | .lineWrite g i v => match s.mem.line g.toNat with
    | some l => s.setMem { s.mem with lines := Tbl.set s.mem.lines g.toNat { l.clean with data := putBits l.clean.data (64 * i.toNat) v, dirty := true } }
    | none => s
  | .controlRead a => match (if controlHas a.toNat then Tbl.find s.tap.control (8 * (a.toNat / 8)) else none) with
    | some v => setDbg s v
    | none => unreachedDbg s
  | .controlWrite a v =>
    if controlHas a.toNat then { s with tap := { s.tap with control := Tbl.set s.tap.control (8 * (a.toNat / 8)) v } } else s
  | .halt n => s.updRoom n.toNat fun r => { r with halted := true }
  | .go n => s.updRoom n.toNat fun r => { r with halted := false }
  | .step n => if (s.room n.toNat).halted then stepRoom s n.toNat else s

/-- DBGACC: the instruction is loaded; its access happens while DEBUG reads 1. -/
def execDbgacc (cmd : DbgCmd) (s : State) : Out :=
  act (tapOn s) s fun s =>
    let s := loadIr s 0x20
    if s.sec.debug then debugAccess s cmd else s

end Sys2Proof.Machine
end

