-- ==== Sys2Proof/Machine/Link.lean ====
section
/-! DEFINITION. The companion link (14_companion_link R317 to R327; 13 R301, R302): flits in order, reads, writes and
atomics through windows and the mirror, responses to the device's own reads, snoops and link resets. -/

namespace Sys2Proof.Machine

/-! ### Flits (R318 to R321) -/

def satInc16 (c : U16) : U16 := if c = 0xFFFF then c else c + 1

/-- Is a flit sound, and the next in FRAME order, on a link that is up? -/
def State.flitNext (s : State) (fl : Flit) : Bool := s.ctl && s.link.up && flitSound fl && fl.frame == s.link.rxFrame

/-- A flit is taken: its ACK counts, and the next FRAME is expected once its last message is in. -/
def takeFlit (s : State) (fl : Flit) : State :=
  { s with link := { s.link.acked fl.ack with rxFrame := if fl.more then s.link.rxFrame else s.link.rxFrame + 1, nakDue := false } }

/-- After the last message of a flit the outbound flit that matches it goes (R323). -/
def endFlit (fl : Flit) (s : State) : State := if fl.more then s else { s with link := s.link.turn }

/-- A flit that FEC or CRC fails is counted, and it, one out of FRAME order, and those after it are discarded and NAK is sent (R320). -/
def refuseFlit (fl : Flit) (s : State) : State :=
  let c := if flitSound fl || fl.more then s.link.crcFails else satInc16 s.link.crcFails
  endFlit fl { s with link := { s.link with nakDue := true, crcFails := c } }

/-- A message of a flit. -/
def message (fl : Flit) (s : State) (f : State → State) : Out :=
  act (s.ctl && s.link.up) s fun s => if s.flitNext fl then endFlit fl (f (takeFlit s fl)) else refuseFlit fl s

/-- IDLE_FLIT: every slot empty. -/
def execIdleFlit (fl : Flit) (s : State) : Out := message fl s fun s => s

/-- COMPANION_NAK (R320): the unacknowledged flits are replayed unchanged, from ACK + 1. -/
def execCompanionNak (fl : Flit) (s : State) : Out := message fl s fun s => s

/-- FLIT_ERROR (R320): a flit of which FEC and CRC leave nothing that can be read. One that carries a known message and fails them, or comes
out of FRAME order, is refused by its message's command (DESIGN CHOICE, log 33). -/
def execFlitError (s : State) : Out :=
  act (s.ctl && s.link.up) s fun s => { s with link := { s.link with nakDue := true, crcFails := satInc16 s.link.crcFails }.turn }

/-- MESSAGE_OF_UNDEFINED_TYPE (R319): TYPE above 0x0A. -/
def execMessageOfUndefinedType (msg : StrayMessage) (s : State) : Out :=
  message msg.flit s fun s => if msg.typ.toNat ≤ 10 then s else { s with link := { s.link with discarded := satInc16 s.link.discarded } }

/-! ### Responses the device sends -/

def allOnesLine : List Byte := List.replicate 64 0xFF

/-- RSPD with data, or all ones under any STATUS but 0 (R326). -/
def readAnswer (tag : BitVec 11) (status : BitVec 4) (data : List Byte) : OutMsg :=
  { typ := 7, tag := tag, status := status, data := if status = 0 then data else allOnesLine }
def respondRead (s : State) (tag : BitVec 11) (status : BitVec 4) (data : List Byte) : State := linkSend s (readAnswer tag status data)

/-- RSP (R319). -/
def respond (s : State) (tag : BitVec 11) (status : BitVec 4) : State := linkSend s { typ := 6, tag := tag, status := status }

/-! ### Addresses (R326, R327) -/

inductive Target where
  | window (p : Nat) (a : Nat)
  | mirror (off : Nat)
  | nothing
deriving DecidableEq, Repr

/-- What a link address reaches. -/
def State.target (s : State) (addr : Nat) : Target :=
  let base := s.link.base.toNat
  if addr < base then .nothing
  else
    let a := addr - base
    match s.ownerOfAddr a with
    | some p => .window p a
    | none => if 0x7000000000 ≤ a && a < 0x7001000000 then .mirror (a - 0x7000000000) else .nothing

/-- Is partition `p` formed (R327)? -/
def State.formed (s : State) (p : Nat) : Bool := s.pst p != .absent

/-- Is partition p's window open (R327)? -/
def State.windowOpen (s : State) (p : Nat) : Bool :=
  (s.ps p).windowEn && s.formed p && !s.sealed p && s.pst p != .scrub && s.pst p != .resetting

/-- The STATUS that the window's state gives an access to `a` (R325, R326). -/
def State.windowStatus (s : State) (p a : Nat) : BitVec 4 :=
  if s.pst p == .scrub then 2
  else if s.pst p == .resetting then 3
  else if !s.windowOpen p || s.descBase p ≤ a then 1
  else 0

/-- The STATUS of an access that the window lets through, and the record of a refusal (R314) (DEDUCED, log 47). -/
def windowAccess (s : State) (p a : Nat) : State × BitVec 4 :=
  let st := s.windowStatus p a
  if st != 0 then (s, st)
  else match s.accessStop a with
    | some _ => (recordRefused s a, 4)
    | none => (s, 0)

/-! ### Reads and writes -/

/-- A read of a 64-byte line. -/
def linkReadLine (s : State) (tag : BitVec 11) (addr : Nat) : State :=
  match s.target addr with
  | .nothing => respondRead s tag 7 []
  | .mirror off => respondRead s tag 0 (bytesOf (mirrorRead s off))
  | .window p a =>
    let (s, st) := windowAccess s p a
    if st != 0 then respondRead s tag st []
    else
      let s := touch s a 64
      if s.poisonAt a 64 then respondRead s tag 5 [] else respondRead s tag 0 (s.bytesAt a 64)

/-- RD (R326). `found`: errors that have struck before the read. -/
def execRd (fl : Flit) (tag : BitVec 11) (line : BitVec 46) (found : List Flaw) (s : State) : Out :=
  message fl s fun s => linkReadLine (strikeAll s found) tag (64 * line.toNat)

/-- RDREG (R323): a register-class read, answered in the response slot; of any other address as RD (DEDUCED, log 43). -/
def execRdreg (fl : Flit) (tag : BitVec 11) (line : BitVec 46) (s : State) : Out :=
  message fl s fun s => match s.target (64 * line.toNat) with
    | .mirror off => { s with link := s.link.putReg (readAnswer tag 0 (bytesOf (mirrorRead s off))) }
    | _ => linkReadLine s tag (64 * line.toNat)

/-- The bytes that a mask names, stored one run at a time. -/
def storeMasked (s : State) (a : Nat) (data : BitVec 512) (mask : U64) : State :=
  let off := a % 256
  storeGranule s (a / 256) (data.setWidth 2048 <<< (8 * off)) (mask.setWidth 256 <<< off) 0

/-- A write under a byte mask. -/
def linkWriteMasked (s : State) (tag : BitVec 11) (addr : Nat) (data : BitVec 512) (mask : U64) : State :=
  match s.target addr with
  | .nothing => respond s tag 7
  | .mirror off =>
    let (s, st) := mirrorWrite s off data mask
    respond s tag st
  | .window p a =>
    let (s, st) := windowAccess s p a
    if st != 0 then respond s tag st else respond (storeMasked s a data mask) tag 0

/-- WR: a full-line write. -/
def execWr (fl : Flit) (tag : BitVec 11) (line : BitVec 46) (data : BitVec 512) (s : State) : Out :=
  message fl s fun s => linkWriteMasked s tag (64 * line.toNat) data (BitVec.allOnes 64)

/-- WRP: a partial write. -/
def execWrp (fl : Flit) (tag : BitVec 11) (line : BitVec 46) (data : BitVec 512) (mask : BitVec 64) (s : State) : Out :=
  message fl s fun s => linkWriteMasked s tag (64 * line.toNat) data mask

/-! ### Atomics (R302) -/

def atWidth : AtKind → Nat
  | .addS16 | .minS16 | .maxS16 => 2
  | .addI32 | .addF32 | .minF32 | .minI32 | .maxF32 | .maxI32 | .cas32 => 4
  | _ => 8

/-- The value an atomic leaves: the old one `o`, operands `a` and `b`, as patterns of its width. -/
def atResult (k : AtKind) (o a b : Nat) : Nat :=
  let w := 8 * atWidth k
  let pick := fun (mx : Bool) => if (if mx then decide (signed w o < signed w a) else decide (signed w a < signed w o)) then a else o
  match k with
  | .addI32 | .addI64 => (o + a) % 2 ^ w
  | .addF32 => (fAdd fF32 .rne o a).1
  | .addF64 => (fAdd fF64 .rne o a).1
  | .addS16 => (fAdd fS16 .rne o a).1
  | .minF32 => (fMin fF32 o a).1
  | .minF64 => (fMin fF64 o a).1
  | .minS16 => (fMin fS16 o a).1
  | .maxF32 => (fMax fF32 o a).1
  | .maxF64 => (fMax fF64 o a).1
  | .maxS16 => (fMax fS16 o a).1
  | .minI32 | .minI64 => pick false
  | .maxI32 | .maxI64 => pick true
  | .cas32 | .cas64 => if o = a then b else o

/-- An atomic at `a` on the atrium: the line is brought in, the operand updated; a poisoned sector stays poisoned. -/
def atomicAt (s : State) (a : Nat) (k : AtKind) (x y : Nat) : State × Nat × Bool :=
  let w := atWidth k
  let s := touch s a w
  let o := ofLe (s.bytesAt a w)
  let po := s.poisonAt a w
  let r := atResult k o (x % 2 ^ (8 * w)) (y % 2 ^ (8 * w))
  (storeBytes s a (leBytes w r) po, o, po)

/-- An atomic request. One that the mirror or no device address would take, or whose operand is not aligned, is answered
with STATUS 7; one that returns the old value out of a poisoned sector, with 5 (DEDUCED, log 47). -/
def linkAtomic (s : State) (tag : BitVec 11) (addr : Nat) (op : AtomicOp) (x y : Nat) : State :=
  let done := fun (s : State) (st : BitVec 4) (v : Nat) =>
    if op.fetch then respondRead s tag st (padTo 64 (leBytes (atWidth op.kind) v)) else respond s tag st
  match s.target addr with
  | .window p a =>
    let (s, st) := windowAccess s p a
    if st != 0 then done s st 0
    else if addr % (atWidth op.kind) != 0 then done s 7 0
    else
      let (s, v, po) := atomicAt s a op.kind x y
      done s (if po && op.fetch then 5 else 0) v
  | _ => done s 7 0

/-- AT (R302). -/
def execAt (fl : Flit) (tag : BitVec 11) (addr : BitVec 52) (op : AtomicOp) (a : BitVec 64) (b : BitVec 64) (s : State) : Out :=
  message fl s fun s => linkAtomic s tag addr.toNat op a.toNat b.toNat

/-! ### Answers to the device's reads (R322, R329, R331) -/

/-- The device has what it read: a tail line to act on, a notify line it owns, half of an entry. -/
def gotLine (s : State) (tag : BitVec 11) (ok : Bool) (data : Line) : State :=
  match Tbl.find s.link.reads tag.toNat with
  | none => s
  | some why =>
    let s := { s with link := s.link.answered tag.toNat }
    match why with
    | .tail n =>
      if ok then s.updRing n fun r => if r.enabled then { r with line := data, lineHeld := true, read := true, stopSeen := false } else r
      else s
    | .notify n => if ok then s.updRing n fun r => if r.enabled then { r with owned := true } else r else s
    | .entry n seq half => entryHalf s n seq half ok data

/-- RSPD: a response with data (DEDUCED, log 44). -/
def execRspd (fl : Flit) (tag : BitVec 11) (status : BitVec 4) (data : BitVec 512) (s : State) : Out :=
  message fl s fun s => gotLine s tag (status == 0) data

/-- RSP: a response without data; to a read it is one that failed. -/
def execRsp (fl : Flit) (tag : BitVec 11) (_status : BitVec 4) (s : State) : Out :=
  message fl s fun s => gotLine s tag false 0

/-! ### Snoops (R322, R324) -/

/-- SNPINV: the tail line goes to I and is read again; a line not held is answered and nothing changes. -/
def execSnpinv (fl : Flit) (tag : BitVec 11) (line : BitVec 46) (s : State) : Out :=
  message fl s fun s =>
    let held := (upTo 64).filter fun n => (s.ring n).enabled && (s.ring n).lineHeld && (s.ring n).tailAt == 64 * line.toNat
    each held (respond s tag 0) fun s n => readTail (s.updRing n fun r => { r with lineHeld := false }) n

/-- SNPRD: the current contents of a notify line held in M. -/
def execSnprd (fl : Flit) (tag : BitVec 11) (line : BitVec 46) (s : State) : Out :=
  message fl s fun s =>
    match (upTo 64).find? fun n => (s.ring n).enabled && (s.ring n).owned && (s.ring n).notifyAt == 64 * line.toNat with
    | some n => respondRead s tag 0 (bytesOf (s.ring n).notify)
    | none => respond s tag 0

/-! ### Link reset (R317, R321) -/

/-- What is sent again after a link reset: the unacknowledged writes, in their order, in flits numbered from 0 (DEDUCED, log 48). -/
def keptWrites (l : List SentMsg) : List OutMsg := (l.map (·.msg)).filter fun m => m.typ == 3 || m.typ == 4

/-- The link trains again from nothing, FRAMEs from 0, with the writes it kept. -/
def LinkSt.again (l : LinkSt) : LinkSt :=
  (keptWrites l.replay).foldl LinkSt.put
    { l with rxFrame := 0, nakDue := false, txFrame := 0, ahead := 0, slot := 5, regAhead := 0, replay := [], reads := [], waiting := [] }

/-- LINK_RESET: the link retrains, at best at generation `gen`. -/
def execLinkReset (gen : BitVec 2) (s : State) : Out :=
  act (s.fw && !s.tap.held) s fun s =>
    let l := { s.link.again with up := gen != 0, gen := if gen = 0 then s.link.gen else s.trained gen,
                                 retrains := if s.link.retrains = 0xFF then 0xFF else s.link.retrains + 1 }
    let s := { s with link := l }
    each ((upTo 64).filter fun n => (s.ring n).enabled) s fun s n =>
      let s := s.updRing n fun r => { r with lineHeld := false, owned := false }
      if s.link.up then refetch (readNotify (readTail s n) n) n else s

end Sys2Proof.Machine
end

