-- ==== Sys2Proof/Machine/Rings.lean ====
section
/-! DEFINITION. Command rings (14_companion_link R329, R330, R335 to R338): what a tail line as last read asks for, and the
notify line. -/

namespace Sys2Proof.Machine

/-! ### Fields of a tail line (R329) -/

def lineTail (l : Line) : Nat := field l 0 64
def lineHead (l : Line) : Nat := field l 64 64
def lineStop (l : Line) : U16 := bits l 128 16
def lineResume (l : Line) : U16 := bits l 144 16
def lineReset (l : Line) : U16 := bits l 160 16

/-- The ring's tail line has been read and its RESETGEN taken. -/
def State.lineTaken (s : State) (n : Nat) : Bool :=
  let r := s.ring n
  s.ctl && r.enabled && r.read && lineReset r.line == r.takenReset

/-- What TAIL and HEAD of the line as read are: good, or an overrun (R330, R337) (DEDUCED, log 63). -/
def Ring.overruns (r : Ring) : Bool :=
  let t := lineTail r.line
  let h := lineHead r.line
  t < r.tail || min h r.done + r.size < t || (r.fresh && (t != 0 || h != 0))

/-- TAIL: new entries, or an overrun. The reserved bits of the line, which R7 does not list, are not checked (DEDUCED, log 117). -/
def execTail (ring : BitVec 6) (s : State) : Out :=
  let n := ring.toNat
  act (s.lineTaken n && !(s.ring n).overrun) s fun s =>
    let r := s.ring n
    if r.overruns then settleOverrun (s.updRing n fun r => { r with overrun := true, fresh := false }) n
    else
      let s := s.updRing n fun r => { r with tail := lineTail r.line, head := lineHead r.line, fresh := false }
      runOrIdle (fetchMore s n) n

/-- The STATE that a partition's condition imposes on a ring that has been reset. -/
def showOwn (s : State) (n : Nat) : State :=
  match s.pst (ringPart n) with
  | .scrub => s.updRing n fun r => { r with st := .scrub }
  | .resetting => s.updRing n fun r => { r with st := .resetting }
  | _ => s

/-- RESETGEN (R330, R337): a changed value is a ring reset; the other fields of the line are taken without effect. -/
def execResetgen (ring : BitVec 6) (s : State) : Out :=
  let n := ring.toNat
  let r := s.ring n
  act (s.ctl && r.enabled && r.read && lineReset r.line != r.takenReset) s fun s =>
    let s := s.updRing n fun r => { r with takenReset := lineReset r.line, takenStop := lineStop r.line,
                                           takenResume := lineResume r.line }
    showOwn (ringReset s n) n

/-- STOPGEN (R330, R336): a changed value is a stop request; one without effect is echoed at once. -/
def execStopgen (ring : BitVec 6) (s : State) : Out :=
  let n := ring.toNat
  let r := s.ring n
  act (s.lineTaken n && lineStop r.line != r.takenStop) s fun s =>
    let s := s.updRing n fun r => { r with takenStop := lineStop r.line, stopSeen := true }
    match (s.ring n).st with
    | .idle | .running => stopRing s n
    | .stopping => s
    | _ => s.updRing n fun r => { r with echoStop := r.takenStop }

/-- RESUMEGEN (R330, R336): dispatch is enabled again in STATE 3 or 4; behind a STOPGEN of the same line, once the stream
has stopped; held while a stop image is exported (R357); otherwise without effect (DEDUCED, log 57). -/
def execResumegen (ring : BitVec 6) (s : State) : Out :=
  let n := ring.toNat
  let r := s.ring n
  act (s.lineTaken n && lineStop r.line == r.takenStop && lineResume r.line != r.takenResume) s fun s =>
    let s := s.updRing n fun r => { r with takenResume := lineResume r.line }
    let r := s.ring n
    let echo := fun (r : Ring) => { r with echoResume := r.takenResume }
    if r.overrun then s.updRing n echo
    else if (r.st == .stopped && (s.ps (ringPart n)).holdResume) || (r.st == .stopping && r.stopSeen) || (r.st == .halted && r.stopReq) then
      s.updRing n fun r => { r with resumePend := true }
    else if r.st == .stopped || r.st == .halted then
      runOrIdle (s.updRing n Ring.resumed) n
    else s.updRing n echo

/-- NOTIFY_UPDATE (R335): the notify line takes the contents it should have. -/
def execNotifyUpdate (ring : BitVec 6) (s : State) : Out :=
  let n := ring.toNat
  act (s.ctl && (s.ring n).enabled && (s.ring n).notify != (s.ring n).notifyWord) s fun s =>
    s.updRing n fun r => { r with notify := r.notifyWord }

end Sys2Proof.Machine
end

