-- ==== Sys2Proof/Machine/Shares.lean ====
section
/-! DEFINITION. The share a room starts next (11_training_support R243 to R246), and SHARE_START. -/

namespace Sys2Proof.Machine

/-- What the head entry of a ring would use if it were dispatched now (R53, R89). -/
def State.headUses (s : State) (n : Nat) (e : Entry) : Uses :=
  let o := newOp s n e
  if o.noop then {}
  else if eKind e = 2 then (continued s n o).uses
  else
    let o := match o.opc with
      | 3 => prepDwrite s n o
      | 4 | 5 => prepScale s n o
      | 6 | 7 => prepHist s n o
      | 0x12 => prepRun s n o
      | 0x20 => prepSolve s n o
      | 0x30 => prepReduce s n o
      | 0x31 => prepExchange s n o
      | 0x32 => prepSplice s n o
      | _ => o
    o.uses

/-- Does a macro-operation of the partition wait for `o` (of ring `n`): the head entry of its own stream under R53, a held DWRITE on a
version its slots pin, or a fence or hitch behind it (R244)? -/
def State.waitedFor (s : State) (n : Nat) (o : Op) : Bool :=
  let p := ringPart n
  let r := s.ring n
  let head := match s.headEntry n with
    | some e => (s.headUses n e).waitsFor o.uses
    | none => false
  let dwrite := (s.liveOps p).any fun e => e.2.is 3 && e.2.hold && !e.2.work &&
    (s.stashWaits p (e.2.bind 0) (dVersion (Tbl.get 0 e.2.descs 0))).any fun v =>
      o.slotList.any fun i => let x := s.slotAt p i; x.st != 0 && x.ver.toNat == v
  head || dwrite || r.ops.any fun f => f.isFence && f.live && o.order < f.order

/-- The class of a ready share (R243). -/
def State.shareClass (s : State) (n : Nat) (o : Op) (h : Share) : Nat :=
  match o.phase with
  | 4 => if h.limit ≤ h.passed || s.waitedFor n o then 1 else 5
  | 3 => 2
  | 5 => 4
  | _ => 3

/-- Ready shares of a room: (class, order, ring, macro-operation). -/
def State.readyShares (s : State) (n : Nat) : List (Nat × Nat × Nat × Op) :=
  let p := s.ownerOfRoom n
  ((ringsOf p).map fun k =>
    if (s.ring k).stopReq then []
    else ((s.ring k).ops.filter Op.live).filterMap fun o =>
      (o.shares.find? fun h => h.room == n && !h.started).map fun h => (s.shareClass k o h, o.order, k, o)).flatten

/-- The share a free room starts: lowest class, then dispatched first (DEDUCED, log 66). -/
def State.nextShare (s : State) (n : Nat) : Option (Nat × Op) :=
  ((s.readyShares n).foldl (fun (b : Option (Nat × Nat × Nat × Op)) e =>
    match b with
    | some x => if e.1 < x.1 || (e.1 == x.1 && e.2.1 < x.2.1) then some e else b
    | none => some e) none).map fun e => (e.2.2.1, e.2.2.2)

/-- SHARE_START: a free room starts the ready share of the lowest class; the shares it passes over count it (R244). A block for a
room out of service faults (R225). -/
def execShareStart (room : BitVec 7) (s : State) : Out :=
  let n := room.toNat
  match s.nextShare n with
  | some (k, o) =>
    act (s.roomLive n && (s.room n).run.isNone && !(s.room n).halted) s fun s =>
      if s.outOfService 0 n then faultOp s k o.orig { cause := 0x0406, seq := o.seq, room := some n, prog := BitVec.ofNat 16 o.prog,
                                                      entry := BitVec.ofNat 16 o.entry }
      else
      let p := ringPart k
      let xl := match s.programOf p o with | some g => g.xlate | none => 0
      let start := (Config.blockStart xl n o.entry).toNat
      let s := s.updRoom n fun r => { r.begin o (s.patches o) start (k, o.orig) with imemFrom := xl + 1 }
      let s := each (ringsOf p) s fun s j => s.updOps j fun q => { q with shares := q.shares.map fun h =>
        if h.room = n && !h.started then { h with passed := h.passed + 1 } else h }
      s.updOp k o.orig fun q => { q with shares := q.shares.map fun h => if h.room = n then { h with started := true } else h }
  | none => .next s

end Sys2Proof.Machine
end

