-- ==== Sys2Proof/Machine/Dispatch.lean ====
section
/-! DEFINITION. What each command does: one arm per command. -/

namespace Sys2Proof.Machine

def exec (i : Instr) (s : State) : Host.Outcome State Fault Refusal :=
  match i with
  | .tcodeFrame bits => Sys2Proof.Machine.execTcodeFrame bits s
  | .tsyncEdge => Sys2Proof.Machine.execTsyncEdge s
  | .trefLoss => Sys2Proof.Machine.execTrefLoss s
  | .tsyncTimeout => Sys2Proof.Machine.execTsyncTimeout s
  | .eventArm src n val => Sys2Proof.Machine.execEventArm src n val s
  | .eventCancel src n val => Sys2Proof.Machine.execEventCancel src n val s
  | .slotStop n p => Sys2Proof.Machine.execSlotStop n p s
  | .slotEnd n => Sys2Proof.Machine.execSlotEnd n s
  | .powerCapChange n => Sys2Proof.Machine.execPowerCapChange n s
  | .slotStart n => Sys2Proof.Machine.execSlotStart n s
  | .checkpointSealing n => Sys2Proof.Machine.execCheckpointSealing n s
  | .scrub n => Sys2Proof.Machine.execScrub n s
  | .troubleLogStamp n => Sys2Proof.Machine.execTroubleLogStamp n s
  | .phaseTimerStamp n => Sys2Proof.Machine.execPhaseTimerStamp n s
  | .solverDeadline n => Sys2Proof.Machine.execSolverDeadline n s
  | .scrubEnd p => Sys2Proof.Machine.execScrubEnd p s
  | .dictionaryCycle => Sys2Proof.Machine.execDictionaryCycle s
  | .dictionaryRead src index sub => Sys2Proof.Machine.execDictionaryRead src index sub s
  | .dictionaryWrite src index sub data => Sys2Proof.Machine.execDictionaryWrite src index sub data s
  | .partitionModeWrite src v => Sys2Proof.Machine.execPartitionModeWrite src v s
  | .modeChange => Sys2Proof.Machine.execModeChange s
  | .partitionReset p uncorrectable => Sys2Proof.Machine.execPartitionReset p uncorrectable s
  | .roomZeroingComplete room => Sys2Proof.Machine.execRoomZeroingComplete room s
  | .partitionFormation p => Sys2Proof.Machine.execPartitionFormation p s
  | .capWrite src v => Sys2Proof.Machine.execCapWrite src v s
  | .windowWrite src v => Sys2Proof.Machine.execWindowWrite src v s
  | .stampPeriodWrite src ring v => Sys2Proof.Machine.execStampPeriodWrite src ring v s
  | .windowEnable src p v => Sys2Proof.Machine.execWindowEnable src p v s
  | .ringEnable src ring => Sys2Proof.Machine.execRingEnable src ring s
  | .ringDisable src ring => Sys2Proof.Machine.execRingDisable src ring s
  | .blockedGranuleWrite src entry val => Sys2Proof.Machine.execBlockedGranuleWrite src entry val s
  | .takeOutOfService src cls num => Sys2Proof.Machine.execTakeOutOfService src cls num s
  | .readmit src cls num => Sys2Proof.Machine.execReadmit src cls num s
  | .quarantineEnd cls num pass => Sys2Proof.Machine.execQuarantineEnd cls num pass s
  | .readmission cls num => Sys2Proof.Machine.execReadmission cls num s
  | .stopOverrun p => Sys2Proof.Machine.execStopOverrun p s
  | .controlMemoryError => Sys2Proof.Machine.execControlMemoryError s
  | .noOp ring => Sys2Proof.Machine.execNoOp ring s
  | .continueEntry ring => Sys2Proof.Machine.execContinueEntry ring s
  | .fence ring => Sys2Proof.Machine.execFence ring s
  | .fenceComplete ring => Sys2Proof.Machine.execFenceComplete ring s
  | .hitch ring => Sys2Proof.Machine.execHitch ring s
  | .dwrite ring => Sys2Proof.Machine.execDwrite ring s
  | .stashUpdate ring => Sys2Proof.Machine.execStashUpdate ring s
  | .swrite ring => Sys2Proof.Machine.execSwrite ring s
  | .sread ring => Sys2Proof.Machine.execSread ring s
  | .hread ring => Sys2Proof.Machine.execHread ring s
  | .hclear ring => Sys2Proof.Machine.execHclear ring s
  | .loadp ring => Sys2Proof.Machine.execLoadp ring s
  | .translationComplete ring seq => Sys2Proof.Machine.execTranslationComplete ring seq s
  | .unloadp ring => Sys2Proof.Machine.execUnloadp ring s
  | .run ring => Sys2Proof.Machine.execRun ring s
  | .matmul ring seq => Sys2Proof.Machine.execMatmul ring seq s
  | .conv ring seq => Sys2Proof.Machine.execConv ring seq s
  | .knn ring seq => Sys2Proof.Machine.execKnn ring seq s
  | .elem ring seq => Sys2Proof.Machine.execElem ring seq s
  | .rowOperation ring seq => Sys2Proof.Machine.execRowOperation ring seq s
  | .convert ring seq => Sys2Proof.Machine.execConvert ring seq s
  | .gather ring seq => Sys2Proof.Machine.execGather ring seq s
  | .scatter ring seq => Sys2Proof.Machine.execScatter ring seq s
  | .shareStart room => Sys2Proof.Machine.execShareStart room s
  | .shareComplete room => Sys2Proof.Machine.execShareComplete room s
  | .macroOpComplete ring seq => Sys2Proof.Machine.execMacroOpComplete ring seq s
  | .microBatchEnd p => Sys2Proof.Machine.execMicroBatchEnd p s
  | .streamStopped ring => Sys2Proof.Machine.execStreamStopped ring s
  | .solve ring => Sys2Proof.Machine.execSolve ring s
  | .solveForward ring seq => Sys2Proof.Machine.execSolveForward ring seq s
  | .solveAdjoint ring seq => Sys2Proof.Machine.execSolveAdjoint ring seq s
  | .dchol ring seq b => Sys2Proof.Machine.execDchol ring seq b s
  | .dldlt ring seq b => Sys2Proof.Machine.execDldlt ring seq b s
  | .dqr ring seq b => Sys2Proof.Machine.execDqr ring seq b s
  | .tree ring seq b => Sys2Proof.Machine.execTree ring seq b s
  | .kkt ring seq b => Sys2Proof.Machine.execKkt ring seq b s
  | .contact ring seq b => Sys2Proof.Machine.execContact ring seq b s
  | .roomReservation ring seq => Sys2Proof.Machine.execRoomReservation ring seq s
  | .problemStart ring seq => Sys2Proof.Machine.execProblemStart ring seq s
  | .assemblyPass ring seq b => Sys2Proof.Machine.execAssemblyPass ring seq b s
  | .panelInterval ring seq b => Sys2Proof.Machine.execPanelInterval ring seq b s
  | .sweep ring seq b => Sys2Proof.Machine.execSweep ring seq b s
  | .problemEnd ring seq b => Sys2Proof.Machine.execProblemEnd ring seq b s
  | .reduce ring => Sys2Proof.Machine.execReduce ring s
  | .tokenExchange ring => Sys2Proof.Machine.execTokenExchange ring s
  | .shardGather ring => Sys2Proof.Machine.execShardGather ring s
  | .splice ring => Sys2Proof.Machine.execSplice ring s
  | .epochChange p => Sys2Proof.Machine.execEpochChange p s
  | .rdata port f => Sys2Proof.Machine.execRdata port f s
  | .xdata port f => Sys2Proof.Machine.execXdata port f s
  | .xcount port f => Sys2Proof.Machine.execXcount port f s
  | .shreq port f => Sys2Proof.Machine.execShreq port f s
  | .shdata port f => Sys2Proof.Machine.execShdata port f s
  | .shref port f => Sys2Proof.Machine.execShref port f s
  | .abort port f => Sys2Proof.Machine.execAbort port f s
  | .redo port f => Sys2Proof.Machine.execRedo port f s
  | .link port f => Sys2Proof.Machine.execLink port f s
  | .nak port ack => Sys2Proof.Machine.execNak port ack s
  | .replayTimeout port => Sys2Proof.Machine.execReplayTimeout port s
  | .ackTimeout port => Sys2Proof.Machine.execAckTimeout port s
  | .linkUp port fast prevGen lanes => Sys2Proof.Machine.execLinkUp port fast prevGen lanes s
  | .laneFailure port lane => Sys2Proof.Machine.execLaneFailure port lane s
  | .portWiden port => Sys2Proof.Machine.execPortWiden port s
  | .peerTimeout ring seq => Sys2Proof.Machine.execPeerTimeout ring seq s
  | .arbiterDecision port => Sys2Proof.Machine.execArbiterDecision port s
  | .holdCutOff port => Sys2Proof.Machine.execHoldCutOff port s
  | .wcbTimeout stack granule found => Sys2Proof.Machine.execWcbTimeout stack granule found s
  | .rd fl tag line found => Sys2Proof.Machine.execRd fl tag line found s
  | .rdreg fl tag line => Sys2Proof.Machine.execRdreg fl tag line s
  | .wr fl tag line data => Sys2Proof.Machine.execWr fl tag line data s
  | .wrp fl tag line data mask => Sys2Proof.Machine.execWrp fl tag line data mask s
  | .at fl tag addr op a b => Sys2Proof.Machine.execAt fl tag addr op a b s
  | .rsp fl tag status => Sys2Proof.Machine.execRsp fl tag status s
  | .rspd fl tag status data => Sys2Proof.Machine.execRspd fl tag status data s
  | .snpinv fl tag line => Sys2Proof.Machine.execSnpinv fl tag line s
  | .snprd fl tag line => Sys2Proof.Machine.execSnprd fl tag line s
  | .companionNak fl => Sys2Proof.Machine.execCompanionNak fl s
  | .linkReset gen => Sys2Proof.Machine.execLinkReset gen s
  | .tail ring => Sys2Proof.Machine.execTail ring s
  | .resetgen ring => Sys2Proof.Machine.execResetgen ring s
  | .stopgen ring => Sys2Proof.Machine.execStopgen ring s
  | .resumegen ring => Sys2Proof.Machine.execResumegen ring s
  | .notifyUpdate ring => Sys2Proof.Machine.execNotifyUpdate ring s
  | .keyImport src p msg => Sys2Proof.Machine.execKeyImport src p msg s
  | .exportRange p => Sys2Proof.Machine.execExportRange p s
  | .importRange p part => Sys2Proof.Machine.execImportRange p part s
  | .importStopImage p part => Sys2Proof.Machine.execImportStopImage p part s
  | .checkpointJobEnd p => Sys2Proof.Machine.execCheckpointJobEnd p s
  | .exportEnd p => Sys2Proof.Machine.execExportEnd p s
  | .exportAbandoned p => Sys2Proof.Machine.execExportAbandoned p s
  | .attestationNonce src nonce => Sys2Proof.Machine.execAttestationNonce src nonce s
  | .reportComplete cls => Sys2Proof.Machine.execReportComplete cls s
  | .stageUpdate src v => Sys2Proof.Machine.execStageUpdate src v s
  | .stagingComplete img => Sys2Proof.Machine.execStagingComplete img s
  | .burnMinimumSvn src v => Sys2Proof.Machine.execBurnMinimumSvn src v s
  | .debugUnlock src token => Sys2Proof.Machine.execDebugUnlock src token s
  | .controlPeriod => Sys2Proof.Machine.execControlPeriod s
  | .glideStep d => Sys2Proof.Machine.execGlideStep d s
  | .activityEstimate uj => Sys2Proof.Machine.execActivityEstimate uj s
  | .droop d group => Sys2Proof.Machine.execDroop d group s
  | .droopClear d => Sys2Proof.Machine.execDroopClear d s
  | .droopHoldoffEnd d => Sys2Proof.Machine.execDroopHoldoffEnd d s
  | .prolongedDroop d => Sys2Proof.Machine.execProlongedDroop d s
  | .thermalReading temps => Sys2Proof.Machine.execThermalReading temps s
  | .stackTemperatureRead temps => Sys2Proof.Machine.execStackTemperatureRead temps s
  | .coolOkDeassert => Sys2Proof.Machine.execCoolOkDeassert s
  | .coolantStop => Sys2Proof.Machine.execCoolantStop s
  | .pmbusPoll readings => Sys2Proof.Machine.execPmbusPoll readings s
  | .readRequest fd index sub => Sys2Proof.Machine.execReadRequest fd index sub s
  | .expeditedWrite fd index sub data => Sys2Proof.Machine.execExpeditedWrite fd index sub data s
  | .segmentedWriteInitiate fd index sub len => Sys2Proof.Machine.execSegmentedWriteInitiate fd index sub len s
  | .segmentFrame fd toggle last data => Sys2Proof.Machine.execSegmentFrame fd toggle last data s
  | .ddaAbort => Sys2Proof.Machine.execDdaAbort s
  | .ddaTimeout => Sys2Proof.Machine.execDdaTimeout s
  | .busOffRecovery => Sys2Proof.Machine.execBusOffRecovery s
  | .heartbeat => Sys2Proof.Machine.execHeartbeat s
  | .faultFrame => Sys2Proof.Machine.execFaultFrame s
  | .powerOnReset => Sys2Proof.Machine.execPowerOnReset s
  | .poresetRelease nodeId clgen fwsrc => Sys2Proof.Machine.execPoresetRelease nodeId clgen fwsrc s
  | .deviceReset => Sys2Proof.Machine.execDeviceReset s
  | .firmwareStart start => Sys2Proof.Machine.execFirmwareStart start s
  | .bootLineRequest line => Sys2Proof.Machine.execBootLineRequest line s
  | .pllLock => Sys2Proof.Machine.execPllLock s
  | .selfTestDone failed => Sys2Proof.Machine.execSelfTestDone failed s
  | .extest => Sys2Proof.Machine.execExtest s
  | .sample => Sys2Proof.Machine.execSample s
  | .preload cells => Sys2Proof.Machine.execPreload cells s
  | .idcode => Sys2Proof.Machine.execIdcode s
  | .clamp => Sys2Proof.Machine.execClamp s
  | .highz => Sys2Proof.Machine.execHighz s
  | .extestPulse => Sys2Proof.Machine.execExtestPulse s
  | .extestTrain => Sys2Proof.Machine.execExtestTrain s
  | .dict dr => Sys2Proof.Machine.execDict dr s
  | .dictbuf dr => Sys2Proof.Machine.execDictbuf dr s
  | .dbgacc cmd => Sys2Proof.Machine.execDbgacc cmd s
  | .scanchain die => Sys2Proof.Machine.execScanchain die s
  | .mbist mem pass => Sys2Proof.Machine.execMbist mem pass s
  | .bypass => Sys2Proof.Machine.execBypass s
  | .testLogicReset => Sys2Proof.Machine.execTestLogicReset s
  | .roomWordIssue room found => Sys2Proof.Machine.execRoomWordIssue room found s
  | .norm room => Sys2Proof.Machine.execNorm room s
  | .rms room => Sys2Proof.Machine.execRms room s
  | .smax room => Sys2Proof.Machine.execSmax room s
  | .normb room => Sys2Proof.Machine.execNormb room s
  | .rmsb room => Sys2Proof.Machine.execRmsb room s
  | .smaxb room => Sys2Proof.Machine.execSmaxb room s
  | .matrixResult room => Sys2Proof.Machine.execMatrixResult room s
  | .accessRelease room eng found => Sys2Proof.Machine.execAccessRelease room eng found s
  | .signalDelivery room => Sys2Proof.Machine.execSignalDelivery room s
  | .trefReturn => Sys2Proof.Machine.execTrefReturn s
  | .peerFrameCrcFailure port => Sys2Proof.Machine.execPeerFrameCrcFailure port s
  | .frameOfUndefinedType port f => Sys2Proof.Machine.execFrameOfUndefinedType port f s
  | .flitError => Sys2Proof.Machine.execFlitError s
  | .idleFlit fl => Sys2Proof.Machine.execIdleFlit fl s
  | .messageOfUndefinedType msg => Sys2Proof.Machine.execMessageOfUndefinedType msg s
  | .unknownCommand fd cmd => Sys2Proof.Machine.execUnknownCommand fd cmd s
  | .undefinedInstruction code => Sys2Proof.Machine.execUndefinedInstruction code s
  | .canBusError transmitting => Sys2Proof.Machine.execCanBusError transmitting s
  | .coolOkAssert => Sys2Proof.Machine.execCoolOkAssert s
  | .powerRemoval => Sys2Proof.Machine.execPowerRemoval s
  | .firmwareImageRejected status => Sys2Proof.Machine.execFirmwareImageRejected status s

end Sys2Proof.Machine
end

