-- ==== Sys2Proof/Machine/Step.lean ====
section
/-! DEFINITION. The step: the command at the front of the queue, or a tick of CK_TIME when none waits (DESIGN CHOICE, log 8). -/

namespace Sys2Proof.Machine

/-- The state without the command at the front of its queue. -/
def State.popped (s : State) : State := { s with pending := s.pending.tail }

/-- One step (DESIGN CHOICE, log 11). -/
def step (s : State) : Host.Outcome State Fault Refusal :=
  match s.pending with
  | [] => .next (tick s)
  | c :: _ => exec c s.popped

/-- The state with the command that a word spells at the front of its queue: the state itself, since no word spells one. -/
def State.withFetchWord (s : State) (nbits w : Nat) : State :=
  match Sys2Proof.decodeTableWord nbits w with
  | some c => { s with pending := c :: s.pending }
  | none => s

end Sys2Proof.Machine
end

