-- ==== Sys2Proof/Safety.lean ====
section
/-! DEFINITION. The terms of the statements: that a command goes on and what its next state holds, that it writes a log entry, that it
leaves some partitions, rings or rooms alone. -/

namespace Sys2Proof

/-- The outcome is a next state with property `P`. -/
def Goes (o : Host.Outcome Machine.State Machine.Fault Machine.Refusal) (P : Machine.State → Prop) : Prop :=
  ∃ t, o = .next t ∧ P t

/-- A step goes on. -/
def SafeStep (s : Machine.State) : Prop := Goes (Machine.step s) fun _ => True

/-- The parts of the state, one for each field of `State` but the queue. -/
inductive StatePart where
  /-- The count of free values taken. -/
  | free
  /-- The fused identity. -/
  | ident
  /-- Bring-up and firmware. -/
  | boot
  /-- The time base. -/
  | time
  /-- The event table. -/
  | events
  /-- The entries fired in the dictionary cycle under way. -/
  | firedNow
  /-- The stop requests made. -/
  | stopSent
  /-- The slot-stops fired. -/
  | firedStops
  /-- The cap event of the cycle. -/
  | capEvent
  /-- The partition mode. -/
  | mode
  /-- The pending mode. -/
  | pendingMode
  /-- Partitions: tenancy and security. -/
  | psec
  /-- Partitions: scheduler, descriptors, solver region. -/
  | psched
  /-- Partitions: fabric settings. -/
  | ppeer
  /-- The command rings and their streams. -/
  | rings
  /-- The rooms. -/
  | rooms
  /-- HBM, atrium, buffers, bank arbiters. -/
  | mem
  /-- The companion link and its mailboxes. -/
  | link
  /-- The peer ports. -/
  | ports
  /-- The rank. -/
  | rank
  /-- The security controller. -/
  | sec
  /-- State frozen for exports. -/
  | frozen
  /-- Power and clocks. -/
  | pw
  /-- The dictionary. -/
  | dict
  /-- The field bus. -/
  | can
  /-- The trouble log. -/
  | log
  /-- Unit service. -/
  | svc
  /-- The test access port. -/
  | tap
deriving DecidableEq, Repr

namespace Machine

/-- The queue stands, and so does every part of the state that `A` does not name. -/
structure State.Frame (A : List StatePart) (s t : State) : Prop where
  pending : t.pending = s.pending
  free : .free ∈ A ∨ t.free = s.free
  ident : .ident ∈ A ∨ t.ident = s.ident
  boot : .boot ∈ A ∨ t.boot = s.boot
  time : .time ∈ A ∨ t.time = s.time
  events : .events ∈ A ∨ t.events = s.events
  firedNow : .firedNow ∈ A ∨ t.firedNow = s.firedNow
  stopSent : .stopSent ∈ A ∨ t.stopSent = s.stopSent
  firedStops : .firedStops ∈ A ∨ t.firedStops = s.firedStops
  capEvent : .capEvent ∈ A ∨ t.capEvent = s.capEvent
  mode : .mode ∈ A ∨ t.mode = s.mode
  pendingMode : .pendingMode ∈ A ∨ t.pendingMode = s.pendingMode
  psec : .psec ∈ A ∨ t.psec = s.psec
  psched : .psched ∈ A ∨ t.psched = s.psched
  ppeer : .ppeer ∈ A ∨ t.ppeer = s.ppeer
  rings : .rings ∈ A ∨ t.rings = s.rings
  rooms : .rooms ∈ A ∨ t.rooms = s.rooms
  mem : .mem ∈ A ∨ t.mem = s.mem
  link : .link ∈ A ∨ t.link = s.link
  ports : .ports ∈ A ∨ t.ports = s.ports
  rank : .rank ∈ A ∨ t.rank = s.rank
  sec : .sec ∈ A ∨ t.sec = s.sec
  frozen : .frozen ∈ A ∨ t.frozen = s.frozen
  pw : .pw ∈ A ∨ t.pw = s.pw
  dict : .dict ∈ A ∨ t.dict = s.dict
  can : .can ∈ A ∨ t.can = s.can
  log : .log ∈ A ∨ t.log = s.log
  svc : .svc ∈ A ∨ t.svc = s.svc
  tap : .tap ∈ A ∨ t.tap = s.tap

/-- The entry that the trouble log of `s` is to write next stands in the log of `t` with this cause and severity (R406, R407). -/
def LogsNext (s t : State) (cause : U16) (sev : Nat) : Prop :=
  ∃ w, Tbl.find t.log.entries (s.log.seq.toNat % 4096) = some w ∧ bits w 80 16 = cause ∧ field w 26 3 = sev ∧ bits w 96 32 = s.log.seq + 1

/-- The class that sent a direct dictionary request has this confirmation code as its answer (R395). -/
def Answers (t : State) (src : Src) (code : Byte) : Prop := ∃ a, Tbl.find t.dict.answers (pathKey src) = some a ∧ a.code = code

/-- The state after a number of steps, if all of them go on. -/
def runFor : Nat → State → Option State
  | 0, s => some s
  | k + 1, s => match step s with
    | .next t => runFor k t
    | _ => none

end Machine

/-- Every part but the fused identity. -/
def anyPart : List StatePart :=
  [.free, .boot, .time, .events, .firedNow, .stopSent, .firedStops, .capEvent, .mode, .pendingMode, .psec, .psched, .ppeer, .rings, .rooms, .mem, .link, .ports, .rank, .sec, .frozen, .pw, .dict, .can, .log, .svc, .tap]

/-- The parts that each command may change. The dictionary reaches them all, since a write of entry 0x1020 resets the device. -/
def partsOf : Instr → List StatePart
  | .tcodeFrame _ | .tsyncEdge | .trefLoss | .tsyncTimeout => [.time, .can, .log]
  | .eventArm _ _ _ | .eventCancel _ _ _ | .dictionaryCycle | .dictionaryRead _ _ _ | .dictionaryWrite _ _ _ _
  | .partitionModeWrite _ _ | .capWrite _ _ | .windowWrite _ _ | .stampPeriodWrite _ _ _ | .windowEnable _ _ _
  | .ringEnable _ _ | .ringDisable _ _ | .blockedGranuleWrite _ _ _ | .takeOutOfService _ _ _ | .readmit _ _ _
  | .keyImport _ _ _ | .attestationNonce _ _ | .stageUpdate _ _ | .burnMinimumSvn _ _ | .debugUnlock _ _ | .powerOnReset
  | .deviceReset | .powerRemoval => anyPart
  | .slotStop _ _ => [.stopSent, .psec, .rings, .mem, .frozen]
  | .slotEnd _ =>
    [.free, .events, .firedNow, .stopSent, .firedStops, .psec, .psched, .ppeer, .rings, .rooms, .mem, .link, .ports, .frozen, .can, .log]
  | .powerCapChange _ => [.events, .firedNow, .firedStops, .capEvent, .pw]
  | .slotStart _ =>
    [.free, .events, .firedNow, .stopSent, .firedStops, .psec, .psched, .ppeer, .rings, .rooms, .mem, .link, .frozen, .can, .log]
  | .checkpointSealing _ => [.events, .firedNow, .firedStops, .psec, .rings, .mem, .frozen]
  | .scrub _ => [.free, .events, .firedNow, .firedStops, .psec, .psched, .ppeer, .rings, .rooms, .mem]
  | .troubleLogStamp _ => [.events, .firedNow, .firedStops, .can, .log]
  | .phaseTimerStamp _ | .solverDeadline _ => [.events, .firedNow, .firedStops, .rings]
  | .scrubEnd _ => [.psec, .rings]
  | .modeChange => [.free, .events, .mode, .pendingMode, .psec, .psched, .ppeer, .rings, .rooms, .mem, .link, .ports, .can, .log]
  | .partitionReset _ _ | .stopOverrun _ =>
    [.free, .events, .psec, .psched, .ppeer, .rings, .rooms, .mem, .link, .ports, .can, .log]
  | .roomZeroingComplete _ | .norm _ | .rms _ | .smax _ | .normb _ | .rmsb _ | .smaxb _ | .matrixResult _ => [.rooms]
  | .partitionFormation _ => [.free, .boot, .events, .psec, .psched, .ppeer, .rings, .rooms, .mem, .link, .can, .log]
  | .quarantineEnd _ _ _ => [.can, .log, .svc]
  | .readmission _ _ => [.free, .rooms, .mem, .can, .log, .svc]
  | .controlMemoryError | .thermalReading _ | .stackTemperatureRead _ | .coolantStop => [.boot, .psec, .mem, .pw, .can, .log]
  | .noOp _ | .fence _ | .dwrite _ | .swrite _ | .sread _ | .hread _ | .hclear _ | .unloadp _ | .run _ | .tail _ =>
    [.free, .psched, .rings, .mem, .link, .can, .log]
  | .continueEntry _ | .macroOpComplete _ _ | .reduce _ | .tokenExchange _ | .shardGather _ | .splice _ | .rdata _ _
  | .xdata _ _ | .xcount _ _ | .shreq _ _ | .shdata _ _ | .shref _ _ | .abort _ _ | .redo _ _ | .link _ _ | .nak _ _
  | .peerTimeout _ _ | .frameOfUndefinedType _ _ =>
    [.free, .events, .psched, .ppeer, .rings, .rooms, .mem, .link, .ports, .can, .log, .svc]
  | .fenceComplete _ | .hitch _ | .stashUpdate _ | .loadp _ | .matmul _ _ | .conv _ _ | .knn _ _ | .elem _ _
  | .rowOperation _ _ | .convert _ _ | .gather _ _ | .scatter _ _ | .shareStart _ | .solveForward _ _ | .solveAdjoint _ _
  | .problemStart _ _ | .accessRelease _ _ _ | .signalDelivery _ =>
    [.free, .events, .psched, .rings, .rooms, .mem, .link, .ports, .can, .log]
  | .translationComplete _ _ | .shareComplete _ => [.psched, .rings, .rooms]
  | .microBatchEnd _ => [.psched]
  | .streamStopped _ => [.free, .events, .psec, .psched, .ppeer, .rings, .rooms, .mem, .link, .ports, .frozen, .can, .log, .svc]
  | .solve _ => [.free, .events, .psched, .rings, .mem, .link, .can, .log]
  | .dchol _ _ _ | .dldlt _ _ _ | .dqr _ _ _ | .tree _ _ _ | .kkt _ _ _ | .contact _ _ _ | .roomReservation _ _
  | .assemblyPass _ _ _ | .panelInterval _ _ _ | .sweep _ _ _ | .stopgen _ | .resumegen _ | .notifyUpdate _ => [.rings]
  | .problemEnd _ _ _ => [.free, .events, .psched, .rings, .mem]
  | .epochChange _ => [.ppeer, .rings]
  | .replayTimeout _ | .linkUp _ _ _ _ => [.free, .ports, .can, .log, .svc]
  | .ackTimeout _ | .portWiden _ | .peerFrameCrcFailure _ => [.ports]
  | .laneFailure _ _ => [.ports, .can, .log, .svc]
  | .arbiterDecision _ => [.mem, .ports]
  | .holdCutOff _ => [.mem, .ports, .can, .log]
  | .wcbTimeout _ _ _ => [.mem]
  | .rd _ _ _ _ | .rdreg _ _ _ | .at _ _ _ _ _ _ => [.mem, .link]
  | .wr _ _ _ _ | .wrp _ _ _ _ _ => [.mem, .link, .dict]
  | .rsp _ _ _ | .rspd _ _ _ _ | .snpinv _ _ _ | .linkReset _ => [.rings, .link]
  | .snprd _ _ _ | .companionNak _ | .flitError | .idleFlit _ | .messageOfUndefinedType _ => [.link]
  | .resetgen _ => [.free, .events, .psched, .rings, .rooms, .mem, .link, .can, .log]
  | .exportRange _ => [.psec, .mem, .link]
  | .importRange _ _ => [.psec, .mem]
  | .importStopImage _ _ => [.psec, .psched, .ppeer, .rings, .rooms]
  | .checkpointJobEnd _ => [.psec]
  | .exportEnd _ => [.psec, .psched, .ppeer, .rings, .rooms, .mem, .link, .frozen]
  | .exportAbandoned _ => [.psec, .psched, .ppeer, .rings, .rooms, .mem, .frozen]
  | .reportComplete _ => [.free, .sec]
  | .stagingComplete _ | .bootLineRequest _ | .firmwareImageRejected _ => [.boot]
  | .controlPeriod | .prolongedDroop _ | .pmbusPoll _ => [.pw, .can, .log]
  | .glideStep _ | .activityEstimate _ | .droop _ _ | .droopClear _ | .droopHoldoffEnd _ | .coolOkDeassert | .coolOkAssert =>
    [.pw]
  | .readRequest _ _ _ | .expeditedWrite _ _ _ _ | .segmentedWriteInitiate _ _ _ _ | .segmentFrame _ _ _ _ | .ddaAbort
  | .ddaTimeout | .unknownCommand _ _ => [.dict, .can, .log]
  | .busOffRecovery => [.can, .log]
  | .heartbeat | .faultFrame | .canBusError _ => [.can]
  | .poresetRelease _ _ _ => [.boot, .can, .log]
  | .firmwareStart _ => [.boot, .link, .can]
  | .pllLock => [.boot, .pw]
  | .selfTestDone _ => [.boot, .can, .log, .svc]
  | .extest | .sample | .preload _ | .idcode | .clamp | .highz | .extestPulse | .extestTrain | .dictbuf _ | .dbgacc _
  | .scanchain _ | .mbist _ _ | .bypass | .testLogicReset | .undefinedInstruction _ =>
    [.free, .events, .psec, .psched, .ppeer, .rings, .rooms, .mem, .link, .ports, .can, .log, .tap]
  | .dict _ => [.free, .events, .psec, .psched, .ppeer, .rings, .rooms, .mem, .link, .ports, .dict, .can, .log, .tap]
  | .roomWordIssue _ _ => [.free, .events, .psched, .rings, .rooms, .mem, .link, .ports, .can, .log, .svc]
  | .trefReturn => [.time]

end Sys2Proof
end

