-- ==== Sys2Proof/Certificates/Slice0/Obligations.lean ====
section
/-! DEFINITION. The statements about the machine: what every command does, what every step keeps. -/

open Sys2Proof Sys2Proof.Machine

/-! ### The whole device -/

/-- A step takes the command at the front of the queue and runs it on the rest. -/
def Obligations.StepRunsFrontCommand : Prop := ∀ (s : State) (c : Instr) (q : List Instr),
  step { s with pending := c :: q } = exec c { s with pending := q }

/-- The stacks' byte memory stays in canonical form over every step, command or tick. -/
def Obligations.EveryStepKeepsMemoryCanonical : Prop := ∀ s : State, s.mem.ok → Goes (step s) fun t => t.mem.ok

/-- The memory of the device after reset is in canonical form, nothing waits, and bring-up stands in HOLD. -/
def Obligations.ResetMemoryIsCanonical : Prop := State.reset.mem.ok ∧ State.reset.mem.hbm = [] ∧ State.reset.pending = [] ∧ State.reset.boot.stage = .hold ∧ State.reset.mode = .one

/-- The fused minimum security version never falls (R346: the burn cannot be undone), over any number of steps, resets among them. -/
def Obligations.MinimumSvnNeverFalls : Prop := ∀ (s : State) (k : Nat), ∃ t, runFor k s = some t ∧ s.boot.svnMin.toNat ≤ t.boot.svnMin.toNat

/-- Every command goes on, and changes no part of the state but those that the table `partsOf` gives it. -/
def Obligations.CommandsChangeOnlyTheirParts : Prop := ∀ (s : State) (c : Instr), Goes (exec c s) fun t => s.Frame (partsOf c) t

/-! ### The time base -/

/-- Loss and return of TREF, and a missing TSYNC edge (R38, R41, R42): LOCKED gives way to FREE-RUNNING with log entry 0x0901, ACQUIRING to UNSET;
nothing but the time base, the log and its fault frames changes. One tick of CK_TIME, the step of an empty queue (the model's choice, log 8): LOCKED
and not slewing, the counter advances by exactly 4 ns (R37); in UNSET and ACQUIRING it stands. -/
def Obligations.LossOfReferenceAndTick : Prop :=
  (∀ s : State, s.ctl = true →
  (s.time.tref = true → Goes (exec .trefLoss s) fun t =>
    t.time = { s.time with tref := false, run := 0, slew := 0, slewing := false,
                           mode := match s.time.mode with | .locked => .freeRunning | .acquiring => .unset | m => m } ∧
    (s.time.mode = .locked → LogsNext s t 0x0901 3) ∧ t = { s with time := t.time, log := t.log, can := t.can }) ∧
  (s.time.mode = .locked → ∀ e, s.time.lastEdge = some e → e + 1000000500 ≤ s.time.ticks → Goes (exec .tsyncTimeout s) fun t =>
    t.time = { s.time with mode := .freeRunning, run := 0, slew := 0, slewing := false } ∧ LogsNext s t 0x0901 3 ∧
    t = { s with time := t.time, log := t.log, can := t.can }) ∧
  exec .trefReturn s = .next { s with time := { s.time with tref := true } }) ∧
  (∀ s : State, s.pending = [] → Goes (step s) fun t =>
  t.time.ticks = s.time.ticks + 4 ∧ t.pending = [] ∧
  (s.ctl = true → s.time.mode = .locked → s.time.slewing = false → s.time.frac < 10000 →
    t.time.counter = s.time.counter + 4 ∧ t.time.frac = s.time.frac) ∧
  ((s.ctl = false ∨ s.time.mode = .unset ∨ s.time.mode = .acquiring) → t.time.counter = s.time.counter ∧ t.time.mode = s.time.mode))

/-- A TCODE frame (R35, R36, R38, R39): what a valid frame names and counts, what one that is not valid breaks. -/
def Obligations.TcodeFrameNamesNextEdge : Prop := ∀ (s : State) (b : BitVec 112), s.ctl = true → s.tap.held = false →
  (s.wellFormed b = true → s.frameValid b = true → Goes (exec (.tcodeFrame b) s) fun t =>
    t.time.interval = some (bits b 16 64) ∧ t.time.lastFrame = some (bits b 16 64, s.time.ticks) ∧ t.time.mflag = flag b 80 ∧
    t.time.badRun = 0 ∧ (s.time.tref = true → s.time.interval = none → t.time.run = s.time.run + 1) ∧
    (s.time.tref = true → s.time.mode = .unset → t.time.mode = .acquiring) ∧ (s.time.mode ≠ .unset → t.time.mode = s.time.mode) ∧
    t.time.counter = s.time.counter ∧ t = { s with time := t.time }) ∧
  ((s.wellFormed b && s.frameValid b) = false → Goes (exec (.tcodeFrame b) s) fun t =>
    t.time.interval = none ∧ t.time.run = 0 ∧ t.time.badRun = s.time.badRun + 1 ∧ t.time.counter = s.time.counter ∧
    (s.time.mode = .locked → 1 ≤ s.time.badRun → t.time.mode = .freeRunning ∧ LogsNext s t 0x0901 3) ∧
    ((s.time.mode ≠ .locked ∨ s.time.badRun = 0) → t.time.mode = s.time.mode ∧ t.log = s.log) ∧
    t = { s with time := t.time, log := t.log, can := t.can })

/-- A TSYNC edge that a valid frame has named (R39 to R41), by the mode of the time base: where the counter is set to TIME, where the error is
slewed away, where the step waits, where LOCKED ends. -/
def Obligations.NamedTsyncEdgeDisciplinesCounter : Prop := ∀ (s : State) (time : U64), s.ctl = true → s.tap.held = false →
  s.time.interval = some time → Goes (exec .tsyncEdge s) fun t =>
    let e : Int := (s.time.counter.toNat : Int) - (time.toNat : Int)
    let met := 3 ≤ s.time.run ∧ s.time.tref = true
    t.time.interval = none ∧ t.time.lastEdge = some s.time.ticks ∧ t = { s with time := t.time, log := t.log, can := t.can } ∧
    (s.time.mode = .acquiring → met → t.time.counter = time ∧ t.time.mode = .locked ∧ LogsNext s t 0x0902 0) ∧
    (s.time.mode = .locked → e.natAbs ≤ 1000 → t.time.mode = .locked ∧ t.time.counter = s.time.counter ∧ t.time.slew = -10000 * e) ∧
    (s.time.mode = .locked → 1000 < e.natAbs → t.time.mode = .freeRunning ∧ t.time.counter = s.time.counter ∧ LogsNext s t 0x0901 3) ∧
    (s.time.mode = .freeRunning → met → e.natAbs ≤ 20 → t.time.mode = .locked ∧ t.time.counter = s.time.counter) ∧
    (s.time.mode = .freeRunning → met → 20 < e.natAbs → e.natAbs ≤ 10000000 →
      t.time.mode = .freeRunning ∧ t.time.counter = s.time.counter ∧ t.time.slew = -10000 * e ∧ t.time.slewing = true) ∧
    (s.time.mode = .freeRunning → met → 10000000 < e.natAbs → (s.anySlot || s.scrubbing) = true →
      t.time.mode = .freeRunning ∧ t.time.counter = s.time.counter ∧ t.time.stepPending = true) ∧
    (s.time.mode = .freeRunning → met → 10000000 < e.natAbs → (s.anySlot || s.scrubbing) = false →
      t.time.mode = .locked ∧ t.time.counter = time ∧ t.time.stepPending = false ∧ LogsNext s t 0x0902 0) ∧
    ((s.time.mode = .unset ∨ (s.time.mode ≠ .locked ∧ ¬met)) → t.time.counter = s.time.counter ∧ t.time.mode = s.time.mode ∧ t.log = s.log)

/-! ### The event table -/

/-- A write of an event entry by the tray or the companion that passes the checks of R46 and R48 arms it, and one with KIND 0 cancels it (R44): every
field is replaced, STATE becomes armed or, for an armed entry cancelled, cancelled; no other entry changes. A write of an event entry that the rules
refuse leaves every entry as it was, and the writer gets the code (R45, R46, R48): 0x13 for a KIND no master may arm, for PART 4 to 6, for a slot
boundary off the whole millisecond, for a slot start in every partition; 0x14 where the entry has fired in the same cycle. -/
def Obligations.EventWriteArmsCancelsOrIsRefused : Prop :=
  (∀ (s : State) (src : Src) (n : BitVec 8) (val : BitVec 128),
  s.ctl = true → Src.cls src < 2 → n.toNat < 192 → s.firedNow.contains n.toNat = false →
  eventCheck (s.updEvent n.toNat fun e => e.written val) val = 0 →
  let gone := fun (t : State) (st : BitVec 3) =>
    t.event n.toNat = { time := bits val 0 64, kind := bits val 88 8, state := st, part := bits val 82 3, arg := bits val 96 32 } ∧
    (∀ m, m ≠ n.toNat → t.event m = s.event m) ∧ s.Frame [.events, .stopSent, .dict] t
  (field val 88 8 ≠ 0 → Goes (exec (.eventArm src n val) s) fun t => gone t 1) ∧
  (field val 88 8 = 0 → Goes (exec (.eventCancel src n val) s) fun t => gone t (if (s.event n.toNat).armed then 3 else (s.event n.toNat).state))) ∧
  (∀ (s : State) (src : Src) (n : BitVec 8) (val : BitVec 128),
  s.ctl = true → Src.cls src < 2 → n.toNat < 192 → field val 88 8 ≠ 0 →
  let refused := fun (code : Byte) => Goes (exec (.eventArm src n val) s) fun t =>
    t.events = s.events ∧ s.Frame [.dict] t ∧ Answers t src code
  (s.firedNow.contains n.toNat = true → refused 0x14) ∧
  (s.firedNow.contains n.toNat = false → 7 ≤ field val 88 8 → refused 0x13) ∧
  (s.firedNow.contains n.toNat = false → 4 ≤ field val 82 3 → field val 82 3 ≤ 6 → refused 0x13) ∧
  (s.firedNow.contains n.toNat = false → (field val 88 8 = 1 ∨ field val 88 8 = 3) → field val 0 64 % 1000000 ≠ 0 → refused 0x13) ∧
  (s.firedNow.contains n.toNat = false → field val 88 8 = 3 → field val 82 3 = 7 → refused 0x13))

/-- A power-cap change event in the cap's range sets the stored cap and fires; outside the range it is refused and the cap stands (R374). With another
cap event in the same dictionary cycle the lower cap holds (R394). The marker events: a trouble-log stamp writes entry 0x1105 (R410), a phase-timer
stamp takes the running totals of its ring into the snapshot (R261), a solver deadline marks the call that waits for it (R191); each entry has fired. -/
def Obligations.EventsActAtTheirTime : Prop :=
  (∀ (s : State) (n : BitVec 8), s.due n.toNat 2 = true →
  Goes (exec (.powerCapChange n) s) fun t =>
    s.Frame [.events, .firedNow, .firedStops, .capEvent, .pw] t ∧ t.firedNow = n.toNat :: s.firedNow ∧
    (∀ m, m ≠ n.toNat → t.event m = s.event m) ∧
    (500 ≤ (s.event n.toNat).arg.toNat → (s.event n.toNat).arg.toNat ≤ 2000 →
      t.event n.toNat = { s.event n.toNat with state := 2 } ∧ t.pw = { s.pw with cap := t.pw.cap } ∧
      (s.capEvent = none → t.pw.cap.toNat = (s.event n.toNat).arg.toNat) ∧
      (∀ x, s.capEvent = some x → x ≤ 2000 → t.pw.cap.toNat = min x (s.event n.toNat).arg.toNat)) ∧
    (((s.event n.toNat).arg.toNat < 500 ∨ 2000 < (s.event n.toNat).arg.toNat) →
      t.event n.toNat = { s.event n.toNat with state := 4 } ∧ t.pw = s.pw ∧ t.capEvent = s.capEvent)) ∧
  (∀ (s : State) (n : BitVec 8),
  (s.due n.toNat 6 = true → Goes (exec (.troubleLogStamp n) s) fun t =>
    LogsNext s t 0x1105 0 ∧ t.event n.toNat = { s.event n.toNat with state := 2 } ∧ (∀ m, m ≠ n.toNat → t.event m = s.event m) ∧
    s.Frame [.events, .firedNow, .firedStops, .can, .log] t) ∧
  (s.due n.toNat 7 = true → Goes (exec (.phaseTimerStamp n) s) fun t =>
    let r := (s.event n.toNat).arg.toNat % 64
    (∀ ph, (s.ring r).phase = some ph → (t.ring r).snapshot = phaseWord ph 3 (s.ring r).steps s.time.counter s.tq (s.ringEnergy r)) ∧
    ((s.ring r).phase = none → (t.ring r).snapshot = (s.ring r).snapshot) ∧
    (∀ m, m ≠ r → t.ring m = s.ring m) ∧ s.Frame [.events, .firedNow, .firedStops, .rings] t) ∧
  (s.due n.toNat 8 = true → Goes (exec (.solverDeadline n) s) fun t =>
    t.event n.toNat = { s.event n.toNat with state := 2 } ∧ (∀ m, m ≠ n.toNat → t.event m = s.event m) ∧
    (∀ r o, s.callOfEntry n.toNat = some (r, o) → (∀ m, m ≠ r → t.ring m = s.ring m) ∧
      ∀ q ∈ (t.ring r).ops, q.orig = o.orig → ∀ c, q.solve = some c → c.fired = true) ∧
    (s.callOfEntry n.toNat = none → t.rings = s.rings) ∧ s.Frame [.events, .firedNow, .firedStops, .rings] t))

/-! ### Dictionary writes with rows of their own -/

/-- The power cap and the averaging window (R373, R374): a value in range is stored, the window refilled with its average; another value is refused
with 0x13 and nothing but the dictionary's counts and answer changes. The stamp period of a ring (R261) and the window enable of a partition (R328): a
value in range is stored, another refused with 0x13. -/
def Obligations.RangedSettingsStoreOrRefuse : Prop :=
  (∀ (s : State) (src : Src), s.ctl = true → Src.cls src < 2 → s.capEvent = none →
  (∀ v : BitVec 16, if 500 ≤ v.toNat ∧ v.toNat ≤ 2000
    then Goes (exec (.capWrite src v) s) fun t => t = { s with pw := { s.pw with cap := v }, dict := t.dict } ∧ Answers t src 0x00
    else Goes (exec (.capWrite src v) s) fun t => t = { s with dict := t.dict } ∧ Answers t src 0x13) ∧
  (∀ v : BitVec 32, if 1000 ≤ v.toNat ∧ v.toNat ≤ 60000
    then Goes (exec (.windowWrite src v) s) fun t =>
      t = { s with pw := { s.pw with w := v, window := [(v.toNat, s.pw.sum / s.pw.w.toNat)], sum := v.toNat * (s.pw.sum / s.pw.w.toNat) },
                   dict := t.dict } ∧ Answers t src 0x00
    else Goes (exec (.windowWrite src v) s) fun t => t = { s with dict := t.dict } ∧ Answers t src 0x13)) ∧
  (∀ (s : State) (m : BitVec 4), s.ctl = true →
  let src := Src.companion m
  (∀ (ring : BitVec 6) (v : BitVec 32), s.ringExists ring.toNat = true → v.toNat ≤ 60000 → Goes (exec (.stampPeriodWrite src ring v) s) fun t =>
    (t.ring ring.toNat).stampPeriod = v ∧ (v = 0 → (t.ring ring.toNat).stampEntry = none) ∧ (∀ k, k ≠ ring.toNat → t.ring k = s.ring k) ∧
    Answers t src 0x00 ∧ s.Frame [.events, .rings, .dict] t) ∧
  (∀ (ring : BitVec 6) (v : BitVec 32), s.ringExists ring.toNat = true → 60000 < v.toNat → Goes (exec (.stampPeriodWrite src ring v) s) fun t =>
    t = { s with dict := t.dict } ∧ Answers t src 0x13) ∧
  (∀ (p : BitVec 2) (v : BitVec 8), v.toNat ≤ 1 → Goes (exec (.windowEnable src p v) s) fun t =>
    t.ps p.toNat = { s.ps p.toNat with windowEn := v == 1 } ∧ (∀ q, q ≠ p.toNat → t.ps q = s.ps q) ∧ Answers t src 0x00 ∧ s.Frame [.psec, .dict] t) ∧
  (∀ (p : BitVec 2) (v : BitVec 8), 1 < v.toNat → Goes (exec (.windowEnable src p v) s) fun t => t = { s with dict := t.dict } ∧ Answers t src 0x13))

/-- A write of the partition mode waits (R30): the mode does not change, the value written becomes the pending mode, or none where it is the
current mode; any other value is refused. The mode change itself happens once no slot is open and no scrub runs: the partitions of the new mode
are RESETTING, the others ABSENT, no key is left. -/
def Obligations.ModeWriteWaitsForModeChange : Prop := ∀ s : State,
  (∀ (src : Src) (v : BitVec 8), s.ctl = true → Src.cls src < 2 →
    (∀ m, modeOf v.toNat = some m → Goes (exec (.partitionModeWrite src v) s) fun t =>
      t = { s with pendingMode := if m = s.mode then none else some m, dict := t.dict } ∧ Answers t src (if m = s.mode then 0x00 else 0x02)) ∧
    (2 < v.toNat → Goes (exec (.partitionModeWrite src v) s) fun t => t = { s with dict := t.dict } ∧ Answers t src 0x13)) ∧
  (∀ m, s.up = true → s.anySlot = false → s.scrubbing = false → s.pendingMode = some m → Goes (exec .modeChange s) fun t =>
    t.mode = m ∧ t.pendingMode = none ∧ t.mem.hbm = [] ∧
    ∀ p, p < 4 → (t.ps p).keys = {} ∧ (t.ps p).st = if p < m.count then .resetting else .absent)

/-- Enabling a ring resets it and clears its generations (R328); disabling an enabled one abandons its work and gives its lines up; disabling
one that is not enabled changes nothing but the dictionary. A ring that the mode does not have is refused with 0x16. -/
def Obligations.RingEnableAndDisable : Prop := ∀ (s : State) (m : BitVec 4) (ring : BitVec 6), s.ctl = true →
  let src := Src.companion m
  let n := ring.toNat
  (s.ringExists n = true → Goes (exec (.ringEnable src ring) s) fun t =>
    (t.ring n).enabled = true ∧ (t.ring n).st = .idle ∧ (t.ring n).done = 0 ∧ (t.ring n).nextSeq = 1 ∧ (t.ring n).ops = [] ∧
    (t.ring n).takenReset = 0 ∧ (t.ring n).takenStop = 0 ∧ (t.ring n).takenResume = 0 ∧ Answers t src 0x00) ∧
  (s.ringExists n = true → (s.ring n).enabled = true → Goes (exec (.ringDisable src ring) s) fun t =>
    (t.ring n).enabled = false ∧ (t.ring n).st = .disabled ∧ (t.ring n).ops = [] ∧ (t.ring n).owned = false ∧ (t.ring n).lineHeld = false ∧
    Answers t src 0x00) ∧
  (s.ringExists n = true → (s.ring n).enabled = false → Goes (exec (.ringDisable src ring) s) fun t => t = { s with dict := t.dict } ∧ Answers t src 0x00) ∧
  (s.ringExists n = false → Goes (exec (.ringEnable src ring) s) fun t => t = { s with dict := t.dict } ∧ Answers t src 0x16) ∧
  (s.ringExists n = false → Goes (exec (.ringDisable src ring) s) fun t => t = { s with dict := t.dict } ∧ Answers t src 0x16)

/-- A blocked-granule write completes and stores its value without the reserved bits (R313); where the entry is valid no line and no buffer entry of
its granule is left, nothing being written to the stacks, and every other line and buffer entry stays (R314). -/
def Obligations.BlockedGranuleWriteDropsLines : Prop := ∀ (s : State) (src : Src) (i : BitVec 10) (v : BitVec 64),
  s.ctl = true → Src.cls src < 2 → Goes (exec (.blockedGranuleWrite src i v) s) fun t =>
    t.blockedEntry i.toNat = putField v 32 31 0 ∧ (∀ k, k ≠ i.toNat → t.blockedEntry k = s.blockedEntry k) ∧ t.mem.hbm = s.mem.hbm ∧
    (flag v 63 = true → (∀ g, g / 256 = field v 0 32 → t.mem.line g = none) ∧ ∀ e ∈ t.mem.wcb, e.granule / 256 ≠ field v 0 32) ∧
    (∀ g, (flag v 63 = false ∨ g / 256 ≠ field v 0 32) → t.mem.line g = s.mem.line g) ∧
    (∀ e ∈ s.mem.wcb, (flag v 63 = false ∨ e.granule / 256 ≠ field v 0 32) → e ∈ t.mem.wcb) ∧
    Answers t src (if field v 32 31 ≠ 0 then 0x01 else 0x00) ∧ s.Frame [.mem, .dict] t

/-- Service commands (R421): a unit taken out of service is out and in quarantine; one out of service, with its quarantine over and not passed, begins
another at a readmit command; fused-off units and units not in the state asked for are refused with 0x16, absent classes and numbers with 0x13. The
end of a quarantine (R420): a unit that passed waits for readmission, for one that did not entry 0x0806 is written; readmission puts a passed unit in
service, with entry 0x0805. The end of a room's zeroing (R439) changes that mark alone. -/
def Obligations.UnitsLeaveAndReenterService : Prop :=
  (∀ (s : State) (src : Src) (cls : BitVec 8) (num : BitVec 16), s.ctl = true → Src.cls src < 2 →
  let c := cls.toNat
  let u := num.toNat
  (c < 5 → u < classSize c → s.fusedOff c u = false → s.outOfService c u = false → s.inQuarantine c u = false →
    Goes (exec (.takeOutOfService src cls num) s) fun t => t.outOfService c u = true ∧ t.inQuarantine c u = true ∧ Answers t src 0x00) ∧
  (c < 5 → u < classSize c → s.fusedOff c u = false → s.outOfService c u = true → s.inQuarantine c u = false →
    s.svc.passed.contains (unitId c u) = false → Goes (exec (.readmit src cls num) s) fun t =>
      t.inQuarantine c u = true ∧ t.outOfService c u = true ∧ Answers t src 0x00 ∧ s.Frame [.svc, .dict] t) ∧
  (c < 5 → u < classSize c → s.fusedOff c u = false → s.outOfService c u = true → Goes (exec (.takeOutOfService src cls num) s) fun t =>
    t = { s with dict := t.dict } ∧ Answers t src 0x16) ∧
  (c < 5 → u < classSize c → s.fusedOff c u = false → s.outOfService c u = false → Goes (exec (.readmit src cls num) s) fun t =>
    t = { s with dict := t.dict } ∧ Answers t src 0x16) ∧
  (c < 5 → u < classSize c → s.fusedOff c u = true → Goes (exec (.takeOutOfService src cls num) s) fun t =>
    t = { s with dict := t.dict } ∧ Answers t src 0x16) ∧
  ((5 ≤ c ∨ classSize c ≤ u) → Goes (exec (.takeOutOfService src cls num) s) fun t => t = { s with dict := t.dict } ∧ Answers t src 0x13)) ∧
  (∀ s : State,
  (∀ (cls : BitVec 3) (num : BitVec 9), s.up = true → let c := cls.toNat; let u := num.toNat
    (s.inQuarantine c u = true → Goes (exec (.quarantineEnd cls num true) s) fun t =>
      t.inQuarantine c u = false ∧ t.svc.passed.contains (unitId c u) = true ∧ t.svc.out = s.svc.out ∧ s.Frame [.svc] t) ∧
    (s.inQuarantine c u = true → Goes (exec (.quarantineEnd cls num false) s) fun t =>
      t.inQuarantine c u = false ∧ t.svc.passed = s.svc.passed ∧ t.svc.out = s.svc.out ∧ LogsNext s t 0x0806 1 ∧ s.Frame [.svc, .can, .log] t) ∧
    (s.svc.passed.contains (unitId c u) = true → s.mayReadmit c u = true → Goes (exec (.readmission cls num) s) fun t =>
      t.outOfService c u = false ∧ t.svc.passed.contains (unitId c u) = false ∧ LogsNext s t 0x0805 0 ∧
      (∀ x, x ≠ unitId c u → t.svc.out.contains x = s.svc.out.contains x) ∧ s.Frame [.free, .rooms, .mem, .can, .log, .svc] t)) ∧
  (∀ room : BitVec 7, (s.room room.toNat).zeroing = true → Goes (exec (.roomZeroingComplete room) s) fun t =>
    t.room room.toNat = { s.room room.toNat with zeroing := false } ∧ (∀ k, k ≠ room.toNat → t.room k = s.room k) ∧ s.Frame [.rooms] t))

/-- The firmware writes (R346): staging begins unless bring-up stands in B1 or HOLD; the fused minimum takes a value above it that does not exceed the
running version, and only such a value. Staging is complete (R346): the digest is recorded and the staged-verified flag set for an image that passes
R345, the staged-failed flag otherwise. -/
def Obligations.FirmwareStagesVerifiesAndBurns : Prop :=
  (∀ (s : State) (src : Src), s.ctl = true →
  (∀ v : BitVec 8, Src.cls src < 2 → s.boot.stage ≠ .b1 → s.boot.stage ≠ .hold → Goes (exec (.stageUpdate src v) s) fun t =>
    t = { s with boot := { s.boot with updating := true, staging := true, stagedOk := false, stagedFail := false }, dict := t.dict } ∧
    Answers t src 0x00) ∧
  (∀ v : BitVec 8, Src.cls src < 2 → (s.boot.stage = .b1 ∨ s.boot.stage = .hold) → Goes (exec (.stageUpdate src v) s) fun t =>
    t = { s with dict := t.dict } ∧ Answers t src 0x16) ∧
  (∀ v : BitVec 16, src = .tray → s.boot.svnMin.toNat < v.toNat → v.toNat ≤ s.boot.svnRun.toNat → Goes (exec (.burnMinimumSvn src v) s) fun t =>
    t = { s with boot := { s.boot with svnMin := v }, dict := t.dict } ∧ Answers t src 0x00) ∧
  (∀ v : BitVec 16, src = .tray → (v.toNat ≤ s.boot.svnMin.toNat ∨ s.boot.svnRun.toNat < v.toNat) →
    Goes (exec (.burnMinimumSvn src v) s) fun t => t = { s with dict := t.dict } ∧ Answers t src 0x13)) ∧
  (∀ (s : State) (img : FwImage), s.fw = true → s.boot.staging = true →
  Goes (exec (.stagingComplete img) s) fun t => s.Frame [.boot] t ∧
    (checkImage s.boot.svnMin img = 0 →
      t.boot = { s.boot with staging := false, stagedOk := true, stagedFail := false, stagedDigest := img.bodyDigest }) ∧
    (checkImage s.boot.svnMin img ≠ 0 → t.boot = { s.boot with staging := false, stagedOk := false, stagedFail := true }))

/-- Key import, attestation nonce and debug token (R350, R363, R365): what each leaves when it is accepted and when it is not. A report is complete
(R363): it is the recorded body followed by the signature of the identity key (a free value), and the class may ask again. -/
def Obligations.KeysReportsAndDebugToken : Prop :=
  (∀ s : State, s.ctl = true →
  (∀ (m : BitVec 4) (p : BitVec 2) (msg : List Byte) (dk : List Byte), s.pst p.toNat = .keywait → (s.ps p.toNat).keys.importKey = some dk →
    msg.length = 1632 →
    let b := bytesOf (s.ps p.toNat).slotId ++ bytesOf (s.ps p.toNat).tslot
    let ss := Config.kemDecaps dk (msg.take 1568)
    let good := kmac256 ss (b ++ (msg.drop 1568).take 32) 32 "DCG900 KEY CHECK" = (msg.drop 1600).take 32
    Goes (exec (.keyImport (.companion m) p msg) s) fun t =>
      (good → (t.ps p.toNat).st = .sealed ∧ (t.ps p.toNat).keys.kT.isSome = true ∧ (t.ps p.toNat).keys.importKey = none ∧
        Answers t (.companion m) 0x00) ∧
      (¬good → (t.ps p.toNat).st = .keywait ∧ (t.ps p.toNat).failedImports = (s.ps p.toNat).failedImports + 1 ∧
        (t.ps p.toNat).keys.kT = (s.ps p.toNat).keys.kT ∧ Answers t (.companion m) 0x13) ∧
      (∀ q, q ≠ p.toNat → t.ps q = s.ps q) ∧ s.Frame [.psec, .dict] t) ∧
  (∀ (src : Src) (nonce : BitVec 256),
    (Tbl.has s.sec.forming (Src.cls src) = false → Goes (exec (.attestationNonce src nonce) s) fun t =>
      t.sec.attSeq = s.sec.attSeq + 1 ∧ Tbl.has t.sec.forming (Src.cls src) = true ∧ Answers t src 0x00 ∧ s.Frame [.sec, .dict] t) ∧
    (Tbl.has s.sec.forming (Src.cls src) = true → Goes (exec (.attestationNonce src nonce) s) fun t =>
      t = { s with dict := t.dict } ∧ Answers t src 0x15)) ∧
  (∀ (src : Src) (token : List Byte), (src = .tray ∨ src = .test) → token.length = 1344 →
    let sound := token.take 32 = bytesOf s.sec.challenge ∧ (token.drop 32).take 8 = bytesOf idfp ∧ allZero ((token.take 64).drop 40) = true ∧
      Config.falconVerify s.boot.vendorKey (token.take 64) (token.drop 64) = true
    Goes (exec (.debugUnlock src token) s) fun t => t.sec.challenge = Config.freeKey s.free ∧
      (sound → t.sec.debug = true ∧ Answers t src 0x00 ∧ ∀ p, p < 4 → (t.ps p).keys.kT = none ∧ (t.ps p).keys.k1 = none ∧
        ((s.pst p).tenanted = true → (t.ps p).st = .scrub)) ∧
      (¬sound → t.sec.debug = s.sec.debug ∧ Answers t src 0x13 ∧ t.psec = s.psec))) ∧
  (∀ (s : State) (cls : BitVec 2) (r : Report), s.fw = true → Tbl.find s.sec.forming cls.toNat = some r →
  Goes (exec (.reportComplete cls) s) fun t => Tbl.has t.sec.forming cls.toNat = false ∧
    (∃ k, Tbl.find t.sec.reports cls.toNat = some (r.body ++ padTo 1280 (Config.falconSign k r.body))) ∧
    (∀ k, k ≠ cls.toNat → Tbl.find t.sec.reports k = Tbl.find s.sec.reports k) ∧ s.Frame [.free, .sec] t)

/-- A lone write of any entry is checked before it acts (R390, R391, R395): one that a check refuses changes nothing but the dictionary, which answers
the code; a sampling divisor in range (R271, R288) is stored for its partition alone; a read changes nothing but the dictionary and answers what the
entry holds. A dictionary cycle takes the first sixteen requests that wait, in order of arrival, and leaves the others waiting (R393); a mailbox's
read is answered in its response line. -/
def Obligations.DictionaryRequestsAreServed : Prop :=
  (∀ (s : State) (src : Src) (i : BitVec 16) (sub : BitVec 8), s.ctl = true →
  (∀ data : List Byte, writeCheck s src i.toNat sub.toNat data ≠ 0 → Goes (exec (.dictionaryWrite src i sub data) s) fun t =>
    t = { s with dict := t.dict } ∧ Answers t src (writeCheck s src i.toNat sub.toNat data) ∧
    t.dict.requests = satInc s.dict.requests) ∧
  (∀ data : List Byte, i = 0x9003 → sub.toNat < 4 → Src.cls src < 2 → data.length = 2 → 1 ≤ ofLe data → ofLe data ≤ 4096 →
    Goes (exec (.dictionaryWrite src i sub data) s) fun t => Answers t src 0x00 ∧ t.dict.requests = satInc s.dict.requests ∧
      (t.peer sub.toNat).sampleDiv = BitVec.ofNat 16 (ofLe data) ∧ (∀ k, k ≠ sub.toNat → t.peer k = s.peer k) ∧
      t = { s with dict := t.dict, ppeer := t.ppeer }) ∧
  (Goes (exec (.dictionaryRead src i sub) s) fun t => t = { s with dict := t.dict } ∧ t.dict.requests = satInc s.dict.requests ∧
    ∃ a, Tbl.find t.dict.answers (pathKey src) = some a ∧ (a.code, a.data) = readEntry s src i.toNat sub.toNat)) ∧
  (∀ s : State, s.ctl = true →
  Goes (exec .dictionaryCycle s) fun t => t.firedNow = [] ∧ t.capEvent = none ∧
    ((∀ r ∈ s.dict.waiting.take 16, r.write = false) → t.dict.waiting = s.dict.waiting.drop 16) ∧
    (∀ (r : Req) (m : Nat), s.dict.waiting = [r] → r.path = .box m → m < 16 → r.write = false → r.badOp = false →
      let u := { s with dict := { s.dict with waiting := [] } }
      (t.box m).rsp = responseLine r (readEntry u r.src r.index.toNat r.sub.toNat).1 (readEntry u r.src r.index.toNat r.sub.toNat).2))

/-! ### Slots, stops, seals and scrubs -/

/-- A slot start in a FREE partition, with the time base LOCKED and no slot-stop within its guard, begins the slot (R48, R348): open or, by the
seal mode, in KEYWAIT with fresh slot keys and an import pair; the slot's identifiers come from the entry; no other partition changes. Where the
slot may not begin, the entry is refused, log entry 0x0903 is written and no partition changes. -/
def Obligations.SlotStartBeginsSlot : Prop := ∀ (s : State) (n : BitVec 8), s.due n.toNat 3 = true → (s.event n.toNat).part.toNat < 4 →
  let e := s.event n.toNat
  let p := e.part.toNat
  (s.slotMayBegin p = true →
    (∀ x ∈ s.events, x.2.kind = 1 → x.2.armed = true → x.2.reaches p = true → s.time.counter.toNat + s.guardNs x.2 p < x.2.time.toNat) →
    Goes (exec (.slotStart n) s) fun t =>
      (t.ps p).slotId = e.arg ∧ (t.ps p).tslot = e.time ∧ (t.ps p).tenantCtr = 0 ∧ (t.ps p).job = none ∧
      ((s.ps p).sealMode ≠ 1 → (t.ps p).st = .opened ∧ (t.ps p).keys = {}) ∧
      ((s.ps p).sealMode = 1 → (t.ps p).st = .keywait ∧ (t.ps p).sealedSlot = true ∧ (t.ps p).keys.k1.isSome = true ∧
        (t.ps p).keys.k2.isSome = true ∧ (t.ps p).keys.kM.isSome = true ∧ (t.ps p).keys.importKey.isSome = true ∧ (t.ps p).keys.kT = none) ∧
      (t.event n.toNat).state = 2 ∧ (∀ q, q ≠ p → t.ps q = s.ps q)) ∧
  (s.slotMayBegin p = false → Goes (exec (.slotStart n) s) fun t =>
    (t.event n.toNat).state = 4 ∧ LogsNext s t 0x0903 3 ∧ s.Frame [.events, .firedNow, .can, .log] t)

/-- At the TIME of a slot-stop, every partition it reaches that holds a slot loses its slot keys at once and enters SCRUB (R49, R342, R361); a
partition without a slot, or not reached, is as before. A scrub event starts a scrub in every FREE partition it names, under fresh scrub keys; where
none is FREE it is refused (R361, R362). A scrub whose fill and clear are done ends with its keys destroyed and the partition FREE. -/
def Obligations.SlotEndAndScrubDestroyKeys : Prop :=
  (∀ (s : State) (n : BitVec 8), s.due n.toNat 1 = true →
  Goes (exec (.slotEnd n) s) fun t => (t.event n.toNat).state = 2 ∧ ∀ p,
    (p ∈ s.reachedParts (s.event n.toNat) → (s.pst p).slot = true →
      (t.ps p).st = .scrub ∧ (t.ps p).keys.k1 = none ∧ (t.ps p).keys.k2 = none ∧ (t.ps p).keys.kM = none ∧ (t.ps p).keys.kT = none ∧
      (t.ps p).keys.kP = none ∧ (t.ps p).keys.kC = none ∧ (t.ps p).keys.importKey = none ∧ (t.ps p).slotId = 0) ∧
    ((p ∉ s.reachedParts (s.event n.toNat) ∨ (s.pst p).slot = false) → t.ps p = s.ps p)) ∧
  (∀ s : State,
  (∀ n : BitVec 8, s.due n.toNat 5 = true → Goes (exec (.scrub n) s) fun t =>
    let ps := (s.reachedParts (s.event n.toNat)).filter fun p => s.pst p == .free
    (ps = [] → (t.event n.toNat).state = 4 ∧ s.Frame [.events, .firedNow] t) ∧
    (ps ≠ [] → (t.event n.toNat).state = 2) ∧
    (∀ p ∈ ps, (t.ps p).st = .scrub ∧ (t.ps p).keys.s1.isSome = true ∧ (t.ps p).keys.s2.isSome = true) ∧ (∀ q, q ∉ ps → t.ps q = s.ps q)) ∧
  (∀ (p : BitVec 2) (c : Scrub), s.ctl = true → s.boot.stopped = false → s.exists_ p.toNat = true → s.roomsClear p.toNat = true →
    (s.ps p.toNat).scrub = some c → c.zeroFilled = true → c.cleared = true → Goes (exec (.scrubEnd p) s) fun t =>
      (t.ps p.toNat).st = .free ∧ (t.ps p.toNat).scrub = none ∧ (t.ps p.toNat).keys.s1 = none ∧ (t.ps p.toNat).keys.s2 = none ∧
      (∀ q, q ≠ p.toNat → t.ps q = s.ps q) ∧ (∀ r, ringPart r ≠ p.toNat → t.ring r = s.ring r) ∧ s.Frame [.psec, .rings] t))

/-- The stop request of a slot-stop, at T − G (R49): a partition that holds a slot goes to STOPPING, every running or idle ring of it receives the
request; other partitions and their rings stand. A checkpoint-sealing event stops the streams of every SEALED partition it names that may seal,
remembering the CKID of ARG; where none may, the entry is refused (R357). -/
def Obligations.StopRequestsReachStreams : Prop :=
  (∀ (s : State) (n : BitVec 8) (p : BitVec 2), s.stopDue n.toNat p.toNat = true →
  Goes (exec (.slotStop n p) s) fun t =>
    t.stopSent = (n.toNat, p.toNat) :: s.stopSent ∧
    ((s.pst p.toNat = .opened ∨ s.pst p.toNat = .keywait ∨ s.pst p.toNat = .sealed) → (t.ps p.toNat).st = .stopping ∧
      ∀ r, ringPart r = p.toNat → (s.ring r).enabled = true → ((s.ring r).st = .idle ∨ (s.ring r).st = .running) →
        (t.ring r).st = .stopping ∧ (t.ring r).stopReq = true) ∧
    (∀ q, q ≠ p.toNat → t.ps q = s.ps q) ∧ (∀ r, ringPart r ≠ p.toNat → t.ring r = s.ring r) ∧
    s.Frame [.stopSent, .psec, .rings, .mem, .frozen] t) ∧
  (∀ (s : State) (n : BitVec 8), s.due n.toNat 4 = true →
  Goes (exec (.checkpointSealing n) s) fun t =>
    let ps := (s.reachedParts (s.event n.toNat)).filter s.maySeal
    (ps = [] → (t.event n.toNat).state = 4 ∧ s.Frame [.events, .firedNow] t) ∧
    (ps ≠ [] → (t.event n.toNat).state = 2 ∧
      ∀ p ∈ ps, ∀ r, ringPart r = p → (s.ring r).enabled = true → ((s.ring r).st = .idle ∨ (s.ring r).st = .running) → (t.ring r).stopReq = true) ∧
    (∀ q, q ∉ ps → t.ps q = s.ps q) ∧ (∀ r, ringPart r ∉ ps → t.ring r = s.ring r))

/-! ### Partition resets, service, jobs -/

/-- A partition reset (R361, R422) of a partition that exists, and is neither resetting nor in SCRUB: its keys are destroyed, its job and its export
are void, no macro-operation is left on its rings; a partition with a tenant is scrubbed. The other partitions stand. A stop request that has not
stopped its partition within 1 ms ends in a partition reset of that partition (R422); formation makes a partition FREE, with the reserved size written
for it in force and no slot (R337, R347), and during bring-up the last one starts the device. -/
def Obligations.PartitionResetAndFormation : Prop :=
  (∀ (s : State) (p : BitVec 2) (u : Bool), s.up = true → s.pst p.toNat ≠ .absent →
  s.pst p.toNat ≠ .resetting → s.pst p.toNat ≠ .scrub → Goes (exec (.partitionReset p u) s) fun t =>
    let q := t.ps p.toNat
    q.st = .resetting ∧ q.job = none ∧ q.exporting = none ∧ q.stopReq = none ∧ q.keys.kT = none ∧ q.keys.kP = none ∧ q.keys.kC = none ∧
    q.keys.k1 = none ∧ q.keys.k2 = none ∧ q.keys.kM = none ∧ q.keys.importKey = none ∧ q.keys.c1 = none ∧ q.keys.c2 = none ∧ q.keys.cM = none ∧
    ((s.pst p.toNat).tenanted = true → q.scrub.isSome = true ∧ q.keys.s1.isSome = true ∧ q.keys.s2.isSome = true) ∧
    (∀ r, ringPart r = p.toNat → (t.ring r).ops = []) ∧ (∀ k, k ≠ p.toNat → t.ps k = s.ps k) ∧ t.boot = s.boot ∧ t.mode = s.mode ∧ t.time = s.time) ∧
  (∀ (s : State) (p : BitVec 2),
  (∀ r, s.up = true → s.exists_ p.toNat = true → (s.ps p.toNat).stopped = false → (s.ps p.toNat).stopReq = some r →
    s.since r.at_ 1000000 = true → Goes (exec (.stopOverrun p) s) fun t =>
      (t.ps p.toNat).st = .resetting ∧ (t.ps p.toNat).stopReq = none ∧ (t.ps p.toNat).keys.kT = none ∧ (t.ps p.toNat).keys.k1 = none ∧
      (∀ n, ringPart n = p.toNat → (t.ring n).ops = []) ∧ ∀ k, k ≠ p.toNat → t.ps k = s.ps k) ∧
  (s.mayForm p.toNat = true → Goes (exec (.partitionFormation p) s) fun t =>
    (t.ps p.toNat).st = .free ∧ (t.ps p.toNat).slotId = 0 ∧ (t.ps p.toNat).tslot = 0 ∧ (t.ps p.toNat).scrub = none ∧
    (t.sched p.toNat).sreg = (s.sched p.toNat).sregNew ∧ (∀ k, k ≠ p.toNat → t.ps k = s.ps k) ∧
    (∀ n, ringPart n = p.toNat → (s.ring n).enabled = true → (t.ring n).st = .idle ∧ (t.ring n).done = 0 ∧ (t.ring n).ops = []) ∧
    (s.boot.stage ≠ .b5 → t.boot = s.boot) ∧
    (s.boot.stage = .b5 → t.boot = { s.boot with toForm := s.boot.toForm.drop 1, stage := if (s.boot.toForm.drop 1).isEmpty then .running else .b5 })))

/-- Range jobs (R355): what an export and an import come out as. An export reports the first granule that cannot be read (0x1003), or a link
that is down (0x1006); an import reports a part of the wrong length (0x1006), a header that does not match (0x1005), the first granule whose tag
fails or that is refused (0x1004), or success, with every granule decrypted into memory. -/
def Obligations.RangeJobsReportOutcome : Prop := ∀ (s : State) (p : BitVec 2) (j : CkJob), s.up = true → s.pst p.toNat = .sealed →
  (s.ps p.toNat).job = some j → j.result = none →
  let out := fun (t : State) (cause : U16) (failing done : U32) =>
    t.ps p.toNat = { s.ps p.toNat with job := some { j with result := some (cause, failing), done := done } } ∧ ∀ k, k ≠ p.toNat → t.ps k = s.ps k
  (j.op = 1 → Goes (exec (.exportRange p) s) fun t => s.Frame [.psec, .link, .mem] t ∧
    (∀ b, badSource s j.addr.toNat j.granules.toNat = some b → out t 0x1003 (BitVec.ofNat 32 b) (BitVec.ofNat 32 b) ∧ t.link = s.link) ∧
    (badSource s j.addr.toNat j.granules.toNat = none → s.link.up = false → out t 0x1006 0 0 ∧ t.link = s.link) ∧
    (badSource s j.addr.toNat j.granules.toNat = none → s.link.up = true → out t 0 0 j.granules)) ∧
  (j.op = 2 → ∀ part : List Byte, Goes (exec (.importRange p part) s) fun t => s.Frame [.psec, .mem] t ∧
    (part.length ≠ 320 + 264 * j.granules.toNat → out t 0x1006 0 0 ∧ t.mem = s.mem) ∧
    (part.length = 320 + 264 * j.granules.toNat → (bits (readPart part).header 64 32 ≠ j.ckid ∨ field (readPart part).header 0 8 ≠ 1 ∨ headerReserved (readPart part).header = false) →
      out t 0x1005 0 0 ∧ t.mem = s.mem) ∧
    (part.length = 320 + 264 * j.granules.toNat → (readPart part).g = j.granules.toNat → field (readPart part).header 0 8 = 1 → headerReserved (readPart part).header = true →
      field (readPart part).header 48 16 = j.part.toNat → bits (readPart part).header 64 32 = j.ckid →
      bits (readPart part).header 960 64 = tkfp (s.ps p.toNat).keys → 0 < j.granules.toNat →
      ((s.accessStop j.addr.toNat).isSome = true → out t 0x1004 0 0) ∧
      (ckTag j.keys j.ckid j.part.toNat 0 ((readPart part).ct 0) ≠ (readPart part).tag 0 → s.accessStop j.addr.toNat = none →
        out t 0x1004 0 0 ∧ t.mem = s.mem) ∧
      ((∀ i, i < j.granules.toNat → ckTag j.keys j.ckid j.part.toNat i ((readPart part).ct i) = (readPart part).tag i ∧
          s.accessStop (j.addr.toNat + 256 * i) = none) → ckTrailer j.keys (bytesOf (readPart part).header) (readPart part).tags = (readPart part).trailer →
        out t 0 0 j.granules ∧ t.mem = ((upTo j.granules.toNat).foldl (fun (u : State) i =>
          storeBytes u (j.addr.toNat + 256 * i) (ckDecrypt j.keys j.part.toNat i ((readPart part).ct i))) s).mem)))

/-- A stop-image import (R359): refused with 0x1002 while a program is loaded or a ring is not as after a reset, 0x1006 for a part of the wrong
length, 0x1005 for a header that does not match, with nothing written; where a tag or the root fails the rooms are as a room reset leaves them and the
scheduler state is as at formation. The end of a job reports its outcome in the status entry. The end of a stop image's export (R358), complete or
abandoned 56 ms after its bound: the status entry tells which, the checkpoint keys are destroyed, the frozen state is released. -/
def Obligations.StopImageImportAndExportEnd : Prop :=
  (∀ (s : State) (p : BitVec 2) (j : CkJob), s.up = true → (s.ps p.toNat).job = some j →
  (s.pst p.toNat = .sealed → j.op = 3 → j.result = none → ∀ part : List Byte, Goes (exec (.importStopImage p part) s) fun t =>
    let out := fun (cause : U16) => ∃ f d, t.ps p.toNat = { s.ps p.toNat with job := some { j with result := some (cause, f), done := d } }
    let clear := out 0x1004 ∧ (∀ r ∈ s.roomsOf p.toNat, t.room r = { zeroing := true }) ∧ t.sched p.toNat = (s.sched p.toNat).formed
    s.Frame [.psec, .psched, .ppeer, .rings, .rooms] t ∧ (∀ k, k ≠ p.toNat → t.ps k = s.ps k) ∧
    ((s.noPrograms p.toNat && s.ringsFresh p.toNat) = false → out 0x1002 ∧ s.Frame [.psec] t) ∧
    ((s.noPrograms p.toNat && s.ringsFresh p.toNat) = true → part.length ≠ 320 + 264 * (readPart part).g → out 0x1006 ∧ s.Frame [.psec] t) ∧
    ((s.noPrograms p.toNat && s.ringsFresh p.toNat) = true → part.length = 320 + 264 * (readPart part).g → headerMatches s p.toNat (readPart part).header = false →
      out 0x1005 ∧ s.Frame [.psec] t) ∧
    ((s.noPrograms p.toNat && s.ringsFresh p.toNat) = true → part.length = 320 + 264 * (readPart part).g → headerMatches s p.toNat (readPart part).header = true →
      bits (readPart part).header 64 32 = j.ckid →
      ckTrailer j.keys (bytesOf (readPart part).header) (readPart part).tags ≠ (readPart part).trailer → clear)) ∧
  (∀ c b, j.result = some (c, b) → Goes (exec (.checkpointJobEnd p) s) fun t =>
    t.ps p.toNat = { s.ps p.toNat with job := none, jobStatus := statusWord (if c = 0 then 2 else 3) j.op.toNat c j.done b s.stamp } ∧
    (∀ k, k ≠ p.toNat → t.ps k = s.ps k) ∧ s.Frame [.psec] t)) ∧
  (∀ (s : State) (p : BitVec 2) (e : Export), s.ctl = true →
  (s.ps p.toNat).exporting = some e →
  let ended := fun (t : State) (status : BitVec 256) =>
    let q := t.ps p.toNat
    q.exporting = none ∧ q.exportStatus = status ∧ q.keys.c1 = none ∧ q.keys.c2 = none ∧ q.keys.cM = none ∧
    Tbl.has t.frozen p.toNat = false ∧ ∀ k, k ≠ p.toNat → t.ps k = s.ps k
  (s.link.up = true → s.exists_ p.toNat = true → Goes (exec (.exportEnd p) s) fun t => ended t (statusWord 2 1 0 e.granules 0 s.stamp)) ∧
  (∀ d, e.deadline = some d → d.toNat + 56000000 ≤ s.time.counter.toNat → Goes (exec (.exportAbandoned p) s) fun t =>
    ended t (statusWord 4 1 0x1007 0 0 s.stamp) ∧ t.link = s.link))

/-! ### Power, temperature, supplies -/

/-- A control period (R373 to R377): the new cap takes effect, the sample enters the window, and the controller takes the highest point whose
prediction at full duty is within p_next, else the highest duty at the floor; where nothing is within it, the floor at duty 1/8 and
cap-unattainable, latched and logged when it begins. -/
def Obligations.ControlPeriodChoosesHighestAllowed : Prop := ∀ s : State, s.clocked = true → s.pw.period = true →
  Goes (exec .controlPeriod s) fun t =>
    let e := s.pw.sample
    let sum := s.pw.sum - (popRun s.pw.window).1 + e
    let pnextW : Int := min (2 * (1000 * s.pw.cap.toNat : Nat) * (s.pw.w.toNat : Int) - sum) (2400000 * (s.pw.w.toNat : Int))
    let ok := fun k j => predOk s e pnextW k j
    t.pw.capNow = s.pw.cap ∧ t.pw.cap = s.pw.cap ∧ t.pw.sum = sum ∧ t.pw.lastSample = e ∧ t.pw.fastLimit = false ∧
    (∀ k, 1 ≤ k → k ≤ 64 → ok k 8 = true → (∀ m, k < m → m ≤ 64 → ok m 8 = false) →
      t.pw.capPoint.toNat = k ∧ t.pw.capDuty = 8 ∧ t.pw.unattainable = false) ∧
    (∀ j, 1 ≤ j → j ≤ 8 → ok 0 j = true → (∀ m, 1 ≤ m → m ≤ 64 → ok m 8 = false) → (∀ m, j < m → m ≤ 8 → ok 0 m = false) →
      t.pw.capPoint = 0 ∧ t.pw.capDuty.toNat = j ∧ t.pw.unattainable = false) ∧
    ((∀ m, 1 ≤ m → m ≤ 64 → ok m 8 = false) → (∀ m, 1 ≤ m → m ≤ 8 → ok 0 m = false) →
      t.pw.capPoint = 0 ∧ t.pw.capDuty = 1 ∧ t.pw.unattainable = true ∧ t.pw.latched = s.pw.latched ||| 1 ∧
      (s.pw.unattainable = false → LogsNext s t 0x0506 0)) ∧
    (∀ d, d < 4 → (t.diePw d).duty = t.pw.capDuty) ∧ s.Frame [.pw, .can, .log] t

/-- A glide step (R372) moves one point toward the target, with the clock and the voltage of that point; it waits for a droop and its hold-off. An
activity estimate (R378) that brings the trailing 2 ms to 4.56 J halves the clock of every die outside a droop, to no less than 800 MHz. A droop
(R379, R380): each firing is counted and holds the die's changes back until 64 ac after it clears; one that lasts more than 1 ms is logged with 0x0503
once and drops the ceiling one step. Only that die changes. -/
def Obligations.GlideFastLimitAndDroop : Prop :=
  (∀ s : State, s.clocked = true →
  (∀ d : BitVec 2, (s.diePw d.toNat).droop = false → (s.diePw d.toNat).holdoff = false → (s.diePw d.toNat).point ≠ (s.diePw d.toNat).target →
    Goes (exec (.glideStep d) s) fun t =>
      let q := s.diePw d.toNat
      let r := t.diePw d.toNat
      (q.point.toNat < q.target.toNat → r.point.toNat = q.point.toNat + 1) ∧ (q.target.toNat < q.point.toNat → r.point.toNat + 1 = q.point.toNat) ∧
      r = { q with point := r.point, mhz := pointMhz r.point.toNat, mv := Config.volt d.toNat r.point.toNat } ∧
      (∀ k, k ≠ d.toNat → t.diePw k = s.diePw k) ∧ s.Frame [.pw] t) ∧
  (∀ uj : BitVec 32, Goes (exec (.activityEstimate uj) s) fun t =>
    let gone := if runLength s.pw.fast < 2000 then 0 else (popRun s.pw.fast).1
    let sum := s.pw.fastSum - gone + uj.toNat
    t.pw.fastSum = sum ∧ s.Frame [.pw] t ∧
    ((sum < 4560000 ∨ s.pw.fastLimit = true) → t.pw.dies = s.pw.dies ∧ t.pw.fastLimit = s.pw.fastLimit ∧ t.pw.latched = s.pw.latched) ∧
    (4560000 ≤ sum → s.pw.fastLimit = false → t.pw.fastLimit = true ∧ t.pw.latched = s.pw.latched ||| 2 ∧ ∀ d, d < 4 →
      ((s.diePw d).droop = false → (s.diePw d).holdoff = false → (t.diePw d).mhz.toNat = max 800 ((s.diePw d).mhz.toNat / 2)) ∧
      (((s.diePw d).droop = true ∨ (s.diePw d).holdoff = true) → t.diePw d = { s.diePw d with pendingHalve := true })))) ∧
  (∀ (s : State) (d : BitVec 2) (g : BitVec 2), s.clocked = true →
  let q := s.diePw d.toNat
  let rest := fun (t : State) => ∀ k, k ≠ d.toNat → t.diePw k = s.diePw k
  Goes (exec (.droop d g) s) (fun t => (t.diePw d.toNat).droop = true ∧ (t.diePw d.toNat).holdoff = false ∧
    (t.diePw d.toNat).droopCount = q.droopCount + 1 ∧ (q.droop = false → (t.diePw d.toNat).droopAt = s.now) ∧
    (t.diePw d.toNat).mhz = q.mhz ∧ (t.diePw d.toNat).point = q.point ∧ rest t ∧ s.Frame [.pw] t) ∧
  (q.droop = true → Goes (exec (.droopClear d) s) fun t => t.diePw d.toNat = { q with droop := false, holdoff := true } ∧ rest t ∧ s.Frame [.pw] t) ∧
  (q.droop = false → q.holdoff = true → Goes (exec (.droopHoldoffEnd d) s) fun t =>
    (t.diePw d.toNat).holdoff = false ∧ (t.diePw d.toNat).pendingTarget = false ∧ (t.diePw d.toNat).pendingHalve = false ∧
    (q.pendingHalve = true → (t.diePw d.toNat).mhz.toNat = max 800 (q.mhz.toNat / 2)) ∧
    (q.pendingHalve = false → (t.diePw d.toNat).mhz = q.mhz ∧ (t.diePw d.toNat).point = q.point) ∧
    (q.pendingHalve = false → q.pendingTarget = true → (t.diePw d.toNat).target = dieTarget s d.toNat) ∧ rest t ∧ s.Frame [.pw] t) ∧
  (q.droop = true → q.droopLogged = false → q.droopAt + 1000000 < s.now → Goes (exec (.prolongedDroop d) s) fun t =>
    LogsNext s t 0x0503 0 ∧ (t.diePw d.toNat).droopLogged = true ∧ (t.diePw d.toNat).ceiling.toNat = q.ceiling.toNat - 1 ∧
    (t.diePw d.toNat).pendingTarget = true ∧ rest t ∧ s.Frame [.pw, .can, .log] t))

/-- Shutdowns (R382, R423): loss of coolant for more than 100 µs, a trip, an error of a control memory. The device stops, the clocks are gated,
the keys of every partition are destroyed, every partition resets, and the cause is logged with severity 4. -/
def Obligations.ShutdownsStopDevice : Prop := ∀ s : State,
  let down := fun (t : State) (cause : U16) => t.boot.stopped = true ∧ t.pw.gated = true ∧ t.pw.vmin = true ∧
    (∀ p, p < s.mode.count → (t.ps p).st = .resetting ∧ (t.ps p).keys.kT = none ∧ (t.ps p).keys.kP = none ∧ (t.ps p).keys.kC = none ∧
      (t.ps p).keys.k1 = none ∧ (t.ps p).keys.k2 = none ∧ (t.ps p).keys.kM = none ∧ (t.ps p).keys.importKey = none ∧ (t.ps p).keys.c1 = none ∧
      (t.ps p).keys.c2 = none ∧ (t.ps p).keys.cM = none ∧ (t.ps p).scrub = none ∧ (t.ps p).job = none ∧ (t.ps p).exporting = none) ∧
    LogsNext s t cause 4 ∧ s.Frame [.boot, .psec, .mem, .pw, .can, .log] t
  (s.clocked = true → ∀ x, s.pw.coolLowSince = some x → x + 100000 < s.now → Goes (exec .coolantStop s) fun t =>
    down t 0x0504 ∧ t.pw.coolantStop = true ∧ t.boot.ctlFail = false) ∧
  (s.ctl = true → s.boot.stopped = false → Goes (exec .controlMemoryError s) fun t => down t 0x080B ∧ t.boot.ctlFail = true) ∧
  (s.clocked = true → ∀ temps : List (BitVec 32), (setTemps s 24 (temps.take 12)).tripDue = true →
    Goes (exec (.stackTemperatureRead temps) s) fun t => down t 0x0502 ∧ t.pw.thermtrip = true) ∧
  (s.ctl = true → Goes (exec .coolOkDeassert s) fun t => t = { s with pw := { s.pw with coolLowSince := t.pw.coolLowSince } } ∧
    (s.pw.coolLowSince = none → t.pw.coolLowSince = some s.now) ∧ ∀ x, s.pw.coolLowSince = some x → t.pw.coolLowSince = some x) ∧
  (s.ctl = true → Goes (exec .coolOkAssert s) fun t => t = { s with pw := { s.pw with coolLowSince := none } })

/-- Temperatures and supplies (R381, R383) where nothing trips: the readings are kept; a stack above 85 °C is refreshed at double rate, one above
95 °C admitted at half rate until 93 °C; a die above 95 °C is logged once per excursion and its ceiling lowered one step per 1 ms. A regulator that
answers gives its energy and rate; the third silence in a row is logged with 0x0505 and keeps its rate. -/
def Obligations.ReadingsDriveCeilingsAndStacks : Prop := ∀ s : State, s.clocked = true →
  (∀ temps : List (BitVec 32), temps.length = 12 → (setTemps s 24 temps).tripDue = false → Goes (exec (.stackTemperatureRead temps) s) fun t =>
    (∀ i, i < 12 → let x := temps.getD i 0
      t.temp (24 + i) = x ∧ (t.pw.refresh2x.getLsbD i = hotter x 85) ∧ (hotter x 95 = true → t.pw.halfRate.getLsbD i = true) ∧
      (hotter x 95 = false → atMost x 93 = true → t.pw.halfRate.getLsbD i = false) ∧
      (hotter x 95 = false → atMost x 93 = false → t.pw.halfRate.getLsbD i = s.pw.halfRate.getLsbD i)) ∧
    (∀ i, i < 24 → t.temp i = s.temp i) ∧ s.Frame [.pw] t) ∧
  (∀ temps : List (BitVec 32), temps.length = 24 → (setTemps s 0 temps).tripDue = false → Goes (exec (.thermalReading temps) s) fun t =>
    (∀ i, i < 24 → t.temp i = temps.getD i 0) ∧ s.Frame [.pw, .can, .log] t ∧
    ∀ d, d < 4 → let ts := (dieSensors d).map fun i => temps.getD i 0
      let q := s.diePw d
      (ts.any (hotter · 95) = true → (t.diePw d).hot = true ∧
        (t.diePw d).ceiling.toNat = if s.since q.lastCeiling 1000000 then q.ceiling.toNat - 1 else q.ceiling.toNat) ∧
      (ts.any (hotter · 95) = false → ts.all (atMost · 93) = false → t.diePw d = q) ∧
      (ts.any (hotter · 95) = false → ts.all (atMost · 93) = true → (t.diePw d).hot = false ∧
        (s.since q.lastCeiling 1000000 = false → (t.diePw d).ceiling = q.ceiling) ∧
        (s.since q.lastCeiling 1000000 = true → q.ceiling.toNat < 64 → (t.diePw d).ceiling.toNat = q.ceiling.toNat + 1))) ∧
  (∀ x : RegReading, (s.pw.reg x.reg.toNat).addr ≠ 0 → let r := s.pw.reg x.reg.toNat
    Goes (exec (.pmbusPoll [x]) s) fun t => let r' := t.pw.reg x.reg.toNat
      s.Frame [.pw, .can, .log] t ∧ (∀ k, k ≠ x.reg.toNat → t.pw.reg k = s.pw.reg k) ∧
      (∀ v, x.eout = some v → r'.eout = v ∧ r'.silent = 0 ∧ r'.logged = false ∧ (r.known = true → r'.rate = v - r.eout) ∧ t.log = s.log) ∧
      (x.eout = none → r' = { r with silent := r.silent + 1, logged := r.logged || decide (3 ≤ r.silent + 1) } ∧
        (3 ≤ r.silent + 1 → r.logged = false → LogsNext s t 0x0505 0) ∧ ((r.silent + 1 < 3 ∨ r.logged = true) → t.log = s.log)))

/-! ### Resets and bring-up -/

/-- A device reset (R432, R433): what it keeps, which new values take effect, what it clears. -/
def Obligations.DeviceResetKeepsConfigurationEntries : Prop := ∀ s : State, s.ctl = true → Goes (exec .deviceReset s) fun t =>
  t.can.arbNew = s.can.arbNew ∧ t.can.dataNew = s.can.dataNew ∧ t.can.hbPeriod = s.can.hbPeriod ∧ t.can.threshold = s.can.threshold ∧
  t.pw.cap = s.pw.cap ∧ t.pw.w = s.pw.w ∧ (∀ i, (t.pw.reg i).addr = (s.pw.reg i).addr) ∧
  (∀ p, (t.sched p).sregNew = (s.sched p).sregNew ∧ (t.sched p).defer = (s.sched p).defer ∧ (t.ps p).sealMode = (s.ps p).sealMode ∧
    (t.ps p).guard = (s.ps p).guard ∧ (t.peer p).sampleDiv = (s.peer p).sampleDiv ∧ (t.peer p).peerTimeout = (s.peer p).peerTimeout) ∧
  t.svc.thresholds = s.svc.thresholds ∧ (∀ i, t.blockedEntry i = s.blockedEntry i) ∧ t.rank = s.rank ∧ (∀ j, (t.port j).limit = (s.port j).limit) ∧
  t.mem.bankW = s.mem.bankW ∧ t.mem.bankH = s.mem.bankH ∧ t.mem.egressW = s.mem.egressW ∧ t.mem.egressH = s.mem.egressH ∧
  t.mode = s.pendingMode.getD s.mode ∧ t.pendingMode = none ∧ t.can.arb = s.can.arbNew ∧ t.can.data = s.can.dataNew ∧
  (∀ p, (t.sched p).sreg = (s.sched p).sregNew)

/-- What a device reset clears (R432, R434): keys, slots, events, memory, rooms, rings and service state; the trouble log stays, and boot begins
at B1. Power-on reset and power removal clear the log as well, and keep the fused identity and minimum security version. -/
def Obligations.ResetsClearTheDevice : Prop := ∀ s : State,
  let bare := fun (t : State) => (∀ p, (t.ps p).keys = {} ∧ (t.ps p).job = none ∧ (t.ps p).slotId = 0) ∧ t.events = [] ∧ t.rings = [] ∧ t.rooms = [] ∧
    t.mem.hbm = [] ∧ t.mem.lines = [] ∧ t.mem.wcb = [] ∧ t.time.mode = .unset ∧ t.time.counter = 0 ∧ t.svc.out = [] ∧ t.svc.quar = [] ∧
    t.sec.debug = false ∧ t.ident = s.ident ∧ t.boot.svnMin = s.boot.svnMin ∧ t.dict.waiting = [] ∧ t.link.up = false
  (s.ctl = true → Goes (exec .deviceReset s) fun t => bare t ∧ t.log = s.log ∧ t.boot.stage = .b1 ∧ t.boot.warm = true ∧ t.boot.nodeId = s.boot.nodeId ∧
    t.sec.challenge = Config.freeKey s.free) ∧
  Goes (exec .powerOnReset s) (fun t => bare t ∧ t.boot.stage = .b0 ∧ t.log.entries = [] ∧ t.log.seq = 0 ∧ t.mode = .one ∧ t.pw.cap = 1800) ∧
  Goes (exec .powerRemoval s) (fun t => bare t ∧ t.boot.stage = .off ∧ t.log.entries = [] ∧ t.log.seq = 0)

/-- Boot (R430, R434 to R436): the straps are sampled and boot begins; a sound image starts the firmware and ends in HOLD, or in B3 after a device
reset; a rejected one leads to the next source; the boot line keeps the device's STATUS and SOURCE under a companion's store. Bring-up (R434): with
all clocks locked B3 ends, every die at the voltage of point 0; the self-test takes each unit that failed out of service and logs it with 0x0806;
formation of every partition of the mode is then due. -/
def Obligations.BringUpStages : Prop :=
  (∀ s : State,
  (∀ (n : BitVec 7) (g : BitVec 2) (f : Bool), s.boot.stage = .b0 → Goes (exec (.poresetRelease n g f) s) fun t =>
    t.boot.stage = .b1 ∧ t.boot.nodeId = n ∧ t.boot.clgen = g ∧ t.boot.fwsrc = f ∧ t.boot.bootLineUp = f ∧ s.Frame [.boot, .can, .log] t ∧
    (n = 0 → LogsNext s t 0x1102 4) ∧ (n ≠ 0 → t.log = s.log)) ∧
  (∀ (img : FwImage) (gen : BitVec 2), s.boot.stage = .b1 → checkImage s.boot.svnMin img = 0 → Goes (exec (.firmwareStart ⟨img, gen⟩) s) fun t =>
    t.boot.stage = (if s.boot.warm then .b3 else .hold) ∧ t.boot.runDigest = img.bodyDigest ∧ t.boot.svnRun = img.svn ∧
    t.boot.vendorKey = img.vendorKey ∧ t.boot.bootLineUp = false ∧ t.link.up = (gen != 0 && !s.tap.held) ∧
    t.link.gen = s.trained gen ∧ t.can.first = true ∧ s.Frame [.boot, .link, .can] t) ∧
  (∀ st : BitVec 8, s.boot.stage = .b1 → Goes (exec (.firmwareImageRejected st) s) fun t => s.Frame [.boot] t ∧ t.boot.stage = .b1 ∧
    (s.boot.imageSrc = 0 → t.boot.imageSrc = 1 ∧ t.boot.bootLineUp = s.boot.bootLineUp) ∧
    (s.boot.imageSrc = 1 → t.boot.imageSrc = 2 ∧ t.boot.bootLineUp = true ∧ field t.boot.bootLine 32 8 = 1) ∧
    (s.boot.imageSrc = 2 → t.boot.imageSrc = 2 ∧ bits t.boot.bootLine 40 8 = st ∧ field t.boot.bootLine 32 8 = 2)) ∧
  (∀ line : BitVec 512, s.boot.stage = .b1 → s.boot.bootLineUp = true → Goes (exec (.bootLineRequest line) s) fun t => s.Frame [.boot] t ∧
    field t.boot.bootLine 0 32 = field line 0 32 ∧ field t.boot.bootLine 416 96 = field line 416 96 ∧
    (field line 0 16 = field s.boot.bootLine 0 16 → bits t.boot.bootLine 32 16 = bits s.boot.bootLine 32 16) ∧
    (field line 0 16 ≠ field s.boot.bootLine 0 16 → field t.boot.bootLine 40 8 = 1 ∧ field t.boot.bootLine 32 8 = 2))) ∧
  (∀ s : State, s.boot.stopped = false →
  (s.boot.stage = .b3 → Goes (exec .pllLock s) fun t => t.boot = { s.boot with stage := .b4 } ∧ t.pw.period = true ∧ t.pw.pmbusLocked = true ∧
    (∀ d, d < 4 → t.diePw d = { s.diePw d with mv := Config.volt d 0 }) ∧ s.Frame [.boot, .pw] t) ∧
  (s.boot.stage = .b4 → ∀ failed : List (BitVec 3 × BitVec 9), Goes (exec (.selfTestDone failed) s) fun t =>
    t.boot = { s.boot with stage := .b5, toForm := s.parts } ∧ s.Frame [.boot, .svc, .can, .log] t ∧
    ∀ c u, c < 5 → u < classSize c → (t.outOfService c u = true ↔ s.outOfService c u = true ∨
      (s.fusedOff c u = false ∧ ∃ x ∈ failed, x.1.toNat = c ∧ x.2.toNat = u))))

/-! ### The field bus and the trouble log's copies -/

/-- The copy of a log entry that a reader gets (R408), and the fault frames, which carry neither DETAIL nor ARG. -/
def Obligations.LogCopiesAreRedacted : Prop := ∀ e : BitVec 256,
  (∀ p : BitVec 2, (field e 29 3 = p.toNat ∨ field e 29 3 = 7) → redact (.tenant p) e = e) ∧
  (∀ p : BitVec 2, field e 29 3 ≠ p.toNat → field e 29 3 ≠ 7 → let r := redact (.tenant p) e
    bits r 192 64 = bits e 192 64 ∧ bits r 96 32 = bits e 96 32 ∧ bits r 22 2 = bits e 22 2 ∧ flag r 24 = true ∧
    field r 128 64 = 0 ∧ field r 25 71 = 0 ∧ field r 0 22 = 0) ∧
  (∀ src : Src, (∀ p, src ≠ .tenant p) → flag e 25 = true → let r := redact src e
    field r 128 64 = 0 ∧ field r 32 32 = 0 ∧ flag r 24 = true ∧ bits r 192 64 = bits e 192 64 ∧ bits r 64 64 = bits e 64 64 ∧
    bits r 25 7 = bits e 25 7 ∧ bits r 0 24 = bits e 0 24) ∧
  (∀ src : Src, (∀ p, src ≠ .tenant p) → flag e 25 = false → redact src e = e) ∧
  (∀ (s : State) (cause : U16) (a : LogArgs) (d : U64) (x : U32), queueFault s cause { a with detail := d, arg := x } = queueFault s cause a)

/-- Heartbeats and fault frames (R400, R404, R405): the frame sent, its identifier and bytes; the fault queue is served in order. Error confinement
(R400; the counters are the standard's, a presumption of the model): an error counts, bus-off follows past 255, and its recovery clears the counters
and is logged with 0x1103. -/
def Obligations.FieldBusFramesAndErrors : Prop :=
  (∀ s : State, s.canOn = true →
  (s.heartbeatDue = true → Goes (exec .heartbeat s) fun t =>
    t.can.out = s.can.out ++ [{ ident := BitVec.ofNat 11 (0x700 + s.boot.nodeId.toNat), data := s.heartbeat ++ [s.can.hbCount] }] ∧
    t.can.hbCount = s.can.hbCount + 1 ∧ t.can.first = false ∧ t.can.hbSent = s.now ∧ t.can.sent = s.can.sent + 1 ∧ s.Frame [.can] t) ∧
  (∀ w rest, s.can.first = false → s.can.faults = w :: rest → Goes (exec .faultFrame s) fun t =>
    t.can.out = s.can.out ++ [{ ident := BitVec.ofNat 11 (0x100 + s.boot.nodeId.toNat), data := bytesOf w }] ∧ t.can.faults = rest ∧
    s.Frame [.can] t)) ∧
  (∀ s : State,
  (∀ tx : Bool, s.canOn = true → Goes (exec (.canBusError tx) s) fun t =>
    t.can.tec = (if tx then s.can.tec + 8 else s.can.tec) ∧ t.can.rec_ = (if tx then s.can.rec_ else s.can.rec_ + 1) ∧
    t.can.busOff = decide (255 < t.can.tec) ∧ t.can.passive = (decide (127 < t.can.tec) || decide (127 < t.can.rec_)) ∧ s.Frame [.can] t) ∧
  (s.fw = true → s.can.busOff = true → Goes (exec .busOffRecovery s) fun t => t.can.busOff = false ∧ t.can.tec = 0 ∧ t.can.rec_ = 0 ∧
    t.can.recoveries = satInc s.can.recoveries ∧ LogsNext s t 0x1103 1 ∧ s.Frame [.can, .log] t))

/-- DDA requests that the tray sends (R402, R403): a read or an expedited write waits for a dictionary cycle, an open transfer is aborted with
0x22; an initiate that the checks refuse is aborted with their code, otherwise it opens a transfer; an undefined command byte is aborted with
0x24. -/
def Obligations.DdaRequestsQueueOrAbort : Prop := ∀ s : State, s.canOn = true →
  let old := fun (t : State) => t.can.dda = none ∧ (∀ d, s.can.dda = some d → t.dict.aborts = satInc s.dict.aborts) ∧
    (s.can.dda = none → t.dict.aborts = s.dict.aborts) ∧ t.can.received = satInc s.can.received ∧ s.Frame [.can, .log, .dict] t
  (∀ (fd : Bool) (i : BitVec 16) (sub : BitVec 8), Goes (exec (.readRequest fd i sub) s) fun t => old t ∧
    t.dict.waiting = s.dict.waiting ++ [{ src := .tray, path := .can fd, index := i, sub := sub }]) ∧
  (∀ (fd : Bool) (i : BitVec 16) (sub : BitVec 8) (data : List Byte), data ≠ [] → data.length ≤ expeditedMax fd →
    Goes (exec (.expeditedWrite fd i sub data) s) fun t => old t ∧
      t.dict.waiting = s.dict.waiting ++ [{ src := .tray, path := .can fd, index := i, sub := sub, write := true, data := data }]) ∧
  (∀ (fd : Bool) (i : BitVec 16) (sub : BitVec 8) (len : BitVec 32),
    Goes (exec (.segmentedWriteInitiate fd i sub len) s) fun t =>
      let c := writeCheckLen s .tray i.toNat sub.toNat len.toNat
      t.dict.waiting = s.dict.waiting ∧ s.Frame [.can, .log, .dict] t ∧
      (c = 0 → t.can.dda = some { reading := false, fd := fd, index := i, sub := sub, len := len.toNat, last := s.now } ∧
        (s.can.dda = none → t.dict.aborts = s.dict.aborts)) ∧
      (c ≠ 0 → t.can.dda = none ∧ (s.can.dda = none → t.dict.aborts = satInc s.dict.aborts) ∧ t.dict.requests = satInc s.dict.requests)) ∧
  (∀ (fd : Bool) (cmd : BitVec 8), trayCommand cmd = false → Goes (exec (.unknownCommand fd cmd) s) fun t =>
    t.can.dda = none ∧ t.dict.aborts = satInc s.dict.aborts ∧ t.dict.waiting = s.dict.waiting ∧ s.Frame [.can, .log, .dict] t ∧
    ∃ f, t.can.out.getLast? = some f ∧ f.data.head? = some 0xFF ∧ f.data.getD 4 0 = 0x24)

/-- A segmented transfer (R403): a segment of a write is kept and acknowledged, the last one submits the whole value; a segment of a read
answers the next bytes; a wrong toggle is aborted with 0x20, the tray's abort and 100 ms without a frame end the transfer, logged with 0x1104. -/
def Obligations.SegmentedTransfersMoveInOrder : Prop := ∀ (s : State) (d : Dda), s.can.dda = some d →
  let ended := fun (t : State) => t.can.dda = none ∧ t.dict.waiting = s.dict.waiting ∧ t.dict.aborts = satInc s.dict.aborts ∧ s.Frame [.can, .log, .dict] t
  (s.canOn = true → ∀ (fd tg last : Bool) (data : List Byte), Goes (exec (.segmentFrame fd tg last data) s) fun t =>
    let whole := d.data ++ data.take (min (segmentMax fd) (d.len - d.data.length))
    (tg ≠ (d.seg % 2 == 1) → ended t ∧ ∃ f, t.can.out.getLast? = some f ∧ f.data.head? = some 0xFF ∧ f.data.getD 4 0 = 0x20) ∧
    (tg = (d.seg % 2 == 1) → d.reading = false → last = false →
      t.can.dda = some { d with data := d.data ++ data.take (segmentMax fd), seg := d.seg + 1, last := s.now } ∧ t.dict = s.dict ∧ s.Frame [.can] t) ∧
    (tg = (d.seg % 2 == 1) → d.reading = false → last = true → t.can.dda = none ∧ s.Frame [.can, .dict] t ∧
      t.dict = { s.dict with waiting := s.dict.waiting ++
        [{ src := .tray, path := .canSeg fd, index := d.index, sub := d.sub, write := true, data := whole }] }) ∧
    (tg = (d.seg % 2 == 1) → d.reading = true → t.dict = s.dict ∧ s.Frame [.can] t ∧
      (d.data.length ≤ segmentMax fd → t.can.dda = none) ∧
      (segmentMax fd < d.data.length → t.can.dda = some { d with data := d.data.drop (segmentMax fd), seg := d.seg + 1, last := s.now }) ∧
      ∃ f, t.can.out.getLast? = some f ∧ (f.data.drop 1).take (min (segmentMax fd) d.data.length) = d.data.take (segmentMax fd))) ∧
  (s.canOn = true → Goes (exec .ddaAbort s) fun t => ended t) ∧
  (s.fw = true → s.since d.last 100000000 = true → Goes (exec .ddaTimeout s) fun t => ended t ∧ LogsNext s t 0x1104 0)

/-! ### The companion link -/

/-- A read over the link (R323, R325, R326), errors that have struck by then in place (R310): the one response, by what the address reaches. An
address nobody owns gives status 7; a mirror line its contents, a register-class read's in the response slot; a closed window, a scrub, a reset their
status, without reaching memory; a blocked granule status 4; else the bytes of memory, or status 5 where one is poisoned. Any status but 0 comes
with all ones. After the last message of the inbound flit the outbound flit that matches it goes. -/
def Obligations.LinkReadsAreAnsweredByState : Prop := ∀ (s : State) (fl : Flit) (tag : BitVec 11) (line : BitVec 46) (found : List Flaw),
  s.flitNext fl = true →
  let addr := 64 * line.toNat
  let u := takeFlit s fl
  let goes := fun (l : LinkSt) => if fl.more then l else l.turn
  let answered := fun (t v : State) (reg : LinkSt → OutMsg → LinkSt) =>
    let sent := fun (st : BitVec 4) (data : List Byte) => t.link = goes (u.link.put { typ := 7, tag := tag, status := st, data := data })
    (s.target addr = .nothing → sent 7 allOnesLine ∧ v.Frame [.link] t) ∧
    (∀ off, s.target addr = .mirror off → v.Frame [.link] t ∧
      t.link = goes (reg u.link { typ := 7, tag := tag, status := 0, data := bytesOf (mirrorRead s off) })) ∧
    (∀ p a, s.target addr = .window p a → s.windowStatus p a ≠ 0 → sent (s.windowStatus p a) allOnesLine ∧ v.Frame [.link] t) ∧
    (∀ p a, s.target addr = .window p a → s.windowStatus p a = 0 → v.accessStop a ≠ none → sent 4 allOnesLine ∧ t.mem.hbm = s.mem.hbm) ∧
    (∀ p a, s.target addr = .window p a → s.windowStatus p a = 0 → v.accessStop a = none →
      if (touch v a 64).poisonAt a 64 then sent 5 allOnesLine else sent 0 ((touch v a 64).bytesAt a 64))
  (Goes (exec (.rd fl tag line found) s) fun t => answered t (strikeAll u found) LinkSt.put) ∧
  Goes (exec (.rdreg fl tag line) s) fun t => answered t u LinkSt.putReg

/-- A write over the link (R326): a full line or the bytes its mask names. Where it is answered with another status than 0 it is discarded; through an
open window, with LINKBASE aligned as R326 has it, exactly the bytes written change; a status or response line refuses with 6; a store that changes
the REQID of a request line submits the request (R397). An atomic over the link (R301, R302, R326): the operand becomes the operation's result over
what it held, a fetch returns what it held, or status 5 from a poisoned sector (the model's reading, log 47); any other target than an open window, or
an operand that is not aligned, gives status 7 and changes no memory. -/
def Obligations.LinkWritesAndAtomicsStore : Prop :=
  (∀ (s : State) (fl : Flit) (tag : BitVec 11) (line : BitVec 46) (data : BitVec 512)
    (mask : BitVec 64), s.flitNext fl = true →
  let addr := 64 * line.toNat
  let u := takeFlit s fl
  let written := fun (t : State) (mask : BitVec 64) =>
    let sent := fun (st : BitVec 4) => t.link.replay = (u.link.put { typ := 6, tag := tag, status := st }).replay
    (s.target addr = .nothing → sent 7 ∧ s.Frame [.link] t) ∧
    (∀ off, s.target addr = .mirror off → (∀ n, mirrorLine off = .status n → sent 6 ∧ s.Frame [.link] t ∧ t.link.boxes = s.link.boxes) ∧
      (∀ m, mirrorLine off = .response m → sent 6 ∧ s.Frame [.link] t ∧ t.link.boxes = s.link.boxes) ∧
      (mirrorLine off = .reserved → sent 0 ∧ s.Frame [.link] t ∧ t.link.boxes = s.link.boxes) ∧
      (∀ m, mirrorLine off = .request m → let l := mergeLine mask (s.box m).req data
        sent 0 ∧ (t.box m).req = l ∧ s.Frame [.link, .dict] t ∧
        (bits l 0 16 = bits (s.box m).req 0 16 → t.dict = s.dict) ∧
        (bits l 0 16 ≠ bits (s.box m).req 0 16 → ∃ r, t.dict.waiting.getLast? = some r ∧ r.path = .box m ∧ r.line = l ∧
          ∀ x ∈ t.dict.waiting.dropLast, x.path ≠ .box m))) ∧
    (∀ p a, s.target addr = .window p a → s.windowStatus p a ≠ 0 → sent (s.windowStatus p a) ∧ s.Frame [.link] t) ∧
    (∀ p a, s.target addr = .window p a → s.windowStatus p a = 0 → s.accessStop a ≠ none → sent 4 ∧ ∀ b, t.byteAt b = s.byteAt b) ∧
    (∀ p a, s.target addr = .window p a → s.windowStatus p a = 0 → s.accessStop a = none → a % 64 = 0 →
      sent 0 ∧ s.Frame [.link, .mem] t ∧
      ∀ b, t.byteAt b = if a ≤ b ∧ b < a + 64 ∧ mask.getLsbD (b - a) then bits data (8 * (b - a)) 8 else s.byteAt b)
  (Goes (exec (.wr fl tag line data) s) fun t => written t (BitVec.allOnes 64)) ∧
  Goes (exec (.wrp fl tag line data mask) s) fun t => written t mask) ∧
  (∀ (s : State) (fl : Flit) (tag : BitVec 11) (addr : BitVec 52) (op : AtomicOp) (x y : BitVec 64),
  s.flitNext fl = true → Goes (exec (.at fl tag addr op x y) s) fun t =>
    let w := atWidth op.kind
    let sent := fun (st : BitVec 4) (v : Nat) => ∃ m, t.link.replay.getLast?.map (·.msg) = some m ∧ m.tag = tag ∧ m.status = st ∧
      (op.fetch = true → m.typ = 7 ∧ m.data = if st = 0 then padTo 64 (leBytes w v) else allOnesLine) ∧ (op.fetch = false → m.typ = 6)
    s.Frame [.link, .mem] t ∧
    ((∀ p a, s.target addr.toNat ≠ .window p a) → sent 7 0 ∧ t.mem = s.mem) ∧
    (∀ p a, s.target addr.toNat = .window p a → s.windowStatus p a ≠ 0 → sent (s.windowStatus p a) 0 ∧ t.mem = s.mem) ∧
    (∀ p a, s.target addr.toNat = .window p a → s.windowStatus p a = 0 → s.accessStop a ≠ none → sent 4 0 ∧ ∀ b, t.byteAt b = s.byteAt b) ∧
    (∀ p a, s.target addr.toNat = .window p a → s.windowStatus p a = 0 → s.accessStop a = none → addr.toNat % w ≠ 0 → sent 7 0 ∧ t.mem = s.mem) ∧
    (∀ p a, s.target addr.toNat = .window p a → s.windowStatus p a = 0 → s.accessStop a = none → addr.toNat % w = 0 → a % 256 + w ≤ 256 →
      (s.mem.line (a / 256)).isSome = true → let old := ofLe (s.bytesAt a w)
      sent (if s.poisonAt a w = true ∧ op.fetch = true then 5 else 0) old ∧
      ∀ b, t.byteAt b = if a ≤ b ∧ b < a + w then (leBytes w (atResult op.kind old (x.toNat % 2 ^ (8 * w)) (y.toNat % 2 ^ (8 * w)))).getD (b - a) 0
        else s.byteAt b))

/-- Answers to the device's own reads (R319, R322, R329, R335), each freeing its TAG, and the snoops: a tail line that arrives is held, a notify line is owned; SNPINV takes
the tail line away, is answered with status 0 and the line is read again; SNPRD is answered with the notify line's contents, or status 0 alone. -/
def Obligations.ResponsesAndSnoopsMoveLines : Prop := ∀ (s : State) (fl : Flit) (tag : BitVec 11), s.flitNext fl = true →
  (∀ (st : BitVec 4) (data : BitVec 512), Goes (exec (.rspd fl tag st data) s) fun t =>
    s.Frame [.rings, .link] t ∧ (s.link.waiting = [] → Tbl.find t.link.reads tag.toNat = none) ∧
    (∀ n, Tbl.find s.link.reads tag.toNat = some (.tail n) → (s.ring n).enabled = true → st = 0 →
      (t.ring n).line = data ∧ (t.ring n).lineHeld = true ∧ (t.ring n).read = true ∧ ∀ k, k ≠ n → t.ring k = s.ring k) ∧
    (∀ n, Tbl.find s.link.reads tag.toNat = some (.notify n) → (s.ring n).enabled = true → st = 0 → (t.ring n).owned = true ∧ ∀ k, k ≠ n → t.ring k = s.ring k) ∧
    (∀ n, (Tbl.find s.link.reads tag.toNat = some (.tail n) ∨ Tbl.find s.link.reads tag.toNat = some (.notify n)) → st ≠ 0 → t.rings = s.rings) ∧
    (Tbl.find s.link.reads tag.toNat = none → t.rings = s.rings)) ∧
  (∀ st : BitVec 4, Goes (exec (.rsp fl tag st) s) fun t => s.Frame [.rings, .link] t ∧ (s.link.waiting = [] → Tbl.find t.link.reads tag.toNat = none) ∧
    (∀ n, Tbl.find s.link.reads tag.toNat = some (.tail n) → t.rings = s.rings)) ∧
  (∀ line : BitVec 46, Goes (exec (.snpinv fl tag line) s) fun t => s.Frame [.rings, .link] t ∧
    (t.link.replay.drop (takeFlit s fl).link.replay.length).head?.map (·.msg) = some { typ := 6, tag := tag, status := 0 } ∧
    ∀ n, n < 64 → ((s.ring n).enabled = true → (s.ring n).lineHeld = true → (s.ring n).tailAt = 64 * line.toNat → (t.ring n).lineHeld = false) ∧
      ((s.ring n).tailAt ≠ 64 * line.toNat → t.ring n = s.ring n)) ∧
  (∀ line : BitVec 46, Goes (exec (.snprd fl tag line) s) fun t => s.Frame [.link] t ∧ ∃ m, t.link.replay.getLast?.map (·.msg) = some m ∧ m.tag = tag ∧
    m.status = 0 ∧ ((∀ n, n < 64 → (s.ring n).owned = true → (s.ring n).enabled = true → (s.ring n).notifyAt ≠ 64 * line.toNat) → m.typ = 6) ∧
    (∀ n, n < 64 → (s.ring n).enabled = true → (s.ring n).owned = true → (s.ring n).notifyAt = 64 * line.toNat →
      (∀ k, k < n → ¬((s.ring k).enabled = true ∧ (s.ring k).owned = true ∧ (s.ring k).notifyAt = 64 * line.toNat)) →
      m.typ = 7 ∧ m.data = bytesOf (s.ring n).notify))

/-- Flits (R318 to R320): an idle flit and a NAK acknowledge, advance the frame number, and the matching outbound flit goes; an undefined message
is counted and discarded; a flit that FEC or CRC fails is counted and answered with NAK, one out of order with NAK alone, whatever it carries. A link reset
(R317, R321) trains at best at the generation both sides support, drops the reads in flight, keeps the unacknowledged writes in order and takes every line's copy
away. -/
def Obligations.FlitsAndLinkReset : Prop := ∀ s : State,
  (∀ fl : Flit, s.flitNext fl = true →
    let taken := fun (t : State) => t.link.rxFrame = (if fl.more then s.link.rxFrame else s.link.rxFrame + 1) ∧ t.link.nakDue = false ∧
      t.link.txFrame = (if fl.more then s.link.txFrame else s.link.txFrame + 1) ∧ t.link.replay = (s.link.acked fl.ack).replay ∧ s.Frame [.link] t
    Goes (exec (.idleFlit fl) s) taken ∧ Goes (exec (.companionNak fl) s) taken ∧
    ∀ typ : BitVec 5, 10 < typ.toNat → Goes (exec (.messageOfUndefinedType ⟨fl, typ⟩) s) fun t =>
      taken t ∧ t.link.discarded = satInc16 s.link.discarded) ∧
  (s.ctl = true → s.link.up = true → Goes (exec .flitError s) fun t =>
    t = { s with link := { s.link with crcFails := satInc16 s.link.crcFails, nakDue := true }.turn }) ∧
  (∀ (fl : Flit) (tag : BitVec 11) (line : BitVec 46), s.ctl = true → s.link.up = true → s.flitNext fl = false →
    ∀ i ∈ [Instr.idleFlit fl, .companionNak fl, .rdreg fl tag line, .snpinv fl tag line, .snprd fl tag line], Goes (exec i s) fun t =>
      let l := { s.link with nakDue := true, crcFails := if flitSound fl || fl.more then s.link.crcFails else satInc16 s.link.crcFails }
      t = { s with link := if fl.more then l else l.turn }) ∧
  (∀ g : BitVec 2, s.fw = true → s.tap.held = false → Goes (exec (.linkReset g) s) fun t => s.Frame [.rings, .link] t ∧ t.link.up = (g != 0) ∧
    t.link.rxFrame = 0 ∧ t.link.gen = (if g = 0 then s.link.gen else s.trained g) ∧
    (∀ n, n < 64 → (s.ring n).enabled = true → (t.ring n).lineHeld = false ∧ (t.ring n).owned = false) ∧
    (t.link.replay.map (·.msg)).take (keptWrites s.link.replay).length = keptWrites s.link.replay ∧
    (g = 0 → t.link.reads = [] ∧ t.link.waiting = [] ∧ t.link.replay.map (·.msg) = keptWrites s.link.replay))

/-! ### Command rings -/

/-- A tail line read (R329, R330): its TAIL and HEAD are taken, what lies within reach is fetched, and the ring runs while it has work; a TAIL that
falls, runs past the ring or is not zero after a reset is an overrun, which halts the stream with 0x0F03 once nothing sound is left to dispatch,
while what it has dispatched goes on. -/
def Obligations.TailLineIsTakenOrOverruns : Prop := ∀ (s : State) (ring : BitVec 6), s.lineTaken ring.toNat = true → (s.ring ring.toNat).overrun = false →
  let n := ring.toNat
  let r := s.ring n
  Goes (exec (.tail ring) s) fun t => s.Frame [.free, .psched, .rings, .mem, .link, .can, .log] t ∧
    (r.overruns = false → (t.ring n).tail = lineTail r.line ∧ (t.ring n).head = lineHead r.line ∧ (t.ring n).fresh = false ∧
      (t.ring n).nextSeq = r.nextSeq ∧ (t.ring n).ops = r.ops ∧ (∀ k, k ≠ n → t.ring k = s.ring k) ∧ t.mem = s.mem ∧ t.log = s.log ∧
      ((r.st = .idle ∨ r.st = .running) → (t.ring n).st = if r.nextSeq ≤ lineTail r.line ∨ r.ops ≠ [] then .running else .idle) ∧
      (s.link.up = true → r.fetchSeq ≤ min (lineTail r.line) (r.nextSeq + 63) → (t.ring n).fetchSeq = min (lineTail r.line) (r.nextSeq + 63) + 1)) ∧
    (r.overruns = true → (t.ring n).overrun = true ∧ (t.ring n).tail = r.tail ∧ (t.ring n).nextSeq = r.nextSeq ∧
      ((∀ e ∈ (s.sched (ringPart n)).hitches, e.2.arrived = []) → r.tail < r.nextSeq → (r.st ≠ .disabled ∧ r.st ≠ .scrub ∧ r.st ≠ .resetting) →
        (t.ring n).st = .halted ∧ (t.ring n).faultSeq = r.tail + 1 ∧ (t.ring n).stopReq = r.stopReq ∧ (t.ring n).ops = r.ops ∧ LogsNext s t 0x0F03 2) ∧
      ((r.nextSeq ≤ r.tail ∨ r.st = .disabled ∨ r.st = .scrub ∨ r.st = .resetting) → (t.ring n).st = r.st ∧ t.log = s.log))

/-- The generations of a tail line that has been read (R336, R337): a new RESETGEN resets the ring, a new STOPGEN asks its stream to stop, a new
RESUMEGEN lets a stopped or halted one dispatch again; each value is taken once. A notify line that no longer shows the ring is updated. -/
def Obligations.GenerationsResetStopAndResume : Prop := ∀ (s : State) (ring : BitVec 6),
  let n := ring.toNat
  let r := s.ring n
  (s.ctl = true → r.enabled = true → r.read = true → lineReset r.line ≠ r.takenReset → Goes (exec (.resetgen ring) s) fun t =>
    (t.ring n).takenReset = lineReset r.line ∧ (t.ring n).takenStop = lineStop r.line ∧ (t.ring n).takenResume = lineResume r.line ∧
    (t.ring n).echoReset = lineReset r.line ∧ (t.ring n).ops = [] ∧ (t.ring n).stoppedOps = [] ∧ (t.ring n).done = 0 ∧ (t.ring n).faultSeq = 0 ∧
    (t.ring n).nextSeq = 1 ∧ (t.ring n).tail = 0 ∧ (t.ring n).overrun = false ∧ (t.ring n).steps = r.steps ∧
    (s.pst (ringPart n) ≠ .scrub → s.pst (ringPart n) ≠ .resetting → (t.ring n).st = .idle)) ∧
  (s.lineTaken n = true → lineStop r.line ≠ r.takenStop → Goes (exec (.stopgen ring) s) fun t => s.Frame [.rings] t ∧
    (∀ k, k ≠ n → t.ring k = s.ring k) ∧ (t.ring n).takenStop = lineStop r.line ∧ (t.ring n).stopSeen = true ∧
    ((r.st = .idle ∨ r.st = .running) → (t.ring n).st = .stopping ∧ (t.ring n).stopReq = true) ∧
    (r.st = .stopping → (t.ring n).st = .stopping ∧ (t.ring n).echoStop = r.echoStop) ∧
    (r.st ≠ .idle → r.st ≠ .running → r.st ≠ .stopping → (t.ring n).st = r.st ∧ (t.ring n).echoStop = lineStop r.line)) ∧
  (s.lineTaken n = true → lineStop r.line = r.takenStop → lineResume r.line ≠ r.takenResume → Goes (exec (.resumegen ring) s) fun t =>
    s.Frame [.rings] t ∧ (∀ k, k ≠ n → t.ring k = s.ring k) ∧ (t.ring n).takenResume = lineResume r.line ∧
    (r.overrun = true → (t.ring n).st = r.st ∧ (t.ring n).echoResume = lineResume r.line) ∧
    (r.overrun = false → ((r.st = .stopped ∧ (s.ps (ringPart n)).holdResume = false) ∨ (r.st = .halted ∧ r.stopReq = false)) →
      ((t.ring n).st = .running ∨ (t.ring n).st = .idle) ∧ (t.ring n).stopReq = false ∧ (t.ring n).echoResume = lineResume r.line) ∧
    (r.overrun = false → r.st = .stopped → (s.ps (ringPart n)).holdResume = true → (t.ring n).st = .stopped ∧ (t.ring n).resumePend = true) ∧
    (r.overrun = false → (r.st = .idle ∨ r.st = .running) → (t.ring n).st = r.st ∧ (t.ring n).echoResume = lineResume r.line)) ∧
  (s.ctl = true → r.enabled = true → r.notify ≠ r.notifyWord → Goes (exec (.notifyUpdate ring) s) fun t => s.Frame [.rings] t ∧
    t.ring n = { r with notify := r.notifyWord } ∧ (∀ k, k ≠ n → t.ring k = s.ring k) ∧
    field (t.ring n).notify 0 64 = r.done % 2 ^ 64 ∧ field (t.ring n).notify 64 64 = r.faultSeq % 2 ^ 64 ∧ field (t.ring n).notify 188 4 = r.st.code ∧
    bits (t.ring n).notify 192 16 = r.echoStop ∧ bits (t.ring n).notify 208 16 = r.echoResume ∧ bits (t.ring n).notify 224 16 = r.echoReset)

/-! ### The test access port -/

/-- IDCODE (R452, R453): what the register holds, by grade and revision; Test-Logic-Reset loads the instruction. -/
def Obligations.IdcodeRegisterHoldsPartNumber : Prop := ∀ s : State, s.powered = true → Goes (exec .idcode s) fun t =>
  t.tap.ir = 0x03 ∧ bits t.tap.dr 28 4 = bits s.ident.revision 0 4 ∧ (s.ident.grade = .a → field t.tap.dr 12 16 = 0x0900) ∧
  (s.ident.grade = .b → field t.tap.dr 12 16 = 0x0901) ∧ field t.tap.dr 1 11 = 0x57B ∧ flag t.tap.dr 0 = true ∧
  (s.ident.grade = .a → s.ident.revision = 1 → t.tap.dr = 0x10900AF7) ∧ (s.ident.grade = .b → s.ident.revision = 1 → t.tap.dr = 0x10901AF7)

/-- The instruction register (R366, R454, R456, R457): every command loads its code; all but BYPASS, IDCODE and SAMPLE destroy the keys of every
partition with a tenant and scrub it; the five that hand the balls to the boundary cells take the links down and reset the other partitions. The data
registers (R454, R455, R458, R459): boundary cells, dictionary request and buffer, and what the debug instructions do while debug is unlocked; while
it is locked they do no more than load their code. -/
def Obligations.TestInstructionsAct : Prop :=
  (∀ (s : State) (cells : BitVec 222) (dr : BitVec 384) (buf : BitVec 16384) (cmd : DbgCmd)
    (die : BitVec 3) (m : DbgMem) (pass : Bool) (u : Byte),
  let loads := fun (code : Byte) (t : State) =>
    t.tap.ir = code ∧ t.tap.held = holdsBalls code ∧ t.tap.highz = decide (code = 0x05) ∧ t.tap.ac = decide (code = 0x06 ∨ code = 0x07) ∧
    (sparesKeys code = true → t.psec = s.psec) ∧
    (sparesKeys code = false → ∀ p, p < s.mode.count → (s.pst p).tenanted = true → (t.ps p).st = (if holdsBalls code && !s.tap.held then .resetting else .scrub) ∧ (t.ps p).keys.kT = none ∧
      (t.ps p).keys.kP = none ∧ (t.ps p).keys.kC = none ∧ (t.ps p).keys.k1 = none ∧ (t.ps p).keys.k2 = none ∧ (t.ps p).keys.kM = none ∧
      (t.ps p).keys.importKey = none ∧ (t.ps p).keys.c1 = none ∧ (t.ps p).keys.c2 = none ∧ (t.ps p).keys.cM = none) ∧
    (holdsBalls code = true → s.tap.held = false → t.link.up = false ∧ (∀ j, (t.port j).state = 0) ∧
      ∀ p, p < s.mode.count → (s.pst p = .free ∨ s.pst p = .opened) → (t.ps p).st = .resetting)
  s.powered = true →
    Goes (exec .extest s) (loads 0x00) ∧ Goes (exec .sample s) (loads 0x01) ∧ Goes (exec (.preload cells) s) (loads 0x02) ∧
    Goes (exec .testLogicReset s) (loads 0x03) ∧ Goes (exec .clamp s) (loads 0x04) ∧ Goes (exec .highz s) (loads 0x05) ∧
    Goes (exec .extestPulse s) (loads 0x06) ∧ Goes (exec .extestTrain s) (loads 0x07) ∧ Goes (exec (.dict dr) s) (loads 0x10) ∧
    Goes (exec (.dictbuf buf) s) (loads 0x11) ∧ Goes (exec (.dbgacc cmd) s) (loads 0x20) ∧ Goes (exec (.scanchain die) s) (loads 0x21) ∧
    Goes (exec (.mbist m pass) s) (loads 0x22) ∧ Goes (exec .bypass s) (loads 0xFF) ∧
    (tapDefined u = false → Goes (exec (.undefinedInstruction u) s) (loads u))) ∧
  (∀ s : State, s.powered = true →
  (∀ cells : BitVec 222, Goes (exec (.preload cells) s) fun t => t.tap.bsr = cells) ∧
  Goes (exec .sample s) (fun t => t.tap.bsr = Config.cells s.free ∧ t.tap.dictBuf = s.tap.dictBuf) ∧
  (∀ buf : BitVec 16384, Goes (exec (.dictbuf buf) s) fun t => t.tap.dictBuf = buf ∧ t.dict = s.dict) ∧
  (∀ dr : BitVec 384, Goes (exec (.dict dr) s) fun t => t.tap.dictReq = dr ∧
    (bits dr 0 16 = bits s.tap.dictReq 0 16 → t.dict = s.dict) ∧
    (bits dr 0 16 ≠ bits s.tap.dictReq 0 16 → s.fw = true → ∃ r, t.dict.waiting.getLast? = some r ∧ r.src = .test ∧ r.path = .tap ∧
      r.index = bits dr 48 16 ∧ r.sub = bits dr 40 8)) ∧
  (∀ (cmd : DbgCmd) (die : BitVec 3) (m : DbgMem) (pass : Bool), s.sec.debug = false →
    Goes (exec (.dbgacc cmd) s) (fun t => t.tap.dbg = s.tap.dbg ∧ t.tap.control = s.tap.control) ∧
    Goes (exec (.scanchain die) s) (fun t => t.tap.scanDie = none) ∧ Goes (exec (.mbist m pass) s) (fun t => t.tap.dbg = s.tap.dbg)) ∧
  (s.sec.debug = true →
    (∀ a v, controlHas a.toNat = true → Goes (exec (.dbgacc (.controlWrite a v)) s) fun t =>
      Tbl.find t.tap.control (8 * (a.toNat / 8)) = some v ∧ t.tap.dbg = s.tap.dbg) ∧
    (∀ a v, controlHas a.toNat = true → Tbl.find s.tap.control (8 * (a.toNat / 8)) = some v → Goes (exec (.dbgacc (.controlRead a)) s) fun t => t.tap.dbg = v ∧ t.tap.control = s.tap.control) ∧
    (∀ n, Goes (exec (.dbgacc (.halt n)) s) fun t => (t.room n.toNat).halted = true) ∧
    (∀ n, Goes (exec (.dbgacc (.go n)) s) fun t => (t.room n.toNat).halted = false) ∧
    (∀ die : BitVec 3, die.toNat < 4 → Goes (exec (.scanchain die) s) fun t => t.tap.scanDie = some die) ∧
    (∀ (m : DbgMem) (pass : Bool), Goes (exec (.mbist m pass) s) fun t => t.tap.dbg = (if pass then 1 else 0) ∧
      ∀ n, m = .room n → (t.room n.toNat).larder = [] ∧ (t.room n.toNat).imem = [] ∧ (t.room n.toNat).acc = [] ∧ (t.room n.toNat).attic = [])))

/-! ### Peer ports, arbiters, write-combining buffers -/

/-- A frame that arrives at a port (R263, R281 to R284), of each type: accepted only in LSEQ order and with a good CRC, its trailer then returns
credits; what is accepted but of undefined type, or not addressed to the partition of the port, is counted and discarded; the rest waits for its
operation, and `settleFabric` carries on what can go on. A bad CRC or a gap brings NAK and leaves the expected number as it was. A port whose
partition is in scrub counts and discards whatever arrives (R287). What each type of frame does once it is accepted, where nothing else of its
partition has anything to do first: RDATA is a right child's value, kept, or added to the node sum that goes up once the last has come, or a result
coming down (R263, R266 to R270); XCOUNT and XDATA are counts and rows of a token exchange (R277); SHREQ is answered with SHDATA, or with SHREF and
what the owner offers (R252, R253, R278); SHDATA of the right size is kept, of another faults the gather with 0x0E08; SHREF is a refusal; ABORT ends
the operation with 0x0E05 (R286); REDO restarts the bucket at segment 0, or goes on up to the root (R273). Its receive buffer is freed, and what
follows is `settleLoop`. -/
def Obligations.PeerFramesAreAcceptedInOrder : Prop :=
  (∀ (s : State) (port : BitVec 4) (f : PeerFrame), s.portUp port.toNat = true →
  let j := port.toNat
  let p := s.ownerOfPort j
  let q := s.port j
  let arrives := fun (known : Bool) (t : State) =>
    (s.scrubs p = true → s.Frame [.ports] t ∧ (∀ i, i ≠ j → t.port i = s.port i) ∧
      t.port j = { q with counters := Tbl.set q.counters 5 (satInc (Tbl.get 0 q.counters 5)) }) ∧
    (s.scrubs p = false → ∃ u, t = settleFabric u p ∧ s.Frame [.free, .ports, .can, .log, .svc] u ∧
      ((tNak f = true → (q.txSeq :: q.replay.map (·.1)).Nodup ∧ ∀ e ∈ q.replayed, e.2 < 7) → s.Frame [.ports] u ∧ (∀ i, i ≠ j → u.port i = s.port i) ∧
        (crcGood f = false → (u.port j).rxSeq = q.rxSeq ∧ (u.port j).wait = q.wait ∧ (u.port j).nakDue = true ∧
          Tbl.get 0 (u.port j).counters 2 = satInc (Tbl.get 0 q.counters 2)) ∧
        (crcGood f = true → (fType f = 9 ∧ tCount f = 0) → (u.port j).rxSeq = q.rxSeq ∧ (u.port j).wait = q.wait) ∧
        (crcGood f = true → ¬(fType f = 9 ∧ tCount f = 0) → tLseq f = q.rxSeq → (u.port j).rxSeq = q.rxSeq + 1 ∧ (u.port j).nakDue = false ∧
          (0 < tCount f → let k := if tShared f then sharedPool (tVl f) else poolOf (tVl f) (tChan f)
            (u.port j).credit k = min (q.credit k + tCount f) (Tbl.get 0 fullCredits k)) ∧
          (fType f = 9 → (u.port j).wait = q.wait) ∧
          (fType f ≠ 9 → (known = false ∨ s.notForUs j f = true) → (u.port j).wait = q.wait ∧
            Tbl.get 0 (u.port j).counters 5 = satInc (Tbl.get 0 q.counters 5)) ∧
          (fType f ≠ 9 → known = true → s.notForUs j f = false → (u.port j).wait = q.wait ++ [f])) ∧
        (crcGood f = true → ¬(fType f = 9 ∧ tCount f = 0) → tLseq f ≠ q.rxSeq → (u.port j).rxSeq = q.rxSeq ∧ (u.port j).wait = q.wait ∧
          (seqLe q.rxSeq (tLseq f) = true → (u.port j).nakDue = true))))
  (fType f = 1 → Goes (exec (.rdata port f) s) (arrives true)) ∧ (fType f = 2 → Goes (exec (.xdata port f) s) (arrives true)) ∧
  (fType f = 3 → Goes (exec (.xcount port f) s) (arrives true)) ∧ (fType f = 4 → Goes (exec (.shreq port f) s) (arrives true)) ∧
  (fType f = 5 → Goes (exec (.shdata port f) s) (arrives true)) ∧ (fType f = 6 → Goes (exec (.shref port f) s) (arrives true)) ∧
  (fType f = 7 → Goes (exec (.abort port f) s) (arrives true)) ∧ (fType f = 8 → Goes (exec (.redo port f) s) (arrives true)) ∧
  (fType f = 9 → Goes (exec (.link port f) s) (arrives true)) ∧
  ((fType f = 0 ∨ 9 < fType f) → Goes (exec (.frameOfUndefinedType port f) s) (arrives false))) ∧
  (∀ (s : State) (port : BitVec 4) (f : PeerFrame),
  let j := port.toNat
  let p := s.ownerOfPort j
  let v := (linkLayer s j f).1.updPort j fun q => { q with wait := q.wait ++ [f] }
  let acts := fun (effect : State → Prop) (t : State) =>
    ∃ w k, effect w ∧ t = settleLoop k (w.updPort j fun q => { q.free f with wait := q.wait.erase f }) p
  let from_ := fun (x : Xchg) => posOf x.group (fKey f)
  let kept := fun (w : State) (n : Nat) (o : Op) (P : Xchg → Prop) => v.Frame [.rings] w ∧ (∀ k, k ≠ n → w.ring k = v.ring k) ∧
    ∃ y z, w.opAt n o.orig = some y ∧ y.xchg = some z ∧ P z
  let bucket := fun (w : State) (n : Nat) (o : Op) (P : Bucket → Prop) => ∃ y b, w.opAt n o.orig = some y ∧ y.bucket = some b ∧ P b
  let halted := fun (w : State) (n : Nat) (o : Op) (c : U16) => (w.ring n).st = .halted ∧ (w.ring n).faultSeq = o.seq ∧ LogsNext v w c 2 ∧
    ∀ x ∈ (w.ring n).ops, x.orig = o.orig → x.finished = true ∧ x.status = 2
  let calm := fun (n : Nat) => ∀ h ∈ (v.sched (ringPart n)).hitches, h.2.arrived = []
  s.portOpen j = true → crcGood f = true → tLseq f = (s.port j).rxSeq → tNak f = false → s.notForUs j f = false →
  (∀ i ∈ s.portsOf p, (s.port i).wait = []) → ((upTo 8).findSome? fun c => pumpStep v p c) = none →
  ((v.exchanges p).findSome? fun e => endXchg v e.1 e.2.1 e.2.2) = none → pumpSplice v p = none →
  (∀ n o b, fType f = 1 → v.currentBucket p (fChan f) = some (n, o, b) → v.opAt n o.orig = some o → o.bucket = some b → o.finished = false →
    b.active = true → fBucket f = b.tag → fEpoch f = dEpoch (o.src b) % 65536 → b.done ≤ fSeg f → fSeg f < b.segs → fSeg f < b.done + 16 →
    let seg := fSeg f
    let piece := fPiece f
    let hop := 16 * fPath f + fLevel f
    let x : Piece := (frameWords f, fPmask f)
    let b' := { b with heard := Tbl.set b.heard (hopNo (fHop f)) v.now, recv := Tbl.set b.recv (hopKey (fPath f) seg piece (fLevel f)) x,
                       via := Tbl.set b.via hop j, stale := b.stale.filter (· != hop) }
    (fDown f = false → (∃ k ∈ b.place.kids, k.1 = fLevel f ∧ b.key k.2 = fKey f) → fSampled f = b.sampled (v.peer p).sampleUse.toNat seg →
      hop ∉ b.stale → b.vote = none → b.redo = 0 → v.elemsStop (o.src b) (pieceElems (o.src b) seg piece) = none →
      ((∀ path, path < 2 → ∃ k ∈ b.place.kids, k.1 ≠ fLevel f ∧ Tbl.find b.recv (hopKey path seg piece k.1) = none) →
        Goes (exec (.rdata port f) s) (acts fun w => v.Frame [.rings] w ∧ bucket w n o fun y => y = b')) ∧
      (∀ y fl l h, v.nodeSum p 0 o b' 0 seg piece = some (y, fl) → b.sums.has (pieceKey 0 seg piece) = false →
        b.both (v.peer p).sampleUse.toNat seg = false → b.place.up = some (l, h) →
        Goes (exec (.rdata port f) s) (acts fun w => (bucket w n o fun z => Tbl.find z.sums (pieceKey 0 seg piece) = some y ∧ z.recv = b'.recv) ∧
          ∃ g, (w.port (v.pathPort p 0 l)).queue = (v.port (v.pathPort p 0 l)).queue ++ [g] ∧ fType g = 1 ∧ fDown g = false ∧ fSeg g = seg ∧
            fPiece g = piece ∧ fPmask g = y.2 ∧ g.payload = pieceBytes y))) ∧
    (∀ l h, fDown f = true → b.ownerOnly = false → b.place.up = some (l, h) → l = fLevel f → b.key h = fKey f → b.resultDue = true →
      Goes (exec (.rdata port f) s) (acts fun w => v.Frame [.rings, .ports] w ∧
        bucket w n o fun z => Tbl.find z.res (pieceKey 0 seg piece) = some x))) ∧
  (∀ n o x, v.opAt n o.orig = some o → o.xchg = some x →
    (fType f = 3 → v.xchgFor p 0 f = some (n, o, x) → Goes (exec (.xcount port f) s) (acts fun w => kept w n o fun z =>
      Tbl.find z.counts (from_ x) = some (ofLe (f.payload.take 4)) ∧ z.recv = x.recv)) ∧
    (fType f = 2 → v.xchgFor p 0 f = some (n, o, x) → Goes (exec (.xdata port f) s) (acts fun w => kept w n o fun z =>
      Tbl.find z.recv (recvKey (from_ x) (x.blockOf (from_ x) (fSeg f)) (fPiece f)) = some (f.payload, fPmask f) ∧ z.counts = x.counts)) ∧
    (fType f = 5 → v.xchgFor p 1 f = some (n, o, x) → x.asked = true →
      let size := nth (x.shards (o.xdst x)) (x.blockOf (from_ x) (fSeg f)) - 512 * fPiece f
      (f.payload.length = (min 512 size + 3) / 4 * 4 → Goes (exec (.shdata port f) s) (acts fun w => kept w n o fun z =>
        Tbl.find z.recv (recvKey (from_ x) (x.blockOf (from_ x) (fSeg f)) (fPiece f)) = some (f.payload, fPmask f))) ∧
      (f.payload.length ≠ (min 512 size + 3) / 4 * 4 → o.finished = false → calm n →
        Goes (exec (.shdata port f) s) (acts fun w => halted w n o 0x0E08))) ∧
    (fType f = 6 → v.xchgFor p 1 f = some (n, o, x) →
      let off : U64 := wordOf 64 (f.payload.take 8)
      (x.asked = true → Goes (exec (.shref port f) s) (acts fun w => kept w n o fun z => Tbl.find z.refused (from_ x) = some off)) ∧
      (x.asked = false → off.toNat % 2 ^ 32 = dEpoch (o.xdst x) → off.toNat / 2 ^ 32 ≠ 0 → Goes (exec (.shref port f) s) (acts fun w =>
        v.Frame [.rings, .mem, .ports] w ∧ ∃ y z, w.opAt n o.orig = some y ∧ y.xchg = some z ∧ z.asked = true ∧ z.ver = some (off.toNat / 2 ^ 32))))) ∧
  (fType f = 4 →
    let h := ofLe (f.payload.take 2)
    let d := v.shardDesc p h (ofLe ((f.payload.drop 4).take 4)) (ofLe ((f.payload.drop 8).take 4))
    let k := v.exchangePort p (fKey f)
    (d = none → Goes (exec (.shreq port f) s) (acts fun w => v.Frame [.ports] w ∧ (∀ i, i ≠ k → w.port i = v.port i) ∧
      ∃ g, (w.port k).queue = (v.port k).queue ++ [g] ∧ fType g = 6 ∧ fBucket g = fBucket f ∧ g.payload = leBytes 8 (v.offered p h).toNat)) ∧
    (∀ e, d = some e → v.elemsStop e (upTo (dCount e)) = none → Goes (exec (.shreq port f) s) (acts fun w => v.Frame [.mem, .ports] w ∧
      (∀ i, i ≠ k → w.port i = v.port i) ∧ ∃ gs, (w.port k).queue = (v.port k).queue ++ gs ∧
        (∀ g ∈ gs, fType g = 5 ∧ fBucket g = fBucket f) ∧ (v.shardData p e ≠ [] → gs ≠ [])))) ∧
  (∀ n o, fType f = 7 → v.liveOps p = [(n, o)] → v.opAt n o.orig = some o → o.work = false → v.stopping n = false → calm n →
    ((∃ b, o.bucket = some b ∧ b.tag = fBucket f ∧ b.chan = fChan f ∧ fKey f ∈ b.group) ∨
      (o.bucket = none ∧ ∃ x, o.xchg = some x ∧ xTag x.blk = fBucket f ∧ fKey f ∈ x.group)) →
    Goes (exec (.abort port f) s) (acts fun w => halted w n o 0x0E05)) ∧
  (∀ n o b, fType f = 8 → v.currentBucket p (fChan f) = some (n, o, b) → v.opAt n o.orig = some o → o.bucket = some b → b.tag = fBucket f →
    b.active = true → fKey f ∈ b.group →
    (fDown f = true → fLevel f = 0 → Goes (exec (.redo port f) s) (acts fun w => v.Frame [.rings, .ports] w ∧
      (b.place.kids = [] → w.ports = v.ports) ∧ bucket w n o fun k => k.recv = [] ∧ k.sums = [] ∧ k.res = [] ∧ k.done = 0 ∧ k.sent = 0 ∧
        k.redo = b.redo + 1 ∧ k.bad = fSeg f ∧ k.vote = none)) ∧
    (∀ e, fDown f = false → b.place.up = some e → Goes (exec (.redo port f) s) (acts fun w => v.Frame [.rings, .ports] w ∧
      ∃ g, (w.port (v.pathPort p 0 e.1)).queue = (v.port (v.pathPort p 0 e.1)).queue ++ [g] ∧ fType g = 8 ∧ fDown g = false ∧ fSeg g = fSeg f))))

/-- Timers, replays and lanes of a port (R284, R285): a replay sends every unacknowledged frame again, in order, with its number, header and
payload, and a frame that has been sent again eight times fails a lane; 500 ns bring an acknowledgement; a port comes up with every credit, or goes
on with those it had after a change of width; a failed lane leaves service, with log entry 0x0804, and a port without lanes goes down with its
frames moved away. In scrub a port counts and discards what arrives (R287). -/
def Obligations.PortTimersReplaysAndLanes : Prop := ∀ (s : State) (port : BitVec 4),
  let j := port.toNat
  let q := s.port j
  let rest := fun (t : State) => s.Frame [.ports] t ∧ ∀ i, i ≠ j → t.port i = s.port i
  let again := fun (old new : List (U16 × PeerFrame)) => new.map (·.1) = old.map (·.1) ∧ new.map (·.2.hdr) = old.map (·.2.hdr) ∧
    new.map (·.2.payload) = old.map (·.2.payload)
  let few := (q.txSeq :: q.replay.map (·.1)).Nodup ∧ ∀ e ∈ q.replayed, e.2 < 7
  let scrubs := s.scrubs (s.ownerOfPort j)
  let discards := fun (t : State) => rest t ∧ t.port j = { q with counters := Tbl.set q.counters 5 (satInc (Tbl.get 0 q.counters 5)) }
  (s.portOpen j = true → q.replay ≠ [] → s.since q.lastProgress 5000 = true → Goes (exec (.replayTimeout port) s) fun t =>
    s.Frame [.free, .ports, .can, .log, .svc] t ∧
    (few → rest t ∧ again q.replay (t.port j).replay ∧ (t.port j).lastProgress = s.now ∧ (t.port j).txSeq = q.txSeq ∧
      Tbl.get 0 (t.port j).counters 3 = satInc (Tbl.get 0 q.counters 3)) ∧
    ((∃ e ∈ q.replay, 7 ≤ Tbl.get 0 q.replayed e.1.toNat) → q.lanes ≠ 0 → ∃ l, l < 4 ∧ q.lanes.getLsbD l = true ∧
      (t.outOfService 3 (4 * j + l) = true ∨ s.inQuarantine 3 (4 * j + l) = true))) ∧
  (s.portOpen j = true → (0 < q.unacked ∨ q.owed ≠ []) → s.since q.lastAck 500 = true → Goes (exec (.ackTimeout port) s) fun t =>
    rest t ∧ (t.port j).lastAck = s.now ∧ (t.port j).unacked = 0 ∧ (t.port j).rxSeq = q.rxSeq ∧
    ∃ f, (t.port j).linkOut = some f ∧ fType f = 9 ∧ tAck f = q.rxSeq - 1 ∧ tNak f = false) ∧
  (s.portUp j = true → scrubs = true → Goes (exec (.peerFrameCrcFailure port) s) discards ∧ ∀ ack, Goes (exec (.nak port ack) s) discards) ∧
  (s.portOpen j = true → Goes (exec (.peerFrameCrcFailure port) s) fun t => rest t ∧ (t.port j).nakDue = true ∧ (t.port j).rxSeq = q.rxSeq ∧
    (t.port j).wait = q.wait ∧ Tbl.get 0 (t.port j).counters 2 = satInc (Tbl.get 0 q.counters 2) ∧
    (q.nakDue = false → ∃ f, (t.port j).linkOut = some f ∧ fType f = 9 ∧ tNak f = true)) ∧
  (∀ ack : BitVec 16, s.portOpen j = true → Goes (exec (.nak port ack) s) fun t => ∃ u, t = settleFabric u (s.ownerOfPort j) ∧ s.Frame [.free, .ports, .can, .log, .svc] u ∧ (few → rest u ∧
    again (q.replay.filter fun e => !seqLe e.1 ack) (u.port j).replay ∧ (u.port j).txSeq = q.txSeq ∧ (u.port j).queue = q.queue)) ∧
  (∀ (fast prev : Bool) (lanes : BitVec 4), s.up = true → s.tap.held = false → lanes &&& s.lanesInService j ≠ 0 →
    (q.state ≠ 2 → Goes (exec (.linkUp port fast prev lanes) s) fun t => rest t ∧ (t.port j).state = 2 ∧ (t.port j).lanes = lanes &&& s.lanesInService j ∧
      (t.port j).credits = fullCredits ∧ (t.port j).replay = [] ∧ (t.port j).rxSeq = 0 ∧ (t.port j).txSeq = 0 ∧ (t.port j).queue = q.queue ∧
      (t.port j).limit = q.limit ∧ (t.port j).rate = if fast = true ∧ prev = false ∧ q.limit = 0 then 2 else 1) ∧
    (q.state = 2 → q.hold = true → scrubs = true ∨ few → Goes (exec (.linkUp port fast prev lanes) s) fun t => rest t ∧ (t.port j).hold = false ∧
      (t.port j).lanes = lanes &&& s.lanesInService j ∧ (t.port j).credits = q.credits ∧ again q.replay (t.port j).replay ∧
      (t.port j).rxSeq = q.rxSeq ∧ (t.port j).txSeq = q.txSeq)) ∧
  (∀ lane : BitVec 2, s.up = true → q.lanes.getLsbD lane.toNat = true → s.outOfService 3 (4 * j + lane.toNat) = false →
    s.inQuarantine 3 (4 * j + lane.toNat) = false → Goes (exec (.laneFailure port lane) s) fun t =>
      t.outOfService 3 (4 * j + lane.toNat) = true ∧ t.inQuarantine 3 (4 * j + lane.toNat) = true ∧ (t.port j).lanes.getLsbD lane.toNat = false ∧
      (q.lanes &&& ~~~(1#4 <<< lane.toNat) ≠ 0 → (t.port j).replay = q.replay ∧ (t.port j).queue = q.queue ∧ (t.port j).hold = true ∧
        (t.port j).width = widthOf (q.lanes &&& ~~~(1#4 <<< lane.toNat))) ∧
      (q.lanes &&& ~~~(1#4 <<< lane.toNat) = 0 → (t.port j).replay = [] ∧ (t.port j).state = 0 ∧ (t.port j).width = 0) ∧
      (t.port j).credits = q.credits ∧ LogsNext s t 0x0804 3 ∧ s.Frame [.ports, .svc, .can, .log] t) ∧
  (s.portOpen j = true → s.portIdle j = true → s.lanesInService j ≠ q.lanes → Goes (exec (.portWiden port) s) fun t => rest t ∧
    (t.port j).lanes = s.lanesInService j ∧ (t.port j).width = widthOf (s.lanesInService j) ∧ (t.port j).credits = q.credits)

/-- Arbiters (R303 to R305): who wins a bank port, what the decision does to the pointer and the wait counters; at egress the winner's frames go
out, up to the hold limit; a transfer cut off at the limit is a new request of its requester, which is counted and logged at most once a millisecond
per port. A write-combining entry without a write for 2 µs goes to its stack (R299, R300), one with an incomplete mask by a read-modify-write, which
is counted; where no new error has struck no byte changes. -/
def Obligations.ArbitersAndBuffersMoveBeats : Prop := ∀ s : State,
  let won := fun (a b : Arb) (n w : Nat) (reqs : List Nat) =>
    (∀ i, (a.forced.filter fun k => reqs.contains k).head? = some i → b.winner = some i) ∧
    ((∀ i ∈ reqs, i ∉ a.forced) → ∀ i ∈ reqs, a.ptr ≤ i → (∀ k ∈ reqs, a.ptr ≤ k → i ≤ k) → b.winner = some i) ∧
    ((∀ i ∈ reqs, i ∉ a.forced) → (∀ i ∈ reqs, i < a.ptr) → b.winner = reqs.head?) ∧
    (∀ i, b.winner = some i → b.ptr = (i + 1) % n ∧ Tbl.get 0 b.waits i = 0 ∧ i ∉ b.forced ∧
      ∀ k ∈ reqs, k ≠ i → Tbl.get 0 b.waits k = Tbl.get 0 a.waits k + 1 ∧ (w ≤ Tbl.get 0 a.waits k + 1 → k ∈ b.forced))
  let owing := fun (n : Nat) (l : List Nat) => (upTo 8).filter fun i => l.contains i || (s.arb n).owed.contains i
  (∀ n req beats : BitVec 8, s.up = true → beats ≤ s.mem.bankH → Goes (exec (.arbiterDecision (.bank n req beats)) s) fun t =>
    won (s.arb n.toNat) (t.arb n.toNat) 8 s.mem.bankW.toNat (owing n.toNat (reqList req)) ∧ (t.arb n.toNat).beats = 0 ∧
    (∀ i, (t.arb n.toNat).winner = some i → i ∉ (t.arb n.toNat).owed) ∧
    (∀ k, k ≠ n.toNat → t.arb k = s.arb k) ∧ (∀ b, t.byteAt b = s.byteAt b) ∧ s.Frame [.mem] t) ∧
  (∀ j : BitVec 4, s.portOpen j.toNat = true → s.egressCut j.toNat = false → Goes (exec (.arbiterDecision (.egress j)) s) fun t =>
    won (s.arb (256 + j.toNat)) (t.arb (256 + j.toNat)) 18 s.mem.egressW.toNat (s.egressRequests j.toNat) ∧
    (s.egressRequests j.toNat = [] → t.ports = s.ports) ∧
    (∀ i f k, (t.arb (256 + j.toNat)).winner = some i → s.egressWants j.toNat i = some (f, k) → 0 < s.mem.egressH.toNat →
      ∃ g more, (t.port j.toNat).replay = (s.port j.toNat).replay ++ ((s.port j.toNat).txSeq, g) :: more ∧ g.hdr = f.hdr ∧ g.payload = f.payload) ∧
    (∀ i, i ≠ j.toNat → t.port i = s.port i) ∧ s.Frame [.mem, .ports] t) ∧
  (∀ (n req : BitVec 8) (i : Nat), s.up = true → (s.arb n.toNat).winner = some i → i < 8 →
    Goes (exec (.holdCutOff (.bank n req s.mem.bankH)) s) fun t => (t.arb n.toNat).beats = 0 ∧
      ((t.arb n.toNat).winner ≠ some i → Tbl.get 0 (t.arb n.toNat).waits i = 1 ∧ i ∈ (t.arb n.toNat).owed) ∧
      (∀ k, k ≠ n.toNat → t.arb k = s.arb k) ∧ (∀ b, t.byteAt b = s.byteAt b) ∧ s.Frame [.mem, .can, .log] t ∧
      (let c := 4 * (n.toNat / 64) + 2
       Tbl.get 0 t.mem.atriumCounters c = satInc (Tbl.get 0 s.mem.atriumCounters c)) ∧
      (Tbl.find s.mem.lastCutLog n.toNat = none → LogsNext s t 0x0704 0) ∧
      (∀ x, Tbl.find s.mem.lastCutLog n.toNat = some x → s.since x 1000000 = false → t.log = s.log)) ∧
  (∀ (j : BitVec 4) (i : Nat), s.portOpen j.toNat = true → s.egressCut j.toNat = true → (s.arb (256 + j.toNat)).winner = some i →
    Goes (exec (.holdCutOff (.egress j)) s) fun t => s.Frame [.mem, .ports, .can, .log] t ∧ (∀ k, k ≠ j.toNat → t.port k = s.port k) ∧
      (Tbl.find s.mem.lastCutLog (256 + j.toNat) = none → LogsNext s t 0x0704 0)) ∧
  (∀ (st : BitVec 4) (g : BitVec 40) (found : List Flaw) (x : WcbEntry), s.up = true → s.mem.wcbAt g.toNat = some x → x.stack = st.toNat →
    s.since x.last 2000 = true → Goes (exec (.wcbTimeout st g found) s) fun t => t.mem.wcbAt g.toNat = none ∧ s.Frame [.mem] t ∧
      (found = [] → (∀ k, k ≠ g.toNat → t.mem.wcbAt k = s.mem.wcbAt k) ∧ t.mem.lines = s.mem.lines ∧ ∀ b, t.byteAt b = s.byteAt b) ∧
      (x.mask ≠ BitVec.allOnes 256 → Tbl.get 0 t.mem.stackCounters (4 * x.stack + 3) = satInc (Tbl.get 0 s.mem.stackCounters (4 * x.stack + 3))))

/-! ### Reduce and exchange stations -/

/-- REDUCE, EXCHANGE and SPLICE at the head of a ring (R265, R274, R276 to R278): with no wait and no check failing the operation enters its ring
with its block, its group and its place in it, no segment or move done; the station then does what it can at once. -/
def Obligations.ReductionsExchangesAndSplicesBegin : Prop := ∀ (s : State) (ring : BitVec 6) (e : Entry),
  let n := ring.toNat
  let p := ringPart n
  let o := newOp s n e
  let b := s.block64 o
  let g := s.groupAt (xGroup b)
  s.headEntry n = some e → (s.ring n).overrun = false →
  let begun := fun (t : State) (f : State → Op → Prop) => ∃ u q, t = settleFabric u p ∧ (u.ring n).ops.getLast? = some q ∧ q.orig = e.seq ∧
    q.work = false ∧ q.finished = false ∧ q.scales = (s.sched p).scales ∧ (u.ring n).nextSeq = e.seq + 1 ∧ (∀ k, k ≠ n → u.ring k = s.ring k) ∧ f u q
  (readHead (s.ring n) e = .ok (.mop 0x30) → (Ask.mop 0x30).stop e = none →
    (let o := o.reading s p ([xSrc b], if s.writesResult p b then [xDst b] else [])
     s.mustWait n o (o.uses.rh ++ o.uses.wh) = false ∧ s.reduceStop n o = none) →
    Goes (exec (.reduce ring) s) fun t => begun t fun u q => ∃ k, q.bucket = some k ∧ k.blk = b ∧ k.group = g ∧ k.pos = posOf g (s.ownKey p) ∧
      k.segs = (dCount (s.descOf p (xSrc b)) + 16383) / 16384 ∧ k.done = 0 ∧ k.sent = 0 ∧ k.active = false ∧ u.ports = s.ports) ∧
  (readHead (s.ring n) e = .ok (.mop 0x31) → (Ask.mop 0x31).stop e = none →
    (let o := { o.reading s p (xchgHandles b) with slots := (o.sfirst, o.scount) }
     s.mustWait n o (o.uses.rh ++ o.uses.wh) = false ∧ s.xblockStop n o o.addr = none ∧ s.xchgStop n o b (s.epochs p) = none ∧ s.slotStop o = none) →
    let v := touch s o.addr 64
    let g := v.groupAt (xGroup b)
    let exchange := fun (q : Op) (x : Xchg) => q.xchg = some x ∧ x.blk = b ∧ x.group = g ∧ x.pos = posOf g (s.ownKey p) ∧ x.last = s.now ∧
      q.slots = (o.sfirst, o.scount)
    (xMode b ≠ 1 → Goes (exec (.tokenExchange ring) s) fun t => begun t fun _ q => ∃ x, exchange q x ∧ x.send = v.sendCounts b g.length ∧
      x.counts = [(x.pos, nth x.send x.pos)]) ∧
    (xMode b = 1 → Goes (exec (.shardGather ring) s) fun t => begun t fun _ q => ∃ x, exchange q x ∧
      ∀ v, s.gatherVersion p q (s.descOf p (xDst b)) = some v → x.ver = some v)) ∧
  (readHead (s.ring n) e = .ok (.mop 0x32) → (Ask.mop 0x32).stop e = none → (s.openOps p).any (fun x => x.2.is 0x32) = false →
    (let hs := (s.moveBlocks b).map xchgHandles
     let o := o.reading s p ((hs.map (·.1)).flatten, (hs.map (·.2)).flatten)
     s.mustWait n o [] = false ∧ s.spliceStop n o = none) →
    Goes (exec (.splice ring) s) fun t => begun t fun u q => ∃ c, q.splice = some c ∧ c.blk = b ∧ c.moves = s.moveBlocks b ∧ c.next = 0 ∧ c.changed = false ∧
      (u.peer p).epoch = (s.peer p).epoch)

/-- The epoch changes once every move of the splice is done (R274); an operation one of whose hops has brought no frame of its tag for the peer timeout
faults with 0x0E0C (R286), and its stream halts. -/
def Obligations.EpochChangeAndPeerTimeout : Prop := ∀ s : State, s.up = true →
  (∀ (p : BitVec 2) n o c, s.spliceOf p.toNat = some (n, o, c) → s.spliceClear p.toNat o = true → o.xchg = none → c.changed = false →
    spCount c.blk ≤ c.next → (s.ring n).stopReq = false → Goes (exec (.epochChange p) s) fun t =>
      (t.peer p.toNat).epoch = BitVec.ofNat 32 (spEpoch c.blk) ∧ (∀ k, k ≠ p.toNat → t.peer k = s.peer k) ∧ s.Frame [.rings, .ppeer] t ∧
      (∀ k, k ≠ n → t.ring k = s.ring k) ∧ ∀ x ∈ (t.ring n).ops, x.orig = o.orig → x.work = true ∧ (x.splice.map (·.changed)) ≠ some false) ∧
  (∀ (ring : BitVec 6) (q : BitVec 64) o,
    let n := ring.toNat
    let p := ringPart n
    let timeout := (s.peer p).peerTimeout.toNat * 1000000
    s.opAt n q.toNat = some o → o.live = true → o.work = false → 0 < timeout →
    ((∃ b, o.bucket = some b ∧ b.active = true ∧ ∃ h ∈ b.waitsOn (o.src b) (s.peer p).sampleUse.toNat,
        s.since (Tbl.get b.last b.heard (hopNo h)) timeout = true) ∨
      (o.bucket = none ∧ ∃ x, o.xchg = some x ∧ ∃ h ∈ x.waitsOn (o.xdst x), s.since (Tbl.get x.last x.heard (hopNo h)) timeout = true)) →
    (∀ h ∈ (s.sched p).hitches, h.2.arrived = []) →
    Goes (exec (.peerTimeout ring q) s) fun t => ∃ u, t = settleFabric u p ∧ (u.ring n).st = .halted ∧ (u.ring n).faultSeq = o.seq ∧
      LogsNext s u 0x0E0C 2 ∧ (∀ k, k ≠ n → u.ring k = s.ring k) ∧ ∀ x ∈ (u.ring n).ops, x.orig = o.orig → x.finished = true ∧ x.status = 2)

/-! ### Rooms -/

/-- A room word (R200 to R202, R205, R221): a slot that fails its check halts the stream; a word that must wait takes an issue slot and changes
nothing else; a word of the scalar slot alone has the integer operation's result in its register or takes its branch; a word of the sync slot alone
queues its signal, takes its tokens, or ends the block. An error in a word of the room's memories is counted, as the check code corrects it or not
(R307, R310). Words that a translation has not fixed do not issue (log 51). -/
def Obligations.RoomWordsIssue : Prop := ∀ (s : State) (room : BitVec 7) (k : Nat) (o : Op),
  let m := room.toNat
  let r := s.room m
  let w := r.word m r.pc
  let sc := slotScalar w
  let sy := slotSync w
  let a := r.x_ (scA sc)
  let b := r.x_ (scB sc)
  let alone := fun (t : State) => s.Frame [.rooms] t ∧ ∀ j, j ≠ m → t.room j = s.room j
  s.roomIssues m = true → r.wordKnown = true → s.roomOp m = some (k, o) →
  (∀ c st, wordStop s m w = some (c, st) → (∀ h ∈ (s.sched (ringPart k)).hitches, h.2.arrived = []) → Goes (exec (.roomWordIssue room none) s) fun t =>
    (t.ring k).st = .halted ∧ (t.ring k).faultSeq = o.seq ∧ LogsNext s t c 2 ∧ ∀ x ∈ (t.ring k).ops, x.orig = o.orig → x.finished = true ∧ x.status = 2) ∧
  (wordStop s m w = none → wordWaits r w = true → Goes (exec (.roomWordIssue room none) s) fun t =>
    t.room m = { r with issued := r.issued + 1 } ∧ alone t) ∧
  (wordStop s m w = none → wordWaits r w = false → bits w 0 208 = (0 : BitVec 208) → Goes (exec (.roomWordIssue room none) s) fun t =>
    let r' := t.room m
    alone t ∧ r'.issued = r.issued + 1 ∧ r'.active = true ∧ (scOpc sc ≠ 0x41 → r'.larder = r.larder) ∧ r'.acc = r.acc ∧ r'.tiles = r.tiles ∧ r'.ctr = r.ctr ∧ r'.sigQ = r.sigQ ∧
    (∀ v : Nat × U64, v ∈ [(0x01, a + b), (0x02, a - b), (0x03, a &&& b), (0x04, a ||| b), (0x05, a ^^^ b), (0x06, a <<< (b.toNat % 64)),
        (0x07, a >>> (b.toNat % 64)), (0x08, a.sshiftRight (b.toNat % 64)), (0x09, a * b), (0x0A, if a.slt b then 1 else 0),
        (0x0B, if a.ult b then 1 else 0), (0x0C, a + (bits sc 0 22 : BitVec 22).signExtend 64), (0x0D, (bits sc 0 22 : BitVec 22).setWidth 64)] →
      scOpc sc = v.1 → r'.x_ (scD sc) = v.2 ∧ (∀ i, i ≠ scD sc → r'.x_ i = r.x_ i) ∧ r'.v = r.v ∧ r'.mp = r.mp) ∧
    (∀ c : Nat × Bool, c ∈ [(0x18, a == b), (0x19, a != b), (0x1A, a.slt b), (0x1B, !a.slt b), (0x1C, true)] → scOpc sc = c.1 →
      (c.2 = true → r'.pc = scImm sc) ∧ (c.2 = false → r.loops = [] → r'.pc = r.pc + 1) ∧ r'.x = r.x) ∧
    (scOpc sc < 0x18 → r.loops = [] → r'.pc = r.pc + 1)) ∧
  (wordStop s m w = none → wordWaits r w = false → bits w 32 224 = (0 : BitVec 224) → Goes (exec (.roomWordIssue room none) s) fun t =>
    let r' := t.room m
    alone t ∧ r'.x = r.x ∧ r'.larder = r.larder ∧ (r.loops = [] → r'.pc = r.pc + 1) ∧ r'.active = (syOp sy != 4) ∧
    r'.sigQ.map (fun g => (g.room, g.ctr)) = r.sigQ.map (fun g => (g.room, g.ctr)) ++ (if syOp sy = 2 then [(syRoom sy, syCtr sy)] else []) ∧
    (syOp sy = 3 → Tbl.get 0 r'.ctr (syCtr sy) = Tbl.get 0 r.ctr (syCtr sy) - syN sy ∧ ∀ i, i ≠ syCtr sy → Tbl.get 0 r'.ctr i = Tbl.get 0 r.ctr i) ∧
    (syOp sy ≠ 3 → r'.ctr = r.ctr)) ∧
  (∀ c : RoomCheck, Goes (exec (.roomWordIssue room (some c)) s) fun t =>
    (c.err ≠ 0 → (bchDecode c.err).isSome = true →
      Tbl.get 0 t.svc.roomCorrected m = satInc (Tbl.get 0 s.svc.roomCorrected m) ∧ t.svc.roomUncorrectable = s.svc.roomUncorrectable) ∧
    (c.err ≠ 0 → (bchDecode c.err).isSome = false →
      Tbl.get 0 t.svc.roomUncorrectable m = satInc (Tbl.get 0 s.svc.roomUncorrectable m) ∧ t.svc.roomCorrected = s.svc.roomCorrected))

/-- The result of a matrix instruction (R107, R108, R112, R113, R118): the oldest instruction without a result delivers it, one that chains behind a
delivered one too; the larder, the transposing buffer and the registers of the room are not written. Under MMA every unmasked element of the
accumulator takes its updated value and every byte outside the unmasked elements stays; a TIE that tags a position leaves it zero. A row operation at
the head of the row engine (R145 to R151) runs to its end, or under a stop request to the end of its chunk (R148): from its start each row leaves a
valid attic entry with the operation's KIND and handle, at ABASE for a forward one, at the scratch base for a backward one; the larder changes within
the operation's outputs only. -/
def Obligations.MatrixAndRowResultsLand : Prop :=
  (∀ (s : State) (room : BitVec 7) (o : Pend) (rest : List Pend),
  let m := room.toNat
  let r := s.room m
  let w : MSlot := bits o.slot 0 40
  let size := if mF64 w then 8 else 4
  s.roomLive m = true → o.done = false →
  let alone := fun (t : State) =>
    let r' := t.room m
    s.Frame [.rooms] t ∧ (∀ j, j ≠ m → t.room j = s.room j) ∧ r'.larder = r.larder ∧ r'.tb = r.tb ∧ r'.x = r.x ∧ r'.mp = r.mp
  (∀ first, r.matQ = first :: o :: rest → first.done = true → (o.chain = true ∨ r.mayWrite o = true) →
    Goes (exec (.matrixResult room) s) fun t => alone t ∧ (t.room m).matQ = first :: { o with done := true } :: rest) ∧
  (r.matQ = o :: rest → r.mayWrite o = true → Goes (exec (.matrixResult room) s) fun t =>
    let r' := t.room m
    alone t ∧ r'.matQ = { o with done := true } :: rest ∧
    (∀ pa pb, mOp w = 1 → o.ptrs = [pa, pb] →
      (∀ i j, i < 32 → j < 32 → (ptMask pa).getLsbD i = true → (ptMask pb).getLsbD j = true →
        memBytes r'.acc (accAddr w i j) size = leBytes size (matElement w (ofLe (memBytes r.acc (accAddr w i j) size))
          ((upTo (ptKvalid pa)).map fun x => (r.operand w false pa i x).1) ((upTo (ptKvalid pa)).map fun x => (r.operand w true pb x j).1)).v) ∧
      (∀ a, (∀ i j, i < 32 → j < 32 → (ptMask pa).getLsbD i = true → (ptMask pb).getLsbD j = true → a < accAddr w i j ∨ accAddr w i j + size ≤ a) →
        r'.acc.read zeroByte a = r.acc.read zeroByte a)) ∧
    (mOp w = 4 → field o.x0 16 16 ≠ 0 → ∀ a, r'.acc.read zeroByte a = if 4096 * mAcc w ≤ a ∧ a < 4096 * mAcc w + 4096 then 0
      else r.acc.read zeroByte a))) ∧
  (∀ (s : State) (room : BitVec 7) (o : Pend) (rest : List Pend),
  let m := room.toNat
  let r := s.room m
  let p := o.aux
  let sub := vSub o.slot
  let lands := fun (t : State) =>
    let r' := t.room m
    s.Frame [.rooms] t ∧ (∀ j, j ≠ m → t.room j = s.room j) ∧ r'.acc = r.acc ∧ r'.tiles = r.tiles ∧ r'.x = r.x ∧
    r'.rowQ = (if s.roomStopping m then { o with chunk := o.chunk + 1, done := o.chunk + 1 == rowTotal o }
      else { o with chunk := rowTotal o, done := true }) :: rest ∧
    (∀ a, (∀ e ∈ rowWrites sub p, a < e.1 ∨ e.1 + e.2 ≤ a) → r'.larder.read zeroByte a = r.larder.read zeroByte a) ∧
    (s.roomStopping m = false → o.chunk = 0 → ∀ j, j < rpRows p →
      let x : Attic := Tbl.get {} r'.attic ((if sub < 3 then rpAbase p else field o.x0 0 12) + j)
      x.valid = true ∧ x.kind = (if sub < 3 then sub + 1 else 5) ∧ x.handle = rpHandle p)
  s.roomWorks m = true → r.rowQ = o :: rest → o.done = false → o.chunk < rowTotal o → r.mayWrite o = true →
  (sub = 0 → Goes (exec (.norm room) s) lands) ∧ (sub = 1 → Goes (exec (.rms room) s) lands) ∧ (sub = 2 → Goes (exec (.smax room) s) lands) ∧
  (sub = 3 → Goes (exec (.normb room) s) lands) ∧ (sub = 4 → Goes (exec (.rmsb room) s) lands) ∧ (sub = 5 → Goes (exec (.smaxb room) s) lands))

/-- The oldest operation of an engine ends (R61, R62, R221): its readers are released; a computed row or matrix operation leaves its queue, a vector
ROW is handed to the row engine, a load lands, a gather or scatter ends, a store is accepted and no longer holds back the signals behind it; whatever
errors have struck what is read, the device goes on. A delivered signal counts its
counter up by one, one whose counter is full waits, one to a room that has gone halts the stream. -/
def Obligations.EnginesReleaseAndSignalsArrive : Prop := ∀ (s : State) (room : BitVec 7) (k : Nat) (q : Op),
  let m := room.toNat
  let r := s.room m
  let one := fun (t : State) => ∀ j, j ≠ m → t.room j = s.room j
  s.roomLive m = true → s.roomOp m = some (k, q) →
  (∀ (o : Pend) rest,
    let freed := fun (t : State) => one t ∧ (t.room m).readers = drop_ r.readers o.reads
    (r.matQ = o :: rest → Goes (exec (.accessRelease room .matrix []) s) fun t =>
      if o.done then (t.room m).matQ = rest ∧ freed t ∧ s.Frame [.rooms] t else t.room m = r) ∧
    (r.rowQ = o :: rest → Goes (exec (.accessRelease room .row []) s) fun t =>
      if o.done then (t.room m).rowQ = rest ∧ freed t ∧ s.Frame [.rooms] t else t.room m = r) ∧
    (r.vecQ = o :: rest → vOp o.slot = 7 → r.rowQ.length < 2 → Goes (exec (.accessRelease room .vector []) s) fun t =>
      (t.room m).vecQ = rest ∧ (t.room m).rowQ = r.rowQ ++ [o] ∧ one t ∧ (t.room m).readers = r.readers) ∧
    (r.vecQ = o :: rest → 1 ≤ vOp o.slot → vOp o.slot ≤ 4 → r.mayWrite o = true → Goes (exec (.accessRelease room .vector []) s) fun t =>
      (t.room m).vecQ = rest ∧ freed t ∧ s.Frame [.rooms] t) ∧
    (r.loadQ = o :: rest → r.mayWrite o = true → loadRefused s o (bits o.slot 0 40) = none → Goes (exec (.accessRelease room .load []) s) fun t =>
      (t.room m).loadQ = rest ∧ freed t) ∧
    (r.vecQ = o :: rest → 5 ≤ vOp o.slot → vOp o.slot ≤ 6 → r.vectorReady o = true → gatherRefused s r o.slot = none →
      Goes (exec (.accessRelease room .vector []) s) fun t => (t.room m).vecQ = rest ∧ freed t ∧ (t.room m).storeQ = r.storeQ) ∧
    (r.storeQ = o :: rest → r.storeReady o = true → storeRefused s o (bits o.slot 0 40) = none → Goes (exec (.accessRelease room .store []) s) fun t =>
      (t.room m).storeQ = rest ∧ freed t ∧ (t.room m).sigQ = r.sigQ.map fun g => { g with stores := g.stores - 1 })) ∧
  (∀ (e : Engine) (found : List Flaw), Goes (exec (.accessRelease room e found) s) fun t =>
    s.Frame [.free, .events, .psched, .rings, .rooms, .mem, .link, .ports, .can, .log] t) ∧
  (∀ (g : Sig) rest, r.sigQ = g :: rest → g.stores = 0 → g.scats = 0 →
    (s.outOfService 0 g.room = false → (s.room g.room).zeroing = false → Goes (exec (.signalDelivery room) s) fun t =>
      if 255 ≤ Tbl.get 0 (s.room g.room).ctr g.ctr then t = s
      else (t.room m).sigQ = rest ∧ Tbl.get 0 (t.room g.room).ctr g.ctr = Tbl.get 0 (s.room g.room).ctr g.ctr + 1 ∧ s.Frame [.rooms] t ∧
        ∀ j, j ≠ m → j ≠ g.room → t.room j = s.room j) ∧
    ((s.outOfService 0 g.room = true ∨ (s.room g.room).zeroing = true) → q.live = true → (∀ h ∈ (s.sched (ringPart k)).hitches, h.2.arrived = []) →
      Goes (exec (.signalDelivery room) s) fun t => (t.ring k).st = .halted ∧ (t.ring k).faultSeq = q.seq ∧ LogsNext s t 0x0406 2))

/-! ### The stream scheduler -/

/-- A malformed entry at the head of a ring (R331, R336), whichever row of the command table meets it: the stream halts with the cause, its
sequence is the fault's, and the entry is consumed. -/
def Obligations.MalformedEntryHaltsStream : Prop := ∀ (s : State) (ring : BitVec 6) (e : Entry) (c : U16),
  let n := ring.toNat
  s.headEntry n = some e → readHead (s.ring n) e = .error c → (∀ h ∈ (s.sched (ringPart n)).hitches, h.2.arrived = []) →
  let halts := fun (i : Instr) => Goes (exec i s) fun t => (t.ring n).st = .halted ∧ (t.ring n).faultSeq = e.seq ∧ (t.ring n).nextSeq = e.seq + 1 ∧
    LogsNext s t c 2 ∧ ∀ k, k ≠ n → t.ring k = s.ring k
  halts (.noOp ring) ∧ halts (.fence ring) ∧ halts (.hitch ring) ∧
  ((s.ring n).ops.all (fun x => !(x.is 3 && x.live && x.work)) = true → halts (.dwrite ring)) ∧ halts (.swrite ring) ∧ halts (.sread ring) ∧
  halts (.hread ring) ∧ halts (.hclear ring) ∧ halts (.run ring) ∧ (s.readyLoad n 0x10 = none → halts (.loadp ring)) ∧
  (s.readyLoad n 0x11 = none → halts (.unloadp ring))

/-- No-ops, fences, hitches and descriptor, scale-register and histogram operations at the head of a ring (R56, R63, R64, R89, R96): with no wait
and no check failing the entry enters its ring and has its effect at once; a store changes exactly its bytes; a DWRITE that nothing holds completes in
its dispatch (R59). -/
def Obligations.HeadEntriesTakeEffect : Prop := ∀ (s : State) (ring : BitVec 6) (e : Entry) (a : Ask),
  let n := ring.toNat
  let p := ringPart n
  let o := newOp s n e
  s.headEntry n = some e → (s.ring n).overrun = false → readHead (s.ring n) e = .ok a → a.stop e = none →
  let entered := fun (t : State) (q : Op) => (t.ring n).nextSeq = e.seq + 1 ∧ (t.ring n).ops.getLast? = some q ∧
    (t.sched p).dispatched = (s.sched p).dispatched + 1 ∧ ∀ k, k ≠ n → t.ring k = s.ring k
  let stored := fun (t : State) (at_ : Nat) (bs : List Byte) =>
    ∀ b, t.byteAt b = if at_ ≤ b ∧ b < at_ + bs.length then bs.getD (b - at_) 0 else s.byteAt b
  let reg := field o.imm 0 10
  let slot := field o.imm 0 12
  (a = .noop → s.mustWait n o [] = false → Goes (exec (.noOp ring) s) fun t => (t.ring n).nextSeq = e.seq + 1 ∧ s.Frame [.rings, .psched, .link, .free] t ∧
    ((s.ring n).ops = [] → (t.ring n).ops = [] ∧ (t.ring n).done = e.seq)) ∧
  (a = .mop 1 → s.mustWait n o [] = false → Goes (exec (.fence ring) s) fun t => entered t o ∧ s.Frame [.rings, .psched, .link, .free] t) ∧
  (a = .mop 2 → s.mustWait n o [] = false → o.hitchMask.getLsbD (n % 16) = true → (s.ring n).ops.any Op.live = true →
    Goes (exec (.hitch ring) s) fun t => entered t o) ∧
  (a = .mop 2 → s.mustWait n o [] = false → o.hitchMask.getLsbD (n % 16) = true → (s.ring n).ops = [] → (s.ring n).poisoned = false →
    (Tbl.get ({} : Hitch) (s.sched p).hitches o.hitchNo).arrived = [] → (∃ r, r < 16 ∧ r ≠ n % 16 ∧ o.hitchMask.getLsbD r = true) →
    Goes (exec (.hitch ring) s) fun t => (t.ring n).nextSeq = e.seq + 1 ∧ Tbl.get ({} : Hitch) (t.sched p).hitches o.hitchNo =
      { (Tbl.get ({} : Hitch) (s.sched p).hitches o.hitchNo) with mask := o.hitchMask, arrived := [n] }) ∧
  (∀ r, a = .mop 4 → s.mustWait n { o with uses := { ws := [reg] } } [] = false → s.blockRead n { o with uses := { ws := [reg] } } o.addr 16 = none →
    (s.scaleReg p reg).writeWord (wordOf 128 (s.bytesAt o.addr 16)) = .ok r → Goes (exec (.swrite ring) s) fun t =>
      entered t { o with uses := { ws := [reg] }, work := true } ∧ t.scaleReg p reg = r ∧ (∀ k, k ≠ reg → t.scaleReg p k = s.scaleReg p k) ∧
      (∀ k, k ≠ p → t.sched k = s.sched k)) ∧
  (a = .mop 5 → s.mustWait n { o with uses := { ws := [reg] } } [] = false → s.blockWrite n { o with uses := { ws := [reg] } } o.addr 16 = none →
    Goes (exec (.sread ring) s) fun t => entered t { o with uses := { ws := [reg] }, work := true } ∧ stored t o.addr (bytesOf (s.scaleReg p reg).word) ∧
      (∀ k, t.scaleReg p k = s.scaleReg p k)) ∧
  (a = .mop 6 → s.mustWait n { o with uses := { wg := [slot] } } [] = false → s.blockWrite n { o with uses := { wg := [slot] } } o.addr 288 = none →
    Goes (exec (.hread ring) s) fun t => entered t { o with uses := { wg := [slot] }, work := true } ∧
      stored t o.addr (Tbl.get ({} : Hist) (s.sched p).hist slot).bytes ∧ (t.sched p).hist = (s.sched p).hist) ∧
  (a = .mop 7 → s.mustWait n { o with uses := { wg := [slot] } } [] = false → Goes (exec (.hclear ring) s) fun t =>
    entered t { o with uses := { wg := [slot] }, work := true } ∧ Tbl.get ({} : Hist) (t.sched p).hist slot = {} ∧
    (∀ k, k ≠ slot → Tbl.get ({} : Hist) (t.sched p).hist k = Tbl.get {} (s.sched p).hist k) ∧ s.Frame [.rings, .psched, .link, .free] t) ∧
  (a = .mop 3 → s.mustWait n { o with uses := { wh := [o.bind 0] } } [o.bind 0] = false →
    s.blockRead n { o with uses := { wh := [o.bind 0] } } o.addr 128 = none → s.stashStop p (o.bind 0) (dVersion (s.dwriteImage o)) = none →
    (s.ring n).ops.all (fun x => !(x.is 3 && x.live && x.work)) = true →
    (dVersion (s.descOf p (o.bind 0)) = 0 ∨ dVersion (s.dwriteImage o) = dVersion (s.descOf p (o.bind 0))) → Goes (exec (.dwrite ring) s) fun t =>
      (t.ring n).nextSeq = e.seq + 1 ∧ (t.sched p).dispatched = (s.sched p).dispatched + 1 ∧ t.descOf p (o.bind 0) = s.dwriteImage o ∧
      (∀ h, h ≠ o.bind 0 → t.descOf p h = s.descOf p h) ∧ ((s.ring n).ops = [] → (t.ring n).ops = [] ∧ (t.ring n).done = e.seq))

/-- What completes later (R57, R63, R69, R72, R248, R249): a held DWRITE writes its descriptor once its stash is free; a fence passes when all
before it is done, or halts the stream with 0x0801 where poison was consumed; a macro-operation whose effect is whole is reported; slots whose
micro-batch has ended become idle; a stream at its stop points stops, every live macro-operation kept for continuing; a continue entry takes the
lowest of them up again. -/
def Obligations.CompletionsStopsAndContinues : Prop := ∀ (s : State) (ring : BitVec 6),
  let n := ring.toNat
  let p := ringPart n
  (∀ o, s.up = true → s.freeDwrite n = some o → s.stashStop p (o.bind 0) (dVersion (Tbl.get 0 o.descs 0)) = none → Goes (exec (.stashUpdate ring) s) fun t =>
    s.Frame [.rings, .psched, .link, .free] t ∧ (∀ q ∈ (t.ring n).ops, q.orig = o.orig → q.work = true ∧ q.finished = true) ∧
    (o.dexc = [] → t.descOf p (o.bind 0) = Tbl.get 0 o.descs 0 ∧ ∀ h, h ≠ o.bind 0 → t.descOf p h = s.descOf p h)) ∧
  (∀ o, s.up = true → s.readyFence n = some o → s.opAt n o.orig = some o → o.is 1 = true →
    ((s.ring n).poisoned = true → (∀ h ∈ (s.sched p).hitches, h.2.arrived = []) → Goes (exec (.fenceComplete ring) s) fun t =>
      (t.ring n).st = .halted ∧ (t.ring n).poisoned = false ∧ LogsNext s t 0x0801 2) ∧
    ((s.ring n).poisoned = false → (s.ring n).ops = [o] → Goes (exec (.fenceComplete ring) s) fun t =>
      (t.ring n).ops = [] ∧ (t.ring n).done = o.seq ∧ s.Frame [.rings, .psched, .link, .free] t)) ∧
  (∀ (q : BitVec 64) o, s.up = true → s.opAt n q.toNat = some o → o.live = true → o.work = true → Goes (exec (.macroOpComplete ring q) s) fun t =>
    ∃ u, t = settleFabric u p ∧ s.Frame [.rings, .psched, .link, .free] u ∧
    (∀ x ∈ (u.ring n).ops, x.orig = o.orig → x.finished = true ∧ x.work = true) ∧
    (u.ring n).poisoned = ((s.ring n).poisoned || o.poison) ∧ ((s.ring n).ops = [o] → (u.ring n).ops = [] ∧ (u.ring n).done = o.seq) ∧
    (∀ ph, tagStepend o.tag = true → (s.ring n).phase = some ph → (u.ring n).steps = (s.ring n).steps + 1)) ∧
  (∀ b : BitVec 2, s.up = true → s.exists_ b.toNat = true → s.batchEnds b.toNat ≠ [] → Goes (exec (.microBatchEnd b) s) fun t => s.Frame [.psched] t ∧
    ∀ i, let x := Tbl.get ({} : Slot) (t.sched b.toNat).slots i
      (i ∈ s.batchEnds b.toNat → x.st = 0 ∧ x.ver = 0 ∧ x.ending = false) ∧ (i ∉ s.batchEnds b.toNat → x = Tbl.get {} (s.sched b.toNat).slots i)) ∧
  (s.up = true → s.atStop n = true → Goes (exec (.streamStopped ring) s) fun t => ∃ u, t = settleFabric (resumeAfter (settleStop u p) n) p ∧
    (u.ring n).st = (if (s.ring n).st = .halted then .halted else .stopped) ∧ (u.ring n).stopReq = false ∧ (u.ring n).echoStop = (s.ring n).takenStop ∧
    (u.ring n).ops = [] ∧ (u.ring n).stoppedOps.map (·.orig) = (s.ring n).stoppedOps.map (·.orig) ++ ((s.ring n).ops.filter Op.live).map (·.orig)) ∧
  (∀ e x rest, s.headEntry n = some e → (s.ring n).overrun = false → (s.ring n).stoppedOps = x :: rest → readHead (s.ring n) e = .ok .cont →
    (let q := { continued s n (newOp s n e) with slots := (0, 0) }; s.mustWait n q [] = false ∧ q.rooms.any s.roomReserved = false ∧
      q.shares.any (fun h => !h.ended && s.roomReserved h.room) = false) →
    Goes (exec (.continueEntry ring) s) fun t => ∃ u y, t = settleFabric u p ∧ (u.ring n).stoppedOps = rest ∧ (u.ring n).nextSeq = e.seq + 1 ∧
      (x.finished = false → (u.ring n).ops.getLast? = some y ∧ y.orig = x.orig ∧ y.seq = e.seq ∧ y.mop = x.mop ∧ y.tag = x.tag))

/-- Programs and runs (R234 to R236, R244): a LOADP waits for the runs of its program, then translates; when the translation is complete the
program is loaded and its rooms fetch new words; UNLOADP removes it; a RUN that passes its checks enters with one share for each of its rooms. A
room starts the share it has chosen, and reports it when its engines are quiet. -/
def Obligations.ProgramsRunsAndShares : Prop := ∀ (s : State) (ring : BitVec 6),
  let n := ring.toNat
  let p := ringPart n
  (∀ e, s.headEntry n = some e → (s.ring n).overrun = false → readHead (s.ring n) e = .ok (.mop 0x10) → (Ask.mop 0x10).stop e = none →
    s.readyLoad n 0x10 = none → s.mustWait n (newOp s n e) [] = false → (newOp s n e).prog ≤ 63 → s.imageAddrStop n (newOp s n e) = none →
    Goes (exec (.loadp ring) s) fun t => (t.ring n).nextSeq = e.seq + 1 ∧ (t.ring n).ops.getLast? = some { newOp s n e with hold := true } ∧
      (t.sched p).programs = (s.sched p).programs) ∧
  (∀ o, s.up = true → s.readyLoad n 0x10 = some o →
    (let len := max 128 (hLength (hdrOf (s.bytesAt o.addr 128)))
     imageStop (touch (dropProgram s p o.prog) o.addr len) p (s.bytesAt o.addr len) = none) → Goes (exec (.loadp ring) s) fun t =>
      (∃ g, Tbl.find (t.sched p).programs o.prog = some g ∧ g.ready = false ∧ g.rooms = roomMaskOf (s.roomsServing p) ∧
        g.image = s.bytesAt o.addr (max 128 (hLength (hdrOf (s.bytesAt o.addr 128))))) ∧
      (∀ k, k ≠ o.prog → Tbl.find (t.sched p).programs k = Tbl.find (s.sched p).programs k) ∧ s.Frame [.rings, .psched, .free, .mem] t) ∧
  (∀ (q : BitVec 64) o g, s.up = true → s.opAt n q.toNat = some o → Tbl.find (s.sched p).programs o.prog = some g → o.is 0x10 = true → o.live = true →
    o.hold = false → o.work = false → g.ready = false → Goes (exec (.translationComplete ring q) s) fun t =>
      Tbl.find (t.sched p).programs o.prog = some { g with ready := true } ∧ s.Frame [.rings, .psched, .rooms] t ∧
      (∀ m ∈ s.roomsOf p, g.rooms.getLsbD m = true → t.room m = { s.room m with imem := [], imemFrom := g.xlate + 1, imemPoison := [] }) ∧
      ∀ x ∈ (t.ring n).ops, x.orig = o.orig → x.work = true) ∧
  (∀ o, s.up = true → s.readyLoad n 0x11 = some o → Goes (exec (.unloadp ring) s) fun t => Tbl.find (t.sched p).programs o.prog = none ∧
    (∀ k, k ≠ o.prog → Tbl.find (t.sched p).programs k = Tbl.find (s.sched p).programs k) ∧ s.Frame [.rings, .psched] t ∧
    ∀ x ∈ (t.ring n).ops, x.orig = o.orig → x.work = true) ∧
  (∀ e g, let o0 := newOp s n e
    let o1 := { o0 with slots := (o0.sfirst, o0.scount) }
    let o := { o1 with uses := s.runUses p o1 }
    s.headEntry n = some e → (s.ring n).overrun = false → readHead (s.ring n) e = .ok (.mop 0x12) → (Ask.mop 0x12).stop e = none →
    s.mustWait n o (o.bound.map o.bind) = false → s.programOf p o = some g →
    (shareRooms s p g (imgEntry g.image o.entry)).any s.roomReserved = false → s.runStop n o = none → Goes (exec (.run ring) s) fun t =>
      ∃ q, (t.ring n).ops.getLast? = some q ∧ q.orig = e.seq ∧ q.program = some g ∧ q.work = false ∧
        q.shares.map (·.room) = shareRooms s p g (imgEntry g.image o.entry) ∧ (∀ h ∈ q.shares, h.started = false ∧ h.ended = false) ∧
        q.scales = (s.sched p).scales ∧ (t.ring n).nextSeq = e.seq + 1) ∧
  (∀ (room : BitVec 7) k o, s.nextShare room.toNat = some (k, o) → s.roomLive room.toNat = true → (s.room room.toNat).run = none →
    (s.room room.toNat).halted = false → s.outOfService 0 room.toNat = false → Goes (exec (.shareStart room) s) fun t =>
      let r := t.room room.toNat
      r.run = some (k, o.orig) ∧ r.active = true ∧ r.loops = [] ∧ r.sflags = 0 ∧ r.vflags = 0 ∧ (∀ m, m ≠ room.toNat → t.room m = s.room m) ∧
      s.Frame [.rings, .rooms] t ∧ ∀ x ∈ (t.ring k).ops, x.orig = o.orig → ∀ h ∈ x.shares, h.room = room.toNat → h.started = true) ∧
  (∀ (room : BitVec 7) k o, s.roomOp room.toNat = some (k, o) → s.roomLive room.toNat = true → o.live = true →
    (((s.room room.toNat).active = false ∧ (s.room room.toNat).quiet = true) ∨ o.computed = true) → Goes (exec (.shareComplete room) s) fun t =>
      (t.room room.toNat).run = none ∧ (t.room room.toNat).active = false ∧ (∀ m, m ≠ room.toNat → t.room m = s.room m) ∧
      s.Frame [.rings, .psched, .rooms] t ∧ ∀ x ∈ (t.ring k).ops, x.orig = o.orig → (∀ h ∈ x.shares, h.room = room.toNat → h.ended = true) ∧
        x.work = x.shares.all (·.ended))

/-! ### Entries of the Ituno form -/

/-- An entry of the form that may run and whose operands may be accessed (R231, R314) computes its result: the macro-operation's entry is computed,
no other stream changes, and memory changes in the elements of its destinations alone, beside what reading the operands brings in. -/
def Obligations.EntriesComputeTheirOutputs : Prop := ∀ (s : State) (ring : BitVec 6) (seq : BitVec 64) (op : Nat) (k : Work),
  let n := ring.toNat
  s.entryWork n seq.toNat op = some k → (∀ l, l < 5 → ∀ ns, s.elemsStop (k.desc l) ns = none) →
  let after := fun (l : List (Nat × List Nat)) => l.foldl (fun s e => touchElems s (k.desc e.1) e.2) s
  let all := fun (l : Nat) => (l, upTo (k.count l))
  let computed := fun (t u : State) =>
    (∀ x ∈ (t.ring n).ops, x.orig = k.o.orig → x.computed = true) ∧ (∀ j, j ≠ n → t.ring j = s.ring j) ∧ s.Frame [.rings, .psched, .mem, .rooms] t ∧
    ∀ a, (∀ l, l ∈ [3, 4] → ∀ i, let c := cellAt (k.desc l) (offsetAt (k.desc l) i); a < c.1 ∨ c.1 + c.2 ≤ a) → t.byteAt a = u.byteAt a
  (op = 1 → declTie (imgDecl k.img (pDecl k.e 4)) = 0 → Goes (exec (.matmul ring seq) s) fun t => computed t (after [all 0, all 1])) ∧
  (op = 2 → Goes (exec (.conv ring seq) s) fun t => computed t (after [all 0, all 1])) ∧
  (op = 3 → Goes (exec (.knn ring seq) s) fun t => computed t (after [all 0, all 1])) ∧
  (op = 4 → kernelOk true (imgKernel k.img (pKer k.e)) = true →
    Goes (exec (.elem ring seq) s) fun t => computed t (after (([0, 1, 2].filter (pUses k.e)).map all))) ∧
  (op = 5 → (3 ≤ pSub k.e → ∀ j, j < k.count 0 / (if dRank (k.desc 0) = 0 then 1 else k.dim 0 0) →
      let a := k.attic false j
      a.valid = true ∧ a.kind = rowKind (pSub k.e) ∧ a.handle.toNat = k.handle 0) →
    Goes (exec (.rowOperation ring seq) s) fun t => computed t (after (([0, 1, 2, 3].filter (pUses k.e)).map all))) ∧
  (op = 6 → Goes (exec (.convert ring seq) s) fun t => computed t (after [(0, upTo (k.count 4))])) ∧
  (op = 7 → fmtFloat (dFmt (k.desc 0)) = true →
    let r := goodRows ({ k with s := after [all 1] } : Work).indices (k.dim 0 1)
    r.2 = none → Goes (exec (.gather ring seq) s) fun t =>
      computed t (after [all 1, (0, (r.1.map fun e => countUp (k.dim 0 0 * e.2) (k.dim 0 0)).flatten)])) ∧
  (op = 8 → fmtFloat (dFmt (k.desc 4)) = true →
    let r := goodRows ({ k with s := after [all 1] } : Work).indices (k.dim 4 1)
    r.2 = none → Goes (exec (.scatter ring seq) s) fun t =>
      computed t (after [all 1, (0, (r.1.map fun e => countUp (k.dim 0 0 * e.1) (k.dim 0 0)).flatten)]))

/-- MATMUL's elements and GATHER's rows (R107, R143, R231), where the destination's elements do not overlap and take no scale, and no later
macro-operation of the stream has stored there: each element is the
product's, rounded once into its format; each row is the one its index names, bit for bit. An operand whose access is refused halts the stream with the
access's cause. -/
def Obligations.MatmulAndGatherResults : Prop := ∀ (s : State) (ring : BitVec 6) (seq : BitVec 64) (op : Nat) (k : Work),
  let n := ring.toNat
  let d := k.desc 4
  let cell := fun (i : Nat) => cellAt d (offsetAt d i)
  s.entryWork n seq.toNat op = some k →
  let after := fun (l : List (Nat × List Nat)) => l.foldl (fun s e => touchElems s (k.desc e.1) e.2) s
  let all := fun (l : Nat) => (l, upTo (k.count l))
  let apart := ∀ i j, i < k.count 4 → j < k.count 4 → i ≠ j → (cell i).1 + (cell i).2 ≤ (cell j).1 ∨ (cell j).1 + (cell j).2 ≤ (cell i).1
  ((∀ l, l < 5 → ∀ ns, s.elemsStop (k.desc l) ns = none) → (∀ a, (s.sched (ringPart n)).hides n k.o.orig a = false) → apart → dFmt d ≠ cQ4 → gathers d = false →
    (op = 1 → declTie (imgDecl k.img (pDecl k.e 4)) = 0 → pSub k.e = 0 → fmtFloat (dFmt d) = true → dRank d = 2 →
      let q : Work := { k with s := after [all 0, all 1] }
      Goes (exec (.matmul ring seq) s) fun t => ∀ i m, i < k.dim 4 0 → m < k.dim 4 1 →
        let row := (upTo (k.dim 0 0)).map fun j => q.value 0 (j + k.dim 0 0 * m)
        let col := (upTo (k.dim 0 0)).map fun j => q.value 1 (i + k.dim 1 0 * j)
        t.bytesAt (cell (i + k.dim 4 0 * m)).1 (cell (i + k.dim 4 0 * m)).2 =
          leBytes (cell (i + k.dim 4 0 * m)).2 (elemPack (dFmt d) .rne 0 (decodeNum k.accFmt (groupChain k.accFmt 0 (dotTerms row col)).1)).1) ∧
    (op = 7 → fmtFloat (dFmt (k.desc 0)) = true → dFmt (k.desc 0) = dFmt d → gathers (k.desc 0) = false → k.count 4 = k.dim 0 0 * k.count 1 →
      let r := goodRows ({ k with s := after [all 1] } : Work).indices (k.dim 0 1)
      let u := after [all 1, (0, (r.1.map fun e => countUp (k.dim 0 0 * e.2) (k.dim 0 0)).flatten)]
      r.2 = none → Goes (exec (.gather ring seq) s) fun t => ∀ e ∈ r.1, ∀ c, c < k.dim 0 0 →
        t.bytesAt (cell (k.dim 0 0 * e.1 + c)).1 (cell (k.dim 0 0 * e.1 + c)).2 =
          leBytes (cell (k.dim 0 0 * e.1 + c)).2 (u.rawAt (k.desc 0) (offsetAt (k.desc 0) (k.dim 0 0 * e.2 + c))))) ∧
  (∀ g c, op = 1 → s.elemsStop (k.desc 0) (upTo (k.count 0)) = some (g, c) → (∀ h ∈ (s.sched (ringPart n)).hitches, h.2.arrived = []) →
    Goes (exec (.matmul ring seq) s) fun t => (t.ring n).st = .halted ∧ (t.ring n).faultSeq = k.o.seq ∧ LogsNext s t c 2 ∧
      ∀ x ∈ (t.ring n).ops, x.orig = k.o.orig → x.finished = true ∧ x.status = 2)

/-! ### The solver -/

/-- A SOLVE that passes its checks enters with its call, one fresh problem for each it counts, and its deadline (R179, R191, R198); its borrowed rooms
are reserved once their words have completed (R185); the lowest waiting problem starts on the lowest free unit, its start time the device's stamp
(R154), or goes on where it stopped. -/
def Obligations.SolveCallsAndProblemsBegin : Prop := ∀ (s : State) (ring : BitVec 6),
  let n := ring.toNat
  let p := ringPart n
  let others := fun (t : State) => ∀ k, k ≠ n → t.ring k = s.ring k
  (∀ e,
    let o0 := newOp s n e
    let c := s.callOf o0
    let tr := s.treeOf c
    let named := fun (l : List Nat) => l.map fun h => (h, s.descOf p h)
    let o := { o0 with slots := (sFirst c, sCount c), uses := usesOf (s.sched p).scales (named (readHandles c tr)) (named (writeHandles c tr)) }
    s.headEntry n = some e → (s.ring n).overrun = false → readHead (s.ring n) e = .ok (.mop 0x20) → (Ask.mop 0x20).stop e = none →
    s.mustWait n o (namedHandles c tr) = false → (countUp (field c 26 7) (sNroom c)).any s.roomReserved = false → s.solveStop n o = none →
    Goes (exec (.solve ring) s) fun t => others t ∧ (t.ring n).nextSeq = e.seq + 1 ∧ ∃ q x, (t.ring n).ops.getLast? = some q ∧ q.orig = e.seq ∧
      q.work = false ∧ q.slots = (sFirst c, sCount c) ∧ q.solve = some x ∧ x.call = c ∧ x.tree = tr ∧ x.fired = false ∧ x.reserved = (sNroom c == 0) ∧
      x.probs = (upTo (sCount c)).map (fun b => (b, ({} : Problem))) ∧
      x.deadline = (match sDlform c with | 1 => some (sDeadline c) | 2 => some (s.stamp + sDeadline c) | _ => none)) ∧
  (∀ (seq : BitVec 64) o c, s.up = true → s.opAt n seq.toNat = some o → o.live = true → o.solve = some c →
    (c.reserved = false → (∀ m ∈ c.borrowed, (s.room m).quiet = true) → Goes (exec (.roomReservation ring seq) s) fun t =>
      s.Frame [.rings] t ∧ others t ∧ ∃ q, t.opAt n o.orig = some q ∧ q.solve = some { c with reserved := true }) ∧
    (∀ b u s', s.callRuns n o c = true → c.nextProblem = some b → (s.freeUnits p c).head? = some u →
      makeSpace s p c (Tbl.get {} c.probs b) = some s' →
      let pr := Tbl.get ({} : Problem) c.probs b
      let g := (problemInputs { s' with free := s'.free + 1 } o c b s'.free).2
      (pr.begun = true ∨ g.stop = none) → Goes (exec (.problemStart ring seq) s) fun t => others t ∧ ∃ q x, t.opAt n o.orig = some q ∧ q.solve = some x ∧
        let new := Tbl.get ({} : Problem) x.probs b
        (∀ j, j ≠ b → Tbl.get ({} : Problem) x.probs j = Tbl.get {} c.probs j) ∧ new.begun = true ∧ new.on = true ∧ new.unit = u ∧
        (pr.begun = false → new.tstart = s.stamp ∧ (g.po = true → new.stage = .outputs ∧ new.status = 0x16))))

/-- A problem's course (R170, R186, R189 to R192): a pass, interval or sweep advances it, and at its boundary a deadline or a stop ends it as R191 and
R192 say, an abandoned factorisation restarting from its first interval, or its Schur part from its own; a problem of each kind on its unit runs out to
the result of its factorisation or its sweeps; a forward and an adjoint call of one problem run to their end, the macro-operation's effect then whole. -/
def Obligations.ProblemsAdvanceAndRunOut : Prop := ∀ (s : State) (ring : BitVec 6) (seq : BitVec 64) (b : BitVec 11) (o : Op) (c : SolveOp) (pr : Problem),
  let n := ring.toNat
  let i := b.toNat
  let stop := (s.ring n).stopReq
  let cr := s.courseOf n o c i
  let k := (factored (sKind c.call) pr.inp).1
  s.up = true → s.probAt n seq.toNat i = some (o, c, pr) → pr.on = true → pr.stopped = false →
  let moved := fun (t : State) (f : Problem → Prop) => s.Frame [.rings] t ∧ (∀ k, k ≠ n → t.ring k = s.ring k) ∧
    ∃ q x, t.opAt n o.orig = some q ∧ q.solve = some x ∧ (∀ j, j ≠ i → Tbl.get ({} : Problem) x.probs j = Tbl.get {} c.probs j) ∧ f (Tbl.get {} x.probs i)
  let halted := fun (stage : ProbStage) (q : Problem) => if c.fired = true then q.stage = .outputs ∧ q.status = 0x10 ∧ q.outs = []
    else q.stage = stage ∧ q.stopped = true ∧ q.status = 0x11 ∧ q.outs = []
  (pr.stage = .assembly → c.fired = false → stop = false → pr.pass + 1 < passes pr.inp.tree false → Goes (exec (.assemblyPass ring seq b) s) fun t =>
    moved t fun q => q = { pr with pass := pr.pass + 1, exc := q.exc }) ∧
  (pr.stage = .assembly → c.fired = false → stop = false → passes pr.inp.tree false ≤ pr.pass + 1 → (assembled pr.inp).1.nonFinite = true →
    Goes (exec (.assemblyPass ring seq b) s) fun t => moved t fun q => q.stage = .outputs ∧ q.status = 0x14 ∧ q.outs = []) ∧
  (pr.stage = .assembly → (c.fired = true ∨ stop = true) → Goes (exec (.assemblyPass ring seq b) s) fun t => moved t fun q =>
    q.pass = pr.pass + 1 ∧ halted .assembly q) ∧
  (pr.stage = .adjoint → (c.fired = true ∨ stop = true) → Goes (exec (.assemblyPass ring seq b) s) fun t => moved t fun q =>
    q.pass = pr.pass + 1 ∧ halted .adjoint q) ∧
  (pr.stage = .factor → c.fired = false → stop = false → pr.interval + 1 < k.intervals → Goes (exec (.panelInterval ring seq b) s) fun t =>
    moved t fun q => q = { pr with interval := pr.interval + 1 }) ∧
  (pr.stage = .factor → (c.fired = true ∨ stop = true) → Goes (exec (.panelInterval ring seq b) s) fun t => moved t fun q =>
    q.interval = (if pr.interval < k.tf.steps then 0 else if pr.interval < k.schurEnd then k.tf.steps else k.schurEnd) ∧ halted .factor q) ∧
  (pr.stage = .adjFactor → (c.fired = true ∨ stop = true) → Goes (exec (.panelInterval ring seq b) s) fun t => moved t fun q =>
    q.interval = 0 ∧ halted .adjFactor q) ∧
  (pr.stage = .sweeps → sAdj c.call = false → Goes (exec (.sweep ring seq b) s) fun t => moved t fun q =>
    let r := ((sweepOnce (factored 5 pr.inp).1.sch pr.inp.mu (rowBounds pr.inp.tree) pr.lam).run 0).1
    let met := (fLe fF64 r.dmax (sTol c.call)).1
    (∀ st j, r.stop = some (st, j) → q.stage = .outputs ∧ q.status = st ∧ q.index = j ∧ q.outs = []) ∧
    (r.stop = none → q.sweep = pr.sweep + 1 ∧
      (c.fired = true → q.stage = .outputs ∧ q.status = 1) ∧
      (c.fired = false → stop = true → q.stage = .sweeps ∧ q.stopped = true ∧ q.status = 2) ∧
      (c.fired = false → stop = false → met = true → q.stage = .outputs ∧ q.status = 0) ∧
      (c.fired = false → stop = false → met = false → sMaxit c.call ≤ pr.sweep + 1 → q.stage = .outputs ∧ q.status = 3) ∧
      (c.fired = false → stop = false → met = false → pr.sweep + 1 < sMaxit c.call → q.stage = .sweeps ∧ q.stopped = false ∧ q.lam = r.lam))) ∧
  (s.callRuns n o c = true → pr.stage ≠ .ended →
    let ran := fun (t : State) => moved t fun q => q.stage = .outputs ∧ q.on = true ∧ q.unit = pr.unit ∧
      (pr.stage = .assembly → (assembled pr.inp).1.nonFinite = true → q.status = 0x14 ∧ q.outs = []) ∧
      (pr.stage = .factor → ∀ st j, k.stop = some (st, j) → q.status = st ∧ q.index = j ∧ q.outs = [])
    let solvedTo := fun (t : State) => moved t fun q => pr.stage = .factor → k.stop = none → sAdj c.call = false →
      q.x = k.x ∧ q.lam = k.lam ∧ q.outs = cr.column hX k.x ++ cr.column hLam k.lam
    (sKind c.call = 0 → Goes (exec (.dchol ring seq b) s) fun t => ran t ∧ solvedTo t) ∧
    (sKind c.call = 1 → Goes (exec (.dldlt ring seq b) s) fun t => ran t ∧ solvedTo t) ∧
    (sKind c.call = 2 → Goes (exec (.dqr ring seq b) s) fun t => ran t ∧ solvedTo t) ∧
    (sKind c.call = 3 → Goes (exec (.tree ring seq b) s) fun t => ran t ∧ solvedTo t) ∧
    (sKind c.call = 4 → Goes (exec (.kkt ring seq b) s) fun t => ran t ∧ solvedTo t) ∧
    (sKind c.call = 5 → Goes (exec (.contact ring seq b) s) fun t => ran t ∧ moved t fun q =>
      (pr.stage = .sweeps ∨ (pr.stage = .factor ∧ k.stop = none)) → sAdj c.call = false →
        (q.status = 0x12 ∧ q.outs = []) ∨ ((q.status = 0 ∨ q.status = 3) ∧ q.x = ((addY k.sch q.lam).run 0).1 ∧
          q.outs = cr.column hX q.x ++ cr.column hLam q.lam)) ∧
    (o.work = false → c.probs = [(i, pr)] →
      let ended := fun (t : State) => (∀ k, k ≠ n → t.ring k = s.ring k) ∧ ∃ q x, t.opAt n o.orig = some q ∧ q.work = true ∧ q.solve = some x ∧
        let y := Tbl.get ({} : Problem) x.probs i
        y.stage = .ended ∧ y.on = false ∧ y.status = (runOut cr pr).status ∧ y.x = (runOut cr pr).x ∧ y.recorded = true ∧
        q.status = (if 0x10 ≤ y.status then 4 else o.status)
      (sMode c.call = 0 → Goes (exec (.solveForward ring seq) s) fun t => ended t) ∧
      (sMode c.call = 1 → Goes (exec (.solveAdjoint ring seq) s) fun t => ended t)))

/-- A problem that has come out ends, one that has stopped is kept for its resumption, and the sample slot has its status (R154, R192, R66). Where it
has nothing to write (R196, R197) its record stands at the call's RESULT, STATUS in byte 0, UNIT in
byte 11, TSTART and TEND in the last 16 bytes, and no other byte changes, as long as no later macro-operation of the stream has stored there (R68). The
last one ends the call: the macro-operation's effect is whole, with status 4 where no result was produced. One that a stop or a deadline meets before it began is
recorded as not produced, 0x11 or 0x10. -/
def Obligations.ProblemEndWritesRecord : Prop := ∀ (s : State) (ring : BitVec 6) (seq : BitVec 64) (b : BitVec 11) (o : Op) (c : SolveOp) (pr : Problem),
  let n := ring.toNat
  let i := b.toNat
  let p := ringPart n
  let a := sResult c.call + 64 * i
  let early := pr.on = false ∧ pr.stopped = false ∧ pr.stage ≠ .outputs ∧ pr.stage ≠ .ended ∧ ((s.ring n).stopReq = true ∨ c.fired = true)
  let st := if pr.stage = .outputs then pr.status else if c.fired then 0x10 else 0x11
  s.up = true → s.probAt n seq.toNat i = some (o, c, pr) →
  let left := fun (g : Problem → Nat → Prop) => Goes (exec (.problemEnd ring seq b) s) fun t => (∀ k, k ≠ n → t.ring k = s.ring k) ∧
    ∃ q x, t.opAt n o.orig = some q ∧ q.solve = some x ∧ (Tbl.get ({} : Problem) x.probs i).on = false ∧
      g (Tbl.get {} x.probs i) (Tbl.get ({} : Slot) (t.sched p).slots (sFirst c.call + i)).status.toNat
  (pr.stage = .outputs → pr.stopped = false → left fun x v => x.stage = .ended ∧ v = pr.status % 256) ∧
  (pr.on = true → pr.stopped = true → pr.stage ≠ .ended → left fun x v => x.stage = pr.stage ∧ x.stopped = true ∧ v = pr.status % 256) ∧
  (((pr.stage = .outputs ∧ pr.stopped = false) ∨ early) → pr.outs = [] → (∀ x, (s.sched p).hides n o.orig x = false) →
  let ends := fun (f : State → Op → Problem → Prop) => Goes (exec (.problemEnd ring seq b) s) fun t =>
    (∀ k, k ≠ n → t.ring k = s.ring k) ∧ t.byteAt a = BitVec.ofNat 8 st ∧ t.byteAt (a + 11) = BitVec.ofNat 8 pr.unit ∧
    t.bytesAt (a + 14) 2 = leBytes 2 pr.sweep ∧ t.bytesAt (a + 48) 8 = bytesOf pr.tstart ∧ t.bytesAt (a + 56) 8 = bytesOf s.stamp ∧
    (∀ x, x < a ∨ a + 64 ≤ x → t.byteAt x = s.byteAt x) ∧ (Tbl.get ({} : Slot) (t.sched p).slots (sFirst c.call + i)).status = BitVec.ofNat 8 st ∧
    ∃ q x, t.opAt n o.orig = some q ∧ q.solve = some x ∧ f t q (Tbl.get {} x.probs i)
  (pr.stage = .outputs → (∃ e ∈ c.probs, e.1 ≠ i ∧ e.2.stage ≠ .ended) → ends fun _ q x =>
    x.stage = .ended ∧ x.on = false ∧ x.recorded = true ∧ q.work = o.work) ∧
  (pr.stage = .outputs → c.probs = [(i, pr)] → ends fun t q x => x.stage = .ended ∧ q.work = true ∧ q.status = (if 0x10 ≤ st then 4 else o.status) ∧
    (∀ k, c.entry = some k → t.event k = {})) ∧
  (early → (∃ e ∈ c.probs, e.1 ≠ i ∧ e.2.stage ≠ .ended) → ends fun _ q x => x.on = false ∧ x.recorded = true ∧ q.work = o.work ∧
    (if c.fired then x.stage = .ended else x.stage = pr.stage ∧ x.stopped = true)))
end

