-- ==== Sys2Proof/Laws/Bits.lean ====
section
/-! SUPPORT. Bit fields: a field written reads back, and no other field sees the write. -/

namespace Sys2Proof

variable {n w w' : Nat}

theorem getLsbD_putBits (x : BitVec n) (lo : Nat) (v : BitVec w) (i : Nat) :
    (putBits x lo v).getLsbD i = if lo ≤ i ∧ i < lo + w ∧ i < n then v.getLsbD (i - lo) else x.getLsbD i := by
  unfold putBits
  simp only [BitVec.getLsbD_or, BitVec.getLsbD_and, BitVec.getLsbD_not, BitVec.getLsbD_shiftLeft, BitVec.getLsbD_setWidth,
    BitVec.getLsbD_allOnes]
  by_cases h1 : i < n
  · by_cases h2 : lo ≤ i
    · by_cases h3 : i < lo + w
      · have h4 : i - lo < n := by omega
        have h5 : i - lo < w := by omega
        simp [h1, h2, h3, h4, h5, Nat.not_lt.mpr h2]
      · have h5 : ¬ i - lo < w := by omega
        have h6 : v.getLsbD (i - lo) = false := BitVec.getLsbD_of_ge v _ (by omega)
        simp [h1, h3, h5, h6]
    · have h2' : i < lo := by omega
      simp [h1, h2, h2']
  · have : x.getLsbD i = false := BitVec.getLsbD_of_ge x i (by omega)
    simp [h1, this]

theorem bits_putBits_same (x : BitVec n) (lo : Nat) (v : BitVec w) (h : lo + w ≤ n) : bits (putBits x lo v) lo w = v := by
  apply BitVec.eq_of_getLsbD_eq
  intro i hi
  unfold bits
  rw [BitVec.getLsbD_extractLsb', getLsbD_putBits]
  have : lo ≤ lo + i ∧ lo + i < lo + w ∧ lo + i < n := by omega
  simp [hi, this]

theorem bits_putBits_ne (x : BitVec n) (lo : Nat) (v : BitVec w) (lo' : Nat) (h : lo' + w' ≤ lo ∨ lo + w ≤ lo') :
    bits (putBits x lo v) lo' w' = bits x lo' w' := by
  apply BitVec.eq_of_getLsbD_eq
  intro i hi
  unfold bits
  rw [BitVec.getLsbD_extractLsb', BitVec.getLsbD_extractLsb', getLsbD_putBits]
  have : ¬ (lo ≤ lo' + i ∧ lo' + i < lo + w ∧ lo' + i < n) := by omega
  simp [this]

theorem field_eq (x : BitVec n) (lo w : Nat) : field x lo w = (bits x lo w).toNat := rfl

theorem bits_putField_same (x : BitVec n) (lo w v : Nat) (h : lo + w ≤ n) : bits (putField x lo w v) lo w = BitVec.ofNat w v :=
  bits_putBits_same x lo _ h

theorem bits_putField_ne (x : BitVec n) (lo w v lo' : Nat) (h : lo' + w' ≤ lo ∨ lo + w ≤ lo') :
    bits (putField x lo w v) lo' w' = bits x lo' w' :=
  bits_putBits_ne x lo _ lo' h

theorem field_putField_same (x : BitVec n) (lo w v : Nat) (h : lo + w ≤ n) (hv : v < 2 ^ w) : field (putField x lo w v) lo w = v := by
  rw [field_eq, bits_putField_same x lo w v h, BitVec.toNat_ofNat, Nat.mod_eq_of_lt hv]

end Sys2Proof
end

