-- ==== Sys2Proof/Laws/Tbl.lean ====
section
/-! SUPPORT. Reading after writing for tables and byte memories, and the canonical form that every operation on a byte memory
keeps. -/

namespace Sys2Proof

variable {α : Type}

/-! ### Tables -/

/-- A table reads at a key just set as what was set. -/
@[simp] theorem Tbl.get_set_same (d : α) (t : Tbl α) (k : Nat) (v : α) : Tbl.get d (Tbl.set t k v) k = v := by
  induction t with
  | nil => simp [Tbl.set, Tbl.get]
  | cons e t ih =>
    obtain ⟨j, w⟩ := e
    unfold Tbl.set
    split
    · simp [Tbl.get]
    · split
      · simp [Tbl.get]
      · rename_i h
        simp [Tbl.get, ih, Ne.symm h]

/-- A table reads at every other key as before. -/
theorem Tbl.get_set_ne (d : α) (t : Tbl α) {k j : Nat} (v : α) (h : j ≠ k) : Tbl.get d (Tbl.set t k v) j = Tbl.get d t j := by
  induction t with
  | nil => simp [Tbl.set, Tbl.get, Ne.symm h]
  | cons e t ih =>
    obtain ⟨i, w⟩ := e
    unfold Tbl.set
    split
    · simp [Tbl.get, Ne.symm h]
    · split
      · rename_i hk
        subst hk
        simp [Tbl.get, Ne.symm h]
      · simp only [Tbl.get, ih]

/-- Reading a table after setting a key. -/
theorem Tbl.get_set (d : α) (t : Tbl α) (k j : Nat) (v : α) :
    Tbl.get d (Tbl.set t k v) j = if j = k then v else Tbl.get d t j := by
  split
  · rename_i h; subst h; exact Tbl.get_set_same d t j v
  · rename_i h; exact Tbl.get_set_ne d t v h

/-- What a set key is found with. -/
theorem Tbl.find_set (t : Tbl α) (k j : Nat) (v : α) :
    Tbl.find (Tbl.set t k v) j = if j = k then some v else Tbl.find t j := by
  induction t with
  | nil => by_cases h : k = j <;> simp [Tbl.set, Tbl.find, h, eq_comm]
  | cons e t ih =>
    obtain ⟨i, w⟩ := e
    unfold Tbl.set
    by_cases h : j = k
    · subst h
      split
      · simp [Tbl.find]
      · split
        · simp [Tbl.find]
        · rename_i h1 h2
          simp [Tbl.find, ih, Ne.symm h2]
    · split
      · simp [Tbl.find, Ne.symm h]
      · split
        · rename_i h2
          subst h2
          simp [Tbl.find, Ne.symm h]
        · simp only [Tbl.find, ih, h, if_false]

/-- A key taken out reads as the default; every other key as before. -/
theorem Tbl.get_erase (d : α) (t : Tbl α) (k j : Nat) : Tbl.get d (Tbl.erase t k) j = if j = k then d else Tbl.get d t j := by
  induction t with
  | nil => simp [Tbl.erase, Tbl.get]
  | cons e t ih =>
    obtain ⟨i, w⟩ := e
    unfold Tbl.erase at ih ⊢
    rw [List.filter_cons]
    by_cases h : i = k
    · subst h
      rw [if_neg (by simp), ih]
      by_cases hj : j = i
      · simp [hj]
      · simp [Tbl.get, hj, Ne.symm hj]
    · rw [if_pos (by simpa using h)]
      by_cases hi : i = j
      · subst hi
        simp [Tbl.get, h]
      · simp only [Tbl.get, hi, if_false, ih]

/-! ### Keys that rise strictly -/

/-- A table whose keys rise strictly. -/
abbrev Tbl.rising (t : Tbl α) : Prop := t.Pairwise fun x y => x.1 < y.1

/-- Every entry of a table after a key has been set. -/
theorem Tbl.mem_set {t : Tbl α} {k : Nat} {v : α} {e : Nat × α} (h : e ∈ Tbl.set t k v) : e = (k, v) ∨ e ∈ t := by
  induction t with
  | nil => simpa [Tbl.set] using h
  | cons x t ih =>
    obtain ⟨i, w⟩ := x
    unfold Tbl.set at h
    split at h
    · simpa using h
    · split at h
      · rcases List.mem_cons.1 h with h | h
        · exact .inl h
        · exact .inr (List.mem_cons_of_mem _ h)
      · rcases List.mem_cons.1 h with h | h
        · exact .inr (h ▸ List.mem_cons_self ..)
        · rcases ih h with h | h
          · exact .inl h
          · exact .inr (List.mem_cons_of_mem _ h)

/-- Setting a key keeps the keys rising. -/
theorem Tbl.rising_set {t : Tbl α} (h : Tbl.rising t) (k : Nat) (v : α) : Tbl.rising (Tbl.set t k v) := by
  induction t with
  | nil => simp [Tbl.rising, Tbl.set]
  | cons x t ih =>
    obtain ⟨i, w⟩ := x
    obtain ⟨h1, h2⟩ := List.pairwise_cons.1 h
    unfold Tbl.set
    split
    · rename_i hk
      refine List.pairwise_cons.2 ⟨fun e he => ?_, h⟩
      rcases List.mem_cons.1 he with he | he
      · simpa [he] using hk
      · exact Nat.lt_trans hk (h1 e he)
    · split
      · rename_i hk
        subst hk
        exact List.pairwise_cons.2 ⟨h1, h2⟩
      · rename_i hk1 hk2
        refine List.pairwise_cons.2 ⟨fun e he => ?_, ih h2⟩
        rcases Tbl.mem_set he with he | he
        · subst he
          show i < k
          omega
        · exact h1 e he

/-! ### Byte memories -/

/-- A byte just written reads as what was written. -/
@[simp] theorem Mem.read_write_same (d : Nat → Byte) (m : Mem) (a : Nat) (v : Byte) : (m.write d a v).read d a = v := by
  unfold Mem.write Mem.read
  split
  · rename_i h
    rw [Tbl.get_erase]
    simp [h]
  · simp

/-- Every other byte reads as before. -/
theorem Mem.read_write_ne (d : Nat → Byte) (m : Mem) {a b : Nat} (v : Byte) (h : b ≠ a) :
    (m.write d a v).read d b = m.read d b := by
  unfold Mem.write Mem.read
  split
  · rw [Tbl.get_erase, if_neg h]
  · exact Tbl.get_set_ne _ _ _ h

/-- Dropping entries keeps the canonical form. -/
theorem Mem.wf_filter {d : Nat → Byte} {m : Mem} (h : m.wf d) (f : Host.Cell → Bool) : Mem.wf d (m.filter f) :=
  ⟨h.1.filter _, fun e he => h.2 e (List.mem_filter.1 he).1⟩

/-- A write keeps the canonical form. -/
theorem Mem.wf_write {d : Nat → Byte} {m : Mem} (h : m.wf d) (a : Nat) (v : Byte) : Mem.wf d (m.write d a v) := by
  unfold Mem.write
  split
  · exact Mem.wf_filter h _
  · rename_i hv
    refine ⟨Tbl.rising_set h.1 a v, fun e he => ?_⟩
    rcases Tbl.mem_set he with he | he
    · subst he; exact hv
    · exact h.2 e he

/-- The canonical form for another default, where the two agree on every address listed. -/
theorem Mem.wf_congr {d d' : Nat → Byte} {m : Mem} (h : m.wf d) (hd : ∀ e ∈ m, d' e.1 = d e.1) : Mem.wf d' m :=
  ⟨h.1, fun e he => by rw [hd e he]; exact h.2 e he⟩

/-- The empty memory has the canonical form. -/
theorem Mem.wf_nil (d : Nat → Byte) : Mem.wf d [] := ⟨List.Pairwise.nil, fun _ he => nomatch he⟩

end Sys2Proof
end

