-- ==== Sys2Proof/Laws/State.lean ====
section
/-! SUPPORT. What every update of the state leaves: each field it does not name, and each table at the keys it does not set. -/

namespace Sys2Proof.Machine

variable (s : State)

/-! ### updPs -/

@[simp] theorem updPs_pending (p : Nat) (f : PartSec → PartSec) : (s.updPs p f).pending = s.pending := rfl
@[simp] theorem updPs_free (p : Nat) (f : PartSec → PartSec) : (s.updPs p f).free = s.free := rfl
@[simp] theorem updPs_ident (p : Nat) (f : PartSec → PartSec) : (s.updPs p f).ident = s.ident := rfl
@[simp] theorem updPs_boot (p : Nat) (f : PartSec → PartSec) : (s.updPs p f).boot = s.boot := rfl
@[simp] theorem updPs_time (p : Nat) (f : PartSec → PartSec) : (s.updPs p f).time = s.time := rfl
@[simp] theorem updPs_events (p : Nat) (f : PartSec → PartSec) : (s.updPs p f).events = s.events := rfl
@[simp] theorem updPs_firedNow (p : Nat) (f : PartSec → PartSec) : (s.updPs p f).firedNow = s.firedNow := rfl
@[simp] theorem updPs_stopSent (p : Nat) (f : PartSec → PartSec) : (s.updPs p f).stopSent = s.stopSent := rfl
@[simp] theorem updPs_firedStops (p : Nat) (f : PartSec → PartSec) : (s.updPs p f).firedStops = s.firedStops := rfl
@[simp] theorem updPs_capEvent (p : Nat) (f : PartSec → PartSec) : (s.updPs p f).capEvent = s.capEvent := rfl
@[simp] theorem updPs_mode (p : Nat) (f : PartSec → PartSec) : (s.updPs p f).mode = s.mode := rfl
@[simp] theorem updPs_pendingMode (p : Nat) (f : PartSec → PartSec) : (s.updPs p f).pendingMode = s.pendingMode := rfl
@[simp] theorem updPs_psched (p : Nat) (f : PartSec → PartSec) : (s.updPs p f).psched = s.psched := rfl
@[simp] theorem updPs_ppeer (p : Nat) (f : PartSec → PartSec) : (s.updPs p f).ppeer = s.ppeer := rfl
@[simp] theorem updPs_rings (p : Nat) (f : PartSec → PartSec) : (s.updPs p f).rings = s.rings := rfl
@[simp] theorem updPs_rooms (p : Nat) (f : PartSec → PartSec) : (s.updPs p f).rooms = s.rooms := rfl
@[simp] theorem updPs_mem (p : Nat) (f : PartSec → PartSec) : (s.updPs p f).mem = s.mem := rfl
@[simp] theorem updPs_link (p : Nat) (f : PartSec → PartSec) : (s.updPs p f).link = s.link := rfl
@[simp] theorem updPs_ports (p : Nat) (f : PartSec → PartSec) : (s.updPs p f).ports = s.ports := rfl
@[simp] theorem updPs_rank (p : Nat) (f : PartSec → PartSec) : (s.updPs p f).rank = s.rank := rfl
@[simp] theorem updPs_sec (p : Nat) (f : PartSec → PartSec) : (s.updPs p f).sec = s.sec := rfl
@[simp] theorem updPs_frozen (p : Nat) (f : PartSec → PartSec) : (s.updPs p f).frozen = s.frozen := rfl
@[simp] theorem updPs_pw (p : Nat) (f : PartSec → PartSec) : (s.updPs p f).pw = s.pw := rfl
@[simp] theorem updPs_dict (p : Nat) (f : PartSec → PartSec) : (s.updPs p f).dict = s.dict := rfl
@[simp] theorem updPs_can (p : Nat) (f : PartSec → PartSec) : (s.updPs p f).can = s.can := rfl
@[simp] theorem updPs_log (p : Nat) (f : PartSec → PartSec) : (s.updPs p f).log = s.log := rfl
@[simp] theorem updPs_svc (p : Nat) (f : PartSec → PartSec) : (s.updPs p f).svc = s.svc := rfl
@[simp] theorem updPs_tap (p : Nat) (f : PartSec → PartSec) : (s.updPs p f).tap = s.tap := rfl
@[simp] theorem updPs_sched (p : Nat) (f : PartSec → PartSec) (j : Nat) : (s.updPs p f).sched j = s.sched j := rfl
@[simp] theorem updPs_peer (p : Nat) (f : PartSec → PartSec) (j : Nat) : (s.updPs p f).peer j = s.peer j := rfl
@[simp] theorem updPs_ring (p : Nat) (f : PartSec → PartSec) (j : Nat) : (s.updPs p f).ring j = s.ring j := rfl
@[simp] theorem updPs_room (p : Nat) (f : PartSec → PartSec) (j : Nat) : (s.updPs p f).room j = s.room j := rfl
@[simp] theorem updPs_port (p : Nat) (f : PartSec → PartSec) (j : Nat) : (s.updPs p f).port j = s.port j := rfl
@[simp] theorem updPs_event (p : Nat) (f : PartSec → PartSec) (j : Nat) : (s.updPs p f).event j = s.event j := rfl
@[simp] theorem updPs_diePw (p : Nat) (f : PartSec → PartSec) (j : Nat) : (s.updPs p f).diePw j = s.diePw j := rfl
@[simp] theorem updPs_box (p : Nat) (f : PartSec → PartSec) (j : Nat) : (s.updPs p f).box j = s.box j := rfl
/-- The entry updated. -/
@[simp] theorem updPs_ps_same (p : Nat) (f : PartSec → PartSec) : (s.updPs p f).ps p = f (s.ps p) := by
  simp [State.updPs, State.ps]
/-- Every other entry. -/
theorem updPs_ps_ne {p j : Nat} (f : PartSec → PartSec) (h : j ≠ p) : (s.updPs p f).ps j = s.ps j := Tbl.get_set_ne _ _ _ h

/-! ### updSched -/

@[simp] theorem updSched_pending (p : Nat) (f : PartSched → PartSched) : (s.updSched p f).pending = s.pending := rfl
@[simp] theorem updSched_free (p : Nat) (f : PartSched → PartSched) : (s.updSched p f).free = s.free := rfl
@[simp] theorem updSched_ident (p : Nat) (f : PartSched → PartSched) : (s.updSched p f).ident = s.ident := rfl
@[simp] theorem updSched_boot (p : Nat) (f : PartSched → PartSched) : (s.updSched p f).boot = s.boot := rfl
@[simp] theorem updSched_time (p : Nat) (f : PartSched → PartSched) : (s.updSched p f).time = s.time := rfl
@[simp] theorem updSched_events (p : Nat) (f : PartSched → PartSched) : (s.updSched p f).events = s.events := rfl
@[simp] theorem updSched_firedNow (p : Nat) (f : PartSched → PartSched) : (s.updSched p f).firedNow = s.firedNow := rfl
@[simp] theorem updSched_stopSent (p : Nat) (f : PartSched → PartSched) : (s.updSched p f).stopSent = s.stopSent := rfl
@[simp] theorem updSched_firedStops (p : Nat) (f : PartSched → PartSched) : (s.updSched p f).firedStops = s.firedStops := rfl
@[simp] theorem updSched_capEvent (p : Nat) (f : PartSched → PartSched) : (s.updSched p f).capEvent = s.capEvent := rfl
@[simp] theorem updSched_mode (p : Nat) (f : PartSched → PartSched) : (s.updSched p f).mode = s.mode := rfl
@[simp] theorem updSched_pendingMode (p : Nat) (f : PartSched → PartSched) : (s.updSched p f).pendingMode = s.pendingMode := rfl
@[simp] theorem updSched_psec (p : Nat) (f : PartSched → PartSched) : (s.updSched p f).psec = s.psec := rfl
@[simp] theorem updSched_ppeer (p : Nat) (f : PartSched → PartSched) : (s.updSched p f).ppeer = s.ppeer := rfl
@[simp] theorem updSched_rings (p : Nat) (f : PartSched → PartSched) : (s.updSched p f).rings = s.rings := rfl
@[simp] theorem updSched_rooms (p : Nat) (f : PartSched → PartSched) : (s.updSched p f).rooms = s.rooms := rfl
@[simp] theorem updSched_mem (p : Nat) (f : PartSched → PartSched) : (s.updSched p f).mem = s.mem := rfl
@[simp] theorem updSched_link (p : Nat) (f : PartSched → PartSched) : (s.updSched p f).link = s.link := rfl
@[simp] theorem updSched_ports (p : Nat) (f : PartSched → PartSched) : (s.updSched p f).ports = s.ports := rfl
@[simp] theorem updSched_rank (p : Nat) (f : PartSched → PartSched) : (s.updSched p f).rank = s.rank := rfl
@[simp] theorem updSched_sec (p : Nat) (f : PartSched → PartSched) : (s.updSched p f).sec = s.sec := rfl
@[simp] theorem updSched_frozen (p : Nat) (f : PartSched → PartSched) : (s.updSched p f).frozen = s.frozen := rfl
@[simp] theorem updSched_pw (p : Nat) (f : PartSched → PartSched) : (s.updSched p f).pw = s.pw := rfl
@[simp] theorem updSched_dict (p : Nat) (f : PartSched → PartSched) : (s.updSched p f).dict = s.dict := rfl
@[simp] theorem updSched_can (p : Nat) (f : PartSched → PartSched) : (s.updSched p f).can = s.can := rfl
@[simp] theorem updSched_log (p : Nat) (f : PartSched → PartSched) : (s.updSched p f).log = s.log := rfl
@[simp] theorem updSched_svc (p : Nat) (f : PartSched → PartSched) : (s.updSched p f).svc = s.svc := rfl
@[simp] theorem updSched_tap (p : Nat) (f : PartSched → PartSched) : (s.updSched p f).tap = s.tap := rfl
@[simp] theorem updSched_ps (p : Nat) (f : PartSched → PartSched) (j : Nat) : (s.updSched p f).ps j = s.ps j := rfl
@[simp] theorem updSched_peer (p : Nat) (f : PartSched → PartSched) (j : Nat) : (s.updSched p f).peer j = s.peer j := rfl
@[simp] theorem updSched_ring (p : Nat) (f : PartSched → PartSched) (j : Nat) : (s.updSched p f).ring j = s.ring j := rfl
@[simp] theorem updSched_room (p : Nat) (f : PartSched → PartSched) (j : Nat) : (s.updSched p f).room j = s.room j := rfl
@[simp] theorem updSched_port (p : Nat) (f : PartSched → PartSched) (j : Nat) : (s.updSched p f).port j = s.port j := rfl
@[simp] theorem updSched_event (p : Nat) (f : PartSched → PartSched) (j : Nat) : (s.updSched p f).event j = s.event j := rfl
@[simp] theorem updSched_diePw (p : Nat) (f : PartSched → PartSched) (j : Nat) : (s.updSched p f).diePw j = s.diePw j := rfl
@[simp] theorem updSched_box (p : Nat) (f : PartSched → PartSched) (j : Nat) : (s.updSched p f).box j = s.box j := rfl
/-- The entry updated. -/
@[simp] theorem updSched_sched_same (p : Nat) (f : PartSched → PartSched) : (s.updSched p f).sched p = f (s.sched p) := by
  simp [State.updSched, State.sched]
/-- Every other entry. -/
theorem updSched_sched_ne {p j : Nat} (f : PartSched → PartSched) (h : j ≠ p) : (s.updSched p f).sched j = s.sched j := Tbl.get_set_ne _ _ _ h

/-! ### updPeer -/

@[simp] theorem updPeer_pending (p : Nat) (f : PartPeer → PartPeer) : (s.updPeer p f).pending = s.pending := rfl
@[simp] theorem updPeer_free (p : Nat) (f : PartPeer → PartPeer) : (s.updPeer p f).free = s.free := rfl
@[simp] theorem updPeer_ident (p : Nat) (f : PartPeer → PartPeer) : (s.updPeer p f).ident = s.ident := rfl
@[simp] theorem updPeer_boot (p : Nat) (f : PartPeer → PartPeer) : (s.updPeer p f).boot = s.boot := rfl
@[simp] theorem updPeer_time (p : Nat) (f : PartPeer → PartPeer) : (s.updPeer p f).time = s.time := rfl
@[simp] theorem updPeer_events (p : Nat) (f : PartPeer → PartPeer) : (s.updPeer p f).events = s.events := rfl
@[simp] theorem updPeer_firedNow (p : Nat) (f : PartPeer → PartPeer) : (s.updPeer p f).firedNow = s.firedNow := rfl
@[simp] theorem updPeer_stopSent (p : Nat) (f : PartPeer → PartPeer) : (s.updPeer p f).stopSent = s.stopSent := rfl
@[simp] theorem updPeer_firedStops (p : Nat) (f : PartPeer → PartPeer) : (s.updPeer p f).firedStops = s.firedStops := rfl
@[simp] theorem updPeer_capEvent (p : Nat) (f : PartPeer → PartPeer) : (s.updPeer p f).capEvent = s.capEvent := rfl
@[simp] theorem updPeer_mode (p : Nat) (f : PartPeer → PartPeer) : (s.updPeer p f).mode = s.mode := rfl
@[simp] theorem updPeer_pendingMode (p : Nat) (f : PartPeer → PartPeer) : (s.updPeer p f).pendingMode = s.pendingMode := rfl
@[simp] theorem updPeer_psec (p : Nat) (f : PartPeer → PartPeer) : (s.updPeer p f).psec = s.psec := rfl
@[simp] theorem updPeer_psched (p : Nat) (f : PartPeer → PartPeer) : (s.updPeer p f).psched = s.psched := rfl
@[simp] theorem updPeer_rings (p : Nat) (f : PartPeer → PartPeer) : (s.updPeer p f).rings = s.rings := rfl
@[simp] theorem updPeer_rooms (p : Nat) (f : PartPeer → PartPeer) : (s.updPeer p f).rooms = s.rooms := rfl
@[simp] theorem updPeer_mem (p : Nat) (f : PartPeer → PartPeer) : (s.updPeer p f).mem = s.mem := rfl
@[simp] theorem updPeer_link (p : Nat) (f : PartPeer → PartPeer) : (s.updPeer p f).link = s.link := rfl
@[simp] theorem updPeer_ports (p : Nat) (f : PartPeer → PartPeer) : (s.updPeer p f).ports = s.ports := rfl
@[simp] theorem updPeer_rank (p : Nat) (f : PartPeer → PartPeer) : (s.updPeer p f).rank = s.rank := rfl
@[simp] theorem updPeer_sec (p : Nat) (f : PartPeer → PartPeer) : (s.updPeer p f).sec = s.sec := rfl
@[simp] theorem updPeer_frozen (p : Nat) (f : PartPeer → PartPeer) : (s.updPeer p f).frozen = s.frozen := rfl
@[simp] theorem updPeer_pw (p : Nat) (f : PartPeer → PartPeer) : (s.updPeer p f).pw = s.pw := rfl
@[simp] theorem updPeer_dict (p : Nat) (f : PartPeer → PartPeer) : (s.updPeer p f).dict = s.dict := rfl
@[simp] theorem updPeer_can (p : Nat) (f : PartPeer → PartPeer) : (s.updPeer p f).can = s.can := rfl
@[simp] theorem updPeer_log (p : Nat) (f : PartPeer → PartPeer) : (s.updPeer p f).log = s.log := rfl
@[simp] theorem updPeer_svc (p : Nat) (f : PartPeer → PartPeer) : (s.updPeer p f).svc = s.svc := rfl
@[simp] theorem updPeer_tap (p : Nat) (f : PartPeer → PartPeer) : (s.updPeer p f).tap = s.tap := rfl
@[simp] theorem updPeer_ps (p : Nat) (f : PartPeer → PartPeer) (j : Nat) : (s.updPeer p f).ps j = s.ps j := rfl
@[simp] theorem updPeer_sched (p : Nat) (f : PartPeer → PartPeer) (j : Nat) : (s.updPeer p f).sched j = s.sched j := rfl
@[simp] theorem updPeer_ring (p : Nat) (f : PartPeer → PartPeer) (j : Nat) : (s.updPeer p f).ring j = s.ring j := rfl
@[simp] theorem updPeer_room (p : Nat) (f : PartPeer → PartPeer) (j : Nat) : (s.updPeer p f).room j = s.room j := rfl
@[simp] theorem updPeer_port (p : Nat) (f : PartPeer → PartPeer) (j : Nat) : (s.updPeer p f).port j = s.port j := rfl
@[simp] theorem updPeer_event (p : Nat) (f : PartPeer → PartPeer) (j : Nat) : (s.updPeer p f).event j = s.event j := rfl
@[simp] theorem updPeer_diePw (p : Nat) (f : PartPeer → PartPeer) (j : Nat) : (s.updPeer p f).diePw j = s.diePw j := rfl
@[simp] theorem updPeer_box (p : Nat) (f : PartPeer → PartPeer) (j : Nat) : (s.updPeer p f).box j = s.box j := rfl
/-- The entry updated. -/
@[simp] theorem updPeer_peer_same (p : Nat) (f : PartPeer → PartPeer) : (s.updPeer p f).peer p = f (s.peer p) := by
  simp [State.updPeer, State.peer]
/-- Every other entry. -/
theorem updPeer_peer_ne {p j : Nat} (f : PartPeer → PartPeer) (h : j ≠ p) : (s.updPeer p f).peer j = s.peer j := Tbl.get_set_ne _ _ _ h

/-! ### updRing -/

@[simp] theorem updRing_pending (n : Nat) (f : Ring → Ring) : (s.updRing n f).pending = s.pending := rfl
@[simp] theorem updRing_free (n : Nat) (f : Ring → Ring) : (s.updRing n f).free = s.free := rfl
@[simp] theorem updRing_ident (n : Nat) (f : Ring → Ring) : (s.updRing n f).ident = s.ident := rfl
@[simp] theorem updRing_boot (n : Nat) (f : Ring → Ring) : (s.updRing n f).boot = s.boot := rfl
@[simp] theorem updRing_time (n : Nat) (f : Ring → Ring) : (s.updRing n f).time = s.time := rfl
@[simp] theorem updRing_events (n : Nat) (f : Ring → Ring) : (s.updRing n f).events = s.events := rfl
@[simp] theorem updRing_firedNow (n : Nat) (f : Ring → Ring) : (s.updRing n f).firedNow = s.firedNow := rfl
@[simp] theorem updRing_stopSent (n : Nat) (f : Ring → Ring) : (s.updRing n f).stopSent = s.stopSent := rfl
@[simp] theorem updRing_firedStops (n : Nat) (f : Ring → Ring) : (s.updRing n f).firedStops = s.firedStops := rfl
@[simp] theorem updRing_capEvent (n : Nat) (f : Ring → Ring) : (s.updRing n f).capEvent = s.capEvent := rfl
@[simp] theorem updRing_mode (n : Nat) (f : Ring → Ring) : (s.updRing n f).mode = s.mode := rfl
@[simp] theorem updRing_pendingMode (n : Nat) (f : Ring → Ring) : (s.updRing n f).pendingMode = s.pendingMode := rfl
@[simp] theorem updRing_psec (n : Nat) (f : Ring → Ring) : (s.updRing n f).psec = s.psec := rfl
@[simp] theorem updRing_psched (n : Nat) (f : Ring → Ring) : (s.updRing n f).psched = s.psched := rfl
@[simp] theorem updRing_ppeer (n : Nat) (f : Ring → Ring) : (s.updRing n f).ppeer = s.ppeer := rfl
@[simp] theorem updRing_rooms (n : Nat) (f : Ring → Ring) : (s.updRing n f).rooms = s.rooms := rfl
@[simp] theorem updRing_mem (n : Nat) (f : Ring → Ring) : (s.updRing n f).mem = s.mem := rfl
@[simp] theorem updRing_link (n : Nat) (f : Ring → Ring) : (s.updRing n f).link = s.link := rfl
@[simp] theorem updRing_ports (n : Nat) (f : Ring → Ring) : (s.updRing n f).ports = s.ports := rfl
@[simp] theorem updRing_rank (n : Nat) (f : Ring → Ring) : (s.updRing n f).rank = s.rank := rfl
@[simp] theorem updRing_sec (n : Nat) (f : Ring → Ring) : (s.updRing n f).sec = s.sec := rfl
@[simp] theorem updRing_frozen (n : Nat) (f : Ring → Ring) : (s.updRing n f).frozen = s.frozen := rfl
@[simp] theorem updRing_pw (n : Nat) (f : Ring → Ring) : (s.updRing n f).pw = s.pw := rfl
@[simp] theorem updRing_dict (n : Nat) (f : Ring → Ring) : (s.updRing n f).dict = s.dict := rfl
@[simp] theorem updRing_can (n : Nat) (f : Ring → Ring) : (s.updRing n f).can = s.can := rfl
@[simp] theorem updRing_log (n : Nat) (f : Ring → Ring) : (s.updRing n f).log = s.log := rfl
@[simp] theorem updRing_svc (n : Nat) (f : Ring → Ring) : (s.updRing n f).svc = s.svc := rfl
@[simp] theorem updRing_tap (n : Nat) (f : Ring → Ring) : (s.updRing n f).tap = s.tap := rfl
@[simp] theorem updRing_ps (n : Nat) (f : Ring → Ring) (j : Nat) : (s.updRing n f).ps j = s.ps j := rfl
@[simp] theorem updRing_sched (n : Nat) (f : Ring → Ring) (j : Nat) : (s.updRing n f).sched j = s.sched j := rfl
@[simp] theorem updRing_peer (n : Nat) (f : Ring → Ring) (j : Nat) : (s.updRing n f).peer j = s.peer j := rfl
@[simp] theorem updRing_room (n : Nat) (f : Ring → Ring) (j : Nat) : (s.updRing n f).room j = s.room j := rfl
@[simp] theorem updRing_port (n : Nat) (f : Ring → Ring) (j : Nat) : (s.updRing n f).port j = s.port j := rfl
@[simp] theorem updRing_event (n : Nat) (f : Ring → Ring) (j : Nat) : (s.updRing n f).event j = s.event j := rfl
@[simp] theorem updRing_diePw (n : Nat) (f : Ring → Ring) (j : Nat) : (s.updRing n f).diePw j = s.diePw j := rfl
@[simp] theorem updRing_box (n : Nat) (f : Ring → Ring) (j : Nat) : (s.updRing n f).box j = s.box j := rfl
/-- The entry updated. -/
@[simp] theorem updRing_ring_same (n : Nat) (f : Ring → Ring) : (s.updRing n f).ring n = f (s.ring n) := by
  simp [State.updRing, State.ring]
/-- Every other entry. -/
theorem updRing_ring_ne {n j : Nat} (f : Ring → Ring) (h : j ≠ n) : (s.updRing n f).ring j = s.ring j := Tbl.get_set_ne _ _ _ h

/-! ### updRoom -/

@[simp] theorem updRoom_pending (n : Nat) (f : Room → Room) : (s.updRoom n f).pending = s.pending := rfl
@[simp] theorem updRoom_free (n : Nat) (f : Room → Room) : (s.updRoom n f).free = s.free := rfl
@[simp] theorem updRoom_ident (n : Nat) (f : Room → Room) : (s.updRoom n f).ident = s.ident := rfl
@[simp] theorem updRoom_boot (n : Nat) (f : Room → Room) : (s.updRoom n f).boot = s.boot := rfl
@[simp] theorem updRoom_time (n : Nat) (f : Room → Room) : (s.updRoom n f).time = s.time := rfl
@[simp] theorem updRoom_events (n : Nat) (f : Room → Room) : (s.updRoom n f).events = s.events := rfl
@[simp] theorem updRoom_firedNow (n : Nat) (f : Room → Room) : (s.updRoom n f).firedNow = s.firedNow := rfl
@[simp] theorem updRoom_stopSent (n : Nat) (f : Room → Room) : (s.updRoom n f).stopSent = s.stopSent := rfl
@[simp] theorem updRoom_firedStops (n : Nat) (f : Room → Room) : (s.updRoom n f).firedStops = s.firedStops := rfl
@[simp] theorem updRoom_capEvent (n : Nat) (f : Room → Room) : (s.updRoom n f).capEvent = s.capEvent := rfl
@[simp] theorem updRoom_mode (n : Nat) (f : Room → Room) : (s.updRoom n f).mode = s.mode := rfl
@[simp] theorem updRoom_pendingMode (n : Nat) (f : Room → Room) : (s.updRoom n f).pendingMode = s.pendingMode := rfl
@[simp] theorem updRoom_psec (n : Nat) (f : Room → Room) : (s.updRoom n f).psec = s.psec := rfl
@[simp] theorem updRoom_psched (n : Nat) (f : Room → Room) : (s.updRoom n f).psched = s.psched := rfl
@[simp] theorem updRoom_ppeer (n : Nat) (f : Room → Room) : (s.updRoom n f).ppeer = s.ppeer := rfl
@[simp] theorem updRoom_rings (n : Nat) (f : Room → Room) : (s.updRoom n f).rings = s.rings := rfl
@[simp] theorem updRoom_mem (n : Nat) (f : Room → Room) : (s.updRoom n f).mem = s.mem := rfl
@[simp] theorem updRoom_link (n : Nat) (f : Room → Room) : (s.updRoom n f).link = s.link := rfl
@[simp] theorem updRoom_ports (n : Nat) (f : Room → Room) : (s.updRoom n f).ports = s.ports := rfl
@[simp] theorem updRoom_rank (n : Nat) (f : Room → Room) : (s.updRoom n f).rank = s.rank := rfl
@[simp] theorem updRoom_sec (n : Nat) (f : Room → Room) : (s.updRoom n f).sec = s.sec := rfl
@[simp] theorem updRoom_frozen (n : Nat) (f : Room → Room) : (s.updRoom n f).frozen = s.frozen := rfl
@[simp] theorem updRoom_pw (n : Nat) (f : Room → Room) : (s.updRoom n f).pw = s.pw := rfl
@[simp] theorem updRoom_dict (n : Nat) (f : Room → Room) : (s.updRoom n f).dict = s.dict := rfl
@[simp] theorem updRoom_can (n : Nat) (f : Room → Room) : (s.updRoom n f).can = s.can := rfl
@[simp] theorem updRoom_log (n : Nat) (f : Room → Room) : (s.updRoom n f).log = s.log := rfl
@[simp] theorem updRoom_svc (n : Nat) (f : Room → Room) : (s.updRoom n f).svc = s.svc := rfl
@[simp] theorem updRoom_tap (n : Nat) (f : Room → Room) : (s.updRoom n f).tap = s.tap := rfl
@[simp] theorem updRoom_ps (n : Nat) (f : Room → Room) (j : Nat) : (s.updRoom n f).ps j = s.ps j := rfl
@[simp] theorem updRoom_sched (n : Nat) (f : Room → Room) (j : Nat) : (s.updRoom n f).sched j = s.sched j := rfl
@[simp] theorem updRoom_peer (n : Nat) (f : Room → Room) (j : Nat) : (s.updRoom n f).peer j = s.peer j := rfl
@[simp] theorem updRoom_ring (n : Nat) (f : Room → Room) (j : Nat) : (s.updRoom n f).ring j = s.ring j := rfl
@[simp] theorem updRoom_port (n : Nat) (f : Room → Room) (j : Nat) : (s.updRoom n f).port j = s.port j := rfl
@[simp] theorem updRoom_event (n : Nat) (f : Room → Room) (j : Nat) : (s.updRoom n f).event j = s.event j := rfl
@[simp] theorem updRoom_diePw (n : Nat) (f : Room → Room) (j : Nat) : (s.updRoom n f).diePw j = s.diePw j := rfl
@[simp] theorem updRoom_box (n : Nat) (f : Room → Room) (j : Nat) : (s.updRoom n f).box j = s.box j := rfl
/-- The entry updated. -/
@[simp] theorem updRoom_room_same (n : Nat) (f : Room → Room) : (s.updRoom n f).room n = f (s.room n) := by
  simp [State.updRoom, State.room]
/-- Every other entry. -/
theorem updRoom_room_ne {n j : Nat} (f : Room → Room) (h : j ≠ n) : (s.updRoom n f).room j = s.room j := Tbl.get_set_ne _ _ _ h

/-! ### updPort -/

@[simp] theorem updPort_pending (n : Nat) (f : Port → Port) : (s.updPort n f).pending = s.pending := rfl
@[simp] theorem updPort_free (n : Nat) (f : Port → Port) : (s.updPort n f).free = s.free := rfl
@[simp] theorem updPort_ident (n : Nat) (f : Port → Port) : (s.updPort n f).ident = s.ident := rfl
@[simp] theorem updPort_boot (n : Nat) (f : Port → Port) : (s.updPort n f).boot = s.boot := rfl
@[simp] theorem updPort_time (n : Nat) (f : Port → Port) : (s.updPort n f).time = s.time := rfl
@[simp] theorem updPort_events (n : Nat) (f : Port → Port) : (s.updPort n f).events = s.events := rfl
@[simp] theorem updPort_firedNow (n : Nat) (f : Port → Port) : (s.updPort n f).firedNow = s.firedNow := rfl
@[simp] theorem updPort_stopSent (n : Nat) (f : Port → Port) : (s.updPort n f).stopSent = s.stopSent := rfl
@[simp] theorem updPort_firedStops (n : Nat) (f : Port → Port) : (s.updPort n f).firedStops = s.firedStops := rfl
@[simp] theorem updPort_capEvent (n : Nat) (f : Port → Port) : (s.updPort n f).capEvent = s.capEvent := rfl
@[simp] theorem updPort_mode (n : Nat) (f : Port → Port) : (s.updPort n f).mode = s.mode := rfl
@[simp] theorem updPort_pendingMode (n : Nat) (f : Port → Port) : (s.updPort n f).pendingMode = s.pendingMode := rfl
@[simp] theorem updPort_psec (n : Nat) (f : Port → Port) : (s.updPort n f).psec = s.psec := rfl
@[simp] theorem updPort_psched (n : Nat) (f : Port → Port) : (s.updPort n f).psched = s.psched := rfl
@[simp] theorem updPort_ppeer (n : Nat) (f : Port → Port) : (s.updPort n f).ppeer = s.ppeer := rfl
@[simp] theorem updPort_rings (n : Nat) (f : Port → Port) : (s.updPort n f).rings = s.rings := rfl
@[simp] theorem updPort_rooms (n : Nat) (f : Port → Port) : (s.updPort n f).rooms = s.rooms := rfl
@[simp] theorem updPort_mem (n : Nat) (f : Port → Port) : (s.updPort n f).mem = s.mem := rfl
@[simp] theorem updPort_link (n : Nat) (f : Port → Port) : (s.updPort n f).link = s.link := rfl
@[simp] theorem updPort_rank (n : Nat) (f : Port → Port) : (s.updPort n f).rank = s.rank := rfl
@[simp] theorem updPort_sec (n : Nat) (f : Port → Port) : (s.updPort n f).sec = s.sec := rfl
@[simp] theorem updPort_frozen (n : Nat) (f : Port → Port) : (s.updPort n f).frozen = s.frozen := rfl
@[simp] theorem updPort_pw (n : Nat) (f : Port → Port) : (s.updPort n f).pw = s.pw := rfl
@[simp] theorem updPort_dict (n : Nat) (f : Port → Port) : (s.updPort n f).dict = s.dict := rfl
@[simp] theorem updPort_can (n : Nat) (f : Port → Port) : (s.updPort n f).can = s.can := rfl
@[simp] theorem updPort_log (n : Nat) (f : Port → Port) : (s.updPort n f).log = s.log := rfl
@[simp] theorem updPort_svc (n : Nat) (f : Port → Port) : (s.updPort n f).svc = s.svc := rfl
@[simp] theorem updPort_tap (n : Nat) (f : Port → Port) : (s.updPort n f).tap = s.tap := rfl
@[simp] theorem updPort_ps (n : Nat) (f : Port → Port) (j : Nat) : (s.updPort n f).ps j = s.ps j := rfl
@[simp] theorem updPort_sched (n : Nat) (f : Port → Port) (j : Nat) : (s.updPort n f).sched j = s.sched j := rfl
@[simp] theorem updPort_peer (n : Nat) (f : Port → Port) (j : Nat) : (s.updPort n f).peer j = s.peer j := rfl
@[simp] theorem updPort_ring (n : Nat) (f : Port → Port) (j : Nat) : (s.updPort n f).ring j = s.ring j := rfl
@[simp] theorem updPort_room (n : Nat) (f : Port → Port) (j : Nat) : (s.updPort n f).room j = s.room j := rfl
@[simp] theorem updPort_event (n : Nat) (f : Port → Port) (j : Nat) : (s.updPort n f).event j = s.event j := rfl
@[simp] theorem updPort_diePw (n : Nat) (f : Port → Port) (j : Nat) : (s.updPort n f).diePw j = s.diePw j := rfl
@[simp] theorem updPort_box (n : Nat) (f : Port → Port) (j : Nat) : (s.updPort n f).box j = s.box j := rfl
/-- The entry updated. -/
@[simp] theorem updPort_port_same (n : Nat) (f : Port → Port) : (s.updPort n f).port n = f (s.port n) := by
  simp [State.updPort, State.port]
/-- Every other entry. -/
theorem updPort_port_ne {n j : Nat} (f : Port → Port) (h : j ≠ n) : (s.updPort n f).port j = s.port j := Tbl.get_set_ne _ _ _ h

/-! ### updEvent -/

@[simp] theorem updEvent_pending (n : Nat) (f : EventEntry → EventEntry) : (s.updEvent n f).pending = s.pending := rfl
@[simp] theorem updEvent_free (n : Nat) (f : EventEntry → EventEntry) : (s.updEvent n f).free = s.free := rfl
@[simp] theorem updEvent_ident (n : Nat) (f : EventEntry → EventEntry) : (s.updEvent n f).ident = s.ident := rfl
@[simp] theorem updEvent_boot (n : Nat) (f : EventEntry → EventEntry) : (s.updEvent n f).boot = s.boot := rfl
@[simp] theorem updEvent_time (n : Nat) (f : EventEntry → EventEntry) : (s.updEvent n f).time = s.time := rfl
@[simp] theorem updEvent_firedNow (n : Nat) (f : EventEntry → EventEntry) : (s.updEvent n f).firedNow = s.firedNow := rfl
@[simp] theorem updEvent_stopSent (n : Nat) (f : EventEntry → EventEntry) : (s.updEvent n f).stopSent = s.stopSent := rfl
@[simp] theorem updEvent_firedStops (n : Nat) (f : EventEntry → EventEntry) : (s.updEvent n f).firedStops = s.firedStops := rfl
@[simp] theorem updEvent_capEvent (n : Nat) (f : EventEntry → EventEntry) : (s.updEvent n f).capEvent = s.capEvent := rfl
@[simp] theorem updEvent_mode (n : Nat) (f : EventEntry → EventEntry) : (s.updEvent n f).mode = s.mode := rfl
@[simp] theorem updEvent_pendingMode (n : Nat) (f : EventEntry → EventEntry) : (s.updEvent n f).pendingMode = s.pendingMode := rfl
@[simp] theorem updEvent_psec (n : Nat) (f : EventEntry → EventEntry) : (s.updEvent n f).psec = s.psec := rfl
@[simp] theorem updEvent_psched (n : Nat) (f : EventEntry → EventEntry) : (s.updEvent n f).psched = s.psched := rfl
@[simp] theorem updEvent_ppeer (n : Nat) (f : EventEntry → EventEntry) : (s.updEvent n f).ppeer = s.ppeer := rfl
@[simp] theorem updEvent_rings (n : Nat) (f : EventEntry → EventEntry) : (s.updEvent n f).rings = s.rings := rfl
@[simp] theorem updEvent_rooms (n : Nat) (f : EventEntry → EventEntry) : (s.updEvent n f).rooms = s.rooms := rfl
@[simp] theorem updEvent_mem (n : Nat) (f : EventEntry → EventEntry) : (s.updEvent n f).mem = s.mem := rfl
@[simp] theorem updEvent_link (n : Nat) (f : EventEntry → EventEntry) : (s.updEvent n f).link = s.link := rfl
@[simp] theorem updEvent_ports (n : Nat) (f : EventEntry → EventEntry) : (s.updEvent n f).ports = s.ports := rfl
@[simp] theorem updEvent_rank (n : Nat) (f : EventEntry → EventEntry) : (s.updEvent n f).rank = s.rank := rfl
@[simp] theorem updEvent_sec (n : Nat) (f : EventEntry → EventEntry) : (s.updEvent n f).sec = s.sec := rfl
@[simp] theorem updEvent_frozen (n : Nat) (f : EventEntry → EventEntry) : (s.updEvent n f).frozen = s.frozen := rfl
@[simp] theorem updEvent_pw (n : Nat) (f : EventEntry → EventEntry) : (s.updEvent n f).pw = s.pw := rfl
@[simp] theorem updEvent_dict (n : Nat) (f : EventEntry → EventEntry) : (s.updEvent n f).dict = s.dict := rfl
@[simp] theorem updEvent_can (n : Nat) (f : EventEntry → EventEntry) : (s.updEvent n f).can = s.can := rfl
@[simp] theorem updEvent_log (n : Nat) (f : EventEntry → EventEntry) : (s.updEvent n f).log = s.log := rfl
@[simp] theorem updEvent_svc (n : Nat) (f : EventEntry → EventEntry) : (s.updEvent n f).svc = s.svc := rfl
@[simp] theorem updEvent_tap (n : Nat) (f : EventEntry → EventEntry) : (s.updEvent n f).tap = s.tap := rfl
@[simp] theorem updEvent_ps (n : Nat) (f : EventEntry → EventEntry) (j : Nat) : (s.updEvent n f).ps j = s.ps j := rfl
@[simp] theorem updEvent_sched (n : Nat) (f : EventEntry → EventEntry) (j : Nat) : (s.updEvent n f).sched j = s.sched j := rfl
@[simp] theorem updEvent_peer (n : Nat) (f : EventEntry → EventEntry) (j : Nat) : (s.updEvent n f).peer j = s.peer j := rfl
@[simp] theorem updEvent_ring (n : Nat) (f : EventEntry → EventEntry) (j : Nat) : (s.updEvent n f).ring j = s.ring j := rfl
@[simp] theorem updEvent_room (n : Nat) (f : EventEntry → EventEntry) (j : Nat) : (s.updEvent n f).room j = s.room j := rfl
@[simp] theorem updEvent_port (n : Nat) (f : EventEntry → EventEntry) (j : Nat) : (s.updEvent n f).port j = s.port j := rfl
@[simp] theorem updEvent_diePw (n : Nat) (f : EventEntry → EventEntry) (j : Nat) : (s.updEvent n f).diePw j = s.diePw j := rfl
@[simp] theorem updEvent_box (n : Nat) (f : EventEntry → EventEntry) (j : Nat) : (s.updEvent n f).box j = s.box j := rfl
/-- The entry updated. -/
@[simp] theorem updEvent_event_same (n : Nat) (f : EventEntry → EventEntry) : (s.updEvent n f).event n = f (s.event n) := by
  simp [State.updEvent, State.event]
/-- Every other entry. -/
theorem updEvent_event_ne {n j : Nat} (f : EventEntry → EventEntry) (h : j ≠ n) : (s.updEvent n f).event j = s.event j := Tbl.get_set_ne _ _ _ h

/-! ### updDie -/

@[simp] theorem updDie_pending (d : Nat) (f : DiePower → DiePower) : (s.updDie d f).pending = s.pending := rfl
@[simp] theorem updDie_free (d : Nat) (f : DiePower → DiePower) : (s.updDie d f).free = s.free := rfl
@[simp] theorem updDie_ident (d : Nat) (f : DiePower → DiePower) : (s.updDie d f).ident = s.ident := rfl
@[simp] theorem updDie_boot (d : Nat) (f : DiePower → DiePower) : (s.updDie d f).boot = s.boot := rfl
@[simp] theorem updDie_time (d : Nat) (f : DiePower → DiePower) : (s.updDie d f).time = s.time := rfl
@[simp] theorem updDie_events (d : Nat) (f : DiePower → DiePower) : (s.updDie d f).events = s.events := rfl
@[simp] theorem updDie_firedNow (d : Nat) (f : DiePower → DiePower) : (s.updDie d f).firedNow = s.firedNow := rfl
@[simp] theorem updDie_stopSent (d : Nat) (f : DiePower → DiePower) : (s.updDie d f).stopSent = s.stopSent := rfl
@[simp] theorem updDie_firedStops (d : Nat) (f : DiePower → DiePower) : (s.updDie d f).firedStops = s.firedStops := rfl
@[simp] theorem updDie_capEvent (d : Nat) (f : DiePower → DiePower) : (s.updDie d f).capEvent = s.capEvent := rfl
@[simp] theorem updDie_mode (d : Nat) (f : DiePower → DiePower) : (s.updDie d f).mode = s.mode := rfl
@[simp] theorem updDie_pendingMode (d : Nat) (f : DiePower → DiePower) : (s.updDie d f).pendingMode = s.pendingMode := rfl
@[simp] theorem updDie_psec (d : Nat) (f : DiePower → DiePower) : (s.updDie d f).psec = s.psec := rfl
@[simp] theorem updDie_psched (d : Nat) (f : DiePower → DiePower) : (s.updDie d f).psched = s.psched := rfl
@[simp] theorem updDie_ppeer (d : Nat) (f : DiePower → DiePower) : (s.updDie d f).ppeer = s.ppeer := rfl
@[simp] theorem updDie_rings (d : Nat) (f : DiePower → DiePower) : (s.updDie d f).rings = s.rings := rfl
@[simp] theorem updDie_rooms (d : Nat) (f : DiePower → DiePower) : (s.updDie d f).rooms = s.rooms := rfl
@[simp] theorem updDie_mem (d : Nat) (f : DiePower → DiePower) : (s.updDie d f).mem = s.mem := rfl
@[simp] theorem updDie_link (d : Nat) (f : DiePower → DiePower) : (s.updDie d f).link = s.link := rfl
@[simp] theorem updDie_ports (d : Nat) (f : DiePower → DiePower) : (s.updDie d f).ports = s.ports := rfl
@[simp] theorem updDie_rank (d : Nat) (f : DiePower → DiePower) : (s.updDie d f).rank = s.rank := rfl
@[simp] theorem updDie_sec (d : Nat) (f : DiePower → DiePower) : (s.updDie d f).sec = s.sec := rfl
@[simp] theorem updDie_frozen (d : Nat) (f : DiePower → DiePower) : (s.updDie d f).frozen = s.frozen := rfl
@[simp] theorem updDie_dict (d : Nat) (f : DiePower → DiePower) : (s.updDie d f).dict = s.dict := rfl
@[simp] theorem updDie_can (d : Nat) (f : DiePower → DiePower) : (s.updDie d f).can = s.can := rfl
@[simp] theorem updDie_log (d : Nat) (f : DiePower → DiePower) : (s.updDie d f).log = s.log := rfl
@[simp] theorem updDie_svc (d : Nat) (f : DiePower → DiePower) : (s.updDie d f).svc = s.svc := rfl
@[simp] theorem updDie_tap (d : Nat) (f : DiePower → DiePower) : (s.updDie d f).tap = s.tap := rfl
@[simp] theorem updDie_ps (d : Nat) (f : DiePower → DiePower) (j : Nat) : (s.updDie d f).ps j = s.ps j := rfl
@[simp] theorem updDie_sched (d : Nat) (f : DiePower → DiePower) (j : Nat) : (s.updDie d f).sched j = s.sched j := rfl
@[simp] theorem updDie_peer (d : Nat) (f : DiePower → DiePower) (j : Nat) : (s.updDie d f).peer j = s.peer j := rfl
@[simp] theorem updDie_ring (d : Nat) (f : DiePower → DiePower) (j : Nat) : (s.updDie d f).ring j = s.ring j := rfl
@[simp] theorem updDie_room (d : Nat) (f : DiePower → DiePower) (j : Nat) : (s.updDie d f).room j = s.room j := rfl
@[simp] theorem updDie_port (d : Nat) (f : DiePower → DiePower) (j : Nat) : (s.updDie d f).port j = s.port j := rfl
@[simp] theorem updDie_event (d : Nat) (f : DiePower → DiePower) (j : Nat) : (s.updDie d f).event j = s.event j := rfl
@[simp] theorem updDie_box (d : Nat) (f : DiePower → DiePower) (j : Nat) : (s.updDie d f).box j = s.box j := rfl
/-- The entry updated. -/
@[simp] theorem updDie_diePw_same (d : Nat) (f : DiePower → DiePower) : (s.updDie d f).diePw d = f (s.diePw d) := by
  simp [State.updDie, State.diePw]
/-- Every other entry. -/
theorem updDie_diePw_ne {d j : Nat} (f : DiePower → DiePower) (h : j ≠ d) : (s.updDie d f).diePw j = s.diePw j := Tbl.get_set_ne _ _ _ h

/-! ### updBox -/

@[simp] theorem updBox_pending (m : Nat) (f : Mailbox → Mailbox) : (s.updBox m f).pending = s.pending := rfl
@[simp] theorem updBox_free (m : Nat) (f : Mailbox → Mailbox) : (s.updBox m f).free = s.free := rfl
@[simp] theorem updBox_ident (m : Nat) (f : Mailbox → Mailbox) : (s.updBox m f).ident = s.ident := rfl
@[simp] theorem updBox_boot (m : Nat) (f : Mailbox → Mailbox) : (s.updBox m f).boot = s.boot := rfl
@[simp] theorem updBox_time (m : Nat) (f : Mailbox → Mailbox) : (s.updBox m f).time = s.time := rfl
@[simp] theorem updBox_events (m : Nat) (f : Mailbox → Mailbox) : (s.updBox m f).events = s.events := rfl
@[simp] theorem updBox_firedNow (m : Nat) (f : Mailbox → Mailbox) : (s.updBox m f).firedNow = s.firedNow := rfl
@[simp] theorem updBox_stopSent (m : Nat) (f : Mailbox → Mailbox) : (s.updBox m f).stopSent = s.stopSent := rfl
@[simp] theorem updBox_firedStops (m : Nat) (f : Mailbox → Mailbox) : (s.updBox m f).firedStops = s.firedStops := rfl
@[simp] theorem updBox_capEvent (m : Nat) (f : Mailbox → Mailbox) : (s.updBox m f).capEvent = s.capEvent := rfl
@[simp] theorem updBox_mode (m : Nat) (f : Mailbox → Mailbox) : (s.updBox m f).mode = s.mode := rfl
@[simp] theorem updBox_pendingMode (m : Nat) (f : Mailbox → Mailbox) : (s.updBox m f).pendingMode = s.pendingMode := rfl
@[simp] theorem updBox_psec (m : Nat) (f : Mailbox → Mailbox) : (s.updBox m f).psec = s.psec := rfl
@[simp] theorem updBox_psched (m : Nat) (f : Mailbox → Mailbox) : (s.updBox m f).psched = s.psched := rfl
@[simp] theorem updBox_ppeer (m : Nat) (f : Mailbox → Mailbox) : (s.updBox m f).ppeer = s.ppeer := rfl
@[simp] theorem updBox_rings (m : Nat) (f : Mailbox → Mailbox) : (s.updBox m f).rings = s.rings := rfl
@[simp] theorem updBox_rooms (m : Nat) (f : Mailbox → Mailbox) : (s.updBox m f).rooms = s.rooms := rfl
@[simp] theorem updBox_mem (m : Nat) (f : Mailbox → Mailbox) : (s.updBox m f).mem = s.mem := rfl
@[simp] theorem updBox_ports (m : Nat) (f : Mailbox → Mailbox) : (s.updBox m f).ports = s.ports := rfl
@[simp] theorem updBox_rank (m : Nat) (f : Mailbox → Mailbox) : (s.updBox m f).rank = s.rank := rfl
@[simp] theorem updBox_sec (m : Nat) (f : Mailbox → Mailbox) : (s.updBox m f).sec = s.sec := rfl
@[simp] theorem updBox_frozen (m : Nat) (f : Mailbox → Mailbox) : (s.updBox m f).frozen = s.frozen := rfl
@[simp] theorem updBox_pw (m : Nat) (f : Mailbox → Mailbox) : (s.updBox m f).pw = s.pw := rfl
@[simp] theorem updBox_dict (m : Nat) (f : Mailbox → Mailbox) : (s.updBox m f).dict = s.dict := rfl
@[simp] theorem updBox_can (m : Nat) (f : Mailbox → Mailbox) : (s.updBox m f).can = s.can := rfl
@[simp] theorem updBox_log (m : Nat) (f : Mailbox → Mailbox) : (s.updBox m f).log = s.log := rfl
@[simp] theorem updBox_svc (m : Nat) (f : Mailbox → Mailbox) : (s.updBox m f).svc = s.svc := rfl
@[simp] theorem updBox_tap (m : Nat) (f : Mailbox → Mailbox) : (s.updBox m f).tap = s.tap := rfl
@[simp] theorem updBox_ps (m : Nat) (f : Mailbox → Mailbox) (j : Nat) : (s.updBox m f).ps j = s.ps j := rfl
@[simp] theorem updBox_sched (m : Nat) (f : Mailbox → Mailbox) (j : Nat) : (s.updBox m f).sched j = s.sched j := rfl
@[simp] theorem updBox_peer (m : Nat) (f : Mailbox → Mailbox) (j : Nat) : (s.updBox m f).peer j = s.peer j := rfl
@[simp] theorem updBox_ring (m : Nat) (f : Mailbox → Mailbox) (j : Nat) : (s.updBox m f).ring j = s.ring j := rfl
@[simp] theorem updBox_room (m : Nat) (f : Mailbox → Mailbox) (j : Nat) : (s.updBox m f).room j = s.room j := rfl
@[simp] theorem updBox_port (m : Nat) (f : Mailbox → Mailbox) (j : Nat) : (s.updBox m f).port j = s.port j := rfl
@[simp] theorem updBox_event (m : Nat) (f : Mailbox → Mailbox) (j : Nat) : (s.updBox m f).event j = s.event j := rfl
@[simp] theorem updBox_diePw (m : Nat) (f : Mailbox → Mailbox) (j : Nat) : (s.updBox m f).diePw j = s.diePw j := rfl
/-- The entry updated. -/
@[simp] theorem updBox_box_same (m : Nat) (f : Mailbox → Mailbox) : (s.updBox m f).box m = f (s.box m) := by
  simp [State.updBox, State.box]
/-- Every other entry. -/
theorem updBox_box_ne {m j : Nat} (f : Mailbox → Mailbox) (h : j ≠ m) : (s.updBox m f).box j = s.box j := Tbl.get_set_ne _ _ _ h

/-! ### setMem, takeFree -/

@[simp] theorem setMem_pending (m : MemSys) : (s.setMem m).pending = s.pending := rfl
@[simp] theorem setMem_free (m : MemSys) : (s.setMem m).free = s.free := rfl
@[simp] theorem setMem_ident (m : MemSys) : (s.setMem m).ident = s.ident := rfl
@[simp] theorem setMem_boot (m : MemSys) : (s.setMem m).boot = s.boot := rfl
@[simp] theorem setMem_time (m : MemSys) : (s.setMem m).time = s.time := rfl
@[simp] theorem setMem_events (m : MemSys) : (s.setMem m).events = s.events := rfl
@[simp] theorem setMem_firedNow (m : MemSys) : (s.setMem m).firedNow = s.firedNow := rfl
@[simp] theorem setMem_stopSent (m : MemSys) : (s.setMem m).stopSent = s.stopSent := rfl
@[simp] theorem setMem_firedStops (m : MemSys) : (s.setMem m).firedStops = s.firedStops := rfl
@[simp] theorem setMem_capEvent (m : MemSys) : (s.setMem m).capEvent = s.capEvent := rfl
@[simp] theorem setMem_mode (m : MemSys) : (s.setMem m).mode = s.mode := rfl
@[simp] theorem setMem_pendingMode (m : MemSys) : (s.setMem m).pendingMode = s.pendingMode := rfl
@[simp] theorem setMem_psec (m : MemSys) : (s.setMem m).psec = s.psec := rfl
@[simp] theorem setMem_psched (m : MemSys) : (s.setMem m).psched = s.psched := rfl
@[simp] theorem setMem_ppeer (m : MemSys) : (s.setMem m).ppeer = s.ppeer := rfl
@[simp] theorem setMem_rings (m : MemSys) : (s.setMem m).rings = s.rings := rfl
@[simp] theorem setMem_rooms (m : MemSys) : (s.setMem m).rooms = s.rooms := rfl
@[simp] theorem setMem_link (m : MemSys) : (s.setMem m).link = s.link := rfl
@[simp] theorem setMem_ports (m : MemSys) : (s.setMem m).ports = s.ports := rfl
@[simp] theorem setMem_rank (m : MemSys) : (s.setMem m).rank = s.rank := rfl
@[simp] theorem setMem_sec (m : MemSys) : (s.setMem m).sec = s.sec := rfl
@[simp] theorem setMem_frozen (m : MemSys) : (s.setMem m).frozen = s.frozen := rfl
@[simp] theorem setMem_pw (m : MemSys) : (s.setMem m).pw = s.pw := rfl
@[simp] theorem setMem_dict (m : MemSys) : (s.setMem m).dict = s.dict := rfl
@[simp] theorem setMem_can (m : MemSys) : (s.setMem m).can = s.can := rfl
@[simp] theorem setMem_log (m : MemSys) : (s.setMem m).log = s.log := rfl
@[simp] theorem setMem_svc (m : MemSys) : (s.setMem m).svc = s.svc := rfl
@[simp] theorem setMem_tap (m : MemSys) : (s.setMem m).tap = s.tap := rfl
@[simp] theorem setMem_mem (m : MemSys) : (s.setMem m).mem = m := rfl
@[simp] theorem setMem_ps (m : MemSys) (j : Nat) : (s.setMem m).ps j = s.ps j := rfl
@[simp] theorem setMem_sched (m : MemSys) (j : Nat) : (s.setMem m).sched j = s.sched j := rfl
@[simp] theorem setMem_peer (m : MemSys) (j : Nat) : (s.setMem m).peer j = s.peer j := rfl
@[simp] theorem setMem_ring (m : MemSys) (j : Nat) : (s.setMem m).ring j = s.ring j := rfl
@[simp] theorem setMem_room (m : MemSys) (j : Nat) : (s.setMem m).room j = s.room j := rfl
@[simp] theorem setMem_port (m : MemSys) (j : Nat) : (s.setMem m).port j = s.port j := rfl
@[simp] theorem setMem_event (m : MemSys) (j : Nat) : (s.setMem m).event j = s.event j := rfl
@[simp] theorem setMem_diePw (m : MemSys) (j : Nat) : (s.setMem m).diePw j = s.diePw j := rfl
@[simp] theorem setMem_box (m : MemSys) (j : Nat) : (s.setMem m).box j = s.box j := rfl
@[simp] theorem takeFree_pending : s.takeFree.2.pending = s.pending := rfl
@[simp] theorem takeFree_ident : s.takeFree.2.ident = s.ident := rfl
@[simp] theorem takeFree_boot : s.takeFree.2.boot = s.boot := rfl
@[simp] theorem takeFree_time : s.takeFree.2.time = s.time := rfl
@[simp] theorem takeFree_events : s.takeFree.2.events = s.events := rfl
@[simp] theorem takeFree_firedNow : s.takeFree.2.firedNow = s.firedNow := rfl
@[simp] theorem takeFree_stopSent : s.takeFree.2.stopSent = s.stopSent := rfl
@[simp] theorem takeFree_firedStops : s.takeFree.2.firedStops = s.firedStops := rfl
@[simp] theorem takeFree_capEvent : s.takeFree.2.capEvent = s.capEvent := rfl
@[simp] theorem takeFree_mode : s.takeFree.2.mode = s.mode := rfl
@[simp] theorem takeFree_pendingMode : s.takeFree.2.pendingMode = s.pendingMode := rfl
@[simp] theorem takeFree_psec : s.takeFree.2.psec = s.psec := rfl
@[simp] theorem takeFree_psched : s.takeFree.2.psched = s.psched := rfl
@[simp] theorem takeFree_ppeer : s.takeFree.2.ppeer = s.ppeer := rfl
@[simp] theorem takeFree_rings : s.takeFree.2.rings = s.rings := rfl
@[simp] theorem takeFree_rooms : s.takeFree.2.rooms = s.rooms := rfl
@[simp] theorem takeFree_mem : s.takeFree.2.mem = s.mem := rfl
@[simp] theorem takeFree_link : s.takeFree.2.link = s.link := rfl
@[simp] theorem takeFree_ports : s.takeFree.2.ports = s.ports := rfl
@[simp] theorem takeFree_rank : s.takeFree.2.rank = s.rank := rfl
@[simp] theorem takeFree_sec : s.takeFree.2.sec = s.sec := rfl
@[simp] theorem takeFree_frozen : s.takeFree.2.frozen = s.frozen := rfl
@[simp] theorem takeFree_pw : s.takeFree.2.pw = s.pw := rfl
@[simp] theorem takeFree_dict : s.takeFree.2.dict = s.dict := rfl
@[simp] theorem takeFree_can : s.takeFree.2.can = s.can := rfl
@[simp] theorem takeFree_log : s.takeFree.2.log = s.log := rfl
@[simp] theorem takeFree_svc : s.takeFree.2.svc = s.svc := rfl
@[simp] theorem takeFree_tap : s.takeFree.2.tap = s.tap := rfl
@[simp] theorem takeFree_number : s.takeFree.1 = s.free := rfl
@[simp] theorem takeFree_free : s.takeFree.2.free = s.free + 1 := rfl
@[simp] theorem takeFree_ps (j : Nat) : s.takeFree.2.ps j = s.ps j := rfl
@[simp] theorem takeFree_sched (j : Nat) : s.takeFree.2.sched j = s.sched j := rfl
@[simp] theorem takeFree_peer (j : Nat) : s.takeFree.2.peer j = s.peer j := rfl
@[simp] theorem takeFree_ring (j : Nat) : s.takeFree.2.ring j = s.ring j := rfl
@[simp] theorem takeFree_room (j : Nat) : s.takeFree.2.room j = s.room j := rfl
@[simp] theorem takeFree_port (j : Nat) : s.takeFree.2.port j = s.port j := rfl
@[simp] theorem takeFree_event (j : Nat) : s.takeFree.2.event j = s.event j := rfl
@[simp] theorem takeFree_diePw (j : Nat) : s.takeFree.2.diePw j = s.diePw j := rfl
@[simp] theorem takeFree_box (j : Nat) : s.takeFree.2.box j = s.box j := rfl

/-- After reset the presence masks are those of the grade (R1). -/
theorem reset_ident_ok : State.reset.ident.ok = true := by decide +kernel

end Sys2Proof.Machine
end

