-- ==== Sys2Proof/Laws/Keeps.lean ====
section
/-! SUPPORT. What no command disturbs, as a relation that every operation keeps: the queue and the fuses stay, the free counter and the
fused minimum security version never fall, the stacks' memory stays in canonical form. -/

namespace Sys2Proof.Machine

/-- The later state leaves the queue and the fuses alone, and keeps what must be kept. -/
structure State.Keeps (s t : State) : Prop where
  pending : t.pending = s.pending
  ident : t.ident = s.ident
  free : s.free ≤ t.free
  svn : s.boot.svnMin.toNat ≤ t.boot.svnMin.toNat
  mem : s.mem.ok → t.mem.ok

/-- The same of what a command answers: it answers a next state. -/
def Out.Keeps (s : State) (o : Out) : Prop := ∃ t, o = .next t ∧ s.Keeps t

namespace State.Keeps

variable {s t u : State}

theorem refl (s : State) : s.Keeps s := ⟨rfl, rfl, Nat.le_refl _, Nat.le_refl _, id⟩

theorem trans (h : s.Keeps t) (g : t.Keeps u) : s.Keeps u :=
  ⟨g.pending.trans h.pending, g.ident.trans h.ident, Nat.le_trans h.free g.free, Nat.le_trans h.svn g.svn, fun x => g.mem (h.mem x)⟩

/-- A field update that reaches none of the five. -/
theorem upd (h : s.Keeps t) (hp : u.pending = t.pending) (hi : u.ident = t.ident) (hf : u.free = t.free) (hb : u.boot.svnMin = t.boot.svnMin)
    (hm : u.mem = t.mem) : s.Keeps u :=
  ⟨hp.trans h.pending, hi.trans h.ident, hf ▸ h.free, hb ▸ h.svn, fun x => hm ▸ h.mem x⟩

/-- The same as a rule for record updates. -/
theorem lit (h : s.Keeps t) {f : Nat} {b : Boot} {x3 x4 x5 x6 x7 x8 x9 xa xb xc xd xe xf xg xh xi xj xk xl xm xn xo xp xq}
    (hf : t.free ≤ f) (hb : t.boot.svnMin.toNat ≤ b.svnMin.toNat) :
    s.Keeps ⟨t.pending, f, t.ident, b, x3, x4, x5, x6, x7, x8, x9, xa, xb, xc, xd, xe, xf, t.mem, xg, xh, xi, xj, xk, xl, xm, xn, xo, xp, xq⟩ :=
  ⟨h.pending, h.ident, Nat.le_trans h.free hf, Nat.le_trans h.svn hb, h.mem⟩

end State.Keeps

/-! ### Rules of composition -/

variable {s t : State}

theorem each_keeps {ns : List Nat} {f : State → Nat → State} (hf : ∀ x n, State.Keeps x (f x n)) (h : t.Keeps s) : t.Keeps (each ns s f) := by
  unfold each
  induction ns generalizing s with
  | nil => exact h
  | cons n ns ih => exact ih (h.trans (hf s n))

theorem foldl_keeps {α : Type} {l : List α} {f : State → α → State} (hf : ∀ x a, State.Keeps x (f x a)) (h : t.Keeps s) :
    t.Keeps (l.foldl f s) := by
  induction l generalizing s with
  | nil => exact h
  | cons a l ih => exact ih (h.trans (hf s a))

theorem foldl_fst_keeps {α β : Type} {l : List α} {f : State × β → α → State × β} (hf : ∀ a x, State.Keeps a.1 (f a x).1) {a : State × β}
    (h : t.Keeps a.1) : t.Keeps (l.foldl f a).1 := by
  induction l generalizing a with
  | nil => exact h
  | cons x l ih => exact ih (h.trans (hf a x))

theorem loop_keeps {n : Nat} {f : State → Nat → State} (hf : ∀ x i, State.Keeps x (f x i)) (h : t.Keeps s) : t.Keeps (loop n s f) :=
  foldl_keeps hf h

theorem ite_keeps {c : Prop} [Decidable c] {u : State} (h1 : t.Keeps s) (h2 : t.Keeps u) : t.Keeps (if c then s else u) := by
  split
  · exact h1
  · exact h2

theorem fst_keeps {α : Type} {u : State} {p : State × α} {x : α} (e : p = (u, x)) (h : t.Keeps p.1) : t.Keeps u := by
  rw [e] at h
  exact h

theorem snd_keeps {α : Type} {u : State} {p : α × State} {x : α} (e : p = (x, u)) (h : t.Keeps p.2) : t.Keeps u := by
  rw [e] at h
  exact h

theorem next_keeps (h : s.Keeps t) : Out.Keeps s (.next t) := ⟨t, rfl, h⟩

theorem act_keeps {b : Bool} {f : State → State} (h : s.Keeps (f s)) : Out.Keeps s (act b s f) := by
  unfold act
  cases b
  · exact next_keeps (State.Keeps.refl s)
  · exact next_keeps h

/-- A new memory system whose stacks stand in canonical form if those of the old one did. -/
theorem setMem_keeps {m : MemSys} (hm : s.mem.ok → m.ok) (h : t.Keeps s) : t.Keeps (s.setMem m) :=
  ⟨h.pending, h.ident, h.free, h.svn, fun x => hm (h.mem x)⟩

end Sys2Proof.Machine
end

