-- ==== Sys2Proof/Laws/Memory.lean ====
section
/-! SUPPORT. Every operation on the stacks' memory keeps its canonical form (13_memory_system). -/

namespace Sys2Proof.Machine

/-! ### What an unlisted byte reads as -/

/-- A memory system with the same stacks. -/
theorem ok_congr {m m' : MemSys} (h : m.ok) (hh : m'.hbm = m.hbm) (hb : m'.back = m.back) (hz : m'.zeroPc = m.zeroPc) : m'.ok := by
  unfold MemSys.ok MemSys.unlisted at *
  rw [hh, hb, hz]
  exact h

theorem mem_countUp {n lo x : Nat} : x ∈ countUp lo n ↔ lo ≤ x ∧ x < lo + n := by
  induction n generalizing lo with
  | zero => simp [countUp]
  | succ n ih => simp only [countUp, List.mem_cons, ih]; omega

theorem get_foldl_set {α : Type} (d v : α) (l : List Nat) (t : Tbl α) (j : Nat) :
    Tbl.get d (l.foldl (fun b q => Tbl.set b q v) t) j = if j ∈ l then v else Tbl.get d t j := by
  induction l generalizing t with
  | nil => simp
  | cons q l ih =>
    rw [List.foldl_cons, ih, Tbl.get_set]
    by_cases h1 : j ∈ l <;> by_cases h2 : j = q <;> simp [h1, h2]

/-! ### Bytes -/

theorem setStackByte_ok {m : MemSys} (h : m.ok) (a : Nat) (v : Byte) : (m.setStackByte a v).ok := Mem.wf_write h a v

theorem setSectorPoison_ok {m : MemSys} (h : m.ok) (k : Nat) (b : Bool) : (m.setSectorPoison k b).ok := ok_congr h rfl rfl rfl

theorem note_ok {m : MemSys} (h : m.ok) (l : List Found) : (m.note l).ok := ok_congr h rfl rfl rfl

theorem dropWcb_ok {m : MemSys} (h : m.ok) (g : Nat) : (m.dropWcb g).ok := ok_congr h rfl rfl rfl

/-- A fold of steps that keep the form keeps it. -/
theorem foldl_ok {α : Type} {l : List α} {f : MemSys → α → MemSys} (hf : ∀ (m : MemSys) (a : α), m.ok → (f m a).ok) {m : MemSys} (h : m.ok) :
    (l.foldl f m).ok := by
  induction l generalizing m with
  | nil => exact h
  | cons a l ih => exact ih (hf m a h)

theorem loop_ok {n : Nat} {f : MemSys → Nat → MemSys} (hf : ∀ (m : MemSys) (j : Nat), m.ok → (f m j).ok) {m : MemSys} (h : m.ok) : (loop n m f).ok :=
  foldl_ok hf h

theorem writeBack_ok {m : MemSys} (h : m.ok) (k : Seal) (e : WcbEntry) : (m.writeBack k e).ok := by
  unfold MemSys.writeBack
  extract_lets full g r m0 flawed d pn m1 m2 m3
  have h0 : m0.ok := note_ok h _
  have h1 : m1.ok := by
    refine loop_ok (fun x j hx => ?_) h0
    split
    · exact setStackByte_ok hx _ _
    · exact hx
  have h2 : m2.ok := loop_ok (fun x j hx => setSectorPoison_ok hx _ _) h1
  have h3 : m3.ok := ok_congr h2 rfl rfl rfl
  split
  · exact h3
  · exact ok_congr h3 rfl rfl rfl

theorem wcbOut_ok {m : MemSys} (h : m.ok) (k : Seal) (g : Nat) : (m.wcbOut k g).ok := by
  unfold MemSys.wcbOut
  split
  · exact writeBack_ok (dropWcb_ok h _) _ _
  · exact h

theorem wcbPut_ok {m : MemSys} (h : m.ok) (k : Seal) (stack g part now : Nat) (data : BitVec 2048) (mask : BitVec 256) (po : BitVec 4) :
    (m.wcbPut k stack g part now data mask po).ok := by
  unfold MemSys.wcbPut
  extract_lets was old e fl full m0 m1
  have h1 : m1.ok := by
    unfold m1
    split
    · exact ok_congr h rfl rfl rfl
    · refine ok_congr (m := m0) ?_ rfl rfl rfl
      unfold m0
      split
      · split
        · exact wcbOut_ok h _ _
        · exact h
      · exact h
  split
  · exact wcbOut_ok h1 _ _
  · exact h1

theorem strike_ok {m : MemSys} (h : m.ok) (f : Flaw) : (m.strike f).ok := by
  unfold MemSys.strike
  split
  · exact ok_congr h rfl rfl rfl
  · exact ok_congr h rfl rfl rfl
  · exact note_ok h _
  · exact ok_congr h rfl rfl rfl
  · exact ok_congr h rfl rfl rfl
  · split
    · exact h
    · exact note_ok h _

/-! ### Lines and stores -/

variable {t s : State}

/-- A new memory system with the same stacks. -/
theorem sameStacks_keeps {m : MemSys} (h : t.Keeps s) (hh : m.hbm = s.mem.hbm) (hb : m.back = s.mem.back)
    (hz : m.zeroPc = s.mem.zeroPc) : t.Keeps (s.setMem m) := setMem_keeps (fun x => ok_congr x hh hb hz) h

theorem evict_keeps (h : t.Keeps s) (g : Nat) : t.Keeps (evict s g) := by
  unfold evict
  split
  · exact h
  · dsimp only
    split
    · refine setMem_keeps (fun x => wcbPut_ok (note_ok ?_ _) ..) h
      exact ok_congr x rfl rfl rfl
    · exact sameStacks_keeps h rfl rfl rfl

theorem allocate_keeps (h : t.Keeps s) (g : Nat) : t.Keeps (allocate s g) := by
  unfold allocate
  extract_lets clk r seen s0
  have h0 : t.Keeps s0 := sameStacks_keeps h rfl rfl rfl
  split
  · exact sameStacks_keeps h rfl rfl rfl
  · split
    · exact h0
    · extract_lets s1
      have h1 : t.Keeps s1 := by
        unfold s1
        split
        · exact evict_keeps h0 _
        · exact h0
      exact sameStacks_keeps h1 rfl rfl rfl

theorem storeGranule_keeps (h : t.Keeps s) (g : Nat) (data : BitVec 2048) (mask : BitVec 256) (po : BitVec 4) :
    t.Keeps (storeGranule s g data mask po) := by
  unfold storeGranule
  split
  · exact sameStacks_keeps h rfl rfl rfl
  · exact setMem_keeps (fun x => wcbPut_ok x ..) h

theorem strikeAll_keeps (h : t.Keeps s) (l : List Flaw) : t.Keeps (strikeAll s l) :=
  setMem_keeps (fun x => foldl_ok (fun _ _ hm => strike_ok hm _) x) h

theorem storeIn_keeps (h : t.Keeps s) (g off : Nat) (bs : List Byte) (po : Bool) : t.Keeps (storeIn s g off bs po) :=
  storeGranule_keeps h ..

theorem storeLoop_keeps (h : t.Keeps s) (k a : Nat) (bs : List Byte) (po : Bool) : t.Keeps (storeLoop k s a bs po) := by
  induction k generalizing s a bs with
  | zero => exact h
  | succ k ih =>
    unfold storeLoop
    split
    · exact h
    · exact ih (storeIn_keeps h ..) ..

theorem storeBytes_keeps (h : t.Keeps s) (a : Nat) (bs : List Byte) (po : Bool) : t.Keeps (storeBytes s a bs po) :=
  storeLoop_keeps h ..

theorem touch_keeps (h : t.Keeps s) (a n : Nat) : t.Keeps (touch s a n) := by
  unfold touch
  split
  · exact h
  · exact each_keeps (fun x _ => allocate_keeps (State.Keeps.refl x) _) h

/-! ### Discarding, draining and clearing -/

theorem discardWhere_keeps (h : t.Keeps s) (f : Nat → Bool) : t.Keeps (discardWhere s f) := sameStacks_keeps h rfl rfl rfl

theorem drainPart_keeps (h : t.Keeps s) (p : Nat) : t.Keeps (drainPart s p) := by
  exact setMem_keeps (fun x => foldl_ok (fun m e hm => wcbOut_ok hm _ _) x) h

theorem flushPart_keeps (h : t.Keeps s) (p : Nat) : t.Keeps (flushPart s p) :=
  drainPart_keeps (each_keeps (fun x _ => evict_keeps (State.Keeps.refl x) _) h) p

theorem refill_keeps (h : t.Keeps s) (p k : Nat) : t.Keeps (refill s p k) := by
  unfold refill
  extract_lets s1 lo hi m
  refine setMem_keeps (fun x => ?_) (discardWhere_keeps h _)
  refine ⟨x.1.filter _, fun e he => ?_⟩
  obtain ⟨he1, he2⟩ := List.mem_filter.1 he
  have hx := x.2 e he1
  simp only [Bool.or_eq_true, decide_eq_true_eq] at he2
  have hq : ¬ e.1 / quarterSize ∈ countUp (lo / quarterSize) s1.mode.dieShare := by
    rw [mem_countUp]
    have hlo : lo = p * s1.mode.dieShare * quarterSize := rfl
    have hhi : hi = p * s1.mode.dieShare * quarterSize + s1.mode.dieShare * quarterSize := rfl
    have h0 : 0 < quarterSize := by decide
    rw [hlo, Nat.mul_div_cancel _ h0, Nat.le_div_iff_mul_le h0, Nat.div_lt_iff_lt_mul h0, Nat.add_mul]
    omega
  show e.2 ≠ backByte _ s1.mem.zeroPc e.1
  unfold MemSys.unlisted backByte at hx
  unfold backByte
  rw [get_foldl_set, if_neg hq]
  exact hx

theorem memEvent_keeps (h : t.Keeps s) (e : MemEvent) : t.Keeps (memEvent s e) := sameStacks_keeps h rfl rfl rfl

theorem recordRefused_keeps (h : t.Keeps s) (a : Nat) : t.Keeps (recordRefused s a) := memEvent_keeps h _

end Sys2Proof.Machine
end

