-- ==== Sys2Proof/Laws/Bytes.lean ====
section
/-! SUPPORT. What a byte of the stacks reads as after a store: the bytes the mask names are new, every other byte stands. -/

namespace Sys2Proof.Machine

/-! ### Bytes of a granule -/

theorem testBit_ofLe (bs : List Byte) (i : Nat) : (ofLe bs).testBit i = (bs.getD (i / 8) 0).getLsbD (i % 8) := by
  induction bs generalizing i with
  | nil => simp [ofLe]
  | cons b bs ih =>
    unfold ofLe
    have hb : b.toNat < 2 ^ 8 := b.isLt
    rw [Nat.add_comm, show 256 = 2 ^ 8 from rfl, Nat.testBit_two_pow_mul_add _ hb]
    by_cases h : i < 8
    · rw [if_pos h, Nat.div_eq_of_lt h, Nat.mod_eq_of_lt h]
      rfl
    · obtain ⟨k, rfl⟩ : ∃ k, i = k + 8 := ⟨i - 8, by omega⟩
      rw [if_neg h, ih]
      have h1 : (k + 8 - 8) / 8 = k / 8 := by omega
      have h2 : (k + 8) / 8 = k / 8 + 1 := by omega
      have h3 : (k + 8 - 8) % 8 = (k + 8) % 8 := by omega
      rw [h1, h2, h3]
      rfl

theorem getD_map_countUp {β : Type} (f : Nat → β) (d : β) (n lo j : Nat) : ((countUp lo n).map f).getD j d = if j < n then f (lo + j) else d := by
  induction n generalizing lo j with
  | zero => simp [countUp]
  | succ n ih =>
    cases j with
    | zero => simp [countUp]
    | succ j =>
      rw [countUp, List.map_cons, List.getD_cons_succ, ih]
      have : lo + 1 + j = lo + (j + 1) := by omega
      rw [this]
      simp only [Nat.add_lt_add_iff_right]

theorem getLsbD_ofLe_upTo (n : Nat) (f : Nat → Byte) (i : Nat) :
    (BitVec.ofNat (8 * n) (ofLe ((upTo n).map f))).getLsbD i = (decide (i < 8 * n) && (f (i / 8)).getLsbD (i % 8)) := by
  rw [BitVec.getLsbD_ofNat, testBit_ofLe, upTo, getD_map_countUp]
  by_cases h : i < 8 * n
  · have : i / 8 < n := by omega
    rw [if_pos this, Nat.zero_add]
  · simp [h]

/-- Byte `j` of a value of `n` bytes made of bytes. -/
theorem bits_ofLe_upTo (n : Nat) (f : Nat → Byte) {j : Nat} (h : j < n) : bits (BitVec.ofNat (8 * n) (ofLe ((upTo n).map f))) (8 * j) 8 = f j := by
  apply BitVec.eq_of_getLsbD_eq
  intro i hi
  unfold bits
  rw [BitVec.getLsbD_extractLsb', getLsbD_ofLe_upTo]
  have h1 : 8 * j + i < 8 * n := by omega
  have h2 : (8 * j + i) / 8 = j := by omega
  have h3 : (8 * j + i) % 8 = i := by omega
  simp [hi, h1, h2, h3]

theorem getLsbD_maskBits (mask : BitVec 256) (i : Nat) : (maskBits mask).getLsbD i = (decide (i < 2048) && mask.getLsbD (i / 8)) := by
  unfold maskBits
  rw [show (2048 : Nat) = 8 * 256 from rfl, getLsbD_ofLe_upTo]
  by_cases h : mask.getLsbD (i / 8)
  · have : i % 8 < 8 := Nat.mod_lt _ (by omega)
    have h255 : ((0xFF : Byte)).getLsbD (i % 8) = true := by
      rw [show (0xFF : Byte) = BitVec.allOnes 8 from rfl, BitVec.getLsbD_allOnes]
      exact decide_eq_true this
    simp only [h, if_true, h255]
  · have hf : mask.getLsbD (i / 8) = false := by simpa using h
    simp [hf]

/-- Byte `j` of a merge: the new byte where the mask names it. -/
theorem bits_merge (mask : BitVec 256) (old new : BitVec 2048) {j : Nat} (h : j < 256) :
    bits (merge mask old new) (8 * j) 8 = if mask.getLsbD j then bits new (8 * j) 8 else bits old (8 * j) 8 := by
  apply BitVec.eq_of_getLsbD_eq
  intro i hi
  have h1 : (8 * j + i) < 2048 := by omega
  have h2 : (8 * j + i) / 8 = j := by omega
  have hmb : (maskBits mask).getLsbD (8 * j + i) = mask.getLsbD j := by rw [getLsbD_maskBits, h2, decide_eq_true h1, Bool.true_and]
  have hm : (bits (merge mask old new) (8 * j) 8).getLsbD i =
      ((old.getLsbD (8 * j + i) && !mask.getLsbD j) || (new.getLsbD (8 * j + i) && mask.getLsbD j)) := by
    unfold bits merge
    simp only [BitVec.getLsbD_extractLsb', BitVec.getLsbD_or, BitVec.getLsbD_and, BitVec.getLsbD_not, hmb, decide_eq_true hi,
      decide_eq_true h1, Bool.true_and]
  rw [hm]
  cases mask.getLsbD j <;> simp [bits, hi]

theorem eq_of_bytes {x y : BitVec 2048} (h : ∀ j, j < 256 → bits x (8 * j) 8 = bits y (8 * j) 8) : x = y := by
  apply BitVec.eq_of_getLsbD_eq
  intro i hi
  have e := congrArg (fun v => BitVec.getLsbD v (i % 8)) (h (i / 8) (by omega))
  have h1 : 8 * (i / 8) + i % 8 = i := by omega
  have h2 : i % 8 < 8 := Nat.mod_lt _ (by omega)
  simpa [bits, BitVec.getLsbD_extractLsb', h1, h2] using e

/-! ### The stacks -/

theorem Mem.read_write (d : Nat → Byte) (m : Mem) (a b : Nat) (v : Byte) : (m.write d a v).read d b = if b = a then v else m.read d b := by
  by_cases h : b = a
  · subst h
    rw [if_pos rfl]
    unfold Mem.read Mem.write
    split
    · rename_i e
      rw [Tbl.get_erase, if_pos rfl, e]
    · rw [Tbl.get_set, if_pos rfl]
  · rw [if_neg h, Mem.read_write_ne d m v h]

theorem stackByte_setStackByte (m : MemSys) (a b : Nat) (v : Byte) : (m.setStackByte a v).stackByte b = if b = a then v else m.stackByte b :=
  Mem.read_write m.unlisted m.hbm a b v

theorem stackByte_setSectorPoison (m : MemSys) (k a : Nat) (p : Bool) : (m.setSectorPoison k p).stackByte a = m.stackByte a := rfl

theorem bits_stackGranule (m : MemSys) (g : Nat) {j : Nat} (h : j < 256) : bits (m.stackGranule g).1 (8 * j) 8 = m.stackByte (256 * g + j) :=
  bits_ofLe_upTo 256 _ h

theorem stackByte_loop (n : Nat) (m : MemSys) (c : Nat → Bool) (v : Nat → Byte) (lo a : Nat) (x : Nat) :
    ((countUp a n).foldl (fun m j => if c j then m.setStackByte (lo + j) (v j) else m) m).stackByte x =
      if lo + a ≤ x ∧ x < lo + a + n ∧ c (x - lo) then v (x - lo) else m.stackByte x := by
  induction n generalizing m a with
  | zero => 
    have : ¬ (lo + a ≤ x ∧ x < lo + a + 0 ∧ c (x - lo)) := by omega
    rw [if_neg this]; rfl
  | succ n ih =>
    rw [countUp, List.foldl_cons, ih]
    by_cases hx : x = lo + a
    · subst hx
      have e : lo + a - lo = a := by omega
      have h1 : ¬ (lo + (a + 1) ≤ lo + a ∧ lo + a < lo + (a + 1) + n ∧ c (lo + a - lo)) := by omega
      rw [if_neg h1, e]
      cases hc : c a
      · simp
      · have h2 : lo + a ≤ lo + a ∧ lo + a < lo + a + (n + 1) ∧ true = true := ⟨Nat.le_refl _, by omega, rfl⟩
        rw [if_pos h2, if_pos rfl, stackByte_setStackByte, if_pos rfl]
    · have hs : (if c a then m.setStackByte (lo + a) (v a) else m).stackByte x = m.stackByte x := by
        split
        · rw [stackByte_setStackByte, if_neg hx]
        · rfl
      rw [hs]
      have : (lo + (a + 1) ≤ x ∧ x < lo + (a + 1) + n ∧ c (x - lo) = true) ↔ (lo + a ≤ x ∧ x < lo + a + (n + 1) ∧ c (x - lo) = true) := by
        constructor <;> rintro ⟨h1, h2, h3⟩ <;> exact ⟨by omega, by omega, h3⟩
      simp only [this]

theorem stackByte_poisonLoop (n : Nat) (m : MemSys) (f : Nat → Nat) (p : Nat → Bool) (a x : Nat) :
    ((countUp a n).foldl (fun (m : MemSys) k => m.setSectorPoison (f k) (p k)) m).stackByte x = m.stackByte x := by
  induction n generalizing m a with
  | zero => rfl
  | succ n ih => rw [countUp, List.foldl_cons, ih]; rfl

/-- A fold whose steps keep a part keeps it. -/
theorem foldl_part {σ α β : Type} (p : σ → β) {f : σ → α → σ} (hf : ∀ m a, p (f m a) = p m) (l : List α) (m : σ) : p (l.foldl f m) = p m := by
  induction l generalizing m with
  | nil => rfl
  | cons a l ih => exact (ih (f m a)).trans (hf m a)

theorem get_filter {α : Type} (d : α) (t : Tbl α) (p : Nat × α → Bool) {k : Nat} (h : ∀ v, p (k, v) = true) :
    Tbl.get d (t.filter p) k = Tbl.get d t k := by
  induction t with
  | nil => rfl
  | cons e t ih =>
    obtain ⟨j, v⟩ := e
    by_cases hj : j = k
    · subst hj
      rw [List.filter_cons, if_pos (h v)]
      simp [Tbl.get]
    · rw [List.filter_cons]
      by_cases hp : p (j, v) = true
      · rw [if_pos hp, Tbl.get, Tbl.get, if_neg hj, if_neg hj, ih]
      · rw [if_neg hp, Tbl.get, if_neg hj, ih]

theorem has_filter {α : Type} (t : Tbl α) (p : Nat × α → Bool) (k : Nat) (b : Bool) (h : ∀ v, p (k, v) = b) :
    Tbl.has (t.filter p) k = (b && Tbl.has t k) := by
  unfold Tbl.has
  induction t with
  | nil => cases b <;> rfl
  | cons e t ih =>
    obtain ⟨j, v⟩ := e
    by_cases hj : j = k
    · subst hj
      rw [List.filter_cons, h v]
      cases b
      · rw [if_neg (by simp), ih]
        rfl
      · rw [if_pos rfl, List.any_cons, List.any_cons, ih]
        rfl
    · have hb : (j == k) = false := by simpa using hj
      rw [List.filter_cons]
      split
      · rw [List.any_cons, ih, List.any_cons, hb, Bool.false_or, Bool.false_or]
      · rw [ih, List.any_cons, hb, Bool.false_or]

theorem contains_insertNat (n k : Nat) (l : List Nat) : (insertNat n l).contains k = (k == n || l.contains k) := by
  induction l with
  | nil => simp [insertNat, Bool.beq_eq_decide_eq]
  | cons m l ih =>
    unfold insertNat
    split
    · rw [List.contains_cons]
    · split
      · rename_i h; subst h
        rw [List.contains_cons, ← Bool.or_assoc, Bool.or_self]
      · rw [List.contains_cons, ih, List.contains_cons, ← Bool.or_assoc, ← Bool.or_assoc, Bool.or_comm (k == m)]

/-! ### What leaves a buffer for its stack -/

/-- The granule that a write-back leaves on the stack. -/
def wroteBack (m : MemSys) (k : Seal) (e : WcbEntry) : BitVec 2048 := merge e.mask (m.readStack k e.granule).data e.clean.data

theorem sectorPoison_set (m : MemSys) (a b : Nat) (p : Bool) (h : b ≠ a) : (m.setSectorPoison a p).sectorPoison b = m.sectorPoison b := by
  unfold MemSys.sectorPoison MemSys.setSectorPoison
  have hb : (b == a) = false := by simpa using h
  cases p
  · simp only [Bool.false_eq_true, if_false]
    induction m.poison with
    | nil => rfl
    | cons x l ih =>
      rw [List.filter_cons]
      split
      · rw [List.contains_cons, List.contains_cons, ih]
      · rename_i hx
        have : x = a := by simpa using hx
        rw [ih, List.contains_cons, this, hb, Bool.false_or]
  · simp only [if_true]
    rw [contains_insertNat, hb, Bool.false_or]

/-- The parts of a memory system after a write-back. -/
theorem writeBack_parts (m : MemSys) (k : Seal) (e : WcbEntry) :
    (m.writeBack k e).wcb = m.wcb ∧ (m.writeBack k e).lines = m.lines ∧
    (m.writeBack k e).flaws = m.flaws.filter (fun x => x.1 / 8 != e.granule) ∧ (m.writeBack k e).tagFlaws = Tbl.erase m.tagFlaws e.granule ∧
    (m.writeBack k e).written = insertNat e.granule m.written ∧
    (∀ q, q / 4 ≠ e.granule → (m.writeBack k e).sectorPoison q = m.sectorPoison q) ∧
    ∀ x, (m.writeBack k e).stackByte x =
      if x / 256 = e.granule ∧ (m.flawed e.granule ∨ e.mask.getLsbD (x % 256)) then bits (wroteBack m k e) (8 * (x % 256)) 8
      else m.stackByte x := by
  unfold MemSys.writeBack wroteBack
  extract_lets full g r m0 flawed d pn m1 m2 m3
  have hsel : ∀ {β : Type} (p : MemSys → β) (_ : ∀ (x : MemSys) c, p { x with stackCounters := c } = p x),
      p (if full then m3 else
        { m3 with stackCounters := Tbl.set m3.stackCounters (4 * e.stack + 3) (satInc (Tbl.get 0 m3.stackCounters (4 * e.stack + 3))) }) = p m3 := by
    intro β p hp
    split
    · rfl
    · exact hp _ _
  have one : ∀ {β : Type} (p : MemSys → β) (_ : ∀ (x : MemSys) a v, p (x.setStackByte a v) = p x)
      (_ : ∀ (x : MemSys) a v, p (x.setSectorPoison a v) = p x), p m2 = p m0 := by
    intro β p h1 h2
    refine (foldl_part p (f := fun (x : MemSys) j => x.setSectorPoison (4 * g + j) (pn.getLsbD j)) (fun x j => h2 x _ _) _ _).trans ?_
    refine foldl_part p (f := fun (x : MemSys) j => if flawed || e.mask.getLsbD j then x.setStackByte (256 * g + j) (bits d (8 * j) 8) else x)
      (fun x j => ?_) _ _
    split
    · exact h1 x _ _
    · rfl
  refine ⟨?_, ?_, ?_, ?_, ?_, ?_, ?_⟩
  · exact (hsel MemSys.wcb fun _ _ => rfl).trans (one MemSys.wcb (fun _ _ _ => rfl) fun _ _ _ => rfl)
  · exact (hsel MemSys.lines fun _ _ => rfl).trans (one MemSys.lines (fun _ _ _ => rfl) fun _ _ _ => rfl)
  · exact (hsel MemSys.flaws fun _ _ => rfl).trans
      (congrArg (List.filter fun x : Nat × BitVec 288 => x.1 / 8 != g) (one MemSys.flaws (fun _ _ _ => rfl) fun _ _ _ => rfl))
  · exact (hsel MemSys.tagFlaws fun _ _ => rfl).trans
      (congrArg (fun t => Tbl.erase t g) (one MemSys.tagFlaws (fun _ _ _ => rfl) fun _ _ _ => rfl))
  · exact (hsel MemSys.written fun _ _ => rfl).trans
      (congrArg (insertNat g) (one MemSys.written (fun _ _ _ => rfl) fun _ _ _ => rfl))
  · intro q hq
    refine (hsel (fun x => x.sectorPoison q) fun _ _ => rfl).trans ?_
    have h2 : m2.sectorPoison q = m1.sectorPoison q := by
      unfold m2 loop upTo
      simp only [countUp, List.foldl_cons, List.foldl_nil]
      rw [sectorPoison_set _ _ _ _ (by omega), sectorPoison_set _ _ _ _ (by omega), sectorPoison_set _ _ _ _ (by omega),
        sectorPoison_set _ _ _ _ (by omega)]
    refine h2.trans ?_
    refine foldl_part (fun x : MemSys => x.sectorPoison q) (f := fun (x : MemSys) j =>
      if flawed || e.mask.getLsbD j then x.setStackByte (256 * g + j) (bits d (8 * j) 8) else x) (fun x j => ?_) _ _
    split <;> rfl
  · intro x
    refine (hsel (fun y => y.stackByte x) fun _ _ => rfl).trans ?_
    have h2 : m2.stackByte x = m1.stackByte x := stackByte_poisonLoop 4 m1 _ _ 0 x
    have h1 : m1.stackByte x = _ :=
      stackByte_loop 256 m0 (fun j => flawed || e.mask.getLsbD j) (fun j => bits d (8 * j) 8) (256 * g) 0 x
    refine h2.trans (h1.trans ?_)
    by_cases hx : x / 256 = e.granule
    · have e1 : x - 256 * g = x % 256 := by show x - 256 * e.granule = _; omega
      have e2 : 256 * g + 0 ≤ x ∧ x < 256 * g + 0 + 256 := by show 256 * e.granule + 0 ≤ x ∧ x < 256 * e.granule + 0 + 256; omega
      rw [e1]
      simp only [e2, hx, true_and, Bool.or_eq_true]
      rfl
    · have : ¬ (256 * g + 0 ≤ x ∧ x < 256 * g + 0 + 256 ∧ (flawed || e.mask.getLsbD (x - 256 * g)) = true) := by
        rintro ⟨a, b, -⟩
        exact hx (by show x / 256 = g; omega)
      rw [if_neg this, if_neg (fun h => hx h.1)]
      rfl

theorem writeBack_wcb (m : MemSys) (k : Seal) (e : WcbEntry) : (m.writeBack k e).wcb = m.wcb := (writeBack_parts m k e).1
theorem writeBack_lines (m : MemSys) (k : Seal) (e : WcbEntry) : (m.writeBack k e).lines = m.lines := (writeBack_parts m k e).2.1

theorem bits_readStack {m : MemSys} {g : Nat} (h : m.flawed g = false) (k : Seal) {j : Nat} (hj : j < 256) :
    bits (m.readStack k g).data (8 * j) 8 = m.stackByte (256 * g + j) := by
  unfold MemSys.readStack
  rw [h]
  exact bits_stackGranule m g hj

theorem flawed_writeBack (m : MemSys) (k : Seal) (e : WcbEntry) (g : Nat) :
    (m.writeBack k e).flawed g = (g != e.granule && m.flawed g) := by
  obtain ⟨-, -, hf, ht, -⟩ := writeBack_parts m k e
  unfold MemSys.flawed
  rw [hf, ht]
  have h1 : Tbl.has (Tbl.erase m.tagFlaws e.granule) g = (g != e.granule && Tbl.has m.tagFlaws g) := has_filter _ _ _ _ fun _ => rfl
  have h2 : ∀ b, b ∈ upTo 8 → Tbl.has (m.flaws.filter fun x => x.1 / 8 != e.granule) (8 * g + b) = (g != e.granule && Tbl.has m.flaws (8 * g + b)) := by
    intro b hb
    have hb' : b < 8 := by have := (mem_countUp.1 hb).2; omega
    refine has_filter _ _ _ _ fun _ => ?_
    have : (8 * g + b) / 8 = g := by omega
    show ((8 * g + b) / 8 != e.granule) = _
    rw [this]
  have h3 : ((upTo 8).any fun b => Tbl.has (m.flaws.filter fun x => x.1 / 8 != e.granule) (8 * g + b)) =
      (upTo 8).any fun b => g != e.granule && Tbl.has m.flaws (8 * g + b) := by
    unfold upTo at h2 ⊢
    simp only [countUp, List.any_cons, List.any_nil] at h2 ⊢
    rw [h2 _ (by simp), h2 _ (by simp), h2 _ (by simp), h2 _ (by simp), h2 _ (by simp), h2 _ (by simp), h2 _ (by simp), h2 _ (by simp)]
  rw [h1, h3]
  cases g != e.granule
  · simp
  · simp

/-- The granule written back reads as what was written. -/
theorem bits_readStack_writeBack (m : MemSys) (k k' : Seal) (e : WcbEntry) {j : Nat} (hj : j < 256) :
    bits ((m.writeBack k e).readStack k' e.granule).data (8 * j) 8 = bits (wroteBack m k e) (8 * j) 8 := by
  have hf : (m.writeBack k e).flawed e.granule = false := by rw [flawed_writeBack]; simp
  have e1 : (256 * e.granule + j) / 256 = e.granule := by omega
  have e2 : (256 * e.granule + j) % 256 = j := by omega
  rw [bits_readStack hf _ hj, (writeBack_parts m k e).2.2.2.2.2.2, e1, e2]
  by_cases hn : m.flawed e.granule = true
  · rw [if_pos ⟨rfl, Or.inl hn⟩]
  · by_cases hm : e.mask.getLsbD j = true
    · rw [if_pos ⟨rfl, Or.inr hm⟩]
    · rw [if_neg (by simp [hn, hm])]
      unfold wroteBack
      rw [bits_merge _ _ _ hj, if_neg hm, bits_readStack (by simpa using hn) _ hj]

theorem granuleBytes_congr {m m' : MemSys} {g : Nat} (h : ∀ x, x / 256 = g → m'.stackByte x = m.stackByte x) : m'.granuleBytes g = m.granuleBytes g := by
  unfold MemSys.granuleBytes
  refine List.map_congr_left fun j hj => h _ ?_
  have := (mem_countUp.1 hj).2
  omega

/-- Every other granule reads as before. -/
theorem readStack_writeBack_ne (m : MemSys) (k k' : Seal) (e : WcbEntry) {g : Nat} (h : g ≠ e.granule) :
    (m.writeBack k e).readStack k' g = m.readStack k' g := by
  obtain ⟨-, -, hf, ht, hw, hp, hb⟩ := writeBack_parts m k e
  have hbytes : ∀ x, x / 256 = g → (m.writeBack k e).stackByte x = m.stackByte x := fun x hx => by
    rw [hb, if_neg (fun y => h (hx.symm.trans y.1))]
  have hflaw : (m.writeBack k e).flawed g = m.flawed g := by rw [flawed_writeBack]; simp [h]
  have hgb := granuleBytes_congr hbytes
  have hsg : (m.writeBack k e).stackGranule g = m.stackGranule g := by
    unfold MemSys.stackGranule
    have h1 : ((upTo 256).map fun j => (m.writeBack k e).stackByte (256 * g + j)) = (upTo 256).map fun j => m.stackByte (256 * g + j) := hgb
    have h2 : ∀ i, i < 4 → (m.writeBack k e).sectorPoison (4 * g + i) = m.sectorPoison (4 * g + i) := fun i hi => hp _ (by omega)
    rw [h1]
    unfold MemSys.stackGranule.ofBits4
    dsimp only
    rw [h2 0 (by omega), h2 1 (by omega), h2 2 (by omega), h2 3 (by omega)]
  have htag : (m.writeBack k e).storedTag k' g = m.storedTag k' g := by
    unfold MemSys.storedTag
    rw [hgb, hw, contains_insertNat, ht]
    have h1 : (g == e.granule) = false := by simpa using h
    have h2 : Tbl.get 0 (Tbl.erase m.tagFlaws e.granule) g = Tbl.get 0 m.tagFlaws g := by rw [Tbl.get_erase, if_neg h]
    rw [h1, h2, Bool.false_or]
  have hbeat : ∀ b, b ∈ upTo 8 → (m.writeBack k e).beatBytes k' g b = m.beatBytes k' g b := by
    intro b hb8
    have hlt : b < 8 := by have := (mem_countUp.1 hb8).2; omega
    unfold MemSys.beatBytes
    have h1 : (m.writeBack k e).sectorPoison (4 * g + b / 2) = m.sectorPoison (4 * g + b / 2) := hp _ (by omega)
    have h2 : Tbl.get 0 (m.writeBack k e).flaws (8 * g + b) = Tbl.get 0 m.flaws (8 * g + b) := by
      rw [hf]
      refine get_filter _ _ _ fun v => ?_
      have : (8 * g + b) / 8 = g := by omega
      show ((8 * g + b) / 8 != e.granule) = true
      rw [this]
      simpa using h
    rw [hgb, h1, h2]
  unfold MemSys.readStack
  rw [hflaw, hsg]
  split
  · unfold MemSys.decodeGranule
    have hl : ((upTo 8).map fun b => ((m.writeBack k e).beatBytes k' g b, rsDecode ((m.writeBack k e).beatBytes k' g b))) =
        (upTo 8).map fun b => (m.beatBytes k' g b, rsDecode (m.beatBytes k' g b)) :=
      List.map_congr_left fun b hb8 => by rw [hbeat b hb8]
    rw [hl, htag]
  · rfl

/-! ### The write-combining buffers -/

theorem wcbAt_granule {m : MemSys} {g : Nat} {e : WcbEntry} (h : m.wcbAt g = some e) : e.granule = g := by
  have := List.find?_some h
  simpa using this

theorem find_filter_ne (l : List WcbEntry) {g k : Nat} (h : k ≠ g) :
    (l.filter fun e => e.granule != g).find? (fun e => e.granule == k) = l.find? fun e => e.granule == k := by
  induction l with
  | nil => rfl
  | cons e l ih =>
    by_cases h1 : e.granule = g
    · have h2 : ¬ e.granule = k := fun x => h (x.symm.trans h1)
      simp [h1, ih, Ne.symm h]
    · simp [h1, List.find?_cons, ih]

theorem wcbAt_dropWcb (m : MemSys) (g k : Nat) : (m.dropWcb g).wcbAt k = if k = g then none else m.wcbAt k := by
  unfold MemSys.dropWcb MemSys.wcbAt
  by_cases h : k = g
  · subst h
    rw [if_pos rfl]
    simp [List.find?_eq_none]
  · rw [if_neg h]
    exact find_filter_ne m.wcb h

theorem bits_below (m : MemSys) (s : Seal) (g : Nat) {j : Nat} (h : j < 256) : bits (m.below s g).1 (8 * j) 8 = match m.wcbAt g with
    | some e => if e.mask.getLsbD j then bits e.clean.data (8 * j) 8 else bits (m.readStack s g).data (8 * j) 8
    | none => bits (m.readStack s g).data (8 * j) 8 := by
  unfold MemSys.below
  dsimp only
  cases m.wcbAt g with
  | none => rfl
  | some e =>
    dsimp only
    rw [bits_merge _ _ _ h]

theorem readStack_wcb (m : MemSys) (l : List WcbEntry) (s : Seal) (g : Nat) : ({ m with wcb := l } : MemSys).readStack s g = m.readStack s g := rfl

/-- An entry that leaves its buffer for its stack changes no byte. -/
theorem below_wcbOut (m : MemSys) (s : Seal) (k g : Nat) : ((m.wcbOut s k).below s g).1 = (m.below s g).1 := by
  unfold MemSys.wcbOut
  cases hk : m.wcbAt k with
  | none => rfl
  | some e =>
    dsimp only
    have hg := wcbAt_granule hk
    refine eq_of_bytes fun j hj => ?_
    rw [bits_below _ _ _ hj, bits_below _ _ _ hj]
    have hw : ((m.dropWcb k).writeBack s e).wcbAt g = (m.dropWcb k).wcbAt g := by
      unfold MemSys.wcbAt
      rw [writeBack_wcb]
    rw [hw, wcbAt_dropWcb]
    by_cases h : g = k
    · subst h
      subst hg
      rw [if_pos rfl, hk]
      dsimp only
      rw [bits_readStack_writeBack _ _ _ _ hj]
      unfold wroteBack
      rw [bits_merge _ _ _ hj]
      rfl
    · rw [if_neg h, readStack_writeBack_ne _ _ _ _ (fun x => h (x.trans hg))]
      rfl

theorem wcbOut_lines (m : MemSys) (s : Seal) (k : Nat) : (m.wcbOut s k).lines = m.lines := by
  unfold MemSys.wcbOut
  split
  · exact writeBack_lines _ _ _
  · rfl

theorem clean_mask (e : WcbEntry) : e.clean.mask = e.mask := by
  unfold WcbEntry.clean
  split <;> rfl

theorem find_map_entry (l : List WcbEntry) (e : WcbEntry) (k : Nat) :
    (l.map fun x => if x.granule == e.granule then e else x).find? (fun x => x.granule == k) =
      if k = e.granule then (l.find? fun x => x.granule == k).map fun _ => e else l.find? fun x => x.granule == k := by
  induction l with
  | nil => simp
  | cons x l ih =>
    rw [List.map_cons, List.find?_cons, List.find?_cons, ih]
    by_cases h : x.granule = e.granule
    · have hx : (x.granule == e.granule) = true := by simp [h]
      rw [if_pos hx, h]
      by_cases hk : k = e.granule
      · have : (e.granule == k) = true := by simp [hk]
        rw [if_pos hk, if_pos hk, this]; rfl
      · have : (e.granule == k) = false := by simpa using Ne.symm hk
        rw [if_neg hk, if_neg hk, this]
    · have hx : (x.granule == e.granule) = false := by simpa using h
      rw [hx]
      by_cases hk : k = e.granule
      · have : (x.granule == k) = false := by rw [hk]; exact hx
        rw [if_pos hk, if_pos hk]
        simp only [Bool.false_eq_true, if_false, this]
      · rw [if_neg hk, if_neg hk]; rfl

/-- The bytes below after a write arrives at a buffer. -/
theorem below_wcbPut (m : MemSys) (s : Seal) (stack g part now : Nat) (data : BitVec 2048) (mask : BitVec 256) (po : BitVec 4) (k : Nat) :
    ((m.wcbPut s stack g part now data mask po).below s k).1 = if k = g then merge mask (m.below s g).1 data else (m.below s k).1 := by
  unfold MemSys.wcbPut
  extract_lets was old e fl full m0 m1
  have hcl : e.clean = e := rfl
  have main : (m1.below s k).1 = if k = g then merge mask (m.below s g).1 data else (m.below s k).1 := by
    have heg : e.granule = g := rfl
    by_cases hs : (m.wcbAt g).isSome = true
    · obtain ⟨o, ho⟩ := Option.isSome_iff_exists.1 hs
      have hm1 : m1 = { m.note was.found with wcb := m.wcb.map fun x => if x.granule == g then e else x } := if_pos hs
      have hw : m1.wcbAt k = if k = g then some e else m.wcbAt k := by
        rw [hm1]
        have := find_map_entry m.wcb e k
        rw [heg] at this
        refine this.trans ?_
        by_cases hk : k = g
        · subst hk
          rw [if_pos rfl, if_pos rfl]
          show (m.wcbAt k).map _ = _
          rw [ho]; rfl
        · rw [if_neg hk, if_neg hk]; rfl
      have hst : ∀ x, m1.readStack s x = m.readStack s x := fun x => by rw [hm1]; rfl
      refine eq_of_bytes fun j hj => ?_
      rw [bits_below _ _ _ hj, hw, hst]
      by_cases hk : k = g
      · subst hk
        rw [if_pos rfl, if_pos rfl]
        have hold : old = o.clean := by show ((m.wcbAt k).getD _).clean = o.clean; rw [ho]; rfl
        dsimp only
        rw [hcl]
        show (if (old.mask ||| mask).getLsbD j then bits (merge mask old.data data) (8 * j) 8 else _) = _
        rw [bits_merge _ _ _ hj, BitVec.getLsbD_or, hold, clean_mask]
        rw [bits_merge _ _ _ hj, bits_below _ _ _ hj, ho]
        dsimp only
        generalize o.mask.getLsbD j = b1
        generalize mask.getLsbD j = b2
        cases b1 <;> cases b2 <;> rfl
      · rw [if_neg hk, if_neg hk, bits_below _ _ _ hj]
    · have hn : m.wcbAt g = none := by simpa using hs
      have hm1 : m1 = { m0 with wcb := m0.wcb ++ [e] } := if_neg hs
      have hb : ∀ x, (m0.below s x).1 = (m.below s x).1 := by
        intro x
        unfold m0
        split
        · split
          · exact below_wcbOut m _ _ x
          · rfl
        · rfl
      have hg0 : m0.wcbAt g = none := by
        unfold m0
        split
        · split
          · rename_i o ho hf
            unfold MemSys.wcbOut
            split
            · have : ∀ e', ((m.dropWcb o).writeBack s e').wcbAt g = (m.dropWcb o).wcbAt g := fun e' => by
                unfold MemSys.wcbAt; rw [writeBack_wcb]
              rw [this, wcbAt_dropWcb]
              split
              · rfl
              · exact hn
            · exact hn
          · exact hn
        · exact hn
      have hw : m1.wcbAt k = if k = g then some e else m0.wcbAt k := by
        rw [hm1]
        show (m0.wcb ++ [e]).find? (fun x => x.granule == k) = _
        rw [List.find?_append]
        by_cases hk : k = g
        · subst hk
          rw [if_pos rfl, show m0.wcb.find? (fun x => x.granule == k) = none from hg0]
          simp [heg]
        · have : ¬ e.granule = k := fun q => hk (q.symm.trans heg)
          rw [if_neg hk]
          show _ = m0.wcb.find? (fun x => x.granule == k)
          simp [this]
      have hst : ∀ x, m1.readStack s x = m0.readStack s x := fun x => by rw [hm1]; rfl
      refine eq_of_bytes fun j hj => ?_
      rw [bits_below _ _ _ hj, hw, hst]
      by_cases hk : k = g
      · subst hk
        rw [if_pos rfl, if_pos rfl]
        dsimp only
        rw [hcl]
        have hold : old = { stack := stack, granule := k } := by show ((m.wcbAt k).getD _).clean = _; rw [hn]; rfl
        show (if (old.mask ||| mask).getLsbD j then bits (merge mask old.data data) (8 * j) 8 else _) = _
        rw [bits_merge _ _ _ hj, BitVec.getLsbD_or, hold]
        have hz : ({ stack := stack, granule := k : WcbEntry }).mask.getLsbD j = false := BitVec.getLsbD_zero
        rw [hz]
        rw [bits_merge _ _ _ hj, ← hb, bits_below _ _ _ hj, hg0]
        dsimp only
        generalize mask.getLsbD j = b2
        cases b2 <;> simp
      · rw [if_neg hk, if_neg hk, ← hb, bits_below _ _ _ hj]
  split
  · rw [below_wcbOut, main]
  · exact main

theorem wcbPut_lines (m : MemSys) (s : Seal) (stack g part now : Nat) (data : BitVec 2048) (mask : BitVec 256) (po : BitVec 4) :
    (m.wcbPut s stack g part now data mask po).lines = m.lines := by
  unfold MemSys.wcbPut
  extract_lets was old e fl full m0 m1
  have h0 : m0.lines = m.lines := by
    unfold m0
    split
    · split
      · exact wcbOut_lines _ _ _
      · rfl
    · rfl
  have h1 : m1.lines = m.lines := by
    unfold m1
    split
    · rfl
    · exact h0
  split
  · rw [wcbOut_lines, h1]
  · exact h1

/-! ### Stores -/

variable (s : State)

/-- A store of one granule: the bytes its mask names are new, every other byte of memory stands. -/
theorem newest_storeGranule (g : Nat) (data : BitVec 2048) (mask : BitVec 256) (po : BitVec 4) (k : Nat) :
    ((storeGranule s g data mask po).newest k).1 = if k = g then merge mask (s.newest g).1 data else (s.newest k).1 := by
  unfold storeGranule
  cases hl : s.mem.line g with
  | some l =>
    dsimp only
    unfold State.newest MemSys.line State.setMem
    dsimp only
    rw [Tbl.find_set]
    by_cases hk : k = g
    · subst hk
      rw [if_pos rfl, if_pos rfl, show Tbl.find s.mem.lines k = some l from hl]
      have hf : l.clean.flaws.isEmpty = true := by unfold AtLine.clean; split <;> [assumption; rfl]
      dsimp only
      unfold AtLine.clean at hf ⊢
      rw [if_pos hf]
    · rw [if_neg hk, if_neg hk]
      rfl
  | none =>
    have hseal : ∀ m, (s.setMem m).seal = s.seal := fun _ => rfl
    unfold State.newest
    rw [hseal]
    unfold MemSys.line State.setMem
    dsimp only
    rw [wcbPut_lines]
    by_cases hk : k = g
    · subst hk
      rw [if_pos rfl, show Tbl.find s.mem.lines k = none from hl]
      dsimp only
      rw [below_wcbPut, if_pos rfl]
    · rw [if_neg hk]
      cases Tbl.find s.mem.lines k with
      | some l => rfl
      | none =>
        dsimp only
        rw [below_wcbPut, if_neg hk]

theorem byteAt_storeGranule (g : Nat) (data : BitVec 2048) (mask : BitVec 256) (po : BitVec 4) (a : Nat) :
    (storeGranule s g data mask po).byteAt a =
      if a / 256 = g ∧ mask.getLsbD (a % 256) then bits data (8 * (a % 256)) 8 else s.byteAt a := by
  have hj : a % 256 < 256 := Nat.mod_lt _ (by omega)
  unfold State.byteAt
  rw [newest_storeGranule]
  by_cases h : a / 256 = g
  · rw [if_pos h, bits_merge _ _ _ hj, h]
    simp
  · rw [if_neg h]
    simp [h]

/-- A masked store within one line of 64 bytes. -/
theorem byteAt_storeMasked {a : Nat} (ha : a % 64 = 0) (data : BitVec 512) (mask : U64) (b : Nat) :
    (storeMasked s a data mask).byteAt b = if a ≤ b ∧ b < a + 64 ∧ mask.getLsbD (b - a) then bits data (8 * (b - a)) 8 else s.byteAt b := by
  unfold storeMasked
  dsimp only
  rw [byteAt_storeGranule]
  have hm : (mask.setWidth 256 <<< (a % 256)).getLsbD (b % 256) = (decide (a % 256 ≤ b % 256) && mask.getLsbD (b % 256 - a % 256)) := by
    have h1 : b % 256 < 256 := Nat.mod_lt _ (by omega)
    have h2 : b % 256 - a % 256 < 256 := by omega
    rw [BitVec.getLsbD_shiftLeft, BitVec.getLsbD_setWidth, decide_eq_true h1, decide_eq_true h2]
    by_cases h3 : a % 256 ≤ b % 256
    · simp [h3, Nat.not_lt.mpr h3]
    · simp [h3, Nat.not_le.mp h3]
  rw [hm]
  by_cases h : a ≤ b ∧ b < a + 64
  · obtain ⟨h1, h2⟩ := h
    have e1 : b / 256 = a / 256 := by omega
    have e2 : a % 256 ≤ b % 256 := by omega
    have e3 : b % 256 - a % 256 = b - a := by omega
    have hb : bits (data.setWidth 2048 <<< (8 * (a % 256))) (8 * (b % 256)) 8 = bits data (8 * (b - a)) 8 := by
      apply BitVec.eq_of_getLsbD_eq
      intro i hi
      unfold bits
      have k1 : 8 * (b % 256) + i < 2048 := by omega
      have k2 : ¬ 8 * (b % 256) + i < 8 * (a % 256) := by omega
      have k3 : 8 * (b % 256) + i - 8 * (a % 256) = 8 * (b - a) + i := by omega
      have k4 : 8 * (b - a) + i < 2048 := by omega
      rw [BitVec.getLsbD_extractLsb', BitVec.getLsbD_extractLsb', BitVec.getLsbD_shiftLeft, k3, BitVec.getLsbD_setWidth,
        decide_eq_true k1, decide_eq_false k2, decide_eq_true k4]
      simp
    simp only [e1, e2, e3, hb, h1, h2, decide_true, Bool.true_and, true_and]
  · have hf : ¬ (b / 256 = a / 256 ∧ (decide (a % 256 ≤ b % 256) && mask.getLsbD (b % 256 - a % 256)) = true) := by
      rintro ⟨e1, e2⟩
      rw [Bool.and_eq_true, decide_eq_true_eq] at e2
      have : b % 256 - a % 256 < 64 := by
        by_contra hc
        rw [BitVec.getLsbD_of_ge mask _ (by omega)] at e2
        exact absurd e2.2 (by simp)
      exact h ⟨by omega, by omega⟩
    rw [if_neg hf, if_neg (fun x => h ⟨x.1, x.2.1⟩)]

/-- A store within one granule. -/
theorem byteAt_storeIn (g off : Nat) (bs : List Byte) (po : Bool) (h : off + bs.length ≤ 256) (b : Nat) :
    (storeIn s g off bs po).byteAt b =
      if 256 * g + off ≤ b ∧ b < 256 * g + off + bs.length then bs.getD (b - (256 * g + off)) 0 else s.byteAt b := by
  unfold storeIn
  dsimp only
  rw [byteAt_storeGranule]
  have h1 : b % 256 < 256 := Nat.mod_lt _ (by omega)
  have hm : ((BitVec.ofNat 256 (2 ^ bs.length - 1)) <<< off).getLsbD (b % 256) = (decide (off ≤ b % 256) && decide (b % 256 - off < bs.length)) := by
    rw [BitVec.getLsbD_shiftLeft, BitVec.getLsbD_ofNat, Nat.testBit_two_pow_sub_one, decide_eq_true h1]
    have h2 : b % 256 - off < 256 := by omega
    by_cases h3 : off ≤ b % 256
    · simp [h3, Nat.not_lt.mpr h3, h2]
    · simp [h3, Nat.not_le.mp h3]
  rw [hm]
  by_cases hb : 256 * g + off ≤ b ∧ b < 256 * g + off + bs.length
  · obtain ⟨k1, k2⟩ := hb
    have e1 : b / 256 = g := by omega
    have e2 : off ≤ b % 256 := by omega
    have e3 : b % 256 - off < bs.length := by omega
    have hd : bits ((BitVec.ofNat 2048 (ofLe bs)) <<< (8 * off)) (8 * (b % 256)) 8 = bs.getD (b - (256 * g + off)) 0 := by
      apply BitVec.eq_of_getLsbD_eq
      intro i hi
      unfold bits
      have j1 : 8 * (b % 256) + i < 2048 := by omega
      have j2 : ¬ 8 * (b % 256) + i < 8 * off := by omega
      have j3 : 8 * (b % 256) + i - 8 * off < 2048 := by omega
      have j4 : (8 * (b % 256) + i - 8 * off) / 8 = b - (256 * g + off) := by omega
      have j5 : (8 * (b % 256) + i - 8 * off) % 8 = i := by omega
      rw [BitVec.getLsbD_extractLsb', BitVec.getLsbD_shiftLeft, BitVec.getLsbD_ofNat, testBit_ofLe, j4, j5,
        decide_eq_true j1, decide_eq_false j2, decide_eq_true j3, decide_eq_true hi]
      simp
    simp only [e1, e2, e3, k1, k2, hd, decide_true, Bool.true_and, true_and, if_true]
  · have hf : ¬ (b / 256 = g ∧ (decide (off ≤ b % 256) && decide (b % 256 - off < bs.length)) = true) := by
      rintro ⟨e1, e2⟩
      rw [Bool.and_eq_true, decide_eq_true_eq, decide_eq_true_eq] at e2
      exact hb ⟨by omega, by omega⟩
    rw [if_neg hf, if_neg hb]

/-- A store of bytes at any address: they read back, and every other byte stands. -/
theorem byteAt_storeBytes (a : Nat) (bs : List Byte) (po : Bool) (b : Nat) :
    (storeBytes s a bs po).byteAt b = if a ≤ b ∧ b < a + bs.length then bs.getD (b - a) 0 else s.byteAt b := by
  have main : ∀ (n : Nat) (s : State) (a : Nat) (bs : List Byte), (bs.length = 0 ∨ a % 256 + bs.length ≤ 256 * n) →
      (storeLoop n s a bs po).byteAt b = if a ≤ b ∧ b < a + bs.length then bs.getD (b - a) 0 else s.byteAt b := by
    intro n
    induction n with
    | zero =>
      intro s a bs hn
      have : bs.length = 0 := by omega
      unfold storeLoop
      rw [if_neg (by omega)]
    | succ n ih =>
      intro s a bs hn
      unfold storeLoop
      cases bs with
      | nil =>
        rw [List.isEmpty_nil, if_pos rfl, if_neg (by simp only [List.length_nil]; omega)]
      | cons x xs =>
        generalize hv : x :: xs = v at hn
        have hne : v.isEmpty = false := by rw [← hv]; rfl
        have hl : 0 < v.length := by rw [← hv]; simp
        rw [hne]
        dsimp only
        rw [if_neg (by simp)]
        generalize hk : min (256 - a % 256) v.length = k
        have hk1 : k ≤ v.length := by omega
        have hk2 : a % 256 + k ≤ 256 := by omega
        have hk3 : k = v.length ∨ a % 256 + k = 256 := by omega
        have hd : (v.drop k).length = v.length - k := List.length_drop
        have ht : (v.take k).length = k := by rw [List.length_take]; omega
        rw [ih _ _ _ (by rw [hd]; omega), hd, byteAt_storeIn _ _ _ _ _ (by rw [ht]; omega), ht]
        have e1 : 256 * (a / 256) + a % 256 = a := by omega
        rw [e1]
        by_cases h1 : a + k ≤ b ∧ b < a + k + (v.length - k)
        · rw [if_pos h1, if_pos (by omega)]
          have e2 : k + (b - (a + k)) = b - a := by omega
          simp only [List.getD_eq_getElem?_getD, List.getElem?_drop, e2]
        · rw [if_neg h1]
          by_cases h2 : a ≤ b ∧ b < a + k
          · rw [if_pos h2, if_pos (by omega)]
            have e2 : b - a < k := by omega
            simp only [List.getD_eq_getElem?_getD, List.getElem?_take, e2, if_true]
          · rw [if_neg h2, if_neg (by omega)]
  unfold storeBytes
  exact main _ s a bs (by omega)

end Sys2Proof.Machine
end

