-- ==== Sys2Proof/Laws/Frame.lean ====
section
/-! SUPPORT. Rules of composition for `State.Frame`: which parts of the state an operation may change. -/

namespace Sys2Proof.Machine

theorem StatePart.sub {a b c : List StatePart} (h2 : b ⊆ c) (h1 : a ⊆ b) : a ⊆ c := List.Subset.trans h1 h2

namespace State.Frame

variable {A B : List StatePart} {s t u : State}

theorem refl (A : List StatePart) (s : State) : s.Frame A s := by constructor <;> first | rfl | exact Or.inr rfl

theorem trans (h : s.Frame A t) (g : t.Frame A u) : s.Frame A u := by
  constructor
  · exact g.pending.trans h.pending
  · exact g.free.elim Or.inl fun e => h.free.imp_right fun d => e.trans d
  · exact g.ident.elim Or.inl fun e => h.ident.imp_right fun d => e.trans d
  · exact g.boot.elim Or.inl fun e => h.boot.imp_right fun d => e.trans d
  · exact g.time.elim Or.inl fun e => h.time.imp_right fun d => e.trans d
  · exact g.events.elim Or.inl fun e => h.events.imp_right fun d => e.trans d
  · exact g.firedNow.elim Or.inl fun e => h.firedNow.imp_right fun d => e.trans d
  · exact g.stopSent.elim Or.inl fun e => h.stopSent.imp_right fun d => e.trans d
  · exact g.firedStops.elim Or.inl fun e => h.firedStops.imp_right fun d => e.trans d
  · exact g.capEvent.elim Or.inl fun e => h.capEvent.imp_right fun d => e.trans d
  · exact g.mode.elim Or.inl fun e => h.mode.imp_right fun d => e.trans d
  · exact g.pendingMode.elim Or.inl fun e => h.pendingMode.imp_right fun d => e.trans d
  · exact g.psec.elim Or.inl fun e => h.psec.imp_right fun d => e.trans d
  · exact g.psched.elim Or.inl fun e => h.psched.imp_right fun d => e.trans d
  · exact g.ppeer.elim Or.inl fun e => h.ppeer.imp_right fun d => e.trans d
  · exact g.rings.elim Or.inl fun e => h.rings.imp_right fun d => e.trans d
  · exact g.rooms.elim Or.inl fun e => h.rooms.imp_right fun d => e.trans d
  · exact g.mem.elim Or.inl fun e => h.mem.imp_right fun d => e.trans d
  · exact g.link.elim Or.inl fun e => h.link.imp_right fun d => e.trans d
  · exact g.ports.elim Or.inl fun e => h.ports.imp_right fun d => e.trans d
  · exact g.rank.elim Or.inl fun e => h.rank.imp_right fun d => e.trans d
  · exact g.sec.elim Or.inl fun e => h.sec.imp_right fun d => e.trans d
  · exact g.frozen.elim Or.inl fun e => h.frozen.imp_right fun d => e.trans d
  · exact g.pw.elim Or.inl fun e => h.pw.imp_right fun d => e.trans d
  · exact g.dict.elim Or.inl fun e => h.dict.imp_right fun d => e.trans d
  · exact g.can.elim Or.inl fun e => h.can.imp_right fun d => e.trans d
  · exact g.log.elim Or.inl fun e => h.log.imp_right fun d => e.trans d
  · exact g.svc.elim Or.inl fun e => h.svc.imp_right fun d => e.trans d
  · exact g.tap.elim Or.inl fun e => h.tap.imp_right fun d => e.trans d

theorem mono (h : s.Frame A t) (ab : A ⊆ B) : s.Frame B t := by
  constructor
  · exact h.pending
  · exact h.free.imp_left fun m => ab m
  · exact h.ident.imp_left fun m => ab m
  · exact h.boot.imp_left fun m => ab m
  · exact h.time.imp_left fun m => ab m
  · exact h.events.imp_left fun m => ab m
  · exact h.firedNow.imp_left fun m => ab m
  · exact h.stopSent.imp_left fun m => ab m
  · exact h.firedStops.imp_left fun m => ab m
  · exact h.capEvent.imp_left fun m => ab m
  · exact h.mode.imp_left fun m => ab m
  · exact h.pendingMode.imp_left fun m => ab m
  · exact h.psec.imp_left fun m => ab m
  · exact h.psched.imp_left fun m => ab m
  · exact h.ppeer.imp_left fun m => ab m
  · exact h.rings.imp_left fun m => ab m
  · exact h.rooms.imp_left fun m => ab m
  · exact h.mem.imp_left fun m => ab m
  · exact h.link.imp_left fun m => ab m
  · exact h.ports.imp_left fun m => ab m
  · exact h.rank.imp_left fun m => ab m
  · exact h.sec.imp_left fun m => ab m
  · exact h.frozen.imp_left fun m => ab m
  · exact h.pw.imp_left fun m => ab m
  · exact h.dict.imp_left fun m => ab m
  · exact h.can.imp_left fun m => ab m
  · exact h.log.imp_left fun m => ab m
  · exact h.svc.imp_left fun m => ab m
  · exact h.tap.imp_left fun m => ab m

/-- A record update: each field stands, or may change. -/
theorem lit (h : s.Frame A t) {xfree xident xboot xtime xevents xfiredNow xstopSent xfiredStops xcapEvent xmode xpendingMode xpsec xpsched xppeer xrings xrooms xmem xlink xports xrank xsec xfrozen xpw xdict xcan xlog xsvc xtap}
    (hfree : .free ∈ A ∨ xfree = t.free) (hident : .ident ∈ A ∨ xident = t.ident) (hboot : .boot ∈ A ∨ xboot = t.boot) (htime : .time ∈ A ∨ xtime = t.time) (hevents : .events ∈ A ∨ xevents = t.events) (hfiredNow : .firedNow ∈ A ∨ xfiredNow = t.firedNow) (hstopSent : .stopSent ∈ A ∨ xstopSent = t.stopSent) (hfiredStops : .firedStops ∈ A ∨ xfiredStops = t.firedStops) (hcapEvent : .capEvent ∈ A ∨ xcapEvent = t.capEvent) (hmode : .mode ∈ A ∨ xmode = t.mode) (hpendingMode : .pendingMode ∈ A ∨ xpendingMode = t.pendingMode) (hpsec : .psec ∈ A ∨ xpsec = t.psec) (hpsched : .psched ∈ A ∨ xpsched = t.psched) (hppeer : .ppeer ∈ A ∨ xppeer = t.ppeer) (hrings : .rings ∈ A ∨ xrings = t.rings) (hrooms : .rooms ∈ A ∨ xrooms = t.rooms) (hmem : .mem ∈ A ∨ xmem = t.mem) (hlink : .link ∈ A ∨ xlink = t.link) (hports : .ports ∈ A ∨ xports = t.ports) (hrank : .rank ∈ A ∨ xrank = t.rank) (hsec : .sec ∈ A ∨ xsec = t.sec) (hfrozen : .frozen ∈ A ∨ xfrozen = t.frozen) (hpw : .pw ∈ A ∨ xpw = t.pw) (hdict : .dict ∈ A ∨ xdict = t.dict) (hcan : .can ∈ A ∨ xcan = t.can) (hlog : .log ∈ A ∨ xlog = t.log) (hsvc : .svc ∈ A ∨ xsvc = t.svc) (htap : .tap ∈ A ∨ xtap = t.tap)
    : s.Frame A (State.mk t.pending xfree xident xboot xtime xevents xfiredNow xstopSent xfiredStops xcapEvent xmode xpendingMode xpsec xpsched xppeer xrings xrooms xmem xlink xports xrank xsec xfrozen xpw xdict xcan xlog xsvc xtap) := by
  refine trans h ?_
  constructor
  · rfl
  · exact hfree
  · exact hident
  · exact hboot
  · exact htime
  · exact hevents
  · exact hfiredNow
  · exact hstopSent
  · exact hfiredStops
  · exact hcapEvent
  · exact hmode
  · exact hpendingMode
  · exact hpsec
  · exact hpsched
  · exact hppeer
  · exact hrings
  · exact hrooms
  · exact hmem
  · exact hlink
  · exact hports
  · exact hrank
  · exact hsec
  · exact hfrozen
  · exact hpw
  · exact hdict
  · exact hcan
  · exact hlog
  · exact hsvc
  · exact htap

end State.Frame

/-! ### Rules of composition -/

variable {A : List StatePart} {s t : State}

theorem each_frame {ns : List Nat} {f : State → Nat → State} (hf : ∀ x n, State.Frame A x (f x n)) (h : t.Frame A s) : t.Frame A (each ns s f) := by
  unfold each
  induction ns generalizing s with
  | nil => exact h
  | cons n ns ih => exact ih (h.trans (hf s n))

theorem foldl_frame {α : Type} {l : List α} {f : State → α → State} (hf : ∀ x a, State.Frame A x (f x a)) (h : t.Frame A s) :
    t.Frame A (l.foldl f s) := by
  induction l generalizing s with
  | nil => exact h
  | cons a l ih => exact ih (h.trans (hf s a))

theorem foldl_fst_frame {α β : Type} {l : List α} {f : State × β → α → State × β} (hf : ∀ a x, State.Frame A a.1 (f a x).1) {a : State × β}
    (h : t.Frame A a.1) : t.Frame A (l.foldl f a).1 := by
  induction l generalizing a with
  | nil => exact h
  | cons x l ih => exact ih (h.trans (hf a x))

theorem loop_frame {n : Nat} {f : State → Nat → State} (hf : ∀ x i, State.Frame A x (f x i)) (h : t.Frame A s) : t.Frame A (loop n s f) :=
  foldl_frame hf h

theorem ite_frame {c : Prop} [Decidable c] {u : State} (h1 : t.Frame A s) (h2 : t.Frame A u) : t.Frame A (if c then s else u) := by
  split
  · exact h1
  · exact h2

theorem fst_frame {α : Type} {u : State} {p : State × α} {x : α} (e : p = (u, x)) (h : t.Frame A p.1) : t.Frame A u := by
  rw [e] at h
  exact h

theorem snd_frame {α : Type} {u : State} {p : α × State} {x : α} (e : p = (x, u)) (h : t.Frame A p.2) : t.Frame A u := by
  rw [e] at h
  exact h


/-- A command that answers a state changed in the parts `A` alone. -/
def Out.Frame (A : List StatePart) (s : State) (o : Out) : Prop := ∃ t, o = .next t ∧ s.Frame A t

theorem next_frame (h : s.Frame A t) : Out.Frame A s (.next t) := ⟨t, rfl, h⟩

theorem act_frame {b : Bool} {f : State → State} (h : s.Frame A (f s)) : Out.Frame A s (act b s f) := by
  unfold act
  cases b
  · exact next_frame (State.Frame.refl A s)
  · exact next_frame h

theorem setMem_frame {m : MemSys} (h : t.Frame A s) (hm : .mem ∈ A) : t.Frame A (s.setMem m) :=
  State.Frame.trans h (by constructor <;> first | rfl | exact Or.inr rfl | exact Or.inl hm)

end Sys2Proof.Machine
end

