-- ==== Sys2Proof/Laws/FrameCore.lean ====
section
/-! SUPPORT. Which parts of the state the operations of these files may change: Ops, Memory, Frames, RingOps, Tree, Tenancy. -/

namespace Sys2Proof.Machine

set_option linter.unusedVariables false
set_option linter.unusedTactic false
set_option linter.unreachableTactic false

/-! ### Ops -/

theorem updPs_frame {A : List StatePart} {s₀ : State} {s : State} (h : s₀.Frame A s) (p : Nat) (f : PartSec → PartSec) (ha : [.psec] ⊆ A := by first | exact StatePart.sub (by assumption) (by decide) | decide) : s₀.Frame A (State.updPs s p f) := by
  unfold State.updPs
  repeat' first | with_reducible assumption | fail_if_no_progress ((with_reducible refine State.Frame.lit ?_ ?_ ?_ ?_ ?_ ?_ ?_ ?_ ?_ ?_ ?_ ?_ ?_ ?_ ?_ ?_ ?_ ?_ ?_ ?_ ?_ ?_ ?_ ?_ ?_ ?_ ?_ ?_ ?_) <;> first | with_reducible exact Or.inr rfl | exact Or.inl (ha (by decide)) | skip)

theorem updSched_frame {A : List StatePart} {s₀ : State} {s : State} (h : s₀.Frame A s) (p : Nat) (f : PartSched → PartSched) (ha : [.psched] ⊆ A := by first | exact StatePart.sub (by assumption) (by decide) | decide) : s₀.Frame A (State.updSched s p f) := by
  unfold State.updSched
  repeat' first | with_reducible assumption | fail_if_no_progress ((with_reducible refine State.Frame.lit ?_ ?_ ?_ ?_ ?_ ?_ ?_ ?_ ?_ ?_ ?_ ?_ ?_ ?_ ?_ ?_ ?_ ?_ ?_ ?_ ?_ ?_ ?_ ?_ ?_ ?_ ?_ ?_ ?_) <;> first | with_reducible exact Or.inr rfl | exact Or.inl (ha (by decide)) | skip)

theorem updPeer_frame {A : List StatePart} {s₀ : State} {s : State} (h : s₀.Frame A s) (p : Nat) (f : PartPeer → PartPeer) (ha : [.ppeer] ⊆ A := by first | exact StatePart.sub (by assumption) (by decide) | decide) : s₀.Frame A (State.updPeer s p f) := by
  unfold State.updPeer
  repeat' first | with_reducible assumption | fail_if_no_progress ((with_reducible refine State.Frame.lit ?_ ?_ ?_ ?_ ?_ ?_ ?_ ?_ ?_ ?_ ?_ ?_ ?_ ?_ ?_ ?_ ?_ ?_ ?_ ?_ ?_ ?_ ?_ ?_ ?_ ?_ ?_ ?_ ?_) <;> first | with_reducible exact Or.inr rfl | exact Or.inl (ha (by decide)) | skip)

theorem updRing_frame {A : List StatePart} {s₀ : State} {s : State} (h : s₀.Frame A s) (n : Nat) (f : Ring → Ring) (ha : [.rings] ⊆ A := by first | exact StatePart.sub (by assumption) (by decide) | decide) : s₀.Frame A (State.updRing s n f) := by
  unfold State.updRing
  repeat' first | with_reducible assumption | fail_if_no_progress ((with_reducible refine State.Frame.lit ?_ ?_ ?_ ?_ ?_ ?_ ?_ ?_ ?_ ?_ ?_ ?_ ?_ ?_ ?_ ?_ ?_ ?_ ?_ ?_ ?_ ?_ ?_ ?_ ?_ ?_ ?_ ?_ ?_) <;> first | with_reducible exact Or.inr rfl | exact Or.inl (ha (by decide)) | skip)

theorem updRoom_frame {A : List StatePart} {s₀ : State} {s : State} (h : s₀.Frame A s) (n : Nat) (f : Room → Room) (ha : [.rooms] ⊆ A := by first | exact StatePart.sub (by assumption) (by decide) | decide) : s₀.Frame A (State.updRoom s n f) := by
  unfold State.updRoom
  repeat' first | with_reducible assumption | fail_if_no_progress ((with_reducible refine State.Frame.lit ?_ ?_ ?_ ?_ ?_ ?_ ?_ ?_ ?_ ?_ ?_ ?_ ?_ ?_ ?_ ?_ ?_ ?_ ?_ ?_ ?_ ?_ ?_ ?_ ?_ ?_ ?_ ?_ ?_) <;> first | with_reducible exact Or.inr rfl | exact Or.inl (ha (by decide)) | skip)

theorem updPort_frame {A : List StatePart} {s₀ : State} {s : State} (h : s₀.Frame A s) (n : Nat) (f : Port → Port) (ha : [.ports] ⊆ A := by first | exact StatePart.sub (by assumption) (by decide) | decide) : s₀.Frame A (State.updPort s n f) := by
  unfold State.updPort
  repeat' first | with_reducible assumption | fail_if_no_progress ((with_reducible refine State.Frame.lit ?_ ?_ ?_ ?_ ?_ ?_ ?_ ?_ ?_ ?_ ?_ ?_ ?_ ?_ ?_ ?_ ?_ ?_ ?_ ?_ ?_ ?_ ?_ ?_ ?_ ?_ ?_ ?_ ?_) <;> first | with_reducible exact Or.inr rfl | exact Or.inl (ha (by decide)) | skip)

theorem updEvent_frame {A : List StatePart} {s₀ : State} {s : State} (h : s₀.Frame A s) (n : Nat) (f : EventEntry → EventEntry) (ha : [.events] ⊆ A := by first | exact StatePart.sub (by assumption) (by decide) | decide) : s₀.Frame A (State.updEvent s n f) := by
  unfold State.updEvent
  repeat' first | with_reducible assumption | fail_if_no_progress ((with_reducible refine State.Frame.lit ?_ ?_ ?_ ?_ ?_ ?_ ?_ ?_ ?_ ?_ ?_ ?_ ?_ ?_ ?_ ?_ ?_ ?_ ?_ ?_ ?_ ?_ ?_ ?_ ?_ ?_ ?_ ?_ ?_) <;> first | with_reducible exact Or.inr rfl | exact Or.inl (ha (by decide)) | skip)

theorem updDie_frame {A : List StatePart} {s₀ : State} {s : State} (h : s₀.Frame A s) (d : Nat) (f : DiePower → DiePower) (ha : [.pw] ⊆ A := by first | exact StatePart.sub (by assumption) (by decide) | decide) : s₀.Frame A (State.updDie s d f) := by
  unfold State.updDie
  repeat' first | with_reducible assumption | fail_if_no_progress ((with_reducible refine State.Frame.lit ?_ ?_ ?_ ?_ ?_ ?_ ?_ ?_ ?_ ?_ ?_ ?_ ?_ ?_ ?_ ?_ ?_ ?_ ?_ ?_ ?_ ?_ ?_ ?_ ?_ ?_ ?_ ?_ ?_) <;> first | with_reducible exact Or.inr rfl | exact Or.inl (ha (by decide)) | skip)

theorem updBox_frame {A : List StatePart} {s₀ : State} {s : State} (h : s₀.Frame A s) (m : Nat) (f : Mailbox → Mailbox) (ha : [.link] ⊆ A := by first | exact StatePart.sub (by assumption) (by decide) | decide) : s₀.Frame A (State.updBox s m f) := by
  unfold State.updBox
  repeat' first | with_reducible assumption | fail_if_no_progress ((with_reducible refine State.Frame.lit ?_ ?_ ?_ ?_ ?_ ?_ ?_ ?_ ?_ ?_ ?_ ?_ ?_ ?_ ?_ ?_ ?_ ?_ ?_ ?_ ?_ ?_ ?_ ?_ ?_ ?_ ?_ ?_ ?_) <;> first | with_reducible exact Or.inr rfl | exact Or.inl (ha (by decide)) | skip)

theorem takeFree_frame {A : List StatePart} {s₀ : State} {s : State} (h : s₀.Frame A s)  (ha : [.free] ⊆ A := by first | exact StatePart.sub (by assumption) (by decide) | decide) : s₀.Frame A (State.takeFree s).2 := by
  unfold State.takeFree
  repeat' first | with_reducible assumption | fail_if_no_progress ((with_reducible refine State.Frame.lit ?_ ?_ ?_ ?_ ?_ ?_ ?_ ?_ ?_ ?_ ?_ ?_ ?_ ?_ ?_ ?_ ?_ ?_ ?_ ?_ ?_ ?_ ?_ ?_ ?_ ?_ ?_ ?_ ?_) <;> first | with_reducible exact Or.inr rfl | exact Or.inl (ha (by decide)) | skip)

theorem logOnly_frame {A : List StatePart} {s₀ : State} {s : State} (h : s₀.Frame A s) (cause : U16) (a : LogArgs) (ha : [.log] ⊆ A := by first | exact StatePart.sub (by assumption) (by decide) | decide) : s₀.Frame A (logOnly s cause a) := by
  unfold logOnly
  extract_lets x0
  repeat' first | with_reducible assumption | fail_if_no_progress ((with_reducible refine State.Frame.lit ?_ ?_ ?_ ?_ ?_ ?_ ?_ ?_ ?_ ?_ ?_ ?_ ?_ ?_ ?_ ?_ ?_ ?_ ?_ ?_ ?_ ?_ ?_ ?_ ?_ ?_ ?_ ?_ ?_) <;> first | with_reducible exact Or.inr rfl | exact Or.inl (ha (by decide)) | skip)

theorem queueFault_frame {A : List StatePart} {s₀ : State} {s : State} (h : s₀.Frame A s) (cause : U16) (a : LogArgs) (ha : [.can] ⊆ A := by first | exact StatePart.sub (by assumption) (by decide) | decide) : s₀.Frame A (queueFault s cause a) := by
  unfold queueFault
  repeat' first | with_reducible assumption | split | fail_if_no_progress ((with_reducible refine State.Frame.lit ?_ ?_ ?_ ?_ ?_ ?_ ?_ ?_ ?_ ?_ ?_ ?_ ?_ ?_ ?_ ?_ ?_ ?_ ?_ ?_ ?_ ?_ ?_ ?_ ?_ ?_ ?_ ?_ ?_) <;> first | with_reducible exact Or.inr rfl | exact Or.inl (ha (by decide)) | skip)

theorem logEvent_frame {A : List StatePart} {s₀ : State} {s : State} (h : s₀.Frame A s) (cause : U16) (a : LogArgs) (ha : [.can, .log] ⊆ A := by first | exact StatePart.sub (by assumption) (by decide) | decide) : s₀.Frame A (logEvent s cause a) := by
  unfold logEvent
  extract_lets x0
  have h0 : s₀.Frame A x0 := by
    unfold x0
    repeat' first | with_reducible assumption | with_reducible apply logOnly_frame | with_reducible apply queueFault_frame | exact StatePart.sub ha (by decide)
  clear_value x0
  repeat' first | with_reducible assumption | with_reducible apply logOnly_frame | exact StatePart.sub ha (by decide) | split | fail_if_no_progress ((with_reducible refine State.Frame.lit ?_ ?_ ?_ ?_ ?_ ?_ ?_ ?_ ?_ ?_ ?_ ?_ ?_ ?_ ?_ ?_ ?_ ?_ ?_ ?_ ?_ ?_ ?_ ?_ ?_ ?_ ?_ ?_ ?_) <;> first | with_reducible exact Or.inr rfl | exact Or.inl (ha (by decide)) | skip)

theorem linkSend_frame {A : List StatePart} {s₀ : State} {s : State} (h : s₀.Frame A s) (m : OutMsg) (ha : [.link] ⊆ A := by first | exact StatePart.sub (by assumption) (by decide) | decide) : s₀.Frame A (linkSend s m) := by
  unfold linkSend
  repeat' first | with_reducible assumption | fail_if_no_progress ((with_reducible refine State.Frame.lit ?_ ?_ ?_ ?_ ?_ ?_ ?_ ?_ ?_ ?_ ?_ ?_ ?_ ?_ ?_ ?_ ?_ ?_ ?_ ?_ ?_ ?_ ?_ ?_ ?_ ?_ ?_ ?_ ?_) <;> first | with_reducible exact Or.inr rfl | exact Or.inl (ha (by decide)) | skip)

theorem linkWriteLine_frame {A : List StatePart} {s₀ : State} {s : State} (h : s₀.Frame A s) (line : Nat) (off : Nat) (bs : List Byte) (ha : [.link] ⊆ A := by first | exact StatePart.sub (by assumption) (by decide) | decide) : s₀.Frame A (linkWriteLine s line off bs) := by
  unfold linkWriteLine
  repeat' first | with_reducible assumption | with_reducible apply linkSend_frame | split

theorem linkWriteLoop_frame {A : List StatePart} {t s : State} (h : t.Frame A s) (k a : Nat) (bs : List Byte) (ha : [.link] ⊆ A := by first | exact StatePart.sub (by assumption) (by decide) | decide) : t.Frame A (linkWriteLoop k s a bs) := by
  induction k generalizing s a bs with
  | zero => exact h
  | succ k ih =>
    unfold linkWriteLoop
    split
    · exact h
    · exact ih (linkWriteLine_frame h ..) ..

theorem linkWrite_frame {A : List StatePart} {s₀ : State} {s : State} (h : s₀.Frame A s) (a : Nat) (bs : List Byte) (ha : [.link] ⊆ A := by first | exact StatePart.sub (by assumption) (by decide) | decide) : s₀.Frame A (linkWrite s a bs) := by
  unfold linkWrite
  repeat' first | with_reducible assumption | with_reducible apply linkWriteLoop_frame

theorem linkRead_frame {A : List StatePart} {s₀ : State} {s : State} (h : s₀.Frame A s) (typ : BitVec 5) (addr : Nat) (why : Purpose) (ha : [.link] ⊆ A := by first | exact StatePart.sub (by assumption) (by decide) | decide) : s₀.Frame A (linkRead s typ addr why) := by
  unfold linkRead
  repeat' first | with_reducible assumption | fail_if_no_progress ((with_reducible refine State.Frame.lit ?_ ?_ ?_ ?_ ?_ ?_ ?_ ?_ ?_ ?_ ?_ ?_ ?_ ?_ ?_ ?_ ?_ ?_ ?_ ?_ ?_ ?_ ?_ ?_ ?_ ?_ ?_ ?_ ?_) <;> first | with_reducible exact Or.inr rfl | exact Or.inl (ha (by decide)) | skip)

theorem canSend_frame {A : List StatePart} {s₀ : State} {s : State} (h : s₀.Frame A s) (f : CanFrame) (ha : [.can] ⊆ A := by first | exact StatePart.sub (by assumption) (by decide) | decide) : s₀.Frame A (canSend s f) := by
  unfold canSend
  repeat' first | with_reducible assumption | split | fail_if_no_progress ((with_reducible refine State.Frame.lit ?_ ?_ ?_ ?_ ?_ ?_ ?_ ?_ ?_ ?_ ?_ ?_ ?_ ?_ ?_ ?_ ?_ ?_ ?_ ?_ ?_ ?_ ?_ ?_ ?_ ?_ ?_ ?_ ?_) <;> first | with_reducible exact Or.inr rfl | exact Or.inl (ha (by decide)) | skip)

theorem freshKey_frame {A : List StatePart} {s₀ : State} {s : State} (h : s₀.Frame A s)  (ha : [.free] ⊆ A := by first | exact StatePart.sub (by assumption) (by decide) | decide) : s₀.Frame A (freshKey s).2 := by
  unfold freshKey
  repeat' first | with_reducible assumption | fail_if_no_progress ((with_reducible refine State.Frame.lit ?_ ?_ ?_ ?_ ?_ ?_ ?_ ?_ ?_ ?_ ?_ ?_ ?_ ?_ ?_ ?_ ?_ ?_ ?_ ?_ ?_ ?_ ?_ ?_ ?_ ?_ ?_ ?_ ?_) <;> first | with_reducible exact Or.inr rfl | exact Or.inl (ha (by decide)) | skip)

/-! ### Memory -/

theorem evict_frame {A : List StatePart} {s₀ : State} {s : State} (h : s₀.Frame A s) (g : Nat) (ha : [.mem] ⊆ A := by first | exact StatePart.sub (by assumption) (by decide) | decide) : s₀.Frame A (evict s g) := by
  unfold evict
  repeat' first | with_reducible assumption | with_reducible refine setMem_frame ?_ ?_ | exact ha (by decide) | split

theorem allocate_frame {A : List StatePart} {s₀ : State} {s : State} (h : s₀.Frame A s) (g : Nat) (ha : [.mem] ⊆ A := by first | exact StatePart.sub (by assumption) (by decide) | decide) : s₀.Frame A (allocate s g) := by
  unfold allocate
  extract_lets x0
  repeat' first | with_reducible assumption | with_reducible apply evict_frame | with_reducible refine setMem_frame ?_ ?_ | exact ha (by decide) | split

theorem storeGranule_frame {A : List StatePart} {s₀ : State} {s : State} (h : s₀.Frame A s) (g : Nat) (data : BitVec 2048) (mask : BitVec 256) (po : BitVec 4) (ha : [.mem] ⊆ A := by first | exact StatePart.sub (by assumption) (by decide) | decide) : s₀.Frame A (storeGranule s g data mask po) := by
  unfold storeGranule
  repeat' first | with_reducible assumption | with_reducible refine setMem_frame ?_ ?_ | exact ha (by decide) | split

theorem storeIn_frame {A : List StatePart} {s₀ : State} {s : State} (h : s₀.Frame A s) (g : Nat) (off : Nat) (bs : List Byte) (poisoned : Bool) (ha : [.mem] ⊆ A := by first | exact StatePart.sub (by assumption) (by decide) | decide) : s₀.Frame A (storeIn s g off bs poisoned) := by
  unfold storeIn
  extract_lets x0 x1 x2
  repeat' first | with_reducible assumption | with_reducible apply storeGranule_frame

theorem storeLoop_frame {A : List StatePart} {t s : State} (h : t.Frame A s) (k a : Nat) (bs : List Byte) (po : Bool) (ha : [.mem] ⊆ A := by first | exact StatePart.sub (by assumption) (by decide) | decide) : t.Frame A (storeLoop k s a bs po) := by
  induction k generalizing s a bs with
  | zero => exact h
  | succ k ih =>
    unfold storeLoop
    split
    · exact h
    · exact ih (storeIn_frame h ..) ..

theorem storeBytes_frame {A : List StatePart} {s₀ : State} {s : State} (h : s₀.Frame A s) (a : Nat) (bs : List Byte) (poisoned : Bool) (ha : [.mem] ⊆ A := by first | exact StatePart.sub (by assumption) (by decide) | decide) : s₀.Frame A (storeBytes s a bs poisoned) := by
  unfold storeBytes
  repeat' first | with_reducible assumption | with_reducible apply storeLoop_frame

theorem touch_frame {A : List StatePart} {s₀ : State} {s : State} (h : s₀.Frame A s) (a : Nat) (n : Nat) (ha : [.mem] ⊆ A := by first | exact StatePart.sub (by assumption) (by decide) | decide) : s₀.Frame A (touch s a n) := by
  unfold touch
  repeat' first | with_reducible assumption | with_reducible exact State.Frame.refl _ _ | with_reducible apply allocate_frame | with_reducible refine each_frame (fun _ _ => ?_) ?_ | split

theorem discardWhere_frame {A : List StatePart} {s₀ : State} {s : State} (h : s₀.Frame A s) (f : Nat → Bool) (ha : [.mem] ⊆ A := by first | exact StatePart.sub (by assumption) (by decide) | decide) : s₀.Frame A (discardWhere s f) := by
  unfold discardWhere
  repeat' first | with_reducible assumption | with_reducible refine setMem_frame ?_ ?_ | exact ha (by decide)

theorem drainPart_frame {A : List StatePart} {s₀ : State} {s : State} (h : s₀.Frame A s) (p : Nat) (ha : [.mem] ⊆ A := by first | exact StatePart.sub (by assumption) (by decide) | decide) : s₀.Frame A (drainPart s p) := by
  unfold drainPart
  repeat' first | with_reducible assumption | with_reducible refine setMem_frame ?_ ?_ | exact ha (by decide)

theorem flushPart_frame {A : List StatePart} {s₀ : State} {s : State} (h : s₀.Frame A s) (p : Nat) (ha : [.mem] ⊆ A := by first | exact StatePart.sub (by assumption) (by decide) | decide) : s₀.Frame A (flushPart s p) := by
  unfold flushPart
  extract_lets x0
  have h0 : s₀.Frame A x0 := by
    unfold x0
    repeat' first | with_reducible assumption | with_reducible exact State.Frame.refl _ _ | with_reducible apply evict_frame | with_reducible refine each_frame (fun _ _ => ?_) ?_
  clear_value x0
  repeat' first | with_reducible assumption | with_reducible apply drainPart_frame

theorem refill_frame {A : List StatePart} {s₀ : State} {s : State} (h : s₀.Frame A s) (p : Nat) (k : Nat) (ha : [.mem] ⊆ A := by first | exact StatePart.sub (by assumption) (by decide) | decide) : s₀.Frame A (refill s p k) := by
  unfold refill
  extract_lets x0 x1 x2
  have h0 : s₀.Frame A x0 := by
    unfold x0
    repeat' first | with_reducible assumption | with_reducible apply discardWhere_frame
  clear_value x0
  repeat' first | with_reducible assumption | with_reducible refine setMem_frame ?_ ?_ | exact ha (by decide)

theorem strikeAll_frame {A : List StatePart} {s₀ : State} {s : State} (h : s₀.Frame A s) (l : List Flaw) (ha : [.mem] ⊆ A := by first | exact StatePart.sub (by assumption) (by decide) | decide) : s₀.Frame A (strikeAll s l) := by
  unfold strikeAll
  repeat' first | with_reducible assumption | with_reducible exact State.Frame.refl _ _ | exact StatePart.sub ha (by decide) | with_reducible refine foldl_frame (fun _ _ => ?_) ?_ | with_reducible refine setMem_frame ?_ ?_ | exact ha (by decide) | split | fail_if_no_progress ((with_reducible refine State.Frame.lit ?_ ?_ ?_ ?_ ?_ ?_ ?_ ?_ ?_ ?_ ?_ ?_ ?_ ?_ ?_ ?_ ?_ ?_ ?_ ?_ ?_ ?_ ?_ ?_ ?_ ?_ ?_ ?_ ?_) <;> first | with_reducible exact Or.inr rfl | exact Or.inl (ha (by decide)) | skip)

theorem memEvent_frame {A : List StatePart} {s₀ : State} {s : State} (h : s₀.Frame A s) (e : MemEvent) (ha : [.mem] ⊆ A := by first | exact StatePart.sub (by assumption) (by decide) | decide) : s₀.Frame A (memEvent s e) := by
  unfold memEvent
  extract_lets x0 x1 x2 x3 x4 x5 x6 x7 x8 x9 x10
  repeat' first | with_reducible assumption | with_reducible refine setMem_frame ?_ ?_ | exact ha (by decide)

theorem recordRefused_frame {A : List StatePart} {s₀ : State} {s : State} (h : s₀.Frame A s) (a : Nat) (ha : [.mem] ⊆ A := by first | exact StatePart.sub (by assumption) (by decide) | decide) : s₀.Frame A (recordRefused s a) := by
  unfold recordRefused
  extract_lets x0
  repeat' first | with_reducible assumption | with_reducible apply memEvent_frame

/-! ### Frames -/

theorem queueFrame_frame {A : List StatePart} {s₀ : State} {s : State} (h : s₀.Frame A s) (j : Nat) (f : PeerFrame) (ha : [.ports] ⊆ A := by first | exact StatePart.sub (by assumption) (by decide) | decide) : s₀.Frame A (queueFrame s j f) := by
  unfold queueFrame
  repeat' first | with_reducible assumption | with_reducible apply updPort_frame

theorem sendTo_frame {A : List StatePart} {s₀ : State} {s : State} (h : s₀.Frame A s) (p : Nat) (j : Nat) (q : Nat) (h : FrameHead) (payload : List Byte) (ha : [.ports] ⊆ A := by first | exact StatePart.sub (by assumption) (by decide) | decide) : s₀.Frame A (sendTo s p j q h payload) := by
  unfold sendTo
  repeat' first | with_reducible assumption | with_reducible apply queueFrame_frame

theorem sendAbort_frame {A : List StatePart} {s₀ : State} {s : State} (h : s₀.Frame A s) (p : Nat) (group : List Nat) (tag : U32) (chan : Nat) (seg : Nat) (cause : U16) (ha : [.ports] ⊆ A := by first | exact StatePart.sub (by assumption) (by decide) | decide) : s₀.Frame A (sendAbort s p group tag chan seg cause) := by
  unfold sendAbort
  repeat' first | with_reducible assumption | with_reducible exact State.Frame.refl _ _ | with_reducible apply sendTo_frame | with_reducible refine each_frame (fun _ _ => ?_) ?_

theorem abortOp_frame {A : List StatePart} {s₀ : State} {s : State} (h : s₀.Frame A s) (p : Nat) (o : Op) (cause : U16) (ha : [.ports] ⊆ A := by first | exact StatePart.sub (by assumption) (by decide) | decide) : s₀.Frame A (abortOp s p o cause) := by
  unfold abortOp
  repeat' first | with_reducible assumption | with_reducible apply sendAbort_frame | split

/-! ### RingOps -/

theorem readTail_frame {A : List StatePart} {s₀ : State} {s : State} (h : s₀.Frame A s) (n : Nat) (ha : [.link] ⊆ A := by first | exact StatePart.sub (by assumption) (by decide) | decide) : s₀.Frame A (readTail s n) := by
  unfold readTail
  repeat' first | with_reducible assumption | with_reducible apply linkRead_frame | split

theorem readNotify_frame {A : List StatePart} {s₀ : State} {s : State} (h : s₀.Frame A s) (n : Nat) (ha : [.link] ⊆ A := by first | exact StatePart.sub (by assumption) (by decide) | decide) : s₀.Frame A (readNotify s n) := by
  unfold readNotify
  repeat' first | with_reducible assumption | with_reducible apply linkRead_frame | split

theorem haltOne_frame {A : List StatePart} {s₀ : State} {s : State} (h : s₀.Frame A s) (n : Nat) (f : FaultInfo) (ha : [.rings, .link, .mem, .can, .log] ⊆ A := by first | exact StatePart.sub (by assumption) (by decide) | decide) : s₀.Frame A (haltOne s n f) := by
  unfold haltOne
  extract_lets x0 x1 x2
  have h0 : s₀.Frame A x0 := by
    unfold x0
    repeat' first | with_reducible assumption | with_reducible apply recordRefused_frame | exact StatePart.sub ha (by decide) | split
  clear_value x0
  have h1 : s₀.Frame A x1 := by
    unfold x1
    repeat' first | with_reducible assumption | with_reducible apply updRing_frame | exact StatePart.sub ha (by decide)
  clear_value x1
  have h2 : s₀.Frame A x2 := by
    unfold x2
    repeat' first | with_reducible assumption | with_reducible apply logEvent_frame | exact StatePart.sub ha (by decide)
  clear_value x2
  repeat' first | with_reducible assumption | with_reducible apply linkWrite_frame | exact StatePart.sub ha (by decide)

theorem updOps_frame {A : List StatePart} {s₀ : State} {s : State} (h : s₀.Frame A s) (n : Nat) (f : Op → Op) (ha : [.rings] ⊆ A := by first | exact StatePart.sub (by assumption) (by decide) | decide) : s₀.Frame A (State.updOps s n f) := by
  unfold State.updOps
  repeat' first | with_reducible assumption | with_reducible apply updRing_frame

theorem updOp_frame {A : List StatePart} {s₀ : State} {s : State} (h : s₀.Frame A s) (n : Nat) (seq : Nat) (f : Op → Op) (ha : [.rings] ⊆ A := by first | exact StatePart.sub (by assumption) (by decide) | decide) : s₀.Frame A (State.updOp s n seq f) := by
  unfold State.updOp
  repeat' first | with_reducible assumption | with_reducible apply updOps_frame

theorem writeRecord_frame {A : List StatePart} {s₀ : State} {s : State} (h : s₀.Frame A s) (n : Nat) (o : Op) (ha : [.rings, .link, .free] ⊆ A := by first | exact StatePart.sub (by assumption) (by decide) | decide) : s₀.Frame A (writeRecord s n o) := by
  unfold writeRecord
  repeat' first | with_reducible assumption | with_reducible apply updRing_frame | with_reducible apply takeFree_frame | with_reducible apply linkWrite_frame | exact StatePart.sub ha (by decide)

theorem retireLoop_frame {A : List StatePart} {t s : State} (h : t.Frame A s) (k n : Nat) (ha : [.rings, .link, .free] ⊆ A := by first | exact StatePart.sub (by assumption) (by decide) | decide) : t.Frame A (retireLoop k s n) := by
  induction k generalizing s with
  | zero => exact h
  | succ k ih =>
    unfold retireLoop
    split
    · split
      · exact ih (writeRecord_frame (updRing_frame h _ _) _ _)
      · exact h
    · exact h

theorem retire_frame {A : List StatePart} {s₀ : State} {s : State} (h : s₀.Frame A s) (n : Nat) (ha : [.rings, .link, .free] ⊆ A := by first | exact StatePart.sub (by assumption) (by decide) | decide) : s₀.Frame A (retire s n) := by
  unfold retire
  repeat' first | with_reducible assumption | with_reducible apply retireLoop_frame

theorem dropShares_frame {A : List StatePart} {s₀ : State} {s : State} (h : s₀.Frame A s) (n : Nat) (f : Nat → Bool) (ha : [.rooms] ⊆ A := by first | exact StatePart.sub (by assumption) (by decide) | decide) : s₀.Frame A (dropShares s n f) := by
  unfold dropShares
  repeat' first | with_reducible assumption | with_reducible exact State.Frame.refl _ _ | with_reducible apply updRoom_frame | with_reducible refine each_frame (fun _ _ => ?_) ?_ | split

theorem closeStep_frame {A : List StatePart} {s₀ : State} {s : State} (h : s₀.Frame A s) (n : Nat) (ha : [.rings] ⊆ A := by first | exact StatePart.sub (by assumption) (by decide) | decide) : s₀.Frame A (closeStep s n) := by
  unfold closeStep
  repeat' first | with_reducible assumption | with_reducible apply updRing_frame | split

theorem beginStep_frame {A : List StatePart} {s₀ : State} {s : State} (h : s₀.Frame A s) (n : Nat) (ha : [.rings] ⊆ A := by first | exact StatePart.sub (by assumption) (by decide) | decide) : s₀.Frame A (beginStep s n) := by
  unfold beginStep
  repeat' first | with_reducible assumption | with_reducible apply updRing_frame

theorem setHitch_frame {A : List StatePart} {s₀ : State} {s : State} (h : s₀.Frame A s) (p : Nat) (k : Nat) (h : Hitch) (ha : [.psched] ⊆ A := by first | exact StatePart.sub (by assumption) (by decide) | decide) : s₀.Frame A (setHitch s p k h) := by
  unfold setHitch
  repeat' first | with_reducible assumption | with_reducible apply updSched_frame

theorem haltWaiter_frame {A : List StatePart} {s₀ : State} {s : State} (h : s₀.Frame A s) (n : Nat) (cause : U16) (ha : [.rings, .link, .mem, .can, .free, .log] ⊆ A := by first | exact StatePart.sub (by assumption) (by decide) | decide) : s₀.Frame A (haltWaiter s n cause) := by
  unfold haltWaiter
  repeat' first | with_reducible assumption | with_reducible apply haltOne_frame | with_reducible apply updOp_frame | with_reducible apply retire_frame | exact StatePart.sub ha (by decide) | split

theorem breakLoop_frame {A : List StatePart} {t s : State} (h : t.Frame A s) (k : Nat) (l : List Nat) (ha : [.rings, .link, .mem, .can, .psched, .free, .log] ⊆ A := by first | exact StatePart.sub (by assumption) (by decide) | decide) : t.Frame A (breakLoop k s l) := by
  induction k generalizing s l with
  | zero => exact h
  | succ k ih =>
    cases l with
    | nil => exact h
    | cons n l =>
      unfold breakLoop
      extract_lets p broken
      have key : ∀ (l : Tbl Hitch) (a : State × List Nat), t.Frame A a.1 → t.Frame A (l.foldl (fun a e =>
          let others := e.2.arrived.filter fun m => m != n
          let s := setHitch a.1 p e.1 { e.2 with arrived := [], mask := 0 }
          (each others s fun s m => haltWaiter s m 0x0A0C, a.2 ++ others)) a).1 := by
        intro l
        induction l with
        | nil => intro a ha; exact ha
        | cons e l il =>
          intro a ha
          exact il _ (each_frame (fun x m => haltWaiter_frame (State.Frame.refl A x) _ _) (setHitch_frame ha _ _ _))
      exact ih (key broken (s, []) h) _

theorem breakHitches_frame {A : List StatePart} {s₀ : State} {s : State} (h : s₀.Frame A s) (n : Nat) (ha : [.rings, .link, .mem, .can, .psched, .free, .log] ⊆ A := by first | exact StatePart.sub (by assumption) (by decide) | decide) : s₀.Frame A (breakHitches s n) := by
  unfold breakHitches
  repeat' first | with_reducible assumption | with_reducible apply breakLoop_frame

theorem haltRing_frame {A : List StatePart} {s₀ : State} {s : State} (h : s₀.Frame A s) (n : Nat) (f : FaultInfo) (ha : [.rings, .link, .mem, .can, .psched, .free, .log] ⊆ A := by first | exact StatePart.sub (by assumption) (by decide) | decide) : s₀.Frame A (haltRing s n f) := by
  unfold haltRing
  repeat' first | with_reducible assumption | with_reducible apply haltOne_frame | with_reducible apply breakHitches_frame | exact StatePart.sub ha (by decide)

theorem faultOp_frame {A : List StatePart} {t s : State} (h : t.Frame A s) (n seq : Nat) (f : FaultInfo) (ha : [.rings, .rooms, .link, .mem, .can, .psched, .free, .ports, .log, .events] ⊆ A := by first | exact StatePart.sub (by assumption) (by decide) | decide) : t.Frame A (faultOp s n seq f) := by
  unfold faultOp
  split
  · split
    · exact h
    · extract_lets s1 s2 s3 s4 s5
      have h3 : t.Frame A s3 := haltRing_frame (abortOp_frame (dropShares_frame h _ _) _ _ _) _ _
      have h4 : t.Frame A s4 := by
        unfold s4
        split
        · exact updEvent_frame h3 _ _
        · exact h3
      exact retire_frame (updOp_frame h4 _ _ _) _
  · exact h

theorem withdraw_frame {A : List StatePart} {s₀ : State} {s : State} (h : s₀.Frame A s) (n : Nat) (ha : [.psched] ⊆ A := by first | exact StatePart.sub (by assumption) (by decide) | decide) : s₀.Frame A (withdraw s n) := by
  unfold withdraw
  repeat' first | with_reducible assumption | with_reducible apply setHitch_frame | split

theorem abandonRing_frame {A : List StatePart} {s₀ : State} {s : State} (h : s₀.Frame A s) (n : Nat) (ha : [.rings, .rooms, .link, .mem, .can, .psched, .free, .log, .events] ⊆ A := by first | exact StatePart.sub (by assumption) (by decide) | decide) : s₀.Frame A (abandonRing s n) := by
  unfold abandonRing
  extract_lets x0 x1 x2 x3 x4
  have h1 : s₀.Frame A x1 := by
    unfold x1
    repeat' first | with_reducible assumption | with_reducible apply dropShares_frame | exact StatePart.sub ha (by decide)
  clear_value x1
  have h3 : s₀.Frame A x3 := by
    unfold x3
    repeat' first | with_reducible assumption | with_reducible exact State.Frame.refl _ _ | with_reducible apply updEvent_frame | with_reducible refine each_frame (fun _ _ => ?_) ?_ | exact StatePart.sub ha (by decide)
  clear_value x3
  have h4 : s₀.Frame A x4 := by
    unfold x4
    repeat' first | with_reducible assumption | with_reducible apply updRing_frame | exact StatePart.sub ha (by decide)
  clear_value x4
  repeat' first | with_reducible assumption | with_reducible apply breakHitches_frame | with_reducible apply withdraw_frame | exact StatePart.sub ha (by decide)

theorem ringReset_frame {A : List StatePart} {s₀ : State} {s : State} (h : s₀.Frame A s) (n : Nat) (ha : [.rings, .rooms, .link, .mem, .can, .psched, .free, .log, .events] ⊆ A := by first | exact StatePart.sub (by assumption) (by decide) | decide) : s₀.Frame A (ringReset s n) := by
  unfold ringReset
  extract_lets x0 x1
  have h0 : s₀.Frame A x0 := by
    unfold x0
    repeat' first | with_reducible assumption | with_reducible apply abandonRing_frame
  clear_value x0
  have h1 : s₀.Frame A x1 := by
    unfold x1
    repeat' first | with_reducible assumption | with_reducible apply updRing_frame | exact StatePart.sub ha (by decide)
  clear_value x1
  repeat' first | with_reducible assumption | with_reducible apply readTail_frame | exact StatePart.sub ha (by decide)

theorem clearHitches_frame {A : List StatePart} {s₀ : State} {s : State} (h : s₀.Frame A s) (p : Nat) (ha : [.psched] ⊆ A := by first | exact StatePart.sub (by assumption) (by decide) | decide) : s₀.Frame A (clearHitches s p) := by
  unfold clearHitches
  repeat' first | with_reducible assumption | with_reducible apply updSched_frame

theorem abandonRings_frame {A : List StatePart} {s₀ : State} {s : State} (h : s₀.Frame A s) (p : Nat) (ha : [.rings, .rooms, .link, .mem, .can, .psched, .free, .log, .events] ⊆ A := by first | exact StatePart.sub (by assumption) (by decide) | decide) : s₀.Frame A (abandonRings s p) := by
  unfold abandonRings
  repeat' first | with_reducible assumption | with_reducible exact State.Frame.refl _ _ | with_reducible apply abandonRing_frame | with_reducible apply clearHitches_frame | with_reducible refine each_frame (fun _ _ => ?_) ?_ | exact StatePart.sub ha (by decide)

theorem resetRings_frame {A : List StatePart} {s₀ : State} {s : State} (h : s₀.Frame A s) (p : Nat) (ha : [.rings, .rooms, .link, .mem, .can, .psched, .free, .log, .events] ⊆ A := by first | exact StatePart.sub (by assumption) (by decide) | decide) : s₀.Frame A (resetRings s p) := by
  unfold resetRings
  extract_lets x0
  have h0 : s₀.Frame A x0 := by
    unfold x0
    repeat' first | with_reducible assumption | with_reducible apply clearHitches_frame | exact StatePart.sub ha (by decide)
  clear_value x0
  repeat' first | with_reducible assumption | with_reducible exact State.Frame.refl _ _ | with_reducible apply ringReset_frame | with_reducible refine each_frame (fun _ _ => ?_) ?_

theorem settleOverrun_frame {A : List StatePart} {s₀ : State} {s : State} (h : s₀.Frame A s) (n : Nat) (ha : [.rings, .link, .mem, .can, .psched, .free, .log] ⊆ A := by first | exact StatePart.sub (by assumption) (by decide) | decide) : s₀.Frame A (settleOverrun s n) := by
  unfold settleOverrun
  extract_lets x0
  repeat' first | with_reducible assumption | with_reducible apply haltRing_frame | split

theorem fetchEntry_frame {A : List StatePart} {s₀ : State} {s : State} (h : s₀.Frame A s) (n : Nat) (seq : Nat) (ha : [.link] ⊆ A := by first | exact StatePart.sub (by assumption) (by decide) | decide) : s₀.Frame A (fetchEntry s n seq) := by
  unfold fetchEntry
  extract_lets x0
  repeat' first | with_reducible assumption | with_reducible apply linkRead_frame

theorem fetchMore_frame {A : List StatePart} {s₀ : State} {s : State} (h : s₀.Frame A s) (n : Nat) (ha : [.rings, .link] ⊆ A := by first | exact StatePart.sub (by assumption) (by decide) | decide) : s₀.Frame A (fetchMore s n) := by
  unfold fetchMore
  extract_lets x0 x1
  repeat' first | with_reducible assumption | with_reducible exact State.Frame.refl _ _ | with_reducible apply updRing_frame | with_reducible apply fetchEntry_frame | with_reducible refine each_frame (fun _ _ => ?_) ?_ | exact StatePart.sub ha (by decide) | split

theorem refetch_frame {A : List StatePart} {s₀ : State} {s : State} (h : s₀.Frame A s) (n : Nat) (ha : [.rings, .link] ⊆ A := by first | exact StatePart.sub (by assumption) (by decide) | decide) : s₀.Frame A (refetch s n) := by
  unfold refetch
  extract_lets x0 x1
  have h1 : s₀.Frame A x1 := by
    unfold x1
    repeat' first | with_reducible assumption | with_reducible apply updRing_frame | exact StatePart.sub ha (by decide)
  clear_value x1
  repeat' first | with_reducible assumption | with_reducible exact State.Frame.refl _ _ | with_reducible apply fetchEntry_frame | with_reducible refine each_frame (fun _ _ => ?_) ?_ | exact StatePart.sub ha (by decide)

theorem entryHalf_frame {A : List StatePart} {s₀ : State} {s : State} (h : s₀.Frame A s) (n : Nat) (seq : Nat) (half : Nat) (ok : Bool) (data : Line) (ha : [.rings] ⊆ A := by first | exact StatePart.sub (by assumption) (by decide) | decide) : s₀.Frame A (entryHalf s n seq half ok data) := by
  unfold entryHalf
  repeat' first | with_reducible assumption | with_reducible apply updRing_frame

theorem runOrIdle_frame {A : List StatePart} {s₀ : State} {s : State} (h : s₀.Frame A s) (n : Nat) (ha : [.rings] ⊆ A := by first | exact StatePart.sub (by assumption) (by decide) | decide) : s₀.Frame A (runOrIdle s n) := by
  unfold runOrIdle
  repeat' first | with_reducible assumption | with_reducible apply updRing_frame

theorem showRings_frame {A : List StatePart} {s₀ : State} {s : State} (h : s₀.Frame A s) (p : Nat) (st : RState) (ha : [.rings] ⊆ A := by first | exact StatePart.sub (by assumption) (by decide) | decide) : s₀.Frame A (showRings s p st) := by
  unfold showRings
  repeat' first | with_reducible assumption | with_reducible exact State.Frame.refl _ _ | with_reducible apply updRing_frame | with_reducible refine each_frame (fun _ _ => ?_) ?_

/-! ### Tree -/

theorem updBucket_frame {A : List StatePart} {s₀ : State} {s : State} (h : s₀.Frame A s) (n : Nat) (seq : Nat) (f : Bucket → Bucket) (ha : [.rings] ⊆ A := by first | exact StatePart.sub (by assumption) (by decide) | decide) : s₀.Frame A (State.updBucket s n seq f) := by
  unfold State.updBucket
  repeat' first | with_reducible assumption | with_reducible apply updOp_frame

theorem sendRedo_frame {A : List StatePart} {s₀ : State} {s : State} (h : s₀.Frame A s) (p : Nat) (b : Bucket) (down : Bool) (e : Nat × Nat) (seg : Nat) (fetch : Bool) (ha : [.ports] ⊆ A := by first | exact StatePart.sub (by assumption) (by decide) | decide) : s₀.Frame A (sendRedo s p b down e seg fetch) := by
  unfold sendRedo
  repeat' first | with_reducible assumption | with_reducible apply sendTo_frame

theorem redoBelow_frame {A : List StatePart} {s₀ : State} {s : State} (h : s₀.Frame A s) (p : Nat) (n : Nat) (seq : Nat) (b : Bucket) (seg : Nat) (ha : [.rings, .ports] ⊆ A := by first | exact StatePart.sub (by assumption) (by decide) | decide) : s₀.Frame A (redoBelow s p n seq b seg) := by
  unfold redoBelow
  extract_lets x0
  have h0 : s₀.Frame A x0 := by
    unfold x0
    repeat' first | with_reducible assumption | with_reducible exact State.Frame.refl _ _ | with_reducible apply sendRedo_frame | with_reducible refine foldl_frame (fun _ _ => ?_) ?_ | exact StatePart.sub ha (by decide)
  clear_value x0
  repeat' first | with_reducible assumption | with_reducible apply updBucket_frame | exact StatePart.sub ha (by decide)

theorem wantRedo_frame {A : List StatePart} {s₀ : State} {s : State} (h : s₀.Frame A s) (p : Nat) (n : Nat) (seq : Nat) (b : Bucket) (seg : Nat) (ha : [.rings, .ports] ⊆ A := by first | exact StatePart.sub (by assumption) (by decide) | decide) : s₀.Frame A (wantRedo s p n seq b seg) := by
  unfold wantRedo
  repeat' first | with_reducible assumption | with_reducible apply sendRedo_frame | with_reducible apply redoBelow_frame | exact StatePart.sub ha (by decide) | split

/-! ### Tenancy -/

theorem roomReset_frame {A : List StatePart} {s₀ : State} {s : State} (h : s₀.Frame A s) (n : Nat) (ha : [.rooms] ⊆ A := by first | exact StatePart.sub (by assumption) (by decide) | decide) : s₀.Frame A (roomReset s n) := by
  unfold roomReset
  repeat' first | with_reducible assumption | with_reducible apply updRoom_frame

theorem resetRooms_frame {A : List StatePart} {s₀ : State} {s : State} (h : s₀.Frame A s) (p : Nat) (ha : [.rooms] ⊆ A := by first | exact StatePart.sub (by assumption) (by decide) | decide) : s₀.Frame A (resetRooms s p) := by
  unfold resetRooms
  repeat' first | with_reducible assumption | with_reducible exact State.Frame.refl _ _ | with_reducible apply roomReset_frame | with_reducible refine each_frame (fun _ _ => ?_) ?_

theorem formState_frame {A : List StatePart} {s₀ : State} {s : State} (h : s₀.Frame A s) (p : Nat) (ha : [.psched, .ppeer] ⊆ A := by first | exact StatePart.sub (by assumption) (by decide) | decide) : s₀.Frame A (formState s p) := by
  unfold formState
  repeat' first | with_reducible assumption | with_reducible apply updSched_frame | with_reducible apply updPeer_frame | exact StatePart.sub ha (by decide)

theorem lockBlocks_frame {A : List StatePart} {s₀ : State} {s : State} (h : s₀.Frame A s) (p : Nat) (ha : [.mem] ⊆ A := by first | exact StatePart.sub (by assumption) (by decide) | decide) : s₀.Frame A (lockBlocks s p) := by
  unfold lockBlocks
  extract_lets x0 x1
  repeat' first | with_reducible assumption | with_reducible refine setMem_frame ?_ ?_ | exact ha (by decide)

theorem formPart_frame {A : List StatePart} {s₀ : State} {s : State} (h : s₀.Frame A s) (p : Nat) (ha : [.rings, .rooms, .psec, .link, .mem, .can, .psched, .free, .log, .events, .ppeer] ⊆ A := by first | exact StatePart.sub (by assumption) (by decide) | decide) : s₀.Frame A (formPart s p) := by
  unfold formPart
  extract_lets x0 x1 x2
  have h0 : s₀.Frame A x0 := by
    unfold x0
    repeat' first | with_reducible assumption | with_reducible apply updSched_frame | exact StatePart.sub ha (by decide)
  clear_value x0
  have h1 : s₀.Frame A x1 := by
    unfold x1
    repeat' first | with_reducible assumption | with_reducible apply formState_frame | with_reducible apply lockBlocks_frame | exact StatePart.sub ha (by decide)
  clear_value x1
  have h2 : s₀.Frame A x2 := by
    unfold x2
    repeat' first | with_reducible assumption | with_reducible apply resetRings_frame | exact StatePart.sub ha (by decide)
  clear_value x2
  repeat' first | with_reducible assumption | with_reducible apply updPs_frame | exact StatePart.sub ha (by decide)

theorem clearOnChip_frame {A : List StatePart} {s₀ : State} {s : State} (h : s₀.Frame A s) (p : Nat) (ha : [.rooms, .mem, .psched, .ppeer] ⊆ A := by first | exact StatePart.sub (by assumption) (by decide) | decide) : s₀.Frame A (clearOnChip s p) := by
  unfold clearOnChip
  repeat' first | with_reducible assumption | with_reducible apply discardWhere_frame | with_reducible apply resetRooms_frame | with_reducible apply formState_frame | exact StatePart.sub ha (by decide)

theorem abortPart_frame {A : List StatePart} {s₀ : State} {s : State} (h : s₀.Frame A s) (p : Nat) (ha : [.ports] ⊆ A := by first | exact StatePart.sub (by assumption) (by decide) | decide) : s₀.Frame A (abortPart s p) := by
  unfold abortPart
  repeat' first | with_reducible assumption | with_reducible exact State.Frame.refl _ _ | with_reducible apply abortOp_frame | with_reducible refine each_frame (fun _ _ => ?_) ?_ | with_reducible refine foldl_frame (fun _ _ => ?_) ?_

theorem scrubClear_frame {A : List StatePart} {s₀ : State} {s : State} (h : s₀.Frame A s) (p : Nat) (ha : [.rooms, .psec, .mem, .psched, .ppeer] ⊆ A := by first | exact StatePart.sub (by assumption) (by decide) | decide) : s₀.Frame A (scrubClear s p) := by
  unfold scrubClear
  extract_lets x0
  repeat' first | with_reducible assumption | with_reducible apply updPs_frame | with_reducible apply clearOnChip_frame | exact StatePart.sub ha (by decide) | split

theorem scrubSteps_frame {A : List StatePart} {s₀ : State} {s : State} (h : s₀.Frame A s) (p : Nat) (st : SecState) (ha : [.rings, .rooms, .psec, .mem, .psched, .free, .ppeer] ⊆ A := by first | exact StatePart.sub (by assumption) (by decide) | decide) : s₀.Frame A (scrubSteps s p st) := by
  unfold scrubSteps
  repeat' first | with_reducible assumption | with_reducible apply updPs_frame | with_reducible apply takeFree_frame | with_reducible apply freshKey_frame | with_reducible apply refill_frame | with_reducible apply showRings_frame | with_reducible apply scrubClear_frame | exact StatePart.sub ha (by decide)

theorem startScrub_frame {A : List StatePart} {s₀ : State} {s : State} (h : s₀.Frame A s) (p : Nat) (st : SecState) (ha : [.rings, .rooms, .psec, .link, .mem, .can, .psched, .free, .ports, .log, .events, .ppeer] ⊆ A := by first | exact StatePart.sub (by assumption) (by decide) | decide) : s₀.Frame A (startScrub s p st) := by
  unfold startScrub
  repeat' first | with_reducible assumption | with_reducible apply updPs_frame | with_reducible apply logEvent_frame | with_reducible apply abandonRings_frame | with_reducible apply abortPart_frame | with_reducible apply scrubSteps_frame | with_reducible refine setMem_frame ?_ ?_ | exact ha (by decide) | exact StatePart.sub ha (by decide)

theorem endScrub_frame {A : List StatePart} {s₀ : State} {s : State} (h : s₀.Frame A s) (p : Nat) (ha : [.rings, .psec] ⊆ A := by first | exact StatePart.sub (by assumption) (by decide) | decide) : s₀.Frame A (endScrub s p) := by
  unfold endScrub
  extract_lets x0
  have h0 : s₀.Frame A x0 := by
    unfold x0
    repeat' first | with_reducible assumption | with_reducible apply updPs_frame | exact StatePart.sub ha (by decide)
  clear_value x0
  repeat' first | with_reducible assumption | with_reducible exact State.Frame.refl _ _ | with_reducible apply updRing_frame | with_reducible refine each_frame (fun _ _ => ?_) ?_ | exact StatePart.sub ha (by decide)

theorem partReset_frame {A : List StatePart} {s₀ : State} {s : State} (h : s₀.Frame A s) (p : Nat) (ha : [.rings, .rooms, .psec, .link, .mem, .can, .psched, .free, .ports, .log, .events, .ppeer] ⊆ A := by first | exact StatePart.sub (by assumption) (by decide) | decide) : s₀.Frame A (partReset s p) := by
  unfold partReset
  extract_lets x0 x1 x2 x3 x4
  have h1 : s₀.Frame A x1 := by
    unfold x1
    repeat' first | with_reducible assumption | with_reducible apply updPs_frame | exact StatePart.sub ha (by decide)
  clear_value x1
  have h2 : s₀.Frame A x2 := by
    unfold x2
    repeat' first | with_reducible assumption | with_reducible apply updPeer_frame | exact StatePart.sub ha (by decide)
  clear_value x2
  have h3 : s₀.Frame A x3 := by
    unfold x3
    repeat' first | with_reducible assumption | with_reducible apply resetRooms_frame | with_reducible apply abortPart_frame | exact StatePart.sub ha (by decide)
  clear_value x3
  have h4 : s₀.Frame A x4 := by
    unfold x4
    repeat' first | with_reducible assumption | with_reducible apply abandonRings_frame | exact StatePart.sub ha (by decide)
  clear_value x4
  repeat' first | with_reducible assumption | with_reducible apply updPs_frame | with_reducible apply flushPart_frame | with_reducible apply showRings_frame | with_reducible apply formState_frame | with_reducible apply startScrub_frame | exact StatePart.sub ha (by decide) | split

theorem stopRing_frame {A : List StatePart} {s₀ : State} {s : State} (h : s₀.Frame A s) (n : Nat) (ha : [.rings] ⊆ A := by first | exact StatePart.sub (by assumption) (by decide) | decide) : s₀.Frame A (stopRing s n) := by
  unfold stopRing
  repeat' first | with_reducible assumption | with_reducible apply updRing_frame

theorem stopPart_frame {A : List StatePart} {s₀ : State} {s : State} (h : s₀.Frame A s) (p : Nat) (st : SecState) (rq : StopReq) (ha : [.rings, .psec] ⊆ A := by first | exact StatePart.sub (by assumption) (by decide) | decide) : s₀.Frame A (stopPart s p st rq) := by
  unfold stopPart
  extract_lets x0
  have h0 : s₀.Frame A x0 := by
    unfold x0
    repeat' first | with_reducible assumption | with_reducible apply updPs_frame | exact StatePart.sub ha (by decide)
  clear_value x0
  repeat' first | with_reducible assumption | with_reducible exact State.Frame.refl _ _ | with_reducible apply stopRing_frame | with_reducible refine each_frame (fun _ _ => ?_) ?_ | exact StatePart.sub ha (by decide)

theorem sealImage_frame {A : List StatePart} {s₀ : State} {s : State} (h : s₀.Frame A s) (p : Nat) (rq : StopReq) (ha : [.psec, .frozen, .mem] ⊆ A := by first | exact StatePart.sub (by assumption) (by decide) | decide) : s₀.Frame A (sealImage s p rq) := by
  unfold sealImage
  extract_lets x0 x1 x2 x3
  have h0 : s₀.Frame A x0 := by
    unfold x0
    repeat' first | with_reducible assumption | with_reducible apply drainPart_frame | exact StatePart.sub ha (by decide)
  clear_value x0
  have h2 : s₀.Frame A x2 := by
    unfold x2
    repeat' first | with_reducible assumption | fail_if_no_progress ((with_reducible refine State.Frame.lit ?_ ?_ ?_ ?_ ?_ ?_ ?_ ?_ ?_ ?_ ?_ ?_ ?_ ?_ ?_ ?_ ?_ ?_ ?_ ?_ ?_ ?_ ?_ ?_ ?_ ?_ ?_ ?_ ?_) <;> first | with_reducible exact Or.inr rfl | exact Or.inl (ha (by decide)) | skip)
  clear_value x2
  repeat' first | with_reducible assumption | with_reducible apply updPs_frame | exact StatePart.sub ha (by decide)

theorem settleStop_frame {A : List StatePart} {s₀ : State} {s : State} (h : s₀.Frame A s) (p : Nat) (ha : [.rings, .psec, .frozen, .mem] ⊆ A := by first | exact StatePart.sub (by assumption) (by decide) | decide) : s₀.Frame A (settleStop s p) := by
  unfold settleStop
  repeat' first | with_reducible assumption | with_reducible exact State.Frame.refl _ _ | with_reducible apply updPs_frame | with_reducible apply closeStep_frame | with_reducible apply sealImage_frame | with_reducible refine each_frame (fun _ _ => ?_) ?_ | exact StatePart.sub ha (by decide) | split | dsimp +zetaDelta only

theorem slotStopRequest_frame {A : List StatePart} {s₀ : State} {s : State} (h : s₀.Frame A s) (p : Nat) (ha : [.rings, .psec, .frozen, .mem] ⊆ A := by first | exact StatePart.sub (by assumption) (by decide) | decide) : s₀.Frame A (slotStopRequest s p) := by
  unfold slotStopRequest
  extract_lets x0
  repeat' first | with_reducible assumption | with_reducible apply stopPart_frame | with_reducible apply settleStop_frame | exact StatePart.sub ha (by decide) | split

theorem beginSlot_frame {A : List StatePart} {s₀ : State} {s : State} (h : s₀.Frame A s) (p : Nat) (e : EventEntry) (ha : [.rings, .rooms, .psec, .link, .mem, .can, .psched, .free, .log, .events, .ppeer] ⊆ A := by first | exact StatePart.sub (by assumption) (by decide) | decide) : s₀.Frame A (beginSlot s p e) := by
  unfold beginSlot
  extract_lets x0 x1 x2 x3 x4
  have h1 : s₀.Frame A x1 := by
    unfold x1
    repeat' first | with_reducible assumption | with_reducible apply updPs_frame | exact StatePart.sub ha (by decide)
  clear_value x1
  have h2 : s₀.Frame A x2 := by
    unfold x2
    refine each_frame (fun x n => ?_) (resetRings_frame h1 _ (StatePart.sub ha (by decide)))
    exact updRing_frame (State.Frame.refl _ _) _ _ (StatePart.sub ha (by decide))
  clear_value x2
  have h3 : s₀.Frame A x3 := by
    unfold x3
    repeat' first | with_reducible assumption | with_reducible apply updPeer_frame | exact StatePart.sub ha (by decide)
  clear_value x3
  have h4 : s₀.Frame A x4 := by
    unfold x4
    repeat' first | with_reducible assumption | with_reducible apply updSched_frame | exact StatePart.sub ha (by decide)
  clear_value x4
  repeat' first | with_reducible assumption | with_reducible apply updPs_frame | with_reducible apply takeFree_frame | with_reducible apply freshKey_frame | with_reducible apply refill_frame | exact StatePart.sub ha (by decide) | split

theorem endSlot_frame {A : List StatePart} {s₀ : State} {s : State} (h : s₀.Frame A s) (T : U64) (p : Nat) (ha : [.rings, .rooms, .psec, .link, .mem, .can, .psched, .free, .ports, .log, .events, .ppeer] ⊆ A := by first | exact StatePart.sub (by assumption) (by decide) | decide) : s₀.Frame A (endSlot T s p) := by
  unfold endSlot
  repeat' first | with_reducible assumption | with_reducible apply updPs_frame | with_reducible apply logEvent_frame | with_reducible apply startScrub_frame | exact StatePart.sub ha (by decide) | split

theorem changeMode_frame {A : List StatePart} {s₀ : State} {s : State} (h : s₀.Frame A s) (m : PMode) (ha : [.rings, .rooms, .psec, .link, .mem, .can, .psched, .free, .ports, .pendingMode, .log, .mode, .events, .ppeer] ⊆ A := by first | exact StatePart.sub (by assumption) (by decide) | decide) : s₀.Frame A (changeMode s m) := by
  unfold changeMode
  extract_lets x0
  have h0 : s₀.Frame A x0 := by
    unfold x0
    repeat' first | with_reducible assumption | with_reducible exact State.Frame.refl _ _ | with_reducible apply partReset_frame | with_reducible refine each_frame (fun _ _ => ?_) ?_ | exact StatePart.sub ha (by decide)
  clear_value x0
  repeat' first | with_reducible assumption | with_reducible exact State.Frame.refl _ _ | with_reducible apply updPs_frame | with_reducible apply takeFree_frame | with_reducible apply formState_frame | with_reducible refine each_frame (fun _ _ => ?_) ?_ | with_reducible refine setMem_frame ?_ ?_ | exact ha (by decide) | exact StatePart.sub ha (by decide) | fail_if_no_progress ((with_reducible refine State.Frame.lit ?_ ?_ ?_ ?_ ?_ ?_ ?_ ?_ ?_ ?_ ?_ ?_ ?_ ?_ ?_ ?_ ?_ ?_ ?_ ?_ ?_ ?_ ?_ ?_ ?_ ?_ ?_ ?_ ?_) <;> first | with_reducible exact Or.inr rfl | exact Or.inl (ha (by decide)) | skip)

theorem shutdown_frame {A : List StatePart} {s₀ : State} {s : State} (h : s₀.Frame A s) (cause : U16) (ctl : Bool) (ha : [.psec, .mem, .can, .log, .boot, .pw] ⊆ A := by first | exact StatePart.sub (by assumption) (by decide) | decide) : s₀.Frame A (shutdown s cause ctl) := by
  unfold shutdown
  repeat' first | with_reducible assumption | with_reducible refine setMem_frame ?_ ?_ | exact ha (by decide) | with_reducible exact State.Frame.refl _ _ | with_reducible apply updPs_frame | with_reducible apply logEvent_frame | with_reducible refine each_frame (fun _ _ => ?_) ?_ | exact StatePart.sub ha (by decide) | fail_if_no_progress ((with_reducible refine State.Frame.lit ?_ ?_ ?_ ?_ ?_ ?_ ?_ ?_ ?_ ?_ ?_ ?_ ?_ ?_ ?_ ?_ ?_ ?_ ?_ ?_ ?_ ?_ ?_ ?_ ?_ ?_ ?_ ?_ ?_) <;> first | with_reducible exact Or.inr rfl | exact Or.inl (ha (by decide)) | skip)

end Sys2Proof.Machine
end

