-- ==== Sys2Proof/Laws/FrameDevice.lean ====
section
/-! SUPPORT. Which parts of the state the operations of these files may change: Events, Service, Security, Power, Boot, Dict, Time, Can. -/

namespace Sys2Proof.Machine

set_option linter.unusedVariables false
set_option linter.unusedTactic false
set_option linter.unreachableTactic false

/-! ### Events -/

theorem writeEvent_frame {A : List StatePart} {s₀ : State} {s : State} (h : s₀.Frame A s) (after : State) (n : Nat) (val : BitVec 128) (ha : [.stopSent, .events] ⊆ A := by first | exact StatePart.sub (by assumption) (by decide) | decide) : s₀.Frame A (writeEvent s after n val).1 := by
  unfold writeEvent
  repeat' first | with_reducible assumption | with_reducible apply updEvent_frame | exact StatePart.sub ha (by decide) | split | fail_if_no_progress ((with_reducible refine State.Frame.lit ?_ ?_ ?_ ?_ ?_ ?_ ?_ ?_ ?_ ?_ ?_ ?_ ?_ ?_ ?_ ?_ ?_ ?_ ?_ ?_ ?_ ?_ ?_ ?_ ?_ ?_ ?_ ?_ ?_) <;> first | with_reducible exact Or.inr rfl | exact Or.inl (ha (by decide)) | skip) | dsimp +zetaDelta only

theorem markFired_frame {A : List StatePart} {s₀ : State} {s : State} (h : s₀.Frame A s) (n : Nat) (ha : [.firedNow, .events, .firedStops] ⊆ A := by first | exact StatePart.sub (by assumption) (by decide) | decide) : s₀.Frame A (markFired s n) := by
  unfold markFired
  extract_lets x0
  repeat' first | with_reducible assumption | with_reducible apply updEvent_frame | exact StatePart.sub ha (by decide) | fail_if_no_progress ((with_reducible refine State.Frame.lit ?_ ?_ ?_ ?_ ?_ ?_ ?_ ?_ ?_ ?_ ?_ ?_ ?_ ?_ ?_ ?_ ?_ ?_ ?_ ?_ ?_ ?_ ?_ ?_ ?_ ?_ ?_ ?_ ?_) <;> first | with_reducible exact Or.inr rfl | exact Or.inl (ha (by decide)) | skip)

theorem markRefused_frame {A : List StatePart} {s₀ : State} {s : State} (h : s₀.Frame A s) (n : Nat) (ha : [.firedNow, .events] ⊆ A := by first | exact StatePart.sub (by assumption) (by decide) | decide) : s₀.Frame A (markRefused s n) := by
  unfold markRefused
  repeat' first | with_reducible assumption | with_reducible apply updEvent_frame | exact StatePart.sub ha (by decide) | fail_if_no_progress ((with_reducible refine State.Frame.lit ?_ ?_ ?_ ?_ ?_ ?_ ?_ ?_ ?_ ?_ ?_ ?_ ?_ ?_ ?_ ?_ ?_ ?_ ?_ ?_ ?_ ?_ ?_ ?_ ?_ ?_ ?_ ?_ ?_) <;> first | with_reducible exact Or.inr rfl | exact Or.inl (ha (by decide)) | skip)

theorem sendStop_frame {A : List StatePart} {s₀ : State} {s : State} (h : s₀.Frame A s) (n : Nat) (p : Nat) (ha : [.rings, .psec, .frozen, .stopSent, .mem] ⊆ A := by first | exact StatePart.sub (by assumption) (by decide) | decide) : s₀.Frame A (sendStop s n p) := by
  unfold sendStop
  repeat' first | with_reducible assumption | with_reducible apply slotStopRequest_frame | exact StatePart.sub ha (by decide) | fail_if_no_progress ((with_reducible refine State.Frame.lit ?_ ?_ ?_ ?_ ?_ ?_ ?_ ?_ ?_ ?_ ?_ ?_ ?_ ?_ ?_ ?_ ?_ ?_ ?_ ?_ ?_ ?_ ?_ ?_ ?_ ?_ ?_ ?_ ?_) <;> first | with_reducible exact Or.inr rfl | exact Or.inl (ha (by decide)) | skip)

theorem execSlotStop_frame {A : List StatePart} (s : State) (n : BitVec 8) (p : BitVec 2) (ha : [.rings, .psec, .frozen, .stopSent, .mem] ⊆ A := by first | exact StatePart.sub (by assumption) (by decide) | decide) : Out.Frame A s (execSlotStop n p s) := by
  unfold execSlotStop
  repeat' first | with_reducible exact State.Frame.refl _ _ | with_reducible apply sendStop_frame | with_reducible refine act_frame ?_ | exact StatePart.sub ha (by decide)

theorem execSlotEnd_frame {A : List StatePart} (s : State) (n : BitVec 8) (ha : [.rings, .rooms, .psec, .frozen, .link, .stopSent, .mem, .can, .psched, .free, .ports, .log, .firedNow, .events, .ppeer, .firedStops] ⊆ A := by first | exact StatePart.sub (by assumption) (by decide) | decide) : Out.Frame A s (execSlotEnd n s) := by
  unfold execSlotEnd
  repeat' first | with_reducible assumption | with_reducible exact State.Frame.refl _ _ | fail_if_no_progress extract_lets | exact StatePart.sub ha (by decide) | with_reducible apply endSlot_frame | with_reducible apply markFired_frame | with_reducible apply sendStop_frame | with_reducible refine each_frame (fun _ _ => ?_) ?_ | with_reducible refine act_frame ?_ | with_reducible refine next_frame ?_ | with_reducible refine ite_frame ?_ ?_ | split | fail_if_no_progress ((with_reducible refine State.Frame.lit ?_ ?_ ?_ ?_ ?_ ?_ ?_ ?_ ?_ ?_ ?_ ?_ ?_ ?_ ?_ ?_ ?_ ?_ ?_ ?_ ?_ ?_ ?_ ?_ ?_ ?_ ?_ ?_ ?_) <;> first | with_reducible exact Or.inr rfl | exact Or.inl (ha (by decide)) | skip) | dsimp +zetaDelta only

theorem lateStops_frame {A : List StatePart} {s₀ : State} {s : State} (h : s₀.Frame A s) (p : Nat) (ha : [.rings, .psec, .frozen, .stopSent, .mem] ⊆ A := by first | exact StatePart.sub (by assumption) (by decide) | decide) : s₀.Frame A (lateStops s p) := by
  unfold lateStops
  extract_lets x0
  have h0 : s₀.Frame A x0 := by
    unfold x0
    repeat' first | with_reducible assumption | fail_if_no_progress ((with_reducible refine State.Frame.lit ?_ ?_ ?_ ?_ ?_ ?_ ?_ ?_ ?_ ?_ ?_ ?_ ?_ ?_ ?_ ?_ ?_ ?_ ?_ ?_ ?_ ?_ ?_ ?_ ?_ ?_ ?_ ?_ ?_) <;> first | with_reducible exact Or.inr rfl | exact Or.inl (ha (by decide)) | skip)
  clear_value x0
  repeat' first | with_reducible assumption | with_reducible exact State.Frame.refl _ _ | with_reducible apply sendStop_frame | with_reducible refine each_frame (fun _ _ => ?_) ?_

theorem execSlotStart_frame {A : List StatePart} (s : State) (n : BitVec 8) (ha : [.rings, .rooms, .psec, .frozen, .link, .stopSent, .mem, .can, .psched, .free, .log, .firedNow, .events, .ppeer, .firedStops] ⊆ A := by first | exact StatePart.sub (by assumption) (by decide) | decide) : Out.Frame A s (execSlotStart n s) := by
  unfold execSlotStart
  repeat' first | with_reducible exact State.Frame.refl _ _ | with_reducible apply logEvent_frame | with_reducible apply beginSlot_frame | with_reducible apply markFired_frame | with_reducible apply markRefused_frame | with_reducible apply lateStops_frame | with_reducible refine act_frame ?_ | exact StatePart.sub ha (by decide) | split | dsimp +zetaDelta only

theorem execPowerCapChange_frame {A : List StatePart} (s : State) (n : BitVec 8) (ha : [.capEvent, .pw, .firedNow, .events, .firedStops] ⊆ A := by first | exact StatePart.sub (by assumption) (by decide) | decide) : Out.Frame A s (execPowerCapChange n s) := by
  unfold execPowerCapChange
  repeat' first | with_reducible exact State.Frame.refl _ _ | with_reducible apply markFired_frame | with_reducible apply markRefused_frame | with_reducible refine act_frame ?_ | exact StatePart.sub ha (by decide) | split | fail_if_no_progress ((with_reducible refine State.Frame.lit ?_ ?_ ?_ ?_ ?_ ?_ ?_ ?_ ?_ ?_ ?_ ?_ ?_ ?_ ?_ ?_ ?_ ?_ ?_ ?_ ?_ ?_ ?_ ?_ ?_ ?_ ?_ ?_ ?_) <;> first | with_reducible exact Or.inr rfl | exact Or.inl (ha (by decide)) | skip) | dsimp +zetaDelta only

theorem execCheckpointSealing_frame {A : List StatePart} (s : State) (n : BitVec 8) (ha : [.rings, .psec, .frozen, .mem, .firedNow, .events, .firedStops] ⊆ A := by first | exact StatePart.sub (by assumption) (by decide) | decide) : Out.Frame A s (execCheckpointSealing n s) := by
  unfold execCheckpointSealing
  repeat' first | with_reducible exact State.Frame.refl _ _ | with_reducible apply stopPart_frame | with_reducible apply settleStop_frame | with_reducible apply markFired_frame | with_reducible apply markRefused_frame | with_reducible refine each_frame (fun _ _ => ?_) ?_ | with_reducible refine act_frame ?_ | exact StatePart.sub ha (by decide) | split | dsimp +zetaDelta only

theorem execScrub_frame {A : List StatePart} (s : State) (n : BitVec 8) (ha : [.rings, .rooms, .psec, .mem, .psched, .free, .firedNow, .events, .ppeer, .firedStops] ⊆ A := by first | exact StatePart.sub (by assumption) (by decide) | decide) : Out.Frame A s (execScrub n s) := by
  unfold execScrub
  repeat' first | with_reducible exact State.Frame.refl _ _ | with_reducible apply scrubSteps_frame | with_reducible apply drainPart_frame | with_reducible apply markFired_frame | with_reducible apply markRefused_frame | with_reducible refine each_frame (fun _ _ => ?_) ?_ | with_reducible refine act_frame ?_ | exact StatePart.sub ha (by decide) | split | dsimp +zetaDelta only

theorem execTroubleLogStamp_frame {A : List StatePart} (s : State) (n : BitVec 8) (ha : [.can, .log, .firedNow, .events, .firedStops] ⊆ A := by first | exact StatePart.sub (by assumption) (by decide) | decide) : Out.Frame A s (execTroubleLogStamp n s) := by
  unfold execTroubleLogStamp
  repeat' first | with_reducible exact State.Frame.refl _ _ | with_reducible apply logEvent_frame | with_reducible apply markFired_frame | with_reducible refine act_frame ?_ | exact StatePart.sub ha (by decide)

theorem execScrubEnd_frame {A : List StatePart} (s : State) (p : BitVec 2) (ha : [.rings, .psec] ⊆ A := by first | exact StatePart.sub (by assumption) (by decide) | decide) : Out.Frame A s (execScrubEnd p s) := by
  unfold execScrubEnd
  repeat' first | with_reducible exact State.Frame.refl _ _ | with_reducible apply endScrub_frame | with_reducible refine act_frame ?_ | exact StatePart.sub ha (by decide)

theorem armDevice_frame {A : List StatePart} {s₀ : State} {s : State} (h : s₀.Frame A s) (n : Nat) (kind : Byte) (p : Nat) (time : U64) (arg : U32) (ha : [.events] ⊆ A := by first | exact StatePart.sub (by assumption) (by decide) | decide) : s₀.Frame A (armDevice s n kind p time arg) := by
  unfold armDevice
  repeat' first | with_reducible assumption | with_reducible apply updEvent_frame

theorem freeDevice_frame {A : List StatePart} {s₀ : State} {s : State} (h : s₀.Frame A s) (n : Nat) (ha : [.events] ⊆ A := by first | exact StatePart.sub (by assumption) (by decide) | decide) : s₀.Frame A (freeDevice s n) := by
  unfold freeDevice
  repeat' first | with_reducible assumption | with_reducible apply updEvent_frame

/-! ### Service -/

theorem moveTraffic_frame {A : List StatePart} {s₀ : State} {s : State} (h : s₀.Frame A s) (j : Nat) (ha : [.ports] ⊆ A := by first | exact StatePart.sub (by assumption) (by decide) | decide) : s₀.Frame A (moveTraffic s j) := by
  unfold moveTraffic
  extract_lets x0 x1 x2
  have h2 : s₀.Frame A x2 := by
    unfold x2
    repeat' first | with_reducible assumption | with_reducible exact State.Frame.refl _ _ | fail_if_no_progress extract_lets | exact StatePart.sub ha (by decide) | with_reducible apply updPort_frame | with_reducible apply queueFrame_frame | with_reducible refine foldl_frame (fun _ _ => ?_) ?_ | split | fail_if_no_progress ((with_reducible refine State.Frame.lit ?_ ?_ ?_ ?_ ?_ ?_ ?_ ?_ ?_ ?_ ?_ ?_ ?_ ?_ ?_ ?_ ?_ ?_ ?_ ?_ ?_ ?_ ?_ ?_ ?_ ?_ ?_ ?_ ?_) <;> first | with_reducible exact Or.inr rfl | exact Or.inl (ha (by decide)) | skip) | dsimp +zetaDelta only
  clear_value x2
  repeat' first | with_reducible assumption | with_reducible exact State.Frame.refl _ _ | fail_if_no_progress extract_lets | exact StatePart.sub ha (by decide) | with_reducible apply updPort_frame | with_reducible apply queueFrame_frame | with_reducible refine foldl_frame (fun _ _ => ?_) ?_ | split | fail_if_no_progress ((with_reducible refine State.Frame.lit ?_ ?_ ?_ ?_ ?_ ?_ ?_ ?_ ?_ ?_ ?_ ?_ ?_ ?_ ?_ ?_ ?_ ?_ ?_ ?_ ?_ ?_ ?_ ?_ ?_ ?_ ?_ ?_ ?_) <;> first | with_reducible exact Or.inr rfl | exact Or.inl (ha (by decide)) | skip) | dsimp +zetaDelta only

theorem setLanes_frame {A : List StatePart} {s₀ : State} {s : State} (h : s₀.Frame A s) (j : Nat) (lanes : BitVec 4) (ha : [.ports] ⊆ A := by first | exact StatePart.sub (by assumption) (by decide) | decide) : s₀.Frame A (setLanes s j lanes) := by
  unfold setLanes
  extract_lets x0 x1
  have h1 : s₀.Frame A x1 := by
    unfold x1
    repeat' first | with_reducible assumption | with_reducible exact State.Frame.refl _ _ | fail_if_no_progress extract_lets | exact StatePart.sub ha (by decide) | with_reducible apply updPort_frame | with_reducible apply moveTraffic_frame | with_reducible refine ite_frame ?_ ?_ | split | fail_if_no_progress ((with_reducible refine State.Frame.lit ?_ ?_ ?_ ?_ ?_ ?_ ?_ ?_ ?_ ?_ ?_ ?_ ?_ ?_ ?_ ?_ ?_ ?_ ?_ ?_ ?_ ?_ ?_ ?_ ?_ ?_ ?_ ?_ ?_) <;> first | with_reducible exact Or.inr rfl | exact Or.inl (ha (by decide)) | skip) | dsimp +zetaDelta only
  clear_value x1
  repeat' first | with_reducible assumption | with_reducible exact State.Frame.refl _ _ | fail_if_no_progress extract_lets | exact StatePart.sub ha (by decide) | with_reducible apply updPort_frame | with_reducible apply moveTraffic_frame | with_reducible refine ite_frame ?_ ?_ | split | fail_if_no_progress ((with_reducible refine State.Frame.lit ?_ ?_ ?_ ?_ ?_ ?_ ?_ ?_ ?_ ?_ ?_ ?_ ?_ ?_ ?_ ?_ ?_ ?_ ?_ ?_ ?_ ?_ ?_ ?_ ?_ ?_ ?_ ?_ ?_) <;> first | with_reducible exact Or.inr rfl | exact Or.inl (ha (by decide)) | skip) | dsimp +zetaDelta only

theorem roomTaken_frame {A : List StatePart} {s₀ : State} {s : State} (h : s₀.Frame A s) (n : Nat) (ha : [.rings, .rooms, .link, .mem, .can, .psched, .free, .ports, .log, .events] ⊆ A := by first | exact StatePart.sub (by assumption) (by decide) | decide) : s₀.Frame A (roomTaken s n) := by
  unfold roomTaken
  extract_lets x0 x1 x2
  have h1 : s₀.Frame A x1 := by
    unfold x1
    repeat' first | with_reducible assumption | with_reducible apply updSched_frame | exact StatePart.sub ha (by decide)
  clear_value x1
  have h2 : s₀.Frame A x2 := by
    unfold x2
    repeat' first | with_reducible assumption | with_reducible apply faultOp_frame | split
  clear_value x2
  repeat' first | with_reducible assumption | with_reducible exact State.Frame.refl _ _ | with_reducible apply updOp_frame | with_reducible apply faultOp_frame | with_reducible refine each_frame (fun _ _ => ?_) ?_ | with_reducible refine foldl_frame (fun _ _ => ?_) ?_ | exact StatePart.sub ha (by decide) | split

theorem solverTaken_frame {A : List StatePart} {s₀ : State} {s : State} (h : s₀.Frame A s) (u : Nat) (ha : [.rings, .rooms, .link, .mem, .can, .psched, .free, .ports, .log, .events] ⊆ A := by first | exact StatePart.sub (by assumption) (by decide) | decide) : s₀.Frame A (solverTaken s u) := by
  unfold solverTaken
  extract_lets x0 x1
  repeat' first | with_reducible assumption | with_reducible exact State.Frame.refl _ _ | with_reducible apply updOp_frame | with_reducible apply faultOp_frame | with_reducible refine each_frame (fun _ _ => ?_) ?_ | with_reducible refine foldl_frame (fun _ _ => ?_) ?_ | exact StatePart.sub ha (by decide) | split

theorem pcTaken_frame {A : List StatePart} {s₀ : State} {s : State} (h : s₀.Frame A s) (n : Nat) (ha : [.mem] ⊆ A := by first | exact StatePart.sub (by assumption) (by decide) | decide) : s₀.Frame A (pcTaken s n) := by
  unfold pcTaken
  repeat' first | with_reducible assumption | with_reducible apply discardWhere_frame

theorem adderTaken_frame {A : List StatePart} {s₀ : State} {s : State} (h : s₀.Frame A s) (before : State) (u : Nat) (ha : [.rings, .ports] ⊆ A := by first | exact StatePart.sub (by assumption) (by decide) | decide) : s₀.Frame A (adderTaken before s u) := by
  unfold adderTaken
  extract_lets x0 x1
  repeat' first | with_reducible assumption | with_reducible exact State.Frame.refl _ _ | with_reducible apply wantRedo_frame | with_reducible refine foldl_frame (fun _ _ => ?_) ?_

theorem endTraffic_frame {A : List StatePart} {s₀ : State} {s : State} (h : s₀.Frame A s) (before : State) (cls : Nat) (num : Nat) (ha : [.rings, .rooms, .link, .mem, .can, .psched, .free, .ports, .log, .events] ⊆ A := by first | exact StatePart.sub (by assumption) (by decide) | decide) : s₀.Frame A (endTraffic before s cls num) := by
  unfold endTraffic
  repeat' first | with_reducible assumption | with_reducible apply setLanes_frame | with_reducible apply roomTaken_frame | with_reducible apply solverTaken_frame | with_reducible apply pcTaken_frame | with_reducible apply adderTaken_frame | exact StatePart.sub ha (by decide) | split

theorem takeOut_frame {A : List StatePart} {s₀ : State} {s : State} (h : s₀.Frame A s) (cls : Nat) (num : Nat) (ha : [.rings, .rooms, .link, .svc, .mem, .can, .psched, .free, .ports, .log, .events] ⊆ A := by first | exact StatePart.sub (by assumption) (by decide) | decide) : s₀.Frame A (takeOut s cls num) := by
  unfold takeOut
  repeat' first | with_reducible assumption | with_reducible apply logEvent_frame | with_reducible apply endTraffic_frame | exact StatePart.sub ha (by decide) | split | fail_if_no_progress ((with_reducible refine State.Frame.lit ?_ ?_ ?_ ?_ ?_ ?_ ?_ ?_ ?_ ?_ ?_ ?_ ?_ ?_ ?_ ?_ ?_ ?_ ?_ ?_ ?_ ?_ ?_ ?_ ?_ ?_ ?_ ?_ ?_) <;> first | with_reducible exact Or.inr rfl | exact Or.inl (ha (by decide)) | skip)

/-- A lane taken out touches its port, the service record and the log. -/
theorem takeLane_frame {A : List StatePart} {s₀ : State} {s : State} (h : s₀.Frame A s) (num : Nat) (ha : [.ports, .svc, .can, .log] ⊆ A := by first | exact StatePart.sub (by assumption) (by decide) | decide) : s₀.Frame A (takeOut s 3 num) := by
  unfold takeOut
  split
  · exact State.Frame.trans h (by constructor <;> first | rfl | exact Or.inr rfl | exact Or.inl (ha (by decide)))
  · split
    · exact h
    · refine logEvent_frame (setLanes_frame (State.Frame.trans h ?_) _ _ (StatePart.sub ha (by decide))) _ _ (StatePart.sub ha (by decide))
      constructor <;> first | rfl | exact Or.inr rfl | exact Or.inl (ha (by decide))

theorem noteCorrected_frame {A : List StatePart} {s₀ : State} {s : State} (h : s₀.Frame A s) (cls : Nat) (num : Nat) (cause : U16) (ha : [.rings, .rooms, .link, .svc, .mem, .can, .psched, .free, .ports, .log, .events] ⊆ A := by first | exact StatePart.sub (by assumption) (by decide) | decide) : s₀.Frame A (noteCorrected s cls num cause) := by
  unfold noteCorrected
  repeat' first | with_reducible assumption | with_reducible apply logEvent_frame | with_reducible apply takeOut_frame | exact StatePart.sub ha (by decide) | split | fail_if_no_progress ((with_reducible refine State.Frame.lit ?_ ?_ ?_ ?_ ?_ ?_ ?_ ?_ ?_ ?_ ?_ ?_ ?_ ?_ ?_ ?_ ?_ ?_ ?_ ?_ ?_ ?_ ?_ ?_ ?_ ?_ ?_ ?_ ?_) <;> first | with_reducible exact Or.inr rfl | exact Or.inl (ha (by decide)) | skip) | dsimp +zetaDelta only

theorem noteUncorrectable_frame {A : List StatePart} {s₀ : State} {s : State} (h : s₀.Frame A s) (cls : Nat) (num : Nat) (ha : [.rings, .rooms, .link, .svc, .mem, .can, .psched, .free, .ports, .log, .events] ⊆ A := by first | exact StatePart.sub (by assumption) (by decide) | decide) : s₀.Frame A (noteUncorrectable s cls num) := by
  unfold noteUncorrectable
  repeat' first | with_reducible assumption | with_reducible apply takeOut_frame | split | fail_if_no_progress ((with_reducible refine State.Frame.lit ?_ ?_ ?_ ?_ ?_ ?_ ?_ ?_ ?_ ?_ ?_ ?_ ?_ ?_ ?_ ?_ ?_ ?_ ?_ ?_ ?_ ?_ ?_ ?_ ?_ ?_ ?_ ?_ ?_) <;> first | with_reducible exact Or.inr rfl | exact Or.inl (ha (by decide)) | skip) | dsimp +zetaDelta only

theorem countBeat_frame {A : List StatePart} {s₀ : State} {s : State} (h : s₀.Frame A s) (g k : Nat) (ha : [.mem] ⊆ A := by first | exact StatePart.sub (by assumption) (by decide) | decide) : s₀.Frame A (countBeat s g k) := by
  unfold countBeat
  repeat' first | with_reducible assumption | with_reducible refine setMem_frame ?_ ?_ | exact ha (by decide)

theorem countLine_frame {A : List StatePart} {s₀ : State} {s : State} (h : s₀.Frame A s) (g k : Nat) (ha : [.mem] ⊆ A := by first | exact StatePart.sub (by assumption) (by decide) | decide) : s₀.Frame A (countLine s g k) := by
  unfold countLine
  repeat' first | with_reducible assumption | with_reducible refine setMem_frame ?_ ?_ | exact ha (by decide)

theorem reportGranule_frame {A : List StatePart} {s₀ : State} {s : State} (h : s₀.Frame A s) (g kind : Nat) (cause : U16) (ha : [.rings, .rooms, .link, .svc, .mem, .can, .psched, .free, .ports, .log, .events] ⊆ A := by first | exact StatePart.sub (by assumption) (by decide) | decide) : s₀.Frame A (reportGranule s g kind cause) := by
  unfold reportGranule
  repeat' first | with_reducible assumption | with_reducible apply logEvent_frame | with_reducible apply memEvent_frame | exact StatePart.sub ha (by decide) | dsimp +zetaDelta only

theorem reportWord_frame {A : List StatePart} {s₀ : State} {s : State} (h : s₀.Frame A s) (g : Nat) (unit : Nat) (uclass : Nat) (logUnit : Byte) (p : Option Nat) (ha : [.mem, .can, .log] ⊆ A := by first | exact StatePart.sub (by assumption) (by decide) | decide) : s₀.Frame A (reportWord s g unit uclass logUnit p) := by
  unfold reportWord
  repeat' first | with_reducible assumption | with_reducible exact State.Frame.refl _ _ | exact StatePart.sub ha (by decide) | with_reducible apply logEvent_frame | with_reducible apply memEvent_frame | split | fail_if_no_progress ((with_reducible refine State.Frame.lit ?_ ?_ ?_ ?_ ?_ ?_ ?_ ?_ ?_ ?_ ?_ ?_ ?_ ?_ ?_ ?_ ?_ ?_ ?_ ?_ ?_ ?_ ?_ ?_ ?_ ?_ ?_ ?_ ?_) <;> first | with_reducible exact Or.inr rfl | exact Or.inl (ha (by decide)) | skip)

theorem reportFound_frame {A : List StatePart} {s₀ : State} {s : State} (h : s₀.Frame A s) (f : Found) (ha : [.rings, .rooms, .link, .svc, .mem, .can, .psched, .free, .ports, .log, .events] ⊆ A := by first | exact StatePart.sub (by assumption) (by decide) | decide) : s₀.Frame A (reportFound s f) := by
  unfold reportFound
  repeat' first | with_reducible assumption | with_reducible exact State.Frame.refl _ _ | fail_if_no_progress extract_lets | exact StatePart.sub ha (by decide) | with_reducible apply noteCorrected_frame | with_reducible apply noteUncorrectable_frame | with_reducible apply countBeat_frame | with_reducible apply countLine_frame | with_reducible apply reportGranule_frame | with_reducible apply reportWord_frame | with_reducible refine loop_frame (fun _ _ => ?_) ?_ | with_reducible refine ite_frame ?_ ?_ | split | fail_if_no_progress ((with_reducible refine State.Frame.lit ?_ ?_ ?_ ?_ ?_ ?_ ?_ ?_ ?_ ?_ ?_ ?_ ?_ ?_ ?_ ?_ ?_ ?_ ?_ ?_ ?_ ?_ ?_ ?_ ?_ ?_ ?_ ?_ ?_) <;> first | with_reducible exact Or.inr rfl | exact Or.inl (ha (by decide)) | skip) | dsimp +zetaDelta only

theorem settleFound_frame {A : List StatePart} {s₀ : State} {s : State} (h : s₀.Frame A s)  (ha : [.rings, .rooms, .link, .svc, .mem, .can, .psched, .free, .ports, .log, .events] ⊆ A := by first | exact StatePart.sub (by assumption) (by decide) | decide) : s₀.Frame A (settleFound s) := by
  unfold settleFound
  repeat' first | with_reducible assumption | with_reducible exact State.Frame.refl _ _ | fail_if_no_progress extract_lets | exact StatePart.sub ha (by decide) | with_reducible apply reportFound_frame | with_reducible refine foldl_frame (fun _ _ => ?_) ?_ | with_reducible refine setMem_frame ?_ ?_ | exact ha (by decide) | with_reducible refine ite_frame ?_ ?_ | split | fail_if_no_progress ((with_reducible refine State.Frame.lit ?_ ?_ ?_ ?_ ?_ ?_ ?_ ?_ ?_ ?_ ?_ ?_ ?_ ?_ ?_ ?_ ?_ ?_ ?_ ?_ ?_ ?_ ?_ ?_ ?_ ?_ ?_ ?_ ?_) <;> first | with_reducible exact Or.inr rfl | exact Or.inl (ha (by decide)) | skip)

theorem serviceCommand_frame {A : List StatePart} {s₀ : State} {s : State} (h : s₀.Frame A s) (action : Nat) (cls : Nat) (num : Nat) (ha : [.rings, .rooms, .link, .svc, .mem, .can, .psched, .free, .ports, .log, .events] ⊆ A := by first | exact StatePart.sub (by assumption) (by decide) | decide) : s₀.Frame A (serviceCommand s action cls num).1 := by
  unfold serviceCommand
  repeat' first | with_reducible assumption | with_reducible apply takeOut_frame | split | fail_if_no_progress ((with_reducible refine State.Frame.lit ?_ ?_ ?_ ?_ ?_ ?_ ?_ ?_ ?_ ?_ ?_ ?_ ?_ ?_ ?_ ?_ ?_ ?_ ?_ ?_ ?_ ?_ ?_ ?_ ?_ ?_ ?_ ?_ ?_) <;> first | with_reducible exact Or.inr rfl | exact Or.inl (ha (by decide)) | skip)

theorem execQuarantineEnd_frame {A : List StatePart} (s : State) (cls : BitVec 3) (num : BitVec 9) (pass : Bool) (ha : [.svc, .can, .log] ⊆ A := by first | exact StatePart.sub (by assumption) (by decide) | decide) : Out.Frame A s (execQuarantineEnd cls num pass s) := by
  unfold execQuarantineEnd
  repeat' first | with_reducible exact State.Frame.refl _ _ | with_reducible apply logEvent_frame | with_reducible refine act_frame ?_ | exact StatePart.sub ha (by decide) | split | fail_if_no_progress ((with_reducible refine State.Frame.lit ?_ ?_ ?_ ?_ ?_ ?_ ?_ ?_ ?_ ?_ ?_ ?_ ?_ ?_ ?_ ?_ ?_ ?_ ?_ ?_ ?_ ?_ ?_ ?_ ?_ ?_ ?_ ?_ ?_) <;> first | with_reducible exact Or.inr rfl | exact Or.inl (ha (by decide)) | skip)

theorem readmitUnit_frame {A : List StatePart} {s₀ : State} {s : State} (h : s₀.Frame A s) (cls : Nat) (num : Nat) (ha : [.rooms, .mem, .free] ⊆ A := by first | exact StatePart.sub (by assumption) (by decide) | decide) : s₀.Frame A (readmitUnit s cls num) := by
  unfold readmitUnit
  repeat' first | with_reducible assumption | with_reducible apply updRoom_frame | with_reducible refine setMem_frame ?_ ?_ | exact ha (by decide) | exact StatePart.sub ha (by decide) | split | fail_if_no_progress ((with_reducible refine State.Frame.lit ?_ ?_ ?_ ?_ ?_ ?_ ?_ ?_ ?_ ?_ ?_ ?_ ?_ ?_ ?_ ?_ ?_ ?_ ?_ ?_ ?_ ?_ ?_ ?_ ?_ ?_ ?_ ?_ ?_) <;> first | with_reducible exact Or.inr rfl | exact Or.inl (ha (by decide)) | skip)

theorem execReadmission_frame {A : List StatePart} (s : State) (cls : BitVec 3) (num : BitVec 9) (ha : [.rooms, .svc, .mem, .can, .free, .log] ⊆ A := by first | exact StatePart.sub (by assumption) (by decide) | decide) : Out.Frame A s (execReadmission cls num s) := by
  unfold execReadmission
  repeat' first | with_reducible exact State.Frame.refl _ _ | with_reducible apply logEvent_frame | with_reducible apply readmitUnit_frame | with_reducible refine act_frame ?_ | exact StatePart.sub ha (by decide) | fail_if_no_progress ((with_reducible refine State.Frame.lit ?_ ?_ ?_ ?_ ?_ ?_ ?_ ?_ ?_ ?_ ?_ ?_ ?_ ?_ ?_ ?_ ?_ ?_ ?_ ?_ ?_ ?_ ?_ ?_ ?_ ?_ ?_ ?_ ?_) <;> first | with_reducible exact Or.inr rfl | exact Or.inl (ha (by decide)) | skip)

theorem execStopOverrun_frame {A : List StatePart} (s : State) (p : BitVec 2) (ha : [.rings, .rooms, .psec, .link, .mem, .can, .psched, .free, .ports, .log, .events, .ppeer] ⊆ A := by first | exact StatePart.sub (by assumption) (by decide) | decide) : Out.Frame A s (execStopOverrun p s) := by
  unfold execStopOverrun
  repeat' first | with_reducible exact State.Frame.refl _ _ | with_reducible apply logEvent_frame | with_reducible apply partReset_frame | with_reducible refine act_frame ?_ | exact StatePart.sub ha (by decide)

theorem execControlMemoryError_frame {A : List StatePart} (s : State)  (ha : [.psec, .mem, .can, .log, .boot, .pw] ⊆ A := by first | exact StatePart.sub (by assumption) (by decide) | decide) : Out.Frame A s (execControlMemoryError s) := by
  unfold execControlMemoryError
  repeat' first | with_reducible assumption | with_reducible exact State.Frame.refl _ _ | exact StatePart.sub ha (by decide) | with_reducible apply shutdown_frame | with_reducible refine act_frame ?_ | with_reducible refine next_frame ?_ | split | fail_if_no_progress ((with_reducible refine State.Frame.lit ?_ ?_ ?_ ?_ ?_ ?_ ?_ ?_ ?_ ?_ ?_ ?_ ?_ ?_ ?_ ?_ ?_ ?_ ?_ ?_ ?_ ?_ ?_ ?_ ?_ ?_ ?_ ?_ ?_) <;> first | with_reducible exact Or.inr rfl | exact Or.inl (ha (by decide)) | skip)

/-! ### Security -/

theorem stageUpdate_frame {A : List StatePart} {s₀ : State} {s : State} (h : s₀.Frame A s)  (ha : [.boot] ⊆ A := by first | exact StatePart.sub (by assumption) (by decide) | decide) : s₀.Frame A (stageUpdate s).1 := by
  unfold stageUpdate
  repeat' first | with_reducible assumption | split | fail_if_no_progress ((with_reducible refine State.Frame.lit ?_ ?_ ?_ ?_ ?_ ?_ ?_ ?_ ?_ ?_ ?_ ?_ ?_ ?_ ?_ ?_ ?_ ?_ ?_ ?_ ?_ ?_ ?_ ?_ ?_ ?_ ?_ ?_ ?_) <;> first | with_reducible exact Or.inr rfl | exact Or.inl (ha (by decide)) | skip)

theorem execStagingComplete_frame {A : List StatePart} (s : State) (img : FwImage) (ha : [.boot] ⊆ A := by first | exact StatePart.sub (by assumption) (by decide) | decide) : Out.Frame A s (execStagingComplete img s) := by
  unfold execStagingComplete
  repeat' first | with_reducible exact State.Frame.refl _ _ | with_reducible refine act_frame ?_ | split | fail_if_no_progress ((with_reducible refine State.Frame.lit ?_ ?_ ?_ ?_ ?_ ?_ ?_ ?_ ?_ ?_ ?_ ?_ ?_ ?_ ?_ ?_ ?_ ?_ ?_ ?_ ?_ ?_ ?_ ?_ ?_ ?_ ?_ ?_ ?_) <;> first | with_reducible exact Or.inr rfl | exact Or.inl (ha (by decide)) | skip)

theorem burnSvn_frame {A : List StatePart} {s₀ : State} {s : State} (h : s₀.Frame A s) (v : U16) (ha : [.boot] ⊆ A := by first | exact StatePart.sub (by assumption) (by decide) | decide) : s₀.Frame A (burnSvn s v).1 := by
  unfold burnSvn
  repeat' first | with_reducible assumption | split | fail_if_no_progress ((with_reducible refine State.Frame.lit ?_ ?_ ?_ ?_ ?_ ?_ ?_ ?_ ?_ ?_ ?_ ?_ ?_ ?_ ?_ ?_ ?_ ?_ ?_ ?_ ?_ ?_ ?_ ?_ ?_ ?_ ?_ ?_ ?_) <;> first | with_reducible exact Or.inr rfl | exact Or.inl (ha (by decide)) | skip)

theorem keyImport_frame {A : List StatePart} {s₀ : State} {s : State} (h : s₀.Frame A s) (p : Nat) (msg : List Byte) (ha : [.psec] ⊆ A := by first | exact StatePart.sub (by assumption) (by decide) | decide) : s₀.Frame A (keyImport s p msg).1 := by
  unfold keyImport
  extract_lets x0
  repeat' first | with_reducible assumption | with_reducible apply updPs_frame | split | dsimp +zetaDelta only

theorem startJob_frame {A : List StatePart} {s₀ : State} {s : State} (h : s₀.Frame A s) (p : Nat) (w : BitVec 512) (ha : [.psec] ⊆ A := by first | exact StatePart.sub (by assumption) (by decide) | decide) : s₀.Frame A (startJob s p w).1 := by
  unfold startJob
  extract_lets x0
  repeat' first | with_reducible assumption | with_reducible apply updPs_frame | split

theorem jobResult_frame {A : List StatePart} {s₀ : State} {s : State} (h : s₀.Frame A s) (p : Nat) (cause : U16) (done : U32) (failing : U32) (ha : [.psec] ⊆ A := by first | exact StatePart.sub (by assumption) (by decide) | decide) : s₀.Frame A (jobResult s p cause done failing) := by
  unfold jobResult
  repeat' first | with_reducible assumption | with_reducible apply updPs_frame

theorem noteRefused_frame {A : List StatePart} {s₀ : State} {s : State} (h : s₀.Frame A s) (a : Nat) (ha : [.mem] ⊆ A := by first | exact StatePart.sub (by assumption) (by decide) | decide) : s₀.Frame A (noteRefused s a) := by
  unfold noteRefused
  repeat' first | with_reducible assumption | with_reducible exact State.Frame.refl _ _ | exact StatePart.sub ha (by decide) | with_reducible apply recordRefused_frame | with_reducible refine ite_frame ?_ ?_ | split | fail_if_no_progress ((with_reducible refine State.Frame.lit ?_ ?_ ?_ ?_ ?_ ?_ ?_ ?_ ?_ ?_ ?_ ?_ ?_ ?_ ?_ ?_ ?_ ?_ ?_ ?_ ?_ ?_ ?_ ?_ ?_ ?_ ?_ ?_ ?_) <;> first | with_reducible exact Or.inr rfl | exact Or.inl (ha (by decide)) | skip)

theorem execExportRange_frame {A : List StatePart} (s : State) (p : BitVec 2) (ha : [.psec, .link, .mem] ⊆ A := by first | exact StatePart.sub (by assumption) (by decide) | decide) : Out.Frame A s (execExportRange p s) := by
  unfold execExportRange
  repeat' first | with_reducible assumption | with_reducible exact State.Frame.refl _ _ | fail_if_no_progress extract_lets | exact StatePart.sub ha (by decide) | with_reducible apply linkWrite_frame | with_reducible apply touch_frame | with_reducible apply jobResult_frame | with_reducible apply noteRefused_frame | with_reducible refine act_frame ?_ | with_reducible refine next_frame ?_ | with_reducible refine ite_frame ?_ ?_ | split | fail_if_no_progress ((with_reducible refine State.Frame.lit ?_ ?_ ?_ ?_ ?_ ?_ ?_ ?_ ?_ ?_ ?_ ?_ ?_ ?_ ?_ ?_ ?_ ?_ ?_ ?_ ?_ ?_ ?_ ?_ ?_ ?_ ?_ ?_ ?_) <;> first | with_reducible exact Or.inr rfl | exact Or.inl (ha (by decide)) | skip) | dsimp +zetaDelta only

theorem importLoop_frame {A : List StatePart} {t s : State} (h : t.Frame A s) (keys : List Byte) (ckid : U32) (part a : Nat) (r : CkRead) (n j : Nat) (ha : [.mem] ⊆ A := by first | exact StatePart.sub (by assumption) (by decide) | decide) :
    t.Frame A (importLoop keys ckid part a r n j s).1 := by
  induction n generalizing s j with
  | zero => exact h
  | succ n ih =>
    unfold importLoop
    split
    · exact h
    · exact ih (storeBytes_frame h _ _ _) _

theorem execImportRange_frame {A : List StatePart} (s : State) (p : BitVec 2) (part : List Byte) (ha : [.psec, .mem] ⊆ A := by first | exact StatePart.sub (by assumption) (by decide) | decide) : Out.Frame A s (execImportRange p part s) := by
  unfold execImportRange
  repeat' first | with_reducible assumption | with_reducible exact State.Frame.refl _ _ | fail_if_no_progress extract_lets | exact StatePart.sub ha (by decide) | with_reducible apply jobResult_frame | with_reducible apply noteRefused_frame | with_reducible apply importLoop_frame | with_reducible refine fst_frame (by assumption) ?_ | with_reducible refine snd_frame (by assumption) ?_ | with_reducible refine act_frame ?_ | with_reducible refine next_frame ?_ | with_reducible refine ite_frame ?_ ?_ | split | fail_if_no_progress ((with_reducible refine State.Frame.lit ?_ ?_ ?_ ?_ ?_ ?_ ?_ ?_ ?_ ?_ ?_ ?_ ?_ ?_ ?_ ?_ ?_ ?_ ?_ ?_ ?_ ?_ ?_ ?_ ?_ ?_ ?_ ?_ ?_) <;> first | with_reducible exact Or.inr rfl | exact Or.inl (ha (by decide)) | skip) | dsimp +zetaDelta only

theorem installImage_frame {A : List StatePart} {s₀ : State} {s : State} (h : s₀.Frame A s) (p : Nat) (i : PartImage) (ha : [.rings, .rooms, .psched, .ppeer] ⊆ A := by first | exact StatePart.sub (by assumption) (by decide) | decide) : s₀.Frame A (installImage s p i) := by
  unfold installImage
  repeat' first | with_reducible assumption | with_reducible exact State.Frame.refl _ _ | with_reducible apply updSched_frame | with_reducible apply updPeer_frame | with_reducible apply updRing_frame | with_reducible apply updRoom_frame | with_reducible refine foldl_frame (fun _ _ => ?_) ?_ | exact StatePart.sub ha (by decide)

theorem execImportStopImage_frame {A : List StatePart} (s : State) (p : BitVec 2) (part : List Byte) (ha : [.rings, .rooms, .psec, .psched, .ppeer] ⊆ A := by first | exact StatePart.sub (by assumption) (by decide) | decide) : Out.Frame A s (execImportStopImage p part s) := by
  unfold execImportStopImage
  repeat' first | with_reducible exact State.Frame.refl _ _ | with_reducible apply resetRooms_frame | with_reducible apply formState_frame | with_reducible apply jobResult_frame | with_reducible apply installImage_frame | with_reducible refine act_frame ?_ | exact StatePart.sub ha (by decide) | split | dsimp +zetaDelta only

theorem execCheckpointJobEnd_frame {A : List StatePart} (s : State) (p : BitVec 2) (ha : [.psec] ⊆ A := by first | exact StatePart.sub (by assumption) (by decide) | decide) : Out.Frame A s (execCheckpointJobEnd p s) := by
  unfold execCheckpointJobEnd
  repeat' first | with_reducible exact State.Frame.refl _ _ | with_reducible apply updPs_frame | with_reducible refine act_frame ?_ | exact StatePart.sub ha (by decide)

theorem releaseResumes_frame {A : List StatePart} {s₀ : State} {s : State} (h : s₀.Frame A s) (p : Nat) (ha : [.rings, .psec] ⊆ A := by first | exact StatePart.sub (by assumption) (by decide) | decide) : s₀.Frame A (releaseResumes s p) := by
  unfold releaseResumes
  extract_lets x0
  have h0 : s₀.Frame A x0 := by
    unfold x0
    repeat' first | with_reducible assumption | with_reducible apply updPs_frame | exact StatePart.sub ha (by decide)
  clear_value x0
  repeat' first | with_reducible assumption | with_reducible exact State.Frame.refl _ _ | with_reducible apply updRing_frame | with_reducible apply runOrIdle_frame | with_reducible refine each_frame (fun _ _ => ?_) ?_ | exact StatePart.sub ha (by decide) | split | dsimp +zetaDelta only

theorem finishExport_frame {A : List StatePart} {s₀ : State} {s : State} (h : s₀.Frame A s) (p : Nat) (status : BitVec 256) (ha : [.rings, .rooms, .psec, .frozen, .mem, .psched, .ppeer] ⊆ A := by first | exact StatePart.sub (by assumption) (by decide) | decide) : s₀.Frame A (finishExport s p status) := by
  unfold finishExport
  extract_lets x0 x1
  have h0 : s₀.Frame A x0 := by
    unfold x0
    repeat' first | with_reducible assumption | fail_if_no_progress ((with_reducible refine State.Frame.lit ?_ ?_ ?_ ?_ ?_ ?_ ?_ ?_ ?_ ?_ ?_ ?_ ?_ ?_ ?_ ?_ ?_ ?_ ?_ ?_ ?_ ?_ ?_ ?_ ?_ ?_ ?_ ?_ ?_) <;> first | with_reducible exact Or.inr rfl | exact Or.inl (ha (by decide)) | skip)
  clear_value x0
  have h1 : s₀.Frame A x1 := by
    unfold x1
    repeat' first | with_reducible assumption | with_reducible apply updPs_frame | exact StatePart.sub ha (by decide)
  clear_value x1
  repeat' first | with_reducible assumption | with_reducible apply scrubClear_frame | with_reducible apply releaseResumes_frame | exact StatePart.sub ha (by decide)

theorem execExportEnd_frame {A : List StatePart} (s : State) (p : BitVec 2) (ha : [.rings, .rooms, .psec, .frozen, .link, .mem, .psched, .ppeer] ⊆ A := by first | exact StatePart.sub (by assumption) (by decide) | decide) : Out.Frame A s (execExportEnd p s) := by
  unfold execExportEnd
  repeat' first | with_reducible exact State.Frame.refl _ _ | with_reducible apply linkWrite_frame | with_reducible apply finishExport_frame | with_reducible refine act_frame ?_ | exact StatePart.sub ha (by decide) | split

theorem execExportAbandoned_frame {A : List StatePart} (s : State) (p : BitVec 2) (ha : [.rings, .rooms, .psec, .frozen, .mem, .psched, .ppeer] ⊆ A := by first | exact StatePart.sub (by assumption) (by decide) | decide) : Out.Frame A s (execExportAbandoned p s) := by
  unfold execExportAbandoned
  repeat' first | with_reducible exact State.Frame.refl _ _ | with_reducible apply finishExport_frame | with_reducible refine act_frame ?_ | exact StatePart.sub ha (by decide)

theorem writeNonce_frame {A : List StatePart} {s₀ : State} {s : State} (h : s₀.Frame A s) (cls : Nat) (nonce : BitVec 256) (ha : [.sec] ⊆ A := by first | exact StatePart.sub (by assumption) (by decide) | decide) : s₀.Frame A (writeNonce s cls nonce).1 := by
  unfold writeNonce
  repeat' first | with_reducible assumption | split | fail_if_no_progress ((with_reducible refine State.Frame.lit ?_ ?_ ?_ ?_ ?_ ?_ ?_ ?_ ?_ ?_ ?_ ?_ ?_ ?_ ?_ ?_ ?_ ?_ ?_ ?_ ?_ ?_ ?_ ?_ ?_ ?_ ?_ ?_ ?_) <;> first | with_reducible exact Or.inr rfl | exact Or.inl (ha (by decide)) | skip)

theorem execReportComplete_frame {A : List StatePart} (s : State) (cls : BitVec 2) (ha : [.sec, .free] ⊆ A := by first | exact StatePart.sub (by assumption) (by decide) | decide) : Out.Frame A s (execReportComplete cls s) := by
  unfold execReportComplete
  repeat' first | with_reducible exact State.Frame.refl _ _ | with_reducible apply takeFree_frame | with_reducible refine snd_frame (by assumption) ?_ | with_reducible refine act_frame ?_ | exact StatePart.sub ha (by decide) | split | fail_if_no_progress ((with_reducible refine State.Frame.lit ?_ ?_ ?_ ?_ ?_ ?_ ?_ ?_ ?_ ?_ ?_ ?_ ?_ ?_ ?_ ?_ ?_ ?_ ?_ ?_ ?_ ?_ ?_ ?_ ?_ ?_ ?_ ?_ ?_) <;> first | with_reducible exact Or.inr rfl | exact Or.inl (ha (by decide)) | skip)

theorem destroyAndScrub_frame {A : List StatePart} {s₀ : State} {s : State} (h : s₀.Frame A s) (p : Nat) (ha : [.rings, .rooms, .psec, .link, .mem, .can, .psched, .free, .ports, .log, .events, .ppeer] ⊆ A := by first | exact StatePart.sub (by assumption) (by decide) | decide) : s₀.Frame A (destroyAndScrub s p) := by
  unfold destroyAndScrub
  repeat' first | with_reducible assumption | with_reducible apply updPs_frame | with_reducible apply startScrub_frame | exact StatePart.sub ha (by decide)

theorem writeToken_frame {A : List StatePart} {s₀ : State} {s : State} (h : s₀.Frame A s) (tok : List Byte) (ha : [.sec, .rings, .rooms, .psec, .link, .mem, .can, .psched, .free, .ports, .log, .events, .ppeer] ⊆ A := by first | exact StatePart.sub (by assumption) (by decide) | decide) : s₀.Frame A (writeToken s tok).1 := by
  unfold writeToken
  extract_lets x0 x1 x2
  repeat' first | with_reducible assumption | with_reducible exact State.Frame.refl _ _ | with_reducible apply updPs_frame | with_reducible apply logEvent_frame | with_reducible apply freshKey_frame | with_reducible apply scrubClear_frame | with_reducible apply startScrub_frame | with_reducible refine snd_frame (by assumption) ?_ | with_reducible refine each_frame (fun _ _ => ?_) ?_ | exact StatePart.sub ha (by decide) | split | fail_if_no_progress ((with_reducible refine State.Frame.lit ?_ ?_ ?_ ?_ ?_ ?_ ?_ ?_ ?_ ?_ ?_ ?_ ?_ ?_ ?_ ?_ ?_ ?_ ?_ ?_ ?_ ?_ ?_ ?_ ?_ ?_ ?_ ?_ ?_) <;> first | with_reducible exact Or.inr rfl | exact Or.inl (ha (by decide)) | skip)

theorem testPortRule_frame {A : List StatePart} {s₀ : State} {s : State} (h : s₀.Frame A s)  (ha : [.rings, .rooms, .psec, .link, .mem, .can, .psched, .free, .ports, .log, .events, .ppeer] ⊆ A := by first | exact StatePart.sub (by assumption) (by decide) | decide) : s₀.Frame A (testPortRule s) := by
  unfold testPortRule
  repeat' first | with_reducible assumption | with_reducible exact State.Frame.refl _ _ | with_reducible apply destroyAndScrub_frame | with_reducible refine each_frame (fun _ _ => ?_) ?_

/-! ### Power -/

theorem retarget_frame {A : List StatePart} {s₀ : State} {s : State} (h : s₀.Frame A s) (d : Nat) (ha : [.pw] ⊆ A := by first | exact StatePart.sub (by assumption) (by decide) | decide) : s₀.Frame A (retarget s d) := by
  unfold retarget
  extract_lets x0
  repeat' first | with_reducible assumption | with_reducible apply updDie_frame | split

theorem latch_frame {A : List StatePart} {s₀ : State} {s : State} (h : s₀.Frame A s) (m : Byte) (ha : [.pw] ⊆ A := by first | exact StatePart.sub (by assumption) (by decide) | decide) : s₀.Frame A (latch s m) := by
  unfold latch
  repeat' first | with_reducible assumption | fail_if_no_progress ((with_reducible refine State.Frame.lit ?_ ?_ ?_ ?_ ?_ ?_ ?_ ?_ ?_ ?_ ?_ ?_ ?_ ?_ ?_ ?_ ?_ ?_ ?_ ?_ ?_ ?_ ?_ ?_ ?_ ?_ ?_ ?_ ?_) <;> first | with_reducible exact Or.inr rfl | exact Or.inl (ha (by decide)) | skip)

theorem execGlideStep_frame {A : List StatePart} (s : State) (d : BitVec 2) (ha : [.pw] ⊆ A := by first | exact StatePart.sub (by assumption) (by decide) | decide) : Out.Frame A s (execGlideStep d s) := by
  unfold execGlideStep
  repeat' first | with_reducible exact State.Frame.refl _ _ | with_reducible apply updDie_frame | with_reducible refine act_frame ?_ | exact StatePart.sub ha (by decide)

theorem refillWindow_frame {A : List StatePart} {s₀ : State} {s : State} (h : s₀.Frame A s) (w : Nat) (ha : [.pw] ⊆ A := by first | exact StatePart.sub (by assumption) (by decide) | decide) : s₀.Frame A (refillWindow s w) := by
  unfold refillWindow
  extract_lets x0
  repeat' first | with_reducible assumption | fail_if_no_progress ((with_reducible refine State.Frame.lit ?_ ?_ ?_ ?_ ?_ ?_ ?_ ?_ ?_ ?_ ?_ ?_ ?_ ?_ ?_ ?_ ?_ ?_ ?_ ?_ ?_ ?_ ?_ ?_ ?_ ?_ ?_ ?_ ?_) <;> first | with_reducible exact Or.inr rfl | exact Or.inl (ha (by decide)) | skip)

theorem attributeShare_frame {A : List StatePart} {s₀ : State} {s : State} (h : s₀.Frame A s) (c : Nat) (n : Nat) (ha : [.pw] ⊆ A := by first | exact StatePart.sub (by assumption) (by decide) | decide) : s₀.Frame A (attributeShare s c n) := by
  unfold attributeShare
  extract_lets x0
  repeat' first | with_reducible assumption | split | fail_if_no_progress ((with_reducible refine State.Frame.lit ?_ ?_ ?_ ?_ ?_ ?_ ?_ ?_ ?_ ?_ ?_ ?_ ?_ ?_ ?_ ?_ ?_ ?_ ?_ ?_ ?_ ?_ ?_ ?_ ?_ ?_ ?_ ?_ ?_) <;> first | with_reducible exact Or.inr rfl | exact Or.inl (ha (by decide)) | skip)

theorem attributeRail_frame {A : List StatePart} {s₀ : State} {s : State} (h : s₀.Frame A s) (r : Nat) (e : Nat) (ha : [.pw] ⊆ A := by first | exact StatePart.sub (by assumption) (by decide) | decide) : s₀.Frame A (attributeRail s r e) := by
  unfold attributeRail
  repeat' first | with_reducible assumption | with_reducible exact State.Frame.refl _ _ | with_reducible apply attributeShare_frame | with_reducible refine each_frame (fun _ _ => ?_) ?_ | split | fail_if_no_progress ((with_reducible refine State.Frame.lit ?_ ?_ ?_ ?_ ?_ ?_ ?_ ?_ ?_ ?_ ?_ ?_ ?_ ?_ ?_ ?_ ?_ ?_ ?_ ?_ ?_ ?_ ?_ ?_ ?_ ?_ ?_ ?_ ?_) <;> first | with_reducible exact Or.inr rfl | exact Or.inl (ha (by decide)) | skip) | dsimp +zetaDelta only

theorem execControlPeriod_frame {A : List StatePart} (s : State)  (ha : [.can, .log, .pw] ⊆ A := by first | exact StatePart.sub (by assumption) (by decide) | decide) : Out.Frame A s (execControlPeriod s) := by
  unfold execControlPeriod
  repeat' first | with_reducible exact State.Frame.refl _ _ | with_reducible apply updDie_frame | with_reducible apply logEvent_frame | with_reducible apply retarget_frame | with_reducible apply latch_frame | with_reducible apply attributeRail_frame | with_reducible refine each_frame (fun _ _ => ?_) ?_ | with_reducible refine act_frame ?_ | exact StatePart.sub ha (by decide) | split | fail_if_no_progress ((with_reducible refine State.Frame.lit ?_ ?_ ?_ ?_ ?_ ?_ ?_ ?_ ?_ ?_ ?_ ?_ ?_ ?_ ?_ ?_ ?_ ?_ ?_ ?_ ?_ ?_ ?_ ?_ ?_ ?_ ?_ ?_ ?_) <;> first | with_reducible exact Or.inr rfl | exact Or.inl (ha (by decide)) | skip) | dsimp +zetaDelta only

theorem halveDie_frame {A : List StatePart} {s₀ : State} {s : State} (h : s₀.Frame A s) (d : Nat) (ha : [.pw] ⊆ A := by first | exact StatePart.sub (by assumption) (by decide) | decide) : s₀.Frame A (halveDie s d) := by
  unfold halveDie
  repeat' first | with_reducible assumption | with_reducible apply updDie_frame

theorem execActivityEstimate_frame {A : List StatePart} (s : State) (uj : BitVec 32) (ha : [.pw] ⊆ A := by first | exact StatePart.sub (by assumption) (by decide) | decide) : Out.Frame A s (execActivityEstimate uj s) := by
  unfold execActivityEstimate
  repeat' first | with_reducible exact State.Frame.refl _ _ | with_reducible apply updDie_frame | with_reducible apply latch_frame | with_reducible apply halveDie_frame | with_reducible refine each_frame (fun _ _ => ?_) ?_ | with_reducible refine act_frame ?_ | exact StatePart.sub ha (by decide) | split | fail_if_no_progress ((with_reducible refine State.Frame.lit ?_ ?_ ?_ ?_ ?_ ?_ ?_ ?_ ?_ ?_ ?_ ?_ ?_ ?_ ?_ ?_ ?_ ?_ ?_ ?_ ?_ ?_ ?_ ?_ ?_ ?_ ?_ ?_ ?_) <;> first | with_reducible exact Or.inr rfl | exact Or.inl (ha (by decide)) | skip) | dsimp +zetaDelta only

theorem execDroop_frame {A : List StatePart} (s : State) (d : BitVec 2) (_group : BitVec 2) (ha : [.pw] ⊆ A := by first | exact StatePart.sub (by assumption) (by decide) | decide) : Out.Frame A s (execDroop d _group s) := by
  unfold execDroop
  repeat' first | with_reducible exact State.Frame.refl _ _ | with_reducible apply updDie_frame | with_reducible refine act_frame ?_ | exact StatePart.sub ha (by decide)

theorem execDroopClear_frame {A : List StatePart} (s : State) (d : BitVec 2) (ha : [.pw] ⊆ A := by first | exact StatePart.sub (by assumption) (by decide) | decide) : Out.Frame A s (execDroopClear d s) := by
  unfold execDroopClear
  repeat' first | with_reducible exact State.Frame.refl _ _ | with_reducible apply updDie_frame | with_reducible refine act_frame ?_ | exact StatePart.sub ha (by decide)

theorem execDroopHoldoffEnd_frame {A : List StatePart} (s : State) (d : BitVec 2) (ha : [.pw] ⊆ A := by first | exact StatePart.sub (by assumption) (by decide) | decide) : Out.Frame A s (execDroopHoldoffEnd d s) := by
  unfold execDroopHoldoffEnd
  repeat' first | with_reducible exact State.Frame.refl _ _ | with_reducible apply updDie_frame | with_reducible apply retarget_frame | with_reducible apply halveDie_frame | with_reducible refine act_frame ?_ | exact StatePart.sub ha (by decide) | split | dsimp +zetaDelta only

theorem execProlongedDroop_frame {A : List StatePart} (s : State) (d : BitVec 2) (ha : [.can, .log, .pw] ⊆ A := by first | exact StatePart.sub (by assumption) (by decide) | decide) : Out.Frame A s (execProlongedDroop d s) := by
  unfold execProlongedDroop
  repeat' first | with_reducible exact State.Frame.refl _ _ | with_reducible apply updDie_frame | with_reducible apply logEvent_frame | with_reducible apply retarget_frame | with_reducible refine act_frame ?_ | exact StatePart.sub ha (by decide)

theorem setTemps_frame {A : List StatePart} {s₀ : State} {s : State} (h : s₀.Frame A s) (base : Nat) (ts : List U32) (ha : [.pw] ⊆ A := by first | exact StatePart.sub (by assumption) (by decide) | decide) : s₀.Frame A (setTemps s base ts) := by
  unfold setTemps
  repeat' first | with_reducible assumption | fail_if_no_progress ((with_reducible refine State.Frame.lit ?_ ?_ ?_ ?_ ?_ ?_ ?_ ?_ ?_ ?_ ?_ ?_ ?_ ?_ ?_ ?_ ?_ ?_ ?_ ?_ ?_ ?_ ?_ ?_ ?_ ?_ ?_ ?_ ?_) <;> first | with_reducible exact Or.inr rfl | exact Or.inl (ha (by decide)) | skip)

theorem thermalDie_frame {A : List StatePart} {s₀ : State} {s : State} (h : s₀.Frame A s) (d : Nat) (ha : [.can, .log, .pw] ⊆ A := by first | exact StatePart.sub (by assumption) (by decide) | decide) : s₀.Frame A (thermalDie s d) := by
  unfold thermalDie
  extract_lets x0 x1 x2
  repeat' first | with_reducible assumption | with_reducible apply updDie_frame | with_reducible apply logEvent_frame | with_reducible apply retarget_frame | exact StatePart.sub ha (by decide) | split | dsimp +zetaDelta only

theorem thermalStacks_frame {A : List StatePart} {s₀ : State} {s : State} (h : s₀.Frame A s)  (ha : [.pw] ⊆ A := by first | exact StatePart.sub (by assumption) (by decide) | decide) : s₀.Frame A (thermalStacks s) := by
  unfold thermalStacks
  repeat' first | with_reducible assumption | with_reducible exact State.Frame.refl _ _ | with_reducible refine each_frame (fun _ _ => ?_) ?_ | fail_if_no_progress ((with_reducible refine State.Frame.lit ?_ ?_ ?_ ?_ ?_ ?_ ?_ ?_ ?_ ?_ ?_ ?_ ?_ ?_ ?_ ?_ ?_ ?_ ?_ ?_ ?_ ?_ ?_ ?_ ?_ ?_ ?_ ?_ ?_) <;> first | with_reducible exact Or.inr rfl | exact Or.inl (ha (by decide)) | skip)

theorem tripIfDue_frame {A : List StatePart} {s₀ : State} {s : State} (h : s₀.Frame A s)  (ha : [.psec, .mem, .can, .log, .boot, .pw] ⊆ A := by first | exact StatePart.sub (by assumption) (by decide) | decide) : s₀.Frame A (tripIfDue s) := by
  unfold tripIfDue
  repeat' first | with_reducible assumption | with_reducible exact State.Frame.refl _ _ | fail_if_no_progress extract_lets | exact StatePart.sub ha (by decide) | with_reducible apply shutdown_frame | with_reducible apply latch_frame | with_reducible refine ite_frame ?_ ?_ | split | fail_if_no_progress ((with_reducible refine State.Frame.lit ?_ ?_ ?_ ?_ ?_ ?_ ?_ ?_ ?_ ?_ ?_ ?_ ?_ ?_ ?_ ?_ ?_ ?_ ?_ ?_ ?_ ?_ ?_ ?_ ?_ ?_ ?_ ?_ ?_) <;> first | with_reducible exact Or.inr rfl | exact Or.inl (ha (by decide)) | skip) | dsimp +zetaDelta only

theorem execThermalReading_frame {A : List StatePart} (s : State) (temps : List (BitVec 32)) (ha : [.psec, .mem, .can, .log, .boot, .pw] ⊆ A := by first | exact StatePart.sub (by assumption) (by decide) | decide) : Out.Frame A s (execThermalReading temps s) := by
  unfold execThermalReading
  repeat' first | with_reducible assumption | with_reducible exact State.Frame.refl _ _ | exact StatePart.sub ha (by decide) | with_reducible apply setTemps_frame | with_reducible apply thermalDie_frame | with_reducible apply tripIfDue_frame | with_reducible refine each_frame (fun _ _ => ?_) ?_ | with_reducible refine act_frame ?_ | with_reducible refine next_frame ?_ | split | fail_if_no_progress ((with_reducible refine State.Frame.lit ?_ ?_ ?_ ?_ ?_ ?_ ?_ ?_ ?_ ?_ ?_ ?_ ?_ ?_ ?_ ?_ ?_ ?_ ?_ ?_ ?_ ?_ ?_ ?_ ?_ ?_ ?_ ?_ ?_) <;> first | with_reducible exact Or.inr rfl | exact Or.inl (ha (by decide)) | skip)

theorem execStackTemperatureRead_frame {A : List StatePart} (s : State) (temps : List (BitVec 32)) (ha : [.psec, .mem, .can, .log, .boot, .pw] ⊆ A := by first | exact StatePart.sub (by assumption) (by decide) | decide) : Out.Frame A s (execStackTemperatureRead temps s) := by
  unfold execStackTemperatureRead
  repeat' first | with_reducible assumption | with_reducible exact State.Frame.refl _ _ | exact StatePart.sub ha (by decide) | with_reducible apply setTemps_frame | with_reducible apply thermalStacks_frame | with_reducible apply tripIfDue_frame | with_reducible refine act_frame ?_ | with_reducible refine next_frame ?_ | split | fail_if_no_progress ((with_reducible refine State.Frame.lit ?_ ?_ ?_ ?_ ?_ ?_ ?_ ?_ ?_ ?_ ?_ ?_ ?_ ?_ ?_ ?_ ?_ ?_ ?_ ?_ ?_ ?_ ?_ ?_ ?_ ?_ ?_ ?_ ?_) <;> first | with_reducible exact Or.inr rfl | exact Or.inl (ha (by decide)) | skip)

theorem execCoolOkDeassert_frame {A : List StatePart} (s : State)  (ha : [.pw] ⊆ A := by first | exact StatePart.sub (by assumption) (by decide) | decide) : Out.Frame A s (execCoolOkDeassert s) := by
  unfold execCoolOkDeassert
  repeat' first | with_reducible exact State.Frame.refl _ _ | with_reducible refine act_frame ?_ | fail_if_no_progress ((with_reducible refine State.Frame.lit ?_ ?_ ?_ ?_ ?_ ?_ ?_ ?_ ?_ ?_ ?_ ?_ ?_ ?_ ?_ ?_ ?_ ?_ ?_ ?_ ?_ ?_ ?_ ?_ ?_ ?_ ?_ ?_ ?_) <;> first | with_reducible exact Or.inr rfl | exact Or.inl (ha (by decide)) | skip)

theorem execCoolantStop_frame {A : List StatePart} (s : State)  (ha : [.psec, .mem, .can, .log, .boot, .pw] ⊆ A := by first | exact StatePart.sub (by assumption) (by decide) | decide) : Out.Frame A s (execCoolantStop s) := by
  unfold execCoolantStop
  repeat' first | with_reducible assumption | with_reducible exact State.Frame.refl _ _ | fail_if_no_progress extract_lets | exact StatePart.sub ha (by decide) | with_reducible apply shutdown_frame | with_reducible apply latch_frame | with_reducible refine act_frame ?_ | with_reducible refine next_frame ?_ | split | fail_if_no_progress ((with_reducible refine State.Frame.lit ?_ ?_ ?_ ?_ ?_ ?_ ?_ ?_ ?_ ?_ ?_ ?_ ?_ ?_ ?_ ?_ ?_ ?_ ?_ ?_ ?_ ?_ ?_ ?_ ?_ ?_ ?_ ?_ ?_) <;> first | with_reducible exact Or.inr rfl | exact Or.inl (ha (by decide)) | skip)

theorem execCoolOkAssert_frame {A : List StatePart} (s : State)  (ha : [.pw] ⊆ A := by first | exact StatePart.sub (by assumption) (by decide) | decide) : Out.Frame A s (execCoolOkAssert s) := by
  unfold execCoolOkAssert
  repeat' first | with_reducible exact State.Frame.refl _ _ | with_reducible refine act_frame ?_ | fail_if_no_progress ((with_reducible refine State.Frame.lit ?_ ?_ ?_ ?_ ?_ ?_ ?_ ?_ ?_ ?_ ?_ ?_ ?_ ?_ ?_ ?_ ?_ ?_ ?_ ?_ ?_ ?_ ?_ ?_ ?_ ?_ ?_ ?_ ?_) <;> first | with_reducible exact Or.inr rfl | exact Or.inl (ha (by decide)) | skip)

theorem pollOne_frame {A : List StatePart} {s₀ : State} {s : State} (h : s₀.Frame A s) (x : RegReading) (ha : [.can, .log, .pw] ⊆ A := by first | exact StatePart.sub (by assumption) (by decide) | decide) : s₀.Frame A (pollOne s x) := by
  unfold pollOne
  extract_lets x0 x1
  repeat' first | with_reducible assumption | with_reducible apply logEvent_frame | exact StatePart.sub ha (by decide) | split | fail_if_no_progress ((with_reducible refine State.Frame.lit ?_ ?_ ?_ ?_ ?_ ?_ ?_ ?_ ?_ ?_ ?_ ?_ ?_ ?_ ?_ ?_ ?_ ?_ ?_ ?_ ?_ ?_ ?_ ?_ ?_ ?_ ?_ ?_ ?_) <;> first | with_reducible exact Or.inr rfl | exact Or.inl (ha (by decide)) | skip)

theorem execPmbusPoll_frame {A : List StatePart} (s : State) (readings : List RegReading) (ha : [.can, .log, .pw] ⊆ A := by first | exact StatePart.sub (by assumption) (by decide) | decide) : Out.Frame A s (execPmbusPoll readings s) := by
  unfold execPmbusPoll
  repeat' first | with_reducible exact State.Frame.refl _ _ | with_reducible apply latch_frame | with_reducible apply pollOne_frame | with_reducible refine foldl_frame (fun _ _ => ?_) ?_ | with_reducible refine act_frame ?_ | exact StatePart.sub ha (by decide) | split | fail_if_no_progress ((with_reducible refine State.Frame.lit ?_ ?_ ?_ ?_ ?_ ?_ ?_ ?_ ?_ ?_ ?_ ?_ ?_ ?_ ?_ ?_ ?_ ?_ ?_ ?_ ?_ ?_ ?_ ?_ ?_ ?_ ?_ ?_ ?_) <;> first | with_reducible exact Or.inr rfl | exact Or.inl (ha (by decide)) | skip) | dsimp +zetaDelta only

/-! ### Boot -/

-- all parts: coldState

-- all parts: powerOn

-- all parts: deviceReset

-- all parts: execPowerOnReset

theorem execPoresetRelease_frame {A : List StatePart} (s : State) (nodeId : BitVec 7) (clgen : BitVec 2) (fwsrc : Bool) (ha : [.can, .log, .boot] ⊆ A := by first | exact StatePart.sub (by assumption) (by decide) | decide) : Out.Frame A s (execPoresetRelease nodeId clgen fwsrc s) := by
  unfold execPoresetRelease
  repeat' first | with_reducible exact State.Frame.refl _ _ | with_reducible apply logEvent_frame | with_reducible refine act_frame ?_ | exact StatePart.sub ha (by decide) | split | fail_if_no_progress ((with_reducible refine State.Frame.lit ?_ ?_ ?_ ?_ ?_ ?_ ?_ ?_ ?_ ?_ ?_ ?_ ?_ ?_ ?_ ?_ ?_ ?_ ?_ ?_ ?_ ?_ ?_ ?_ ?_ ?_ ?_ ?_ ?_) <;> first | with_reducible exact Or.inr rfl | exact Or.inl (ha (by decide)) | skip)

-- all parts: execDeviceReset

theorem execFirmwareStart_frame {A : List StatePart} (s : State) (start : FwStart) (ha : [.link, .can, .boot] ⊆ A := by first | exact StatePart.sub (by assumption) (by decide) | decide) : Out.Frame A s (execFirmwareStart start s) := by
  unfold execFirmwareStart
  repeat' first | with_reducible assumption | with_reducible exact State.Frame.refl _ _ | fail_if_no_progress extract_lets | exact StatePart.sub ha (by decide) | with_reducible refine act_frame ?_ | with_reducible refine next_frame ?_ | with_reducible refine ite_frame ?_ ?_ | split | fail_if_no_progress ((with_reducible refine State.Frame.lit ?_ ?_ ?_ ?_ ?_ ?_ ?_ ?_ ?_ ?_ ?_ ?_ ?_ ?_ ?_ ?_ ?_ ?_ ?_ ?_ ?_ ?_ ?_ ?_ ?_ ?_ ?_ ?_ ?_) <;> first | with_reducible exact Or.inr rfl | exact Or.inl (ha (by decide)) | skip)

theorem execFirmwareImageRejected_frame {A : List StatePart} (s : State) (status : BitVec 8) (ha : [.boot] ⊆ A := by first | exact StatePart.sub (by assumption) (by decide) | decide) : Out.Frame A s (execFirmwareImageRejected status s) := by
  unfold execFirmwareImageRejected
  repeat' first | with_reducible exact State.Frame.refl _ _ | with_reducible refine act_frame ?_ | split | fail_if_no_progress ((with_reducible refine State.Frame.lit ?_ ?_ ?_ ?_ ?_ ?_ ?_ ?_ ?_ ?_ ?_ ?_ ?_ ?_ ?_ ?_ ?_ ?_ ?_ ?_ ?_ ?_ ?_ ?_ ?_ ?_ ?_ ?_ ?_) <;> first | with_reducible exact Or.inr rfl | exact Or.inl (ha (by decide)) | skip) | dsimp +zetaDelta only

theorem execBootLineRequest_frame {A : List StatePart} (s : State) (line : BitVec 512) (ha : [.boot] ⊆ A := by first | exact StatePart.sub (by assumption) (by decide) | decide) : Out.Frame A s (execBootLineRequest line s) := by
  unfold execBootLineRequest
  repeat' first | with_reducible exact State.Frame.refl _ _ | with_reducible refine act_frame ?_ | fail_if_no_progress ((with_reducible refine State.Frame.lit ?_ ?_ ?_ ?_ ?_ ?_ ?_ ?_ ?_ ?_ ?_ ?_ ?_ ?_ ?_ ?_ ?_ ?_ ?_ ?_ ?_ ?_ ?_ ?_ ?_ ?_ ?_ ?_ ?_) <;> first | with_reducible exact Or.inr rfl | exact Or.inl (ha (by decide)) | skip)

theorem execPllLock_frame {A : List StatePart} (s : State)  (ha : [.boot, .pw] ⊆ A := by first | exact StatePart.sub (by assumption) (by decide) | decide) : Out.Frame A s (execPllLock s) := by
  unfold execPllLock
  repeat' first | with_reducible exact State.Frame.refl _ _ | with_reducible apply updDie_frame | with_reducible refine each_frame (fun _ _ => ?_) ?_ | with_reducible refine act_frame ?_ | exact StatePart.sub ha (by decide) | fail_if_no_progress ((with_reducible refine State.Frame.lit ?_ ?_ ?_ ?_ ?_ ?_ ?_ ?_ ?_ ?_ ?_ ?_ ?_ ?_ ?_ ?_ ?_ ?_ ?_ ?_ ?_ ?_ ?_ ?_ ?_ ?_ ?_ ?_ ?_) <;> first | with_reducible exact Or.inr rfl | exact Or.inl (ha (by decide)) | skip)

theorem execSelfTestDone_frame {A : List StatePart} (s : State) (failed : List (BitVec 3 × BitVec 9)) (ha : [.svc, .can, .log, .boot] ⊆ A := by first | exact StatePart.sub (by assumption) (by decide) | decide) : Out.Frame A s (execSelfTestDone failed s) := by
  unfold execSelfTestDone
  repeat' first | with_reducible exact State.Frame.refl _ _ | with_reducible apply logEvent_frame | with_reducible refine foldl_frame (fun _ _ => ?_) ?_ | with_reducible refine act_frame ?_ | exact StatePart.sub ha (by decide) | split | fail_if_no_progress ((with_reducible refine State.Frame.lit ?_ ?_ ?_ ?_ ?_ ?_ ?_ ?_ ?_ ?_ ?_ ?_ ?_ ?_ ?_ ?_ ?_ ?_ ?_ ?_ ?_ ?_ ?_ ?_ ?_ ?_ ?_ ?_ ?_) <;> first | with_reducible exact Or.inr rfl | exact Or.inl (ha (by decide)) | skip)

theorem execPartitionFormation_frame {A : List StatePart} (s : State) (p : BitVec 2) (ha : [.rings, .rooms, .psec, .link, .mem, .can, .psched, .free, .log, .boot, .events, .ppeer] ⊆ A := by first | exact StatePart.sub (by assumption) (by decide) | decide) : Out.Frame A s (execPartitionFormation p s) := by
  unfold execPartitionFormation
  repeat' first | with_reducible exact State.Frame.refl _ _ | with_reducible apply formPart_frame | with_reducible refine act_frame ?_ | exact StatePart.sub ha (by decide) | split | fail_if_no_progress ((with_reducible refine State.Frame.lit ?_ ?_ ?_ ?_ ?_ ?_ ?_ ?_ ?_ ?_ ?_ ?_ ?_ ?_ ?_ ?_ ?_ ?_ ?_ ?_ ?_ ?_ ?_ ?_ ?_ ?_ ?_ ?_ ?_) <;> first | with_reducible exact Or.inr rfl | exact Or.inl (ha (by decide)) | skip) | dsimp +zetaDelta only

theorem execPartitionReset_frame {A : List StatePart} (s : State) (p : BitVec 2) (uncorrectable : Bool) (ha : [.rings, .rooms, .psec, .link, .mem, .can, .psched, .free, .ports, .log, .events, .ppeer] ⊆ A := by first | exact StatePart.sub (by assumption) (by decide) | decide) : Out.Frame A s (execPartitionReset p uncorrectable s) := by
  unfold execPartitionReset
  repeat' first | with_reducible exact State.Frame.refl _ _ | with_reducible apply logEvent_frame | with_reducible apply partReset_frame | with_reducible refine act_frame ?_ | exact StatePart.sub ha (by decide) | split

theorem execRoomZeroingComplete_frame {A : List StatePart} (s : State) (room : BitVec 7) (ha : [.rooms] ⊆ A := by first | exact StatePart.sub (by assumption) (by decide) | decide) : Out.Frame A s (execRoomZeroingComplete room s) := by
  unfold execRoomZeroingComplete
  repeat' first | with_reducible exact State.Frame.refl _ _ | with_reducible apply updRoom_frame | with_reducible refine act_frame ?_ | exact StatePart.sub ha (by decide)

theorem execModeChange_frame {A : List StatePart} (s : State)  (ha : [.rings, .rooms, .psec, .link, .mem, .can, .psched, .free, .ports, .pendingMode, .log, .mode, .events, .ppeer] ⊆ A := by first | exact StatePart.sub (by assumption) (by decide) | decide) : Out.Frame A s (execModeChange s) := by
  unfold execModeChange
  repeat' first | with_reducible exact State.Frame.refl _ _ | with_reducible apply changeMode_frame | with_reducible refine act_frame ?_ | exact StatePart.sub ha (by decide) | split

-- all parts: execPowerRemoval

/-! ### Dict -/

theorem enableRing_frame {A : List StatePart} {s₀ : State} {s : State} (h : s₀.Frame A s) (n : Nat) (ha : [.rings, .rooms, .link, .mem, .can, .psched, .free, .log, .events] ⊆ A := by first | exact StatePart.sub (by assumption) (by decide) | decide) : s₀.Frame A (enableRing s n) := by
  unfold enableRing
  extract_lets x0
  have h0 : s₀.Frame A x0 := by
    unfold x0
    repeat' first | with_reducible assumption | with_reducible apply updRing_frame | exact StatePart.sub ha (by decide)
  clear_value x0
  repeat' first | with_reducible assumption | with_reducible apply readNotify_frame | with_reducible apply ringReset_frame | exact StatePart.sub ha (by decide)

theorem disableRing_frame {A : List StatePart} {s₀ : State} {s : State} (h : s₀.Frame A s) (n : Nat) (ha : [.rings, .rooms, .link, .mem, .can, .psched, .free, .log, .events] ⊆ A := by first | exact StatePart.sub (by assumption) (by decide) | decide) : s₀.Frame A (disableRing s n) := by
  unfold disableRing
  extract_lets x0 x1 x2 x3
  have h0 : s₀.Frame A x0 := by
    unfold x0
    repeat' first | with_reducible assumption | with_reducible apply abandonRing_frame
  clear_value x0
  have h1 : s₀.Frame A x1 := by
    unfold x1
    repeat' first | with_reducible assumption | with_reducible apply updRing_frame | exact StatePart.sub ha (by decide)
  clear_value x1
  have h3 : s₀.Frame A x3 := by
    unfold x3
    repeat' first | with_reducible assumption | with_reducible apply linkWrite_frame | exact StatePart.sub ha (by decide) | split
  clear_value x3
  repeat' first | with_reducible assumption | with_reducible apply updRing_frame | exact StatePart.sub ha (by decide)

theorem armStamp_frame {A : List StatePart} {s₀ : State} {s : State} (h : s₀.Frame A s) (n : Nat) (t : U64) (ha : [.rings, .events] ⊆ A := by first | exact StatePart.sub (by assumption) (by decide) | decide) : s₀.Frame A (armStamp s n t) := by
  unfold armStamp
  extract_lets x0
  have h0 : s₀.Frame A x0 := by
    unfold x0
    repeat' first | with_reducible assumption | with_reducible apply updRing_frame | exact StatePart.sub ha (by decide)
  clear_value x0
  repeat' first | with_reducible assumption | with_reducible apply updRing_frame | with_reducible apply armDevice_frame | exact StatePart.sub ha (by decide) | split

theorem writeStampPeriod_frame {A : List StatePart} {s₀ : State} {s : State} (h : s₀.Frame A s) (n : Nat) (v : U32) (ha : [.rings, .events] ⊆ A := by first | exact StatePart.sub (by assumption) (by decide) | decide) : s₀.Frame A (writeStampPeriod s n v) := by
  unfold writeStampPeriod
  extract_lets x0 x1 x2
  have h1 : s₀.Frame A x1 := by
    unfold x1
    repeat' first | with_reducible assumption | with_reducible apply freeDevice_frame | exact StatePart.sub ha (by decide) | split
  clear_value x1
  have h2 : s₀.Frame A x2 := by
    unfold x2
    repeat' first | with_reducible assumption | with_reducible apply updRing_frame | exact StatePart.sub ha (by decide)
  clear_value x2
  repeat' first | with_reducible assumption | with_reducible apply armStamp_frame | split

theorem writeBlocked_frame {A : List StatePart} {s₀ : State} {s : State} (h : s₀.Frame A s) (n : Nat) (w : U64) (ha : [.mem] ⊆ A := by first | exact StatePart.sub (by assumption) (by decide) | decide) : s₀.Frame A (writeBlocked s n w).1 := by
  unfold writeBlocked
  repeat' first | with_reducible assumption | with_reducible apply discardWhere_frame | with_reducible refine setMem_frame ?_ ?_ | exact ha (by decide) | split | dsimp +zetaDelta only

theorem writeMode_frame {A : List StatePart} {s₀ : State} {s : State} (h : s₀.Frame A s) (v : Nat) (ha : [.pendingMode] ⊆ A := by first | exact StatePart.sub (by assumption) (by decide) | decide) : s₀.Frame A (writeMode s v).1 := by
  unfold writeMode
  repeat' first | with_reducible assumption | split | fail_if_no_progress ((with_reducible refine State.Frame.lit ?_ ?_ ?_ ?_ ?_ ?_ ?_ ?_ ?_ ?_ ?_ ?_ ?_ ?_ ?_ ?_ ?_ ?_ ?_ ?_ ?_ ?_ ?_ ?_ ?_ ?_ ?_ ?_ ?_) <;> first | with_reducible exact Or.inr rfl | exact Or.inl (ha (by decide)) | skip)

theorem writeReset_frame {A : List StatePart} {s₀ : State} {s : State} (h : s₀.Frame A s) (p : Nat) (v : Nat) (ha : [.rings, .rooms, .psec, .link, .mem, .can, .psched, .free, .ports, .log, .events, .ppeer] ⊆ A := by first | exact StatePart.sub (by assumption) (by decide) | decide) : s₀.Frame A (writeReset s p v).1 := by
  unfold writeReset
  repeat' first | with_reducible assumption | with_reducible apply partReset_frame | split

theorem ranged_frame {A : List StatePart} {t s f : State} (h : t.Frame A s) (v lo hi : Nat) (hf : t.Frame A f) (ha : [] ⊆ A := by first | exact StatePart.sub (by assumption) (by decide) | decide) : t.Frame A (ranged s v lo hi f).1 := by
  unfold ranged
  split
  · exact hf
  · exact h

-- all parts: writeRaw

-- all parts: writeEntry

-- all parts: writeOne

-- all parts: afterOthers

theorem ddaFrame_frame {A : List StatePart} {s₀ : State} {s : State} (h : s₀.Frame A s) (fd : Bool) (bs : List Byte) (ha : [.can] ⊆ A := by first | exact StatePart.sub (by assumption) (by decide) | decide) : s₀.Frame A (ddaFrame s fd bs) := by
  unfold ddaFrame
  repeat' first | with_reducible assumption | with_reducible apply canSend_frame

theorem ddaReadAnswer_frame {A : List StatePart} {s₀ : State} {s : State} (h : s₀.Frame A s) (fd : Bool) (i : U16) (sub : Byte) (bs : List Byte) (ha : [.can] ⊆ A := by first | exact StatePart.sub (by assumption) (by decide) | decide) : s₀.Frame A (ddaReadAnswer s fd i sub bs) := by
  unfold ddaReadAnswer
  repeat' first | with_reducible assumption | with_reducible apply ddaFrame_frame | split | fail_if_no_progress ((with_reducible refine State.Frame.lit ?_ ?_ ?_ ?_ ?_ ?_ ?_ ?_ ?_ ?_ ?_ ?_ ?_ ?_ ?_ ?_ ?_ ?_ ?_ ?_ ?_ ?_ ?_ ?_ ?_ ?_ ?_ ?_ ?_) <;> first | with_reducible exact Or.inr rfl | exact Or.inl (ha (by decide)) | skip)

theorem ddaAbort_frame {A : List StatePart} {s₀ : State} {s : State} (h : s₀.Frame A s) (fd : Bool) (i : U16) (sub : Byte) (code : Byte) (send : Bool) (ha : [.can, .log, .dict] ⊆ A := by first | exact StatePart.sub (by assumption) (by decide) | decide) : s₀.Frame A (ddaAbort s fd i sub code send) := by
  unfold ddaAbort
  repeat' first | with_reducible assumption | with_reducible apply logEvent_frame | with_reducible apply ddaFrame_frame | exact StatePart.sub ha (by decide) | split | fail_if_no_progress ((with_reducible refine State.Frame.lit ?_ ?_ ?_ ?_ ?_ ?_ ?_ ?_ ?_ ?_ ?_ ?_ ?_ ?_ ?_ ?_ ?_ ?_ ?_ ?_ ?_ ?_ ?_ ?_ ?_ ?_ ?_ ?_ ?_) <;> first | with_reducible exact Or.inr rfl | exact Or.inl (ha (by decide)) | skip)

theorem answer_frame {A : List StatePart} {s₀ : State} {s : State} (h : s₀.Frame A s) (r : Req) (code : Byte) (data : List Byte) (ha : [.link, .tap, .can, .log, .dict] ⊆ A := by first | exact StatePart.sub (by assumption) (by decide) | decide) : s₀.Frame A (answer s r code data) := by
  unfold answer
  repeat' first | with_reducible assumption | with_reducible apply updBox_frame | with_reducible apply ddaFrame_frame | with_reducible apply ddaReadAnswer_frame | with_reducible apply ddaAbort_frame | exact StatePart.sub ha (by decide) | split | fail_if_no_progress ((with_reducible refine State.Frame.lit ?_ ?_ ?_ ?_ ?_ ?_ ?_ ?_ ?_ ?_ ?_ ?_ ?_ ?_ ?_ ?_ ?_ ?_ ?_ ?_ ?_ ?_ ?_ ?_ ?_ ?_ ?_ ?_ ?_) <;> first | with_reducible exact Or.inr rfl | exact Or.inl (ha (by decide)) | skip)

theorem countRequest_frame {A : List StatePart} {s₀ : State} {s : State} (h : s₀.Frame A s) (code : Byte) (ha : [.dict] ⊆ A := by first | exact StatePart.sub (by assumption) (by decide) | decide) : s₀.Frame A (countRequest s code) := by
  unfold countRequest
  extract_lets x0
  repeat' first | with_reducible assumption | fail_if_no_progress ((with_reducible refine State.Frame.lit ?_ ?_ ?_ ?_ ?_ ?_ ?_ ?_ ?_ ?_ ?_ ?_ ?_ ?_ ?_ ?_ ?_ ?_ ?_ ?_ ?_ ?_ ?_ ?_ ?_ ?_ ?_ ?_ ?_) <;> first | with_reducible exact Or.inr rfl | exact Or.inl (ha (by decide)) | skip)

theorem acceptCtr_frame {A : List StatePart} {s₀ : State} {s : State} (h : s₀.Frame A s) (r : Req) (ha : [.psec] ⊆ A := by first | exact StatePart.sub (by assumption) (by decide) | decide) : s₀.Frame A (acceptCtr s r) := by
  unfold acceptCtr
  repeat' first | with_reducible assumption | with_reducible apply updPs_frame | split

-- all parts: serve

-- all parts: serveBatch

-- all parts: execDictionaryCycle

-- all parts: single

-- all parts: execDictionaryRead

-- all parts: execDictionaryWrite

-- all parts: writeRow

-- all parts: execEventArm

-- all parts: execEventCancel

-- all parts: execPartitionModeWrite

-- all parts: execCapWrite

-- all parts: execWindowWrite

-- all parts: execStampPeriodWrite

-- all parts: execWindowEnable

-- all parts: execRingEnable

-- all parts: execRingDisable

-- all parts: execBlockedGranuleWrite

-- all parts: execTakeOutOfService

-- all parts: execReadmit

-- all parts: execKeyImport

-- all parts: execAttestationNonce

-- all parts: execStageUpdate

-- all parts: execBurnMinimumSvn

-- all parts: execDebugUnlock

/-! ### Time -/

theorem loseLock_frame {A : List StatePart} {s₀ : State} {s : State} (h : s₀.Frame A s)  (ha : [.time, .can, .log] ⊆ A := by first | exact StatePart.sub (by assumption) (by decide) | decide) : s₀.Frame A (loseLock s) := by
  unfold loseLock
  repeat' first | with_reducible assumption | with_reducible apply logEvent_frame | exact StatePart.sub ha (by decide) | split | fail_if_no_progress ((with_reducible refine State.Frame.lit ?_ ?_ ?_ ?_ ?_ ?_ ?_ ?_ ?_ ?_ ?_ ?_ ?_ ?_ ?_ ?_ ?_ ?_ ?_ ?_ ?_ ?_ ?_ ?_ ?_ ?_ ?_ ?_ ?_) <;> first | with_reducible exact Or.inr rfl | exact Or.inl (ha (by decide)) | skip)

theorem lock_frame {A : List StatePart} {s₀ : State} {s : State} (h : s₀.Frame A s)  (ha : [.time, .can, .log] ⊆ A := by first | exact StatePart.sub (by assumption) (by decide) | decide) : s₀.Frame A (lock s) := by
  unfold lock
  repeat' first | with_reducible assumption | with_reducible apply logEvent_frame | exact StatePart.sub ha (by decide) | fail_if_no_progress ((with_reducible refine State.Frame.lit ?_ ?_ ?_ ?_ ?_ ?_ ?_ ?_ ?_ ?_ ?_ ?_ ?_ ?_ ?_ ?_ ?_ ?_ ?_ ?_ ?_ ?_ ?_ ?_ ?_ ?_ ?_ ?_ ?_) <;> first | with_reducible exact Or.inr rfl | exact Or.inl (ha (by decide)) | skip)

theorem validFrame_frame {A : List StatePart} {s₀ : State} {s : State} (h : s₀.Frame A s) (b : BitVec 112) (ha : [.time] ⊆ A := by first | exact StatePart.sub (by assumption) (by decide) | decide) : s₀.Frame A (validFrame s b) := by
  unfold validFrame
  repeat' first | with_reducible assumption | fail_if_no_progress ((with_reducible refine State.Frame.lit ?_ ?_ ?_ ?_ ?_ ?_ ?_ ?_ ?_ ?_ ?_ ?_ ?_ ?_ ?_ ?_ ?_ ?_ ?_ ?_ ?_ ?_ ?_ ?_ ?_ ?_ ?_ ?_ ?_) <;> first | with_reducible exact Or.inr rfl | exact Or.inl (ha (by decide)) | skip)

theorem invalidFrame_frame {A : List StatePart} {s₀ : State} {s : State} (h : s₀.Frame A s)  (ha : [.time, .can, .log] ⊆ A := by first | exact StatePart.sub (by assumption) (by decide) | decide) : s₀.Frame A (invalidFrame s) := by
  unfold invalidFrame
  repeat' first | with_reducible assumption | with_reducible apply loseLock_frame | split | fail_if_no_progress ((with_reducible refine State.Frame.lit ?_ ?_ ?_ ?_ ?_ ?_ ?_ ?_ ?_ ?_ ?_ ?_ ?_ ?_ ?_ ?_ ?_ ?_ ?_ ?_ ?_ ?_ ?_ ?_ ?_ ?_ ?_ ?_ ?_) <;> first | with_reducible exact Or.inr rfl | exact Or.inl (ha (by decide)) | skip) | dsimp +zetaDelta only

theorem execTcodeFrame_frame {A : List StatePart} (s : State) (b : BitVec 112) (ha : [.time, .can, .log] ⊆ A := by first | exact StatePart.sub (by assumption) (by decide) | decide) : Out.Frame A s (execTcodeFrame b s) := by
  unfold execTcodeFrame
  repeat' first | with_reducible exact State.Frame.refl _ _ | with_reducible apply validFrame_frame | with_reducible apply invalidFrame_frame | with_reducible refine act_frame ?_ | exact StatePart.sub ha (by decide) | split | fail_if_no_progress ((with_reducible refine State.Frame.lit ?_ ?_ ?_ ?_ ?_ ?_ ?_ ?_ ?_ ?_ ?_ ?_ ?_ ?_ ?_ ?_ ?_ ?_ ?_ ?_ ?_ ?_ ?_ ?_ ?_ ?_ ?_ ?_ ?_) <;> first | with_reducible exact Or.inr rfl | exact Or.inl (ha (by decide)) | skip) | dsimp +zetaDelta only

theorem setCounter_frame {A : List StatePart} {s₀ : State} {s : State} (h : s₀.Frame A s) (t : U64) (ha : [.time, .can, .log] ⊆ A := by first | exact StatePart.sub (by assumption) (by decide) | decide) : s₀.Frame A (setCounter s t) := by
  unfold setCounter
  repeat' first | with_reducible assumption | with_reducible apply lock_frame | fail_if_no_progress ((with_reducible refine State.Frame.lit ?_ ?_ ?_ ?_ ?_ ?_ ?_ ?_ ?_ ?_ ?_ ?_ ?_ ?_ ?_ ?_ ?_ ?_ ?_ ?_ ?_ ?_ ?_ ?_ ?_ ?_ ?_ ?_ ?_) <;> first | with_reducible exact Or.inr rfl | exact Or.inl (ha (by decide)) | skip)

theorem lockedEdge_frame {A : List StatePart} {s₀ : State} {s : State} (h : s₀.Frame A s) (e : Int) (ha : [.time, .can, .log] ⊆ A := by first | exact StatePart.sub (by assumption) (by decide) | decide) : s₀.Frame A (lockedEdge s e) := by
  unfold lockedEdge
  repeat' first | with_reducible assumption | with_reducible apply loseLock_frame | split | fail_if_no_progress ((with_reducible refine State.Frame.lit ?_ ?_ ?_ ?_ ?_ ?_ ?_ ?_ ?_ ?_ ?_ ?_ ?_ ?_ ?_ ?_ ?_ ?_ ?_ ?_ ?_ ?_ ?_ ?_ ?_ ?_ ?_ ?_ ?_) <;> first | with_reducible exact Or.inr rfl | exact Or.inl (ha (by decide)) | skip)

theorem freeEdge_frame {A : List StatePart} {s₀ : State} {s : State} (h : s₀.Frame A s) (t : U64) (e : Int) (ha : [.time, .can, .log] ⊆ A := by first | exact StatePart.sub (by assumption) (by decide) | decide) : s₀.Frame A (freeEdge s t e) := by
  unfold freeEdge
  repeat' first | with_reducible assumption | with_reducible apply lock_frame | with_reducible apply setCounter_frame | split | fail_if_no_progress ((with_reducible refine State.Frame.lit ?_ ?_ ?_ ?_ ?_ ?_ ?_ ?_ ?_ ?_ ?_ ?_ ?_ ?_ ?_ ?_ ?_ ?_ ?_ ?_ ?_ ?_ ?_ ?_ ?_ ?_ ?_ ?_ ?_) <;> first | with_reducible exact Or.inr rfl | exact Or.inl (ha (by decide)) | skip)

theorem namedEdge_frame {A : List StatePart} {s₀ : State} {s : State} (h : s₀.Frame A s) (t : U64) (ha : [.time, .can, .log] ⊆ A := by first | exact StatePart.sub (by assumption) (by decide) | decide) : s₀.Frame A (namedEdge s t) := by
  unfold namedEdge
  repeat' first | with_reducible assumption | with_reducible apply setCounter_frame | with_reducible apply lockedEdge_frame | with_reducible apply freeEdge_frame | split | fail_if_no_progress ((with_reducible refine State.Frame.lit ?_ ?_ ?_ ?_ ?_ ?_ ?_ ?_ ?_ ?_ ?_ ?_ ?_ ?_ ?_ ?_ ?_ ?_ ?_ ?_ ?_ ?_ ?_ ?_ ?_ ?_ ?_ ?_ ?_) <;> first | with_reducible exact Or.inr rfl | exact Or.inl (ha (by decide)) | skip)

theorem execTsyncEdge_frame {A : List StatePart} (s : State)  (ha : [.time, .can, .log] ⊆ A := by first | exact StatePart.sub (by assumption) (by decide) | decide) : Out.Frame A s (execTsyncEdge s) := by
  unfold execTsyncEdge
  repeat' first | with_reducible exact State.Frame.refl _ _ | with_reducible apply namedEdge_frame | with_reducible refine act_frame ?_ | exact StatePart.sub ha (by decide) | split | fail_if_no_progress ((with_reducible refine State.Frame.lit ?_ ?_ ?_ ?_ ?_ ?_ ?_ ?_ ?_ ?_ ?_ ?_ ?_ ?_ ?_ ?_ ?_ ?_ ?_ ?_ ?_ ?_ ?_ ?_ ?_ ?_ ?_ ?_ ?_) <;> first | with_reducible exact Or.inr rfl | exact Or.inl (ha (by decide)) | skip)

theorem execTsyncTimeout_frame {A : List StatePart} (s : State)  (ha : [.time, .can, .log] ⊆ A := by first | exact StatePart.sub (by assumption) (by decide) | decide) : Out.Frame A s (execTsyncTimeout s) := by
  unfold execTsyncTimeout
  repeat' first | with_reducible exact State.Frame.refl _ _ | with_reducible apply loseLock_frame | with_reducible refine act_frame ?_ | exact StatePart.sub ha (by decide)

theorem execTrefLoss_frame {A : List StatePart} (s : State)  (ha : [.time, .can, .log] ⊆ A := by first | exact StatePart.sub (by assumption) (by decide) | decide) : Out.Frame A s (execTrefLoss s) := by
  unfold execTrefLoss
  repeat' first | with_reducible exact State.Frame.refl _ _ | with_reducible apply loseLock_frame | with_reducible refine act_frame ?_ | exact StatePart.sub ha (by decide) | fail_if_no_progress ((with_reducible refine State.Frame.lit ?_ ?_ ?_ ?_ ?_ ?_ ?_ ?_ ?_ ?_ ?_ ?_ ?_ ?_ ?_ ?_ ?_ ?_ ?_ ?_ ?_ ?_ ?_ ?_ ?_ ?_ ?_ ?_ ?_) <;> first | with_reducible exact Or.inr rfl | exact Or.inl (ha (by decide)) | skip)

theorem execTrefReturn_frame {A : List StatePart} (s : State)  (ha : [.time] ⊆ A := by first | exact StatePart.sub (by assumption) (by decide) | decide) : Out.Frame A s (execTrefReturn s) := by
  unfold execTrefReturn
  repeat' first | with_reducible exact State.Frame.refl _ _ | with_reducible refine act_frame ?_ | fail_if_no_progress ((with_reducible refine State.Frame.lit ?_ ?_ ?_ ?_ ?_ ?_ ?_ ?_ ?_ ?_ ?_ ?_ ?_ ?_ ?_ ?_ ?_ ?_ ?_ ?_ ?_ ?_ ?_ ?_ ?_ ?_ ?_ ?_ ?_) <;> first | with_reducible exact Or.inr rfl | exact Or.inl (ha (by decide)) | skip)

theorem timeTick_frame {A : List StatePart} {s₀ : State} {s : State} (h : s₀.Frame A s)  (ha : [.time, .can, .log] ⊆ A := by first | exact StatePart.sub (by assumption) (by decide) | decide) : s₀.Frame A (timeTick s) := by
  unfold timeTick
  repeat' first | with_reducible assumption | with_reducible apply lock_frame | split | fail_if_no_progress ((with_reducible refine State.Frame.lit ?_ ?_ ?_ ?_ ?_ ?_ ?_ ?_ ?_ ?_ ?_ ?_ ?_ ?_ ?_ ?_ ?_ ?_ ?_ ?_ ?_ ?_ ?_ ?_ ?_ ?_ ?_ ?_ ?_) <;> first | with_reducible exact Or.inr rfl | exact Or.inl (ha (by decide)) | skip) | dsimp +zetaDelta only

/-! ### Can -/

theorem sendHeartbeat_frame {A : List StatePart} {s₀ : State} {s : State} (h : s₀.Frame A s)  (ha : [.can] ⊆ A := by first | exact StatePart.sub (by assumption) (by decide) | decide) : s₀.Frame A (sendHeartbeat s) := by
  unfold sendHeartbeat
  extract_lets x0
  have h0 : s₀.Frame A x0 := by
    unfold x0
    repeat' first | with_reducible assumption | with_reducible apply canSend_frame
  clear_value x0
  repeat' first | with_reducible assumption | fail_if_no_progress ((with_reducible refine State.Frame.lit ?_ ?_ ?_ ?_ ?_ ?_ ?_ ?_ ?_ ?_ ?_ ?_ ?_ ?_ ?_ ?_ ?_ ?_ ?_ ?_ ?_ ?_ ?_ ?_ ?_ ?_ ?_ ?_ ?_) <;> first | with_reducible exact Or.inr rfl | exact Or.inl (ha (by decide)) | skip)

theorem execHeartbeat_frame {A : List StatePart} (s : State)  (ha : [.can] ⊆ A := by first | exact StatePart.sub (by assumption) (by decide) | decide) : Out.Frame A s (execHeartbeat s) := by
  unfold execHeartbeat
  repeat' first | with_reducible exact State.Frame.refl _ _ | with_reducible apply sendHeartbeat_frame | with_reducible refine act_frame ?_ | exact StatePart.sub ha (by decide)

theorem execFaultFrame_frame {A : List StatePart} (s : State)  (ha : [.can] ⊆ A := by first | exact StatePart.sub (by assumption) (by decide) | decide) : Out.Frame A s (execFaultFrame s) := by
  unfold execFaultFrame
  repeat' first | with_reducible exact State.Frame.refl _ _ | with_reducible apply canSend_frame | with_reducible refine act_frame ?_ | exact StatePart.sub ha (by decide) | split | fail_if_no_progress ((with_reducible refine State.Frame.lit ?_ ?_ ?_ ?_ ?_ ?_ ?_ ?_ ?_ ?_ ?_ ?_ ?_ ?_ ?_ ?_ ?_ ?_ ?_ ?_ ?_ ?_ ?_ ?_ ?_ ?_ ?_ ?_ ?_) <;> first | with_reducible exact Or.inr rfl | exact Or.inl (ha (by decide)) | skip)

theorem execCanBusError_frame {A : List StatePart} (s : State) (transmitting : Bool) (ha : [.can] ⊆ A := by first | exact StatePart.sub (by assumption) (by decide) | decide) : Out.Frame A s (execCanBusError transmitting s) := by
  unfold execCanBusError
  repeat' first | with_reducible exact State.Frame.refl _ _ | with_reducible refine act_frame ?_ | fail_if_no_progress ((with_reducible refine State.Frame.lit ?_ ?_ ?_ ?_ ?_ ?_ ?_ ?_ ?_ ?_ ?_ ?_ ?_ ?_ ?_ ?_ ?_ ?_ ?_ ?_ ?_ ?_ ?_ ?_ ?_ ?_ ?_ ?_ ?_) <;> first | with_reducible exact Or.inr rfl | exact Or.inl (ha (by decide)) | skip)

theorem execBusOffRecovery_frame {A : List StatePart} (s : State)  (ha : [.can, .log] ⊆ A := by first | exact StatePart.sub (by assumption) (by decide) | decide) : Out.Frame A s (execBusOffRecovery s) := by
  unfold execBusOffRecovery
  repeat' first | with_reducible exact State.Frame.refl _ _ | with_reducible apply logEvent_frame | with_reducible refine act_frame ?_ | exact StatePart.sub ha (by decide) | fail_if_no_progress ((with_reducible refine State.Frame.lit ?_ ?_ ?_ ?_ ?_ ?_ ?_ ?_ ?_ ?_ ?_ ?_ ?_ ?_ ?_ ?_ ?_ ?_ ?_ ?_ ?_ ?_ ?_ ?_ ?_ ?_ ?_ ?_ ?_) <;> first | with_reducible exact Or.inr rfl | exact Or.inl (ha (by decide)) | skip)

theorem receiveFrame_frame {A : List StatePart} {s₀ : State} {s : State} (h : s₀.Frame A s)  (ha : [.can] ⊆ A := by first | exact StatePart.sub (by assumption) (by decide) | decide) : s₀.Frame A (receiveFrame s) := by
  unfold receiveFrame
  extract_lets x0
  have h0 : s₀.Frame A x0 := by
    unfold x0
    repeat' first | with_reducible assumption | fail_if_no_progress ((with_reducible refine State.Frame.lit ?_ ?_ ?_ ?_ ?_ ?_ ?_ ?_ ?_ ?_ ?_ ?_ ?_ ?_ ?_ ?_ ?_ ?_ ?_ ?_ ?_ ?_ ?_ ?_ ?_ ?_ ?_ ?_ ?_) <;> first | with_reducible exact Or.inr rfl | exact Or.inl (ha (by decide)) | skip)
  clear_value x0
  repeat' first | with_reducible assumption | with_reducible apply sendHeartbeat_frame | split

theorem endOld_frame {A : List StatePart} {s₀ : State} {s : State} (h : s₀.Frame A s)  (ha : [.can, .log, .dict] ⊆ A := by first | exact StatePart.sub (by assumption) (by decide) | decide) : s₀.Frame A (endOld s) := by
  unfold endOld
  repeat' first | with_reducible assumption | with_reducible apply ddaAbort_frame | split

theorem submit_frame {A : List StatePart} {s₀ : State} {s : State} (h : s₀.Frame A s) (r : Req) (ha : [.dict] ⊆ A := by first | exact StatePart.sub (by assumption) (by decide) | decide) : s₀.Frame A (submit s r) := by
  unfold submit
  repeat' first | with_reducible assumption | fail_if_no_progress ((with_reducible refine State.Frame.lit ?_ ?_ ?_ ?_ ?_ ?_ ?_ ?_ ?_ ?_ ?_ ?_ ?_ ?_ ?_ ?_ ?_ ?_ ?_ ?_ ?_ ?_ ?_ ?_ ?_ ?_ ?_ ?_ ?_) <;> first | with_reducible exact Or.inr rfl | exact Or.inl (ha (by decide)) | skip)

theorem execReadRequest_frame {A : List StatePart} (s : State) (fd : Bool) (index : BitVec 16) (sub : BitVec 8) (ha : [.can, .log, .dict] ⊆ A := by first | exact StatePart.sub (by assumption) (by decide) | decide) : Out.Frame A s (execReadRequest fd index sub s) := by
  unfold execReadRequest
  repeat' first | with_reducible assumption | with_reducible exact State.Frame.refl _ _ | with_reducible apply receiveFrame_frame | with_reducible apply endOld_frame | with_reducible apply submit_frame | with_reducible refine act_frame ?_ | with_reducible refine next_frame ?_ | exact StatePart.sub ha (by decide) | split | fail_if_no_progress ((with_reducible refine State.Frame.lit ?_ ?_ ?_ ?_ ?_ ?_ ?_ ?_ ?_ ?_ ?_ ?_ ?_ ?_ ?_ ?_ ?_ ?_ ?_ ?_ ?_ ?_ ?_ ?_ ?_ ?_ ?_ ?_ ?_) <;> first | with_reducible exact Or.inr rfl | exact Or.inl (ha (by decide)) | skip)

theorem unknownByte_frame {A : List StatePart} {s₀ : State} {s : State} (h : s₀.Frame A s) (fd : Bool) (ha : [.can, .log, .dict] ⊆ A := by first | exact StatePart.sub (by assumption) (by decide) | decide) : s₀.Frame A (unknownByte s fd) := by
  unfold unknownByte
  repeat' first | with_reducible assumption | with_reducible exact State.Frame.refl _ _ | fail_if_no_progress extract_lets | with_reducible apply ddaAbort_frame | exact StatePart.sub ha (by decide) | split | fail_if_no_progress ((with_reducible refine State.Frame.lit ?_ ?_ ?_ ?_ ?_ ?_ ?_ ?_ ?_ ?_ ?_ ?_ ?_ ?_ ?_ ?_ ?_ ?_ ?_ ?_ ?_ ?_ ?_ ?_ ?_ ?_ ?_ ?_ ?_) <;> first | with_reducible exact Or.inr rfl | exact Or.inl (ha (by decide)) | skip)

theorem execExpeditedWrite_frame {A : List StatePart} (s : State) (fd : Bool) (index : BitVec 16) (sub : BitVec 8) (data : List Byte) (ha : [.can, .log, .dict] ⊆ A := by first | exact StatePart.sub (by assumption) (by decide) | decide) : Out.Frame A s (execExpeditedWrite fd index sub data s) := by
  unfold execExpeditedWrite
  repeat' first | with_reducible assumption | with_reducible exact State.Frame.refl _ _ | fail_if_no_progress extract_lets | with_reducible apply receiveFrame_frame | with_reducible apply endOld_frame | with_reducible apply submit_frame | with_reducible apply unknownByte_frame | with_reducible refine act_frame ?_ | with_reducible refine next_frame ?_ | exact StatePart.sub ha (by decide) | with_reducible refine ite_frame ?_ ?_ | split | fail_if_no_progress ((with_reducible refine State.Frame.lit ?_ ?_ ?_ ?_ ?_ ?_ ?_ ?_ ?_ ?_ ?_ ?_ ?_ ?_ ?_ ?_ ?_ ?_ ?_ ?_ ?_ ?_ ?_ ?_ ?_ ?_ ?_ ?_ ?_) <;> first | with_reducible exact Or.inr rfl | exact Or.inl (ha (by decide)) | skip) | dsimp +zetaDelta only

theorem execSegmentedWriteInitiate_frame {A : List StatePart} (s : State) (fd : Bool) (index : BitVec 16) (sub : BitVec 8) (len : BitVec 32) (ha : [.can, .log, .dict] ⊆ A := by first | exact StatePart.sub (by assumption) (by decide) | decide) : Out.Frame A s (execSegmentedWriteInitiate fd index sub len s) := by
  unfold execSegmentedWriteInitiate
  repeat' first | with_reducible assumption | with_reducible exact State.Frame.refl _ _ | fail_if_no_progress extract_lets | with_reducible apply ddaFrame_frame | with_reducible apply ddaAbort_frame | with_reducible apply countRequest_frame | with_reducible apply receiveFrame_frame | with_reducible apply endOld_frame | with_reducible refine act_frame ?_ | with_reducible refine next_frame ?_ | exact StatePart.sub ha (by decide) | with_reducible refine ite_frame ?_ ?_ | split | fail_if_no_progress ((with_reducible refine State.Frame.lit ?_ ?_ ?_ ?_ ?_ ?_ ?_ ?_ ?_ ?_ ?_ ?_ ?_ ?_ ?_ ?_ ?_ ?_ ?_ ?_ ?_ ?_ ?_ ?_ ?_ ?_ ?_ ?_ ?_) <;> first | with_reducible exact Or.inr rfl | exact Or.inl (ha (by decide)) | skip) | dsimp +zetaDelta only

theorem readSegment_frame {A : List StatePart} {s₀ : State} {s : State} (h : s₀.Frame A s) (d : Dda) (fd : Bool) (toggle : Bool) (ha : [.can] ⊆ A := by first | exact StatePart.sub (by assumption) (by decide) | decide) : s₀.Frame A (readSegment s d fd toggle) := by
  unfold readSegment
  extract_lets x0 x1 x2
  have h2 : s₀.Frame A x2 := by
    unfold x2
    repeat' first | with_reducible assumption | with_reducible exact State.Frame.refl _ _ | fail_if_no_progress extract_lets | with_reducible apply ddaFrame_frame | exact StatePart.sub ha (by decide) | with_reducible refine ite_frame ?_ ?_ | split | fail_if_no_progress ((with_reducible refine State.Frame.lit ?_ ?_ ?_ ?_ ?_ ?_ ?_ ?_ ?_ ?_ ?_ ?_ ?_ ?_ ?_ ?_ ?_ ?_ ?_ ?_ ?_ ?_ ?_ ?_ ?_ ?_ ?_ ?_ ?_) <;> first | with_reducible exact Or.inr rfl | exact Or.inl (ha (by decide)) | skip) | dsimp +zetaDelta only
  clear_value x2
  repeat' first | with_reducible assumption | with_reducible exact State.Frame.refl _ _ | fail_if_no_progress extract_lets | with_reducible apply ddaFrame_frame | exact StatePart.sub ha (by decide) | with_reducible refine ite_frame ?_ ?_ | split | fail_if_no_progress ((with_reducible refine State.Frame.lit ?_ ?_ ?_ ?_ ?_ ?_ ?_ ?_ ?_ ?_ ?_ ?_ ?_ ?_ ?_ ?_ ?_ ?_ ?_ ?_ ?_ ?_ ?_ ?_ ?_ ?_ ?_ ?_ ?_) <;> first | with_reducible exact Or.inr rfl | exact Or.inl (ha (by decide)) | skip) | dsimp +zetaDelta only

theorem writeDdaSegment_frame {A : List StatePart} {s₀ : State} {s : State} (h : s₀.Frame A s) (d : Dda) (fd : Bool) (toggle : Bool) (last : Bool) (data : List Byte) (ha : [.can, .dict] ⊆ A := by first | exact StatePart.sub (by assumption) (by decide) | decide) : s₀.Frame A (writeDdaSegment s d fd toggle last data) := by
  unfold writeDdaSegment
  repeat' first | with_reducible assumption | with_reducible exact State.Frame.refl _ _ | fail_if_no_progress extract_lets | with_reducible apply ddaFrame_frame | with_reducible apply submit_frame | exact StatePart.sub ha (by decide) | with_reducible refine ite_frame ?_ ?_ | split | fail_if_no_progress ((with_reducible refine State.Frame.lit ?_ ?_ ?_ ?_ ?_ ?_ ?_ ?_ ?_ ?_ ?_ ?_ ?_ ?_ ?_ ?_ ?_ ?_ ?_ ?_ ?_ ?_ ?_ ?_ ?_ ?_ ?_ ?_ ?_) <;> first | with_reducible exact Or.inr rfl | exact Or.inl (ha (by decide)) | skip) | dsimp +zetaDelta only

theorem execSegmentFrame_frame {A : List StatePart} (s : State) (fd : Bool) (toggle : Bool) (last : Bool) (data : List Byte) (ha : [.can, .log, .dict] ⊆ A := by first | exact StatePart.sub (by assumption) (by decide) | decide) : Out.Frame A s (execSegmentFrame fd toggle last data s) := by
  unfold execSegmentFrame
  repeat' first | with_reducible assumption | with_reducible exact State.Frame.refl _ _ | fail_if_no_progress extract_lets | with_reducible apply ddaAbort_frame | with_reducible apply receiveFrame_frame | with_reducible apply readSegment_frame | with_reducible apply writeDdaSegment_frame | with_reducible refine act_frame ?_ | with_reducible refine next_frame ?_ | exact StatePart.sub ha (by decide) | with_reducible refine ite_frame ?_ ?_ | split | fail_if_no_progress ((with_reducible refine State.Frame.lit ?_ ?_ ?_ ?_ ?_ ?_ ?_ ?_ ?_ ?_ ?_ ?_ ?_ ?_ ?_ ?_ ?_ ?_ ?_ ?_ ?_ ?_ ?_ ?_ ?_ ?_ ?_ ?_ ?_) <;> first | with_reducible exact Or.inr rfl | exact Or.inl (ha (by decide)) | skip) | dsimp +zetaDelta only

theorem execDdaAbort_frame {A : List StatePart} (s : State)  (ha : [.can, .log, .dict] ⊆ A := by first | exact StatePart.sub (by assumption) (by decide) | decide) : Out.Frame A s (execDdaAbort s) := by
  unfold execDdaAbort
  repeat' first | with_reducible assumption | with_reducible exact State.Frame.refl _ _ | fail_if_no_progress extract_lets | with_reducible apply ddaAbort_frame | with_reducible apply receiveFrame_frame | with_reducible refine act_frame ?_ | with_reducible refine next_frame ?_ | exact StatePart.sub ha (by decide) | split | fail_if_no_progress ((with_reducible refine State.Frame.lit ?_ ?_ ?_ ?_ ?_ ?_ ?_ ?_ ?_ ?_ ?_ ?_ ?_ ?_ ?_ ?_ ?_ ?_ ?_ ?_ ?_ ?_ ?_ ?_ ?_ ?_ ?_ ?_ ?_) <;> first | with_reducible exact Or.inr rfl | exact Or.inl (ha (by decide)) | skip) | dsimp +zetaDelta only

theorem execDdaTimeout_frame {A : List StatePart} (s : State)  (ha : [.can, .log, .dict] ⊆ A := by first | exact StatePart.sub (by assumption) (by decide) | decide) : Out.Frame A s (execDdaTimeout s) := by
  unfold execDdaTimeout
  repeat' first | with_reducible assumption | with_reducible exact State.Frame.refl _ _ | fail_if_no_progress extract_lets | with_reducible apply ddaAbort_frame | with_reducible refine act_frame ?_ | with_reducible refine next_frame ?_ | exact StatePart.sub ha (by decide) | split | fail_if_no_progress ((with_reducible refine State.Frame.lit ?_ ?_ ?_ ?_ ?_ ?_ ?_ ?_ ?_ ?_ ?_ ?_ ?_ ?_ ?_ ?_ ?_ ?_ ?_ ?_ ?_ ?_ ?_ ?_ ?_ ?_ ?_ ?_ ?_) <;> first | with_reducible exact Or.inr rfl | exact Or.inl (ha (by decide)) | skip)

theorem execUnknownCommand_frame {A : List StatePart} (s : State) (fd : Bool) (cmd : BitVec 8) (ha : [.can, .log, .dict] ⊆ A := by first | exact StatePart.sub (by assumption) (by decide) | decide) : Out.Frame A s (execUnknownCommand fd cmd s) := by
  unfold execUnknownCommand
  repeat' first | with_reducible assumption | with_reducible exact State.Frame.refl _ _ | with_reducible apply receiveFrame_frame | with_reducible apply unknownByte_frame | with_reducible refine act_frame ?_ | with_reducible refine next_frame ?_ | exact StatePart.sub ha (by decide) | split | fail_if_no_progress ((with_reducible refine State.Frame.lit ?_ ?_ ?_ ?_ ?_ ?_ ?_ ?_ ?_ ?_ ?_ ?_ ?_ ?_ ?_ ?_ ?_ ?_ ?_ ?_ ?_ ?_ ?_ ?_ ?_ ?_ ?_ ?_ ?_) <;> first | with_reducible exact Or.inr rfl | exact Or.inl (ha (by decide)) | skip)

end Sys2Proof.Machine
end

