-- ==== Sys2Proof/Laws/FrameLinks.lean ====
section
/-! SUPPORT. Which parts of the state the operations of these files may change: Mirror, Link, Rings, Tap, Ports. -/

namespace Sys2Proof.Machine

set_option linter.unusedVariables false
set_option linter.unusedTactic false
set_option linter.unreachableTactic false

/-! ### Mirror -/

theorem submitFrom_frame {A : List StatePart} {s₀ : State} {s : State} (h : s₀.Frame A s) (r : Req) (ha : [.dict] ⊆ A := by first | exact StatePart.sub (by assumption) (by decide) | decide) : s₀.Frame A (submitFrom s r) := by
  unfold submitFrom
  repeat' first | with_reducible assumption | with_reducible exact State.Frame.refl _ _ | fail_if_no_progress extract_lets | exact StatePart.sub ha (by decide) | split | fail_if_no_progress ((with_reducible refine State.Frame.lit ?_ ?_ ?_ ?_ ?_ ?_ ?_ ?_ ?_ ?_ ?_ ?_ ?_ ?_ ?_ ?_ ?_ ?_ ?_ ?_ ?_ ?_ ?_ ?_ ?_ ?_ ?_ ?_ ?_) <;> first | with_reducible exact Or.inr rfl | exact Or.inl (ha (by decide)) | skip)

theorem storeRequest_frame {A : List StatePart} {s₀ : State} {s : State} (h : s₀.Frame A s) (m : Nat) (line : Line) (ha : [.link, .dict] ⊆ A := by first | exact StatePart.sub (by assumption) (by decide) | decide) : s₀.Frame A (storeRequest s m line) := by
  unfold storeRequest
  extract_lets x0 x1
  have h1 : s₀.Frame A x1 := by
    unfold x1
    repeat' first | with_reducible assumption | with_reducible exact State.Frame.refl _ _ | fail_if_no_progress extract_lets | with_reducible apply updBox_frame | with_reducible apply submitFrom_frame | exact StatePart.sub ha (by decide) | with_reducible refine ite_frame ?_ ?_ | split | fail_if_no_progress ((with_reducible refine State.Frame.lit ?_ ?_ ?_ ?_ ?_ ?_ ?_ ?_ ?_ ?_ ?_ ?_ ?_ ?_ ?_ ?_ ?_ ?_ ?_ ?_ ?_ ?_ ?_ ?_ ?_ ?_ ?_ ?_ ?_) <;> first | with_reducible exact Or.inr rfl | exact Or.inl (ha (by decide)) | skip) | dsimp +zetaDelta only
  clear_value x1
  repeat' first | with_reducible assumption | with_reducible exact State.Frame.refl _ _ | fail_if_no_progress extract_lets | with_reducible apply updBox_frame | with_reducible apply submitFrom_frame | exact StatePart.sub ha (by decide) | with_reducible refine ite_frame ?_ ?_ | split | fail_if_no_progress ((with_reducible refine State.Frame.lit ?_ ?_ ?_ ?_ ?_ ?_ ?_ ?_ ?_ ?_ ?_ ?_ ?_ ?_ ?_ ?_ ?_ ?_ ?_ ?_ ?_ ?_ ?_ ?_ ?_ ?_ ?_ ?_ ?_) <;> first | with_reducible exact Or.inr rfl | exact Or.inl (ha (by decide)) | skip) | dsimp +zetaDelta only

theorem mirrorWrite_frame {A : List StatePart} {s₀ : State} {s : State} (h : s₀.Frame A s) (off : Nat) (data : Line) (mask : U64) (ha : [.link, .dict] ⊆ A := by first | exact StatePart.sub (by assumption) (by decide) | decide) : s₀.Frame A (mirrorWrite s off data mask).1 := by
  unfold mirrorWrite
  repeat' first | with_reducible assumption | with_reducible exact State.Frame.refl _ _ | fail_if_no_progress extract_lets | with_reducible apply updBox_frame | with_reducible apply storeRequest_frame | with_reducible refine foldl_frame (fun _ _ => ?_) ?_ | exact StatePart.sub ha (by decide) | with_reducible refine ite_frame ?_ ?_ | split | fail_if_no_progress ((with_reducible refine State.Frame.lit ?_ ?_ ?_ ?_ ?_ ?_ ?_ ?_ ?_ ?_ ?_ ?_ ?_ ?_ ?_ ?_ ?_ ?_ ?_ ?_ ?_ ?_ ?_ ?_ ?_ ?_ ?_ ?_ ?_) <;> first | with_reducible exact Or.inr rfl | exact Or.inl (ha (by decide)) | skip)

/-! ### Link -/

theorem takeFlit_frame {A : List StatePart} {s₀ : State} {s : State} (h : s₀.Frame A s) (fl : Flit) (ha : [.link] ⊆ A := by first | exact StatePart.sub (by assumption) (by decide) | decide) : s₀.Frame A (takeFlit s fl) := by
  unfold takeFlit
  repeat' first | with_reducible assumption | with_reducible exact State.Frame.refl _ _ | fail_if_no_progress extract_lets | exact StatePart.sub ha (by decide) | with_reducible refine ite_frame ?_ ?_ | split | fail_if_no_progress ((with_reducible refine State.Frame.lit ?_ ?_ ?_ ?_ ?_ ?_ ?_ ?_ ?_ ?_ ?_ ?_ ?_ ?_ ?_ ?_ ?_ ?_ ?_ ?_ ?_ ?_ ?_ ?_ ?_ ?_ ?_ ?_ ?_) <;> first | with_reducible exact Or.inr rfl | exact Or.inl (ha (by decide)) | skip)

theorem endFlit_frame {A : List StatePart} {s₀ : State} {s : State} (h : s₀.Frame A s) (fl : Flit) (ha : [.link] ⊆ A := by first | exact StatePart.sub (by assumption) (by decide) | decide) : s₀.Frame A (endFlit fl s) := by
  unfold endFlit
  repeat' first | with_reducible assumption | with_reducible exact State.Frame.refl _ _ | fail_if_no_progress extract_lets | exact StatePart.sub ha (by decide) | with_reducible refine ite_frame ?_ ?_ | split | fail_if_no_progress ((with_reducible refine State.Frame.lit ?_ ?_ ?_ ?_ ?_ ?_ ?_ ?_ ?_ ?_ ?_ ?_ ?_ ?_ ?_ ?_ ?_ ?_ ?_ ?_ ?_ ?_ ?_ ?_ ?_ ?_ ?_ ?_ ?_) <;> first | with_reducible exact Or.inr rfl | exact Or.inl (ha (by decide)) | skip)

theorem refuseFlit_frame {A : List StatePart} {s₀ : State} {s : State} (h : s₀.Frame A s) (fl : Flit) (ha : [.link] ⊆ A := by first | exact StatePart.sub (by assumption) (by decide) | decide) : s₀.Frame A (refuseFlit fl s) := by
  unfold refuseFlit
  repeat' first | with_reducible assumption | with_reducible apply endFlit_frame | with_reducible exact State.Frame.refl _ _ | fail_if_no_progress extract_lets | exact StatePart.sub ha (by decide) | with_reducible refine ite_frame ?_ ?_ | split | fail_if_no_progress ((with_reducible refine State.Frame.lit ?_ ?_ ?_ ?_ ?_ ?_ ?_ ?_ ?_ ?_ ?_ ?_ ?_ ?_ ?_ ?_ ?_ ?_ ?_ ?_ ?_ ?_ ?_ ?_ ?_ ?_ ?_ ?_ ?_) <;> first | with_reducible exact Or.inr rfl | exact Or.inl (ha (by decide)) | skip)

theorem message_frame {A : List StatePart} {fl : Flit} {s : State} {f : State → State} (h : s.Frame A (f (takeFlit s fl))) (ha : [.link] ⊆ A := by first | exact StatePart.sub (by assumption) (by decide) | decide) : Out.Frame A s (message fl s f) :=
  act_frame (ite_frame (endFlit_frame h fl ha) (refuseFlit_frame (State.Frame.refl _ _) fl ha))

theorem execIdleFlit_frame {A : List StatePart} (s : State) (fl : Flit) (ha : [.link] ⊆ A := by first | exact StatePart.sub (by assumption) (by decide) | decide) : Out.Frame A s (execIdleFlit fl s) := by
  unfold execIdleFlit
  repeat' first | with_reducible assumption | with_reducible exact State.Frame.refl _ _ | with_reducible apply message_frame | with_reducible apply takeFlit_frame | with_reducible refine next_frame ?_ | exact StatePart.sub ha (by decide) | split | fail_if_no_progress ((with_reducible refine State.Frame.lit ?_ ?_ ?_ ?_ ?_ ?_ ?_ ?_ ?_ ?_ ?_ ?_ ?_ ?_ ?_ ?_ ?_ ?_ ?_ ?_ ?_ ?_ ?_ ?_ ?_ ?_ ?_ ?_ ?_) <;> first | with_reducible exact Or.inr rfl | exact Or.inl (ha (by decide)) | skip)

theorem execCompanionNak_frame {A : List StatePart} (s : State) (fl : Flit) (ha : [.link] ⊆ A := by first | exact StatePart.sub (by assumption) (by decide) | decide) : Out.Frame A s (execCompanionNak fl s) := by
  unfold execCompanionNak
  repeat' first | with_reducible assumption | with_reducible exact State.Frame.refl _ _ | with_reducible apply message_frame | with_reducible apply takeFlit_frame | with_reducible refine next_frame ?_ | exact StatePart.sub ha (by decide) | split | fail_if_no_progress ((with_reducible refine State.Frame.lit ?_ ?_ ?_ ?_ ?_ ?_ ?_ ?_ ?_ ?_ ?_ ?_ ?_ ?_ ?_ ?_ ?_ ?_ ?_ ?_ ?_ ?_ ?_ ?_ ?_ ?_ ?_ ?_ ?_) <;> first | with_reducible exact Or.inr rfl | exact Or.inl (ha (by decide)) | skip)

theorem execFlitError_frame {A : List StatePart} (s : State) (ha : [.link] ⊆ A := by first | exact StatePart.sub (by assumption) (by decide) | decide) : Out.Frame A s (execFlitError s) := by
  unfold execFlitError
  repeat' first | with_reducible assumption | with_reducible exact State.Frame.refl _ _ | fail_if_no_progress extract_lets | exact StatePart.sub ha (by decide) | with_reducible refine act_frame ?_ | with_reducible refine next_frame ?_ | with_reducible refine ite_frame ?_ ?_ | split | fail_if_no_progress ((with_reducible refine State.Frame.lit ?_ ?_ ?_ ?_ ?_ ?_ ?_ ?_ ?_ ?_ ?_ ?_ ?_ ?_ ?_ ?_ ?_ ?_ ?_ ?_ ?_ ?_ ?_ ?_ ?_ ?_ ?_ ?_ ?_) <;> first | with_reducible exact Or.inr rfl | exact Or.inl (ha (by decide)) | skip) | dsimp +zetaDelta only

theorem execMessageOfUndefinedType_frame {A : List StatePart} (s : State) (msg : StrayMessage) (ha : [.link] ⊆ A := by first | exact StatePart.sub (by assumption) (by decide) | decide) : Out.Frame A s (execMessageOfUndefinedType msg s) := by
  unfold execMessageOfUndefinedType
  repeat' first | with_reducible assumption | with_reducible exact State.Frame.refl _ _ | fail_if_no_progress extract_lets | exact StatePart.sub ha (by decide) | with_reducible apply message_frame | with_reducible apply takeFlit_frame | with_reducible refine next_frame ?_ | with_reducible refine ite_frame ?_ ?_ | split | fail_if_no_progress ((with_reducible refine State.Frame.lit ?_ ?_ ?_ ?_ ?_ ?_ ?_ ?_ ?_ ?_ ?_ ?_ ?_ ?_ ?_ ?_ ?_ ?_ ?_ ?_ ?_ ?_ ?_ ?_ ?_ ?_ ?_ ?_ ?_) <;> first | with_reducible exact Or.inr rfl | exact Or.inl (ha (by decide)) | skip)

theorem respondRead_frame {A : List StatePart} {s₀ : State} {s : State} (h : s₀.Frame A s) (tag : BitVec 11) (status : BitVec 4) (data : List Byte) (ha : [.link] ⊆ A := by first | exact StatePart.sub (by assumption) (by decide) | decide) : s₀.Frame A (respondRead s tag status data) := by
  unfold respondRead
  repeat' first | with_reducible assumption | with_reducible exact State.Frame.refl _ _ | with_reducible apply linkSend_frame | exact StatePart.sub ha (by decide) | with_reducible refine ite_frame ?_ ?_ | split | fail_if_no_progress ((with_reducible refine State.Frame.lit ?_ ?_ ?_ ?_ ?_ ?_ ?_ ?_ ?_ ?_ ?_ ?_ ?_ ?_ ?_ ?_ ?_ ?_ ?_ ?_ ?_ ?_ ?_ ?_ ?_ ?_ ?_ ?_ ?_) <;> first | with_reducible exact Or.inr rfl | exact Or.inl (ha (by decide)) | skip)

theorem respond_frame {A : List StatePart} {s₀ : State} {s : State} (h : s₀.Frame A s) (tag : BitVec 11) (status : BitVec 4) (ha : [.link] ⊆ A := by first | exact StatePart.sub (by assumption) (by decide) | decide) : s₀.Frame A (respond s tag status) := by
  unfold respond
  repeat' first | with_reducible assumption | with_reducible exact State.Frame.refl _ _ | with_reducible apply linkSend_frame | exact StatePart.sub ha (by decide) | split | fail_if_no_progress ((with_reducible refine State.Frame.lit ?_ ?_ ?_ ?_ ?_ ?_ ?_ ?_ ?_ ?_ ?_ ?_ ?_ ?_ ?_ ?_ ?_ ?_ ?_ ?_ ?_ ?_ ?_ ?_ ?_ ?_ ?_ ?_ ?_) <;> first | with_reducible exact Or.inr rfl | exact Or.inl (ha (by decide)) | skip)

theorem windowAccess_frame {A : List StatePart} {s₀ : State} {s : State} (h : s₀.Frame A s) (p : Nat) (a : Nat) (ha : [.mem] ⊆ A := by first | exact StatePart.sub (by assumption) (by decide) | decide) : s₀.Frame A (windowAccess s p a).1 := by
  unfold windowAccess
  extract_lets x0
  repeat' first | with_reducible assumption | with_reducible exact State.Frame.refl _ _ | fail_if_no_progress extract_lets | with_reducible apply recordRefused_frame | exact StatePart.sub ha (by decide) | with_reducible refine ite_frame ?_ ?_ | split | fail_if_no_progress ((with_reducible refine State.Frame.lit ?_ ?_ ?_ ?_ ?_ ?_ ?_ ?_ ?_ ?_ ?_ ?_ ?_ ?_ ?_ ?_ ?_ ?_ ?_ ?_ ?_ ?_ ?_ ?_ ?_ ?_ ?_ ?_ ?_) <;> first | with_reducible exact Or.inr rfl | exact Or.inl (ha (by decide)) | skip) | dsimp +zetaDelta only

theorem linkReadLine_frame {A : List StatePart} {s₀ : State} {s : State} (h : s₀.Frame A s) (tag : BitVec 11) (addr : Nat) (ha : [.link, .mem] ⊆ A := by first | exact StatePart.sub (by assumption) (by decide) | decide) : s₀.Frame A (linkReadLine s tag addr) := by
  unfold linkReadLine
  repeat' first | with_reducible assumption | with_reducible exact State.Frame.refl _ _ | fail_if_no_progress extract_lets | exact StatePart.sub ha (by decide) | with_reducible apply touch_frame | with_reducible apply respondRead_frame | with_reducible apply windowAccess_frame | with_reducible refine fst_frame (by assumption) ?_ | with_reducible refine snd_frame (by assumption) ?_ | with_reducible refine ite_frame ?_ ?_ | split | fail_if_no_progress ((with_reducible refine State.Frame.lit ?_ ?_ ?_ ?_ ?_ ?_ ?_ ?_ ?_ ?_ ?_ ?_ ?_ ?_ ?_ ?_ ?_ ?_ ?_ ?_ ?_ ?_ ?_ ?_ ?_ ?_ ?_ ?_ ?_) <;> first | with_reducible exact Or.inr rfl | exact Or.inl (ha (by decide)) | skip) | dsimp +zetaDelta only

theorem execRd_frame {A : List StatePart} (s : State) (fl : Flit) (tag : BitVec 11) (line : BitVec 46) (found : List Flaw) (ha : [.link, .mem] ⊆ A := by first | exact StatePart.sub (by assumption) (by decide) | decide) : Out.Frame A s (execRd fl tag line found s) := by
  unfold execRd
  repeat' first | with_reducible assumption | with_reducible exact State.Frame.refl _ _ | exact StatePart.sub ha (by decide) | with_reducible apply strikeAll_frame | with_reducible apply message_frame | with_reducible apply linkReadLine_frame | with_reducible apply takeFlit_frame | with_reducible refine next_frame ?_ | split | fail_if_no_progress ((with_reducible refine State.Frame.lit ?_ ?_ ?_ ?_ ?_ ?_ ?_ ?_ ?_ ?_ ?_ ?_ ?_ ?_ ?_ ?_ ?_ ?_ ?_ ?_ ?_ ?_ ?_ ?_ ?_ ?_ ?_ ?_ ?_) <;> first | with_reducible exact Or.inr rfl | exact Or.inl (ha (by decide)) | skip)

theorem execRdreg_frame {A : List StatePart} (s : State) (fl : Flit) (tag : BitVec 11) (line : BitVec 46) (ha : [.link, .mem] ⊆ A := by first | exact StatePart.sub (by assumption) (by decide) | decide) : Out.Frame A s (execRdreg fl tag line s) := by
  unfold execRdreg
  repeat' first | with_reducible assumption | with_reducible exact State.Frame.refl _ _ | fail_if_no_progress extract_lets | exact StatePart.sub ha (by decide) | with_reducible apply message_frame | with_reducible apply linkReadLine_frame | with_reducible apply takeFlit_frame | with_reducible refine next_frame ?_ | split | fail_if_no_progress ((with_reducible refine State.Frame.lit ?_ ?_ ?_ ?_ ?_ ?_ ?_ ?_ ?_ ?_ ?_ ?_ ?_ ?_ ?_ ?_ ?_ ?_ ?_ ?_ ?_ ?_ ?_ ?_ ?_ ?_ ?_ ?_ ?_) <;> first | with_reducible exact Or.inr rfl | exact Or.inl (ha (by decide)) | skip)

theorem storeMasked_frame {A : List StatePart} {s₀ : State} {s : State} (h : s₀.Frame A s) (a : Nat) (data : BitVec 512) (mask : U64) (ha : [.mem] ⊆ A := by first | exact StatePart.sub (by assumption) (by decide) | decide) : s₀.Frame A (storeMasked s a data mask) := by
  unfold storeMasked
  extract_lets x0
  repeat' first | with_reducible assumption | with_reducible exact State.Frame.refl _ _ | fail_if_no_progress extract_lets | with_reducible apply storeGranule_frame | exact StatePart.sub ha (by decide) | split | fail_if_no_progress ((with_reducible refine State.Frame.lit ?_ ?_ ?_ ?_ ?_ ?_ ?_ ?_ ?_ ?_ ?_ ?_ ?_ ?_ ?_ ?_ ?_ ?_ ?_ ?_ ?_ ?_ ?_ ?_ ?_ ?_ ?_ ?_ ?_) <;> first | with_reducible exact Or.inr rfl | exact Or.inl (ha (by decide)) | skip) | dsimp +zetaDelta only

theorem linkWriteMasked_frame {A : List StatePart} {s₀ : State} {s : State} (h : s₀.Frame A s) (tag : BitVec 11) (addr : Nat) (data : BitVec 512) (mask : U64) (ha : [.link, .mem, .dict] ⊆ A := by first | exact StatePart.sub (by assumption) (by decide) | decide) : s₀.Frame A (linkWriteMasked s tag addr data mask) := by
  unfold linkWriteMasked
  repeat' first | with_reducible assumption | with_reducible exact State.Frame.refl _ _ | fail_if_no_progress extract_lets | with_reducible apply mirrorWrite_frame | with_reducible apply respond_frame | with_reducible apply windowAccess_frame | with_reducible apply storeMasked_frame | with_reducible refine fst_frame (by assumption) ?_ | with_reducible refine snd_frame (by assumption) ?_ | exact StatePart.sub ha (by decide) | with_reducible refine ite_frame ?_ ?_ | split | fail_if_no_progress ((with_reducible refine State.Frame.lit ?_ ?_ ?_ ?_ ?_ ?_ ?_ ?_ ?_ ?_ ?_ ?_ ?_ ?_ ?_ ?_ ?_ ?_ ?_ ?_ ?_ ?_ ?_ ?_ ?_ ?_ ?_ ?_ ?_) <;> first | with_reducible exact Or.inr rfl | exact Or.inl (ha (by decide)) | skip) | dsimp +zetaDelta only

theorem execWr_frame {A : List StatePart} (s : State) (fl : Flit) (tag : BitVec 11) (line : BitVec 46) (data : BitVec 512) (ha : [.link, .mem, .dict] ⊆ A := by first | exact StatePart.sub (by assumption) (by decide) | decide) : Out.Frame A s (execWr fl tag line data s) := by
  unfold execWr
  repeat' first | with_reducible assumption | with_reducible exact State.Frame.refl _ _ | with_reducible apply message_frame | with_reducible apply linkWriteMasked_frame | with_reducible apply takeFlit_frame | with_reducible refine next_frame ?_ | exact StatePart.sub ha (by decide) | split | fail_if_no_progress ((with_reducible refine State.Frame.lit ?_ ?_ ?_ ?_ ?_ ?_ ?_ ?_ ?_ ?_ ?_ ?_ ?_ ?_ ?_ ?_ ?_ ?_ ?_ ?_ ?_ ?_ ?_ ?_ ?_ ?_ ?_ ?_ ?_) <;> first | with_reducible exact Or.inr rfl | exact Or.inl (ha (by decide)) | skip)

theorem execWrp_frame {A : List StatePart} (s : State) (fl : Flit) (tag : BitVec 11) (line : BitVec 46) (data : BitVec 512) (mask : BitVec 64) (ha : [.link, .mem, .dict] ⊆ A := by first | exact StatePart.sub (by assumption) (by decide) | decide) : Out.Frame A s (execWrp fl tag line data mask s) := by
  unfold execWrp
  repeat' first | with_reducible assumption | with_reducible exact State.Frame.refl _ _ | with_reducible apply message_frame | with_reducible apply linkWriteMasked_frame | with_reducible apply takeFlit_frame | with_reducible refine next_frame ?_ | exact StatePart.sub ha (by decide) | split | fail_if_no_progress ((with_reducible refine State.Frame.lit ?_ ?_ ?_ ?_ ?_ ?_ ?_ ?_ ?_ ?_ ?_ ?_ ?_ ?_ ?_ ?_ ?_ ?_ ?_ ?_ ?_ ?_ ?_ ?_ ?_ ?_ ?_ ?_ ?_) <;> first | with_reducible exact Or.inr rfl | exact Or.inl (ha (by decide)) | skip)

theorem atomicAt_frame {A : List StatePart} {s₀ : State} {s : State} (h : s₀.Frame A s) (a : Nat) (k : AtKind) (x : Nat) (y : Nat) (ha : [.mem] ⊆ A := by first | exact StatePart.sub (by assumption) (by decide) | decide) : s₀.Frame A (atomicAt s a k x y).1 := by
  unfold atomicAt
  extract_lets x0 x1 x2 x3 x4
  have h1 : s₀.Frame A x1 := by
    unfold x1
    repeat' first | with_reducible assumption | with_reducible exact State.Frame.refl _ _ | fail_if_no_progress extract_lets | with_reducible apply storeBytes_frame | with_reducible apply touch_frame | exact StatePart.sub ha (by decide) | split | fail_if_no_progress ((with_reducible refine State.Frame.lit ?_ ?_ ?_ ?_ ?_ ?_ ?_ ?_ ?_ ?_ ?_ ?_ ?_ ?_ ?_ ?_ ?_ ?_ ?_ ?_ ?_ ?_ ?_ ?_ ?_ ?_ ?_ ?_ ?_) <;> first | with_reducible exact Or.inr rfl | exact Or.inl (ha (by decide)) | skip) | dsimp +zetaDelta only
  clear_value x1
  repeat' first | with_reducible assumption | with_reducible exact State.Frame.refl _ _ | fail_if_no_progress extract_lets | with_reducible apply storeBytes_frame | with_reducible apply touch_frame | exact StatePart.sub ha (by decide) | split | fail_if_no_progress ((with_reducible refine State.Frame.lit ?_ ?_ ?_ ?_ ?_ ?_ ?_ ?_ ?_ ?_ ?_ ?_ ?_ ?_ ?_ ?_ ?_ ?_ ?_ ?_ ?_ ?_ ?_ ?_ ?_ ?_ ?_ ?_ ?_) <;> first | with_reducible exact Or.inr rfl | exact Or.inl (ha (by decide)) | skip) | dsimp +zetaDelta only

theorem linkAtomic_frame {A : List StatePart} {s₀ : State} {s : State} (h : s₀.Frame A s) (tag : BitVec 11) (addr : Nat) (op : AtomicOp) (x : Nat) (y : Nat) (ha : [.link, .mem] ⊆ A := by first | exact StatePart.sub (by assumption) (by decide) | decide) : s₀.Frame A (linkAtomic s tag addr op x y) := by
  unfold linkAtomic
  extract_lets x0
  repeat' first | with_reducible assumption | with_reducible exact State.Frame.refl _ _ | fail_if_no_progress extract_lets | with_reducible apply respondRead_frame | with_reducible apply respond_frame | with_reducible apply windowAccess_frame | with_reducible apply atomicAt_frame | with_reducible refine fst_frame (by assumption) ?_ | with_reducible refine snd_frame (by assumption) ?_ | exact StatePart.sub ha (by decide) | with_reducible refine ite_frame ?_ ?_ | split | fail_if_no_progress ((with_reducible refine State.Frame.lit ?_ ?_ ?_ ?_ ?_ ?_ ?_ ?_ ?_ ?_ ?_ ?_ ?_ ?_ ?_ ?_ ?_ ?_ ?_ ?_ ?_ ?_ ?_ ?_ ?_ ?_ ?_ ?_ ?_) <;> first | with_reducible exact Or.inr rfl | exact Or.inl (ha (by decide)) | skip) | dsimp +zetaDelta only

theorem execAt_frame {A : List StatePart} (s : State) (fl : Flit) (tag : BitVec 11) (addr : BitVec 52) (op : AtomicOp) (a : BitVec 64) (b : BitVec 64) (ha : [.link, .mem] ⊆ A := by first | exact StatePart.sub (by assumption) (by decide) | decide) : Out.Frame A s (execAt fl tag addr op a b s) := by
  unfold execAt
  repeat' first | with_reducible assumption | with_reducible exact State.Frame.refl _ _ | with_reducible apply message_frame | with_reducible apply linkAtomic_frame | with_reducible apply takeFlit_frame | with_reducible refine next_frame ?_ | exact StatePart.sub ha (by decide) | split | fail_if_no_progress ((with_reducible refine State.Frame.lit ?_ ?_ ?_ ?_ ?_ ?_ ?_ ?_ ?_ ?_ ?_ ?_ ?_ ?_ ?_ ?_ ?_ ?_ ?_ ?_ ?_ ?_ ?_ ?_ ?_ ?_ ?_ ?_ ?_) <;> first | with_reducible exact Or.inr rfl | exact Or.inl (ha (by decide)) | skip)

theorem gotLine_frame {A : List StatePart} {s₀ : State} {s : State} (h : s₀.Frame A s) (tag : BitVec 11) (ok : Bool) (data : Line) (ha : [.rings, .link] ⊆ A := by first | exact StatePart.sub (by assumption) (by decide) | decide) : s₀.Frame A (gotLine s tag ok data) := by
  unfold gotLine
  repeat' first | with_reducible assumption | with_reducible exact State.Frame.refl _ _ | fail_if_no_progress extract_lets | with_reducible apply updRing_frame | with_reducible apply entryHalf_frame | exact StatePart.sub ha (by decide) | with_reducible refine ite_frame ?_ ?_ | split | fail_if_no_progress ((with_reducible refine State.Frame.lit ?_ ?_ ?_ ?_ ?_ ?_ ?_ ?_ ?_ ?_ ?_ ?_ ?_ ?_ ?_ ?_ ?_ ?_ ?_ ?_ ?_ ?_ ?_ ?_ ?_ ?_ ?_ ?_ ?_) <;> first | with_reducible exact Or.inr rfl | exact Or.inl (ha (by decide)) | skip) | dsimp +zetaDelta only

theorem execRspd_frame {A : List StatePart} (s : State) (fl : Flit) (tag : BitVec 11) (status : BitVec 4) (data : BitVec 512) (ha : [.rings, .link] ⊆ A := by first | exact StatePart.sub (by assumption) (by decide) | decide) : Out.Frame A s (execRspd fl tag status data s) := by
  unfold execRspd
  repeat' first | with_reducible assumption | with_reducible exact State.Frame.refl _ _ | with_reducible apply message_frame | with_reducible apply gotLine_frame | with_reducible apply takeFlit_frame | with_reducible refine next_frame ?_ | exact StatePart.sub ha (by decide) | split | fail_if_no_progress ((with_reducible refine State.Frame.lit ?_ ?_ ?_ ?_ ?_ ?_ ?_ ?_ ?_ ?_ ?_ ?_ ?_ ?_ ?_ ?_ ?_ ?_ ?_ ?_ ?_ ?_ ?_ ?_ ?_ ?_ ?_ ?_ ?_) <;> first | with_reducible exact Or.inr rfl | exact Or.inl (ha (by decide)) | skip)

theorem execRsp_frame {A : List StatePart} (s : State) (fl : Flit) (tag : BitVec 11) (_status : BitVec 4) (ha : [.rings, .link] ⊆ A := by first | exact StatePart.sub (by assumption) (by decide) | decide) : Out.Frame A s (execRsp fl tag _status s) := by
  unfold execRsp
  repeat' first | with_reducible assumption | with_reducible exact State.Frame.refl _ _ | with_reducible apply message_frame | with_reducible apply gotLine_frame | with_reducible apply takeFlit_frame | with_reducible refine next_frame ?_ | exact StatePart.sub ha (by decide) | split | fail_if_no_progress ((with_reducible refine State.Frame.lit ?_ ?_ ?_ ?_ ?_ ?_ ?_ ?_ ?_ ?_ ?_ ?_ ?_ ?_ ?_ ?_ ?_ ?_ ?_ ?_ ?_ ?_ ?_ ?_ ?_ ?_ ?_ ?_ ?_) <;> first | with_reducible exact Or.inr rfl | exact Or.inl (ha (by decide)) | skip)

theorem execSnpinv_frame {A : List StatePart} (s : State) (fl : Flit) (tag : BitVec 11) (line : BitVec 46) (ha : [.rings, .link] ⊆ A := by first | exact StatePart.sub (by assumption) (by decide) | decide) : Out.Frame A s (execSnpinv fl tag line s) := by
  unfold execSnpinv
  repeat' first | with_reducible assumption | with_reducible exact State.Frame.refl _ _ | fail_if_no_progress extract_lets | with_reducible apply updRing_frame | with_reducible apply readTail_frame | with_reducible apply message_frame | with_reducible apply respond_frame | with_reducible refine each_frame (fun _ _ => ?_) ?_ | with_reducible apply takeFlit_frame | with_reducible refine next_frame ?_ | exact StatePart.sub ha (by decide) | split | fail_if_no_progress ((with_reducible refine State.Frame.lit ?_ ?_ ?_ ?_ ?_ ?_ ?_ ?_ ?_ ?_ ?_ ?_ ?_ ?_ ?_ ?_ ?_ ?_ ?_ ?_ ?_ ?_ ?_ ?_ ?_ ?_ ?_ ?_ ?_) <;> first | with_reducible exact Or.inr rfl | exact Or.inl (ha (by decide)) | skip) | dsimp +zetaDelta only

theorem execSnprd_frame {A : List StatePart} (s : State) (fl : Flit) (tag : BitVec 11) (line : BitVec 46) (ha : [.link] ⊆ A := by first | exact StatePart.sub (by assumption) (by decide) | decide) : Out.Frame A s (execSnprd fl tag line s) := by
  unfold execSnprd
  repeat' first | with_reducible assumption | with_reducible exact State.Frame.refl _ _ | fail_if_no_progress extract_lets | with_reducible apply message_frame | with_reducible apply respondRead_frame | with_reducible apply respond_frame | with_reducible apply takeFlit_frame | with_reducible refine next_frame ?_ | exact StatePart.sub ha (by decide) | split | fail_if_no_progress ((with_reducible refine State.Frame.lit ?_ ?_ ?_ ?_ ?_ ?_ ?_ ?_ ?_ ?_ ?_ ?_ ?_ ?_ ?_ ?_ ?_ ?_ ?_ ?_ ?_ ?_ ?_ ?_ ?_ ?_ ?_ ?_ ?_) <;> first | with_reducible exact Or.inr rfl | exact Or.inl (ha (by decide)) | skip)

theorem execLinkReset_frame {A : List StatePart} (s : State) (gen : BitVec 2) (ha : [.rings, .link] ⊆ A := by first | exact StatePart.sub (by assumption) (by decide) | decide) : Out.Frame A s (execLinkReset gen s) := by
  unfold execLinkReset
  repeat' first | with_reducible assumption | with_reducible exact State.Frame.refl _ _ | fail_if_no_progress extract_lets | with_reducible apply updRing_frame | with_reducible apply readTail_frame | with_reducible apply readNotify_frame | with_reducible apply refetch_frame | with_reducible refine each_frame (fun _ _ => ?_) ?_ | with_reducible refine act_frame ?_ | with_reducible refine next_frame ?_ | exact StatePart.sub ha (by decide) | with_reducible refine ite_frame ?_ ?_ | split | fail_if_no_progress ((with_reducible refine State.Frame.lit ?_ ?_ ?_ ?_ ?_ ?_ ?_ ?_ ?_ ?_ ?_ ?_ ?_ ?_ ?_ ?_ ?_ ?_ ?_ ?_ ?_ ?_ ?_ ?_ ?_ ?_ ?_ ?_ ?_) <;> first | with_reducible exact Or.inr rfl | exact Or.inl (ha (by decide)) | skip) | dsimp +zetaDelta only

/-! ### Rings -/

theorem execTail_frame {A : List StatePart} (s : State) (ring : BitVec 6) (ha : [.rings, .link, .mem, .can, .psched, .free, .log] ⊆ A := by first | exact StatePart.sub (by assumption) (by decide) | decide) : Out.Frame A s (execTail ring s) := by
  unfold execTail
  repeat' first | with_reducible assumption | with_reducible exact State.Frame.refl _ _ | fail_if_no_progress extract_lets | with_reducible apply updRing_frame | with_reducible apply settleOverrun_frame | with_reducible apply fetchMore_frame | with_reducible apply runOrIdle_frame | with_reducible refine act_frame ?_ | with_reducible refine next_frame ?_ | exact StatePart.sub ha (by decide) | with_reducible refine ite_frame ?_ ?_ | split | fail_if_no_progress ((with_reducible refine State.Frame.lit ?_ ?_ ?_ ?_ ?_ ?_ ?_ ?_ ?_ ?_ ?_ ?_ ?_ ?_ ?_ ?_ ?_ ?_ ?_ ?_ ?_ ?_ ?_ ?_ ?_ ?_ ?_ ?_ ?_) <;> first | with_reducible exact Or.inr rfl | exact Or.inl (ha (by decide)) | skip) | dsimp +zetaDelta only

theorem showOwn_frame {A : List StatePart} {s₀ : State} {s : State} (h : s₀.Frame A s) (n : Nat) (ha : [.rings] ⊆ A := by first | exact StatePart.sub (by assumption) (by decide) | decide) : s₀.Frame A (showOwn s n) := by
  unfold showOwn
  repeat' first | with_reducible assumption | with_reducible exact State.Frame.refl _ _ | fail_if_no_progress extract_lets | with_reducible apply updRing_frame | exact StatePart.sub ha (by decide) | split | fail_if_no_progress ((with_reducible refine State.Frame.lit ?_ ?_ ?_ ?_ ?_ ?_ ?_ ?_ ?_ ?_ ?_ ?_ ?_ ?_ ?_ ?_ ?_ ?_ ?_ ?_ ?_ ?_ ?_ ?_ ?_ ?_ ?_ ?_ ?_) <;> first | with_reducible exact Or.inr rfl | exact Or.inl (ha (by decide)) | skip)

theorem execResetgen_frame {A : List StatePart} (s : State) (ring : BitVec 6) (ha : [.rings, .rooms, .link, .mem, .can, .psched, .free, .log, .events] ⊆ A := by first | exact StatePart.sub (by assumption) (by decide) | decide) : Out.Frame A s (execResetgen ring s) := by
  unfold execResetgen
  repeat' first | with_reducible assumption | with_reducible exact State.Frame.refl _ _ | fail_if_no_progress extract_lets | with_reducible apply updRing_frame | with_reducible apply ringReset_frame | with_reducible apply showOwn_frame | with_reducible refine act_frame ?_ | with_reducible refine next_frame ?_ | exact StatePart.sub ha (by decide) | split | fail_if_no_progress ((with_reducible refine State.Frame.lit ?_ ?_ ?_ ?_ ?_ ?_ ?_ ?_ ?_ ?_ ?_ ?_ ?_ ?_ ?_ ?_ ?_ ?_ ?_ ?_ ?_ ?_ ?_ ?_ ?_ ?_ ?_ ?_ ?_) <;> first | with_reducible exact Or.inr rfl | exact Or.inl (ha (by decide)) | skip) | dsimp +zetaDelta only

theorem execStopgen_frame {A : List StatePart} (s : State) (ring : BitVec 6) (ha : [.rings] ⊆ A := by first | exact StatePart.sub (by assumption) (by decide) | decide) : Out.Frame A s (execStopgen ring s) := by
  unfold execStopgen
  repeat' first | with_reducible assumption | with_reducible exact State.Frame.refl _ _ | fail_if_no_progress extract_lets | with_reducible apply updRing_frame | with_reducible apply stopRing_frame | with_reducible refine act_frame ?_ | with_reducible refine next_frame ?_ | exact StatePart.sub ha (by decide) | split | fail_if_no_progress ((with_reducible refine State.Frame.lit ?_ ?_ ?_ ?_ ?_ ?_ ?_ ?_ ?_ ?_ ?_ ?_ ?_ ?_ ?_ ?_ ?_ ?_ ?_ ?_ ?_ ?_ ?_ ?_ ?_ ?_ ?_ ?_ ?_) <;> first | with_reducible exact Or.inr rfl | exact Or.inl (ha (by decide)) | skip) | dsimp +zetaDelta only

theorem execResumegen_frame {A : List StatePart} (s : State) (ring : BitVec 6) (ha : [.rings] ⊆ A := by first | exact StatePart.sub (by assumption) (by decide) | decide) : Out.Frame A s (execResumegen ring s) := by
  unfold execResumegen
  repeat' first | with_reducible assumption | with_reducible exact State.Frame.refl _ _ | fail_if_no_progress extract_lets | with_reducible apply updRing_frame | with_reducible apply runOrIdle_frame | with_reducible refine act_frame ?_ | with_reducible refine next_frame ?_ | exact StatePart.sub ha (by decide) | with_reducible refine ite_frame ?_ ?_ | split | fail_if_no_progress ((with_reducible refine State.Frame.lit ?_ ?_ ?_ ?_ ?_ ?_ ?_ ?_ ?_ ?_ ?_ ?_ ?_ ?_ ?_ ?_ ?_ ?_ ?_ ?_ ?_ ?_ ?_ ?_ ?_ ?_ ?_ ?_ ?_) <;> first | with_reducible exact Or.inr rfl | exact Or.inl (ha (by decide)) | skip) | dsimp +zetaDelta only

theorem execNotifyUpdate_frame {A : List StatePart} (s : State) (ring : BitVec 6) (ha : [.rings] ⊆ A := by first | exact StatePart.sub (by assumption) (by decide) | decide) : Out.Frame A s (execNotifyUpdate ring s) := by
  unfold execNotifyUpdate
  repeat' first | with_reducible assumption | with_reducible exact State.Frame.refl _ _ | fail_if_no_progress extract_lets | with_reducible apply updRing_frame | with_reducible refine act_frame ?_ | with_reducible refine next_frame ?_ | exact StatePart.sub ha (by decide) | split | fail_if_no_progress ((with_reducible refine State.Frame.lit ?_ ?_ ?_ ?_ ?_ ?_ ?_ ?_ ?_ ?_ ?_ ?_ ?_ ?_ ?_ ?_ ?_ ?_ ?_ ?_ ?_ ?_ ?_ ?_ ?_ ?_ ?_ ?_ ?_) <;> first | with_reducible exact Or.inr rfl | exact Or.inl (ha (by decide)) | skip) | dsimp +zetaDelta only

/-! ### Tap -/

theorem takeBalls_frame {A : List StatePart} {s₀ : State} {s : State} (h : s₀.Frame A s)  (ha : [.rings, .rooms, .psec, .link, .tap, .mem, .can, .psched, .free, .ports, .log, .events, .ppeer] ⊆ A := by first | exact StatePart.sub (by assumption) (by decide) | decide) : s₀.Frame A (takeBalls s) := by
  unfold takeBalls
  repeat' first | with_reducible assumption | with_reducible exact State.Frame.refl _ _ | fail_if_no_progress extract_lets | with_reducible apply logEvent_frame | with_reducible apply partReset_frame | with_reducible refine each_frame (fun _ _ => ?_) ?_ | exact StatePart.sub ha (by decide) | with_reducible refine ite_frame ?_ ?_ | split | fail_if_no_progress ((with_reducible refine State.Frame.lit ?_ ?_ ?_ ?_ ?_ ?_ ?_ ?_ ?_ ?_ ?_ ?_ ?_ ?_ ?_ ?_ ?_ ?_ ?_ ?_ ?_ ?_ ?_ ?_ ?_ ?_ ?_ ?_ ?_) <;> first | with_reducible exact Or.inr rfl | exact Or.inl (ha (by decide)) | skip) | dsimp +zetaDelta only

theorem endScan_frame {A : List StatePart} {s₀ : State} {s : State} (h : s₀.Frame A s)  (ha : [.rooms, .tap] ⊆ A := by first | exact StatePart.sub (by assumption) (by decide) | decide) : s₀.Frame A (endScan s) := by
  unfold endScan
  repeat' first | with_reducible assumption | with_reducible exact State.Frame.refl _ _ | fail_if_no_progress extract_lets | with_reducible apply roomReset_frame | with_reducible refine each_frame (fun _ _ => ?_) ?_ | exact StatePart.sub ha (by decide) | split | fail_if_no_progress ((with_reducible refine State.Frame.lit ?_ ?_ ?_ ?_ ?_ ?_ ?_ ?_ ?_ ?_ ?_ ?_ ?_ ?_ ?_ ?_ ?_ ?_ ?_ ?_ ?_ ?_ ?_ ?_ ?_ ?_ ?_ ?_ ?_) <;> first | with_reducible exact Or.inr rfl | exact Or.inl (ha (by decide)) | skip) | dsimp +zetaDelta only

theorem loadIr_frame {A : List StatePart} {s₀ : State} {s : State} (h : s₀.Frame A s) (code : Byte) (ha : [.rings, .rooms, .psec, .link, .tap, .mem, .can, .psched, .free, .ports, .log, .events, .ppeer] ⊆ A := by first | exact StatePart.sub (by assumption) (by decide) | decide) : s₀.Frame A (loadIr s code) := by
  unfold loadIr
  repeat' first | with_reducible assumption | with_reducible exact State.Frame.refl _ _ | fail_if_no_progress extract_lets | with_reducible apply testPortRule_frame | with_reducible apply takeBalls_frame | with_reducible apply endScan_frame | exact StatePart.sub ha (by decide) | with_reducible refine ite_frame ?_ ?_ | split | fail_if_no_progress ((with_reducible refine State.Frame.lit ?_ ?_ ?_ ?_ ?_ ?_ ?_ ?_ ?_ ?_ ?_ ?_ ?_ ?_ ?_ ?_ ?_ ?_ ?_ ?_ ?_ ?_ ?_ ?_ ?_ ?_ ?_ ?_ ?_) <;> first | with_reducible exact Or.inr rfl | exact Or.inl (ha (by decide)) | skip) | dsimp +zetaDelta only

theorem execExtest_frame {A : List StatePart} (s : State)  (ha : [.rings, .rooms, .psec, .link, .tap, .mem, .can, .psched, .free, .ports, .log, .events, .ppeer] ⊆ A := by first | exact StatePart.sub (by assumption) (by decide) | decide) : Out.Frame A s (execExtest s) := by
  unfold execExtest
  repeat' first | with_reducible assumption | with_reducible exact State.Frame.refl _ _ | with_reducible apply loadIr_frame | with_reducible refine act_frame ?_ | with_reducible refine next_frame ?_ | exact StatePart.sub ha (by decide) | split | fail_if_no_progress ((with_reducible refine State.Frame.lit ?_ ?_ ?_ ?_ ?_ ?_ ?_ ?_ ?_ ?_ ?_ ?_ ?_ ?_ ?_ ?_ ?_ ?_ ?_ ?_ ?_ ?_ ?_ ?_ ?_ ?_ ?_ ?_ ?_) <;> first | with_reducible exact Or.inr rfl | exact Or.inl (ha (by decide)) | skip)

theorem execSample_frame {A : List StatePart} (s : State)  (ha : [.rings, .rooms, .psec, .link, .tap, .mem, .can, .psched, .free, .ports, .log, .events, .ppeer] ⊆ A := by first | exact StatePart.sub (by assumption) (by decide) | decide) : Out.Frame A s (execSample s) := by
  unfold execSample
  repeat' first | with_reducible assumption | with_reducible exact State.Frame.refl _ _ | fail_if_no_progress extract_lets | with_reducible apply takeFree_frame | with_reducible apply loadIr_frame | with_reducible refine fst_frame (by assumption) ?_ | with_reducible refine snd_frame (by assumption) ?_ | with_reducible refine act_frame ?_ | with_reducible refine next_frame ?_ | exact StatePart.sub ha (by decide) | split | fail_if_no_progress ((with_reducible refine State.Frame.lit ?_ ?_ ?_ ?_ ?_ ?_ ?_ ?_ ?_ ?_ ?_ ?_ ?_ ?_ ?_ ?_ ?_ ?_ ?_ ?_ ?_ ?_ ?_ ?_ ?_ ?_ ?_ ?_ ?_) <;> first | with_reducible exact Or.inr rfl | exact Or.inl (ha (by decide)) | skip) | dsimp +zetaDelta only

theorem execPreload_frame {A : List StatePart} (s : State) (cells : BitVec 222) (ha : [.rings, .rooms, .psec, .link, .tap, .mem, .can, .psched, .free, .ports, .log, .events, .ppeer] ⊆ A := by first | exact StatePart.sub (by assumption) (by decide) | decide) : Out.Frame A s (execPreload cells s) := by
  unfold execPreload
  repeat' first | with_reducible assumption | with_reducible exact State.Frame.refl _ _ | fail_if_no_progress extract_lets | with_reducible apply loadIr_frame | with_reducible refine act_frame ?_ | with_reducible refine next_frame ?_ | exact StatePart.sub ha (by decide) | split | fail_if_no_progress ((with_reducible refine State.Frame.lit ?_ ?_ ?_ ?_ ?_ ?_ ?_ ?_ ?_ ?_ ?_ ?_ ?_ ?_ ?_ ?_ ?_ ?_ ?_ ?_ ?_ ?_ ?_ ?_ ?_ ?_ ?_ ?_ ?_) <;> first | with_reducible exact Or.inr rfl | exact Or.inl (ha (by decide)) | skip) | dsimp +zetaDelta only

theorem execIdcode_frame {A : List StatePart} (s : State)  (ha : [.rings, .rooms, .psec, .link, .tap, .mem, .can, .psched, .free, .ports, .log, .events, .ppeer] ⊆ A := by first | exact StatePart.sub (by assumption) (by decide) | decide) : Out.Frame A s (execIdcode s) := by
  unfold execIdcode
  repeat' first | with_reducible assumption | with_reducible exact State.Frame.refl _ _ | fail_if_no_progress extract_lets | with_reducible apply loadIr_frame | with_reducible refine act_frame ?_ | with_reducible refine next_frame ?_ | exact StatePart.sub ha (by decide) | split | fail_if_no_progress ((with_reducible refine State.Frame.lit ?_ ?_ ?_ ?_ ?_ ?_ ?_ ?_ ?_ ?_ ?_ ?_ ?_ ?_ ?_ ?_ ?_ ?_ ?_ ?_ ?_ ?_ ?_ ?_ ?_ ?_ ?_ ?_ ?_) <;> first | with_reducible exact Or.inr rfl | exact Or.inl (ha (by decide)) | skip) | dsimp +zetaDelta only

theorem execClamp_frame {A : List StatePart} (s : State)  (ha : [.rings, .rooms, .psec, .link, .tap, .mem, .can, .psched, .free, .ports, .log, .events, .ppeer] ⊆ A := by first | exact StatePart.sub (by assumption) (by decide) | decide) : Out.Frame A s (execClamp s) := by
  unfold execClamp
  repeat' first | with_reducible assumption | with_reducible exact State.Frame.refl _ _ | with_reducible apply loadIr_frame | with_reducible refine act_frame ?_ | with_reducible refine next_frame ?_ | exact StatePart.sub ha (by decide) | split | fail_if_no_progress ((with_reducible refine State.Frame.lit ?_ ?_ ?_ ?_ ?_ ?_ ?_ ?_ ?_ ?_ ?_ ?_ ?_ ?_ ?_ ?_ ?_ ?_ ?_ ?_ ?_ ?_ ?_ ?_ ?_ ?_ ?_ ?_ ?_) <;> first | with_reducible exact Or.inr rfl | exact Or.inl (ha (by decide)) | skip)

theorem execHighz_frame {A : List StatePart} (s : State)  (ha : [.rings, .rooms, .psec, .link, .tap, .mem, .can, .psched, .free, .ports, .log, .events, .ppeer] ⊆ A := by first | exact StatePart.sub (by assumption) (by decide) | decide) : Out.Frame A s (execHighz s) := by
  unfold execHighz
  repeat' first | with_reducible assumption | with_reducible exact State.Frame.refl _ _ | with_reducible apply loadIr_frame | with_reducible refine act_frame ?_ | with_reducible refine next_frame ?_ | exact StatePart.sub ha (by decide) | split | fail_if_no_progress ((with_reducible refine State.Frame.lit ?_ ?_ ?_ ?_ ?_ ?_ ?_ ?_ ?_ ?_ ?_ ?_ ?_ ?_ ?_ ?_ ?_ ?_ ?_ ?_ ?_ ?_ ?_ ?_ ?_ ?_ ?_ ?_ ?_) <;> first | with_reducible exact Or.inr rfl | exact Or.inl (ha (by decide)) | skip)

theorem execExtestPulse_frame {A : List StatePart} (s : State)  (ha : [.rings, .rooms, .psec, .link, .tap, .mem, .can, .psched, .free, .ports, .log, .events, .ppeer] ⊆ A := by first | exact StatePart.sub (by assumption) (by decide) | decide) : Out.Frame A s (execExtestPulse s) := by
  unfold execExtestPulse
  repeat' first | with_reducible assumption | with_reducible exact State.Frame.refl _ _ | with_reducible apply loadIr_frame | with_reducible refine act_frame ?_ | with_reducible refine next_frame ?_ | exact StatePart.sub ha (by decide) | split | fail_if_no_progress ((with_reducible refine State.Frame.lit ?_ ?_ ?_ ?_ ?_ ?_ ?_ ?_ ?_ ?_ ?_ ?_ ?_ ?_ ?_ ?_ ?_ ?_ ?_ ?_ ?_ ?_ ?_ ?_ ?_ ?_ ?_ ?_ ?_) <;> first | with_reducible exact Or.inr rfl | exact Or.inl (ha (by decide)) | skip)

theorem execExtestTrain_frame {A : List StatePart} (s : State)  (ha : [.rings, .rooms, .psec, .link, .tap, .mem, .can, .psched, .free, .ports, .log, .events, .ppeer] ⊆ A := by first | exact StatePart.sub (by assumption) (by decide) | decide) : Out.Frame A s (execExtestTrain s) := by
  unfold execExtestTrain
  repeat' first | with_reducible assumption | with_reducible exact State.Frame.refl _ _ | with_reducible apply loadIr_frame | with_reducible refine act_frame ?_ | with_reducible refine next_frame ?_ | exact StatePart.sub ha (by decide) | split | fail_if_no_progress ((with_reducible refine State.Frame.lit ?_ ?_ ?_ ?_ ?_ ?_ ?_ ?_ ?_ ?_ ?_ ?_ ?_ ?_ ?_ ?_ ?_ ?_ ?_ ?_ ?_ ?_ ?_ ?_ ?_ ?_ ?_ ?_ ?_) <;> first | with_reducible exact Or.inr rfl | exact Or.inl (ha (by decide)) | skip)

theorem execBypass_frame {A : List StatePart} (s : State)  (ha : [.rings, .rooms, .psec, .link, .tap, .mem, .can, .psched, .free, .ports, .log, .events, .ppeer] ⊆ A := by first | exact StatePart.sub (by assumption) (by decide) | decide) : Out.Frame A s (execBypass s) := by
  unfold execBypass
  repeat' first | with_reducible assumption | with_reducible exact State.Frame.refl _ _ | with_reducible apply loadIr_frame | with_reducible refine act_frame ?_ | with_reducible refine next_frame ?_ | exact StatePart.sub ha (by decide) | split | fail_if_no_progress ((with_reducible refine State.Frame.lit ?_ ?_ ?_ ?_ ?_ ?_ ?_ ?_ ?_ ?_ ?_ ?_ ?_ ?_ ?_ ?_ ?_ ?_ ?_ ?_ ?_ ?_ ?_ ?_ ?_ ?_ ?_ ?_ ?_) <;> first | with_reducible exact Or.inr rfl | exact Or.inl (ha (by decide)) | skip)

theorem execUndefinedInstruction_frame {A : List StatePart} (s : State) (code : BitVec 8) (ha : [.rings, .rooms, .psec, .link, .tap, .mem, .can, .psched, .free, .ports, .log, .events, .ppeer] ⊆ A := by first | exact StatePart.sub (by assumption) (by decide) | decide) : Out.Frame A s (execUndefinedInstruction code s) := by
  unfold execUndefinedInstruction
  repeat' first | with_reducible assumption | with_reducible exact State.Frame.refl _ _ | with_reducible apply loadIr_frame | with_reducible refine act_frame ?_ | with_reducible refine next_frame ?_ | exact StatePart.sub ha (by decide) | split | fail_if_no_progress ((with_reducible refine State.Frame.lit ?_ ?_ ?_ ?_ ?_ ?_ ?_ ?_ ?_ ?_ ?_ ?_ ?_ ?_ ?_ ?_ ?_ ?_ ?_ ?_ ?_ ?_ ?_ ?_ ?_ ?_ ?_ ?_ ?_) <;> first | with_reducible exact Or.inr rfl | exact Or.inl (ha (by decide)) | skip)

theorem execTestLogicReset_frame {A : List StatePart} (s : State)  (ha : [.rings, .rooms, .psec, .link, .tap, .mem, .can, .psched, .free, .ports, .log, .events, .ppeer] ⊆ A := by first | exact StatePart.sub (by assumption) (by decide) | decide) : Out.Frame A s (execTestLogicReset s) := by
  unfold execTestLogicReset
  repeat' first | with_reducible assumption | with_reducible exact State.Frame.refl _ _ | with_reducible apply loadIr_frame | with_reducible refine act_frame ?_ | with_reducible refine next_frame ?_ | exact StatePart.sub ha (by decide) | split | fail_if_no_progress ((with_reducible refine State.Frame.lit ?_ ?_ ?_ ?_ ?_ ?_ ?_ ?_ ?_ ?_ ?_ ?_ ?_ ?_ ?_ ?_ ?_ ?_ ?_ ?_ ?_ ?_ ?_ ?_ ?_ ?_ ?_ ?_ ?_) <;> first | with_reducible exact Or.inr rfl | exact Or.inl (ha (by decide)) | skip)

theorem execDict_frame {A : List StatePart} (s : State) (dr : BitVec 384) (ha : [.rings, .rooms, .psec, .link, .tap, .mem, .can, .psched, .free, .ports, .log, .dict, .events, .ppeer] ⊆ A := by first | exact StatePart.sub (by assumption) (by decide) | decide) : Out.Frame A s (execDict dr s) := by
  unfold execDict
  repeat' first | with_reducible assumption | with_reducible exact State.Frame.refl _ _ | fail_if_no_progress extract_lets | with_reducible apply submitFrom_frame | with_reducible apply loadIr_frame | with_reducible refine act_frame ?_ | with_reducible refine next_frame ?_ | exact StatePart.sub ha (by decide) | with_reducible refine ite_frame ?_ ?_ | split | fail_if_no_progress ((with_reducible refine State.Frame.lit ?_ ?_ ?_ ?_ ?_ ?_ ?_ ?_ ?_ ?_ ?_ ?_ ?_ ?_ ?_ ?_ ?_ ?_ ?_ ?_ ?_ ?_ ?_ ?_ ?_ ?_ ?_ ?_ ?_) <;> first | with_reducible exact Or.inr rfl | exact Or.inl (ha (by decide)) | skip) | dsimp +zetaDelta only

theorem execDictbuf_frame {A : List StatePart} (s : State) (dr : BitVec 16384) (ha : [.rings, .rooms, .psec, .link, .tap, .mem, .can, .psched, .free, .ports, .log, .events, .ppeer] ⊆ A := by first | exact StatePart.sub (by assumption) (by decide) | decide) : Out.Frame A s (execDictbuf dr s) := by
  unfold execDictbuf
  repeat' first | with_reducible assumption | with_reducible exact State.Frame.refl _ _ | fail_if_no_progress extract_lets | with_reducible apply loadIr_frame | with_reducible refine act_frame ?_ | with_reducible refine next_frame ?_ | exact StatePart.sub ha (by decide) | split | fail_if_no_progress ((with_reducible refine State.Frame.lit ?_ ?_ ?_ ?_ ?_ ?_ ?_ ?_ ?_ ?_ ?_ ?_ ?_ ?_ ?_ ?_ ?_ ?_ ?_ ?_ ?_ ?_ ?_ ?_ ?_ ?_ ?_ ?_ ?_) <;> first | with_reducible exact Or.inr rfl | exact Or.inl (ha (by decide)) | skip) | dsimp +zetaDelta only

theorem execScanchain_frame {A : List StatePart} (s : State) (die : BitVec 3) (ha : [.rings, .rooms, .psec, .link, .tap, .mem, .can, .psched, .free, .ports, .log, .events, .ppeer] ⊆ A := by first | exact StatePart.sub (by assumption) (by decide) | decide) : Out.Frame A s (execScanchain die s) := by
  unfold execScanchain
  repeat' first | with_reducible assumption | with_reducible exact State.Frame.refl _ _ | fail_if_no_progress extract_lets | with_reducible apply loadIr_frame | with_reducible refine act_frame ?_ | with_reducible refine next_frame ?_ | exact StatePart.sub ha (by decide) | with_reducible refine ite_frame ?_ ?_ | split | fail_if_no_progress ((with_reducible refine State.Frame.lit ?_ ?_ ?_ ?_ ?_ ?_ ?_ ?_ ?_ ?_ ?_ ?_ ?_ ?_ ?_ ?_ ?_ ?_ ?_ ?_ ?_ ?_ ?_ ?_ ?_ ?_ ?_ ?_ ?_) <;> first | with_reducible exact Or.inr rfl | exact Or.inl (ha (by decide)) | skip) | dsimp +zetaDelta only

theorem marchMem_frame {A : List StatePart} {t s : State} (h : t.Frame A s) (m : DbgMem) (ha : [.rooms, .tap, .mem] ⊆ A := by first | exact StatePart.sub (by assumption) (by decide) | decide) : t.Frame A (marchMem s m) := by
  unfold marchMem
  repeat' first | with_reducible assumption | with_reducible apply updRoom_frame | with_reducible apply discardWhere_frame | with_reducible refine ite_frame ?_ ?_ | with_reducible refine setMem_frame ?_ ?_ | exact ha (by decide) | exact StatePart.sub ha (by decide) | with_reducible refine each_frame (fun _ _ => ?_) ?_ | with_reducible exact State.Frame.refl _ _ | split | fail_if_no_progress ((with_reducible refine State.Frame.lit ?_ ?_ ?_ ?_ ?_ ?_ ?_ ?_ ?_ ?_ ?_ ?_ ?_ ?_ ?_ ?_ ?_ ?_ ?_ ?_ ?_ ?_ ?_ ?_ ?_ ?_ ?_ ?_ ?_) <;> first | with_reducible exact Or.inr rfl | exact Or.inl (ha (by decide)) | skip)

theorem execMbist_frame {A : List StatePart} (s : State) (mem : DbgMem) (pass : Bool) (ha : [.rings, .rooms, .psec, .link, .tap, .mem, .can, .psched, .free, .ports, .log, .events, .ppeer] ⊆ A := by first | exact StatePart.sub (by assumption) (by decide) | decide) : Out.Frame A s (execMbist mem pass s) := by
  unfold execMbist
  repeat' first | with_reducible assumption | with_reducible exact State.Frame.refl _ _ | fail_if_no_progress extract_lets | with_reducible apply loadIr_frame | with_reducible apply marchMem_frame | with_reducible refine act_frame ?_ | with_reducible refine next_frame ?_ | exact StatePart.sub ha (by decide) | with_reducible refine ite_frame ?_ ?_ | split | fail_if_no_progress ((with_reducible refine State.Frame.lit ?_ ?_ ?_ ?_ ?_ ?_ ?_ ?_ ?_ ?_ ?_ ?_ ?_ ?_ ?_ ?_ ?_ ?_ ?_ ?_ ?_ ?_ ?_ ?_ ?_ ?_ ?_ ?_ ?_) <;> first | with_reducible exact Or.inr rfl | exact Or.inl (ha (by decide)) | skip) | dsimp +zetaDelta only

/-! ### Ports -/

theorem sendNow_frame {A : List StatePart} {s₀ : State} {s : State} (h : s₀.Frame A s) (j : Nat) (f : PeerFrame) (pool : Nat) (ha : [.ports] ⊆ A := by first | exact StatePart.sub (by assumption) (by decide) | decide) : s₀.Frame A (sendNow s j f pool) := by
  unfold sendNow
  repeat' first | with_reducible assumption | with_reducible exact State.Frame.refl _ _ | fail_if_no_progress extract_lets | with_reducible apply updPort_frame | exact StatePart.sub ha (by decide) | with_reducible refine ite_frame ?_ ?_ | split | fail_if_no_progress ((with_reducible refine State.Frame.lit ?_ ?_ ?_ ?_ ?_ ?_ ?_ ?_ ?_ ?_ ?_ ?_ ?_ ?_ ?_ ?_ ?_ ?_ ?_ ?_ ?_ ?_ ?_ ?_ ?_ ?_ ?_ ?_ ?_) <;> first | with_reducible exact Or.inr rfl | exact Or.inl (ha (by decide)) | skip) | dsimp +zetaDelta only

theorem sendLink_frame {A : List StatePart} {s₀ : State} {s : State} (h : s₀.Frame A s) (j : Nat) (nak : Bool) (ha : [.ports] ⊆ A := by first | exact StatePart.sub (by assumption) (by decide) | decide) : s₀.Frame A (sendLink s j nak) := by
  unfold sendLink
  repeat' first | with_reducible assumption | with_reducible exact State.Frame.refl _ _ | fail_if_no_progress extract_lets | with_reducible apply updPort_frame | exact StatePart.sub ha (by decide) | with_reducible refine ite_frame ?_ ?_ | split | fail_if_no_progress ((with_reducible refine State.Frame.lit ?_ ?_ ?_ ?_ ?_ ?_ ?_ ?_ ?_ ?_ ?_ ?_ ?_ ?_ ?_ ?_ ?_ ?_ ?_ ?_ ?_ ?_ ?_ ?_ ?_ ?_ ?_ ?_ ?_) <;> first | with_reducible exact Or.inr rfl | exact Or.inl (ha (by decide)) | skip) | dsimp +zetaDelta only

theorem failLane_frame {A : List StatePart} {s₀ : State} {s : State} (h : s₀.Frame A s) (j : Nat) (ha : [.ports, .svc, .can, .log, .free] ⊆ A := by first | exact StatePart.sub (by assumption) (by decide) | decide) : s₀.Frame A (failLane s j) := by
  unfold failLane
  extract_lets x0
  split
  · exact takeLane_frame (updPort_frame (takeFree_frame h (StatePart.sub ha (by decide))) _ _ (StatePart.sub ha (by decide))) _ (StatePart.sub ha (by decide))
  · exact h

theorem replayPort_frame {A : List StatePart} {s₀ : State} {s : State} (h : s₀.Frame A s) (j : Nat) (ha : [.ports, .svc, .can, .log, .free] ⊆ A := by first | exact StatePart.sub (by assumption) (by decide) | decide) : s₀.Frame A (replayPort s j) := by
  unfold replayPort
  exact failLane_frame (updPort_frame h _ _ (StatePart.sub ha (by decide))) _ ha

theorem countPort_frame {A : List StatePart} {s₀ : State} {s : State} (h : s₀.Frame A s) (j : Nat) (k : Nat) (ha : [.ports] ⊆ A := by first | exact StatePart.sub (by assumption) (by decide) | decide) : s₀.Frame A (countPort s j k) := by
  unfold countPort
  repeat' first | with_reducible assumption | with_reducible exact State.Frame.refl _ _ | fail_if_no_progress extract_lets | with_reducible apply updPort_frame | exact StatePart.sub ha (by decide) | split | fail_if_no_progress ((with_reducible refine State.Frame.lit ?_ ?_ ?_ ?_ ?_ ?_ ?_ ?_ ?_ ?_ ?_ ?_ ?_ ?_ ?_ ?_ ?_ ?_ ?_ ?_ ?_ ?_ ?_ ?_ ?_ ?_ ?_ ?_ ?_) <;> first | with_reducible exact Or.inr rfl | exact Or.inl (ha (by decide)) | skip)

theorem takeAck_frame {A : List StatePart} {s₀ : State} {s : State} (h : s₀.Frame A s) (j : Nat) (ack : U16) (ha : [.ports] ⊆ A := by first | exact StatePart.sub (by assumption) (by decide) | decide) : s₀.Frame A (takeAck s j ack) := by
  unfold takeAck
  repeat' first | with_reducible assumption | with_reducible exact State.Frame.refl _ _ | fail_if_no_progress extract_lets | with_reducible apply updPort_frame | exact StatePart.sub ha (by decide) | with_reducible refine ite_frame ?_ ?_ | split | fail_if_no_progress ((with_reducible refine State.Frame.lit ?_ ?_ ?_ ?_ ?_ ?_ ?_ ?_ ?_ ?_ ?_ ?_ ?_ ?_ ?_ ?_ ?_ ?_ ?_ ?_ ?_ ?_ ?_ ?_ ?_ ?_ ?_ ?_ ?_) <;> first | with_reducible exact Or.inr rfl | exact Or.inl (ha (by decide)) | skip) | dsimp +zetaDelta only

theorem sendNak_frame {A : List StatePart} {s₀ : State} {s : State} (h : s₀.Frame A s) (j : Nat) (ha : [.ports] ⊆ A := by first | exact StatePart.sub (by assumption) (by decide) | decide) : s₀.Frame A (sendNak s j) := by
  unfold sendNak
  repeat' first | with_reducible assumption | with_reducible exact State.Frame.refl _ _ | fail_if_no_progress extract_lets | with_reducible apply updPort_frame | with_reducible apply sendLink_frame | exact StatePart.sub ha (by decide) | with_reducible refine ite_frame ?_ ?_ | split | fail_if_no_progress ((with_reducible refine State.Frame.lit ?_ ?_ ?_ ?_ ?_ ?_ ?_ ?_ ?_ ?_ ?_ ?_ ?_ ?_ ?_ ?_ ?_ ?_ ?_ ?_ ?_ ?_ ?_ ?_ ?_ ?_ ?_ ?_ ?_) <;> first | with_reducible exact Or.inr rfl | exact Or.inl (ha (by decide)) | skip)

theorem acceptSeq_frame {A : List StatePart} {s₀ : State} {s : State} (h : s₀.Frame A s) (j : Nat) (ha : [.ports] ⊆ A := by first | exact StatePart.sub (by assumption) (by decide) | decide) : s₀.Frame A (acceptSeq s j) := by
  unfold acceptSeq
  extract_lets x0
  have h0 : s₀.Frame A x0 := by
    unfold x0
    repeat' first | with_reducible assumption | with_reducible exact State.Frame.refl _ _ | fail_if_no_progress extract_lets | with_reducible apply updPort_frame | with_reducible apply sendLink_frame | exact StatePart.sub ha (by decide) | with_reducible refine ite_frame ?_ ?_ | split | fail_if_no_progress ((with_reducible refine State.Frame.lit ?_ ?_ ?_ ?_ ?_ ?_ ?_ ?_ ?_ ?_ ?_ ?_ ?_ ?_ ?_ ?_ ?_ ?_ ?_ ?_ ?_ ?_ ?_ ?_ ?_ ?_ ?_ ?_ ?_) <;> first | with_reducible exact Or.inr rfl | exact Or.inl (ha (by decide)) | skip) | dsimp +zetaDelta only
  clear_value x0
  repeat' first | with_reducible assumption | with_reducible exact State.Frame.refl _ _ | fail_if_no_progress extract_lets | with_reducible apply updPort_frame | with_reducible apply sendLink_frame | exact StatePart.sub ha (by decide) | with_reducible refine ite_frame ?_ ?_ | split | fail_if_no_progress ((with_reducible refine State.Frame.lit ?_ ?_ ?_ ?_ ?_ ?_ ?_ ?_ ?_ ?_ ?_ ?_ ?_ ?_ ?_ ?_ ?_ ?_ ?_ ?_ ?_ ?_ ?_ ?_ ?_ ?_ ?_ ?_ ?_) <;> first | with_reducible exact Or.inr rfl | exact Or.inl (ha (by decide)) | skip) | dsimp +zetaDelta only

theorem linkLayer_frame {A : List StatePart} {s₀ : State} {s : State} (h : s₀.Frame A s) (j : Nat) (f : PeerFrame) (ha : [.ports, .svc, .can, .log, .free] ⊆ A := by first | exact StatePart.sub (by assumption) (by decide) | decide) : s₀.Frame A (linkLayer s j f).1 := by
  unfold linkLayer
  repeat' first | with_reducible assumption | with_reducible exact State.Frame.refl _ _ | fail_if_no_progress extract_lets | exact StatePart.sub ha (by decide) | with_reducible apply updPort_frame | with_reducible apply replayPort_frame | with_reducible apply countPort_frame | with_reducible apply takeAck_frame | with_reducible apply sendNak_frame | with_reducible apply acceptSeq_frame | with_reducible refine ite_frame ?_ ?_ | split | fail_if_no_progress ((with_reducible refine State.Frame.lit ?_ ?_ ?_ ?_ ?_ ?_ ?_ ?_ ?_ ?_ ?_ ?_ ?_ ?_ ?_ ?_ ?_ ?_ ?_ ?_ ?_ ?_ ?_ ?_ ?_ ?_ ?_ ?_ ?_) <;> first | with_reducible exact Or.inr rfl | exact Or.inl (ha (by decide)) | skip) | dsimp +zetaDelta only

theorem execReplayTimeout_frame {A : List StatePart} (s : State) (port : BitVec 4) (ha : [.ports, .svc, .can, .log, .free] ⊆ A := by first | exact StatePart.sub (by assumption) (by decide) | decide) : Out.Frame A s (execReplayTimeout port s) := by
  unfold execReplayTimeout
  repeat' first | with_reducible assumption | with_reducible exact State.Frame.refl _ _ | fail_if_no_progress extract_lets | exact StatePart.sub ha (by decide) | with_reducible apply replayPort_frame | with_reducible refine act_frame ?_ | with_reducible refine next_frame ?_ | split | fail_if_no_progress ((with_reducible refine State.Frame.lit ?_ ?_ ?_ ?_ ?_ ?_ ?_ ?_ ?_ ?_ ?_ ?_ ?_ ?_ ?_ ?_ ?_ ?_ ?_ ?_ ?_ ?_ ?_ ?_ ?_ ?_ ?_ ?_ ?_) <;> first | with_reducible exact Or.inr rfl | exact Or.inl (ha (by decide)) | skip) | dsimp +zetaDelta only

theorem execAckTimeout_frame {A : List StatePart} (s : State) (port : BitVec 4) (ha : [.ports] ⊆ A := by first | exact StatePart.sub (by assumption) (by decide) | decide) : Out.Frame A s (execAckTimeout port s) := by
  unfold execAckTimeout
  repeat' first | with_reducible assumption | with_reducible exact State.Frame.refl _ _ | fail_if_no_progress extract_lets | with_reducible apply sendLink_frame | with_reducible refine act_frame ?_ | with_reducible refine next_frame ?_ | exact StatePart.sub ha (by decide) | split | fail_if_no_progress ((with_reducible refine State.Frame.lit ?_ ?_ ?_ ?_ ?_ ?_ ?_ ?_ ?_ ?_ ?_ ?_ ?_ ?_ ?_ ?_ ?_ ?_ ?_ ?_ ?_ ?_ ?_ ?_ ?_ ?_ ?_ ?_ ?_) <;> first | with_reducible exact Or.inr rfl | exact Or.inl (ha (by decide)) | skip) | dsimp +zetaDelta only

theorem execPeerFrameCrcFailure_frame {A : List StatePart} (s : State) (port : BitVec 4) (ha : [.ports] ⊆ A := by first | exact StatePart.sub (by assumption) (by decide) | decide) : Out.Frame A s (execPeerFrameCrcFailure port s) := by
  unfold execPeerFrameCrcFailure
  repeat' first | with_reducible assumption | with_reducible exact State.Frame.refl _ _ | with_reducible apply countPort_frame | with_reducible apply sendNak_frame | with_reducible refine act_frame ?_ | with_reducible refine next_frame ?_ | exact StatePart.sub ha (by decide) | split | fail_if_no_progress ((with_reducible refine State.Frame.lit ?_ ?_ ?_ ?_ ?_ ?_ ?_ ?_ ?_ ?_ ?_ ?_ ?_ ?_ ?_ ?_ ?_ ?_ ?_ ?_ ?_ ?_ ?_ ?_ ?_ ?_ ?_ ?_ ?_) <;> first | with_reducible exact Or.inr rfl | exact Or.inl (ha (by decide)) | skip)

theorem execLinkUp_frame {A : List StatePart} (s : State) (port : BitVec 4) (fast : Bool) (prevGen : Bool) (lanes : BitVec 4) (ha : [.ports, .svc, .can, .log, .free] ⊆ A := by first | exact StatePart.sub (by assumption) (by decide) | decide) : Out.Frame A s (execLinkUp port fast prevGen lanes s) := by
  unfold execLinkUp
  repeat' first | with_reducible assumption | with_reducible exact State.Frame.refl _ _ | fail_if_no_progress extract_lets | exact StatePart.sub ha (by decide) | with_reducible apply updPort_frame | with_reducible apply replayPort_frame | with_reducible refine act_frame ?_ | with_reducible refine next_frame ?_ | with_reducible refine ite_frame ?_ ?_ | split | fail_if_no_progress ((with_reducible refine State.Frame.lit ?_ ?_ ?_ ?_ ?_ ?_ ?_ ?_ ?_ ?_ ?_ ?_ ?_ ?_ ?_ ?_ ?_ ?_ ?_ ?_ ?_ ?_ ?_ ?_ ?_ ?_ ?_ ?_ ?_) <;> first | with_reducible exact Or.inr rfl | exact Or.inl (ha (by decide)) | skip) | dsimp +zetaDelta only

theorem execLaneFailure_frame {A : List StatePart} (s : State) (port : BitVec 4) (lane : BitVec 2) (ha : [.ports, .svc, .can, .log] ⊆ A := by first | exact StatePart.sub (by assumption) (by decide) | decide) : Out.Frame A s (execLaneFailure port lane s) := by
  unfold execLaneFailure
  repeat' first | with_reducible assumption | with_reducible exact State.Frame.refl _ _ | fail_if_no_progress extract_lets | with_reducible apply takeLane_frame | with_reducible refine act_frame ?_ | with_reducible refine next_frame ?_ | exact StatePart.sub ha (by decide) | split | fail_if_no_progress ((with_reducible refine State.Frame.lit ?_ ?_ ?_ ?_ ?_ ?_ ?_ ?_ ?_ ?_ ?_ ?_ ?_ ?_ ?_ ?_ ?_ ?_ ?_ ?_ ?_ ?_ ?_ ?_ ?_ ?_ ?_ ?_ ?_) <;> first | with_reducible exact Or.inr rfl | exact Or.inl (ha (by decide)) | skip) | dsimp +zetaDelta only

theorem execPortWiden_frame {A : List StatePart} (s : State) (port : BitVec 4) (ha : [.ports] ⊆ A := by first | exact StatePart.sub (by assumption) (by decide) | decide) : Out.Frame A s (execPortWiden port s) := by
  unfold execPortWiden
  repeat' first | with_reducible assumption | with_reducible exact State.Frame.refl _ _ | fail_if_no_progress extract_lets | with_reducible apply setLanes_frame | with_reducible refine act_frame ?_ | with_reducible refine next_frame ?_ | exact StatePart.sub ha (by decide) | split | fail_if_no_progress ((with_reducible refine State.Frame.lit ?_ ?_ ?_ ?_ ?_ ?_ ?_ ?_ ?_ ?_ ?_ ?_ ?_ ?_ ?_ ?_ ?_ ?_ ?_ ?_ ?_ ?_ ?_ ?_ ?_ ?_ ?_ ?_ ?_) <;> first | with_reducible exact Or.inr rfl | exact Or.inl (ha (by decide)) | skip) | dsimp +zetaDelta only

theorem setArb_frame {A : List StatePart} {s₀ : State} {s : State} (h : s₀.Frame A s) (k : Nat) (a : Arb) (ha : [.mem] ⊆ A := by first | exact StatePart.sub (by assumption) (by decide) | decide) : s₀.Frame A (setArb s k a) := by
  unfold setArb
  repeat' first | with_reducible assumption | with_reducible exact State.Frame.refl _ _ | fail_if_no_progress extract_lets | with_reducible refine setMem_frame ?_ ?_ | exact ha (by decide) | exact StatePart.sub ha (by decide) | split | fail_if_no_progress ((with_reducible refine State.Frame.lit ?_ ?_ ?_ ?_ ?_ ?_ ?_ ?_ ?_ ?_ ?_ ?_ ?_ ?_ ?_ ?_ ?_ ?_ ?_ ?_ ?_ ?_ ?_ ?_ ?_ ?_ ?_ ?_ ?_) <;> first | with_reducible exact Or.inr rfl | exact Or.inl (ha (by decide)) | skip)

theorem bankDecide_frame {A : List StatePart} {s₀ : State} {s : State} (h : s₀.Frame A s) (n : Nat) (reqs : List Nat) (ha : [.mem] ⊆ A := by first | exact StatePart.sub (by assumption) (by decide) | decide) : s₀.Frame A (bankDecide s n reqs) := by
  unfold bankDecide
  extract_lets x0 x1 x2
  have h2 : s₀.Frame A x2 := by
    unfold x2
    repeat' first | with_reducible assumption | with_reducible exact State.Frame.refl _ _ | fail_if_no_progress extract_lets | exact StatePart.sub ha (by decide) | with_reducible apply setArb_frame | with_reducible refine setMem_frame ?_ ?_ | exact ha (by decide) | with_reducible refine ite_frame ?_ ?_ | split | fail_if_no_progress ((with_reducible refine State.Frame.lit ?_ ?_ ?_ ?_ ?_ ?_ ?_ ?_ ?_ ?_ ?_ ?_ ?_ ?_ ?_ ?_ ?_ ?_ ?_ ?_ ?_ ?_ ?_ ?_ ?_ ?_ ?_ ?_ ?_) <;> first | with_reducible exact Or.inr rfl | exact Or.inl (ha (by decide)) | skip) | dsimp +zetaDelta only
  clear_value x2
  repeat' first | with_reducible assumption | with_reducible exact State.Frame.refl _ _ | fail_if_no_progress extract_lets | exact StatePart.sub ha (by decide) | with_reducible apply setArb_frame | with_reducible refine setMem_frame ?_ ?_ | exact ha (by decide) | with_reducible refine ite_frame ?_ ?_ | split | fail_if_no_progress ((with_reducible refine State.Frame.lit ?_ ?_ ?_ ?_ ?_ ?_ ?_ ?_ ?_ ?_ ?_ ?_ ?_ ?_ ?_ ?_ ?_ ?_ ?_ ?_ ?_ ?_ ?_ ?_ ?_ ?_ ?_ ?_ ?_) <;> first | with_reducible exact Or.inr rfl | exact Or.inl (ha (by decide)) | skip) | dsimp +zetaDelta only

theorem moveFrames_frame {A : List StatePart} {t s : State} (h : t.Frame A s) (k j i : Nat) (ha : [.mem, .ports] ⊆ A := by first | exact StatePart.sub (by assumption) (by decide) | decide) : t.Frame A (moveFrames k s j i) := by
  induction k generalizing s with
  | zero => exact h
  | succ k ih =>
    unfold moveFrames
    split
    · exact h
    · exact ih (setArb_frame (sendNow_frame (updPort_frame h _ _) _ _ _) _ _)

theorem egressDecide_frame {A : List StatePart} {s₀ : State} {s : State} (h : s₀.Frame A s) (j : Nat) (ha : [.mem, .ports] ⊆ A := by first | exact StatePart.sub (by assumption) (by decide) | decide) : s₀.Frame A (egressDecide s j) := by
  unfold egressDecide
  extract_lets x0
  have h0 : s₀.Frame A x0 := by
    unfold x0
    repeat' first | with_reducible assumption | with_reducible exact State.Frame.refl _ _ | fail_if_no_progress extract_lets | with_reducible apply setArb_frame | with_reducible apply moveFrames_frame | exact StatePart.sub ha (by decide) | split | fail_if_no_progress ((with_reducible refine State.Frame.lit ?_ ?_ ?_ ?_ ?_ ?_ ?_ ?_ ?_ ?_ ?_ ?_ ?_ ?_ ?_ ?_ ?_ ?_ ?_ ?_ ?_ ?_ ?_ ?_ ?_ ?_ ?_ ?_ ?_) <;> first | with_reducible exact Or.inr rfl | exact Or.inl (ha (by decide)) | skip) | dsimp +zetaDelta only
  clear_value x0
  repeat' first | with_reducible assumption | with_reducible exact State.Frame.refl _ _ | fail_if_no_progress extract_lets | with_reducible apply setArb_frame | with_reducible apply moveFrames_frame | exact StatePart.sub ha (by decide) | split | fail_if_no_progress ((with_reducible refine State.Frame.lit ?_ ?_ ?_ ?_ ?_ ?_ ?_ ?_ ?_ ?_ ?_ ?_ ?_ ?_ ?_ ?_ ?_ ?_ ?_ ?_ ?_ ?_ ?_ ?_ ?_ ?_ ?_ ?_ ?_) <;> first | with_reducible exact Or.inr rfl | exact Or.inl (ha (by decide)) | skip) | dsimp +zetaDelta only

theorem execArbiterDecision_frame {A : List StatePart} (s : State) (port : ArbPort) (ha : [.mem, .ports] ⊆ A := by first | exact StatePart.sub (by assumption) (by decide) | decide) : Out.Frame A s (execArbiterDecision port s) := by
  unfold execArbiterDecision
  repeat' first | with_reducible assumption | with_reducible exact State.Frame.refl _ _ | fail_if_no_progress extract_lets | with_reducible apply bankDecide_frame | with_reducible apply egressDecide_frame | with_reducible refine act_frame ?_ | with_reducible refine next_frame ?_ | exact StatePart.sub ha (by decide) | split | fail_if_no_progress ((with_reducible refine State.Frame.lit ?_ ?_ ?_ ?_ ?_ ?_ ?_ ?_ ?_ ?_ ?_ ?_ ?_ ?_ ?_ ?_ ?_ ?_ ?_ ?_ ?_ ?_ ?_ ?_ ?_ ?_ ?_ ?_ ?_) <;> first | with_reducible exact Or.inr rfl | exact Or.inl (ha (by decide)) | skip)

theorem logCut_frame {A : List StatePart} {s₀ : State} {s : State} (h : s₀.Frame A s) (k : Nat) (unit : Byte) (ha : [.mem, .can, .log] ⊆ A := by first | exact StatePart.sub (by assumption) (by decide) | decide) : s₀.Frame A (logCut s k unit) := by
  unfold logCut
  extract_lets x0
  repeat' first | with_reducible assumption | with_reducible exact State.Frame.refl _ _ | fail_if_no_progress extract_lets | with_reducible apply logEvent_frame | with_reducible refine setMem_frame ?_ ?_ | exact ha (by decide) | exact StatePart.sub ha (by decide) | with_reducible refine ite_frame ?_ ?_ | split | fail_if_no_progress ((with_reducible refine State.Frame.lit ?_ ?_ ?_ ?_ ?_ ?_ ?_ ?_ ?_ ?_ ?_ ?_ ?_ ?_ ?_ ?_ ?_ ?_ ?_ ?_ ?_ ?_ ?_ ?_ ?_ ?_ ?_ ?_ ?_) <;> first | with_reducible exact Or.inr rfl | exact Or.inl (ha (by decide)) | skip) | dsimp +zetaDelta only

theorem execHoldCutOff_frame {A : List StatePart} (s : State) (port : ArbPort) (ha : [.mem, .can, .ports, .log] ⊆ A := by first | exact StatePart.sub (by assumption) (by decide) | decide) : Out.Frame A s (execHoldCutOff port s) := by
  unfold execHoldCutOff
  repeat' first | with_reducible assumption | with_reducible exact State.Frame.refl _ _ | fail_if_no_progress extract_lets | with_reducible apply setArb_frame | with_reducible apply bankDecide_frame | with_reducible apply egressDecide_frame | with_reducible apply logCut_frame | with_reducible refine setMem_frame ?_ ?_ | exact ha (by decide) | with_reducible refine act_frame ?_ | with_reducible refine next_frame ?_ | exact StatePart.sub ha (by decide) | split | fail_if_no_progress ((with_reducible refine State.Frame.lit ?_ ?_ ?_ ?_ ?_ ?_ ?_ ?_ ?_ ?_ ?_ ?_ ?_ ?_ ?_ ?_ ?_ ?_ ?_ ?_ ?_ ?_ ?_ ?_ ?_ ?_ ?_ ?_ ?_) <;> first | with_reducible exact Or.inr rfl | exact Or.inl (ha (by decide)) | skip) | dsimp +zetaDelta only

theorem execWcbTimeout_frame {A : List StatePart} (s : State) (stack : BitVec 4) (granule : BitVec 40) (found : List Flaw) (ha : [.mem] ⊆ A := by first | exact StatePart.sub (by assumption) (by decide) | decide) : Out.Frame A s (execWcbTimeout stack granule found s) := by
  unfold execWcbTimeout
  repeat' first | with_reducible assumption | with_reducible exact State.Frame.refl _ _ | fail_if_no_progress extract_lets | exact StatePart.sub ha (by decide) | with_reducible apply strikeAll_frame | with_reducible refine setMem_frame ?_ ?_ | exact ha (by decide) | with_reducible refine act_frame ?_ | with_reducible refine next_frame ?_ | split | fail_if_no_progress ((with_reducible refine State.Frame.lit ?_ ?_ ?_ ?_ ?_ ?_ ?_ ?_ ?_ ?_ ?_ ?_ ?_ ?_ ?_ ?_ ?_ ?_ ?_ ?_ ?_ ?_ ?_ ?_ ?_ ?_ ?_ ?_ ?_) <;> first | with_reducible exact Or.inr rfl | exact Or.inl (ha (by decide)) | skip) | dsimp +zetaDelta only

end Sys2Proof.Machine
end

