-- ==== Sys2Proof/Laws/FrameRooms.lean ====
section
/-! SUPPORT. Which parts of the state the operations of these files may change: Prog, Operands, Flags, Sched, Runs, RoomOps, Hearth, Xfer, Matrix, Vector, Row, Issue, Ituno. -/

namespace Sys2Proof.Machine

set_option linter.unusedVariables false
set_option linter.unusedTactic false
set_option linter.unreachableTactic false

/-! ### Prog -/

/-! ### Operands -/

theorem setDesc_frame {A : List StatePart} {s₀ : State} {s : State} (h : s₀.Frame A s) (p : Nat) (h : Nat) (d : Desc) (ha : [.psched] ⊆ A := by first | exact StatePart.sub (by assumption) (by decide) | decide) : s₀.Frame A (setDesc s p h d) := by
  unfold setDesc
  repeat' first | with_reducible assumption | with_reducible exact State.Frame.refl _ _ | fail_if_no_progress extract_lets | exact StatePart.sub ha (by decide) | with_reducible apply updSched_frame | split | fail_if_no_progress ((with_reducible refine State.Frame.lit ?_ ?_ ?_ ?_ ?_ ?_ ?_ ?_ ?_ ?_ ?_ ?_ ?_ ?_ ?_ ?_ ?_ ?_ ?_ ?_ ?_ ?_ ?_ ?_ ?_ ?_ ?_ ?_ ?_) <;> first | with_reducible exact Or.inr rfl | exact Or.inl (ha (by decide)) | skip)

theorem touchElems_frame {A : List StatePart} {s₀ : State} {s : State} (h : s₀.Frame A s) (d : Desc) (ns : List Nat) (ha : [.mem] ⊆ A := by first | exact StatePart.sub (by assumption) (by decide) | decide) : s₀.Frame A (touchElems s d ns) := by
  unfold touchElems
  repeat' first | with_reducible assumption | with_reducible exact State.Frame.refl _ _ | fail_if_no_progress extract_lets | exact StatePart.sub ha (by decide) | with_reducible apply touch_frame | with_reducible refine foldl_frame (fun _ _ => ?_) ?_ | split | fail_if_no_progress ((with_reducible refine State.Frame.lit ?_ ?_ ?_ ?_ ?_ ?_ ?_ ?_ ?_ ?_ ?_ ?_ ?_ ?_ ?_ ?_ ?_ ?_ ?_ ?_ ?_ ?_ ?_ ?_ ?_ ?_ ?_ ?_ ?_) <;> first | with_reducible exact Or.inr rfl | exact Or.inl (ha (by decide)) | skip) | dsimp +zetaDelta only

theorem beginStore_frame {A : List StatePart} {s₀ : State} {s : State} (h : s₀.Frame A s) (n : Nat) (q : Nat) (ha : [.psched] ⊆ A := by first | exact StatePart.sub (by assumption) (by decide) | decide) : s₀.Frame A (beginStore s n q) := by
  unfold beginStore
  repeat' first | with_reducible assumption | with_reducible exact State.Frame.refl _ _ | fail_if_no_progress extract_lets | exact StatePart.sub ha (by decide) | with_reducible apply updSched_frame | split | fail_if_no_progress ((with_reducible refine State.Frame.lit ?_ ?_ ?_ ?_ ?_ ?_ ?_ ?_ ?_ ?_ ?_ ?_ ?_ ?_ ?_ ?_ ?_ ?_ ?_ ?_ ?_ ?_ ?_ ?_ ?_ ?_ ?_ ?_ ?_) <;> first | with_reducible exact Or.inr rfl | exact Or.inl (ha (by decide)) | skip)

theorem endStore_frame {A : List StatePart} {s₀ : State} {s : State} (h : s₀.Frame A s) (p : Nat) (ha : [.psched] ⊆ A := by first | exact StatePart.sub (by assumption) (by decide) | decide) : s₀.Frame A (endStore s p) := by
  unfold endStore
  repeat' first | with_reducible assumption | with_reducible exact State.Frame.refl _ _ | fail_if_no_progress extract_lets | exact StatePart.sub ha (by decide) | with_reducible apply updSched_frame | split | fail_if_no_progress ((with_reducible refine State.Frame.lit ?_ ?_ ?_ ?_ ?_ ?_ ?_ ?_ ?_ ?_ ?_ ?_ ?_ ?_ ?_ ?_ ?_ ?_ ?_ ?_ ?_ ?_ ?_ ?_ ?_ ?_ ?_ ?_ ?_) <;> first | with_reducible exact Or.inr rfl | exact Or.inl (ha (by decide)) | skip)

theorem storeUnhidden_frame {A : List StatePart} {s₀ : State} {s : State} (h : s₀.Frame A s) (n : Nat) (seq : Nat) (a : Nat) (bs : List Byte) (po : Bool) (ha : [.mem] ⊆ A := by first | exact StatePart.sub (by assumption) (by decide) | decide) : s₀.Frame A (storeUnhidden s n seq a bs po) := by
  unfold storeUnhidden
  extract_lets x0
  repeat' first | with_reducible assumption | with_reducible exact State.Frame.refl _ _ | fail_if_no_progress extract_lets | exact StatePart.sub ha (by decide) | with_reducible apply storeBytes_frame | with_reducible refine foldl_frame (fun _ _ => ?_) ?_ | with_reducible refine ite_frame ?_ ?_ | split | fail_if_no_progress ((with_reducible refine State.Frame.lit ?_ ?_ ?_ ?_ ?_ ?_ ?_ ?_ ?_ ?_ ?_ ?_ ?_ ?_ ?_ ?_ ?_ ?_ ?_ ?_ ?_ ?_ ?_ ?_ ?_ ?_ ?_ ?_ ?_) <;> first | with_reducible exact Or.inr rfl | exact Or.inl (ha (by decide)) | skip) | dsimp +zetaDelta only

theorem hideEarlier_frame {A : List StatePart} {s₀ : State} {s : State} (h : s₀.Frame A s) (n : Nat) (seq : Nat) (a : Nat) (len : Nat) (ha : [.psched] ⊆ A := by first | exact StatePart.sub (by assumption) (by decide) | decide) : s₀.Frame A (hideEarlier s n seq a len) := by
  unfold hideEarlier
  extract_lets x0
  repeat' first | with_reducible assumption | with_reducible exact State.Frame.refl _ _ | fail_if_no_progress extract_lets | exact StatePart.sub ha (by decide) | with_reducible apply updSched_frame | split | fail_if_no_progress ((with_reducible refine State.Frame.lit ?_ ?_ ?_ ?_ ?_ ?_ ?_ ?_ ?_ ?_ ?_ ?_ ?_ ?_ ?_ ?_ ?_ ?_ ?_ ?_ ?_ ?_ ?_ ?_ ?_ ?_ ?_ ?_ ?_) <;> first | with_reducible exact Or.inr rfl | exact Or.inl (ha (by decide)) | skip) | dsimp +zetaDelta only

theorem streamStore_frame {A : List StatePart} {s₀ : State} {s : State} (h : s₀.Frame A s) (p : Nat) (a : Nat) (bs : List Byte) (po : Bool) (ha : [.mem, .psched] ⊆ A := by first | exact StatePart.sub (by assumption) (by decide) | decide) : s₀.Frame A (streamStore s p a bs po) := by
  unfold streamStore
  repeat' first | with_reducible assumption | with_reducible exact State.Frame.refl _ _ | fail_if_no_progress extract_lets | exact StatePart.sub ha (by decide) | with_reducible apply storeBytes_frame | with_reducible apply storeUnhidden_frame | with_reducible apply hideEarlier_frame | split | fail_if_no_progress ((with_reducible refine State.Frame.lit ?_ ?_ ?_ ?_ ?_ ?_ ?_ ?_ ?_ ?_ ?_ ?_ ?_ ?_ ?_ ?_ ?_ ?_ ?_ ?_ ?_ ?_ ?_ ?_ ?_ ?_ ?_ ?_ ?_) <;> first | with_reducible exact Or.inr rfl | exact Or.inl (ha (by decide)) | skip)

theorem drainSink_frame {A : List StatePart} {s₀ : State} {s : State} (h : s₀.Frame A s) (p : Nat) (d : Desc) (k : Sink) (ha : [.mem, .psched] ⊆ A := by first | exact StatePart.sub (by assumption) (by decide) | decide) : s₀.Frame A (drainSink s p d k) := by
  unfold drainSink
  extract_lets x0 x1
  have h0 : s₀.Frame A x0 := by
    unfold x0
    repeat' first | with_reducible assumption | with_reducible exact State.Frame.refl _ _ | fail_if_no_progress extract_lets | exact StatePart.sub ha (by decide) | with_reducible apply updSched_frame | with_reducible apply streamStore_frame | with_reducible refine foldl_frame (fun _ _ => ?_) ?_ | with_reducible refine ite_frame ?_ ?_ | split | fail_if_no_progress ((with_reducible refine State.Frame.lit ?_ ?_ ?_ ?_ ?_ ?_ ?_ ?_ ?_ ?_ ?_ ?_ ?_ ?_ ?_ ?_ ?_ ?_ ?_ ?_ ?_ ?_ ?_ ?_ ?_ ?_ ?_ ?_ ?_) <;> first | with_reducible exact Or.inr rfl | exact Or.inl (ha (by decide)) | skip) | dsimp +zetaDelta only
  clear_value x0
  have h1 : s₀.Frame A x1 := by
    unfold x1
    repeat' first | with_reducible assumption | with_reducible exact State.Frame.refl _ _ | fail_if_no_progress extract_lets | exact StatePart.sub ha (by decide) | with_reducible apply updSched_frame | with_reducible apply streamStore_frame | with_reducible refine foldl_frame (fun _ _ => ?_) ?_ | with_reducible refine ite_frame ?_ ?_ | split | fail_if_no_progress ((with_reducible refine State.Frame.lit ?_ ?_ ?_ ?_ ?_ ?_ ?_ ?_ ?_ ?_ ?_ ?_ ?_ ?_ ?_ ?_ ?_ ?_ ?_ ?_ ?_ ?_ ?_ ?_ ?_ ?_ ?_ ?_ ?_) <;> first | with_reducible exact Or.inr rfl | exact Or.inl (ha (by decide)) | skip) | dsimp +zetaDelta only
  clear_value x1
  repeat' first | with_reducible assumption | with_reducible exact State.Frame.refl _ _ | fail_if_no_progress extract_lets | exact StatePart.sub ha (by decide) | with_reducible apply updSched_frame | with_reducible apply streamStore_frame | with_reducible refine foldl_frame (fun _ _ => ?_) ?_ | with_reducible refine ite_frame ?_ ?_ | split | fail_if_no_progress ((with_reducible refine State.Frame.lit ?_ ?_ ?_ ?_ ?_ ?_ ?_ ?_ ?_ ?_ ?_ ?_ ?_ ?_ ?_ ?_ ?_ ?_ ?_ ?_ ?_ ?_ ?_ ?_ ?_ ?_ ?_ ?_ ?_) <;> first | with_reducible exact Or.inr rfl | exact Or.inl (ha (by decide)) | skip) | dsimp +zetaDelta only

theorem writeElems_frame {A : List StatePart} {s₀ : State} {s : State} (h : s₀.Frame A s) (p : Nat) (d : Desc) (dst : Int) (src : Int) (rm : Rm) (ns : List Nat) (vs : List (Num × Bool)) (ha : [.mem, .psched] ⊆ A := by first | exact StatePart.sub (by assumption) (by decide) | decide) : s₀.Frame A (writeElems s p d dst src rm ns vs).1 := by
  unfold writeElems
  repeat' first | with_reducible assumption | with_reducible exact State.Frame.refl _ _ | fail_if_no_progress extract_lets | exact StatePart.sub ha (by decide) | with_reducible apply drainSink_frame | with_reducible refine foldl_frame (fun _ _ => ?_) ?_ | with_reducible refine ite_frame ?_ ?_ | split | fail_if_no_progress ((with_reducible refine State.Frame.lit ?_ ?_ ?_ ?_ ?_ ?_ ?_ ?_ ?_ ?_ ?_ ?_ ?_ ?_ ?_ ?_ ?_ ?_ ?_ ?_ ?_ ?_ ?_ ?_ ?_ ?_ ?_ ?_ ?_) <;> first | with_reducible exact Or.inr rfl | exact Or.inl (ha (by decide)) | skip) | dsimp +zetaDelta only

theorem moveElems_frame {A : List StatePart} {s₀ : State} {s : State} (h : s₀.Frame A s) (p : Nat) (d : Desc) (ns : List Nat) (vs : List (Nat × Bool)) (ha : [.mem, .psched] ⊆ A := by first | exact StatePart.sub (by assumption) (by decide) | decide) : s₀.Frame A (moveElems s p d ns vs).1 := by
  unfold moveElems
  repeat' first | with_reducible assumption | with_reducible exact State.Frame.refl _ _ | fail_if_no_progress extract_lets | exact StatePart.sub ha (by decide) | with_reducible apply drainSink_frame | with_reducible apply Work_note_frame | with_reducible apply Work_put_frame | with_reducible refine foldl_frame (fun _ _ => ?_) ?_ | with_reducible refine ite_frame ?_ ?_ | split | fail_if_no_progress ((with_reducible refine State.Frame.lit ?_ ?_ ?_ ?_ ?_ ?_ ?_ ?_ ?_ ?_ ?_ ?_ ?_ ?_ ?_ ?_ ?_ ?_ ?_ ?_ ?_ ?_ ?_ ?_ ?_ ?_ ?_ ?_ ?_) <;> first | with_reducible exact Or.inr rfl | exact Or.inl (ha (by decide)) | skip) | dsimp +zetaDelta only

theorem prepass_frame {A : List StatePart} {s₀ : State} {s : State} (h : s₀.Frame A s) (p : Nat) (regs : Tbl ScaleReg) (d : Desc) (src : Int) (vs : List (Num × Bool)) (ha : [.psched] ⊆ A := by first | exact StatePart.sub (by assumption) (by decide) | decide) : s₀.Frame A (prepass s p regs d src vs).1 := by
  unfold prepass
  repeat' first | with_reducible assumption | with_reducible exact State.Frame.refl _ _ | fail_if_no_progress extract_lets | exact StatePart.sub ha (by decide) | with_reducible apply updSched_frame | with_reducible refine foldl_frame (fun _ _ => ?_) ?_ | with_reducible refine ite_frame ?_ ?_ | split | fail_if_no_progress ((with_reducible refine State.Frame.lit ?_ ?_ ?_ ?_ ?_ ?_ ?_ ?_ ?_ ?_ ?_ ?_ ?_ ?_ ?_ ?_ ?_ ?_ ?_ ?_ ?_ ?_ ?_ ?_ ?_ ?_ ?_ ?_ ?_) <;> first | with_reducible exact Or.inr rfl | exact Or.inl (ha (by decide)) | skip) | dsimp +zetaDelta only

theorem convertInto_frame {A : List StatePart} {s₀ : State} {s : State} (h : s₀.Frame A s) (p : Nat) (regs : Tbl ScaleReg) (d : Desc) (src : Int) (ns : List Nat) (vs : List (Num × Bool)) (ha : [.mem, .psched] ⊆ A := by first | exact StatePart.sub (by assumption) (by decide) | decide) : s₀.Frame A (convertInto s p regs d src ns vs).1 := by
  unfold convertInto
  repeat' first | with_reducible assumption | with_reducible exact State.Frame.refl _ _ | fail_if_no_progress extract_lets | exact StatePart.sub ha (by decide) | with_reducible apply writeElems_frame | with_reducible apply prepass_frame | with_reducible refine fst_frame (by assumption) ?_ | with_reducible refine snd_frame (by assumption) ?_ | split | fail_if_no_progress ((with_reducible refine State.Frame.lit ?_ ?_ ?_ ?_ ?_ ?_ ?_ ?_ ?_ ?_ ?_ ?_ ?_ ?_ ?_ ?_ ?_ ?_ ?_ ?_ ?_ ?_ ?_ ?_ ?_ ?_ ?_ ?_ ?_) <;> first | with_reducible exact Or.inr rfl | exact Or.inl (ha (by decide)) | skip) | dsimp +zetaDelta only

/-! ### Flags -/

theorem orExcsum_frame {A : List StatePart} {s₀ : State} {s : State} (h : s₀.Frame A s) (p : Nat) (h : Nat) (f : Flags) (ha : [.psched] ⊆ A := by first | exact StatePart.sub (by assumption) (by decide) | decide) : s₀.Frame A (orExcsum s p h f) := by
  unfold orExcsum
  repeat' first | with_reducible assumption | with_reducible exact State.Frame.refl _ _ | fail_if_no_progress extract_lets | exact StatePart.sub ha (by decide) | with_reducible apply setDesc_frame | with_reducible refine ite_frame ?_ ?_ | split | fail_if_no_progress ((with_reducible refine State.Frame.lit ?_ ?_ ?_ ?_ ?_ ?_ ?_ ?_ ?_ ?_ ?_ ?_ ?_ ?_ ?_ ?_ ?_ ?_ ?_ ?_ ?_ ?_ ?_ ?_ ?_ ?_ ?_ ?_ ?_) <;> first | with_reducible exact Or.inr rfl | exact Or.inl (ha (by decide)) | skip) | dsimp +zetaDelta only

/-! ### Sched -/

theorem consume_frame {A : List StatePart} {s₀ : State} {s : State} (h : s₀.Frame A s) (n : Nat) (e : Entry) (ha : [.rings, .link] ⊆ A := by first | exact StatePart.sub (by assumption) (by decide) | decide) : s₀.Frame A (consume s n e) := by
  unfold consume
  extract_lets x0
  have h0 : s₀.Frame A x0 := by
    unfold x0
    repeat' first | with_reducible assumption | with_reducible exact State.Frame.refl _ _ | fail_if_no_progress extract_lets | exact StatePart.sub ha (by decide) | with_reducible apply updRing_frame | with_reducible apply fetchMore_frame | split | fail_if_no_progress ((with_reducible refine State.Frame.lit ?_ ?_ ?_ ?_ ?_ ?_ ?_ ?_ ?_ ?_ ?_ ?_ ?_ ?_ ?_ ?_ ?_ ?_ ?_ ?_ ?_ ?_ ?_ ?_ ?_ ?_ ?_ ?_ ?_) <;> first | with_reducible exact Or.inr rfl | exact Or.inl (ha (by decide)) | skip) | dsimp +zetaDelta only
  clear_value x0
  repeat' first | with_reducible assumption | with_reducible exact State.Frame.refl _ _ | fail_if_no_progress extract_lets | exact StatePart.sub ha (by decide) | with_reducible apply updRing_frame | with_reducible apply fetchMore_frame | split | fail_if_no_progress ((with_reducible refine State.Frame.lit ?_ ?_ ?_ ?_ ?_ ?_ ?_ ?_ ?_ ?_ ?_ ?_ ?_ ?_ ?_ ?_ ?_ ?_ ?_ ?_ ?_ ?_ ?_ ?_ ?_ ?_ ?_ ?_ ?_) <;> first | with_reducible exact Or.inr rfl | exact Or.inl (ha (by decide)) | skip) | dsimp +zetaDelta only

theorem enter_frame {A : List StatePart} {s₀ : State} {s : State} (h : s₀.Frame A s) (n : Nat) (e : Entry) (o : Op) (ha : [.rings, .link, .mem, .can, .psched, .free, .log] ⊆ A := by first | exact StatePart.sub (by assumption) (by decide) | decide) : s₀.Frame A (enter s n e o) := by
  unfold enter
  extract_lets x0 x1 x2 x3 x4
  have h1 : s₀.Frame A x1 := by
    unfold x1
    repeat' first | with_reducible assumption | with_reducible exact State.Frame.refl _ _ | fail_if_no_progress extract_lets | exact StatePart.sub ha (by decide) | with_reducible apply updSched_frame | with_reducible apply updRing_frame | with_reducible apply retire_frame | with_reducible apply beginStep_frame | with_reducible apply settleOverrun_frame | with_reducible apply runOrIdle_frame | with_reducible apply consume_frame | with_reducible refine ite_frame ?_ ?_ | split | fail_if_no_progress ((with_reducible refine State.Frame.lit ?_ ?_ ?_ ?_ ?_ ?_ ?_ ?_ ?_ ?_ ?_ ?_ ?_ ?_ ?_ ?_ ?_ ?_ ?_ ?_ ?_ ?_ ?_ ?_ ?_ ?_ ?_ ?_ ?_) <;> first | with_reducible exact Or.inr rfl | exact Or.inl (ha (by decide)) | skip) | dsimp +zetaDelta only
  clear_value x1
  have h2 : s₀.Frame A x2 := by
    unfold x2
    repeat' first | with_reducible assumption | with_reducible exact State.Frame.refl _ _ | fail_if_no_progress extract_lets | exact StatePart.sub ha (by decide) | with_reducible apply updSched_frame | with_reducible apply updRing_frame | with_reducible apply retire_frame | with_reducible apply beginStep_frame | with_reducible apply settleOverrun_frame | with_reducible apply runOrIdle_frame | with_reducible apply consume_frame | with_reducible refine ite_frame ?_ ?_ | split | fail_if_no_progress ((with_reducible refine State.Frame.lit ?_ ?_ ?_ ?_ ?_ ?_ ?_ ?_ ?_ ?_ ?_ ?_ ?_ ?_ ?_ ?_ ?_ ?_ ?_ ?_ ?_ ?_ ?_ ?_ ?_ ?_ ?_ ?_ ?_) <;> first | with_reducible exact Or.inr rfl | exact Or.inl (ha (by decide)) | skip) | dsimp +zetaDelta only
  clear_value x2
  have h3 : s₀.Frame A x3 := by
    unfold x3
    repeat' first | with_reducible assumption | with_reducible exact State.Frame.refl _ _ | fail_if_no_progress extract_lets | exact StatePart.sub ha (by decide) | with_reducible apply updSched_frame | with_reducible apply updRing_frame | with_reducible apply retire_frame | with_reducible apply beginStep_frame | with_reducible apply settleOverrun_frame | with_reducible apply runOrIdle_frame | with_reducible apply consume_frame | with_reducible refine ite_frame ?_ ?_ | split | fail_if_no_progress ((with_reducible refine State.Frame.lit ?_ ?_ ?_ ?_ ?_ ?_ ?_ ?_ ?_ ?_ ?_ ?_ ?_ ?_ ?_ ?_ ?_ ?_ ?_ ?_ ?_ ?_ ?_ ?_ ?_ ?_ ?_ ?_ ?_) <;> first | with_reducible exact Or.inr rfl | exact Or.inl (ha (by decide)) | skip) | dsimp +zetaDelta only
  clear_value x3
  have h4 : s₀.Frame A x4 := by
    unfold x4
    repeat' first | with_reducible assumption | with_reducible exact State.Frame.refl _ _ | fail_if_no_progress extract_lets | exact StatePart.sub ha (by decide) | with_reducible apply updSched_frame | with_reducible apply updRing_frame | with_reducible apply retire_frame | with_reducible apply beginStep_frame | with_reducible apply settleOverrun_frame | with_reducible apply runOrIdle_frame | with_reducible apply consume_frame | with_reducible refine ite_frame ?_ ?_ | split | fail_if_no_progress ((with_reducible refine State.Frame.lit ?_ ?_ ?_ ?_ ?_ ?_ ?_ ?_ ?_ ?_ ?_ ?_ ?_ ?_ ?_ ?_ ?_ ?_ ?_ ?_ ?_ ?_ ?_ ?_ ?_ ?_ ?_ ?_ ?_) <;> first | with_reducible exact Or.inr rfl | exact Or.inl (ha (by decide)) | skip) | dsimp +zetaDelta only
  clear_value x4
  repeat' first | with_reducible assumption | with_reducible exact State.Frame.refl _ _ | fail_if_no_progress extract_lets | exact StatePart.sub ha (by decide) | with_reducible apply updSched_frame | with_reducible apply updRing_frame | with_reducible apply retire_frame | with_reducible apply beginStep_frame | with_reducible apply settleOverrun_frame | with_reducible apply runOrIdle_frame | with_reducible apply consume_frame | with_reducible refine ite_frame ?_ ?_ | split | fail_if_no_progress ((with_reducible refine State.Frame.lit ?_ ?_ ?_ ?_ ?_ ?_ ?_ ?_ ?_ ?_ ?_ ?_ ?_ ?_ ?_ ?_ ?_ ?_ ?_ ?_ ?_ ?_ ?_ ?_ ?_ ?_ ?_ ?_ ?_) <;> first | with_reducible exact Or.inr rfl | exact Or.inl (ha (by decide)) | skip) | dsimp +zetaDelta only

theorem rejectEntry_frame {A : List StatePart} {s₀ : State} {s : State} (h : s₀.Frame A s) (n : Nat) (e : Entry) (f : FaultInfo) (ha : [.rings, .link, .mem, .can, .psched, .free, .log] ⊆ A := by first | exact StatePart.sub (by assumption) (by decide) | decide) : s₀.Frame A (rejectEntry s n e f) := by
  unfold rejectEntry
  extract_lets x0 x1 x2
  have h0 : s₀.Frame A x0 := by
    unfold x0
    repeat' first | with_reducible assumption | with_reducible exact State.Frame.refl _ _ | fail_if_no_progress extract_lets | exact StatePart.sub ha (by decide) | with_reducible apply updRing_frame | with_reducible apply retire_frame | with_reducible apply haltRing_frame | with_reducible apply consume_frame | split | fail_if_no_progress ((with_reducible refine State.Frame.lit ?_ ?_ ?_ ?_ ?_ ?_ ?_ ?_ ?_ ?_ ?_ ?_ ?_ ?_ ?_ ?_ ?_ ?_ ?_ ?_ ?_ ?_ ?_ ?_ ?_ ?_ ?_ ?_ ?_) <;> first | with_reducible exact Or.inr rfl | exact Or.inl (ha (by decide)) | skip) | dsimp +zetaDelta only
  clear_value x0
  have h1 : s₀.Frame A x1 := by
    unfold x1
    repeat' first | with_reducible assumption | with_reducible exact State.Frame.refl _ _ | fail_if_no_progress extract_lets | exact StatePart.sub ha (by decide) | with_reducible apply updRing_frame | with_reducible apply retire_frame | with_reducible apply haltRing_frame | with_reducible apply consume_frame | split | fail_if_no_progress ((with_reducible refine State.Frame.lit ?_ ?_ ?_ ?_ ?_ ?_ ?_ ?_ ?_ ?_ ?_ ?_ ?_ ?_ ?_ ?_ ?_ ?_ ?_ ?_ ?_ ?_ ?_ ?_ ?_ ?_ ?_ ?_ ?_) <;> first | with_reducible exact Or.inr rfl | exact Or.inl (ha (by decide)) | skip) | dsimp +zetaDelta only
  clear_value x1
  have h2 : s₀.Frame A x2 := by
    unfold x2
    repeat' first | with_reducible assumption | with_reducible exact State.Frame.refl _ _ | fail_if_no_progress extract_lets | exact StatePart.sub ha (by decide) | with_reducible apply updRing_frame | with_reducible apply retire_frame | with_reducible apply haltRing_frame | with_reducible apply consume_frame | split | fail_if_no_progress ((with_reducible refine State.Frame.lit ?_ ?_ ?_ ?_ ?_ ?_ ?_ ?_ ?_ ?_ ?_ ?_ ?_ ?_ ?_ ?_ ?_ ?_ ?_ ?_ ?_ ?_ ?_ ?_ ?_ ?_ ?_ ?_ ?_) <;> first | with_reducible exact Or.inr rfl | exact Or.inl (ha (by decide)) | skip) | dsimp +zetaDelta only
  clear_value x2
  repeat' first | with_reducible assumption | with_reducible exact State.Frame.refl _ _ | fail_if_no_progress extract_lets | exact StatePart.sub ha (by decide) | with_reducible apply updRing_frame | with_reducible apply retire_frame | with_reducible apply haltRing_frame | with_reducible apply consume_frame | split | fail_if_no_progress ((with_reducible refine State.Frame.lit ?_ ?_ ?_ ?_ ?_ ?_ ?_ ?_ ?_ ?_ ?_ ?_ ?_ ?_ ?_ ?_ ?_ ?_ ?_ ?_ ?_ ?_ ?_ ?_ ?_ ?_ ?_ ?_ ?_) <;> first | with_reducible exact Or.inr rfl | exact Or.inl (ha (by decide)) | skip) | dsimp +zetaDelta only

/-- The dispatch of a head entry keeps what its effect keeps. -/
theorem dispatchHead_frame {A : List StatePart} {n : Nat} {want : State → Op → Ask → Bool} {k : Plan} {s : State} (h : ∀ n o, s.Frame A (k.go s n o).1)
    (hr : ∀ n o, s.Frame A (k.reject s n o) := by intro _ _; exact State.Frame.refl _ _) (ha : [.rings, .link, .mem, .can, .psched, .free, .log] ⊆ A := by first | exact StatePart.sub (by assumption) (by decide) | decide) :
    Out.Frame A s (dispatchHead n want k s) := by
  unfold dispatchHead
  split
  · exact next_frame (State.Frame.refl A s)
  · split
    · exact next_frame (rejectEntry_frame (State.Frame.refl A s) _ _ _)
    · extract_lets o
      split
      · exact next_frame (State.Frame.refl A s)
      · split
        · exact next_frame (rejectEntry_frame (State.Frame.refl A s) _ _ _)
        · exact next_frame (rejectEntry_frame (hr n o) _ _ _)
        · exact next_frame (enter_frame (h n o) _ _ _)

theorem raiseAll_frame {A : List StatePart} {s₀ : State} {s : State} (h : s₀.Frame A s) (p : Nat) (o : Op) (ha : [.psched] ⊆ A := by first | exact StatePart.sub (by assumption) (by decide) | decide) : s₀.Frame A (raiseAll s p o) := by
  unfold raiseAll
  repeat' first | with_reducible assumption | with_reducible exact State.Frame.refl _ _ | exact StatePart.sub ha (by decide) | with_reducible apply orExcsum_frame | with_reducible refine foldl_frame (fun _ _ => ?_) ?_ | with_reducible refine ite_frame ?_ ?_ | split | fail_if_no_progress ((with_reducible refine State.Frame.lit ?_ ?_ ?_ ?_ ?_ ?_ ?_ ?_ ?_ ?_ ?_ ?_ ?_ ?_ ?_ ?_ ?_ ?_ ?_ ?_ ?_ ?_ ?_ ?_ ?_ ?_ ?_ ?_ ?_) <;> first | with_reducible exact Or.inr rfl | exact Or.inl (ha (by decide)) | skip)

theorem advanceRegs_frame {A : List StatePart} {s₀ : State} {s : State} (h : s₀.Frame A s) (n : Nat) (o : Op) (ha : [.psched] ⊆ A := by first | exact StatePart.sub (by assumption) (by decide) | decide) : s₀.Frame A (advanceRegs s n o) := by
  unfold advanceRegs
  repeat' first | with_reducible assumption | with_reducible exact State.Frame.refl _ _ | fail_if_no_progress extract_lets | exact StatePart.sub ha (by decide) | with_reducible apply updSched_frame | with_reducible refine each_frame (fun _ _ => ?_) ?_ | with_reducible refine ite_frame ?_ ?_ | split | fail_if_no_progress ((with_reducible refine State.Frame.lit ?_ ?_ ?_ ?_ ?_ ?_ ?_ ?_ ?_ ?_ ?_ ?_ ?_ ?_ ?_ ?_ ?_ ?_ ?_ ?_ ?_ ?_ ?_ ?_ ?_ ?_ ?_ ?_ ?_) <;> first | with_reducible exact Or.inr rfl | exact Or.inl (ha (by decide)) | skip) | dsimp +zetaDelta only

theorem advanceAtFence_frame {A : List StatePart} {s₀ : State} {s : State} (h : s₀.Frame A s) (n : Nat) (ha : [.psched] ⊆ A := by first | exact StatePart.sub (by assumption) (by decide) | decide) : s₀.Frame A (advanceAtFence s n) := by
  unfold advanceAtFence
  repeat' first | with_reducible assumption | with_reducible exact State.Frame.refl _ _ | fail_if_no_progress extract_lets | exact StatePart.sub ha (by decide) | with_reducible apply updSched_frame | with_reducible refine foldl_frame (fun _ _ => ?_) ?_ | with_reducible refine ite_frame ?_ ?_ | split | fail_if_no_progress ((with_reducible refine State.Frame.lit ?_ ?_ ?_ ?_ ?_ ?_ ?_ ?_ ?_ ?_ ?_ ?_ ?_ ?_ ?_ ?_ ?_ ?_ ?_ ?_ ?_ ?_ ?_ ?_ ?_ ?_ ?_ ?_ ?_) <;> first | with_reducible exact Or.inr rfl | exact Or.inl (ha (by decide)) | skip) | dsimp +zetaDelta only

theorem markRewritten_frame {A : List StatePart} {s₀ : State} {s : State} (h : s₀.Frame A s) (p : Nat) (h : Nat) (ha : [.rings] ⊆ A := by first | exact StatePart.sub (by assumption) (by decide) | decide) : s₀.Frame A (markRewritten s p h) := by
  unfold markRewritten
  repeat' first | with_reducible assumption | with_reducible exact State.Frame.refl _ _ | fail_if_no_progress extract_lets | exact StatePart.sub ha (by decide) | with_reducible apply updRing_frame | with_reducible refine each_frame (fun _ _ => ?_) ?_ | split | fail_if_no_progress ((with_reducible refine State.Frame.lit ?_ ?_ ?_ ?_ ?_ ?_ ?_ ?_ ?_ ?_ ?_ ?_ ?_ ?_ ?_ ?_ ?_ ?_ ?_ ?_ ?_ ?_ ?_ ?_ ?_ ?_ ?_ ?_ ?_) <;> first | with_reducible exact Or.inr rfl | exact Or.inl (ha (by decide)) | skip)

theorem endBatch_frame {A : List StatePart} {s₀ : State} {s : State} (h : s₀.Frame A s) (p : Nat) (o : Op) (ha : [.psched] ⊆ A := by first | exact StatePart.sub (by assumption) (by decide) | decide) : s₀.Frame A (endBatch s p o) := by
  unfold endBatch
  repeat' first | with_reducible assumption | with_reducible exact State.Frame.refl _ _ | fail_if_no_progress extract_lets | exact StatePart.sub ha (by decide) | with_reducible apply updSched_frame | with_reducible refine each_frame (fun _ _ => ?_) ?_ | with_reducible refine ite_frame ?_ ?_ | split | fail_if_no_progress ((with_reducible refine State.Frame.lit ?_ ?_ ?_ ?_ ?_ ?_ ?_ ?_ ?_ ?_ ?_ ?_ ?_ ?_ ?_ ?_ ?_ ?_ ?_ ?_ ?_ ?_ ?_ ?_ ?_ ?_ ?_ ?_ ?_) <;> first | with_reducible exact Or.inr rfl | exact Or.inl (ha (by decide)) | skip)

theorem endStep_frame {A : List StatePart} {s₀ : State} {s : State} (h : s₀.Frame A s) (n : Nat) (ha : [.rings] ⊆ A := by first | exact StatePart.sub (by assumption) (by decide) | decide) : s₀.Frame A (endStep s n) := by
  unfold endStep
  repeat' first | with_reducible assumption | with_reducible exact State.Frame.refl _ _ | fail_if_no_progress extract_lets | exact StatePart.sub ha (by decide) | with_reducible apply updRing_frame | with_reducible apply beginStep_frame | split | fail_if_no_progress ((with_reducible refine State.Frame.lit ?_ ?_ ?_ ?_ ?_ ?_ ?_ ?_ ?_ ?_ ?_ ?_ ?_ ?_ ?_ ?_ ?_ ?_ ?_ ?_ ?_ ?_ ?_ ?_ ?_ ?_ ?_ ?_ ?_) <;> first | with_reducible exact Or.inr rfl | exact Or.inl (ha (by decide)) | skip) | dsimp +zetaDelta only

theorem finishOp_frame {A : List StatePart} {s₀ : State} {s : State} (h : s₀.Frame A s) (n : Nat) (o : Op) (ha : [.rings, .link, .psched, .free] ⊆ A := by first | exact StatePart.sub (by assumption) (by decide) | decide) : s₀.Frame A (finishOp s n o) := by
  unfold finishOp
  extract_lets x0 x1 x2 x3 x4 x5 x6 x7
  have h1 : s₀.Frame A x1 := by
    unfold x1
    repeat' first | with_reducible assumption | with_reducible exact State.Frame.refl _ _ | fail_if_no_progress extract_lets | exact StatePart.sub ha (by decide) | with_reducible apply updSched_frame | with_reducible apply updRing_frame | with_reducible apply updOp_frame | with_reducible apply retire_frame | with_reducible apply runOrIdle_frame | with_reducible apply raiseAll_frame | with_reducible apply advanceRegs_frame | with_reducible apply markRewritten_frame | with_reducible apply endBatch_frame | with_reducible apply endStep_frame | with_reducible refine ite_frame ?_ ?_ | split | fail_if_no_progress ((with_reducible refine State.Frame.lit ?_ ?_ ?_ ?_ ?_ ?_ ?_ ?_ ?_ ?_ ?_ ?_ ?_ ?_ ?_ ?_ ?_ ?_ ?_ ?_ ?_ ?_ ?_ ?_ ?_ ?_ ?_ ?_ ?_) <;> first | with_reducible exact Or.inr rfl | exact Or.inl (ha (by decide)) | skip) | dsimp +zetaDelta only
  clear_value x1
  have h2 : s₀.Frame A x2 := by
    unfold x2
    repeat' first | with_reducible assumption | with_reducible exact State.Frame.refl _ _ | fail_if_no_progress extract_lets | exact StatePart.sub ha (by decide) | with_reducible apply updSched_frame | with_reducible apply updRing_frame | with_reducible apply updOp_frame | with_reducible apply retire_frame | with_reducible apply runOrIdle_frame | with_reducible apply raiseAll_frame | with_reducible apply advanceRegs_frame | with_reducible apply markRewritten_frame | with_reducible apply endBatch_frame | with_reducible apply endStep_frame | with_reducible refine ite_frame ?_ ?_ | split | fail_if_no_progress ((with_reducible refine State.Frame.lit ?_ ?_ ?_ ?_ ?_ ?_ ?_ ?_ ?_ ?_ ?_ ?_ ?_ ?_ ?_ ?_ ?_ ?_ ?_ ?_ ?_ ?_ ?_ ?_ ?_ ?_ ?_ ?_ ?_) <;> first | with_reducible exact Or.inr rfl | exact Or.inl (ha (by decide)) | skip) | dsimp +zetaDelta only
  clear_value x2
  have h3 : s₀.Frame A x3 := by
    unfold x3
    repeat' first | with_reducible assumption | with_reducible exact State.Frame.refl _ _ | fail_if_no_progress extract_lets | exact StatePart.sub ha (by decide) | with_reducible apply updSched_frame | with_reducible apply updRing_frame | with_reducible apply updOp_frame | with_reducible apply retire_frame | with_reducible apply runOrIdle_frame | with_reducible apply raiseAll_frame | with_reducible apply advanceRegs_frame | with_reducible apply markRewritten_frame | with_reducible apply endBatch_frame | with_reducible apply endStep_frame | with_reducible refine ite_frame ?_ ?_ | split | fail_if_no_progress ((with_reducible refine State.Frame.lit ?_ ?_ ?_ ?_ ?_ ?_ ?_ ?_ ?_ ?_ ?_ ?_ ?_ ?_ ?_ ?_ ?_ ?_ ?_ ?_ ?_ ?_ ?_ ?_ ?_ ?_ ?_ ?_ ?_) <;> first | with_reducible exact Or.inr rfl | exact Or.inl (ha (by decide)) | skip) | dsimp +zetaDelta only
  clear_value x3
  have h4 : s₀.Frame A x4 := by
    unfold x4
    repeat' first | with_reducible assumption | with_reducible exact State.Frame.refl _ _ | fail_if_no_progress extract_lets | exact StatePart.sub ha (by decide) | with_reducible apply updSched_frame | with_reducible apply updRing_frame | with_reducible apply updOp_frame | with_reducible apply retire_frame | with_reducible apply runOrIdle_frame | with_reducible apply raiseAll_frame | with_reducible apply advanceRegs_frame | with_reducible apply markRewritten_frame | with_reducible apply endBatch_frame | with_reducible apply endStep_frame | with_reducible refine ite_frame ?_ ?_ | split | fail_if_no_progress ((with_reducible refine State.Frame.lit ?_ ?_ ?_ ?_ ?_ ?_ ?_ ?_ ?_ ?_ ?_ ?_ ?_ ?_ ?_ ?_ ?_ ?_ ?_ ?_ ?_ ?_ ?_ ?_ ?_ ?_ ?_ ?_ ?_) <;> first | with_reducible exact Or.inr rfl | exact Or.inl (ha (by decide)) | skip) | dsimp +zetaDelta only
  clear_value x4
  have h5 : s₀.Frame A x5 := by
    unfold x5
    repeat' first | with_reducible assumption | with_reducible exact State.Frame.refl _ _ | fail_if_no_progress extract_lets | exact StatePart.sub ha (by decide) | with_reducible apply updSched_frame | with_reducible apply updRing_frame | with_reducible apply updOp_frame | with_reducible apply retire_frame | with_reducible apply runOrIdle_frame | with_reducible apply raiseAll_frame | with_reducible apply advanceRegs_frame | with_reducible apply markRewritten_frame | with_reducible apply endBatch_frame | with_reducible apply endStep_frame | with_reducible refine ite_frame ?_ ?_ | split | fail_if_no_progress ((with_reducible refine State.Frame.lit ?_ ?_ ?_ ?_ ?_ ?_ ?_ ?_ ?_ ?_ ?_ ?_ ?_ ?_ ?_ ?_ ?_ ?_ ?_ ?_ ?_ ?_ ?_ ?_ ?_ ?_ ?_ ?_ ?_) <;> first | with_reducible exact Or.inr rfl | exact Or.inl (ha (by decide)) | skip) | dsimp +zetaDelta only
  clear_value x5
  have h6 : s₀.Frame A x6 := by
    unfold x6
    repeat' first | with_reducible assumption | with_reducible exact State.Frame.refl _ _ | fail_if_no_progress extract_lets | exact StatePart.sub ha (by decide) | with_reducible apply updSched_frame | with_reducible apply updRing_frame | with_reducible apply updOp_frame | with_reducible apply retire_frame | with_reducible apply runOrIdle_frame | with_reducible apply raiseAll_frame | with_reducible apply advanceRegs_frame | with_reducible apply markRewritten_frame | with_reducible apply endBatch_frame | with_reducible apply endStep_frame | with_reducible refine ite_frame ?_ ?_ | split | fail_if_no_progress ((with_reducible refine State.Frame.lit ?_ ?_ ?_ ?_ ?_ ?_ ?_ ?_ ?_ ?_ ?_ ?_ ?_ ?_ ?_ ?_ ?_ ?_ ?_ ?_ ?_ ?_ ?_ ?_ ?_ ?_ ?_ ?_ ?_) <;> first | with_reducible exact Or.inr rfl | exact Or.inl (ha (by decide)) | skip) | dsimp +zetaDelta only
  clear_value x6
  have h7 : s₀.Frame A x7 := by
    unfold x7
    repeat' first | with_reducible assumption | with_reducible exact State.Frame.refl _ _ | fail_if_no_progress extract_lets | exact StatePart.sub ha (by decide) | with_reducible apply updSched_frame | with_reducible apply updRing_frame | with_reducible apply updOp_frame | with_reducible apply retire_frame | with_reducible apply runOrIdle_frame | with_reducible apply raiseAll_frame | with_reducible apply advanceRegs_frame | with_reducible apply markRewritten_frame | with_reducible apply endBatch_frame | with_reducible apply endStep_frame | with_reducible refine ite_frame ?_ ?_ | split | fail_if_no_progress ((with_reducible refine State.Frame.lit ?_ ?_ ?_ ?_ ?_ ?_ ?_ ?_ ?_ ?_ ?_ ?_ ?_ ?_ ?_ ?_ ?_ ?_ ?_ ?_ ?_ ?_ ?_ ?_ ?_ ?_ ?_ ?_ ?_) <;> first | with_reducible exact Or.inr rfl | exact Or.inl (ha (by decide)) | skip) | dsimp +zetaDelta only
  clear_value x7
  repeat' first | with_reducible assumption | with_reducible exact State.Frame.refl _ _ | fail_if_no_progress extract_lets | exact StatePart.sub ha (by decide) | with_reducible apply updSched_frame | with_reducible apply updRing_frame | with_reducible apply updOp_frame | with_reducible apply retire_frame | with_reducible apply runOrIdle_frame | with_reducible apply raiseAll_frame | with_reducible apply advanceRegs_frame | with_reducible apply markRewritten_frame | with_reducible apply endBatch_frame | with_reducible apply endStep_frame | with_reducible refine ite_frame ?_ ?_ | split | fail_if_no_progress ((with_reducible refine State.Frame.lit ?_ ?_ ?_ ?_ ?_ ?_ ?_ ?_ ?_ ?_ ?_ ?_ ?_ ?_ ?_ ?_ ?_ ?_ ?_ ?_ ?_ ?_ ?_ ?_ ?_ ?_ ?_ ?_ ?_) <;> first | with_reducible exact Or.inr rfl | exact Or.inl (ha (by decide)) | skip) | dsimp +zetaDelta only

theorem execMicroBatchEnd_frame {A : List StatePart} (s : State) (p : BitVec 2) (ha : [.psched] ⊆ A := by first | exact StatePart.sub (by assumption) (by decide) | decide) : Out.Frame A s (execMicroBatchEnd p s) := by
  unfold execMicroBatchEnd
  repeat' first | with_reducible assumption | with_reducible exact State.Frame.refl _ _ | fail_if_no_progress extract_lets | exact StatePart.sub ha (by decide) | with_reducible apply updSched_frame | with_reducible refine each_frame (fun _ _ => ?_) ?_ | with_reducible refine act_frame ?_ | with_reducible refine next_frame ?_ | split | fail_if_no_progress ((with_reducible refine State.Frame.lit ?_ ?_ ?_ ?_ ?_ ?_ ?_ ?_ ?_ ?_ ?_ ?_ ?_ ?_ ?_ ?_ ?_ ?_ ?_ ?_ ?_ ?_ ?_ ?_ ?_ ?_ ?_ ?_ ?_) <;> first | with_reducible exact Or.inr rfl | exact Or.inl (ha (by decide)) | skip)

theorem execNoOp_frame {A : List StatePart} (s : State) (ring : BitVec 6) (ha : [.rings, .link, .mem, .can, .psched, .free, .log] ⊆ A := by first | exact StatePart.sub (by assumption) (by decide) | decide) : Out.Frame A s (execNoOp ring s) := by
  unfold execNoOp
  repeat' first | with_reducible assumption | with_reducible exact State.Frame.refl _ _ | fail_if_no_progress extract_lets | exact StatePart.sub ha (by decide) | with_reducible apply dispatchHead_frame | intro _ _ | dsimp only | with_reducible refine next_frame ?_ | split | fail_if_no_progress ((with_reducible refine State.Frame.lit ?_ ?_ ?_ ?_ ?_ ?_ ?_ ?_ ?_ ?_ ?_ ?_ ?_ ?_ ?_ ?_ ?_ ?_ ?_ ?_ ?_ ?_ ?_ ?_ ?_ ?_ ?_ ?_ ?_) <;> first | with_reducible exact Or.inr rfl | exact Or.inl (ha (by decide)) | skip) | dsimp only

theorem execFence_frame {A : List StatePart} (s : State) (ring : BitVec 6) (ha : [.rings, .link, .mem, .can, .psched, .free, .log] ⊆ A := by first | exact StatePart.sub (by assumption) (by decide) | decide) : Out.Frame A s (execFence ring s) := by
  unfold execFence
  repeat' first | with_reducible assumption | with_reducible exact State.Frame.refl _ _ | exact StatePart.sub ha (by decide) | with_reducible apply dispatchHead_frame | intro _ _ | dsimp only | with_reducible refine next_frame ?_ | split | fail_if_no_progress ((with_reducible refine State.Frame.lit ?_ ?_ ?_ ?_ ?_ ?_ ?_ ?_ ?_ ?_ ?_ ?_ ?_ ?_ ?_ ?_ ?_ ?_ ?_ ?_ ?_ ?_ ?_ ?_ ?_ ?_ ?_ ?_ ?_) <;> first | with_reducible exact Or.inr rfl | exact Or.inl (ha (by decide)) | skip) | dsimp only

theorem releaseHitch_frame {A : List StatePart} {s₀ : State} {s : State} (h : s₀.Frame A s) (p : Nat) (k : Nat) (h : Hitch) (ha : [.rings, .link, .psched, .free] ⊆ A := by first | exact StatePart.sub (by assumption) (by decide) | decide) : s₀.Frame A (releaseHitch s p k h) := by
  unfold releaseHitch
  extract_lets x0
  have h0 : s₀.Frame A x0 := by
    unfold x0
    repeat' first | with_reducible assumption | with_reducible exact State.Frame.refl _ _ | fail_if_no_progress extract_lets | exact StatePart.sub ha (by decide) | with_reducible apply setHitch_frame | with_reducible apply finishOp_frame | with_reducible refine each_frame (fun _ _ => ?_) ?_ | split | fail_if_no_progress ((with_reducible refine State.Frame.lit ?_ ?_ ?_ ?_ ?_ ?_ ?_ ?_ ?_ ?_ ?_ ?_ ?_ ?_ ?_ ?_ ?_ ?_ ?_ ?_ ?_ ?_ ?_ ?_ ?_ ?_ ?_ ?_ ?_) <;> first | with_reducible exact Or.inr rfl | exact Or.inl (ha (by decide)) | skip) | dsimp +zetaDelta only
  clear_value x0
  repeat' first | with_reducible assumption | with_reducible exact State.Frame.refl _ _ | fail_if_no_progress extract_lets | exact StatePart.sub ha (by decide) | with_reducible apply setHitch_frame | with_reducible apply finishOp_frame | with_reducible refine each_frame (fun _ _ => ?_) ?_ | split | fail_if_no_progress ((with_reducible refine State.Frame.lit ?_ ?_ ?_ ?_ ?_ ?_ ?_ ?_ ?_ ?_ ?_ ?_ ?_ ?_ ?_ ?_ ?_ ?_ ?_ ?_ ?_ ?_ ?_ ?_ ?_ ?_ ?_ ?_ ?_) <;> first | with_reducible exact Or.inr rfl | exact Or.inl (ha (by decide)) | skip) | dsimp +zetaDelta only

theorem arrive_frame {A : List StatePart} {s₀ : State} {s : State} (h : s₀.Frame A s) (n : Nat) (o : Op) (ha : [.rings, .link, .mem, .can, .psched, .free, .log] ⊆ A := by first | exact StatePart.sub (by assumption) (by decide) | decide) : s₀.Frame A (arrive s n o) := by
  unfold arrive
  extract_lets x0 x1 x2 x3
  have h3 : s₀.Frame A x3 := by
    unfold x3
    repeat' first | with_reducible assumption | with_reducible exact State.Frame.refl _ _ | fail_if_no_progress extract_lets | exact StatePart.sub ha (by decide) | with_reducible apply updOp_frame | with_reducible apply setHitch_frame | with_reducible apply haltWaiter_frame | with_reducible apply breakHitches_frame | with_reducible apply releaseHitch_frame | with_reducible refine each_frame (fun _ _ => ?_) ?_ | with_reducible refine ite_frame ?_ ?_ | split | fail_if_no_progress ((with_reducible refine State.Frame.lit ?_ ?_ ?_ ?_ ?_ ?_ ?_ ?_ ?_ ?_ ?_ ?_ ?_ ?_ ?_ ?_ ?_ ?_ ?_ ?_ ?_ ?_ ?_ ?_ ?_ ?_ ?_ ?_ ?_) <;> first | with_reducible exact Or.inr rfl | exact Or.inl (ha (by decide)) | skip) | dsimp +zetaDelta only
  clear_value x3
  repeat' first | with_reducible assumption | with_reducible exact State.Frame.refl _ _ | fail_if_no_progress extract_lets | exact StatePart.sub ha (by decide) | with_reducible apply updOp_frame | with_reducible apply setHitch_frame | with_reducible apply haltWaiter_frame | with_reducible apply breakHitches_frame | with_reducible apply releaseHitch_frame | with_reducible refine each_frame (fun _ _ => ?_) ?_ | with_reducible refine ite_frame ?_ ?_ | split | fail_if_no_progress ((with_reducible refine State.Frame.lit ?_ ?_ ?_ ?_ ?_ ?_ ?_ ?_ ?_ ?_ ?_ ?_ ?_ ?_ ?_ ?_ ?_ ?_ ?_ ?_ ?_ ?_ ?_ ?_ ?_ ?_ ?_ ?_ ?_) <;> first | with_reducible exact Or.inr rfl | exact Or.inl (ha (by decide)) | skip) | dsimp +zetaDelta only

theorem passFence_frame {A : List StatePart} {s₀ : State} {s : State} (h : s₀.Frame A s) (n : Nat) (o : Op) (ha : [.rings, .rooms, .link, .mem, .can, .psched, .free, .ports, .log, .events] ⊆ A := by first | exact StatePart.sub (by assumption) (by decide) | decide) : s₀.Frame A (passFence s n o) := by
  unfold passFence
  repeat' first | with_reducible assumption | with_reducible exact State.Frame.refl _ _ | fail_if_no_progress extract_lets | exact StatePart.sub ha (by decide) | with_reducible apply updRing_frame | with_reducible apply faultOp_frame | with_reducible apply advanceAtFence_frame | with_reducible apply finishOp_frame | with_reducible apply arrive_frame | with_reducible refine ite_frame ?_ ?_ | split | fail_if_no_progress ((with_reducible refine State.Frame.lit ?_ ?_ ?_ ?_ ?_ ?_ ?_ ?_ ?_ ?_ ?_ ?_ ?_ ?_ ?_ ?_ ?_ ?_ ?_ ?_ ?_ ?_ ?_ ?_ ?_ ?_ ?_ ?_ ?_) <;> first | with_reducible exact Or.inr rfl | exact Or.inl (ha (by decide)) | skip) | dsimp +zetaDelta only

theorem execFenceComplete_frame {A : List StatePart} (s : State) (ring : BitVec 6) (ha : [.rings, .rooms, .link, .mem, .can, .psched, .free, .ports, .log, .events] ⊆ A := by first | exact StatePart.sub (by assumption) (by decide) | decide) : Out.Frame A s (execFenceComplete ring s) := by
  unfold execFenceComplete
  repeat' first | with_reducible assumption | with_reducible exact State.Frame.refl _ _ | fail_if_no_progress extract_lets | exact StatePart.sub ha (by decide) | with_reducible apply passFence_frame | with_reducible refine act_frame ?_ | with_reducible refine next_frame ?_ | split | fail_if_no_progress ((with_reducible refine State.Frame.lit ?_ ?_ ?_ ?_ ?_ ?_ ?_ ?_ ?_ ?_ ?_ ?_ ?_ ?_ ?_ ?_ ?_ ?_ ?_ ?_ ?_ ?_ ?_ ?_ ?_ ?_ ?_ ?_ ?_) <;> first | with_reducible exact Or.inr rfl | exact Or.inl (ha (by decide)) | skip) | dsimp +zetaDelta only

theorem execHitch_frame {A : List StatePart} (ring : BitVec 6) (s : State) (ha : [.rings, .rooms, .link, .mem, .can, .psched, .free, .ports, .log, .events] ⊆ A := by first | exact StatePart.sub (by assumption) (by decide) | decide) : Out.Frame A s (execHitch ring s) := by
  unfold execHitch
  extract_lets n quiet
  obtain ⟨t, ht, hk⟩ : Out.Frame A s (dispatchHead n (wantOpc 2)
    { check := fun _ n o => if o.hitchMask.getLsbD (n % 16) then none else some (stopAt o 0 0x0A0E)
      go := fun s _ o => (s, o) } s) := dispatchHead_frame fun _ _ => State.Frame.refl A s
  rw [ht]
  dsimp only
  split
  · split
    · exact next_frame (passFence_frame hk _ _)
    · exact next_frame hk
  · exact next_frame hk

theorem applyDwrite_frame {A : List StatePart} {s₀ : State} {s : State} (h : s₀.Frame A s) (p : Nat) (h : Nat) (d : Desc) (ha : [.psched] ⊆ A := by first | exact StatePart.sub (by assumption) (by decide) | decide) : s₀.Frame A (applyDwrite s p h d) := by
  unfold applyDwrite
  extract_lets x0 x1 x2 x3
  have h3 : s₀.Frame A x3 := by
    unfold x3
    repeat' first | with_reducible assumption | with_reducible exact State.Frame.refl _ _ | fail_if_no_progress extract_lets | exact StatePart.sub ha (by decide) | with_reducible apply updSched_frame | with_reducible apply setDesc_frame | with_reducible refine ite_frame ?_ ?_ | split | fail_if_no_progress ((with_reducible refine State.Frame.lit ?_ ?_ ?_ ?_ ?_ ?_ ?_ ?_ ?_ ?_ ?_ ?_ ?_ ?_ ?_ ?_ ?_ ?_ ?_ ?_ ?_ ?_ ?_ ?_ ?_ ?_ ?_ ?_ ?_) <;> first | with_reducible exact Or.inr rfl | exact Or.inl (ha (by decide)) | skip) | dsimp +zetaDelta only
  clear_value x3
  repeat' first | with_reducible assumption | with_reducible exact State.Frame.refl _ _ | fail_if_no_progress extract_lets | exact StatePart.sub ha (by decide) | with_reducible apply updSched_frame | with_reducible apply setDesc_frame | with_reducible refine ite_frame ?_ ?_ | split | fail_if_no_progress ((with_reducible refine State.Frame.lit ?_ ?_ ?_ ?_ ?_ ?_ ?_ ?_ ?_ ?_ ?_ ?_ ?_ ?_ ?_ ?_ ?_ ?_ ?_ ?_ ?_ ?_ ?_ ?_ ?_ ?_ ?_ ?_ ?_) <;> first | with_reducible exact Or.inr rfl | exact Or.inl (ha (by decide)) | skip) | dsimp +zetaDelta only

theorem endDwrite_frame {A : List StatePart} {s : State} {x : Out} (h : Out.Frame A s x) (n : Nat) (ha : [.rings, .link, .psched, .free] ⊆ A := by first | exact StatePart.sub (by assumption) (by decide) | decide) : Out.Frame A s (endDwrite n x) := by
  obtain ⟨t, rfl, ht⟩ := h
  unfold endDwrite
  dsimp only
  split
  · exact next_frame (finishOp_frame ht _ _ ha)
  · exact next_frame ht

theorem execDwrite_frame {A : List StatePart} (s : State) (ring : BitVec 6) (ha : [.rings, .link, .mem, .can, .psched, .free, .log] ⊆ A := by first | exact StatePart.sub (by assumption) (by decide) | decide) : Out.Frame A s (execDwrite ring s) := by
  unfold execDwrite
  refine endDwrite_frame ?_ _ (StatePart.sub ha (by decide))
  repeat' first | with_reducible assumption | with_reducible exact State.Frame.refl _ _ | fail_if_no_progress extract_lets | exact StatePart.sub ha (by decide) | with_reducible apply touch_frame | with_reducible apply dispatchHead_frame | with_reducible apply applyDwrite_frame | with_reducible apply endDwrite_frame | intro _ _ | dsimp only | with_reducible refine next_frame ?_ | with_reducible refine ite_frame ?_ ?_ | split | fail_if_no_progress ((with_reducible refine State.Frame.lit ?_ ?_ ?_ ?_ ?_ ?_ ?_ ?_ ?_ ?_ ?_ ?_ ?_ ?_ ?_ ?_ ?_ ?_ ?_ ?_ ?_ ?_ ?_ ?_ ?_ ?_ ?_ ?_ ?_) <;> first | with_reducible exact Or.inr rfl | exact Or.inl (ha (by decide)) | skip) | dsimp only | dsimp +zetaDelta only

theorem execStashUpdate_frame {A : List StatePart} (s : State) (ring : BitVec 6) (ha : [.rings, .rooms, .link, .mem, .can, .psched, .free, .ports, .log, .events] ⊆ A := by first | exact StatePart.sub (by assumption) (by decide) | decide) : Out.Frame A s (execStashUpdate ring s) := by
  unfold execStashUpdate
  repeat' first | with_reducible assumption | with_reducible exact State.Frame.refl _ _ | fail_if_no_progress extract_lets | exact StatePart.sub ha (by decide) | with_reducible apply faultOp_frame | with_reducible apply finishOp_frame | with_reducible apply applyDwrite_frame | with_reducible refine act_frame ?_ | with_reducible refine next_frame ?_ | split | fail_if_no_progress ((with_reducible refine State.Frame.lit ?_ ?_ ?_ ?_ ?_ ?_ ?_ ?_ ?_ ?_ ?_ ?_ ?_ ?_ ?_ ?_ ?_ ?_ ?_ ?_ ?_ ?_ ?_ ?_ ?_ ?_ ?_ ?_ ?_) <;> first | with_reducible exact Or.inr rfl | exact Or.inl (ha (by decide)) | skip) | dsimp +zetaDelta only

theorem setScale_frame {A : List StatePart} {s₀ : State} {s : State} (h : s₀.Frame A s) (p : Nat) (i : Nat) (r : ScaleReg) (ha : [.psched] ⊆ A := by first | exact StatePart.sub (by assumption) (by decide) | decide) : s₀.Frame A (setScale s p i r) := by
  unfold setScale
  repeat' first | with_reducible assumption | with_reducible exact State.Frame.refl _ _ | fail_if_no_progress extract_lets | exact StatePart.sub ha (by decide) | with_reducible apply updSched_frame | split | fail_if_no_progress ((with_reducible refine State.Frame.lit ?_ ?_ ?_ ?_ ?_ ?_ ?_ ?_ ?_ ?_ ?_ ?_ ?_ ?_ ?_ ?_ ?_ ?_ ?_ ?_ ?_ ?_ ?_ ?_ ?_ ?_ ?_ ?_ ?_) <;> first | with_reducible exact Or.inr rfl | exact Or.inl (ha (by decide)) | skip)

theorem execSwrite_frame {A : List StatePart} (s : State) (ring : BitVec 6) (ha : [.rings, .link, .mem, .can, .psched, .free, .log] ⊆ A := by first | exact StatePart.sub (by assumption) (by decide) | decide) : Out.Frame A s (execSwrite ring s) := by
  unfold execSwrite
  repeat' first | with_reducible assumption | with_reducible exact State.Frame.refl _ _ | fail_if_no_progress extract_lets | exact StatePart.sub ha (by decide) | with_reducible apply touch_frame | with_reducible apply dispatchHead_frame | with_reducible apply setScale_frame | intro _ _ | dsimp only | with_reducible refine next_frame ?_ | split | fail_if_no_progress ((with_reducible refine State.Frame.lit ?_ ?_ ?_ ?_ ?_ ?_ ?_ ?_ ?_ ?_ ?_ ?_ ?_ ?_ ?_ ?_ ?_ ?_ ?_ ?_ ?_ ?_ ?_ ?_ ?_ ?_ ?_ ?_ ?_) <;> first | with_reducible exact Or.inr rfl | exact Or.inl (ha (by decide)) | skip) | dsimp only | dsimp +zetaDelta only

theorem execSread_frame {A : List StatePart} (s : State) (ring : BitVec 6) (ha : [.rings, .link, .mem, .can, .psched, .free, .log] ⊆ A := by first | exact StatePart.sub (by assumption) (by decide) | decide) : Out.Frame A s (execSread ring s) := by
  unfold execSread
  repeat' first | with_reducible assumption | with_reducible exact State.Frame.refl _ _ | fail_if_no_progress extract_lets | exact StatePart.sub ha (by decide) | with_reducible apply storeBytes_frame | with_reducible apply hideEarlier_frame | with_reducible apply dispatchHead_frame | intro _ _ | dsimp only | with_reducible refine next_frame ?_ | split | fail_if_no_progress ((with_reducible refine State.Frame.lit ?_ ?_ ?_ ?_ ?_ ?_ ?_ ?_ ?_ ?_ ?_ ?_ ?_ ?_ ?_ ?_ ?_ ?_ ?_ ?_ ?_ ?_ ?_ ?_ ?_ ?_ ?_ ?_ ?_) <;> first | with_reducible exact Or.inr rfl | exact Or.inl (ha (by decide)) | skip) | dsimp only | dsimp +zetaDelta only

theorem execHread_frame {A : List StatePart} (s : State) (ring : BitVec 6) (ha : [.rings, .link, .mem, .can, .psched, .free, .log] ⊆ A := by first | exact StatePart.sub (by assumption) (by decide) | decide) : Out.Frame A s (execHread ring s) := by
  unfold execHread
  repeat' first | with_reducible assumption | with_reducible exact State.Frame.refl _ _ | fail_if_no_progress extract_lets | exact StatePart.sub ha (by decide) | with_reducible apply storeBytes_frame | with_reducible apply hideEarlier_frame | with_reducible apply dispatchHead_frame | intro _ _ | dsimp only | with_reducible refine next_frame ?_ | split | fail_if_no_progress ((with_reducible refine State.Frame.lit ?_ ?_ ?_ ?_ ?_ ?_ ?_ ?_ ?_ ?_ ?_ ?_ ?_ ?_ ?_ ?_ ?_ ?_ ?_ ?_ ?_ ?_ ?_ ?_ ?_ ?_ ?_ ?_ ?_) <;> first | with_reducible exact Or.inr rfl | exact Or.inl (ha (by decide)) | skip) | dsimp only | dsimp +zetaDelta only

theorem execHclear_frame {A : List StatePart} (s : State) (ring : BitVec 6) (ha : [.rings, .link, .mem, .can, .psched, .free, .log] ⊆ A := by first | exact StatePart.sub (by assumption) (by decide) | decide) : Out.Frame A s (execHclear ring s) := by
  unfold execHclear
  repeat' first | with_reducible assumption | with_reducible exact State.Frame.refl _ _ | fail_if_no_progress extract_lets | exact StatePart.sub ha (by decide) | with_reducible apply updSched_frame | with_reducible apply dispatchHead_frame | intro _ _ | dsimp only | with_reducible refine next_frame ?_ | split | fail_if_no_progress ((with_reducible refine State.Frame.lit ?_ ?_ ?_ ?_ ?_ ?_ ?_ ?_ ?_ ?_ ?_ ?_ ?_ ?_ ?_ ?_ ?_ ?_ ?_ ?_ ?_ ?_ ?_ ?_ ?_ ?_ ?_ ?_ ?_) <;> first | with_reducible exact Or.inr rfl | exact Or.inl (ha (by decide)) | skip) | dsimp only | dsimp +zetaDelta only

/-! ### Runs -/

theorem dropProgram_frame {A : List StatePart} {s₀ : State} {s : State} (h : s₀.Frame A s) (p : Nat) (k : Nat) (ha : [.psched] ⊆ A := by first | exact StatePart.sub (by assumption) (by decide) | decide) : s₀.Frame A (dropProgram s p k) := by
  unfold dropProgram
  repeat' first | with_reducible assumption | with_reducible exact State.Frame.refl _ _ | fail_if_no_progress extract_lets | exact StatePart.sub ha (by decide) | with_reducible apply updSched_frame | split | fail_if_no_progress ((with_reducible refine State.Frame.lit ?_ ?_ ?_ ?_ ?_ ?_ ?_ ?_ ?_ ?_ ?_ ?_ ?_ ?_ ?_ ?_ ?_ ?_ ?_ ?_ ?_ ?_ ?_ ?_ ?_ ?_ ?_ ?_ ?_) <;> first | with_reducible exact Or.inr rfl | exact Or.inl (ha (by decide)) | skip)

theorem startLoad_frame {A : List StatePart} {s₀ : State} {s : State} (h : s₀.Frame A s) (n : Nat) (o : Op) (ha : [.rings, .rooms, .link, .mem, .can, .psched, .free, .ports, .log, .events] ⊆ A := by first | exact StatePart.sub (by assumption) (by decide) | decide) : s₀.Frame A (startLoad s n o) := by
  unfold startLoad
  extract_lets x0 x1 x2 x3 x4
  have h1 : s₀.Frame A x1 := by
    unfold x1
    repeat' first | with_reducible assumption | with_reducible exact State.Frame.refl _ _ | fail_if_no_progress extract_lets | exact StatePart.sub ha (by decide) | with_reducible apply updSched_frame | with_reducible apply takeFree_frame | with_reducible apply touch_frame | with_reducible apply updOp_frame | with_reducible apply faultOp_frame | with_reducible apply dropProgram_frame | with_reducible refine fst_frame (by assumption) ?_ | with_reducible refine snd_frame (by assumption) ?_ | split | fail_if_no_progress ((with_reducible refine State.Frame.lit ?_ ?_ ?_ ?_ ?_ ?_ ?_ ?_ ?_ ?_ ?_ ?_ ?_ ?_ ?_ ?_ ?_ ?_ ?_ ?_ ?_ ?_ ?_ ?_ ?_ ?_ ?_ ?_ ?_) <;> first | with_reducible exact Or.inr rfl | exact Or.inl (ha (by decide)) | skip) | dsimp +zetaDelta only
  clear_value x1
  have h4 : s₀.Frame A x4 := by
    unfold x4
    repeat' first | with_reducible assumption | with_reducible exact State.Frame.refl _ _ | fail_if_no_progress extract_lets | exact StatePart.sub ha (by decide) | with_reducible apply updSched_frame | with_reducible apply takeFree_frame | with_reducible apply touch_frame | with_reducible apply updOp_frame | with_reducible apply faultOp_frame | with_reducible apply dropProgram_frame | with_reducible refine fst_frame (by assumption) ?_ | with_reducible refine snd_frame (by assumption) ?_ | split | fail_if_no_progress ((with_reducible refine State.Frame.lit ?_ ?_ ?_ ?_ ?_ ?_ ?_ ?_ ?_ ?_ ?_ ?_ ?_ ?_ ?_ ?_ ?_ ?_ ?_ ?_ ?_ ?_ ?_ ?_ ?_ ?_ ?_ ?_ ?_) <;> first | with_reducible exact Or.inr rfl | exact Or.inl (ha (by decide)) | skip) | dsimp +zetaDelta only
  clear_value x4
  repeat' first | with_reducible assumption | with_reducible exact State.Frame.refl _ _ | fail_if_no_progress extract_lets | exact StatePart.sub ha (by decide) | with_reducible apply updSched_frame | with_reducible apply takeFree_frame | with_reducible apply touch_frame | with_reducible apply updOp_frame | with_reducible apply faultOp_frame | with_reducible apply dropProgram_frame | with_reducible refine fst_frame (by assumption) ?_ | with_reducible refine snd_frame (by assumption) ?_ | split | fail_if_no_progress ((with_reducible refine State.Frame.lit ?_ ?_ ?_ ?_ ?_ ?_ ?_ ?_ ?_ ?_ ?_ ?_ ?_ ?_ ?_ ?_ ?_ ?_ ?_ ?_ ?_ ?_ ?_ ?_ ?_ ?_ ?_ ?_ ?_) <;> first | with_reducible exact Or.inr rfl | exact Or.inl (ha (by decide)) | skip) | dsimp +zetaDelta only

theorem endUnload_frame {A : List StatePart} {s₀ : State} {s : State} (h : s₀.Frame A s) (n : Nat) (o : Op) (ha : [.rings, .psched] ⊆ A := by first | exact StatePart.sub (by assumption) (by decide) | decide) : s₀.Frame A (endUnload s n o) := by
  unfold endUnload
  repeat' first | with_reducible assumption | with_reducible exact State.Frame.refl _ _ | fail_if_no_progress extract_lets | exact StatePart.sub ha (by decide) | with_reducible apply updOp_frame | with_reducible apply dropProgram_frame | split | fail_if_no_progress ((with_reducible refine State.Frame.lit ?_ ?_ ?_ ?_ ?_ ?_ ?_ ?_ ?_ ?_ ?_ ?_ ?_ ?_ ?_ ?_ ?_ ?_ ?_ ?_ ?_ ?_ ?_ ?_ ?_ ?_ ?_ ?_ ?_) <;> first | with_reducible exact Or.inr rfl | exact Or.inl (ha (by decide)) | skip)

theorem execLoadp_frame {A : List StatePart} (s : State) (ring : BitVec 6) (ha : [.rings, .rooms, .link, .mem, .can, .psched, .free, .ports, .log, .events] ⊆ A := by first | exact StatePart.sub (by assumption) (by decide) | decide) : Out.Frame A s (execLoadp ring s) := by
  unfold execLoadp
  repeat' first | with_reducible assumption | with_reducible exact State.Frame.refl _ _ | fail_if_no_progress extract_lets | exact StatePart.sub ha (by decide) | with_reducible apply dispatchHead_frame | with_reducible apply startLoad_frame | with_reducible apply dropProgram_frame | intro _ _ | dsimp only | with_reducible refine act_frame ?_ | with_reducible refine next_frame ?_ | split | fail_if_no_progress ((with_reducible refine State.Frame.lit ?_ ?_ ?_ ?_ ?_ ?_ ?_ ?_ ?_ ?_ ?_ ?_ ?_ ?_ ?_ ?_ ?_ ?_ ?_ ?_ ?_ ?_ ?_ ?_ ?_ ?_ ?_ ?_ ?_) <;> first | with_reducible exact Or.inr rfl | exact Or.inl (ha (by decide)) | skip) | dsimp only | dsimp +zetaDelta only

theorem execTranslationComplete_frame {A : List StatePart} (s : State) (ring : BitVec 6) (seq : BitVec 64) (ha : [.rings, .rooms, .psched] ⊆ A := by first | exact StatePart.sub (by assumption) (by decide) | decide) : Out.Frame A s (execTranslationComplete ring seq s) := by
  unfold execTranslationComplete
  repeat' first | with_reducible assumption | with_reducible exact State.Frame.refl _ _ | fail_if_no_progress extract_lets | exact StatePart.sub ha (by decide) | with_reducible apply updSched_frame | with_reducible apply updRoom_frame | with_reducible apply updOp_frame | with_reducible refine each_frame (fun _ _ => ?_) ?_ | with_reducible refine act_frame ?_ | with_reducible refine next_frame ?_ | split | fail_if_no_progress ((with_reducible refine State.Frame.lit ?_ ?_ ?_ ?_ ?_ ?_ ?_ ?_ ?_ ?_ ?_ ?_ ?_ ?_ ?_ ?_ ?_ ?_ ?_ ?_ ?_ ?_ ?_ ?_ ?_ ?_ ?_ ?_ ?_) <;> first | with_reducible exact Or.inr rfl | exact Or.inl (ha (by decide)) | skip) | dsimp +zetaDelta only

theorem execUnloadp_frame {A : List StatePart} (s : State) (ring : BitVec 6) (ha : [.rings, .link, .mem, .can, .psched, .free, .log] ⊆ A := by first | exact StatePart.sub (by assumption) (by decide) | decide) : Out.Frame A s (execUnloadp ring s) := by
  unfold execUnloadp
  repeat' first | with_reducible assumption | with_reducible exact State.Frame.refl _ _ | fail_if_no_progress extract_lets | exact StatePart.sub ha (by decide) | with_reducible apply dispatchHead_frame | with_reducible apply endUnload_frame | intro _ _ | dsimp only | with_reducible refine act_frame ?_ | with_reducible refine next_frame ?_ | split | fail_if_no_progress ((with_reducible refine State.Frame.lit ?_ ?_ ?_ ?_ ?_ ?_ ?_ ?_ ?_ ?_ ?_ ?_ ?_ ?_ ?_ ?_ ?_ ?_ ?_ ?_ ?_ ?_ ?_ ?_ ?_ ?_ ?_ ?_ ?_) <;> first | with_reducible exact Or.inr rfl | exact Or.inl (ha (by decide)) | skip) | dsimp only | dsimp +zetaDelta only

theorem runSlots_frame {A : List StatePart} {s₀ : State} {s : State} (h : s₀.Frame A s) (p : Nat) (o : Op) (ha : [.psched] ⊆ A := by first | exact StatePart.sub (by assumption) (by decide) | decide) : s₀.Frame A (runSlots s p o) := by
  unfold runSlots
  repeat' first | with_reducible assumption | with_reducible exact State.Frame.refl _ _ | fail_if_no_progress extract_lets | exact StatePart.sub ha (by decide) | with_reducible apply updSched_frame | with_reducible refine each_frame (fun _ _ => ?_) ?_ | with_reducible refine ite_frame ?_ ?_ | split | fail_if_no_progress ((with_reducible refine State.Frame.lit ?_ ?_ ?_ ?_ ?_ ?_ ?_ ?_ ?_ ?_ ?_ ?_ ?_ ?_ ?_ ?_ ?_ ?_ ?_ ?_ ?_ ?_ ?_ ?_ ?_ ?_ ?_ ?_ ?_) <;> first | with_reducible exact Or.inr rfl | exact Or.inl (ha (by decide)) | skip) | dsimp +zetaDelta only

theorem startRun_frame {A : List StatePart} {s₀ : State} {s : State} (h : s₀.Frame A s) (n : Nat) (o : Op) (ha : [.mem, .psched] ⊆ A := by first | exact StatePart.sub (by assumption) (by decide) | decide) : s₀.Frame A (startRun s n o).1 := by
  unfold startRun
  extract_lets x0
  repeat' first | with_reducible assumption | with_reducible exact State.Frame.refl _ _ | fail_if_no_progress extract_lets | exact StatePart.sub ha (by decide) | with_reducible apply touch_frame | with_reducible apply runSlots_frame | with_reducible refine foldl_frame (fun _ _ => ?_) ?_ | split | fail_if_no_progress ((with_reducible refine State.Frame.lit ?_ ?_ ?_ ?_ ?_ ?_ ?_ ?_ ?_ ?_ ?_ ?_ ?_ ?_ ?_ ?_ ?_ ?_ ?_ ?_ ?_ ?_ ?_ ?_ ?_ ?_ ?_ ?_ ?_) <;> first | with_reducible exact Or.inr rfl | exact Or.inl (ha (by decide)) | skip) | dsimp +zetaDelta only

theorem execRun_frame {A : List StatePart} (s : State) (ring : BitVec 6) (ha : [.rings, .link, .mem, .can, .psched, .free, .log] ⊆ A := by first | exact StatePart.sub (by assumption) (by decide) | decide) : Out.Frame A s (execRun ring s) := by
  unfold execRun
  repeat' first | with_reducible assumption | with_reducible exact State.Frame.refl _ _ | fail_if_no_progress extract_lets | exact StatePart.sub ha (by decide) | with_reducible apply dispatchHead_frame | with_reducible apply startRun_frame | with_reducible refine fst_frame (by assumption) ?_ | with_reducible refine snd_frame (by assumption) ?_ | intro _ _ | dsimp only | with_reducible refine next_frame ?_ | split | fail_if_no_progress ((with_reducible refine State.Frame.lit ?_ ?_ ?_ ?_ ?_ ?_ ?_ ?_ ?_ ?_ ?_ ?_ ?_ ?_ ?_ ?_ ?_ ?_ ?_ ?_ ?_ ?_ ?_ ?_ ?_ ?_ ?_ ?_ ?_) <;> first | with_reducible exact Or.inr rfl | exact Or.inl (ha (by decide)) | skip) | dsimp only | dsimp +zetaDelta only

/-! ### RoomOps -/

theorem roomStores_frame {A : List StatePart} {s₀ s : State} (h : s₀.Frame A s) (n : Nat) {f : State → State} (hf : ∀ x, s₀.Frame A x → s₀.Frame A (f x))
    (ha : [.psched] ⊆ A := by first | exact StatePart.sub (by assumption) (by decide) | decide) : s₀.Frame A (s.roomStores n f) := by
  unfold State.roomStores
  split
  · exact endStore_frame (hf _ (beginStore_frame h _ _ ha)) _ ha
  · exact hf _ h

theorem raiseThrough_frame {A : List StatePart} {s₀ : State} {s : State} (h : s₀.Frame A s) (n : Nat) (b : Nat) (f : Flags) (ha : [.rings] ⊆ A := by first | exact StatePart.sub (by assumption) (by decide) | decide) : s₀.Frame A (raiseThrough s n b f) := by
  unfold raiseThrough
  repeat' first | with_reducible assumption | with_reducible exact State.Frame.refl _ _ | fail_if_no_progress extract_lets | exact StatePart.sub ha (by decide) | with_reducible apply updOp_frame | split | fail_if_no_progress ((with_reducible refine State.Frame.lit ?_ ?_ ?_ ?_ ?_ ?_ ?_ ?_ ?_ ?_ ?_ ?_ ?_ ?_ ?_ ?_ ?_ ?_ ?_ ?_ ?_ ?_ ?_ ?_ ?_ ?_ ?_ ?_ ?_) <;> first | with_reducible exact Or.inr rfl | exact Or.inl (ha (by decide)) | skip) | dsimp +zetaDelta only

theorem foldMax_frame {A : List StatePart} {s₀ : State} {s : State} (h : s₀.Frame A s) (p : Nat) (o : Op) (r : Room) (ha : [.psched] ⊆ A := by first | exact StatePart.sub (by assumption) (by decide) | decide) : s₀.Frame A (foldMax s p o r) := by
  unfold foldMax
  repeat' first | with_reducible assumption | with_reducible exact State.Frame.refl _ _ | fail_if_no_progress extract_lets | exact StatePart.sub ha (by decide) | with_reducible apply updSched_frame | with_reducible refine each_frame (fun _ _ => ?_) ?_ | with_reducible refine ite_frame ?_ ?_ | split | fail_if_no_progress ((with_reducible refine State.Frame.lit ?_ ?_ ?_ ?_ ?_ ?_ ?_ ?_ ?_ ?_ ?_ ?_ ?_ ?_ ?_ ?_ ?_ ?_ ?_ ?_ ?_ ?_ ?_ ?_ ?_ ?_ ?_ ?_ ?_) <;> first | with_reducible exact Or.inr rfl | exact Or.inl (ha (by decide)) | skip) | dsimp +zetaDelta only

theorem execShareComplete_frame {A : List StatePart} (s : State) (room : BitVec 7) (ha : [.rings, .rooms, .psched] ⊆ A := by first | exact StatePart.sub (by assumption) (by decide) | decide) : Out.Frame A s (execShareComplete room s) := by
  unfold execShareComplete
  repeat' first | with_reducible assumption | with_reducible exact State.Frame.refl _ _ | fail_if_no_progress extract_lets | exact StatePart.sub ha (by decide) | with_reducible apply updRoom_frame | with_reducible apply updOp_frame | with_reducible apply foldMax_frame | with_reducible refine foldl_frame (fun _ _ => ?_) ?_ | with_reducible refine act_frame ?_ | with_reducible refine next_frame ?_ | with_reducible refine ite_frame ?_ ?_ | split | fail_if_no_progress ((with_reducible refine State.Frame.lit ?_ ?_ ?_ ?_ ?_ ?_ ?_ ?_ ?_ ?_ ?_ ?_ ?_ ?_ ?_ ?_ ?_ ?_ ?_ ?_ ?_ ?_ ?_ ?_ ?_ ?_ ?_ ?_ ?_) <;> first | with_reducible exact Or.inr rfl | exact Or.inl (ha (by decide)) | skip) | dsimp +zetaDelta only

/-! ### Hearth -/

/-! ### Xfer -/

theorem touchOffsets_frame {A : List StatePart} {s₀ : State} {s : State} (h : s₀.Frame A s) (d : Desc) (os : List Int) (ha : [.mem] ⊆ A := by first | exact StatePart.sub (by assumption) (by decide) | decide) : s₀.Frame A (touchOffsets s d os) := by
  unfold touchOffsets
  repeat' first | with_reducible assumption | with_reducible exact State.Frame.refl _ _ | fail_if_no_progress extract_lets | exact StatePart.sub ha (by decide) | with_reducible apply touch_frame | with_reducible refine foldl_frame (fun _ _ => ?_) ?_ | split | fail_if_no_progress ((with_reducible refine State.Frame.lit ?_ ?_ ?_ ?_ ?_ ?_ ?_ ?_ ?_ ?_ ?_ ?_ ?_ ?_ ?_ ?_ ?_ ?_ ?_ ?_ ?_ ?_ ?_ ?_ ?_ ?_ ?_ ?_ ?_) <;> first | with_reducible exact Or.inr rfl | exact Or.inl (ha (by decide)) | skip) | dsimp +zetaDelta only

theorem loadNote_frame {A : List StatePart} {t s : State} (h : t.Frame A s) (n : Nat) (f : Flags) (ha : [.rings] ⊆ A := by first | exact StatePart.sub (by assumption) (by decide) | decide) : t.Frame A (loadTile.note s n f) := by
  unfold loadTile.note
  split
  · exact updOp_frame h _ _ _
  · exact h

theorem loadTile_frame {A : List StatePart} {t s : State} (h : t.Frame A s) (n : Nat) (o : Pend) (w : XSlot) (ha : [.rings, .rooms, .mem] ⊆ A := by first | exact StatePart.sub (by assumption) (by decide) | decide) : t.Frame A (loadTile s n o w) := by
  unfold loadTile
  repeat' first | with_reducible assumption | exact StatePart.sub ha (by decide) | fail_if_no_progress extract_lets | with_reducible apply updRoom_frame | with_reducible apply touchOffsets_frame | with_reducible apply loadNote_frame | with_reducible refine foldl_frame (fun _ _ => ?_) ?_ | with_reducible apply touch_frame | with_reducible exact State.Frame.refl _ _ | split | dsimp +zetaDelta only

theorem loadWindow_frame {A : List StatePart} {t s : State} (h : t.Frame A s) (n : Nat) (o : Pend) (w : XSlot) (ha : [.rings, .rooms, .mem] ⊆ A := by first | exact StatePart.sub (by assumption) (by decide) | decide) : t.Frame A (loadWindow s n o w) := by
  unfold loadWindow
  repeat' first | with_reducible assumption | exact StatePart.sub ha (by decide) | fail_if_no_progress extract_lets | with_reducible apply updRoom_frame | with_reducible apply touchOffsets_frame | with_reducible apply loadNote_frame | with_reducible refine foldl_frame (fun _ _ => ?_) ?_ | with_reducible apply touch_frame | with_reducible exact State.Frame.refl _ _ | split | dsimp +zetaDelta only

theorem transposeTile_frame {A : List StatePart} {s₀ : State} {s : State} (h : s₀.Frame A s) (n : Nat) (w : XSlot) (ha : [.rooms] ⊆ A := by first | exact StatePart.sub (by assumption) (by decide) | decide) : s₀.Frame A (transposeTile s n w) := by
  unfold transposeTile
  repeat' first | with_reducible assumption | with_reducible exact State.Frame.refl _ _ | fail_if_no_progress extract_lets | exact StatePart.sub ha (by decide) | with_reducible apply updRoom_frame | split | fail_if_no_progress ((with_reducible refine State.Frame.lit ?_ ?_ ?_ ?_ ?_ ?_ ?_ ?_ ?_ ?_ ?_ ?_ ?_ ?_ ?_ ?_ ?_ ?_ ?_ ?_ ?_ ?_ ?_ ?_ ?_ ?_ ?_ ?_ ?_) <;> first | with_reducible exact Or.inr rfl | exact Or.inl (ha (by decide)) | skip) | dsimp +zetaDelta only

theorem roomPrepass_frame {A : List StatePart} {s₀ : State} {s : State} (h : s₀.Frame A s) (n : Nat) (d : Desc) (ha : [.psched] ⊆ A := by first | exact StatePart.sub (by assumption) (by decide) | decide) : s₀.Frame A (roomPrepass s n d).1 := by
  unfold roomPrepass
  extract_lets x0
  repeat' first | with_reducible assumption | with_reducible exact State.Frame.refl _ _ | fail_if_no_progress extract_lets | exact StatePart.sub ha (by decide) | with_reducible apply setScale_frame | with_reducible refine ite_frame ?_ ?_ | split | fail_if_no_progress ((with_reducible refine State.Frame.lit ?_ ?_ ?_ ?_ ?_ ?_ ?_ ?_ ?_ ?_ ?_ ?_ ?_ ?_ ?_ ?_ ?_ ?_ ?_ ?_ ?_ ?_ ?_ ?_ ?_ ?_ ?_ ?_ ?_) <;> first | with_reducible exact Or.inr rfl | exact Or.inl (ha (by decide)) | skip) | dsimp +zetaDelta only

theorem storeCells_frame {A : List StatePart} {s₀ : State} {s : State} (h : s₀.Frame A s) (n : Nat) (b : Nat) (d : Desc) (src : Int) (os : List Int) (vs : List (Num × Bool)) (own : Flags) (ha : [.rings, .mem, .psched] ⊆ A := by first | exact StatePart.sub (by assumption) (by decide) | decide) : s₀.Frame A (storeCells s n b d src os vs own) := by
  unfold storeCells
  extract_lets x0
  repeat' first | with_reducible assumption | with_reducible exact State.Frame.refl _ _ | fail_if_no_progress extract_lets | exact StatePart.sub ha (by decide) | with_reducible apply drainSink_frame | with_reducible apply raiseThrough_frame | with_reducible apply roomPrepass_frame | with_reducible refine fst_frame (by assumption) ?_ | with_reducible refine snd_frame (by assumption) ?_ | with_reducible refine foldl_frame (fun _ _ => ?_) ?_ | with_reducible refine ite_frame ?_ ?_ | split | fail_if_no_progress ((with_reducible refine State.Frame.lit ?_ ?_ ?_ ?_ ?_ ?_ ?_ ?_ ?_ ?_ ?_ ?_ ?_ ?_ ?_ ?_ ?_ ?_ ?_ ?_ ?_ ?_ ?_ ?_ ?_ ?_ ?_ ?_ ?_) <;> first | with_reducible exact Or.inr rfl | exact Or.inl (ha (by decide)) | skip) | dsimp +zetaDelta only

theorem storeRaw_frame {A : List StatePart} {s₀ : State} {s : State} (h : s₀.Frame A s) (n : Nat) (b : Nat) (d : Desc) (os : List Int) (vs : List (Nat × Bool)) (ha : [.rings, .mem, .psched] ⊆ A := by first | exact StatePart.sub (by assumption) (by decide) | decide) : s₀.Frame A (storeRaw s n b d os vs) := by
  unfold storeRaw
  extract_lets x0
  have h0 : s₀.Frame A x0 := by
    unfold x0
    repeat' first | with_reducible assumption | with_reducible exact State.Frame.refl _ _ | fail_if_no_progress extract_lets | exact StatePart.sub ha (by decide) | with_reducible apply streamStore_frame | with_reducible apply raiseThrough_frame | with_reducible refine foldl_frame (fun _ _ => ?_) ?_ | split | fail_if_no_progress ((with_reducible refine State.Frame.lit ?_ ?_ ?_ ?_ ?_ ?_ ?_ ?_ ?_ ?_ ?_ ?_ ?_ ?_ ?_ ?_ ?_ ?_ ?_ ?_ ?_ ?_ ?_ ?_ ?_ ?_ ?_ ?_ ?_) <;> first | with_reducible exact Or.inr rfl | exact Or.inl (ha (by decide)) | skip) | dsimp +zetaDelta only
  clear_value x0
  repeat' first | with_reducible assumption | with_reducible exact State.Frame.refl _ _ | fail_if_no_progress extract_lets | exact StatePart.sub ha (by decide) | with_reducible apply streamStore_frame | with_reducible apply raiseThrough_frame | with_reducible refine foldl_frame (fun _ _ => ?_) ?_ | split | fail_if_no_progress ((with_reducible refine State.Frame.lit ?_ ?_ ?_ ?_ ?_ ?_ ?_ ?_ ?_ ?_ ?_ ?_ ?_ ?_ ?_ ?_ ?_ ?_ ?_ ?_ ?_ ?_ ?_ ?_ ?_ ?_ ?_ ?_ ?_) <;> first | with_reducible exact Or.inr rfl | exact Or.inl (ha (by decide)) | skip) | dsimp +zetaDelta only

theorem storeTile_frame {A : List StatePart} {s₀ : State} {s : State} (h : s₀.Frame A s) (n : Nat) (o : Pend) (w : XSlot) (ha : [.rings, .mem, .psched] ⊆ A := by first | exact StatePart.sub (by assumption) (by decide) | decide) : s₀.Frame A (storeTile s n o w) := by
  unfold storeTile
  repeat' first | with_reducible assumption | with_reducible exact State.Frame.refl _ _ | fail_if_no_progress extract_lets | exact StatePart.sub ha (by decide) | with_reducible apply raiseThrough_frame | with_reducible apply storeCells_frame | with_reducible apply storeRaw_frame | with_reducible refine ite_frame ?_ ?_ | split | fail_if_no_progress ((with_reducible refine State.Frame.lit ?_ ?_ ?_ ?_ ?_ ?_ ?_ ?_ ?_ ?_ ?_ ?_ ?_ ?_ ?_ ?_ ?_ ?_ ?_ ?_ ?_ ?_ ?_ ?_ ?_ ?_ ?_ ?_ ?_) <;> first | with_reducible exact Or.inr rfl | exact Or.inl (ha (by decide)) | skip) | dsimp +zetaDelta only

/-! ### Matrix -/

theorem execMatrixResult_frame {A : List StatePart} (s : State) (room : BitVec 7) (ha : [.rooms] ⊆ A := by first | exact StatePart.sub (by assumption) (by decide) | decide) : Out.Frame A s (execMatrixResult room s) := by
  unfold execMatrixResult
  repeat' first | with_reducible assumption | with_reducible exact State.Frame.refl _ _ | fail_if_no_progress extract_lets | exact StatePart.sub ha (by decide) | with_reducible apply updRoom_frame | with_reducible refine act_frame ?_ | with_reducible refine next_frame ?_ | with_reducible refine ite_frame ?_ ?_ | split | fail_if_no_progress ((with_reducible refine State.Frame.lit ?_ ?_ ?_ ?_ ?_ ?_ ?_ ?_ ?_ ?_ ?_ ?_ ?_ ?_ ?_ ?_ ?_ ?_ ?_ ?_ ?_ ?_ ?_ ?_ ?_ ?_ ?_ ?_ ?_) <;> first | with_reducible exact Or.inr rfl | exact Or.inl (ha (by decide)) | skip) | dsimp +zetaDelta only

/-! ### Vector -/

theorem vgath_frame {A : List StatePart} {t s : State} (h : t.Frame A s) (n : Nat) (o : Pend) (w : VSlot) (ha : [.rings, .rooms, .mem] ⊆ A := by first | exact StatePart.sub (by assumption) (by decide) | decide) : t.Frame A (vgath s n o w) := by
  unfold vgath
  repeat' first | with_reducible assumption | exact StatePart.sub ha (by decide) | fail_if_no_progress extract_lets | with_reducible apply updRoom_frame | with_reducible apply touchOffsets_frame | with_reducible apply loadNote_frame | with_reducible refine foldl_frame (fun _ _ => ?_) ?_ | with_reducible apply touch_frame | with_reducible exact State.Frame.refl _ _ | split | dsimp +zetaDelta only

theorem countScat_frame {A : List StatePart} {s₀ : State} {s : State} (h : s₀.Frame A s) (p : Nat) (d : Desc) (x : Num) (po : Bool) (ha : [.psched] ⊆ A := by first | exact StatePart.sub (by assumption) (by decide) | decide) : s₀.Frame A (countScat s p d x po) := by
  unfold countScat
  repeat' first | with_reducible assumption | with_reducible exact State.Frame.refl _ _ | fail_if_no_progress extract_lets | exact StatePart.sub ha (by decide) | with_reducible apply updSched_frame | with_reducible refine ite_frame ?_ ?_ | split | fail_if_no_progress ((with_reducible refine State.Frame.lit ?_ ?_ ?_ ?_ ?_ ?_ ?_ ?_ ?_ ?_ ?_ ?_ ?_ ?_ ?_ ?_ ?_ ?_ ?_ ?_ ?_ ?_ ?_ ?_ ?_ ?_ ?_ ?_ ?_) <;> first | with_reducible exact Or.inr rfl | exact Or.inl (ha (by decide)) | skip)

theorem vscat_frame {A : List StatePart} {t s : State} (h : t.Frame A s) (n : Nat) (o : Pend) (w : VSlot) (ha : [.rooms, .mem, .psched] ⊆ A := by first | exact StatePart.sub (by assumption) (by decide) | decide) : t.Frame A (vscat s n o w) := by
  unfold vscat
  extract_lets r f src p d els
  clear_value src
  refine updRoom_frame ?_ _ _
  exact foldl_fst_frame (fun a x => countScat_frame (streamStore_frame (State.Frame.refl A a.1) _ _ _ _ (StatePart.sub ha (by decide))) _ _ _ _ (StatePart.sub ha (by decide))) h

/-! ### Row -/

theorem rowCommand_frame {A : List StatePart} (s : State) (room : BitVec 7) (sub : Nat) (ha : [.rooms] ⊆ A := by first | exact StatePart.sub (by assumption) (by decide) | decide) : Out.Frame A s (rowCommand room sub s) := by
  unfold rowCommand
  repeat' first | with_reducible assumption | with_reducible exact State.Frame.refl _ _ | fail_if_no_progress extract_lets | exact StatePart.sub ha (by decide) | with_reducible apply updRoom_frame | with_reducible refine act_frame ?_ | with_reducible refine next_frame ?_ | split | fail_if_no_progress ((with_reducible refine State.Frame.lit ?_ ?_ ?_ ?_ ?_ ?_ ?_ ?_ ?_ ?_ ?_ ?_ ?_ ?_ ?_ ?_ ?_ ?_ ?_ ?_ ?_ ?_ ?_ ?_ ?_ ?_ ?_ ?_ ?_) <;> first | with_reducible exact Or.inr rfl | exact Or.inl (ha (by decide)) | skip) | dsimp +zetaDelta only

theorem execNorm_frame {A : List StatePart} (s : State) (room : BitVec 7) (ha : [.rooms] ⊆ A := by first | exact StatePart.sub (by assumption) (by decide) | decide) : Out.Frame A s (execNorm room s) := by
  unfold execNorm
  repeat' first | with_reducible assumption | with_reducible exact State.Frame.refl _ _ | exact StatePart.sub ha (by decide) | with_reducible apply rowCommand_frame | with_reducible refine next_frame ?_ | split | fail_if_no_progress ((with_reducible refine State.Frame.lit ?_ ?_ ?_ ?_ ?_ ?_ ?_ ?_ ?_ ?_ ?_ ?_ ?_ ?_ ?_ ?_ ?_ ?_ ?_ ?_ ?_ ?_ ?_ ?_ ?_ ?_ ?_ ?_ ?_) <;> first | with_reducible exact Or.inr rfl | exact Or.inl (ha (by decide)) | skip)

theorem execRms_frame {A : List StatePart} (s : State) (room : BitVec 7) (ha : [.rooms] ⊆ A := by first | exact StatePart.sub (by assumption) (by decide) | decide) : Out.Frame A s (execRms room s) := by
  unfold execRms
  repeat' first | with_reducible assumption | with_reducible exact State.Frame.refl _ _ | exact StatePart.sub ha (by decide) | with_reducible apply rowCommand_frame | with_reducible refine next_frame ?_ | split | fail_if_no_progress ((with_reducible refine State.Frame.lit ?_ ?_ ?_ ?_ ?_ ?_ ?_ ?_ ?_ ?_ ?_ ?_ ?_ ?_ ?_ ?_ ?_ ?_ ?_ ?_ ?_ ?_ ?_ ?_ ?_ ?_ ?_ ?_ ?_) <;> first | with_reducible exact Or.inr rfl | exact Or.inl (ha (by decide)) | skip)

theorem execSmax_frame {A : List StatePart} (s : State) (room : BitVec 7) (ha : [.rooms] ⊆ A := by first | exact StatePart.sub (by assumption) (by decide) | decide) : Out.Frame A s (execSmax room s) := by
  unfold execSmax
  repeat' first | with_reducible assumption | with_reducible exact State.Frame.refl _ _ | exact StatePart.sub ha (by decide) | with_reducible apply rowCommand_frame | with_reducible refine next_frame ?_ | split | fail_if_no_progress ((with_reducible refine State.Frame.lit ?_ ?_ ?_ ?_ ?_ ?_ ?_ ?_ ?_ ?_ ?_ ?_ ?_ ?_ ?_ ?_ ?_ ?_ ?_ ?_ ?_ ?_ ?_ ?_ ?_ ?_ ?_ ?_ ?_) <;> first | with_reducible exact Or.inr rfl | exact Or.inl (ha (by decide)) | skip)

theorem execNormb_frame {A : List StatePart} (s : State) (room : BitVec 7) (ha : [.rooms] ⊆ A := by first | exact StatePart.sub (by assumption) (by decide) | decide) : Out.Frame A s (execNormb room s) := by
  unfold execNormb
  repeat' first | with_reducible assumption | with_reducible exact State.Frame.refl _ _ | exact StatePart.sub ha (by decide) | with_reducible apply rowCommand_frame | with_reducible refine next_frame ?_ | split | fail_if_no_progress ((with_reducible refine State.Frame.lit ?_ ?_ ?_ ?_ ?_ ?_ ?_ ?_ ?_ ?_ ?_ ?_ ?_ ?_ ?_ ?_ ?_ ?_ ?_ ?_ ?_ ?_ ?_ ?_ ?_ ?_ ?_ ?_ ?_) <;> first | with_reducible exact Or.inr rfl | exact Or.inl (ha (by decide)) | skip)

theorem execRmsb_frame {A : List StatePart} (s : State) (room : BitVec 7) (ha : [.rooms] ⊆ A := by first | exact StatePart.sub (by assumption) (by decide) | decide) : Out.Frame A s (execRmsb room s) := by
  unfold execRmsb
  repeat' first | with_reducible assumption | with_reducible exact State.Frame.refl _ _ | exact StatePart.sub ha (by decide) | with_reducible apply rowCommand_frame | with_reducible refine next_frame ?_ | split | fail_if_no_progress ((with_reducible refine State.Frame.lit ?_ ?_ ?_ ?_ ?_ ?_ ?_ ?_ ?_ ?_ ?_ ?_ ?_ ?_ ?_ ?_ ?_ ?_ ?_ ?_ ?_ ?_ ?_ ?_ ?_ ?_ ?_ ?_ ?_) <;> first | with_reducible exact Or.inr rfl | exact Or.inl (ha (by decide)) | skip)

theorem execSmaxb_frame {A : List StatePart} (s : State) (room : BitVec 7) (ha : [.rooms] ⊆ A := by first | exact StatePart.sub (by assumption) (by decide) | decide) : Out.Frame A s (execSmaxb room s) := by
  unfold execSmaxb
  repeat' first | with_reducible assumption | with_reducible exact State.Frame.refl _ _ | exact StatePart.sub ha (by decide) | with_reducible apply rowCommand_frame | with_reducible refine next_frame ?_ | split | fail_if_no_progress ((with_reducible refine State.Frame.lit ?_ ?_ ?_ ?_ ?_ ?_ ?_ ?_ ?_ ?_ ?_ ?_ ?_ ?_ ?_ ?_ ?_ ?_ ?_ ?_ ?_ ?_ ?_ ?_ ?_ ?_ ?_ ?_ ?_) <;> first | with_reducible exact Or.inr rfl | exact Or.inl (ha (by decide)) | skip)

/-! ### Issue -/

theorem roomFound_frame {A : List StatePart} {s₀ : State} {s : State} (h : s₀.Frame A s) (n : Nat) (c : RoomCheck) (ha : [.rings, .rooms, .link, .svc, .mem, .can, .psched, .free, .ports, .log, .events] ⊆ A := by first | exact StatePart.sub (by assumption) (by decide) | decide) : s₀.Frame A (roomFound s n c) := by
  unfold roomFound
  repeat' first | with_reducible assumption | with_reducible apply noteCorrected_frame | with_reducible apply noteUncorrectable_frame | with_reducible apply logEvent_frame | with_reducible apply memEvent_frame | with_reducible apply updRoom_frame | exact StatePart.sub ha (by decide) | split | fail_if_no_progress ((with_reducible refine State.Frame.lit ?_ ?_ ?_ ?_ ?_ ?_ ?_ ?_ ?_ ?_ ?_ ?_ ?_ ?_ ?_ ?_ ?_ ?_ ?_ ?_ ?_ ?_ ?_ ?_ ?_ ?_ ?_ ?_ ?_) <;> first | with_reducible exact Or.inr rfl | exact Or.inl (ha (by decide)) | skip) | dsimp +zetaDelta only

theorem releaseMatrix_frame {A : List StatePart} {s₀ : State} {s : State} (h : s₀.Frame A s) (n : Nat) (ha : [.rooms] ⊆ A := by first | exact StatePart.sub (by assumption) (by decide) | decide) : s₀.Frame A (releaseMatrix s n) := by
  unfold releaseMatrix
  repeat' first | with_reducible assumption | with_reducible exact State.Frame.refl _ _ | fail_if_no_progress extract_lets | exact StatePart.sub ha (by decide) | with_reducible apply updRoom_frame | with_reducible refine ite_frame ?_ ?_ | split | fail_if_no_progress ((with_reducible refine State.Frame.lit ?_ ?_ ?_ ?_ ?_ ?_ ?_ ?_ ?_ ?_ ?_ ?_ ?_ ?_ ?_ ?_ ?_ ?_ ?_ ?_ ?_ ?_ ?_ ?_ ?_ ?_ ?_ ?_ ?_) <;> first | with_reducible exact Or.inr rfl | exact Or.inl (ha (by decide)) | skip)

theorem releaseVector_frame {A : List StatePart} {s₀ : State} {s : State} (h : s₀.Frame A s) (n : Nat) (ha : [.rings, .rooms, .mem, .psched] ⊆ A := by first | exact StatePart.sub (by assumption) (by decide) | decide) : s₀.Frame A (releaseVector s n) := by
  unfold releaseVector
  extract_lets x0
  repeat' first | with_reducible assumption | with_reducible exact State.Frame.refl _ _ | fail_if_no_progress extract_lets | exact StatePart.sub ha (by decide) | with_reducible apply updRoom_frame | with_reducible refine roomStores_frame ?_ _ (fun _ _ => ?_) ?_ | with_reducible apply vgath_frame | with_reducible apply vscat_frame | with_reducible refine ite_frame ?_ ?_ | split | fail_if_no_progress ((with_reducible refine State.Frame.lit ?_ ?_ ?_ ?_ ?_ ?_ ?_ ?_ ?_ ?_ ?_ ?_ ?_ ?_ ?_ ?_ ?_ ?_ ?_ ?_ ?_ ?_ ?_ ?_ ?_ ?_ ?_ ?_ ?_) <;> first | with_reducible exact Or.inr rfl | exact Or.inl (ha (by decide)) | skip) | dsimp +zetaDelta only

theorem releaseRow_frame {A : List StatePart} {s₀ : State} {s : State} (h : s₀.Frame A s) (n : Nat) (ha : [.rooms] ⊆ A := by first | exact StatePart.sub (by assumption) (by decide) | decide) : s₀.Frame A (releaseRow s n) := by
  unfold releaseRow
  repeat' first | with_reducible assumption | with_reducible exact State.Frame.refl _ _ | fail_if_no_progress extract_lets | exact StatePart.sub ha (by decide) | with_reducible apply updRoom_frame | with_reducible refine ite_frame ?_ ?_ | split | fail_if_no_progress ((with_reducible refine State.Frame.lit ?_ ?_ ?_ ?_ ?_ ?_ ?_ ?_ ?_ ?_ ?_ ?_ ?_ ?_ ?_ ?_ ?_ ?_ ?_ ?_ ?_ ?_ ?_ ?_ ?_ ?_ ?_ ?_ ?_) <;> first | with_reducible exact Or.inr rfl | exact Or.inl (ha (by decide)) | skip)

theorem releaseLoad_frame {A : List StatePart} {s₀ : State} {s : State} (h : s₀.Frame A s) (n : Nat) (ha : [.rings, .rooms, .mem] ⊆ A := by first | exact StatePart.sub (by assumption) (by decide) | decide) : s₀.Frame A (releaseLoad s n) := by
  unfold releaseLoad
  extract_lets x0
  repeat' first | with_reducible assumption | with_reducible exact State.Frame.refl _ _ | fail_if_no_progress extract_lets | exact StatePart.sub ha (by decide) | with_reducible apply updRoom_frame | with_reducible apply loadTile_frame | with_reducible apply loadWindow_frame | with_reducible apply transposeTile_frame | with_reducible refine ite_frame ?_ ?_ | split | fail_if_no_progress ((with_reducible refine State.Frame.lit ?_ ?_ ?_ ?_ ?_ ?_ ?_ ?_ ?_ ?_ ?_ ?_ ?_ ?_ ?_ ?_ ?_ ?_ ?_ ?_ ?_ ?_ ?_ ?_ ?_ ?_ ?_ ?_ ?_) <;> first | with_reducible exact Or.inr rfl | exact Or.inl (ha (by decide)) | skip) | dsimp +zetaDelta only

theorem releaseStore_frame {A : List StatePart} {s₀ : State} {s : State} (h : s₀.Frame A s) (n : Nat) (ha : [.rings, .rooms, .mem, .psched] ⊆ A := by first | exact StatePart.sub (by assumption) (by decide) | decide) : s₀.Frame A (releaseStore s n) := by
  unfold releaseStore
  repeat' first | with_reducible assumption | with_reducible exact State.Frame.refl _ _ | fail_if_no_progress extract_lets | exact StatePart.sub ha (by decide) | with_reducible apply updRoom_frame | with_reducible refine roomStores_frame ?_ _ (fun _ _ => ?_) ?_ | with_reducible apply storeTile_frame | with_reducible refine ite_frame ?_ ?_ | split | fail_if_no_progress ((with_reducible refine State.Frame.lit ?_ ?_ ?_ ?_ ?_ ?_ ?_ ?_ ?_ ?_ ?_ ?_ ?_ ?_ ?_ ?_ ?_ ?_ ?_ ?_ ?_ ?_ ?_ ?_ ?_ ?_ ?_ ?_ ?_) <;> first | with_reducible exact Or.inr rfl | exact Or.inl (ha (by decide)) | skip) | dsimp +zetaDelta only

theorem releaseFrom_frame {A : List StatePart} {s₀ : State} {s : State} (h : s₀.Frame A s) (n : Nat) (eng : Engine) (ha : [.rings, .rooms, .mem, .psched] ⊆ A := by first | exact StatePart.sub (by assumption) (by decide) | decide) : s₀.Frame A (releaseFrom s n eng) := by
  unfold releaseFrom
  repeat' first | with_reducible assumption | with_reducible apply releaseMatrix_frame | with_reducible apply releaseVector_frame | with_reducible apply releaseRow_frame | with_reducible apply releaseLoad_frame | with_reducible apply releaseStore_frame | exact StatePart.sub ha (by decide) | split

theorem dropHead_frame {A : List StatePart} {s₀ : State} {s : State} (h : s₀.Frame A s) (n : Nat) (e : Engine) (ha : [.rooms] ⊆ A := by first | exact StatePart.sub (by assumption) (by decide) | decide) : s₀.Frame A (dropHead s n e) := by
  unfold dropHead
  repeat' first | with_reducible assumption | with_reducible exact State.Frame.refl _ _ | fail_if_no_progress extract_lets | exact StatePart.sub ha (by decide) | with_reducible apply updRoom_frame | split | fail_if_no_progress ((with_reducible refine State.Frame.lit ?_ ?_ ?_ ?_ ?_ ?_ ?_ ?_ ?_ ?_ ?_ ?_ ?_ ?_ ?_ ?_ ?_ ?_ ?_ ?_ ?_ ?_ ?_ ?_ ?_ ?_ ?_ ?_ ?_) <;> first | with_reducible exact Or.inr rfl | exact Or.inl (ha (by decide)) | skip)

theorem finishRoom_frame {A : List StatePart} {s₀ s : State} (h : s₀.Frame A s) (k n : Nat) (ha : [.rings, .rooms, .mem, .psched] ⊆ A := by first | exact StatePart.sub (by assumption) (by decide) | decide) : s₀.Frame A (finishRoom k s n) := by
  induction k generalizing s with
  | zero => exact h
  | succ k ih =>
    unfold finishRoom
    split
    · exact ih (ite_frame (dropHead_frame h _ _ (StatePart.sub ha (by decide))) (releaseFrom_frame (updRoom_frame h _ _ (StatePart.sub ha (by decide))) _ _ ha))
    · exact h

theorem roomFault_frame {A : List StatePart} {s₀ : State} {s : State} (h : s₀.Frame A s) (n : Nat) (cause : U16) (station : Nat) (elem : Nat) (refused : Option Nat) (ha : [.rings, .rooms, .link, .mem, .can, .psched, .free, .ports, .log, .events] ⊆ A := by first | exact StatePart.sub (by assumption) (by decide) | decide) : s₀.Frame A (roomFault s n cause station elem refused) := by
  unfold roomFault
  repeat' first | with_reducible assumption | with_reducible exact State.Frame.refl _ _ | fail_if_no_progress extract_lets | exact StatePart.sub ha (by decide) | with_reducible apply takeFree_frame | with_reducible apply faultOp_frame | with_reducible refine each_frame (fun _ _ => finishRoom_frame (State.Frame.refl _ _) _ _ (StatePart.sub ha (by decide))) ?_ | with_reducible apply elem_frame | with_reducible refine fst_frame (by assumption) ?_ | with_reducible refine snd_frame (by assumption) ?_ | with_reducible refine each_frame (fun _ _ => ?_) ?_ | with_reducible refine ite_frame ?_ ?_ | split | fail_if_no_progress ((with_reducible refine State.Frame.lit ?_ ?_ ?_ ?_ ?_ ?_ ?_ ?_ ?_ ?_ ?_ ?_ ?_ ?_ ?_ ?_ ?_ ?_ ?_ ?_ ?_ ?_ ?_ ?_ ?_ ?_ ?_ ?_ ?_) <;> first | with_reducible exact Or.inr rfl | exact Or.inl (ha (by decide)) | skip) | dsimp +zetaDelta only

theorem endHead_frame {A : List StatePart} {s₀ : State} {s : State} (h : s₀.Frame A s) (n : Nat) (e : Engine) (ha : [.rings, .rooms, .link, .mem, .can, .psched, .free, .ports, .log, .events] ⊆ A := by first | exact StatePart.sub (by assumption) (by decide) | decide) : s₀.Frame A (endHead s n e) := by
  unfold endHead
  repeat' first | with_reducible assumption | with_reducible exact State.Frame.refl _ _ | fail_if_no_progress extract_lets | exact StatePart.sub ha (by decide) | with_reducible apply roomFault_frame | with_reducible apply releaseFrom_frame | with_reducible refine ite_frame ?_ ?_ | split | fail_if_no_progress ((with_reducible refine State.Frame.lit ?_ ?_ ?_ ?_ ?_ ?_ ?_ ?_ ?_ ?_ ?_ ?_ ?_ ?_ ?_ ?_ ?_ ?_ ?_ ?_ ?_ ?_ ?_ ?_ ?_ ?_ ?_ ?_ ?_) <;> first | with_reducible exact Or.inr rfl | exact Or.inl (ha (by decide)) | skip)

theorem execAccessRelease_frame {A : List StatePart} (s : State) (room : BitVec 7) (eng : Engine) (found : List Flaw) (ha : [.rings, .rooms, .link, .mem, .can, .psched, .free, .ports, .log, .events] ⊆ A := by first | exact StatePart.sub (by assumption) (by decide) | decide) : Out.Frame A s (execAccessRelease room eng found s) := by
  unfold execAccessRelease
  exact act_frame (endHead_frame (strikeAll_frame (State.Frame.refl _ s) _ (StatePart.sub ha (by decide))) _ _ ha)

theorem roomStep_frame {A : List StatePart} {s₀ : State} {s : State} (h : s₀.Frame A s) (n : Nat) (ha : [.rings, .rooms, .link, .mem, .can, .psched, .free, .ports, .log, .events] ⊆ A := by first | exact StatePart.sub (by assumption) (by decide) | decide) : s₀.Frame A (roomStep s n) := by
  unfold roomStep
  extract_lets x0 x1 x2
  repeat' first | with_reducible assumption | with_reducible exact State.Frame.refl _ _ | fail_if_no_progress extract_lets | exact StatePart.sub ha (by decide) | with_reducible apply updRoom_frame | exact roomStores_frame (updRoom_frame h _ _ (StatePart.sub ha (by decide))) _ (fun x hx => vscat_frame hx _ _ _ (StatePart.sub ha (by decide))) (StatePart.sub ha (by decide)) | with_reducible apply vgath_frame | with_reducible apply vscat_frame | with_reducible apply roomFault_frame | with_reducible refine loop_frame (fun _ _ => ?_) ?_ | with_reducible refine ite_frame ?_ ?_ | split | fail_if_no_progress ((with_reducible refine State.Frame.lit ?_ ?_ ?_ ?_ ?_ ?_ ?_ ?_ ?_ ?_ ?_ ?_ ?_ ?_ ?_ ?_ ?_ ?_ ?_ ?_ ?_ ?_ ?_ ?_ ?_ ?_ ?_ ?_ ?_) <;> first | with_reducible exact Or.inr rfl | exact Or.inl (ha (by decide)) | skip) | dsimp +zetaDelta only

theorem execRoomWordIssue_frame {A : List StatePart} (s : State) (room : BitVec 7) (found : Option RoomCheck) (ha : [.rings, .rooms, .link, .svc, .mem, .can, .psched, .free, .ports, .log, .events] ⊆ A := by first | exact StatePart.sub (by assumption) (by decide) | decide) : Out.Frame A s (execRoomWordIssue room found s) := by
  unfold execRoomWordIssue
  repeat' first | with_reducible assumption | with_reducible exact State.Frame.refl _ _ | exact StatePart.sub ha (by decide) | with_reducible apply roomStep_frame | with_reducible apply roomFound_frame | with_reducible refine act_frame ?_ | split | dsimp +zetaDelta only

theorem execSignalDelivery_frame {A : List StatePart} (s : State) (room : BitVec 7) (ha : [.rings, .rooms, .link, .mem, .can, .psched, .free, .ports, .log, .events] ⊆ A := by first | exact StatePart.sub (by assumption) (by decide) | decide) : Out.Frame A s (execSignalDelivery room s) := by
  unfold execSignalDelivery
  repeat' first | with_reducible assumption | with_reducible exact State.Frame.refl _ _ | fail_if_no_progress extract_lets | exact StatePart.sub ha (by decide) | with_reducible apply updRoom_frame | with_reducible apply roomFault_frame | with_reducible refine act_frame ?_ | with_reducible refine next_frame ?_ | with_reducible refine ite_frame ?_ ?_ | split | fail_if_no_progress ((with_reducible refine State.Frame.lit ?_ ?_ ?_ ?_ ?_ ?_ ?_ ?_ ?_ ?_ ?_ ?_ ?_ ?_ ?_ ?_ ?_ ?_ ?_ ?_ ?_ ?_ ?_ ?_ ?_ ?_ ?_ ?_ ?_) <;> first | with_reducible exact Or.inr rfl | exact Or.inl (ha (by decide)) | skip) | dsimp +zetaDelta only

/-! ### Ituno -/

theorem Work_fail_frame {A : List StatePart} {s₀ : State} {k : Work} (h : s₀.Frame A k.s) (cause : U16) (station : Nat) (elem : Nat) (ha : [.free] ⊆ A := by first | exact StatePart.sub (by assumption) (by decide) | decide) : s₀.Frame A (Work.fail k cause station elem).s := by
  unfold Work.fail
  repeat' first | with_reducible assumption | with_reducible exact State.Frame.refl _ _ | fail_if_no_progress extract_lets | exact StatePart.sub ha (by decide) | with_reducible apply takeFree_frame | with_reducible apply elem_frame | with_reducible refine fst_frame (by assumption) ?_ | with_reducible refine snd_frame (by assumption) ?_ | with_reducible refine ite_frame ?_ ?_ | split | fail_if_no_progress ((with_reducible refine State.Frame.lit ?_ ?_ ?_ ?_ ?_ ?_ ?_ ?_ ?_ ?_ ?_ ?_ ?_ ?_ ?_ ?_ ?_ ?_ ?_ ?_ ?_ ?_ ?_ ?_ ?_ ?_ ?_ ?_ ?_) <;> first | with_reducible exact Or.inr rfl | exact Or.inl (ha (by decide)) | skip) | dsimp +zetaDelta only

theorem Work_access_frame {A : List StatePart} {s₀ : State} {k : Work} (h : s₀.Frame A k.s) (l : Nat) (ns : List Nat) (station : Nat) (ha : [.mem, .free] ⊆ A := by first | exact StatePart.sub (by assumption) (by decide) | decide) : s₀.Frame A (Work.access k l ns station).s := by
  unfold Work.access
  repeat' first | with_reducible assumption | with_reducible exact State.Frame.refl _ _ | fail_if_no_progress extract_lets | exact StatePart.sub ha (by decide) | with_reducible apply touchElems_frame | with_reducible apply Work_fail_frame | with_reducible refine ite_frame ?_ ?_ | split | fail_if_no_progress ((with_reducible refine State.Frame.lit ?_ ?_ ?_ ?_ ?_ ?_ ?_ ?_ ?_ ?_ ?_ ?_ ?_ ?_ ?_ ?_ ?_ ?_ ?_ ?_ ?_ ?_ ?_ ?_ ?_ ?_ ?_ ?_ ?_) <;> first | with_reducible exact Or.inr rfl | exact Or.inl (ha (by decide)) | skip) | dsimp +zetaDelta only

theorem Work_note_frame {A : List StatePart} {s₀ : State} {k : Work} (h : s₀.Frame A k.s) (l : Nat) (f : Flags) (ha : [] ⊆ A := by first | exact StatePart.sub (by assumption) (by decide) | decide) : s₀.Frame A (Work.note k l f).s := by
  unfold Work.note
  repeat' first | with_reducible assumption | with_reducible exact State.Frame.refl _ _ | fail_if_no_progress extract_lets | exact StatePart.sub ha (by decide) | split | fail_if_no_progress ((with_reducible refine State.Frame.lit ?_ ?_ ?_ ?_ ?_ ?_ ?_ ?_ ?_ ?_ ?_ ?_ ?_ ?_ ?_ ?_ ?_ ?_ ?_ ?_ ?_ ?_ ?_ ?_ ?_ ?_ ?_ ?_ ?_) <;> first | with_reducible exact Or.inr rfl | exact Or.inl (ha (by decide)) | skip)

theorem Work_noteAll_frame {A : List StatePart} {s₀ : State} {k : Work} (h : s₀.Frame A k.s) (f : Flags) (ha : [] ⊆ A := by first | exact StatePart.sub (by assumption) (by decide) | decide) : s₀.Frame A (Work.noteAll k f).s := by
  unfold Work.noteAll
  repeat' first | with_reducible assumption | with_reducible exact State.Frame.refl _ _ | fail_if_no_progress extract_lets | exact StatePart.sub ha (by decide) | split | fail_if_no_progress ((with_reducible refine State.Frame.lit ?_ ?_ ?_ ?_ ?_ ?_ ?_ ?_ ?_ ?_ ?_ ?_ ?_ ?_ ?_ ?_ ?_ ?_ ?_ ?_ ?_ ?_ ?_ ?_ ?_ ?_ ?_ ?_ ?_) <;> first | with_reducible exact Or.inr rfl | exact Or.inl (ha (by decide)) | skip)

theorem Work_put_frame {A : List StatePart} {s₀ : State} {k : Work} (h : s₀.Frame A k.s) (l : Nat) (src : Int) (ns : List Nat) (vs : List (Num × Bool)) (ha : [.mem, .psched] ⊆ A := by first | exact StatePart.sub (by assumption) (by decide) | decide) : s₀.Frame A (Work.put k l src ns vs).s := by
  unfold Work.put
  repeat' first | with_reducible assumption | with_reducible exact State.Frame.refl _ _ | fail_if_no_progress extract_lets | exact StatePart.sub ha (by decide) | with_reducible apply convertInto_frame | with_reducible apply Work_note_frame | with_reducible refine fst_frame (by assumption) ?_ | with_reducible refine snd_frame (by assumption) ?_ | with_reducible refine ite_frame ?_ ?_ | split | fail_if_no_progress ((with_reducible refine State.Frame.lit ?_ ?_ ?_ ?_ ?_ ?_ ?_ ?_ ?_ ?_ ?_ ?_ ?_ ?_ ?_ ?_ ?_ ?_ ?_ ?_ ?_ ?_ ?_ ?_ ?_ ?_ ?_ ?_ ?_) <;> first | with_reducible exact Or.inr rfl | exact Or.inl (ha (by decide)) | skip) | dsimp +zetaDelta only

theorem Work_putPlain_frame {A : List StatePart} {s₀ : State} {k : Work} (h : s₀.Frame A k.s) (l : Nat) (ns : List Nat) (vs : List (Num × Bool)) (ha : [.mem, .psched] ⊆ A := by first | exact StatePart.sub (by assumption) (by decide) | decide) : s₀.Frame A (Work.putPlain k l ns vs).s := by
  unfold Work.putPlain
  repeat' first | with_reducible assumption | with_reducible exact State.Frame.refl _ _ | fail_if_no_progress extract_lets | exact StatePart.sub ha (by decide) | with_reducible apply writeElems_frame | with_reducible apply Work_note_frame | with_reducible refine fst_frame (by assumption) ?_ | with_reducible refine snd_frame (by assumption) ?_ | with_reducible refine ite_frame ?_ ?_ | split | fail_if_no_progress ((with_reducible refine State.Frame.lit ?_ ?_ ?_ ?_ ?_ ?_ ?_ ?_ ?_ ?_ ?_ ?_ ?_ ?_ ?_ ?_ ?_ ?_ ?_ ?_ ?_ ?_ ?_ ?_ ?_ ?_ ?_ ?_ ?_) <;> first | with_reducible exact Or.inr rfl | exact Or.inl (ha (by decide)) | skip) | dsimp +zetaDelta only

theorem Work_putBitsOf_frame {A : List StatePart} {s₀ : State} {k : Work} (h : s₀.Frame A k.s) (l : Nat) (ns : List Nat) (vs : List (Nat × Bool)) (ha : [.mem, .psched] ⊆ A := by first | exact StatePart.sub (by assumption) (by decide) | decide) : s₀.Frame A (Work.putBitsOf k l ns vs).s := by
  unfold Work.putBitsOf
  repeat' first | with_reducible assumption | with_reducible exact State.Frame.refl _ _ | fail_if_no_progress extract_lets | exact StatePart.sub ha (by decide) | with_reducible apply moveElems_frame | with_reducible apply Work_note_frame | with_reducible refine fst_frame (by assumption) ?_ | with_reducible refine snd_frame (by assumption) ?_ | with_reducible refine ite_frame ?_ ?_ | split | fail_if_no_progress ((with_reducible refine State.Frame.lit ?_ ?_ ?_ ?_ ?_ ?_ ?_ ?_ ?_ ?_ ?_ ?_ ?_ ?_ ?_ ?_ ?_ ?_ ?_ ?_ ?_ ?_ ?_ ?_ ?_ ?_ ?_ ?_ ?_) <;> first | with_reducible exact Or.inr rfl | exact Or.inl (ha (by decide)) | skip) | dsimp +zetaDelta only

theorem Work_transfer_frame {A : List StatePart} {s₀ : State} {k : Work} (h : s₀.Frame A k.s) (l : Nat) (src : List Nat) (dst : List Nat) (ha : [.mem, .psched] ⊆ A := by first | exact StatePart.sub (by assumption) (by decide) | decide) : s₀.Frame A (Work.transfer k l src dst).s := by
  unfold Work.transfer
  extract_lets x0 x1 x2
  repeat' first | with_reducible assumption | with_reducible exact State.Frame.refl _ _ | fail_if_no_progress extract_lets | exact StatePart.sub ha (by decide) | with_reducible apply Work_note_frame | with_reducible apply Work_put_frame | with_reducible apply Work_putPlain_frame | with_reducible apply Work_putBitsOf_frame | with_reducible refine foldl_frame (fun _ _ => ?_) ?_ | with_reducible refine ite_frame ?_ ?_ | split | fail_if_no_progress ((with_reducible refine State.Frame.lit ?_ ?_ ?_ ?_ ?_ ?_ ?_ ?_ ?_ ?_ ?_ ?_ ?_ ?_ ?_ ?_ ?_ ?_ ?_ ?_ ?_ ?_ ?_ ?_ ?_ ?_ ?_ ?_ ?_) <;> first | with_reducible exact Or.inr rfl | exact Or.inl (ha (by decide)) | skip) | dsimp +zetaDelta only

theorem Work_finish_frame {A : List StatePart} {s₀ : State} {k : Work} (h : s₀.Frame A k.s) (n : Nat) (ha : [.rings, .rooms, .link, .mem, .can, .psched, .free, .ports, .log, .events] ⊆ A := by first | exact StatePart.sub (by assumption) (by decide) | decide) : s₀.Frame A (Work.finish k n) := by
  unfold Work.finish
  extract_lets x0
  repeat' first | with_reducible assumption | with_reducible exact State.Frame.refl _ _ | fail_if_no_progress extract_lets | exact StatePart.sub ha (by decide) | with_reducible apply updOp_frame | with_reducible apply faultOp_frame | with_reducible apply endStore_frame | with_reducible refine each_frame (fun _ _ => finishRoom_frame (State.Frame.refl _ _) _ _ (StatePart.sub ha (by decide))) ?_ | with_reducible refine each_frame (fun _ _ => ?_) ?_ | with_reducible refine foldl_frame (fun _ _ => ?_) ?_ | split | fail_if_no_progress ((with_reducible refine State.Frame.lit ?_ ?_ ?_ ?_ ?_ ?_ ?_ ?_ ?_ ?_ ?_ ?_ ?_ ?_ ?_ ?_ ?_ ?_ ?_ ?_ ?_ ?_ ?_ ?_ ?_ ?_ ?_ ?_ ?_) <;> first | with_reducible exact Or.inr rfl | exact Or.inl (ha (by decide)) | skip) | dsimp +zetaDelta only

/-- A RUN's work begins from the state it runs in. -/
theorem entryWork_state {s : State} {n seq op : Nat} {k : Work} (e : s.entryWork n seq op = some k) : k.s = s := by
  unfold State.entryWork at e
  extract_lets p at e
  split at e
  · split at e
    · split at e
      · extract_lets q at e
        split at e
        · cases e
          rfl
        · cases e
      · cases e
    · cases e
  · cases e

theorem runEntry_frame {A : List StatePart} {ring : BitVec 6} {seq : BitVec 64} {op : Nat} {f : Work → Work} {s : State}
    (h : ∀ k : Work, s.Frame A k.s → s.Frame A (f k).s) (ha : [.rings, .rooms, .link, .mem, .can, .psched, .free, .ports, .log, .events] ⊆ A := by first | exact StatePart.sub (by assumption) (by decide) | decide) : Out.Frame A s (runEntry ring seq op f s) := by
  unfold runEntry
  split
  · rename_i k e
    exact act_frame (Work_finish_frame (h _ (beginStore_frame (State.Frame.refl A s) _ _ (StatePart.sub ha (by decide)))) _ ha)
  · exact next_frame (State.Frame.refl A s)

theorem deliver_frame {A : List StatePart} {s₀ : State} {k : Work} (h : s₀.Frame A k.s) (f : Fmt) (l : List (Nat × Bool × List Term)) (seed : Nat → Nat × Bool) (ha : [.mem, .psched, .free] ⊆ A := by first | exact StatePart.sub (by assumption) (by decide) | decide) : s₀.Frame A (deliver k f l seed).s := by
  unfold deliver
  extract_lets x0 x1
  repeat' first | with_reducible assumption | with_reducible exact State.Frame.refl _ _ | fail_if_no_progress extract_lets | exact StatePart.sub ha (by decide) | with_reducible apply updSched_frame | with_reducible apply Work_fail_frame | with_reducible apply Work_note_frame | with_reducible apply Work_put_frame | with_reducible refine ite_frame ?_ ?_ | split | fail_if_no_progress ((with_reducible refine State.Frame.lit ?_ ?_ ?_ ?_ ?_ ?_ ?_ ?_ ?_ ?_ ?_ ?_ ?_ ?_ ?_ ?_ ?_ ?_ ?_ ?_ ?_ ?_ ?_ ?_ ?_ ?_ ?_ ?_ ?_) <;> first | with_reducible exact Or.inr rfl | exact Or.inl (ha (by decide)) | skip) | dsimp +zetaDelta only

theorem matmul_frame {A : List StatePart} {s₀ : State} {k : Work} (h : s₀.Frame A k.s)  (ha : [.mem, .psched, .free] ⊆ A := by first | exact StatePart.sub (by assumption) (by decide) | decide) : s₀.Frame A (matmul k).s := by
  unfold matmul
  extract_lets x0 x1 x2 x3 x4 x5 x6 x7 x8 x9 x10 x11 x12
  repeat' first | with_reducible assumption | with_reducible exact State.Frame.refl _ _ | fail_if_no_progress extract_lets | exact StatePart.sub ha (by decide) | with_reducible apply Work_access_frame | with_reducible apply Work_note_frame | with_reducible apply deliver_frame | with_reducible refine foldl_frame (fun _ _ => ?_) ?_ | with_reducible refine ite_frame ?_ ?_ | split | fail_if_no_progress ((with_reducible refine State.Frame.lit ?_ ?_ ?_ ?_ ?_ ?_ ?_ ?_ ?_ ?_ ?_ ?_ ?_ ?_ ?_ ?_ ?_ ?_ ?_ ?_ ?_ ?_ ?_ ?_ ?_ ?_ ?_ ?_ ?_) <;> first | with_reducible exact Or.inr rfl | exact Or.inl (ha (by decide)) | skip) | dsimp +zetaDelta only

theorem conv_frame {A : List StatePart} {s₀ : State} {k : Work} (h : s₀.Frame A k.s)  (ha : [.mem, .psched, .free] ⊆ A := by first | exact StatePart.sub (by assumption) (by decide) | decide) : s₀.Frame A (conv k).s := by
  unfold conv
  extract_lets x0 x1 x2 x3 x4 x5 x6 x7 x8 x9
  repeat' first | with_reducible assumption | with_reducible exact State.Frame.refl _ _ | fail_if_no_progress extract_lets | exact StatePart.sub ha (by decide) | with_reducible apply Work_access_frame | with_reducible apply Work_note_frame | with_reducible apply deliver_frame | with_reducible refine ite_frame ?_ ?_ | split | fail_if_no_progress ((with_reducible refine State.Frame.lit ?_ ?_ ?_ ?_ ?_ ?_ ?_ ?_ ?_ ?_ ?_ ?_ ?_ ?_ ?_ ?_ ?_ ?_ ?_ ?_ ?_ ?_ ?_ ?_ ?_ ?_ ?_ ?_ ?_) <;> first | with_reducible exact Or.inr rfl | exact Or.inl (ha (by decide)) | skip) | dsimp +zetaDelta only

theorem knn_frame {A : List StatePart} {s₀ : State} {k : Work} (h : s₀.Frame A k.s)  (ha : [.mem, .psched, .free] ⊆ A := by first | exact StatePart.sub (by assumption) (by decide) | decide) : s₀.Frame A (knn k).s := by
  unfold knn
  extract_lets x0 x1 x2 x3 x4
  repeat' first | with_reducible assumption | with_reducible exact State.Frame.refl _ _ | fail_if_no_progress extract_lets | exact StatePart.sub ha (by decide) | with_reducible apply Work_access_frame | with_reducible apply Work_note_frame | with_reducible apply Work_put_frame | with_reducible apply Work_putBitsOf_frame | with_reducible refine foldl_frame (fun _ _ => ?_) ?_ | split | fail_if_no_progress ((with_reducible refine State.Frame.lit ?_ ?_ ?_ ?_ ?_ ?_ ?_ ?_ ?_ ?_ ?_ ?_ ?_ ?_ ?_ ?_ ?_ ?_ ?_ ?_ ?_ ?_ ?_ ?_ ?_ ?_ ?_ ?_ ?_) <;> first | with_reducible exact Or.inr rfl | exact Or.inl (ha (by decide)) | skip) | dsimp +zetaDelta only

theorem foldl_work_frame {A : List StatePart} {α : Type} {l : List α} {f : Work → α → Work} (hf : ∀ k a, State.Frame A k.s (f k a).s) {t : State} {k : Work} (h : t.Frame A k.s) :
    t.Frame A (l.foldl f k).s := by
  induction l generalizing k with
  | nil => exact h
  | cons a l ih => exact ih (h.trans (hf k a))

theorem elem_frame {A : List StatePart} {t : State} {k : Work} (h : t.Frame A k.s) (ha : [.mem, .psched, .free] ⊆ A := by first | exact StatePart.sub (by assumption) (by decide) | decide) : t.Frame A (elem k).s := by
  unfold elem
  extract_lets ops d f64 k1 ls k2 ps outs fl k3
  have h1 : t.Frame A k1.s := by
    unfold k1
    split
    · exact h
    · exact Work_fail_frame h _ _ _
  have h2 : t.Frame A k2.s := Work_access_frame (foldl_work_frame (fun k _ => Work_access_frame (State.Frame.refl A k.s) _ _ _) h1) _ _ _
  have h3 : t.Frame A k3.s := by
    unfold k3
    split
    · exact Work_put_frame h2 _ _ _ _
    · exact Work_putBitsOf_frame h2 _ _ _
  exact Work_note_frame h3 _ _

theorem putAttic_frame {A : List StatePart} {s₀ s : State} (h : s₀.Frame A s) (k : Work) (j : Nat) (r : RowWork) (ha : [.rooms] ⊆ A := by first | exact StatePart.sub (by assumption) (by decide) | decide) : s₀.Frame A (putAttic k s j r) := by
  unfold putAttic
  exact updRoom_frame h _ _ ha

theorem row_frame {A : List StatePart} {t : State} {k : Work} (h : t.Frame A k.s) (ha : [.rooms, .mem, .psched, .free] ⊆ A := by first | exact StatePart.sub (by assumption) (by decide) | decide) : t.Frame A (row k).s := by
  unfold row
  extract_lets sub len nRows bad k1 ls k2
  have h1 : t.Frame A k1.s := by
    unfold k1
    split
    · exact Work_fail_frame h _ _ _
    · exact h
  have h2 : t.Frame A k2.s := Work_access_frame (foldl_work_frame (fun k _ => Work_access_frame (State.Frame.refl A k.s) _ _ _) h1) _ _ _
  clear_value k2
  split
  · exact h2
  · rename_i rows fl grads k3 k4 k5 hs
    have h3 : t.Frame A k3.s := by
      unfold k3
      exact foldl_frame (fun x r => putAttic_frame (State.Frame.refl A x) _ _ _ (StatePart.sub ha (by decide))) h2
    have h4 : t.Frame A k4.s := Work_put_frame h3 _ _ _ _
    have h5 : t.Frame A k5.s := by
      unfold k5
      split
      · exact Work_note_frame (Work_put_frame h4 _ _ _ _) _ _
      · exact h4
    exact Work_noteAll_frame h5 _

theorem convertAll_frame {A : List StatePart} {s₀ : State} {k : Work} (h : s₀.Frame A k.s)  (ha : [.mem, .psched, .free] ⊆ A := by first | exact StatePart.sub (by assumption) (by decide) | decide) : s₀.Frame A (convertAll k).s := by
  unfold convertAll
  extract_lets x0 x1
  repeat' first | with_reducible assumption | with_reducible exact State.Frame.refl _ _ | fail_if_no_progress extract_lets | exact StatePart.sub ha (by decide) | with_reducible apply Work_access_frame | with_reducible apply Work_transfer_frame | split | fail_if_no_progress ((with_reducible refine State.Frame.lit ?_ ?_ ?_ ?_ ?_ ?_ ?_ ?_ ?_ ?_ ?_ ?_ ?_ ?_ ?_ ?_ ?_ ?_ ?_ ?_ ?_ ?_ ?_ ?_ ?_ ?_ ?_ ?_ ?_) <;> first | with_reducible exact Or.inr rfl | exact Or.inl (ha (by decide)) | skip) | dsimp +zetaDelta only

theorem moveRows_frame {A : List StatePart} {s₀ : State} {k : Work} (h : s₀.Frame A k.s) (scatter : Bool) (ha : [.mem, .psched, .free] ⊆ A := by first | exact StatePart.sub (by assumption) (by decide) | decide) : s₀.Frame A (moveRows scatter k).s := by
  unfold moveRows
  extract_lets x0 x1 x2 x3
  repeat' first | with_reducible assumption | with_reducible exact State.Frame.refl _ _ | fail_if_no_progress extract_lets | exact StatePart.sub ha (by decide) | with_reducible apply Work_fail_frame | with_reducible apply Work_access_frame | with_reducible apply Work_transfer_frame | with_reducible refine ite_frame ?_ ?_ | split | fail_if_no_progress ((with_reducible refine State.Frame.lit ?_ ?_ ?_ ?_ ?_ ?_ ?_ ?_ ?_ ?_ ?_ ?_ ?_ ?_ ?_ ?_ ?_ ?_ ?_ ?_ ?_ ?_ ?_ ?_ ?_ ?_ ?_ ?_ ?_) <;> first | with_reducible exact Or.inr rfl | exact Or.inl (ha (by decide)) | skip) | dsimp +zetaDelta only

theorem execMatmul_frame {A : List StatePart} (s : State) (ring : BitVec 6) (seq : BitVec 64) (ha : [.rings, .rooms, .link, .mem, .can, .psched, .free, .ports, .log, .events] ⊆ A := by first | exact StatePart.sub (by assumption) (by decide) | decide) : Out.Frame A s (execMatmul ring seq s) := by
  unfold execMatmul
  repeat' first | with_reducible assumption | with_reducible exact State.Frame.refl _ _ | exact StatePart.sub ha (by decide) | with_reducible apply runEntry_frame | with_reducible apply matmul_frame | intro _ _ | with_reducible refine next_frame ?_ | split | fail_if_no_progress ((with_reducible refine State.Frame.lit ?_ ?_ ?_ ?_ ?_ ?_ ?_ ?_ ?_ ?_ ?_ ?_ ?_ ?_ ?_ ?_ ?_ ?_ ?_ ?_ ?_ ?_ ?_ ?_ ?_ ?_ ?_ ?_ ?_) <;> first | with_reducible exact Or.inr rfl | exact Or.inl (ha (by decide)) | skip)

theorem execConv_frame {A : List StatePart} (s : State) (ring : BitVec 6) (seq : BitVec 64) (ha : [.rings, .rooms, .link, .mem, .can, .psched, .free, .ports, .log, .events] ⊆ A := by first | exact StatePart.sub (by assumption) (by decide) | decide) : Out.Frame A s (execConv ring seq s) := by
  unfold execConv
  repeat' first | with_reducible assumption | with_reducible exact State.Frame.refl _ _ | exact StatePart.sub ha (by decide) | with_reducible apply runEntry_frame | with_reducible apply conv_frame | intro _ _ | with_reducible refine next_frame ?_ | split | fail_if_no_progress ((with_reducible refine State.Frame.lit ?_ ?_ ?_ ?_ ?_ ?_ ?_ ?_ ?_ ?_ ?_ ?_ ?_ ?_ ?_ ?_ ?_ ?_ ?_ ?_ ?_ ?_ ?_ ?_ ?_ ?_ ?_ ?_ ?_) <;> first | with_reducible exact Or.inr rfl | exact Or.inl (ha (by decide)) | skip)

theorem execKnn_frame {A : List StatePart} (s : State) (ring : BitVec 6) (seq : BitVec 64) (ha : [.rings, .rooms, .link, .mem, .can, .psched, .free, .ports, .log, .events] ⊆ A := by first | exact StatePart.sub (by assumption) (by decide) | decide) : Out.Frame A s (execKnn ring seq s) := by
  unfold execKnn
  repeat' first | with_reducible assumption | with_reducible exact State.Frame.refl _ _ | exact StatePart.sub ha (by decide) | with_reducible apply runEntry_frame | with_reducible apply knn_frame | intro _ _ | with_reducible refine next_frame ?_ | split | fail_if_no_progress ((with_reducible refine State.Frame.lit ?_ ?_ ?_ ?_ ?_ ?_ ?_ ?_ ?_ ?_ ?_ ?_ ?_ ?_ ?_ ?_ ?_ ?_ ?_ ?_ ?_ ?_ ?_ ?_ ?_ ?_ ?_ ?_ ?_) <;> first | with_reducible exact Or.inr rfl | exact Or.inl (ha (by decide)) | skip)

theorem execElem_frame {A : List StatePart} (s : State) (ring : BitVec 6) (seq : BitVec 64) (ha : [.rings, .rooms, .link, .mem, .can, .psched, .free, .ports, .log, .events] ⊆ A := by first | exact StatePart.sub (by assumption) (by decide) | decide) : Out.Frame A s (execElem ring seq s) := by
  unfold execElem
  repeat' first | with_reducible assumption | with_reducible exact State.Frame.refl _ _ | exact StatePart.sub ha (by decide) | with_reducible apply runEntry_frame | with_reducible apply elem_frame | intro _ _ | with_reducible refine next_frame ?_ | split | fail_if_no_progress ((with_reducible refine State.Frame.lit ?_ ?_ ?_ ?_ ?_ ?_ ?_ ?_ ?_ ?_ ?_ ?_ ?_ ?_ ?_ ?_ ?_ ?_ ?_ ?_ ?_ ?_ ?_ ?_ ?_ ?_ ?_ ?_ ?_) <;> first | with_reducible exact Or.inr rfl | exact Or.inl (ha (by decide)) | skip)

theorem execRowOperation_frame {A : List StatePart} (s : State) (ring : BitVec 6) (seq : BitVec 64) (ha : [.rings, .rooms, .link, .mem, .can, .psched, .free, .ports, .log, .events] ⊆ A := by first | exact StatePart.sub (by assumption) (by decide) | decide) : Out.Frame A s (execRowOperation ring seq s) := by
  unfold execRowOperation
  repeat' first | with_reducible assumption | with_reducible exact State.Frame.refl _ _ | exact StatePart.sub ha (by decide) | with_reducible apply runEntry_frame | with_reducible apply row_frame | intro _ _ | with_reducible refine next_frame ?_ | split | fail_if_no_progress ((with_reducible refine State.Frame.lit ?_ ?_ ?_ ?_ ?_ ?_ ?_ ?_ ?_ ?_ ?_ ?_ ?_ ?_ ?_ ?_ ?_ ?_ ?_ ?_ ?_ ?_ ?_ ?_ ?_ ?_ ?_ ?_ ?_) <;> first | with_reducible exact Or.inr rfl | exact Or.inl (ha (by decide)) | skip)

theorem execConvert_frame {A : List StatePart} (s : State) (ring : BitVec 6) (seq : BitVec 64) (ha : [.rings, .rooms, .link, .mem, .can, .psched, .free, .ports, .log, .events] ⊆ A := by first | exact StatePart.sub (by assumption) (by decide) | decide) : Out.Frame A s (execConvert ring seq s) := by
  unfold execConvert
  repeat' first | with_reducible assumption | with_reducible exact State.Frame.refl _ _ | exact StatePart.sub ha (by decide) | with_reducible apply runEntry_frame | with_reducible apply convertAll_frame | intro _ _ | with_reducible refine next_frame ?_ | split | fail_if_no_progress ((with_reducible refine State.Frame.lit ?_ ?_ ?_ ?_ ?_ ?_ ?_ ?_ ?_ ?_ ?_ ?_ ?_ ?_ ?_ ?_ ?_ ?_ ?_ ?_ ?_ ?_ ?_ ?_ ?_ ?_ ?_ ?_ ?_) <;> first | with_reducible exact Or.inr rfl | exact Or.inl (ha (by decide)) | skip)

theorem execGather_frame {A : List StatePart} (s : State) (ring : BitVec 6) (seq : BitVec 64) (ha : [.rings, .rooms, .link, .mem, .can, .psched, .free, .ports, .log, .events] ⊆ A := by first | exact StatePart.sub (by assumption) (by decide) | decide) : Out.Frame A s (execGather ring seq s) :=
  runEntry_frame fun _ h => moveRows_frame h false

theorem execScatter_frame {A : List StatePart} (s : State) (ring : BitVec 6) (seq : BitVec 64) (ha : [.rings, .rooms, .link, .mem, .can, .psched, .free, .ports, .log, .events] ⊆ A := by first | exact StatePart.sub (by assumption) (by decide) | decide) : Out.Frame A s (execScatter ring seq s) :=
  runEntry_frame fun _ h => moveRows_frame h true

end Sys2Proof.Machine
end

