-- ==== Sys2Proof/Laws/FrameWork.lean ====
section
/-! SUPPORT. Which parts of the state the operations of these files may change: Solver, Fabric, Stop, Debug, Clock. -/

namespace Sys2Proof.Machine

set_option linter.unusedVariables false
set_option linter.unusedTactic false
set_option linter.unreachableTactic false
set_option Elab.async false

/-! ### Solver -/

theorem execRoomReservation_frame {A : List StatePart} (s : State) (ring : BitVec 6) (seq : BitVec 64) (ha : [.rings] ⊆ A := by first | exact StatePart.sub (by assumption) (by decide) | decide) : Out.Frame A s (execRoomReservation ring seq s) := by
  unfold execRoomReservation
  repeat' first | with_reducible assumption | with_reducible exact State.Frame.refl _ _ | fail_if_no_progress extract_lets | exact StatePart.sub ha (by decide) | with_reducible apply updOp_frame | with_reducible refine act_frame ?_ | with_reducible refine next_frame ?_ | split | fail_if_no_progress ((with_reducible refine State.Frame.lit ?_ ?_ ?_ ?_ ?_ ?_ ?_ ?_ ?_ ?_ ?_ ?_ ?_ ?_ ?_ ?_ ?_ ?_ ?_ ?_ ?_ ?_ ?_ ?_ ?_ ?_ ?_ ?_ ?_) <;> first | with_reducible exact Or.inr rfl | exact Or.inl (ha (by decide)) | skip) | dsimp +zetaDelta only

theorem armDeadline_frame {A : List StatePart} {s₀ : State} {s : State} (h : s₀.Frame A s) (n : Nat) (o : Op) (ha : [.rings, .free, .events] ⊆ A := by first | exact StatePart.sub (by assumption) (by decide) | decide) : s₀.Frame A (armDeadline s n o) := by
  unfold armDeadline
  repeat' first | with_reducible assumption | with_reducible exact State.Frame.refl _ _ | fail_if_no_progress extract_lets | exact StatePart.sub ha (by decide) | with_reducible apply takeFree_frame | with_reducible apply updOp_frame | with_reducible apply armDevice_frame | with_reducible refine fst_frame (by assumption) ?_ | with_reducible refine snd_frame (by assumption) ?_ | split | fail_if_no_progress ((with_reducible refine State.Frame.lit ?_ ?_ ?_ ?_ ?_ ?_ ?_ ?_ ?_ ?_ ?_ ?_ ?_ ?_ ?_ ?_ ?_ ?_ ?_ ?_ ?_ ?_ ?_ ?_ ?_ ?_ ?_ ?_ ?_) <;> first | with_reducible exact Or.inr rfl | exact Or.inl (ha (by decide)) | skip) | dsimp +zetaDelta only

theorem dropRecords_frame {A : List StatePart} {s₀ : State} {s : State} (h : s₀.Frame A s) (p : Nat) (first : Nat) (count : Nat) (ha : [.psched] ⊆ A := by first | exact StatePart.sub (by assumption) (by decide) | decide) : s₀.Frame A (dropRecords s p first count) := by
  unfold dropRecords
  repeat' first | with_reducible assumption | with_reducible exact State.Frame.refl _ _ | fail_if_no_progress extract_lets | exact StatePart.sub ha (by decide) | with_reducible apply updSched_frame | with_reducible refine ite_frame ?_ ?_ | split | fail_if_no_progress ((with_reducible refine State.Frame.lit ?_ ?_ ?_ ?_ ?_ ?_ ?_ ?_ ?_ ?_ ?_ ?_ ?_ ?_ ?_ ?_ ?_ ?_ ?_ ?_ ?_ ?_ ?_ ?_ ?_ ?_ ?_ ?_ ?_) <;> first | with_reducible exact Or.inr rfl | exact Or.inl (ha (by decide)) | skip)

theorem startCall_frame {A : List StatePart} {s₀ : State} {s : State} (h : s₀.Frame A s) (n : Nat) (o : Op) (ha : [.mem, .psched] ⊆ A := by first | exact StatePart.sub (by assumption) (by decide) | decide) : s₀.Frame A (startCall s n o).1 := by
  unfold startCall
  repeat' first | with_reducible assumption | with_reducible exact State.Frame.refl _ _ | fail_if_no_progress extract_lets | exact StatePart.sub ha (by decide) | with_reducible apply touch_frame | with_reducible apply dropRecords_frame | with_reducible refine foldl_frame (fun _ _ => ?_) ?_ | with_reducible refine ite_frame ?_ ?_ | split | fail_if_no_progress ((with_reducible refine State.Frame.lit ?_ ?_ ?_ ?_ ?_ ?_ ?_ ?_ ?_ ?_ ?_ ?_ ?_ ?_ ?_ ?_ ?_ ?_ ?_ ?_ ?_ ?_ ?_ ?_ ?_ ?_ ?_ ?_ ?_) <;> first | with_reducible exact Or.inr rfl | exact Or.inl (ha (by decide)) | skip) | dsimp +zetaDelta only

theorem execSolve_frame {A : List StatePart} (s : State) (ring : BitVec 6) (ha : [.rings, .link, .mem, .can, .psched, .free, .log, .events] ⊆ A := by first | exact StatePart.sub (by assumption) (by decide) | decide) : Out.Frame A s (execSolve ring s) := by
  unfold execSolve
  extract_lets n p before
  have key : ∀ w : Plan, w.go = startCall → (∀ n o, w.reject s n o = s) → Out.Frame A s (match dispatchHead n (wantOpc 0x20) w s with
      | .next t => if (t.sched p).dispatched = before then .next t
        else match (t.ring n).ops.getLast? with
          | some o => .next (armDeadline t n o)
          | none => .next t
      | x => x) := by
    intro w hw hr
    have hk : Out.Frame A s (dispatchHead n (wantOpc 0x20) w s) :=
      dispatchHead_frame (fun _ _ => by rw [hw]; exact startCall_frame (State.Frame.refl A s) _ _)
        (fun _ _ => by rw [hr]; exact State.Frame.refl A s)
    obtain ⟨t, ht, kt⟩ := hk
    rw [ht]
    dsimp only
    split
    · exact next_frame kt
    · split
      · exact next_frame (armDeadline_frame kt _ _)
      · exact next_frame kt
  exact key _ rfl fun _ _ => rfl

theorem updProb_frame {A : List StatePart} {s₀ : State} {s : State} (h : s₀.Frame A s) (n : Nat) (seq : Nat) (b : Nat) (f : Problem → Problem) (ha : [.rings] ⊆ A := by first | exact StatePart.sub (by assumption) (by decide) | decide) : s₀.Frame A (State.updProb s n seq b f) := by
  unfold State.updProb
  repeat' first | with_reducible assumption | with_reducible exact State.Frame.refl _ _ | fail_if_no_progress extract_lets | exact StatePart.sub ha (by decide) | with_reducible apply updOp_frame | split | fail_if_no_progress ((with_reducible refine State.Frame.lit ?_ ?_ ?_ ?_ ?_ ?_ ?_ ?_ ?_ ?_ ?_ ?_ ?_ ?_ ?_ ?_ ?_ ?_ ?_ ?_ ?_ ?_ ?_ ?_ ?_ ?_ ?_ ?_ ?_) <;> first | with_reducible exact Or.inr rfl | exact Or.inl (ha (by decide)) | skip)

theorem dropRecord_frame {A : List StatePart} {s₀ : State} {s : State} (h : s₀.Frame A s) (p : Nat) (i : Nat) (ha : [.psched] ⊆ A := by first | exact StatePart.sub (by assumption) (by decide) | decide) : s₀.Frame A (dropRecord s p i) := by
  unfold dropRecord
  repeat' first | with_reducible assumption | with_reducible exact State.Frame.refl _ _ | fail_if_no_progress extract_lets | exact StatePart.sub ha (by decide) | with_reducible apply updSched_frame | split | fail_if_no_progress ((with_reducible refine State.Frame.lit ?_ ?_ ?_ ?_ ?_ ?_ ?_ ?_ ?_ ?_ ?_ ?_ ?_ ?_ ?_ ?_ ?_ ?_ ?_ ?_ ?_ ?_ ?_ ?_ ?_ ?_ ?_ ?_ ?_) <;> first | with_reducible exact Or.inr rfl | exact Or.inl (ha (by decide)) | skip)

theorem releaseSpace_frame {A : List StatePart} {t s : State} (h : t.Frame A s) (k p need : Nat) (ha : [.psched] ⊆ A := by first | exact StatePart.sub (by assumption) (by decide) | decide) : t.Frame A (releaseSpace k s p need) := by
  induction k generalizing s with
  | zero => exact h
  | succ k ih =>
    unfold releaseSpace
    split
    · exact h
    · split
      · exact ih (dropRecord_frame h _ _)
      · exact h

theorem makeSpace_frame {A : List StatePart} {s₀ s u : State} (h : s₀.Frame A s) (p : Nat) (c : SolveOp) (pr : Problem) (e : makeSpace s p c pr = some u) (ha : [.psched] ⊆ A := by first | exact StatePart.sub (by assumption) (by decide) | decide) : s₀.Frame A u := by
  unfold makeSpace at e
  split at e
  · cases e
    exact h
  · extract_lets need s2 at e
    have h2 : s₀.Frame A s2 := releaseSpace_frame h _ _ _
    clear_value s2
    split at e
    · cases e
      exact h2
    · cases e

theorem startProblem_frame {A : List StatePart} {s₀ : State} {s : State} (h : s₀.Frame A s) (n : Nat) (o : Op) (c : SolveOp) (b : Nat) (u : Nat) (pr : Problem) (ha : [.rings, .rooms, .link, .mem, .can, .psched, .free, .ports, .log, .events] ⊆ A := by first | exact StatePart.sub (by assumption) (by decide) | decide) : s₀.Frame A (startProblem s n o c b u pr) := by
  unfold startProblem
  extract_lets x0 x1 x2
  have h2 : s₀.Frame A x2 := by
    unfold x2
    repeat' first | with_reducible assumption | with_reducible exact State.Frame.refl _ _ | fail_if_no_progress extract_lets | exact StatePart.sub ha (by decide) | with_reducible apply faultOp_frame | with_reducible apply touchElems_frame | with_reducible apply updProb_frame | with_reducible refine foldl_frame (fun _ _ => ?_) ?_ | with_reducible refine ite_frame ?_ ?_ | split | fail_if_no_progress ((with_reducible refine State.Frame.lit ?_ ?_ ?_ ?_ ?_ ?_ ?_ ?_ ?_ ?_ ?_ ?_ ?_ ?_ ?_ ?_ ?_ ?_ ?_ ?_ ?_ ?_ ?_ ?_ ?_ ?_ ?_ ?_ ?_) <;> first | with_reducible exact Or.inr rfl | exact Or.inl (ha (by decide)) | skip) | dsimp +zetaDelta only
  clear_value x2
  repeat' first | with_reducible assumption | with_reducible exact State.Frame.refl _ _ | fail_if_no_progress extract_lets | exact StatePart.sub ha (by decide) | with_reducible apply faultOp_frame | with_reducible apply touchElems_frame | with_reducible apply updProb_frame | with_reducible refine foldl_frame (fun _ _ => ?_) ?_ | with_reducible refine ite_frame ?_ ?_ | split | fail_if_no_progress ((with_reducible refine State.Frame.lit ?_ ?_ ?_ ?_ ?_ ?_ ?_ ?_ ?_ ?_ ?_ ?_ ?_ ?_ ?_ ?_ ?_ ?_ ?_ ?_ ?_ ?_ ?_ ?_ ?_ ?_ ?_ ?_ ?_) <;> first | with_reducible exact Or.inr rfl | exact Or.inl (ha (by decide)) | skip) | dsimp +zetaDelta only

theorem tryStart_frame {A : List StatePart} {s₀ s u : State} (h : s₀.Frame A s) (n : Nat) (o : Op) (e : State.tryStart s n o = some u) (ha : [.rings, .rooms, .link, .mem, .can, .psched, .free, .ports, .log, .events] ⊆ A := by first | exact StatePart.sub (by assumption) (by decide) | decide) : s₀.Frame A u := by
  unfold State.tryStart at e
  split at e
  · split at e
    · cases e
    · split at e
      · split at e
        · obtain ⟨v, hv, rfl⟩ := Option.map_eq_some_iff.mp e
          exact startProblem_frame (makeSpace_frame h _ _ _ hv) _ _ _ _ _ _
        · cases e
      · cases e
  · cases e

theorem execProblemStart_frame {A : List StatePart} (s : State) (ring : BitVec 6) (seq : BitVec 64) (ha : [.rings, .rooms, .link, .mem, .can, .psched, .free, .ports, .log, .events] ⊆ A := by first | exact StatePart.sub (by assumption) (by decide) | decide) : Out.Frame A s (execProblemStart ring seq s) := by
  unfold execProblemStart
  extract_lets n
  split
  · extract_lets s'
    split
    · rename_i hv
      obtain ⟨o, -, ho⟩ := Option.bind_eq_some_iff.mp hv
      exact act_frame (tryStart_frame (armDeadline_frame (State.Frame.refl A s) _ _) _ _ ho)
    · exact next_frame (State.Frame.refl A s)
  · exact next_frame (State.Frame.refl A s)

theorem stepProblem_frame {A : List StatePart} (s : State) (ring : BitVec 6) (seq : BitVec 64) (b : BitVec 11) (ph : ProbStage → Bool) (f : Course → Bool → Problem → Problem) (ha : [.rings] ⊆ A := by first | exact StatePart.sub (by assumption) (by decide) | decide) : Out.Frame A s (stepProblem ring seq b ph f s) := by
  unfold stepProblem
  repeat' first | with_reducible assumption | with_reducible exact State.Frame.refl _ _ | fail_if_no_progress extract_lets | exact StatePart.sub ha (by decide) | with_reducible apply updProb_frame | with_reducible refine act_frame ?_ | with_reducible refine next_frame ?_ | split | fail_if_no_progress ((with_reducible refine State.Frame.lit ?_ ?_ ?_ ?_ ?_ ?_ ?_ ?_ ?_ ?_ ?_ ?_ ?_ ?_ ?_ ?_ ?_ ?_ ?_ ?_ ?_ ?_ ?_ ?_ ?_ ?_ ?_ ?_ ?_) <;> first | with_reducible exact Or.inr rfl | exact Or.inl (ha (by decide)) | skip) | dsimp +zetaDelta only

theorem execAssemblyPass_frame {A : List StatePart} (s : State) (ring : BitVec 6) (seq : BitVec 64) (b : BitVec 11) (ha : [.rings] ⊆ A := by first | exact StatePart.sub (by assumption) (by decide) | decide) : Out.Frame A s (execAssemblyPass ring seq b s) := by
  unfold execAssemblyPass
  repeat' first | with_reducible assumption | with_reducible exact State.Frame.refl _ _ | exact StatePart.sub ha (by decide) | with_reducible apply stepProblem_frame | with_reducible refine next_frame ?_ | split | fail_if_no_progress ((with_reducible refine State.Frame.lit ?_ ?_ ?_ ?_ ?_ ?_ ?_ ?_ ?_ ?_ ?_ ?_ ?_ ?_ ?_ ?_ ?_ ?_ ?_ ?_ ?_ ?_ ?_ ?_ ?_ ?_ ?_ ?_ ?_) <;> first | with_reducible exact Or.inr rfl | exact Or.inl (ha (by decide)) | skip)

theorem execPanelInterval_frame {A : List StatePart} (s : State) (ring : BitVec 6) (seq : BitVec 64) (b : BitVec 11) (ha : [.rings] ⊆ A := by first | exact StatePart.sub (by assumption) (by decide) | decide) : Out.Frame A s (execPanelInterval ring seq b s) := by
  unfold execPanelInterval
  repeat' first | with_reducible assumption | with_reducible exact State.Frame.refl _ _ | fail_if_no_progress extract_lets | exact StatePart.sub ha (by decide) | with_reducible apply stepProblem_frame | with_reducible refine act_frame ?_ | with_reducible refine next_frame ?_ | with_reducible refine ite_frame ?_ ?_ | split | fail_if_no_progress ((with_reducible refine State.Frame.lit ?_ ?_ ?_ ?_ ?_ ?_ ?_ ?_ ?_ ?_ ?_ ?_ ?_ ?_ ?_ ?_ ?_ ?_ ?_ ?_ ?_ ?_ ?_ ?_ ?_ ?_ ?_ ?_ ?_) <;> first | with_reducible exact Or.inr rfl | exact Or.inl (ha (by decide)) | skip) | dsimp +zetaDelta only

theorem execSweep_frame {A : List StatePart} (s : State) (ring : BitVec 6) (seq : BitVec 64) (b : BitVec 11) (ha : [.rings] ⊆ A := by first | exact StatePart.sub (by assumption) (by decide) | decide) : Out.Frame A s (execSweep ring seq b s) := by
  unfold execSweep
  repeat' first | with_reducible assumption | with_reducible exact State.Frame.refl _ _ | fail_if_no_progress extract_lets | exact StatePart.sub ha (by decide) | with_reducible apply stepProblem_frame | with_reducible refine next_frame ?_ | with_reducible refine ite_frame ?_ ?_ | split | fail_if_no_progress ((with_reducible refine State.Frame.lit ?_ ?_ ?_ ?_ ?_ ?_ ?_ ?_ ?_ ?_ ?_ ?_ ?_ ?_ ?_ ?_ ?_ ?_ ?_ ?_ ?_ ?_ ?_ ?_ ?_ ?_ ?_ ?_ ?_) <;> first | with_reducible exact Or.inr rfl | exact Or.inl (ha (by decide)) | skip) | dsimp +zetaDelta only

theorem writeOuts_frame {A : List StatePart} {s₀ : State} {s : State} (h : s₀.Frame A s) (n : Nat) (seq : Nat) (h : Nat) (l : List (Nat × Nat)) (f : Flags) (ha : [.rings, .mem, .psched] ⊆ A := by first | exact StatePart.sub (by assumption) (by decide) | decide) : s₀.Frame A (writeOuts s n seq h l f).1 := by
  unfold writeOuts
  repeat' first | with_reducible assumption | with_reducible exact State.Frame.refl _ _ | fail_if_no_progress extract_lets | exact StatePart.sub ha (by decide) | with_reducible apply updOp_frame | with_reducible apply beginStore_frame | with_reducible apply endStore_frame | with_reducible apply convertInto_frame | with_reducible refine fst_frame (by assumption) ?_ | with_reducible refine snd_frame (by assumption) ?_ | split | fail_if_no_progress ((with_reducible refine State.Frame.lit ?_ ?_ ?_ ?_ ?_ ?_ ?_ ?_ ?_ ?_ ?_ ?_ ?_ ?_ ?_ ?_ ?_ ?_ ?_ ?_ ?_ ?_ ?_ ?_ ?_ ?_ ?_ ?_ ?_) <;> first | with_reducible exact Or.inr rfl | exact Or.inl (ha (by decide)) | skip) | dsimp +zetaDelta only

theorem writeResult_frame {A : List StatePart} {s₀ : State} {s : State} (h : s₀.Frame A s) (n : Nat) (seq : Nat) (b : Nat) (ha : [.rings, .mem, .psched] ⊆ A := by first | exact StatePart.sub (by assumption) (by decide) | decide) : s₀.Frame A (writeResult s n seq b) := by
  unfold writeResult
  repeat' first | with_reducible assumption | with_reducible exact State.Frame.refl _ _ | fail_if_no_progress extract_lets | exact StatePart.sub ha (by decide) | with_reducible apply beginStore_frame | with_reducible apply endStore_frame | with_reducible apply streamStore_frame | with_reducible apply updProb_frame | split | fail_if_no_progress ((with_reducible refine State.Frame.lit ?_ ?_ ?_ ?_ ?_ ?_ ?_ ?_ ?_ ?_ ?_ ?_ ?_ ?_ ?_ ?_ ?_ ?_ ?_ ?_ ?_ ?_ ?_ ?_ ?_ ?_ ?_ ?_ ?_) <;> first | with_reducible exact Or.inr rfl | exact Or.inl (ha (by decide)) | skip) | dsimp +zetaDelta only

theorem keepInSlot_frame {A : List StatePart} {s₀ : State} {s : State} (h : s₀.Frame A s) (p : Nat) (c : SolveOp) (b : Nat) (pr : Problem) (ha : [.psched] ⊆ A := by first | exact StatePart.sub (by assumption) (by decide) | decide) : s₀.Frame A (keepInSlot s p c b pr) := by
  unfold keepInSlot
  extract_lets x0 x1
  repeat' first | with_reducible assumption | with_reducible exact State.Frame.refl _ _ | fail_if_no_progress extract_lets | exact StatePart.sub ha (by decide) | with_reducible apply updSched_frame | with_reducible refine ite_frame ?_ ?_ | split | fail_if_no_progress ((with_reducible refine State.Frame.lit ?_ ?_ ?_ ?_ ?_ ?_ ?_ ?_ ?_ ?_ ?_ ?_ ?_ ?_ ?_ ?_ ?_ ?_ ?_ ?_ ?_ ?_ ?_ ?_ ?_ ?_ ?_ ?_ ?_) <;> first | with_reducible exact Or.inr rfl | exact Or.inl (ha (by decide)) | skip) | dsimp +zetaDelta only

theorem endCall_frame {A : List StatePart} {s₀ : State} {s : State} (h : s₀.Frame A s) (n : Nat) (o : Op) (c : SolveOp) (ha : [.rings, .mem, .psched, .events] ⊆ A := by first | exact StatePart.sub (by assumption) (by decide) | decide) : s₀.Frame A (endCall s n o c) := by
  unfold endCall
  extract_lets x0 x1 x2 x3 x4 x5
  have h2 : s₀.Frame A x2 := by
    unfold x2
    repeat' first | with_reducible assumption | with_reducible exact State.Frame.refl _ _ | fail_if_no_progress extract_lets | exact StatePart.sub ha (by decide) | with_reducible apply updOp_frame | with_reducible apply freeDevice_frame | with_reducible apply writeOuts_frame | with_reducible apply writeResult_frame | with_reducible refine fst_frame (by assumption) ?_ | with_reducible refine snd_frame (by assumption) ?_ | with_reducible refine foldl_frame (fun _ _ => ?_) ?_ | with_reducible refine ite_frame ?_ ?_ | split | fail_if_no_progress ((with_reducible refine State.Frame.lit ?_ ?_ ?_ ?_ ?_ ?_ ?_ ?_ ?_ ?_ ?_ ?_ ?_ ?_ ?_ ?_ ?_ ?_ ?_ ?_ ?_ ?_ ?_ ?_ ?_ ?_ ?_ ?_ ?_) <;> first | with_reducible exact Or.inr rfl | exact Or.inl (ha (by decide)) | skip) | dsimp +zetaDelta only
  clear_value x2
  have h3 : s₀.Frame A x3 := by
    unfold x3
    repeat' first | with_reducible assumption | with_reducible exact State.Frame.refl _ _ | fail_if_no_progress extract_lets | exact StatePart.sub ha (by decide) | with_reducible apply updOp_frame | with_reducible apply freeDevice_frame | with_reducible apply writeOuts_frame | with_reducible apply writeResult_frame | with_reducible refine fst_frame (by assumption) ?_ | with_reducible refine snd_frame (by assumption) ?_ | with_reducible refine foldl_frame (fun _ _ => ?_) ?_ | with_reducible refine ite_frame ?_ ?_ | split | fail_if_no_progress ((with_reducible refine State.Frame.lit ?_ ?_ ?_ ?_ ?_ ?_ ?_ ?_ ?_ ?_ ?_ ?_ ?_ ?_ ?_ ?_ ?_ ?_ ?_ ?_ ?_ ?_ ?_ ?_ ?_ ?_ ?_ ?_ ?_) <;> first | with_reducible exact Or.inr rfl | exact Or.inl (ha (by decide)) | skip) | dsimp +zetaDelta only
  clear_value x3
  have h4 : s₀.Frame A x4 := by
    unfold x4
    repeat' first | with_reducible assumption | with_reducible exact State.Frame.refl _ _ | fail_if_no_progress extract_lets | exact StatePart.sub ha (by decide) | with_reducible apply updOp_frame | with_reducible apply freeDevice_frame | with_reducible apply writeOuts_frame | with_reducible apply writeResult_frame | with_reducible refine fst_frame (by assumption) ?_ | with_reducible refine snd_frame (by assumption) ?_ | with_reducible refine foldl_frame (fun _ _ => ?_) ?_ | with_reducible refine ite_frame ?_ ?_ | split | fail_if_no_progress ((with_reducible refine State.Frame.lit ?_ ?_ ?_ ?_ ?_ ?_ ?_ ?_ ?_ ?_ ?_ ?_ ?_ ?_ ?_ ?_ ?_ ?_ ?_ ?_ ?_ ?_ ?_ ?_ ?_ ?_ ?_ ?_ ?_) <;> first | with_reducible exact Or.inr rfl | exact Or.inl (ha (by decide)) | skip) | dsimp +zetaDelta only
  clear_value x4
  repeat' first | with_reducible assumption | with_reducible exact State.Frame.refl _ _ | fail_if_no_progress extract_lets | exact StatePart.sub ha (by decide) | with_reducible apply updOp_frame | with_reducible apply freeDevice_frame | with_reducible apply writeOuts_frame | with_reducible apply writeResult_frame | with_reducible refine fst_frame (by assumption) ?_ | with_reducible refine snd_frame (by assumption) ?_ | with_reducible refine foldl_frame (fun _ _ => ?_) ?_ | with_reducible refine ite_frame ?_ ?_ | split | fail_if_no_progress ((with_reducible refine State.Frame.lit ?_ ?_ ?_ ?_ ?_ ?_ ?_ ?_ ?_ ?_ ?_ ?_ ?_ ?_ ?_ ?_ ?_ ?_ ?_ ?_ ?_ ?_ ?_ ?_ ?_ ?_ ?_ ?_ ?_) <;> first | with_reducible exact Or.inr rfl | exact Or.inl (ha (by decide)) | skip) | dsimp +zetaDelta only

theorem endProblem_frame {A : List StatePart} {t s : State} (h : t.Frame A s) (n : Nat) (o : Op) (c : SolveOp) (b : Nat) (pr : Problem) (ha : [.rings, .mem, .psched, .free, .events] ⊆ A := by first | exact StatePart.sub (by assumption) (by decide) | decide) : t.Frame A (endProblem s n o c b pr) := by
  unfold endProblem
  extract_lets early stop pr s1 s2 now
  have h2 : t.Frame A s2 := by
    refine State.Frame.lit (keepInSlot_frame h _ _ _ _) ?_ ?_ ?_ ?_ ?_ ?_ ?_ ?_ ?_ ?_ ?_ ?_ ?_ ?_ ?_ ?_ ?_ ?_ ?_ ?_ ?_ ?_ ?_ ?_ ?_ ?_ ?_ ?_
    all_goals first | with_reducible exact Or.inr rfl | exact Or.inl (ha (by decide))
  split
  rename_i s3 fl e
  have h3 : t.Frame A s3 := by
    refine fst_frame e (foldl_fst_frame (fun a x => ?_) h2)
    exact writeOuts_frame (State.Frame.refl A a.1) _ _ _ _ _
  clear e
  repeat' first | with_reducible assumption | exact StatePart.sub ha (by decide) | fail_if_no_progress extract_lets | split | with_reducible apply endCall_frame | with_reducible apply writeResult_frame | with_reducible apply updProb_frame | with_reducible apply updOp_frame | with_reducible refine ite_frame ?_ ?_ | dsimp +zetaDelta only

theorem execProblemEnd_frame {A : List StatePart} (s : State) (ring : BitVec 6) (seq : BitVec 64) (b : BitVec 11) (ha : [.rings, .mem, .psched, .free, .events] ⊆ A := by first | exact StatePart.sub (by assumption) (by decide) | decide) : Out.Frame A s (execProblemEnd ring seq b s) := by
  unfold execProblemEnd
  repeat' first | with_reducible assumption | with_reducible exact State.Frame.refl _ _ | fail_if_no_progress extract_lets | exact StatePart.sub ha (by decide) | with_reducible apply endProblem_frame | with_reducible refine act_frame ?_ | with_reducible refine next_frame ?_ | split | fail_if_no_progress ((with_reducible refine State.Frame.lit ?_ ?_ ?_ ?_ ?_ ?_ ?_ ?_ ?_ ?_ ?_ ?_ ?_ ?_ ?_ ?_ ?_ ?_ ?_ ?_ ?_ ?_ ?_ ?_ ?_ ?_ ?_ ?_ ?_) <;> first | with_reducible exact Or.inr rfl | exact Or.inl (ha (by decide)) | skip) | dsimp +zetaDelta only

theorem runKind_frame {A : List StatePart} (s : State) (kind : Nat) (ring : BitVec 6) (seq : BitVec 64) (b : BitVec 11) (ha : [.rings] ⊆ A := by first | exact StatePart.sub (by assumption) (by decide) | decide) : Out.Frame A s (runKind kind ring seq b s) := by
  unfold runKind
  repeat' first | with_reducible assumption | with_reducible exact State.Frame.refl _ _ | fail_if_no_progress extract_lets | exact StatePart.sub ha (by decide) | with_reducible apply updProb_frame | with_reducible refine act_frame ?_ | with_reducible refine next_frame ?_ | split | fail_if_no_progress ((with_reducible refine State.Frame.lit ?_ ?_ ?_ ?_ ?_ ?_ ?_ ?_ ?_ ?_ ?_ ?_ ?_ ?_ ?_ ?_ ?_ ?_ ?_ ?_ ?_ ?_ ?_ ?_ ?_ ?_ ?_ ?_ ?_) <;> first | with_reducible exact Or.inr rfl | exact Or.inl (ha (by decide)) | skip) | dsimp +zetaDelta only

theorem execDchol_frame {A : List StatePart} (s : State) (ring : BitVec 6) (seq : BitVec 64) (b : BitVec 11) (ha : [.rings] ⊆ A := by first | exact StatePart.sub (by assumption) (by decide) | decide) : Out.Frame A s (execDchol ring seq b s) := by
  unfold execDchol
  repeat' first | with_reducible assumption | with_reducible exact State.Frame.refl _ _ | exact StatePart.sub ha (by decide) | with_reducible apply runKind_frame | with_reducible refine next_frame ?_ | split | fail_if_no_progress ((with_reducible refine State.Frame.lit ?_ ?_ ?_ ?_ ?_ ?_ ?_ ?_ ?_ ?_ ?_ ?_ ?_ ?_ ?_ ?_ ?_ ?_ ?_ ?_ ?_ ?_ ?_ ?_ ?_ ?_ ?_ ?_ ?_) <;> first | with_reducible exact Or.inr rfl | exact Or.inl (ha (by decide)) | skip)

theorem execDldlt_frame {A : List StatePart} (s : State) (ring : BitVec 6) (seq : BitVec 64) (b : BitVec 11) (ha : [.rings] ⊆ A := by first | exact StatePart.sub (by assumption) (by decide) | decide) : Out.Frame A s (execDldlt ring seq b s) := by
  unfold execDldlt
  repeat' first | with_reducible assumption | with_reducible exact State.Frame.refl _ _ | exact StatePart.sub ha (by decide) | with_reducible apply runKind_frame | with_reducible refine next_frame ?_ | split | fail_if_no_progress ((with_reducible refine State.Frame.lit ?_ ?_ ?_ ?_ ?_ ?_ ?_ ?_ ?_ ?_ ?_ ?_ ?_ ?_ ?_ ?_ ?_ ?_ ?_ ?_ ?_ ?_ ?_ ?_ ?_ ?_ ?_ ?_ ?_) <;> first | with_reducible exact Or.inr rfl | exact Or.inl (ha (by decide)) | skip)

theorem execDqr_frame {A : List StatePart} (s : State) (ring : BitVec 6) (seq : BitVec 64) (b : BitVec 11) (ha : [.rings] ⊆ A := by first | exact StatePart.sub (by assumption) (by decide) | decide) : Out.Frame A s (execDqr ring seq b s) := by
  unfold execDqr
  repeat' first | with_reducible assumption | with_reducible exact State.Frame.refl _ _ | exact StatePart.sub ha (by decide) | with_reducible apply runKind_frame | with_reducible refine next_frame ?_ | split | fail_if_no_progress ((with_reducible refine State.Frame.lit ?_ ?_ ?_ ?_ ?_ ?_ ?_ ?_ ?_ ?_ ?_ ?_ ?_ ?_ ?_ ?_ ?_ ?_ ?_ ?_ ?_ ?_ ?_ ?_ ?_ ?_ ?_ ?_ ?_) <;> first | with_reducible exact Or.inr rfl | exact Or.inl (ha (by decide)) | skip)

theorem execTree_frame {A : List StatePart} (s : State) (ring : BitVec 6) (seq : BitVec 64) (b : BitVec 11) (ha : [.rings] ⊆ A := by first | exact StatePart.sub (by assumption) (by decide) | decide) : Out.Frame A s (execTree ring seq b s) := by
  unfold execTree
  repeat' first | with_reducible assumption | with_reducible exact State.Frame.refl _ _ | exact StatePart.sub ha (by decide) | with_reducible apply runKind_frame | with_reducible refine next_frame ?_ | split | fail_if_no_progress ((with_reducible refine State.Frame.lit ?_ ?_ ?_ ?_ ?_ ?_ ?_ ?_ ?_ ?_ ?_ ?_ ?_ ?_ ?_ ?_ ?_ ?_ ?_ ?_ ?_ ?_ ?_ ?_ ?_ ?_ ?_ ?_ ?_) <;> first | with_reducible exact Or.inr rfl | exact Or.inl (ha (by decide)) | skip)

theorem execKkt_frame {A : List StatePart} (s : State) (ring : BitVec 6) (seq : BitVec 64) (b : BitVec 11) (ha : [.rings] ⊆ A := by first | exact StatePart.sub (by assumption) (by decide) | decide) : Out.Frame A s (execKkt ring seq b s) := by
  unfold execKkt
  repeat' first | with_reducible assumption | with_reducible exact State.Frame.refl _ _ | exact StatePart.sub ha (by decide) | with_reducible apply runKind_frame | with_reducible refine next_frame ?_ | split | fail_if_no_progress ((with_reducible refine State.Frame.lit ?_ ?_ ?_ ?_ ?_ ?_ ?_ ?_ ?_ ?_ ?_ ?_ ?_ ?_ ?_ ?_ ?_ ?_ ?_ ?_ ?_ ?_ ?_ ?_ ?_ ?_ ?_ ?_ ?_) <;> first | with_reducible exact Or.inr rfl | exact Or.inl (ha (by decide)) | skip)

theorem execContact_frame {A : List StatePart} (s : State) (ring : BitVec 6) (seq : BitVec 64) (b : BitVec 11) (ha : [.rings] ⊆ A := by first | exact StatePart.sub (by assumption) (by decide) | decide) : Out.Frame A s (execContact ring seq b s) := by
  unfold execContact
  repeat' first | with_reducible assumption | with_reducible exact State.Frame.refl _ _ | exact StatePart.sub ha (by decide) | with_reducible apply runKind_frame | with_reducible refine act_frame ?_ | with_reducible refine next_frame ?_ | split | fail_if_no_progress ((with_reducible refine State.Frame.lit ?_ ?_ ?_ ?_ ?_ ?_ ?_ ?_ ?_ ?_ ?_ ?_ ?_ ?_ ?_ ?_ ?_ ?_ ?_ ?_ ?_ ?_ ?_ ?_ ?_ ?_ ?_ ?_ ?_) <;> first | with_reducible exact Or.inr rfl | exact Or.inl (ha (by decide)) | skip)

theorem drainCall_frame {A : List StatePart} {s₀ : State} {s : State} (h : s₀.Frame A s) (n : Nat) (seq : Nat) (ha : [.rings, .mem, .psched, .free, .events] ⊆ A := by first | exact StatePart.sub (by assumption) (by decide) | decide) : s₀.Frame A (drainCall s n seq) := by
  unfold drainCall
  repeat' first | with_reducible assumption | with_reducible exact State.Frame.refl _ _ | fail_if_no_progress extract_lets | exact StatePart.sub ha (by decide) | with_reducible apply updProb_frame | with_reducible apply endProblem_frame | with_reducible refine each_frame (fun _ _ => ?_) ?_ | split | fail_if_no_progress ((with_reducible refine State.Frame.lit ?_ ?_ ?_ ?_ ?_ ?_ ?_ ?_ ?_ ?_ ?_ ?_ ?_ ?_ ?_ ?_ ?_ ?_ ?_ ?_ ?_ ?_ ?_ ?_ ?_ ?_ ?_ ?_ ?_) <;> first | with_reducible exact Or.inr rfl | exact Or.inl (ha (by decide)) | skip) | dsimp +zetaDelta only

theorem wholeCall_frame {A : List StatePart} {t s : State} (h : t.Frame A s) (k n seq : Nat) (ha : [.rings, .rooms, .link, .mem, .can, .psched, .free, .ports, .log, .events] ⊆ A := by first | exact StatePart.sub (by assumption) (by decide) | decide) : t.Frame A (wholeCall k s n seq) := by
  induction k generalizing s with
  | zero => exact h
  | succ k ih =>
    unfold wholeCall
    extract_lets u
    have hu : t.Frame A u := drainCall_frame h _ _
    split
    · rename_i v hv
      obtain ⟨o, -, ho⟩ := Option.bind_eq_some_iff.mp hv
      exact ih (tryStart_frame hu _ _ ho)
    · exact hu

theorem runCall_frame {A : List StatePart} (s : State) (mode : Nat) (ring : BitVec 6) (seq : BitVec 64) (ha : [.rings, .rooms, .link, .mem, .can, .psched, .free, .ports, .log, .events] ⊆ A := by first | exact StatePart.sub (by assumption) (by decide) | decide) : Out.Frame A s (runCall mode ring seq s) := by
  unfold runCall
  repeat' first | with_reducible assumption | with_reducible exact State.Frame.refl _ _ | fail_if_no_progress extract_lets | exact StatePart.sub ha (by decide) | with_reducible apply wholeCall_frame | with_reducible refine act_frame ?_ | with_reducible refine next_frame ?_ | split | fail_if_no_progress ((with_reducible refine State.Frame.lit ?_ ?_ ?_ ?_ ?_ ?_ ?_ ?_ ?_ ?_ ?_ ?_ ?_ ?_ ?_ ?_ ?_ ?_ ?_ ?_ ?_ ?_ ?_ ?_ ?_ ?_ ?_ ?_ ?_) <;> first | with_reducible exact Or.inr rfl | exact Or.inl (ha (by decide)) | skip) | dsimp +zetaDelta only

theorem execSolveForward_frame {A : List StatePart} (s : State) (ring : BitVec 6) (seq : BitVec 64) (ha : [.rings, .rooms, .link, .mem, .can, .psched, .free, .ports, .log, .events] ⊆ A := by first | exact StatePart.sub (by assumption) (by decide) | decide) : Out.Frame A s (execSolveForward ring seq s) := by
  unfold execSolveForward
  repeat' first | with_reducible assumption | with_reducible exact State.Frame.refl _ _ | exact StatePart.sub ha (by decide) | with_reducible apply runCall_frame | with_reducible refine next_frame ?_ | split | fail_if_no_progress ((with_reducible refine State.Frame.lit ?_ ?_ ?_ ?_ ?_ ?_ ?_ ?_ ?_ ?_ ?_ ?_ ?_ ?_ ?_ ?_ ?_ ?_ ?_ ?_ ?_ ?_ ?_ ?_ ?_ ?_ ?_ ?_ ?_) <;> first | with_reducible exact Or.inr rfl | exact Or.inl (ha (by decide)) | skip)

theorem execSolveAdjoint_frame {A : List StatePart} (s : State) (ring : BitVec 6) (seq : BitVec 64) (ha : [.rings, .rooms, .link, .mem, .can, .psched, .free, .ports, .log, .events] ⊆ A := by first | exact StatePart.sub (by assumption) (by decide) | decide) : Out.Frame A s (execSolveAdjoint ring seq s) := by
  unfold execSolveAdjoint
  repeat' first | with_reducible assumption | with_reducible exact State.Frame.refl _ _ | exact StatePart.sub ha (by decide) | with_reducible apply runCall_frame | with_reducible refine next_frame ?_ | split | fail_if_no_progress ((with_reducible refine State.Frame.lit ?_ ?_ ?_ ?_ ?_ ?_ ?_ ?_ ?_ ?_ ?_ ?_ ?_ ?_ ?_ ?_ ?_ ?_ ?_ ?_ ?_ ?_ ?_ ?_ ?_ ?_ ?_ ?_ ?_) <;> first | with_reducible exact Or.inr rfl | exact Or.inl (ha (by decide)) | skip)

theorem execSolverDeadline_frame {A : List StatePart} (s : State) (k : BitVec 8) (ha : [.rings, .firedNow, .events, .firedStops] ⊆ A := by first | exact StatePart.sub (by assumption) (by decide) | decide) : Out.Frame A s (execSolverDeadline k s) := by
  unfold execSolverDeadline
  repeat' first | with_reducible assumption | with_reducible exact State.Frame.refl _ _ | fail_if_no_progress extract_lets | exact StatePart.sub ha (by decide) | with_reducible apply updOp_frame | with_reducible apply markFired_frame | with_reducible refine act_frame ?_ | with_reducible refine next_frame ?_ | split | fail_if_no_progress ((with_reducible refine State.Frame.lit ?_ ?_ ?_ ?_ ?_ ?_ ?_ ?_ ?_ ?_ ?_ ?_ ?_ ?_ ?_ ?_ ?_ ?_ ?_ ?_ ?_ ?_ ?_ ?_ ?_ ?_ ?_ ?_ ?_) <;> first | with_reducible exact Or.inr rfl | exact Or.inl (ha (by decide)) | skip) | dsimp +zetaDelta only

/-! ### Fabric -/

theorem startReduce_frame {A : List StatePart} {s₀ : State} {s : State} (h : s₀.Frame A s) (n : Nat) (o : Op) (ha : [.mem] ⊆ A := by first | exact StatePart.sub (by assumption) (by decide) | decide) : s₀.Frame A (startReduce s n o).1 := by
  unfold startReduce
  extract_lets x0 x1 x2 x3 x4
  have h3 : s₀.Frame A x3 := by
    unfold x3
    repeat' first | with_reducible assumption | with_reducible exact State.Frame.refl _ _ | fail_if_no_progress extract_lets | exact StatePart.sub ha (by decide) | with_reducible apply touch_frame | with_reducible refine ite_frame ?_ ?_ | split | fail_if_no_progress ((with_reducible refine State.Frame.lit ?_ ?_ ?_ ?_ ?_ ?_ ?_ ?_ ?_ ?_ ?_ ?_ ?_ ?_ ?_ ?_ ?_ ?_ ?_ ?_ ?_ ?_ ?_ ?_ ?_ ?_ ?_ ?_ ?_) <;> first | with_reducible exact Or.inr rfl | exact Or.inl (ha (by decide)) | skip) | dsimp +zetaDelta only
  clear_value x3
  repeat' first | with_reducible assumption | with_reducible exact State.Frame.refl _ _ | fail_if_no_progress extract_lets | exact StatePart.sub ha (by decide) | with_reducible apply touch_frame | with_reducible refine ite_frame ?_ ?_ | split | fail_if_no_progress ((with_reducible refine State.Frame.lit ?_ ?_ ?_ ?_ ?_ ?_ ?_ ?_ ?_ ?_ ?_ ?_ ?_ ?_ ?_ ?_ ?_ ?_ ?_ ?_ ?_ ?_ ?_ ?_ ?_ ?_ ?_ ?_ ?_) <;> first | with_reducible exact Or.inr rfl | exact Or.inl (ha (by decide)) | skip) | dsimp +zetaDelta only

theorem sendPieceOn_frame {A : List StatePart} {s₀ : State} {s : State} (h : s₀.Frame A s) (p : Nat) (o : Op) (b : Bucket) (port : Nat) (path : Nat) (level : Nat) (seg : Nat) (piece : Nat) (q : Nat) (down : Bool) (x : Piece) (ha : [.ports] ⊆ A := by first | exact StatePart.sub (by assumption) (by decide) | decide) : s₀.Frame A (sendPieceOn s p o b port path level seg piece q down x) := by
  unfold sendPieceOn
  repeat' first | with_reducible assumption | with_reducible exact State.Frame.refl _ _ | exact StatePart.sub ha (by decide) | with_reducible apply sendTo_frame | split | fail_if_no_progress ((with_reducible refine State.Frame.lit ?_ ?_ ?_ ?_ ?_ ?_ ?_ ?_ ?_ ?_ ?_ ?_ ?_ ?_ ?_ ?_ ?_ ?_ ?_ ?_ ?_ ?_ ?_ ?_ ?_ ?_ ?_ ?_ ?_) <;> first | with_reducible exact Or.inr rfl | exact Or.inl (ha (by decide)) | skip)

theorem sendPiece_frame {A : List StatePart} {s₀ : State} {s : State} (h : s₀.Frame A s) (p : Nat) (o : Op) (b : Bucket) (path : Nat) (level : Nat) (seg : Nat) (piece : Nat) (q : Nat) (down : Bool) (x : Piece) (ha : [.ports] ⊆ A := by first | exact StatePart.sub (by assumption) (by decide) | decide) : s₀.Frame A (sendPiece s p o b path level seg piece q down x) := by
  unfold sendPiece
  repeat' first | with_reducible assumption | with_reducible exact State.Frame.refl _ _ | exact StatePart.sub ha (by decide) | with_reducible apply sendPieceOn_frame | split | fail_if_no_progress ((with_reducible refine State.Frame.lit ?_ ?_ ?_ ?_ ?_ ?_ ?_ ?_ ?_ ?_ ?_ ?_ ?_ ?_ ?_ ?_ ?_ ?_ ?_ ?_ ?_ ?_ ?_ ?_ ?_ ?_ ?_ ?_ ?_) <;> first | with_reducible exact Or.inr rfl | exact Or.inl (ha (by decide)) | skip)

theorem resultPiece_frame {A : List StatePart} {s₀ : State} {s : State} (h : s₀.Frame A s) (p : Nat) (n : Nat) (seq : Nat) (o : Op) (b : Bucket) (seg : Nat) (piece : Nat) (x : Piece) (ha : [.rings, .ports] ⊆ A := by first | exact StatePart.sub (by assumption) (by decide) | decide) : s₀.Frame A (resultPiece s p n seq o b seg piece x) := by
  unfold resultPiece
  extract_lets x0
  have h0 : s₀.Frame A x0 := by
    unfold x0
    repeat' first | with_reducible assumption | with_reducible exact State.Frame.refl _ _ | fail_if_no_progress extract_lets | exact StatePart.sub ha (by decide) | with_reducible apply updBucket_frame | with_reducible apply sendPiece_frame | with_reducible refine foldl_frame (fun _ _ => ?_) ?_ | with_reducible refine ite_frame ?_ ?_ | split | fail_if_no_progress ((with_reducible refine State.Frame.lit ?_ ?_ ?_ ?_ ?_ ?_ ?_ ?_ ?_ ?_ ?_ ?_ ?_ ?_ ?_ ?_ ?_ ?_ ?_ ?_ ?_ ?_ ?_ ?_ ?_ ?_ ?_ ?_ ?_) <;> first | with_reducible exact Or.inr rfl | exact Or.inl (ha (by decide)) | skip) | dsimp +zetaDelta only
  clear_value x0
  repeat' first | with_reducible assumption | with_reducible exact State.Frame.refl _ _ | fail_if_no_progress extract_lets | exact StatePart.sub ha (by decide) | with_reducible apply updBucket_frame | with_reducible apply sendPiece_frame | with_reducible refine foldl_frame (fun _ _ => ?_) ?_ | with_reducible refine ite_frame ?_ ?_ | split | fail_if_no_progress ((with_reducible refine State.Frame.lit ?_ ?_ ?_ ?_ ?_ ?_ ?_ ?_ ?_ ?_ ?_ ?_ ?_ ?_ ?_ ?_ ?_ ?_ ?_ ?_ ?_ ?_ ?_ ?_ ?_ ?_ ?_ ?_ ?_) <;> first | with_reducible exact Or.inr rfl | exact Or.inl (ha (by decide)) | skip) | dsimp +zetaDelta only

theorem endBucket_frame {A : List StatePart} {s₀ : State} {s : State} (h : s₀.Frame A s) (n : Nat) (o : Op) (cause : U16) (ha : [.rings, .rooms, .link, .mem, .can, .psched, .free, .ports, .log, .events] ⊆ A := by first | exact StatePart.sub (by assumption) (by decide) | decide) : s₀.Frame A (endBucket s n o cause) := by
  unfold endBucket
  repeat' first | with_reducible assumption | with_reducible exact State.Frame.refl _ _ | exact StatePart.sub ha (by decide) | with_reducible apply faultOp_frame | split | fail_if_no_progress ((with_reducible refine State.Frame.lit ?_ ?_ ?_ ?_ ?_ ?_ ?_ ?_ ?_ ?_ ?_ ?_ ?_ ?_ ?_ ?_ ?_ ?_ ?_ ?_ ?_ ?_ ?_ ?_ ?_ ?_ ?_ ?_ ?_) <;> first | with_reducible exact Or.inr rfl | exact Or.inl (ha (by decide)) | skip)

theorem rootPiece_frame {A : List StatePart} {s₀ : State} {s : State} (h : s₀.Frame A s) (p : Nat) (n : Nat) (seq : Nat) (seg : Nat) (piece : Nat) (ha : [.rings, .rooms, .link, .mem, .can, .psched, .free, .ports, .log, .events] ⊆ A := by first | exact StatePart.sub (by assumption) (by decide) | decide) : s₀.Frame A (rootPiece s p n seq seg piece) := by
  unfold rootPiece
  repeat' first | with_reducible assumption | with_reducible exact State.Frame.refl _ _ | fail_if_no_progress extract_lets | exact StatePart.sub ha (by decide) | with_reducible apply redoBelow_frame | with_reducible apply resultPiece_frame | with_reducible apply endBucket_frame | with_reducible refine each_frame (fun _ _ => ?_) ?_ | with_reducible refine ite_frame ?_ ?_ | split | fail_if_no_progress ((with_reducible refine State.Frame.lit ?_ ?_ ?_ ?_ ?_ ?_ ?_ ?_ ?_ ?_ ?_ ?_ ?_ ?_ ?_ ?_ ?_ ?_ ?_ ?_ ?_ ?_ ?_ ?_ ?_ ?_ ?_ ?_ ?_) <;> first | with_reducible exact Or.inr rfl | exact Or.inl (ha (by decide)) | skip)

theorem countSent_frame {A : List StatePart} {s₀ : State} {s : State} (h : s₀.Frame A s) (p : Nat) (b : Bucket) (k : Nat) (ha : [.ppeer] ⊆ A := by first | exact StatePart.sub (by assumption) (by decide) | decide) : s₀.Frame A (countSent s p b k) := by
  unfold countSent
  repeat' first | with_reducible assumption | with_reducible exact State.Frame.refl _ _ | fail_if_no_progress extract_lets | exact StatePart.sub ha (by decide) | with_reducible apply updPeer_frame | split | fail_if_no_progress ((with_reducible refine State.Frame.lit ?_ ?_ ?_ ?_ ?_ ?_ ?_ ?_ ?_ ?_ ?_ ?_ ?_ ?_ ?_ ?_ ?_ ?_ ?_ ?_ ?_ ?_ ?_ ?_ ?_ ?_ ?_ ?_ ?_) <;> first | with_reducible exact Or.inr rfl | exact Or.inl (ha (by decide)) | skip)

theorem formNode_frame {A : List StatePart} {s₀ : State} {s : State} (h : s₀.Frame A s) (p : Nat) (n : Nat) (seq : Nat) (path : Nat) (seg : Nat) (piece : Nat) (ha : [.rings, .rooms, .link, .mem, .can, .psched, .free, .ports, .log, .events, .ppeer] ⊆ A := by first | exact StatePart.sub (by assumption) (by decide) | decide) : s₀.Frame A (formNode s p n seq path seg piece) := by
  unfold formNode
  repeat' first | with_reducible assumption | with_reducible exact State.Frame.refl _ _ | fail_if_no_progress extract_lets | exact StatePart.sub ha (by decide) | with_reducible apply updOp_frame | with_reducible apply faultOp_frame | with_reducible apply updBucket_frame | with_reducible apply touchElems_frame | with_reducible apply sendPiece_frame | with_reducible apply rootPiece_frame | with_reducible apply countSent_frame | with_reducible refine ite_frame ?_ ?_ | split | fail_if_no_progress ((with_reducible refine State.Frame.lit ?_ ?_ ?_ ?_ ?_ ?_ ?_ ?_ ?_ ?_ ?_ ?_ ?_ ?_ ?_ ?_ ?_ ?_ ?_ ?_ ?_ ?_ ?_ ?_ ?_ ?_ ?_ ?_ ?_) <;> first | with_reducible exact Or.inr rfl | exact Or.inl (ha (by decide)) | skip) | dsimp +zetaDelta only

theorem usePiece_frame {A : List StatePart} {s₀ : State} {s : State} (h : s₀.Frame A s) (p : Nat) (n : Nat) (seq : Nat) (seg : Nat) (piece : Nat) (ha : [.rings, .rooms, .link, .svc, .mem, .can, .psched, .free, .ports, .log, .events, .ppeer] ⊆ A := by first | exact StatePart.sub (by assumption) (by decide) | decide) : s₀.Frame A (usePiece s p n seq seg piece) := by
  unfold usePiece
  repeat' first | with_reducible assumption | with_reducible exact State.Frame.refl _ _ | fail_if_no_progress extract_lets | exact StatePart.sub ha (by decide) | with_reducible apply updBucket_frame | with_reducible apply sendRedo_frame | with_reducible apply takeOut_frame | with_reducible apply endBucket_frame | with_reducible apply formNode_frame | with_reducible refine ite_frame ?_ ?_ | split | fail_if_no_progress ((with_reducible refine State.Frame.lit ?_ ?_ ?_ ?_ ?_ ?_ ?_ ?_ ?_ ?_ ?_ ?_ ?_ ?_ ?_ ?_ ?_ ?_ ?_ ?_ ?_ ?_ ?_ ?_ ?_ ?_ ?_ ?_ ?_) <;> first | with_reducible exact Or.inr rfl | exact Or.inl (ha (by decide)) | skip) | dsimp +zetaDelta only

theorem suspectPort_frame {A : List StatePart} {s₀ : State} {s : State} (h : s₀.Frame A s) (j : Nat) (ha : [.rings, .rooms, .link, .svc, .mem, .can, .psched, .free, .ports, .log, .events] ⊆ A := by first | exact StatePart.sub (by assumption) (by decide) | decide) : s₀.Frame A (suspectPort s j) := by
  unfold suspectPort
  repeat' first | with_reducible assumption | with_reducible exact State.Frame.refl _ _ | exact StatePart.sub ha (by decide) | with_reducible apply takeOut_frame | with_reducible refine each_frame (fun _ _ => ?_) ?_ | split | fail_if_no_progress ((with_reducible refine State.Frame.lit ?_ ?_ ?_ ?_ ?_ ?_ ?_ ?_ ?_ ?_ ?_ ?_ ?_ ?_ ?_ ?_ ?_ ?_ ?_ ?_ ?_ ?_ ?_ ?_ ?_ ?_ ?_ ?_ ?_) <;> first | with_reducible exact Or.inr rfl | exact Or.inl (ha (by decide)) | skip)

theorem countVote_frame {A : List StatePart} {s₀ : State} {s : State} (h : s₀.Frame A s) (p : Nat) (n : Nat) (seq : Nat) (o : Op) (b : Bucket) (k : Nat) (x : Piece) (ha : [.rings, .rooms, .link, .svc, .mem, .can, .psched, .free, .ports, .log, .events] ⊆ A := by first | exact StatePart.sub (by assumption) (by decide) | decide) : s₀.Frame A (countVote s p n seq o b k x) := by
  unfold countVote
  extract_lets x0 x1 x2 x3 x4
  repeat' first | with_reducible assumption | with_reducible exact State.Frame.refl _ _ | fail_if_no_progress extract_lets | exact StatePart.sub ha (by decide) | with_reducible apply updBucket_frame | with_reducible apply wantRedo_frame | with_reducible apply endBucket_frame | with_reducible apply suspectPort_frame | with_reducible refine ite_frame ?_ ?_ | split | fail_if_no_progress ((with_reducible refine State.Frame.lit ?_ ?_ ?_ ?_ ?_ ?_ ?_ ?_ ?_ ?_ ?_ ?_ ?_ ?_ ?_ ?_ ?_ ?_ ?_ ?_ ?_ ?_ ?_ ?_ ?_ ?_ ?_ ?_ ?_) <;> first | with_reducible exact Or.inr rfl | exact Or.inl (ha (by decide)) | skip) | dsimp +zetaDelta only

theorem reducePrepass_frame {A : List StatePart} {s₀ : State} {s : State} (h : s₀.Frame A s) (p : Nat) (o : Op) (b : Bucket) (ha : [.psched] ⊆ A := by first | exact StatePart.sub (by assumption) (by decide) | decide) : s₀.Frame A (reducePrepass s p o b).1 := by
  unfold reducePrepass
  extract_lets x0
  repeat' first | with_reducible assumption | with_reducible exact State.Frame.refl _ _ | fail_if_no_progress extract_lets | exact StatePart.sub ha (by decide) | with_reducible apply prepass_frame | with_reducible refine fst_frame (by assumption) ?_ | with_reducible refine snd_frame (by assumption) ?_ | with_reducible refine ite_frame ?_ ?_ | split | fail_if_no_progress ((with_reducible refine State.Frame.lit ?_ ?_ ?_ ?_ ?_ ?_ ?_ ?_ ?_ ?_ ?_ ?_ ?_ ?_ ?_ ?_ ?_ ?_ ?_ ?_ ?_ ?_ ?_ ?_ ?_ ?_ ?_ ?_ ?_) <;> first | with_reducible exact Or.inr rfl | exact Or.inl (ha (by decide)) | skip) | dsimp +zetaDelta only

theorem writeSegment_frame {A : List StatePart} {s₀ : State} {s : State} (h : s₀.Frame A s) (p : Nat) (n : Nat) (seq : Nat) (o : Op) (b : Bucket) (seg : Nat) (ha : [.rings, .rooms, .link, .mem, .can, .psched, .free, .ports, .log, .events] ⊆ A := by first | exact StatePart.sub (by assumption) (by decide) | decide) : s₀.Frame A (writeSegment s p n seq o b seg) := by
  unfold writeSegment
  extract_lets x0 x1
  repeat' first | with_reducible assumption | with_reducible exact State.Frame.refl _ _ | fail_if_no_progress extract_lets | exact StatePart.sub ha (by decide) | with_reducible apply updOp_frame | with_reducible apply faultOp_frame | with_reducible apply beginStore_frame | with_reducible apply endStore_frame | with_reducible apply writeElems_frame | with_reducible apply reducePrepass_frame | with_reducible refine fst_frame (by assumption) ?_ | with_reducible refine snd_frame (by assumption) ?_ | split | fail_if_no_progress ((with_reducible refine State.Frame.lit ?_ ?_ ?_ ?_ ?_ ?_ ?_ ?_ ?_ ?_ ?_ ?_ ?_ ?_ ?_ ?_ ?_ ?_ ?_ ?_ ?_ ?_ ?_ ?_ ?_ ?_ ?_ ?_ ?_) <;> first | with_reducible exact Or.inr rfl | exact Or.inl (ha (by decide)) | skip) | dsimp +zetaDelta only

theorem completeSegment_frame {A : List StatePart} {s₀ : State} {s : State} (h : s₀.Frame A s) (p : Nat) (n : Nat) (seq : Nat) (o : Op) (b : Bucket) (ha : [.rings, .rooms, .link, .mem, .can, .psched, .free, .ports, .log, .events, .ppeer] ⊆ A := by first | exact StatePart.sub (by assumption) (by decide) | decide) : s₀.Frame A (completeSegment s p n seq o b) := by
  unfold completeSegment
  extract_lets x0
  have h0 : s₀.Frame A x0 := by
    unfold x0
    repeat' first | with_reducible assumption | with_reducible exact State.Frame.refl _ _ | fail_if_no_progress extract_lets | exact StatePart.sub ha (by decide) | with_reducible apply logEvent_frame | with_reducible apply updOp_frame | with_reducible apply updBucket_frame | with_reducible apply writeSegment_frame | with_reducible apply countSent_frame | with_reducible refine ite_frame ?_ ?_ | split | fail_if_no_progress ((with_reducible refine State.Frame.lit ?_ ?_ ?_ ?_ ?_ ?_ ?_ ?_ ?_ ?_ ?_ ?_ ?_ ?_ ?_ ?_ ?_ ?_ ?_ ?_ ?_ ?_ ?_ ?_ ?_ ?_ ?_ ?_ ?_) <;> first | with_reducible exact Or.inr rfl | exact Or.inl (ha (by decide)) | skip) | dsimp +zetaDelta only
  clear_value x0
  repeat' first | with_reducible assumption | with_reducible exact State.Frame.refl _ _ | fail_if_no_progress extract_lets | exact StatePart.sub ha (by decide) | with_reducible apply logEvent_frame | with_reducible apply updOp_frame | with_reducible apply updBucket_frame | with_reducible apply writeSegment_frame | with_reducible apply countSent_frame | with_reducible refine ite_frame ?_ ?_ | split | fail_if_no_progress ((with_reducible refine State.Frame.lit ?_ ?_ ?_ ?_ ?_ ?_ ?_ ?_ ?_ ?_ ?_ ?_ ?_ ?_ ?_ ?_ ?_ ?_ ?_ ?_ ?_ ?_ ?_ ?_ ?_ ?_ ?_ ?_ ?_) <;> first | with_reducible exact Or.inr rfl | exact Or.inl (ha (by decide)) | skip) | dsimp +zetaDelta only

theorem activate_frame {A : List StatePart} {s₀ : State} {s : State} (h : s₀.Frame A s) (p : Nat) (n : Nat) (seq : Nat) (ha : [.rings] ⊆ A := by first | exact StatePart.sub (by assumption) (by decide) | decide) : s₀.Frame A (activate s p n seq) := by
  unfold activate
  repeat' first | with_reducible assumption | with_reducible exact State.Frame.refl _ _ | fail_if_no_progress extract_lets | exact StatePart.sub ha (by decide) | with_reducible apply updBucket_frame | with_reducible refine act_frame ?_ | split | fail_if_no_progress ((with_reducible refine State.Frame.lit ?_ ?_ ?_ ?_ ?_ ?_ ?_ ?_ ?_ ?_ ?_ ?_ ?_ ?_ ?_ ?_ ?_ ?_ ?_ ?_ ?_ ?_ ?_ ?_ ?_ ?_ ?_ ?_ ?_) <;> first | with_reducible exact Or.inr rfl | exact Or.inl (ha (by decide)) | skip)

theorem sendSegment_frame {A : List StatePart} {s₀ : State} {s : State} (h : s₀.Frame A s) (p : Nat) (n : Nat) (seq : Nat) (o : Op) (b : Bucket) (seg : Nat) (ha : [.rings, .rooms, .link, .svc, .mem, .can, .psched, .free, .ports, .log, .events, .ppeer] ⊆ A := by first | exact StatePart.sub (by assumption) (by decide) | decide) : s₀.Frame A (sendSegment s p n seq o b seg) := by
  unfold sendSegment
  extract_lets x0 x1
  have h0 : s₀.Frame A x0 := by
    unfold x0
    repeat' first | with_reducible assumption | with_reducible exact State.Frame.refl _ _ | fail_if_no_progress extract_lets | exact StatePart.sub ha (by decide) | with_reducible apply updBucket_frame | with_reducible apply countSent_frame | with_reducible apply usePiece_frame | with_reducible refine each_frame (fun _ _ => ?_) ?_ | split | fail_if_no_progress ((with_reducible refine State.Frame.lit ?_ ?_ ?_ ?_ ?_ ?_ ?_ ?_ ?_ ?_ ?_ ?_ ?_ ?_ ?_ ?_ ?_ ?_ ?_ ?_ ?_ ?_ ?_ ?_ ?_ ?_ ?_ ?_ ?_) <;> first | with_reducible exact Or.inr rfl | exact Or.inl (ha (by decide)) | skip) | dsimp +zetaDelta only
  clear_value x0
  have h1 : s₀.Frame A x1 := by
    unfold x1
    repeat' first | with_reducible assumption | with_reducible exact State.Frame.refl _ _ | fail_if_no_progress extract_lets | exact StatePart.sub ha (by decide) | with_reducible apply updBucket_frame | with_reducible apply countSent_frame | with_reducible apply usePiece_frame | with_reducible refine each_frame (fun _ _ => ?_) ?_ | split | fail_if_no_progress ((with_reducible refine State.Frame.lit ?_ ?_ ?_ ?_ ?_ ?_ ?_ ?_ ?_ ?_ ?_ ?_ ?_ ?_ ?_ ?_ ?_ ?_ ?_ ?_ ?_ ?_ ?_ ?_ ?_ ?_ ?_ ?_ ?_) <;> first | with_reducible exact Or.inr rfl | exact Or.inl (ha (by decide)) | skip) | dsimp +zetaDelta only
  clear_value x1
  repeat' first | with_reducible assumption | with_reducible exact State.Frame.refl _ _ | fail_if_no_progress extract_lets | exact StatePart.sub ha (by decide) | with_reducible apply updBucket_frame | with_reducible apply countSent_frame | with_reducible apply usePiece_frame | with_reducible refine each_frame (fun _ _ => ?_) ?_ | split | fail_if_no_progress ((with_reducible refine State.Frame.lit ?_ ?_ ?_ ?_ ?_ ?_ ?_ ?_ ?_ ?_ ?_ ?_ ?_ ?_ ?_ ?_ ?_ ?_ ?_ ?_ ?_ ?_ ?_ ?_ ?_ ?_ ?_ ?_ ?_) <;> first | with_reducible exact Or.inr rfl | exact Or.inl (ha (by decide)) | skip) | dsimp +zetaDelta only

theorem pumpStep_frame {A : List StatePart} {s₀ s u : State} (h : s₀.Frame A s) (p : Nat) (chan : Nat) (e : pumpStep s p chan = some u) (ha : [.rings, .rooms, .link, .svc, .mem, .can, .psched, .free, .ports, .log, .events, .ppeer] ⊆ A := by first | exact StatePart.sub (by assumption) (by decide) | decide) : s₀.Frame A u := by
  unfold pumpStep at e
  repeat' first | fail_if_no_progress extract_lets at e | split at e
  all_goals first | (cases e; done) | (rw [← Option.some.inj e]; clear e) | (obtain ⟨y, hy, rfl⟩ := Option.map_eq_some_iff.mp e; clear hy; obtain ⟨n, o, x⟩ := y; dsimp only)
  all_goals repeat' first | with_reducible assumption | with_reducible exact State.Frame.refl _ _ | fail_if_no_progress extract_lets | exact StatePart.sub ha (by decide) | with_reducible apply completeSegment_frame | with_reducible apply activate_frame | with_reducible apply sendSegment_frame | with_reducible refine act_frame ?_ | with_reducible refine ite_frame ?_ ?_ | split | fail_if_no_progress ((with_reducible refine State.Frame.lit ?_ ?_ ?_ ?_ ?_ ?_ ?_ ?_ ?_ ?_ ?_ ?_ ?_ ?_ ?_ ?_ ?_ ?_ ?_ ?_ ?_ ?_ ?_ ?_ ?_ ?_ ?_ ?_ ?_) <;> first | with_reducible exact Or.inr rfl | exact Or.inl (ha (by decide)) | skip) | dsimp +zetaDelta only

theorem sendBlocks_frame {A : List StatePart} {s₀ : State} {s : State} (h : s₀.Frame A s) (p : Nat) (q : Nat) (typ : Nat) (tag : U32) (epoch : Nat) (blocks : List Marked) (ha : [.ports] ⊆ A := by first | exact StatePart.sub (by assumption) (by decide) | decide) : s₀.Frame A (sendBlocks s p q typ tag epoch blocks) := by
  unfold sendBlocks
  repeat' first | with_reducible assumption | with_reducible exact State.Frame.refl _ _ | exact StatePart.sub ha (by decide) | with_reducible apply sendTo_frame | with_reducible refine foldl_frame (fun _ _ => ?_) ?_ | split | fail_if_no_progress ((with_reducible refine State.Frame.lit ?_ ?_ ?_ ?_ ?_ ?_ ?_ ?_ ?_ ?_ ?_ ?_ ?_ ?_ ?_ ?_ ?_ ?_ ?_ ?_ ?_ ?_ ?_ ?_ ?_ ?_ ?_ ?_ ?_) <;> first | with_reducible exact Or.inr rfl | exact Or.inl (ha (by decide)) | skip)

theorem touchRows_frame {A : List StatePart} {s₀ : State} {s : State} (h : s₀.Frame A s) (d : Desc) (rows : Nat) (ha : [.mem] ⊆ A := by first | exact StatePart.sub (by assumption) (by decide) | decide) : s₀.Frame A (touchRows s d rows) := by
  unfold touchRows
  repeat' first | with_reducible assumption | with_reducible exact State.Frame.refl _ _ | fail_if_no_progress extract_lets | exact StatePart.sub ha (by decide) | with_reducible apply touch_frame | with_reducible refine each_frame (fun _ _ => ?_) ?_ | with_reducible refine foldl_frame (fun _ _ => ?_) ?_ | split | fail_if_no_progress ((with_reducible refine State.Frame.lit ?_ ?_ ?_ ?_ ?_ ?_ ?_ ?_ ?_ ?_ ?_ ?_ ?_ ?_ ?_ ?_ ?_ ?_ ?_ ?_ ?_ ?_ ?_ ?_ ?_ ?_ ?_ ?_ ?_) <;> first | with_reducible exact Or.inr rfl | exact Or.inl (ha (by decide)) | skip) | dsimp +zetaDelta only

theorem touchBlock_frame {A : List StatePart} {s₀ : State} {s : State} (h : s₀.Frame A s) (b : BitVec 512) (k : Nat) (ha : [.mem] ⊆ A := by first | exact StatePart.sub (by assumption) (by decide) | decide) : s₀.Frame A (touchBlock s b k) := by
  unfold touchBlock
  extract_lets x0
  repeat' first | with_reducible assumption | with_reducible exact State.Frame.refl _ _ | fail_if_no_progress extract_lets | exact StatePart.sub ha (by decide) | with_reducible apply touch_frame | split | fail_if_no_progress ((with_reducible refine State.Frame.lit ?_ ?_ ?_ ?_ ?_ ?_ ?_ ?_ ?_ ?_ ?_ ?_ ?_ ?_ ?_ ?_ ?_ ?_ ?_ ?_ ?_ ?_ ?_ ?_ ?_ ?_ ?_ ?_ ?_) <;> first | with_reducible exact Or.inr rfl | exact Or.inl (ha (by decide)) | skip) | dsimp +zetaDelta only

theorem beginTokens_frame {A : List StatePart} {s₀ : State} {s : State} (h : s₀.Frame A s) (n : Nat) (o : Op) (b : BitVec 512) (ha : [.mem, .ports] ⊆ A := by first | exact StatePart.sub (by assumption) (by decide) | decide) : s₀.Frame A (beginTokens s n o b).1 := by
  unfold beginTokens
  extract_lets x0 x1 x2 x3 x4 x5 x6 x7 x8
  have h6 : s₀.Frame A x6 := by
    unfold x6
    repeat' first | with_reducible assumption | with_reducible exact State.Frame.refl _ _ | fail_if_no_progress extract_lets | exact StatePart.sub ha (by decide) | with_reducible apply sendTo_frame | with_reducible apply sendBlocks_frame | with_reducible apply touchRows_frame | with_reducible apply touchBlock_frame | with_reducible refine each_frame (fun _ _ => ?_) ?_ | split | fail_if_no_progress ((with_reducible refine State.Frame.lit ?_ ?_ ?_ ?_ ?_ ?_ ?_ ?_ ?_ ?_ ?_ ?_ ?_ ?_ ?_ ?_ ?_ ?_ ?_ ?_ ?_ ?_ ?_ ?_ ?_ ?_ ?_ ?_ ?_) <;> first | with_reducible exact Or.inr rfl | exact Or.inl (ha (by decide)) | skip) | dsimp +zetaDelta only
  clear_value x6
  have h7 : s₀.Frame A x7 := by
    unfold x7
    repeat' first | with_reducible assumption | with_reducible exact State.Frame.refl _ _ | fail_if_no_progress extract_lets | exact StatePart.sub ha (by decide) | with_reducible apply sendTo_frame | with_reducible apply sendBlocks_frame | with_reducible apply touchRows_frame | with_reducible apply touchBlock_frame | with_reducible refine each_frame (fun _ _ => ?_) ?_ | split | fail_if_no_progress ((with_reducible refine State.Frame.lit ?_ ?_ ?_ ?_ ?_ ?_ ?_ ?_ ?_ ?_ ?_ ?_ ?_ ?_ ?_ ?_ ?_ ?_ ?_ ?_ ?_ ?_ ?_ ?_ ?_ ?_ ?_ ?_ ?_) <;> first | with_reducible exact Or.inr rfl | exact Or.inl (ha (by decide)) | skip) | dsimp +zetaDelta only
  clear_value x7
  have h8 : s₀.Frame A x8 := by
    unfold x8
    repeat' first | with_reducible assumption | with_reducible exact State.Frame.refl _ _ | fail_if_no_progress extract_lets | exact StatePart.sub ha (by decide) | with_reducible apply sendTo_frame | with_reducible apply sendBlocks_frame | with_reducible apply touchRows_frame | with_reducible apply touchBlock_frame | with_reducible refine each_frame (fun _ _ => ?_) ?_ | split | fail_if_no_progress ((with_reducible refine State.Frame.lit ?_ ?_ ?_ ?_ ?_ ?_ ?_ ?_ ?_ ?_ ?_ ?_ ?_ ?_ ?_ ?_ ?_ ?_ ?_ ?_ ?_ ?_ ?_ ?_ ?_ ?_ ?_ ?_ ?_) <;> first | with_reducible exact Or.inr rfl | exact Or.inl (ha (by decide)) | skip) | dsimp +zetaDelta only
  clear_value x8
  repeat' first | with_reducible assumption | with_reducible exact State.Frame.refl _ _ | fail_if_no_progress extract_lets | exact StatePart.sub ha (by decide) | with_reducible apply sendTo_frame | with_reducible apply sendBlocks_frame | with_reducible apply touchRows_frame | with_reducible apply touchBlock_frame | with_reducible refine each_frame (fun _ _ => ?_) ?_ | split | fail_if_no_progress ((with_reducible refine State.Frame.lit ?_ ?_ ?_ ?_ ?_ ?_ ?_ ?_ ?_ ?_ ?_ ?_ ?_ ?_ ?_ ?_ ?_ ?_ ?_ ?_ ?_ ?_ ?_ ?_ ?_ ?_ ?_ ?_ ?_) <;> first | with_reducible exact Or.inr rfl | exact Or.inl (ha (by decide)) | skip) | dsimp +zetaDelta only

theorem putRow_frame {A : List StatePart} {s₀ : State} {s : State} (h : s₀.Frame A s) (p : Nat) (d : Desc) (r : Nat) (l : Marked) (ha : [.mem, .psched] ⊆ A := by first | exact StatePart.sub (by assumption) (by decide) | decide) : s₀.Frame A (putRow s p d r l) := by
  unfold putRow
  extract_lets x0
  repeat' first | with_reducible assumption | with_reducible exact State.Frame.refl _ _ | fail_if_no_progress extract_lets | exact StatePart.sub ha (by decide) | with_reducible apply drainSink_frame | with_reducible apply Work_put_frame | with_reducible refine foldl_frame (fun _ _ => ?_) ?_ | with_reducible refine ite_frame ?_ ?_ | split | fail_if_no_progress ((with_reducible refine State.Frame.lit ?_ ?_ ?_ ?_ ?_ ?_ ?_ ?_ ?_ ?_ ?_ ?_ ?_ ?_ ?_ ?_ ?_ ?_ ?_ ?_ ?_ ?_ ?_ ?_ ?_ ?_ ?_ ?_ ?_) <;> first | with_reducible exact Or.inr rfl | exact Or.inl (ha (by decide)) | skip) | dsimp +zetaDelta only

theorem placeTokens_frame {A : List StatePart} {s₀ : State} {s : State} (h : s₀.Frame A s) (n : Nat) (o : Op) (x : Xchg) (ha : [.mem, .psched] ⊆ A := by first | exact StatePart.sub (by assumption) (by decide) | decide) : s₀.Frame A (placeTokens s n o x).1 := by
  unfold placeTokens
  extract_lets x0 x1 x2 x3 x4 x5 x6 x7
  have h6 : s₀.Frame A x6 := by
    unfold x6
    repeat' first | with_reducible assumption | with_reducible exact State.Frame.refl _ _ | fail_if_no_progress extract_lets | exact StatePart.sub ha (by decide) | with_reducible apply beginStore_frame | with_reducible apply endStore_frame | with_reducible apply streamStore_frame | with_reducible apply putRow_frame | with_reducible refine foldl_frame (fun _ _ => ?_) ?_ | with_reducible refine ite_frame ?_ ?_ | split | fail_if_no_progress ((with_reducible refine State.Frame.lit ?_ ?_ ?_ ?_ ?_ ?_ ?_ ?_ ?_ ?_ ?_ ?_ ?_ ?_ ?_ ?_ ?_ ?_ ?_ ?_ ?_ ?_ ?_ ?_ ?_ ?_ ?_ ?_ ?_) <;> first | with_reducible exact Or.inr rfl | exact Or.inl (ha (by decide)) | skip) | dsimp +zetaDelta only
  clear_value x6
  have h7 : s₀.Frame A x7 := by
    unfold x7
    repeat' first | with_reducible assumption | with_reducible exact State.Frame.refl _ _ | fail_if_no_progress extract_lets | exact StatePart.sub ha (by decide) | with_reducible apply beginStore_frame | with_reducible apply endStore_frame | with_reducible apply streamStore_frame | with_reducible apply putRow_frame | with_reducible refine foldl_frame (fun _ _ => ?_) ?_ | with_reducible refine ite_frame ?_ ?_ | split | fail_if_no_progress ((with_reducible refine State.Frame.lit ?_ ?_ ?_ ?_ ?_ ?_ ?_ ?_ ?_ ?_ ?_ ?_ ?_ ?_ ?_ ?_ ?_ ?_ ?_ ?_ ?_ ?_ ?_ ?_ ?_ ?_ ?_ ?_ ?_) <;> first | with_reducible exact Or.inr rfl | exact Or.inl (ha (by decide)) | skip) | dsimp +zetaDelta only
  clear_value x7
  repeat' first | with_reducible assumption | with_reducible exact State.Frame.refl _ _ | fail_if_no_progress extract_lets | exact StatePart.sub ha (by decide) | with_reducible apply beginStore_frame | with_reducible apply endStore_frame | with_reducible apply streamStore_frame | with_reducible apply putRow_frame | with_reducible refine foldl_frame (fun _ _ => ?_) ?_ | with_reducible refine ite_frame ?_ ?_ | split | fail_if_no_progress ((with_reducible refine State.Frame.lit ?_ ?_ ?_ ?_ ?_ ?_ ?_ ?_ ?_ ?_ ?_ ?_ ?_ ?_ ?_ ?_ ?_ ?_ ?_ ?_ ?_ ?_ ?_ ?_ ?_ ?_ ?_ ?_ ?_) <;> first | with_reducible exact Or.inr rfl | exact Or.inl (ha (by decide)) | skip) | dsimp +zetaDelta only

theorem sendShreq_frame {A : List StatePart} {s₀ : State} {s : State} (h : s₀.Frame A s) (p : Nat) (x : Xchg) (e : Nat) (v : Nat) (j : Nat) (ha : [.ports] ⊆ A := by first | exact StatePart.sub (by assumption) (by decide) | decide) : s₀.Frame A (sendShreq s p x e v j) := by
  unfold sendShreq
  repeat' first | with_reducible assumption | with_reducible exact State.Frame.refl _ _ | exact StatePart.sub ha (by decide) | with_reducible apply sendTo_frame | split | fail_if_no_progress ((with_reducible refine State.Frame.lit ?_ ?_ ?_ ?_ ?_ ?_ ?_ ?_ ?_ ?_ ?_ ?_ ?_ ?_ ?_ ?_ ?_ ?_ ?_ ?_ ?_ ?_ ?_ ?_ ?_ ?_ ?_ ?_ ?_) <;> first | with_reducible exact Or.inr rfl | exact Or.inl (ha (by decide)) | skip)

theorem askOwners_frame {A : List StatePart} {s₀ : State} {s : State} (h : s₀.Frame A s) (p : Nat) (o : Op) (x : Xchg) (e : Nat) (v : Nat) (ha : [.mem, .ports] ⊆ A := by first | exact StatePart.sub (by assumption) (by decide) | decide) : s₀.Frame A (askOwners s p o x e v).1 := by
  unfold askOwners
  extract_lets x0 x1 x2
  have h0 : s₀.Frame A x0 := by
    unfold x0
    repeat' first | with_reducible assumption | with_reducible exact State.Frame.refl _ _ | fail_if_no_progress extract_lets | exact StatePart.sub ha (by decide) | with_reducible apply touchElems_frame | with_reducible apply sendShreq_frame | with_reducible refine each_frame (fun _ _ => ?_) ?_ | with_reducible refine foldl_frame (fun _ _ => ?_) ?_ | split | fail_if_no_progress ((with_reducible refine State.Frame.lit ?_ ?_ ?_ ?_ ?_ ?_ ?_ ?_ ?_ ?_ ?_ ?_ ?_ ?_ ?_ ?_ ?_ ?_ ?_ ?_ ?_ ?_ ?_ ?_ ?_ ?_ ?_ ?_ ?_) <;> first | with_reducible exact Or.inr rfl | exact Or.inl (ha (by decide)) | skip) | dsimp +zetaDelta only
  clear_value x0
  repeat' first | with_reducible assumption | with_reducible exact State.Frame.refl _ _ | fail_if_no_progress extract_lets | exact StatePart.sub ha (by decide) | with_reducible apply touchElems_frame | with_reducible apply sendShreq_frame | with_reducible refine each_frame (fun _ _ => ?_) ?_ | with_reducible refine foldl_frame (fun _ _ => ?_) ?_ | split | fail_if_no_progress ((with_reducible refine State.Frame.lit ?_ ?_ ?_ ?_ ?_ ?_ ?_ ?_ ?_ ?_ ?_ ?_ ?_ ?_ ?_ ?_ ?_ ?_ ?_ ?_ ?_ ?_ ?_ ?_ ?_ ?_ ?_ ?_ ?_) <;> first | with_reducible exact Or.inr rfl | exact Or.inl (ha (by decide)) | skip) | dsimp +zetaDelta only

theorem beginGather_frame {A : List StatePart} {s₀ : State} {s : State} (h : s₀.Frame A s) (n : Nat) (o : Op) (b : BitVec 512) (ha : [.mem, .ports] ⊆ A := by first | exact StatePart.sub (by assumption) (by decide) | decide) : s₀.Frame A (beginGather s n o b).1 := by
  unfold beginGather
  extract_lets x0 x1 x2 x3 x4
  have h3 : s₀.Frame A x3 := by
    unfold x3
    repeat' first | with_reducible assumption | with_reducible exact State.Frame.refl _ _ | fail_if_no_progress extract_lets | exact StatePart.sub ha (by decide) | with_reducible apply touchBlock_frame | with_reducible apply sendShreq_frame | with_reducible apply askOwners_frame | with_reducible refine fst_frame (by assumption) ?_ | with_reducible refine snd_frame (by assumption) ?_ | with_reducible refine ite_frame ?_ ?_ | split | fail_if_no_progress ((with_reducible refine State.Frame.lit ?_ ?_ ?_ ?_ ?_ ?_ ?_ ?_ ?_ ?_ ?_ ?_ ?_ ?_ ?_ ?_ ?_ ?_ ?_ ?_ ?_ ?_ ?_ ?_ ?_ ?_ ?_ ?_ ?_) <;> first | with_reducible exact Or.inr rfl | exact Or.inl (ha (by decide)) | skip) | dsimp +zetaDelta only
  clear_value x3
  repeat' first | with_reducible assumption | with_reducible exact State.Frame.refl _ _ | fail_if_no_progress extract_lets | exact StatePart.sub ha (by decide) | with_reducible apply touchBlock_frame | with_reducible apply sendShreq_frame | with_reducible apply askOwners_frame | with_reducible refine fst_frame (by assumption) ?_ | with_reducible refine snd_frame (by assumption) ?_ | with_reducible refine ite_frame ?_ ?_ | split | fail_if_no_progress ((with_reducible refine State.Frame.lit ?_ ?_ ?_ ?_ ?_ ?_ ?_ ?_ ?_ ?_ ?_ ?_ ?_ ?_ ?_ ?_ ?_ ?_ ?_ ?_ ?_ ?_ ?_ ?_ ?_ ?_ ?_ ?_ ?_) <;> first | with_reducible exact Or.inr rfl | exact Or.inl (ha (by decide)) | skip) | dsimp +zetaDelta only

theorem refuseGather_frame {A : List StatePart} {s₀ : State} {s : State} (h : s₀.Frame A s) (n : Nat) (o : Op) (x : Xchg) (d : Desc) (ha : [.rings, .rooms, .link, .mem, .can, .psched, .free, .ports, .log, .events, .ppeer] ⊆ A := by first | exact StatePart.sub (by assumption) (by decide) | decide) : s₀.Frame A (refuseGather s n o x d) := by
  unfold refuseGather
  extract_lets x0
  repeat' first | with_reducible assumption | with_reducible exact State.Frame.refl _ _ | fail_if_no_progress extract_lets | exact StatePart.sub ha (by decide) | with_reducible apply updPeer_frame | with_reducible apply faultOp_frame | split | fail_if_no_progress ((with_reducible refine State.Frame.lit ?_ ?_ ?_ ?_ ?_ ?_ ?_ ?_ ?_ ?_ ?_ ?_ ?_ ?_ ?_ ?_ ?_ ?_ ?_ ?_ ?_ ?_ ?_ ?_ ?_ ?_ ?_ ?_ ?_) <;> first | with_reducible exact Or.inr rfl | exact Or.inl (ha (by decide)) | skip) | dsimp +zetaDelta only

theorem placeShards_frame {A : List StatePart} {s₀ : State} {s : State} (h : s₀.Frame A s) (n : Nat) (seq : Nat) (o : Op) (x : Xchg) (d : Desc) (ha : [.rings, .mem, .psched] ⊆ A := by first | exact StatePart.sub (by assumption) (by decide) | decide) : s₀.Frame A (placeShards s n seq o x d) := by
  unfold placeShards
  extract_lets x0 x1
  repeat' first | with_reducible assumption | with_reducible exact State.Frame.refl _ _ | fail_if_no_progress extract_lets | exact StatePart.sub ha (by decide) | with_reducible apply updOp_frame | with_reducible apply setDesc_frame | with_reducible apply beginStore_frame | with_reducible apply endStore_frame | with_reducible apply convertInto_frame | with_reducible refine fst_frame (by assumption) ?_ | with_reducible refine snd_frame (by assumption) ?_ | with_reducible refine foldl_frame (fun _ _ => ?_) ?_ | with_reducible refine ite_frame ?_ ?_ | split | fail_if_no_progress ((with_reducible refine State.Frame.lit ?_ ?_ ?_ ?_ ?_ ?_ ?_ ?_ ?_ ?_ ?_ ?_ ?_ ?_ ?_ ?_ ?_ ?_ ?_ ?_ ?_ ?_ ?_ ?_ ?_ ?_ ?_ ?_ ?_) <;> first | with_reducible exact Or.inr rfl | exact Or.inl (ha (by decide)) | skip) | dsimp +zetaDelta only

theorem xchgEnd_frame {A : List StatePart} {s₀ : State} {s : State} (h : s₀.Frame A s) (n : Nat) (seq : Nat) (ha : [.rings] ⊆ A := by first | exact StatePart.sub (by assumption) (by decide) | decide) : s₀.Frame A (xchgEnd s n seq) := by
  unfold xchgEnd
  repeat' first | with_reducible assumption | with_reducible exact State.Frame.refl _ _ | fail_if_no_progress extract_lets | exact StatePart.sub ha (by decide) | with_reducible apply updOp_frame | split | fail_if_no_progress ((with_reducible refine State.Frame.lit ?_ ?_ ?_ ?_ ?_ ?_ ?_ ?_ ?_ ?_ ?_ ?_ ?_ ?_ ?_ ?_ ?_ ?_ ?_ ?_ ?_ ?_ ?_ ?_ ?_ ?_ ?_ ?_ ?_) <;> first | with_reducible exact Or.inr rfl | exact Or.inl (ha (by decide)) | skip)

theorem endXchg_frame {A : List StatePart} {s₀ s u : State} (h : s₀.Frame A s) (n : Nat) (o : Op) (x : Xchg) (e : endXchg s n o x = some u) (ha : [.rings, .rooms, .link, .mem, .can, .psched, .free, .ports, .log, .events, .ppeer] ⊆ A := by first | exact StatePart.sub (by assumption) (by decide) | decide) : s₀.Frame A u := by
  unfold endXchg at e
  repeat' first | fail_if_no_progress extract_lets at e | split at e
  all_goals first | (cases e; done) | (rw [← Option.some.inj e]; clear e) | (obtain ⟨y, hy, rfl⟩ := Option.map_eq_some_iff.mp e; clear hy; obtain ⟨n, o, x⟩ := y; dsimp only)
  all_goals repeat' first | with_reducible assumption | with_reducible exact State.Frame.refl _ _ | fail_if_no_progress extract_lets | exact StatePart.sub ha (by decide) | with_reducible apply updOp_frame | with_reducible apply faultOp_frame | with_reducible apply placeTokens_frame | with_reducible apply refuseGather_frame | with_reducible apply placeShards_frame | with_reducible apply xchgEnd_frame | with_reducible refine fst_frame (by assumption) ?_ | with_reducible refine snd_frame (by assumption) ?_ | with_reducible refine ite_frame ?_ ?_ | split | fail_if_no_progress ((with_reducible refine State.Frame.lit ?_ ?_ ?_ ?_ ?_ ?_ ?_ ?_ ?_ ?_ ?_ ?_ ?_ ?_ ?_ ?_ ?_ ?_ ?_ ?_ ?_ ?_ ?_ ?_ ?_ ?_ ?_ ?_ ?_) <;> first | with_reducible exact Or.inr rfl | exact Or.inl (ha (by decide)) | skip) | dsimp +zetaDelta only

theorem pumpSplice_frame {A : List StatePart} {s₀ s u : State} (h : s₀.Frame A s) (p : Nat) (e : pumpSplice s p = some u) (ha : [.rings, .rooms, .link, .mem, .can, .psched, .free, .ports, .log, .events] ⊆ A := by first | exact StatePart.sub (by assumption) (by decide) | decide) : s₀.Frame A u := by
  unfold pumpSplice at e
  repeat' first | fail_if_no_progress extract_lets at e | split at e
  all_goals first | (cases e; done) | (rw [← Option.some.inj e]; clear e) | (obtain ⟨y, hy, rfl⟩ := Option.map_eq_some_iff.mp e; clear hy; obtain ⟨n, o, x⟩ := y; dsimp only)
  all_goals repeat' first | with_reducible assumption | with_reducible exact State.Frame.refl _ _ | fail_if_no_progress extract_lets | exact StatePart.sub ha (by decide) | with_reducible apply updOp_frame | with_reducible apply faultOp_frame | with_reducible apply beginTokens_frame | with_reducible apply beginGather_frame | with_reducible refine fst_frame (by assumption) ?_ | with_reducible refine snd_frame (by assumption) ?_ | with_reducible refine ite_frame ?_ ?_ | split | fail_if_no_progress ((with_reducible refine State.Frame.lit ?_ ?_ ?_ ?_ ?_ ?_ ?_ ?_ ?_ ?_ ?_ ?_ ?_ ?_ ?_ ?_ ?_ ?_ ?_ ?_ ?_ ?_ ?_ ?_ ?_ ?_ ?_ ?_ ?_) <;> first | with_reducible exact Or.inr rfl | exact Or.inl (ha (by decide)) | skip) | dsimp +zetaDelta only

theorem execEpochChange_frame {A : List StatePart} (s : State) (p : BitVec 2) (ha : [.rings, .ppeer] ⊆ A := by first | exact StatePart.sub (by assumption) (by decide) | decide) : Out.Frame A s (execEpochChange p s) := by
  unfold execEpochChange
  repeat' first | with_reducible assumption | with_reducible exact State.Frame.refl _ _ | fail_if_no_progress extract_lets | exact StatePart.sub ha (by decide) | with_reducible apply updPeer_frame | with_reducible apply updOp_frame | with_reducible refine act_frame ?_ | with_reducible refine next_frame ?_ | split | fail_if_no_progress ((with_reducible refine State.Frame.lit ?_ ?_ ?_ ?_ ?_ ?_ ?_ ?_ ?_ ?_ ?_ ?_ ?_ ?_ ?_ ?_ ?_ ?_ ?_ ?_ ?_ ?_ ?_ ?_ ?_ ?_ ?_ ?_ ?_) <;> first | with_reducible exact Or.inr rfl | exact Or.inl (ha (by decide)) | skip) | dsimp +zetaDelta only

theorem seenBucket_frame {A : List StatePart} {s₀ : State} {s : State} (h : s₀.Frame A s) (n : Nat) (seq : Nat) (f : PeerFrame) (ha : [.rings] ⊆ A := by first | exact StatePart.sub (by assumption) (by decide) | decide) : s₀.Frame A (seenBucket s n seq f) := by
  unfold seenBucket
  repeat' first | with_reducible assumption | with_reducible exact State.Frame.refl _ _ | fail_if_no_progress extract_lets | exact StatePart.sub ha (by decide) | with_reducible apply updBucket_frame | split | fail_if_no_progress ((with_reducible refine State.Frame.lit ?_ ?_ ?_ ?_ ?_ ?_ ?_ ?_ ?_ ?_ ?_ ?_ ?_ ?_ ?_ ?_ ?_ ?_ ?_ ?_ ?_ ?_ ?_ ?_ ?_ ?_ ?_ ?_ ?_) <;> first | with_reducible exact Or.inr rfl | exact Or.inl (ha (by decide)) | skip)

theorem takeDown_frame {A : List StatePart} {s₀ : State} {s : State} (h : s₀.Frame A s) (p : Nat) (n : Nat) (o : Op) (b : Bucket) (f : PeerFrame) (ha : [.rings, .ports] ⊆ A := by first | exact StatePart.sub (by assumption) (by decide) | decide) : s₀.Frame A (takeDown s p n o b f) := by
  unfold takeDown
  extract_lets x0
  repeat' first | with_reducible assumption | with_reducible exact State.Frame.refl _ _ | fail_if_no_progress extract_lets | exact StatePart.sub ha (by decide) | with_reducible apply countPort_frame | with_reducible apply resultPiece_frame | with_reducible refine ite_frame ?_ ?_ | split | fail_if_no_progress ((with_reducible refine State.Frame.lit ?_ ?_ ?_ ?_ ?_ ?_ ?_ ?_ ?_ ?_ ?_ ?_ ?_ ?_ ?_ ?_ ?_ ?_ ?_ ?_ ?_ ?_ ?_ ?_ ?_ ?_ ?_ ?_ ?_) <;> first | with_reducible exact Or.inr rfl | exact Or.inl (ha (by decide)) | skip) | dsimp +zetaDelta only

theorem takeUp_frame {A : List StatePart} {s₀ : State} {s : State} (h : s₀.Frame A s) (p : Nat) (j : Nat) (n : Nat) (o : Op) (b : Bucket) (f : PeerFrame) (ha : [.rings, .rooms, .link, .svc, .mem, .can, .psched, .free, .ports, .log, .events, .ppeer] ⊆ A := by first | exact StatePart.sub (by assumption) (by decide) | decide) : s₀.Frame A (takeUp s p j n o b f) := by
  unfold takeUp
  extract_lets x0 x1
  repeat' first | with_reducible assumption | with_reducible exact State.Frame.refl _ _ | fail_if_no_progress extract_lets | exact StatePart.sub ha (by decide) | with_reducible apply updBucket_frame | with_reducible apply countPort_frame | with_reducible apply endBucket_frame | with_reducible apply usePiece_frame | with_reducible apply countVote_frame | with_reducible refine ite_frame ?_ ?_ | split | fail_if_no_progress ((with_reducible refine State.Frame.lit ?_ ?_ ?_ ?_ ?_ ?_ ?_ ?_ ?_ ?_ ?_ ?_ ?_ ?_ ?_ ?_ ?_ ?_ ?_ ?_ ?_ ?_ ?_ ?_ ?_ ?_ ?_ ?_ ?_) <;> first | with_reducible exact Or.inr rfl | exact Or.inl (ha (by decide)) | skip) | dsimp +zetaDelta only

theorem takeRdata_frame {A : List StatePart} {s₀ s u : State} (h : s₀.Frame A s) (p : Nat) (j : Nat) (f : PeerFrame) (e : takeRdata s p j f = some u) (ha : [.rings, .rooms, .link, .svc, .mem, .can, .psched, .free, .ports, .log, .events, .ppeer] ⊆ A := by first | exact StatePart.sub (by assumption) (by decide) | decide) : s₀.Frame A u := by
  unfold takeRdata at e
  repeat' first | fail_if_no_progress extract_lets at e | split at e
  all_goals first | (cases e; done) | (rw [← Option.some.inj e]; clear e) | (obtain ⟨y, hy, rfl⟩ := Option.map_eq_some_iff.mp e; clear hy; obtain ⟨n, o, x⟩ := y; dsimp only)
  all_goals repeat' first | with_reducible assumption | with_reducible exact State.Frame.refl _ _ | fail_if_no_progress extract_lets | exact StatePart.sub ha (by decide) | with_reducible apply endBucket_frame | with_reducible apply seenBucket_frame | with_reducible apply takeDown_frame | with_reducible apply takeUp_frame | with_reducible refine act_frame ?_ | with_reducible refine ite_frame ?_ ?_ | split | fail_if_no_progress ((with_reducible refine State.Frame.lit ?_ ?_ ?_ ?_ ?_ ?_ ?_ ?_ ?_ ?_ ?_ ?_ ?_ ?_ ?_ ?_ ?_ ?_ ?_ ?_ ?_ ?_ ?_ ?_ ?_ ?_ ?_ ?_ ?_) <;> first | with_reducible exact Or.inr rfl | exact Or.inl (ha (by decide)) | skip) | dsimp +zetaDelta only

theorem updXchg_frame {A : List StatePart} {s₀ : State} {s : State} (h : s₀.Frame A s) (n : Nat) (seq : Nat) (f : PeerFrame) (g : Xchg → Xchg) (ha : [.rings] ⊆ A := by first | exact StatePart.sub (by assumption) (by decide) | decide) : s₀.Frame A (State.updXchg s n seq f g) := by
  unfold State.updXchg
  repeat' first | with_reducible assumption | with_reducible exact State.Frame.refl _ _ | fail_if_no_progress extract_lets | exact StatePart.sub ha (by decide) | with_reducible apply updOp_frame | split | fail_if_no_progress ((with_reducible refine State.Frame.lit ?_ ?_ ?_ ?_ ?_ ?_ ?_ ?_ ?_ ?_ ?_ ?_ ?_ ?_ ?_ ?_ ?_ ?_ ?_ ?_ ?_ ?_ ?_ ?_ ?_ ?_ ?_ ?_ ?_) <;> first | with_reducible exact Or.inr rfl | exact Or.inl (ha (by decide)) | skip) | dsimp +zetaDelta only

theorem takeXcount_frame {A : List StatePart} {s₀ s u : State} (h : s₀.Frame A s) (p : Nat) (f : PeerFrame) (e : takeXcount s p f = some u) (ha : [.rings] ⊆ A := by first | exact StatePart.sub (by assumption) (by decide) | decide) : s₀.Frame A u := by
  unfold takeXcount at e
  repeat' first | fail_if_no_progress extract_lets at e | split at e
  all_goals first | (cases e; done) | (rw [← Option.some.inj e]; clear e) | (obtain ⟨y, hy, rfl⟩ := Option.map_eq_some_iff.mp e; clear hy; obtain ⟨n, o, x⟩ := y; dsimp only)
  all_goals repeat' first | with_reducible assumption | with_reducible exact State.Frame.refl _ _ | fail_if_no_progress extract_lets | exact StatePart.sub ha (by decide) | with_reducible apply updXchg_frame | split | fail_if_no_progress ((with_reducible refine State.Frame.lit ?_ ?_ ?_ ?_ ?_ ?_ ?_ ?_ ?_ ?_ ?_ ?_ ?_ ?_ ?_ ?_ ?_ ?_ ?_ ?_ ?_ ?_ ?_ ?_ ?_ ?_ ?_ ?_ ?_) <;> first | with_reducible exact Or.inr rfl | exact Or.inl (ha (by decide)) | skip)

theorem takeXdata_frame {A : List StatePart} {s₀ s u : State} (h : s₀.Frame A s) (p : Nat) (f : PeerFrame) (e : takeXdata s p f = some u) (ha : [.rings] ⊆ A := by first | exact StatePart.sub (by assumption) (by decide) | decide) : s₀.Frame A u := by
  unfold takeXdata at e
  repeat' first | fail_if_no_progress extract_lets at e | split at e
  all_goals first | (cases e; done) | (rw [← Option.some.inj e]; clear e) | (obtain ⟨y, hy, rfl⟩ := Option.map_eq_some_iff.mp e; clear hy; obtain ⟨n, o, x⟩ := y; dsimp only)
  all_goals repeat' first | with_reducible assumption | with_reducible exact State.Frame.refl _ _ | exact StatePart.sub ha (by decide) | with_reducible apply updXchg_frame | split | fail_if_no_progress ((with_reducible refine State.Frame.lit ?_ ?_ ?_ ?_ ?_ ?_ ?_ ?_ ?_ ?_ ?_ ?_ ?_ ?_ ?_ ?_ ?_ ?_ ?_ ?_ ?_ ?_ ?_ ?_ ?_ ?_ ?_ ?_ ?_) <;> first | with_reducible exact Or.inr rfl | exact Or.inl (ha (by decide)) | skip)

theorem takeShdata_frame {A : List StatePart} {s₀ s u : State} (h : s₀.Frame A s) (p : Nat) (f : PeerFrame) (e : takeShdata s p f = some u) (ha : [.rings, .rooms, .link, .mem, .can, .psched, .free, .ports, .log, .events] ⊆ A := by first | exact StatePart.sub (by assumption) (by decide) | decide) : s₀.Frame A u := by
  unfold takeShdata at e
  repeat' first | fail_if_no_progress extract_lets at e | split at e
  all_goals first | (cases e; done) | (rw [← Option.some.inj e]; clear e) | (obtain ⟨y, hy, rfl⟩ := Option.map_eq_some_iff.mp e; clear hy; obtain ⟨n, o, x⟩ := y; dsimp only)
  all_goals repeat' first | with_reducible assumption | with_reducible exact State.Frame.refl _ _ | fail_if_no_progress extract_lets | exact StatePart.sub ha (by decide) | with_reducible apply faultOp_frame | with_reducible apply updXchg_frame | with_reducible refine ite_frame ?_ ?_ | split | fail_if_no_progress ((with_reducible refine State.Frame.lit ?_ ?_ ?_ ?_ ?_ ?_ ?_ ?_ ?_ ?_ ?_ ?_ ?_ ?_ ?_ ?_ ?_ ?_ ?_ ?_ ?_ ?_ ?_ ?_ ?_ ?_ ?_ ?_ ?_) <;> first | with_reducible exact Or.inr rfl | exact Or.inl (ha (by decide)) | skip) | dsimp +zetaDelta only

theorem takeShref_frame {A : List StatePart} {s₀ s u : State} (h : s₀.Frame A s) (p : Nat) (f : PeerFrame) (e : takeShref s p f = some u) (ha : [.rings, .mem, .ports] ⊆ A := by first | exact StatePart.sub (by assumption) (by decide) | decide) : s₀.Frame A u := by
  unfold takeShref at e
  repeat' first | fail_if_no_progress extract_lets at e | split at e
  all_goals first | (cases e; done) | (rw [← Option.some.inj e]; clear e) | (obtain ⟨y, hy, rfl⟩ := Option.map_eq_some_iff.mp e; clear hy; obtain ⟨n, o, x⟩ := y; dsimp only)
  all_goals repeat' first | with_reducible assumption | with_reducible exact State.Frame.refl _ _ | fail_if_no_progress extract_lets | exact StatePart.sub ha (by decide) | with_reducible apply askOwners_frame | with_reducible apply updXchg_frame | with_reducible refine fst_frame (by assumption) ?_ | with_reducible refine snd_frame (by assumption) ?_ | with_reducible refine ite_frame ?_ ?_ | split | fail_if_no_progress ((with_reducible refine State.Frame.lit ?_ ?_ ?_ ?_ ?_ ?_ ?_ ?_ ?_ ?_ ?_ ?_ ?_ ?_ ?_ ?_ ?_ ?_ ?_ ?_ ?_ ?_ ?_ ?_ ?_ ?_ ?_ ?_ ?_) <;> first | with_reducible exact Or.inr rfl | exact Or.inl (ha (by decide)) | skip) | dsimp +zetaDelta only

theorem serveShard_frame {A : List StatePart} {s₀ : State} {s : State} (h : s₀.Frame A s) (p : Nat) (f : PeerFrame) (ha : [.mem, .ports] ⊆ A := by first | exact StatePart.sub (by assumption) (by decide) | decide) : s₀.Frame A (serveShard s p f) := by
  unfold serveShard
  extract_lets x0 x1 x2 x3
  repeat' first | with_reducible assumption | with_reducible exact State.Frame.refl _ _ | fail_if_no_progress extract_lets | exact StatePart.sub ha (by decide) | with_reducible apply recordRefused_frame | with_reducible apply sendTo_frame | with_reducible apply touchElems_frame | with_reducible apply sendBlocks_frame | split | fail_if_no_progress ((with_reducible refine State.Frame.lit ?_ ?_ ?_ ?_ ?_ ?_ ?_ ?_ ?_ ?_ ?_ ?_ ?_ ?_ ?_ ?_ ?_ ?_ ?_ ?_ ?_ ?_ ?_ ?_ ?_ ?_ ?_ ?_ ?_) <;> first | with_reducible exact Or.inr rfl | exact Or.inl (ha (by decide)) | skip) | dsimp +zetaDelta only

theorem takeAbort_frame {A : List StatePart} {s₀ : State} {s : State} (h : s₀.Frame A s) (p : Nat) (f : PeerFrame) (ha : [.rings, .rooms, .link, .mem, .can, .psched, .free, .ports, .log, .events] ⊆ A := by first | exact StatePart.sub (by assumption) (by decide) | decide) : s₀.Frame A (takeAbort s p f) := by
  unfold takeAbort
  repeat' first | with_reducible assumption | with_reducible exact State.Frame.refl _ _ | fail_if_no_progress extract_lets | exact StatePart.sub ha (by decide) | with_reducible apply faultOp_frame | with_reducible refine foldl_frame (fun _ _ => ?_) ?_ | with_reducible refine ite_frame ?_ ?_ | split | fail_if_no_progress ((with_reducible refine State.Frame.lit ?_ ?_ ?_ ?_ ?_ ?_ ?_ ?_ ?_ ?_ ?_ ?_ ?_ ?_ ?_ ?_ ?_ ?_ ?_ ?_ ?_ ?_ ?_ ?_ ?_ ?_ ?_ ?_ ?_) <;> first | with_reducible exact Or.inr rfl | exact Or.inl (ha (by decide)) | skip) | dsimp +zetaDelta only

theorem sendAgain_frame {A : List StatePart} {s₀ : State} {s : State} (h : s₀.Frame A s) (p : Nat) (o : Op) (b : Bucket) (f : PeerFrame) (ha : [.ports] ⊆ A := by first | exact StatePart.sub (by assumption) (by decide) | decide) : s₀.Frame A (sendAgain s p o b f) := by
  unfold sendAgain
  repeat' first | with_reducible assumption | with_reducible exact State.Frame.refl _ _ | fail_if_no_progress extract_lets | exact StatePart.sub ha (by decide) | with_reducible apply sendPieceOn_frame | with_reducible refine each_frame (fun _ _ => ?_) ?_ | with_reducible refine ite_frame ?_ ?_ | split | fail_if_no_progress ((with_reducible refine State.Frame.lit ?_ ?_ ?_ ?_ ?_ ?_ ?_ ?_ ?_ ?_ ?_ ?_ ?_ ?_ ?_ ?_ ?_ ?_ ?_ ?_ ?_ ?_ ?_ ?_ ?_ ?_ ?_ ?_ ?_) <;> first | with_reducible exact Or.inr rfl | exact Or.inl (ha (by decide)) | skip)

theorem takeRedo_frame {A : List StatePart} {s₀ : State} {s : State} (h : s₀.Frame A s) (p : Nat) (f : PeerFrame) (ha : [.rings, .rooms, .link, .mem, .can, .psched, .free, .ports, .log, .events] ⊆ A := by first | exact StatePart.sub (by assumption) (by decide) | decide) : s₀.Frame A (takeRedo s p f) := by
  unfold takeRedo
  repeat' first | with_reducible assumption | with_reducible exact State.Frame.refl _ _ | fail_if_no_progress extract_lets | exact StatePart.sub ha (by decide) | with_reducible apply redoBelow_frame | with_reducible apply wantRedo_frame | with_reducible apply endBucket_frame | with_reducible apply seenBucket_frame | with_reducible apply sendAgain_frame | with_reducible refine act_frame ?_ | with_reducible refine ite_frame ?_ ?_ | split | fail_if_no_progress ((with_reducible refine State.Frame.lit ?_ ?_ ?_ ?_ ?_ ?_ ?_ ?_ ?_ ?_ ?_ ?_ ?_ ?_ ?_ ?_ ?_ ?_ ?_ ?_ ?_ ?_ ?_ ?_ ?_ ?_ ?_ ?_ ?_) <;> first | with_reducible exact Or.inr rfl | exact Or.inl (ha (by decide)) | skip) | dsimp +zetaDelta only

theorem takeFrame_frame {A : List StatePart} {s₀ s u : State} (h : s₀.Frame A s) (p j : Nat) (f : PeerFrame) (e : takeFrame s p j f = some u) (ha : [.rings, .rooms, .link, .svc, .mem, .can, .psched, .free, .ports, .log, .events, .ppeer] ⊆ A := by first | exact StatePart.sub (by assumption) (by decide) | decide) : s₀.Frame A u := by
  unfold takeFrame at e
  split at e
  · exact takeRdata_frame h _ _ _ e
  · exact takeXdata_frame h _ _ e
  · exact takeXcount_frame h _ _ e
  · rw [← Option.some.inj e]
    exact serveShard_frame h _ _
  · exact takeShdata_frame h _ _ e
  · exact takeShref_frame h _ _ e
  · rw [← Option.some.inj e]
    exact takeAbort_frame h _ _
  · rw [← Option.some.inj e]
    exact takeRedo_frame h _ _
  · rw [← Option.some.inj e]
    exact h

theorem takeScan_frame {A : List StatePart} {t s : State} (h : t.Frame A s) (p j : Nat) (l : List PeerFrame) (held : List (Nat × Nat × Nat)) {e : PeerFrame × State}
    (he : takeScan s p j l held = some e) (ha : [.rings, .rooms, .link, .svc, .mem, .can, .psched, .free, .ports, .log, .events, .ppeer] ⊆ A := by first | exact StatePart.sub (by assumption) (by decide) | decide) : t.Frame A e.2 := by
  induction l generalizing held with
  | nil => cases he
  | cons f l ih =>
    unfold takeScan at he
    split at he
    · exact ih _ he
    · split at he
      · rename_i hv
        cases he
        exact takeFrame_frame h _ _ _ hv
      · exact ih _ he

theorem takeOne_frame {A : List StatePart} {t s u : State} (h : t.Frame A s) (p : Nat) (e : takeOne s p = some u) (ha : [.rings, .rooms, .link, .svc, .mem, .can, .psched, .free, .ports, .log, .events, .ppeer] ⊆ A := by first | exact StatePart.sub (by assumption) (by decide) | decide) : t.Frame A u := by
  unfold takeOne at e
  obtain ⟨j, -, hj⟩ := List.exists_of_findSome?_eq_some e
  obtain ⟨x, hx, rfl⟩ := Option.map_eq_some_iff.mp hj
  exact updPort_frame (takeScan_frame h _ _ _ _ hx) _ _

theorem settleStep_frame {A : List StatePart} {s₀ s u : State} (h : s₀.Frame A s) (p : Nat) (e : settleStep s p = some u) (ha : [.rings, .rooms, .link, .svc, .mem, .can, .psched, .free, .ports, .log, .events, .ppeer] ⊆ A := by first | exact StatePart.sub (by assumption) (by decide) | decide) : s₀.Frame A u := by
  unfold settleStep at e
  split at e
  · rename_i hv
    rw [← Option.some.inj e]
    obtain ⟨c, -, hc⟩ := List.exists_of_findSome?_eq_some hv
    exact pumpStep_frame h _ _ hc
  · split at e
    · rename_i hv
      rw [← Option.some.inj e]
      obtain ⟨x, -, hx⟩ := List.exists_of_findSome?_eq_some hv
      exact endXchg_frame h _ _ _ hx
    · split at e
      · rename_i hv
        rw [← Option.some.inj e]
        exact pumpSplice_frame h _ hv
      · exact takeOne_frame h _ e

theorem settleLoop_frame {A : List StatePart} {t s : State} (h : t.Frame A s) (k p : Nat) (ha : [.rings, .rooms, .link, .svc, .mem, .can, .psched, .free, .ports, .log, .events, .ppeer] ⊆ A := by first | exact StatePart.sub (by assumption) (by decide) | decide) : t.Frame A (settleLoop k s p) := by
  induction k generalizing s with
  | zero => exact h
  | succ k ih =>
    unfold settleLoop
    split
    · rename_i hv
      exact ih (settleStep_frame h _ hv)
    · exact h

theorem settleFabric_frame {A : List StatePart} {s₀ : State} {s : State} (h : s₀.Frame A s) (p : Nat) (ha : [.rings, .rooms, .link, .svc, .mem, .can, .psched, .free, .ports, .log, .events, .ppeer] ⊆ A := by first | exact StatePart.sub (by assumption) (by decide) | decide) : s₀.Frame A (settleFabric s p) := by
  unfold settleFabric
  repeat' first | with_reducible assumption | with_reducible exact State.Frame.refl _ _ | exact StatePart.sub ha (by decide) | with_reducible apply settleLoop_frame | split | fail_if_no_progress ((with_reducible refine State.Frame.lit ?_ ?_ ?_ ?_ ?_ ?_ ?_ ?_ ?_ ?_ ?_ ?_ ?_ ?_ ?_ ?_ ?_ ?_ ?_ ?_ ?_ ?_ ?_ ?_ ?_ ?_ ?_ ?_ ?_) <;> first | with_reducible exact Or.inr rfl | exact Or.inl (ha (by decide)) | skip)

theorem thenSettle_frame {A : List StatePart} {s : State} {o : Out} (n : Nat) (h : Out.Frame A s o) (ha : [.rings, .rooms, .link, .svc, .mem, .can, .psched, .free, .ports, .log, .events, .ppeer] ⊆ A := by first | exact StatePart.sub (by assumption) (by decide) | decide) : Out.Frame A s (thenSettle n o) := by
  obtain ⟨t, rfl, ht⟩ := h
  exact next_frame (settleFabric_frame ht _)

theorem execReduce_frame {A : List StatePart} (s : State) (ring : BitVec 6) (ha : [.rings, .rooms, .link, .svc, .mem, .can, .psched, .free, .ports, .log, .events, .ppeer] ⊆ A := by first | exact StatePart.sub (by assumption) (by decide) | decide) : Out.Frame A s (execReduce ring s) := by
  unfold execReduce
  repeat' first | with_reducible assumption | with_reducible exact State.Frame.refl _ _ | fail_if_no_progress extract_lets | exact StatePart.sub ha (by decide) | with_reducible apply dispatchHead_frame | with_reducible apply startReduce_frame | with_reducible apply thenSettle_frame | with_reducible refine fst_frame (by assumption) ?_ | with_reducible refine snd_frame (by assumption) ?_ | intro _ _ | dsimp only | with_reducible refine next_frame ?_ | split | fail_if_no_progress ((with_reducible refine State.Frame.lit ?_ ?_ ?_ ?_ ?_ ?_ ?_ ?_ ?_ ?_ ?_ ?_ ?_ ?_ ?_ ?_ ?_ ?_ ?_ ?_ ?_ ?_ ?_ ?_ ?_ ?_ ?_ ?_ ?_) <;> first | with_reducible exact Or.inr rfl | exact Or.inl (ha (by decide)) | skip) | dsimp only | dsimp +zetaDelta only

theorem exchangeRow_frame {A : List StatePart} (s : State) (mode : Nat) (ring : BitVec 6) (ha : [.rings, .rooms, .link, .svc, .mem, .can, .psched, .free, .ports, .log, .events, .ppeer] ⊆ A := by first | exact StatePart.sub (by assumption) (by decide) | decide) : Out.Frame A s (exchangeRow mode ring s) := by
  unfold exchangeRow
  repeat' first | with_reducible assumption | with_reducible exact State.Frame.refl _ _ | fail_if_no_progress extract_lets | exact StatePart.sub ha (by decide) | with_reducible apply touch_frame | with_reducible apply dispatchHead_frame | with_reducible apply beginTokens_frame | with_reducible apply beginGather_frame | with_reducible apply thenSettle_frame | with_reducible refine fst_frame (by assumption) ?_ | with_reducible refine snd_frame (by assumption) ?_ | intro _ _ | dsimp only | with_reducible refine next_frame ?_ | with_reducible refine ite_frame ?_ ?_ | split | fail_if_no_progress ((with_reducible refine State.Frame.lit ?_ ?_ ?_ ?_ ?_ ?_ ?_ ?_ ?_ ?_ ?_ ?_ ?_ ?_ ?_ ?_ ?_ ?_ ?_ ?_ ?_ ?_ ?_ ?_ ?_ ?_ ?_ ?_ ?_) <;> first | with_reducible exact Or.inr rfl | exact Or.inl (ha (by decide)) | skip) | dsimp only | dsimp +zetaDelta only

theorem execTokenExchange_frame {A : List StatePart} (s : State) (ring : BitVec 6) (ha : [.rings, .rooms, .link, .svc, .mem, .can, .psched, .free, .ports, .log, .events, .ppeer] ⊆ A := by first | exact StatePart.sub (by assumption) (by decide) | decide) : Out.Frame A s (execTokenExchange ring s) := by
  unfold execTokenExchange
  repeat' first | with_reducible assumption | with_reducible exact State.Frame.refl _ _ | exact StatePart.sub ha (by decide) | with_reducible apply exchangeRow_frame | with_reducible refine next_frame ?_ | split | fail_if_no_progress ((with_reducible refine State.Frame.lit ?_ ?_ ?_ ?_ ?_ ?_ ?_ ?_ ?_ ?_ ?_ ?_ ?_ ?_ ?_ ?_ ?_ ?_ ?_ ?_ ?_ ?_ ?_ ?_ ?_ ?_ ?_ ?_ ?_) <;> first | with_reducible exact Or.inr rfl | exact Or.inl (ha (by decide)) | skip)

theorem execShardGather_frame {A : List StatePart} (s : State) (ring : BitVec 6) (ha : [.rings, .rooms, .link, .svc, .mem, .can, .psched, .free, .ports, .log, .events, .ppeer] ⊆ A := by first | exact StatePart.sub (by assumption) (by decide) | decide) : Out.Frame A s (execShardGather ring s) := by
  unfold execShardGather
  repeat' first | with_reducible assumption | with_reducible exact State.Frame.refl _ _ | exact StatePart.sub ha (by decide) | with_reducible apply exchangeRow_frame | with_reducible refine next_frame ?_ | split | fail_if_no_progress ((with_reducible refine State.Frame.lit ?_ ?_ ?_ ?_ ?_ ?_ ?_ ?_ ?_ ?_ ?_ ?_ ?_ ?_ ?_ ?_ ?_ ?_ ?_ ?_ ?_ ?_ ?_ ?_ ?_ ?_ ?_ ?_ ?_) <;> first | with_reducible exact Or.inr rfl | exact Or.inl (ha (by decide)) | skip)

theorem execSplice_frame {A : List StatePart} (s : State) (ring : BitVec 6) (ha : [.rings, .rooms, .link, .svc, .mem, .can, .psched, .free, .ports, .log, .events, .ppeer] ⊆ A := by first | exact StatePart.sub (by assumption) (by decide) | decide) : Out.Frame A s (execSplice ring s) := by
  unfold execSplice
  repeat' first | with_reducible assumption | with_reducible exact State.Frame.refl _ _ | fail_if_no_progress extract_lets | exact StatePart.sub ha (by decide) | with_reducible apply touch_frame | with_reducible apply dispatchHead_frame | with_reducible apply thenSettle_frame | intro _ _ | dsimp only | with_reducible refine next_frame ?_ | split | fail_if_no_progress ((with_reducible refine State.Frame.lit ?_ ?_ ?_ ?_ ?_ ?_ ?_ ?_ ?_ ?_ ?_ ?_ ?_ ?_ ?_ ?_ ?_ ?_ ?_ ?_ ?_ ?_ ?_ ?_ ?_ ?_ ?_ ?_ ?_) <;> first | with_reducible exact Or.inr rfl | exact Or.inl (ha (by decide)) | skip) | dsimp only | dsimp +zetaDelta only

theorem execMacroOpComplete_frame {A : List StatePart} (s : State) (ring : BitVec 6) (seq : BitVec 64) (ha : [.rings, .rooms, .link, .svc, .mem, .can, .psched, .free, .ports, .log, .events, .ppeer] ⊆ A := by first | exact StatePart.sub (by assumption) (by decide) | decide) : Out.Frame A s (execMacroOpComplete ring seq s) := by
  unfold execMacroOpComplete
  repeat' first | with_reducible assumption | with_reducible exact State.Frame.refl _ _ | fail_if_no_progress extract_lets | exact StatePart.sub ha (by decide) | with_reducible apply finishOp_frame | with_reducible apply settleFabric_frame | with_reducible refine act_frame ?_ | with_reducible refine next_frame ?_ | split | fail_if_no_progress ((with_reducible refine State.Frame.lit ?_ ?_ ?_ ?_ ?_ ?_ ?_ ?_ ?_ ?_ ?_ ?_ ?_ ?_ ?_ ?_ ?_ ?_ ?_ ?_ ?_ ?_ ?_ ?_ ?_ ?_ ?_ ?_ ?_) <;> first | with_reducible exact Or.inr rfl | exact Or.inl (ha (by decide)) | skip) | dsimp +zetaDelta only

theorem receive_frame {A : List StatePart} (s : State) (ok : Nat → Bool) (known : Bool) (port : BitVec 4) (f : PeerFrame) (ha : [.rings, .rooms, .link, .svc, .mem, .can, .psched, .free, .ports, .log, .events, .ppeer] ⊆ A := by first | exact StatePart.sub (by assumption) (by decide) | decide) : Out.Frame A s (receive ok known port f s) := by
  unfold receive
  repeat' first | with_reducible assumption | with_reducible exact State.Frame.refl _ _ | fail_if_no_progress extract_lets | exact StatePart.sub ha (by decide) | with_reducible apply updPort_frame | with_reducible apply countPort_frame | with_reducible apply linkLayer_frame | with_reducible apply settleFabric_frame | with_reducible refine fst_frame (by assumption) ?_ | with_reducible refine snd_frame (by assumption) ?_ | with_reducible refine act_frame ?_ | with_reducible refine next_frame ?_ | with_reducible refine ite_frame ?_ ?_ | split | fail_if_no_progress ((with_reducible refine State.Frame.lit ?_ ?_ ?_ ?_ ?_ ?_ ?_ ?_ ?_ ?_ ?_ ?_ ?_ ?_ ?_ ?_ ?_ ?_ ?_ ?_ ?_ ?_ ?_ ?_ ?_ ?_ ?_ ?_ ?_) <;> first | with_reducible exact Or.inr rfl | exact Or.inl (ha (by decide)) | skip) | dsimp +zetaDelta only

theorem execRdata_frame {A : List StatePart} (s : State) (port : BitVec 4) (f : PeerFrame) (ha : [.rings, .rooms, .link, .svc, .mem, .can, .psched, .free, .ports, .log, .events, .ppeer] ⊆ A := by first | exact StatePart.sub (by assumption) (by decide) | decide) : Out.Frame A s (execRdata port f s) := by
  unfold execRdata
  repeat' first | with_reducible assumption | with_reducible exact State.Frame.refl _ _ | exact StatePart.sub ha (by decide) | with_reducible apply receive_frame | with_reducible refine next_frame ?_ | split | fail_if_no_progress ((with_reducible refine State.Frame.lit ?_ ?_ ?_ ?_ ?_ ?_ ?_ ?_ ?_ ?_ ?_ ?_ ?_ ?_ ?_ ?_ ?_ ?_ ?_ ?_ ?_ ?_ ?_ ?_ ?_ ?_ ?_ ?_ ?_) <;> first | with_reducible exact Or.inr rfl | exact Or.inl (ha (by decide)) | skip)

theorem execXdata_frame {A : List StatePart} (s : State) (port : BitVec 4) (f : PeerFrame) (ha : [.rings, .rooms, .link, .svc, .mem, .can, .psched, .free, .ports, .log, .events, .ppeer] ⊆ A := by first | exact StatePart.sub (by assumption) (by decide) | decide) : Out.Frame A s (execXdata port f s) := by
  unfold execXdata
  repeat' first | with_reducible assumption | with_reducible exact State.Frame.refl _ _ | exact StatePart.sub ha (by decide) | with_reducible apply receive_frame | with_reducible refine next_frame ?_ | split | fail_if_no_progress ((with_reducible refine State.Frame.lit ?_ ?_ ?_ ?_ ?_ ?_ ?_ ?_ ?_ ?_ ?_ ?_ ?_ ?_ ?_ ?_ ?_ ?_ ?_ ?_ ?_ ?_ ?_ ?_ ?_ ?_ ?_ ?_ ?_) <;> first | with_reducible exact Or.inr rfl | exact Or.inl (ha (by decide)) | skip)

theorem execXcount_frame {A : List StatePart} (s : State) (port : BitVec 4) (f : PeerFrame) (ha : [.rings, .rooms, .link, .svc, .mem, .can, .psched, .free, .ports, .log, .events, .ppeer] ⊆ A := by first | exact StatePart.sub (by assumption) (by decide) | decide) : Out.Frame A s (execXcount port f s) := by
  unfold execXcount
  repeat' first | with_reducible assumption | with_reducible exact State.Frame.refl _ _ | exact StatePart.sub ha (by decide) | with_reducible apply receive_frame | with_reducible refine next_frame ?_ | split | fail_if_no_progress ((with_reducible refine State.Frame.lit ?_ ?_ ?_ ?_ ?_ ?_ ?_ ?_ ?_ ?_ ?_ ?_ ?_ ?_ ?_ ?_ ?_ ?_ ?_ ?_ ?_ ?_ ?_ ?_ ?_ ?_ ?_ ?_ ?_) <;> first | with_reducible exact Or.inr rfl | exact Or.inl (ha (by decide)) | skip)

theorem execShreq_frame {A : List StatePart} (s : State) (port : BitVec 4) (f : PeerFrame) (ha : [.rings, .rooms, .link, .svc, .mem, .can, .psched, .free, .ports, .log, .events, .ppeer] ⊆ A := by first | exact StatePart.sub (by assumption) (by decide) | decide) : Out.Frame A s (execShreq port f s) := by
  unfold execShreq
  repeat' first | with_reducible assumption | with_reducible exact State.Frame.refl _ _ | exact StatePart.sub ha (by decide) | with_reducible apply receive_frame | with_reducible refine next_frame ?_ | split | fail_if_no_progress ((with_reducible refine State.Frame.lit ?_ ?_ ?_ ?_ ?_ ?_ ?_ ?_ ?_ ?_ ?_ ?_ ?_ ?_ ?_ ?_ ?_ ?_ ?_ ?_ ?_ ?_ ?_ ?_ ?_ ?_ ?_ ?_ ?_) <;> first | with_reducible exact Or.inr rfl | exact Or.inl (ha (by decide)) | skip)

theorem execShdata_frame {A : List StatePart} (s : State) (port : BitVec 4) (f : PeerFrame) (ha : [.rings, .rooms, .link, .svc, .mem, .can, .psched, .free, .ports, .log, .events, .ppeer] ⊆ A := by first | exact StatePart.sub (by assumption) (by decide) | decide) : Out.Frame A s (execShdata port f s) := by
  unfold execShdata
  repeat' first | with_reducible assumption | with_reducible exact State.Frame.refl _ _ | exact StatePart.sub ha (by decide) | with_reducible apply receive_frame | with_reducible refine next_frame ?_ | split | fail_if_no_progress ((with_reducible refine State.Frame.lit ?_ ?_ ?_ ?_ ?_ ?_ ?_ ?_ ?_ ?_ ?_ ?_ ?_ ?_ ?_ ?_ ?_ ?_ ?_ ?_ ?_ ?_ ?_ ?_ ?_ ?_ ?_ ?_ ?_) <;> first | with_reducible exact Or.inr rfl | exact Or.inl (ha (by decide)) | skip)

theorem execShref_frame {A : List StatePart} (s : State) (port : BitVec 4) (f : PeerFrame) (ha : [.rings, .rooms, .link, .svc, .mem, .can, .psched, .free, .ports, .log, .events, .ppeer] ⊆ A := by first | exact StatePart.sub (by assumption) (by decide) | decide) : Out.Frame A s (execShref port f s) := by
  unfold execShref
  repeat' first | with_reducible assumption | with_reducible exact State.Frame.refl _ _ | exact StatePart.sub ha (by decide) | with_reducible apply receive_frame | with_reducible refine next_frame ?_ | split | fail_if_no_progress ((with_reducible refine State.Frame.lit ?_ ?_ ?_ ?_ ?_ ?_ ?_ ?_ ?_ ?_ ?_ ?_ ?_ ?_ ?_ ?_ ?_ ?_ ?_ ?_ ?_ ?_ ?_ ?_ ?_ ?_ ?_ ?_ ?_) <;> first | with_reducible exact Or.inr rfl | exact Or.inl (ha (by decide)) | skip)

theorem execAbort_frame {A : List StatePart} (s : State) (port : BitVec 4) (f : PeerFrame) (ha : [.rings, .rooms, .link, .svc, .mem, .can, .psched, .free, .ports, .log, .events, .ppeer] ⊆ A := by first | exact StatePart.sub (by assumption) (by decide) | decide) : Out.Frame A s (execAbort port f s) := by
  unfold execAbort
  repeat' first | with_reducible assumption | with_reducible exact State.Frame.refl _ _ | exact StatePart.sub ha (by decide) | with_reducible apply receive_frame | with_reducible refine next_frame ?_ | split | fail_if_no_progress ((with_reducible refine State.Frame.lit ?_ ?_ ?_ ?_ ?_ ?_ ?_ ?_ ?_ ?_ ?_ ?_ ?_ ?_ ?_ ?_ ?_ ?_ ?_ ?_ ?_ ?_ ?_ ?_ ?_ ?_ ?_ ?_ ?_) <;> first | with_reducible exact Or.inr rfl | exact Or.inl (ha (by decide)) | skip)

theorem execRedo_frame {A : List StatePart} (s : State) (port : BitVec 4) (f : PeerFrame) (ha : [.rings, .rooms, .link, .svc, .mem, .can, .psched, .free, .ports, .log, .events, .ppeer] ⊆ A := by first | exact StatePart.sub (by assumption) (by decide) | decide) : Out.Frame A s (execRedo port f s) := by
  unfold execRedo
  repeat' first | with_reducible assumption | with_reducible exact State.Frame.refl _ _ | exact StatePart.sub ha (by decide) | with_reducible apply receive_frame | with_reducible refine next_frame ?_ | split | fail_if_no_progress ((with_reducible refine State.Frame.lit ?_ ?_ ?_ ?_ ?_ ?_ ?_ ?_ ?_ ?_ ?_ ?_ ?_ ?_ ?_ ?_ ?_ ?_ ?_ ?_ ?_ ?_ ?_ ?_ ?_ ?_ ?_ ?_ ?_) <;> first | with_reducible exact Or.inr rfl | exact Or.inl (ha (by decide)) | skip)

theorem execLink_frame {A : List StatePart} (s : State) (port : BitVec 4) (f : PeerFrame) (ha : [.rings, .rooms, .link, .svc, .mem, .can, .psched, .free, .ports, .log, .events, .ppeer] ⊆ A := by first | exact StatePart.sub (by assumption) (by decide) | decide) : Out.Frame A s (execLink port f s) := by
  unfold execLink
  repeat' first | with_reducible assumption | with_reducible exact State.Frame.refl _ _ | exact StatePart.sub ha (by decide) | with_reducible apply receive_frame | with_reducible refine next_frame ?_ | split | fail_if_no_progress ((with_reducible refine State.Frame.lit ?_ ?_ ?_ ?_ ?_ ?_ ?_ ?_ ?_ ?_ ?_ ?_ ?_ ?_ ?_ ?_ ?_ ?_ ?_ ?_ ?_ ?_ ?_ ?_ ?_ ?_ ?_ ?_ ?_) <;> first | with_reducible exact Or.inr rfl | exact Or.inl (ha (by decide)) | skip)

theorem execFrameOfUndefinedType_frame {A : List StatePart} (s : State) (port : BitVec 4) (f : PeerFrame) (ha : [.rings, .rooms, .link, .svc, .mem, .can, .psched, .free, .ports, .log, .events, .ppeer] ⊆ A := by first | exact StatePart.sub (by assumption) (by decide) | decide) : Out.Frame A s (execFrameOfUndefinedType port f s) := by
  unfold execFrameOfUndefinedType
  repeat' first | with_reducible assumption | with_reducible exact State.Frame.refl _ _ | exact StatePart.sub ha (by decide) | with_reducible apply receive_frame | with_reducible refine next_frame ?_ | split | fail_if_no_progress ((with_reducible refine State.Frame.lit ?_ ?_ ?_ ?_ ?_ ?_ ?_ ?_ ?_ ?_ ?_ ?_ ?_ ?_ ?_ ?_ ?_ ?_ ?_ ?_ ?_ ?_ ?_ ?_ ?_ ?_ ?_ ?_ ?_) <;> first | with_reducible exact Or.inr rfl | exact Or.inl (ha (by decide)) | skip)

theorem execNak_frame {A : List StatePart} (s : State) (port : BitVec 4) (ack : BitVec 16) (ha : [.rings, .rooms, .link, .svc, .mem, .can, .psched, .free, .ports, .log, .events, .ppeer] ⊆ A := by first | exact StatePart.sub (by assumption) (by decide) | decide) : Out.Frame A s (execNak port ack s) := by
  unfold execNak
  repeat' first | with_reducible assumption | with_reducible exact State.Frame.refl _ _ | fail_if_no_progress extract_lets | exact StatePart.sub ha (by decide) | with_reducible apply replayPort_frame | with_reducible apply countPort_frame | with_reducible apply takeAck_frame | with_reducible apply settleFabric_frame | with_reducible refine act_frame ?_ | with_reducible refine next_frame ?_ | with_reducible refine ite_frame ?_ ?_ | split | fail_if_no_progress ((with_reducible refine State.Frame.lit ?_ ?_ ?_ ?_ ?_ ?_ ?_ ?_ ?_ ?_ ?_ ?_ ?_ ?_ ?_ ?_ ?_ ?_ ?_ ?_ ?_ ?_ ?_ ?_ ?_ ?_ ?_ ?_ ?_) <;> first | with_reducible exact Or.inr rfl | exact Or.inl (ha (by decide)) | skip) | dsimp +zetaDelta only

theorem execPeerTimeout_frame {A : List StatePart} (s : State) (ring : BitVec 6) (seq : BitVec 64) (ha : [.rings, .rooms, .link, .svc, .mem, .can, .psched, .free, .ports, .log, .events, .ppeer] ⊆ A := by first | exact StatePart.sub (by assumption) (by decide) | decide) : Out.Frame A s (execPeerTimeout ring seq s) := by
  unfold execPeerTimeout
  repeat' first | with_reducible assumption | with_reducible exact State.Frame.refl _ _ | fail_if_no_progress extract_lets | exact StatePart.sub ha (by decide) | with_reducible apply faultOp_frame | with_reducible apply settleFabric_frame | with_reducible refine act_frame ?_ | with_reducible refine next_frame ?_ | with_reducible refine ite_frame ?_ ?_ | split | fail_if_no_progress ((with_reducible refine State.Frame.lit ?_ ?_ ?_ ?_ ?_ ?_ ?_ ?_ ?_ ?_ ?_ ?_ ?_ ?_ ?_ ?_ ?_ ?_ ?_ ?_ ?_ ?_ ?_ ?_ ?_ ?_ ?_ ?_ ?_) <;> first | with_reducible exact Or.inr rfl | exact Or.inl (ha (by decide)) | skip) | dsimp +zetaDelta only

/-! ### Stop -/

theorem stopOp_frame {A : List StatePart} {s₀ : State} {s : State} (h : s₀.Frame A s) (n : Nat) (o : Op) (ha : [.rings, .psched, .free, .ports] ⊆ A := by first | exact StatePart.sub (by assumption) (by decide) | decide) : s₀.Frame A (stopOp s n o) := by
  unfold stopOp
  extract_lets x0 x1 x2
  have h1 : s₀.Frame A x1 := by
    unfold x1
    repeat' first | with_reducible assumption | with_reducible exact State.Frame.refl _ _ | fail_if_no_progress extract_lets | exact StatePart.sub ha (by decide) | with_reducible apply updRing_frame | with_reducible apply takeFree_frame | with_reducible apply abortOp_frame | with_reducible apply updOp_frame | with_reducible apply dropProgram_frame | with_reducible refine fst_frame (by assumption) ?_ | with_reducible refine snd_frame (by assumption) ?_ | with_reducible refine ite_frame ?_ ?_ | split | fail_if_no_progress ((with_reducible refine State.Frame.lit ?_ ?_ ?_ ?_ ?_ ?_ ?_ ?_ ?_ ?_ ?_ ?_ ?_ ?_ ?_ ?_ ?_ ?_ ?_ ?_ ?_ ?_ ?_ ?_ ?_ ?_ ?_ ?_ ?_) <;> first | with_reducible exact Or.inr rfl | exact Or.inl (ha (by decide)) | skip) | dsimp +zetaDelta only
  clear_value x1
  have h2 : s₀.Frame A x2 := by
    unfold x2
    repeat' first | with_reducible assumption | with_reducible exact State.Frame.refl _ _ | fail_if_no_progress extract_lets | exact StatePart.sub ha (by decide) | with_reducible apply updRing_frame | with_reducible apply takeFree_frame | with_reducible apply abortOp_frame | with_reducible apply updOp_frame | with_reducible apply dropProgram_frame | with_reducible refine fst_frame (by assumption) ?_ | with_reducible refine snd_frame (by assumption) ?_ | with_reducible refine ite_frame ?_ ?_ | split | fail_if_no_progress ((with_reducible refine State.Frame.lit ?_ ?_ ?_ ?_ ?_ ?_ ?_ ?_ ?_ ?_ ?_ ?_ ?_ ?_ ?_ ?_ ?_ ?_ ?_ ?_ ?_ ?_ ?_ ?_ ?_ ?_ ?_ ?_ ?_) <;> first | with_reducible exact Or.inr rfl | exact Or.inl (ha (by decide)) | skip) | dsimp +zetaDelta only
  clear_value x2
  repeat' first | with_reducible assumption | with_reducible exact State.Frame.refl _ _ | fail_if_no_progress extract_lets | exact StatePart.sub ha (by decide) | with_reducible apply updRing_frame | with_reducible apply takeFree_frame | with_reducible apply abortOp_frame | with_reducible apply updOp_frame | with_reducible apply dropProgram_frame | with_reducible refine fst_frame (by assumption) ?_ | with_reducible refine snd_frame (by assumption) ?_ | with_reducible refine ite_frame ?_ ?_ | split | fail_if_no_progress ((with_reducible refine State.Frame.lit ?_ ?_ ?_ ?_ ?_ ?_ ?_ ?_ ?_ ?_ ?_ ?_ ?_ ?_ ?_ ?_ ?_ ?_ ?_ ?_ ?_ ?_ ?_ ?_ ?_ ?_ ?_ ?_ ?_) <;> first | with_reducible exact Or.inr rfl | exact Or.inl (ha (by decide)) | skip) | dsimp +zetaDelta only

theorem endStop_frame {A : List StatePart} {s₀ : State} {s : State} (h : s₀.Frame A s) (n : Nat) (ha : [.rings, .link, .psched, .free, .ports] ⊆ A := by first | exact StatePart.sub (by assumption) (by decide) | decide) : s₀.Frame A (endStop s n) := by
  unfold endStop
  extract_lets x0 x1 x2 x3 x4 x5
  have h1 : s₀.Frame A x1 := by
    unfold x1
    repeat' first | with_reducible assumption | with_reducible exact State.Frame.refl _ _ | fail_if_no_progress extract_lets | exact StatePart.sub ha (by decide) | with_reducible apply updRing_frame | with_reducible apply retire_frame | with_reducible apply closeStep_frame | with_reducible apply withdraw_frame | with_reducible apply stopOp_frame | with_reducible refine foldl_frame (fun _ _ => ?_) ?_ | with_reducible refine ite_frame ?_ ?_ | split | fail_if_no_progress ((with_reducible refine State.Frame.lit ?_ ?_ ?_ ?_ ?_ ?_ ?_ ?_ ?_ ?_ ?_ ?_ ?_ ?_ ?_ ?_ ?_ ?_ ?_ ?_ ?_ ?_ ?_ ?_ ?_ ?_ ?_ ?_ ?_) <;> first | with_reducible exact Or.inr rfl | exact Or.inl (ha (by decide)) | skip) | dsimp +zetaDelta only
  clear_value x1
  have h2 : s₀.Frame A x2 := by
    unfold x2
    repeat' first | with_reducible assumption | with_reducible exact State.Frame.refl _ _ | fail_if_no_progress extract_lets | exact StatePart.sub ha (by decide) | with_reducible apply updRing_frame | with_reducible apply retire_frame | with_reducible apply closeStep_frame | with_reducible apply withdraw_frame | with_reducible apply stopOp_frame | with_reducible refine foldl_frame (fun _ _ => ?_) ?_ | with_reducible refine ite_frame ?_ ?_ | split | fail_if_no_progress ((with_reducible refine State.Frame.lit ?_ ?_ ?_ ?_ ?_ ?_ ?_ ?_ ?_ ?_ ?_ ?_ ?_ ?_ ?_ ?_ ?_ ?_ ?_ ?_ ?_ ?_ ?_ ?_ ?_ ?_ ?_ ?_ ?_) <;> first | with_reducible exact Or.inr rfl | exact Or.inl (ha (by decide)) | skip) | dsimp +zetaDelta only
  clear_value x2
  have h3 : s₀.Frame A x3 := by
    unfold x3
    repeat' first | with_reducible assumption | with_reducible exact State.Frame.refl _ _ | fail_if_no_progress extract_lets | exact StatePart.sub ha (by decide) | with_reducible apply updRing_frame | with_reducible apply retire_frame | with_reducible apply closeStep_frame | with_reducible apply withdraw_frame | with_reducible apply stopOp_frame | with_reducible refine foldl_frame (fun _ _ => ?_) ?_ | with_reducible refine ite_frame ?_ ?_ | split | fail_if_no_progress ((with_reducible refine State.Frame.lit ?_ ?_ ?_ ?_ ?_ ?_ ?_ ?_ ?_ ?_ ?_ ?_ ?_ ?_ ?_ ?_ ?_ ?_ ?_ ?_ ?_ ?_ ?_ ?_ ?_ ?_ ?_ ?_ ?_) <;> first | with_reducible exact Or.inr rfl | exact Or.inl (ha (by decide)) | skip) | dsimp +zetaDelta only
  clear_value x3
  have h5 : s₀.Frame A x5 := by
    unfold x5
    repeat' first | with_reducible assumption | with_reducible exact State.Frame.refl _ _ | fail_if_no_progress extract_lets | exact StatePart.sub ha (by decide) | with_reducible apply updRing_frame | with_reducible apply retire_frame | with_reducible apply closeStep_frame | with_reducible apply withdraw_frame | with_reducible apply stopOp_frame | with_reducible refine foldl_frame (fun _ _ => ?_) ?_ | with_reducible refine ite_frame ?_ ?_ | split | fail_if_no_progress ((with_reducible refine State.Frame.lit ?_ ?_ ?_ ?_ ?_ ?_ ?_ ?_ ?_ ?_ ?_ ?_ ?_ ?_ ?_ ?_ ?_ ?_ ?_ ?_ ?_ ?_ ?_ ?_ ?_ ?_ ?_ ?_ ?_) <;> first | with_reducible exact Or.inr rfl | exact Or.inl (ha (by decide)) | skip) | dsimp +zetaDelta only
  clear_value x5
  repeat' first | with_reducible assumption | with_reducible exact State.Frame.refl _ _ | fail_if_no_progress extract_lets | exact StatePart.sub ha (by decide) | with_reducible apply updRing_frame | with_reducible apply retire_frame | with_reducible apply closeStep_frame | with_reducible apply withdraw_frame | with_reducible apply stopOp_frame | with_reducible refine foldl_frame (fun _ _ => ?_) ?_ | with_reducible refine ite_frame ?_ ?_ | split | fail_if_no_progress ((with_reducible refine State.Frame.lit ?_ ?_ ?_ ?_ ?_ ?_ ?_ ?_ ?_ ?_ ?_ ?_ ?_ ?_ ?_ ?_ ?_ ?_ ?_ ?_ ?_ ?_ ?_ ?_ ?_ ?_ ?_ ?_ ?_) <;> first | with_reducible exact Or.inr rfl | exact Or.inl (ha (by decide)) | skip) | dsimp +zetaDelta only

theorem resumeAfter_frame {A : List StatePart} {s₀ : State} {s : State} (h : s₀.Frame A s) (n : Nat) (ha : [.rings] ⊆ A := by first | exact StatePart.sub (by assumption) (by decide) | decide) : s₀.Frame A (resumeAfter s n) := by
  unfold resumeAfter
  extract_lets x0
  repeat' first | with_reducible assumption | with_reducible exact State.Frame.refl _ _ | fail_if_no_progress extract_lets | exact StatePart.sub ha (by decide) | with_reducible apply updRing_frame | with_reducible apply runOrIdle_frame | with_reducible refine ite_frame ?_ ?_ | split | fail_if_no_progress ((with_reducible refine State.Frame.lit ?_ ?_ ?_ ?_ ?_ ?_ ?_ ?_ ?_ ?_ ?_ ?_ ?_ ?_ ?_ ?_ ?_ ?_ ?_ ?_ ?_ ?_ ?_ ?_ ?_ ?_ ?_ ?_ ?_) <;> first | with_reducible exact Or.inr rfl | exact Or.inl (ha (by decide)) | skip) | dsimp +zetaDelta only

theorem execStreamStopped_frame {A : List StatePart} (s : State) (ring : BitVec 6) (ha : [.rings, .rooms, .psec, .frozen, .link, .svc, .mem, .can, .psched, .free, .ports, .log, .events, .ppeer] ⊆ A := by first | exact StatePart.sub (by assumption) (by decide) | decide) : Out.Frame A s (execStreamStopped ring s) := by
  unfold execStreamStopped
  repeat' first | with_reducible assumption | with_reducible exact State.Frame.refl _ _ | fail_if_no_progress extract_lets | exact StatePart.sub ha (by decide) | with_reducible apply settleStop_frame | with_reducible apply settleFabric_frame | with_reducible apply endStop_frame | with_reducible apply resumeAfter_frame | with_reducible refine act_frame ?_ | with_reducible refine next_frame ?_ | split | fail_if_no_progress ((with_reducible refine State.Frame.lit ?_ ?_ ?_ ?_ ?_ ?_ ?_ ?_ ?_ ?_ ?_ ?_ ?_ ?_ ?_ ?_ ?_ ?_ ?_ ?_ ?_ ?_ ?_ ?_ ?_ ?_ ?_ ?_ ?_) <;> first | with_reducible exact Or.inr rfl | exact Or.inl (ha (by decide)) | skip) | dsimp +zetaDelta only

theorem againXchg_frame {A : List StatePart} {s₀ : State} {s : State} (h : s₀.Frame A s) (n : Nat) (o : Op) (x : Xchg) (ha : [.mem, .ports] ⊆ A := by first | exact StatePart.sub (by assumption) (by decide) | decide) : s₀.Frame A (againXchg s n o x).1 := by
  unfold againXchg
  repeat' first | with_reducible assumption | with_reducible exact State.Frame.refl _ _ | fail_if_no_progress extract_lets | exact StatePart.sub ha (by decide) | with_reducible apply beginTokens_frame | with_reducible apply askOwners_frame | with_reducible apply beginGather_frame | with_reducible refine fst_frame (by assumption) ?_ | with_reducible refine snd_frame (by assumption) ?_ | with_reducible refine foldl_frame (fun _ _ => ?_) ?_ | with_reducible refine ite_frame ?_ ?_ | split | fail_if_no_progress ((with_reducible refine State.Frame.lit ?_ ?_ ?_ ?_ ?_ ?_ ?_ ?_ ?_ ?_ ?_ ?_ ?_ ?_ ?_ ?_ ?_ ?_ ?_ ?_ ?_ ?_ ?_ ?_ ?_ ?_ ?_ ?_ ?_) <;> first | with_reducible exact Or.inr rfl | exact Or.inl (ha (by decide)) | skip) | dsimp +zetaDelta only

theorem takeUpAgain_frame {A : List StatePart} {s₀ : State} {s : State} (h : s₀.Frame A s) (n : Nat) (o : Op) (ha : [.rings, .mem, .ports] ⊆ A := by first | exact StatePart.sub (by assumption) (by decide) | decide) : s₀.Frame A (takeUpAgain s n o).1 := by
  unfold takeUpAgain
  extract_lets x0 x1 x2 x3
  have h1 : s₀.Frame A x1 := by
    unfold x1
    repeat' first | with_reducible assumption | with_reducible exact State.Frame.refl _ _ | fail_if_no_progress extract_lets | exact StatePart.sub ha (by decide) | with_reducible apply updRing_frame | with_reducible apply againXchg_frame | with_reducible refine fst_frame (by assumption) ?_ | with_reducible refine snd_frame (by assumption) ?_ | split | fail_if_no_progress ((with_reducible refine State.Frame.lit ?_ ?_ ?_ ?_ ?_ ?_ ?_ ?_ ?_ ?_ ?_ ?_ ?_ ?_ ?_ ?_ ?_ ?_ ?_ ?_ ?_ ?_ ?_ ?_ ?_ ?_ ?_ ?_ ?_) <;> first | with_reducible exact Or.inr rfl | exact Or.inl (ha (by decide)) | skip) | dsimp +zetaDelta only
  clear_value x1
  repeat' first | with_reducible assumption | with_reducible exact State.Frame.refl _ _ | fail_if_no_progress extract_lets | exact StatePart.sub ha (by decide) | with_reducible apply updRing_frame | with_reducible apply againXchg_frame | with_reducible refine fst_frame (by assumption) ?_ | with_reducible refine snd_frame (by assumption) ?_ | split | fail_if_no_progress ((with_reducible refine State.Frame.lit ?_ ?_ ?_ ?_ ?_ ?_ ?_ ?_ ?_ ?_ ?_ ?_ ?_ ?_ ?_ ?_ ?_ ?_ ?_ ?_ ?_ ?_ ?_ ?_ ?_ ?_ ?_ ?_ ?_) <;> first | with_reducible exact Or.inr rfl | exact Or.inl (ha (by decide)) | skip) | dsimp +zetaDelta only

theorem execContinueEntry_frame {A : List StatePart} (s : State) (ring : BitVec 6) (ha : [.rings, .rooms, .link, .svc, .mem, .can, .psched, .free, .ports, .log, .events, .ppeer] ⊆ A := by first | exact StatePart.sub (by assumption) (by decide) | decide) : Out.Frame A s (execContinueEntry ring s) := by
  unfold execContinueEntry
  repeat' first | with_reducible assumption | with_reducible exact State.Frame.refl _ _ | fail_if_no_progress extract_lets | exact StatePart.sub ha (by decide) | with_reducible apply dispatchHead_frame | with_reducible apply thenSettle_frame | with_reducible apply takeUpAgain_frame | with_reducible refine fst_frame (by assumption) ?_ | with_reducible refine snd_frame (by assumption) ?_ | intro _ _ | dsimp only | with_reducible refine next_frame ?_ | split | fail_if_no_progress ((with_reducible refine State.Frame.lit ?_ ?_ ?_ ?_ ?_ ?_ ?_ ?_ ?_ ?_ ?_ ?_ ?_ ?_ ?_ ?_ ?_ ?_ ?_ ?_ ?_ ?_ ?_ ?_ ?_ ?_ ?_ ?_ ?_) <;> first | with_reducible exact Or.inr rfl | exact Or.inl (ha (by decide)) | skip) | dsimp only | dsimp +zetaDelta only

/-! ### Shares -/

theorem execShareStart_frame {A : List StatePart} (s : State) (room : BitVec 7) (ha : [.rings, .rooms, .link, .mem, .can, .psched, .free, .ports, .log, .events] ⊆ A := by first | exact StatePart.sub (by assumption) (by decide) | decide) : Out.Frame A s (execShareStart room s) := by
  unfold execShareStart
  repeat' first | with_reducible assumption | with_reducible exact State.Frame.refl _ _ | fail_if_no_progress extract_lets | exact StatePart.sub ha (by decide) | with_reducible apply updRoom_frame | with_reducible apply updOps_frame | with_reducible apply updOp_frame | with_reducible apply faultOp_frame | with_reducible refine each_frame (fun _ _ => ?_) ?_ | with_reducible refine act_frame ?_ | with_reducible refine next_frame ?_ | with_reducible refine ite_frame ?_ ?_ | split | fail_if_no_progress ((with_reducible refine State.Frame.lit ?_ ?_ ?_ ?_ ?_ ?_ ?_ ?_ ?_ ?_ ?_ ?_ ?_ ?_ ?_ ?_ ?_ ?_ ?_ ?_ ?_ ?_ ?_ ?_ ?_ ?_ ?_ ?_ ?_) <;> first | with_reducible exact Or.inr rfl | exact Or.inl (ha (by decide)) | skip) | dsimp +zetaDelta only

/-! ### Debug -/

theorem setDbg_frame {A : List StatePart} {s₀ : State} {s : State} (h : s₀.Frame A s) (v : U64) (ha : [.tap] ⊆ A := by first | exact StatePart.sub (by assumption) (by decide) | decide) : s₀.Frame A (setDbg s v) := by
  unfold setDbg
  repeat' first | with_reducible assumption | with_reducible exact State.Frame.refl _ _ | fail_if_no_progress extract_lets | exact StatePart.sub ha (by decide) | split | fail_if_no_progress ((with_reducible refine State.Frame.lit ?_ ?_ ?_ ?_ ?_ ?_ ?_ ?_ ?_ ?_ ?_ ?_ ?_ ?_ ?_ ?_ ?_ ?_ ?_ ?_ ?_ ?_ ?_ ?_ ?_ ?_ ?_ ?_ ?_) <;> first | with_reducible exact Or.inr rfl | exact Or.inl (ha (by decide)) | skip)

theorem unreachedDbg_frame {A : List StatePart} {s₀ : State} {s : State} (h : s₀.Frame A s)  (ha : [.tap, .free] ⊆ A := by first | exact StatePart.sub (by assumption) (by decide) | decide) : s₀.Frame A (unreachedDbg s) := by
  unfold unreachedDbg
  repeat' first | with_reducible assumption | with_reducible exact State.Frame.refl _ _ | fail_if_no_progress extract_lets | exact StatePart.sub ha (by decide) | with_reducible apply takeFree_frame | with_reducible apply setDbg_frame | with_reducible refine fst_frame (by assumption) ?_ | with_reducible refine snd_frame (by assumption) ?_ | with_reducible refine each_frame (fun _ _ => ?_) ?_ | split | fail_if_no_progress ((with_reducible refine State.Frame.lit ?_ ?_ ?_ ?_ ?_ ?_ ?_ ?_ ?_ ?_ ?_ ?_ ?_ ?_ ?_ ?_ ?_ ?_ ?_ ?_ ?_ ?_ ?_ ?_ ?_ ?_ ?_ ?_ ?_) <;> first | with_reducible exact Or.inr rfl | exact Or.inl (ha (by decide)) | skip) | dsimp +zetaDelta only

theorem stepRoom_frame {A : List StatePart} {s₀ : State} {s : State} (h : s₀.Frame A s) (n : Nat) (ha : [.rings, .rooms, .link, .mem, .can, .psched, .free, .ports, .log, .events] ⊆ A := by first | exact StatePart.sub (by assumption) (by decide) | decide) : s₀.Frame A (stepRoom s n) := by
  unfold stepRoom
  extract_lets x0
  have h0 : s₀.Frame A x0 := by
    unfold x0
    repeat' first | with_reducible assumption | with_reducible exact State.Frame.refl _ _ | fail_if_no_progress extract_lets | exact StatePart.sub ha (by decide) | with_reducible apply updRoom_frame | with_reducible apply roomStep_frame | with_reducible refine ite_frame ?_ ?_ | split | fail_if_no_progress ((with_reducible refine State.Frame.lit ?_ ?_ ?_ ?_ ?_ ?_ ?_ ?_ ?_ ?_ ?_ ?_ ?_ ?_ ?_ ?_ ?_ ?_ ?_ ?_ ?_ ?_ ?_ ?_ ?_ ?_ ?_ ?_ ?_) <;> first | with_reducible exact Or.inr rfl | exact Or.inl (ha (by decide)) | skip) | dsimp +zetaDelta only
  clear_value x0
  repeat' first | with_reducible assumption | with_reducible exact State.Frame.refl _ _ | fail_if_no_progress extract_lets | exact StatePart.sub ha (by decide) | with_reducible apply updRoom_frame | with_reducible apply roomStep_frame | with_reducible refine ite_frame ?_ ?_ | split | fail_if_no_progress ((with_reducible refine State.Frame.lit ?_ ?_ ?_ ?_ ?_ ?_ ?_ ?_ ?_ ?_ ?_ ?_ ?_ ?_ ?_ ?_ ?_ ?_ ?_ ?_ ?_ ?_ ?_ ?_ ?_ ?_ ?_ ?_ ?_) <;> first | with_reducible exact Or.inr rfl | exact Or.inl (ha (by decide)) | skip) | dsimp +zetaDelta only

theorem debugAccess_frame {A : List StatePart} {t s : State} (h : t.Frame A s) (m : DbgCmd) (ha : [.rings, .rooms, .link, .tap, .mem, .can, .psched, .free, .ports, .log, .events] ⊆ A := by first | exact StatePart.sub (by assumption) (by decide) | decide) : t.Frame A (debugAccess s m) := by
  unfold debugAccess
  repeat' first | with_reducible assumption | with_reducible apply updRoom_frame | with_reducible apply setDbg_frame | with_reducible apply unreachedDbg_frame | with_reducible apply stepRoom_frame | with_reducible refine ite_frame ?_ ?_ | with_reducible refine setMem_frame ?_ ?_ | exact ha (by decide) | exact StatePart.sub ha (by decide) | with_reducible refine each_frame (fun _ _ => ?_) ?_ | with_reducible exact State.Frame.refl _ _ | split | fail_if_no_progress ((with_reducible refine State.Frame.lit ?_ ?_ ?_ ?_ ?_ ?_ ?_ ?_ ?_ ?_ ?_ ?_ ?_ ?_ ?_ ?_ ?_ ?_ ?_ ?_ ?_ ?_ ?_ ?_ ?_ ?_ ?_ ?_ ?_) <;> first | with_reducible exact Or.inr rfl | exact Or.inl (ha (by decide)) | skip)

theorem execDbgacc_frame {A : List StatePart} (s : State) (cmd : DbgCmd) (ha : [.rings, .rooms, .psec, .link, .tap, .mem, .can, .psched, .free, .ports, .log, .events, .ppeer] ⊆ A := by first | exact StatePart.sub (by assumption) (by decide) | decide) : Out.Frame A s (execDbgacc cmd s) := by
  unfold execDbgacc
  refine act_frame ?_
  extract_lets u
  exact ite_frame (debugAccess_frame (loadIr_frame (State.Frame.refl A s) _) _) (loadIr_frame (State.Frame.refl A s) _)

/-! ### Clock -/

theorem tickPhase_frame {A : List StatePart} {s₀ : State} {s : State} (h : s₀.Frame A s) (n : Nat) (ha : [.rings] ⊆ A := by first | exact StatePart.sub (by assumption) (by decide) | decide) : s₀.Frame A (tickPhase s n) := by
  unfold tickPhase
  extract_lets x0
  repeat' first | with_reducible assumption | with_reducible exact State.Frame.refl _ _ | fail_if_no_progress extract_lets | exact StatePart.sub ha (by decide) | with_reducible apply updRing_frame | split | fail_if_no_progress ((with_reducible refine State.Frame.lit ?_ ?_ ?_ ?_ ?_ ?_ ?_ ?_ ?_ ?_ ?_ ?_ ?_ ?_ ?_ ?_ ?_ ?_ ?_ ?_ ?_ ?_ ?_ ?_ ?_ ?_ ?_ ?_ ?_) <;> first | with_reducible exact Or.inr rfl | exact Or.inl (ha (by decide)) | skip) | dsimp +zetaDelta only

theorem skipStamp_frame {A : List StatePart} {s₀ : State} {s : State} (h : s₀.Frame A s) (n : Nat) (ha : [.rings, .events] ⊆ A := by first | exact StatePart.sub (by assumption) (by decide) | decide) : s₀.Frame A (skipStamp s n) := by
  unfold skipStamp
  extract_lets x0
  repeat' first | with_reducible assumption | with_reducible exact State.Frame.refl _ _ | fail_if_no_progress extract_lets | exact StatePart.sub ha (by decide) | with_reducible apply armStamp_frame | with_reducible refine ite_frame ?_ ?_ | split | fail_if_no_progress ((with_reducible refine State.Frame.lit ?_ ?_ ?_ ?_ ?_ ?_ ?_ ?_ ?_ ?_ ?_ ?_ ?_ ?_ ?_ ?_ ?_ ?_ ?_ ?_ ?_ ?_ ?_ ?_ ?_ ?_ ?_ ?_ ?_) <;> first | with_reducible exact Or.inr rfl | exact Or.inl (ha (by decide)) | skip) | dsimp +zetaDelta only

theorem takeStamp_frame {A : List StatePart} {s₀ : State} {s : State} (h : s₀.Frame A s) (n : Nat) (ha : [.rings] ⊆ A := by first | exact StatePart.sub (by assumption) (by decide) | decide) : s₀.Frame A (takeStamp s n) := by
  unfold takeStamp
  repeat' first | with_reducible assumption | with_reducible exact State.Frame.refl _ _ | fail_if_no_progress extract_lets | exact StatePart.sub ha (by decide) | with_reducible apply updRing_frame | split | fail_if_no_progress ((with_reducible refine State.Frame.lit ?_ ?_ ?_ ?_ ?_ ?_ ?_ ?_ ?_ ?_ ?_ ?_ ?_ ?_ ?_ ?_ ?_ ?_ ?_ ?_ ?_ ?_ ?_ ?_ ?_ ?_ ?_ ?_ ?_) <;> first | with_reducible exact Or.inr rfl | exact Or.inl (ha (by decide)) | skip)

theorem execPhaseTimerStamp_frame {A : List StatePart} (s : State) (k : BitVec 8) (ha : [.rings, .firedNow, .events, .firedStops] ⊆ A := by first | exact StatePart.sub (by assumption) (by decide) | decide) : Out.Frame A s (execPhaseTimerStamp k s) := by
  unfold execPhaseTimerStamp
  repeat' first | with_reducible assumption | with_reducible exact State.Frame.refl _ _ | fail_if_no_progress extract_lets | exact StatePart.sub ha (by decide) | with_reducible apply markFired_frame | with_reducible apply armStamp_frame | with_reducible apply takeStamp_frame | with_reducible refine act_frame ?_ | with_reducible refine next_frame ?_ | with_reducible refine ite_frame ?_ ?_ | split | fail_if_no_progress ((with_reducible refine State.Frame.lit ?_ ?_ ?_ ?_ ?_ ?_ ?_ ?_ ?_ ?_ ?_ ?_ ?_ ?_ ?_ ?_ ?_ ?_ ?_ ?_ ?_ ?_ ?_ ?_ ?_ ?_ ?_ ?_ ?_) <;> first | with_reducible exact Or.inr rfl | exact Or.inl (ha (by decide)) | skip) | dsimp +zetaDelta only

theorem clockTick_frame {A : List StatePart} {s₀ : State} {s : State} (h : s₀.Frame A s)  (ha : [.rings, .time, .can, .log, .events] ⊆ A := by first | exact StatePart.sub (by assumption) (by decide) | decide) : s₀.Frame A (clockTick s) := by
  unfold clockTick
  extract_lets x0
  have h0 : s₀.Frame A x0 := by
    unfold x0
    repeat' first | with_reducible assumption | with_reducible exact State.Frame.refl _ _ | fail_if_no_progress extract_lets | exact StatePart.sub ha (by decide) | with_reducible apply timeTick_frame | with_reducible apply tickPhase_frame | with_reducible apply skipStamp_frame | with_reducible refine each_frame (fun _ _ => ?_) ?_ | with_reducible refine ite_frame ?_ ?_ | split | fail_if_no_progress ((with_reducible refine State.Frame.lit ?_ ?_ ?_ ?_ ?_ ?_ ?_ ?_ ?_ ?_ ?_ ?_ ?_ ?_ ?_ ?_ ?_ ?_ ?_ ?_ ?_ ?_ ?_ ?_ ?_ ?_ ?_ ?_ ?_) <;> first | with_reducible exact Or.inr rfl | exact Or.inl (ha (by decide)) | skip) | dsimp +zetaDelta only
  clear_value x0
  repeat' first | with_reducible assumption | with_reducible exact State.Frame.refl _ _ | fail_if_no_progress extract_lets | exact StatePart.sub ha (by decide) | with_reducible apply timeTick_frame | with_reducible apply tickPhase_frame | with_reducible apply skipStamp_frame | with_reducible refine each_frame (fun _ _ => ?_) ?_ | with_reducible refine ite_frame ?_ ?_ | split | fail_if_no_progress ((with_reducible refine State.Frame.lit ?_ ?_ ?_ ?_ ?_ ?_ ?_ ?_ ?_ ?_ ?_ ?_ ?_ ?_ ?_ ?_ ?_ ?_ ?_ ?_ ?_ ?_ ?_ ?_ ?_ ?_ ?_ ?_ ?_) <;> first | with_reducible exact Or.inr rfl | exact Or.inl (ha (by decide)) | skip) | dsimp +zetaDelta only

theorem tick_frame {A : List StatePart} {s₀ : State} {s : State} (h : s₀.Frame A s)  (ha : [.rings, .time, .rooms, .link, .svc, .mem, .can, .psched, .free, .ports, .log, .events] ⊆ A := by first | exact StatePart.sub (by assumption) (by decide) | decide) : s₀.Frame A (tick s) := by
  unfold tick
  repeat' first | with_reducible assumption | with_reducible exact State.Frame.refl _ _ | exact StatePart.sub ha (by decide) | with_reducible apply settleFound_frame | with_reducible apply clockTick_frame | split | fail_if_no_progress ((with_reducible refine State.Frame.lit ?_ ?_ ?_ ?_ ?_ ?_ ?_ ?_ ?_ ?_ ?_ ?_ ?_ ?_ ?_ ?_ ?_ ?_ ?_ ?_ ?_ ?_ ?_ ?_ ?_ ?_ ?_ ?_ ?_) <;> first | with_reducible exact Or.inr rfl | exact Or.inl (ha (by decide)) | skip)

end Sys2Proof.Machine
end

