-- ==== Sys2Proof/Laws/KeepsCore.lean ====
section
/-! SUPPORT. What every operation of these files keeps: Ops, Frames, RingOps, Tree, Tenancy. -/

namespace Sys2Proof.Machine

set_option linter.unusedVariables false
set_option linter.unusedTactic false
set_option linter.unreachableTactic false

/-! ### Ops -/

theorem updPs_keeps {s₀ s : State} (h : s₀.Keeps s) (p : Nat) (f : PartSec → PartSec) : s₀.Keeps (State.updPs s p f) := by
  unfold State.updPs
  repeat' first | with_reducible assumption | fail_if_no_progress with_reducible refine State.Keeps.lit ?_ (Nat.le_refl _) (Nat.le_refl _)

theorem updSched_keeps {s₀ s : State} (h : s₀.Keeps s) (p : Nat) (f : PartSched → PartSched) : s₀.Keeps (State.updSched s p f) := by
  unfold State.updSched
  repeat' first | with_reducible assumption | fail_if_no_progress with_reducible refine State.Keeps.lit ?_ (Nat.le_refl _) (Nat.le_refl _)

theorem updPeer_keeps {s₀ s : State} (h : s₀.Keeps s) (p : Nat) (f : PartPeer → PartPeer) : s₀.Keeps (State.updPeer s p f) := by
  unfold State.updPeer
  repeat' first | with_reducible assumption | fail_if_no_progress with_reducible refine State.Keeps.lit ?_ (Nat.le_refl _) (Nat.le_refl _)

theorem updRing_keeps {s₀ s : State} (h : s₀.Keeps s) (n : Nat) (f : Ring → Ring) : s₀.Keeps (State.updRing s n f) := by
  unfold State.updRing
  repeat' first | with_reducible assumption | fail_if_no_progress with_reducible refine State.Keeps.lit ?_ (Nat.le_refl _) (Nat.le_refl _)

theorem updRoom_keeps {s₀ s : State} (h : s₀.Keeps s) (n : Nat) (f : Room → Room) : s₀.Keeps (State.updRoom s n f) := by
  unfold State.updRoom
  repeat' first | with_reducible assumption | fail_if_no_progress with_reducible refine State.Keeps.lit ?_ (Nat.le_refl _) (Nat.le_refl _)

theorem updPort_keeps {s₀ s : State} (h : s₀.Keeps s) (n : Nat) (f : Port → Port) : s₀.Keeps (State.updPort s n f) := by
  unfold State.updPort
  repeat' first | with_reducible assumption | fail_if_no_progress with_reducible refine State.Keeps.lit ?_ (Nat.le_refl _) (Nat.le_refl _)

theorem updEvent_keeps {s₀ s : State} (h : s₀.Keeps s) (n : Nat) (f : EventEntry → EventEntry) : s₀.Keeps (State.updEvent s n f) := by
  unfold State.updEvent
  repeat' first | with_reducible assumption | fail_if_no_progress with_reducible refine State.Keeps.lit ?_ (Nat.le_refl _) (Nat.le_refl _)

theorem updDie_keeps {s₀ s : State} (h : s₀.Keeps s) (d : Nat) (f : DiePower → DiePower) : s₀.Keeps (State.updDie s d f) := by
  unfold State.updDie
  repeat' first | with_reducible assumption | fail_if_no_progress with_reducible refine State.Keeps.lit ?_ (Nat.le_refl _) (Nat.le_refl _)

theorem updBox_keeps {s₀ s : State} (h : s₀.Keeps s) (m : Nat) (f : Mailbox → Mailbox) : s₀.Keeps (State.updBox s m f) := by
  unfold State.updBox
  repeat' first | with_reducible assumption | fail_if_no_progress with_reducible refine State.Keeps.lit ?_ (Nat.le_refl _) (Nat.le_refl _)

theorem takeFree_keeps {s₀ s : State} (h : s₀.Keeps s)  : s₀.Keeps (State.takeFree s).2 := by
  unfold State.takeFree
  repeat' first | with_reducible assumption | with_reducible refine State.Keeps.lit ?_ (Nat.le_succ _) (Nat.le_refl _)

theorem logOnly_keeps {s₀ s : State} (h : s₀.Keeps s) (cause : U16) (a : LogArgs) : s₀.Keeps (logOnly s cause a) := by
  unfold logOnly
  extract_lets x0
  repeat' first | with_reducible assumption | fail_if_no_progress with_reducible refine State.Keeps.lit ?_ (Nat.le_refl _) (Nat.le_refl _)

theorem queueFault_keeps {s₀ s : State} (h : s₀.Keeps s) (cause : U16) (a : LogArgs) : s₀.Keeps (queueFault s cause a) := by
  unfold queueFault
  repeat' first | with_reducible assumption | split | fail_if_no_progress with_reducible refine State.Keeps.lit ?_ (Nat.le_refl _) (Nat.le_refl _)

theorem logEvent_keeps {s₀ s : State} (h : s₀.Keeps s) (cause : U16) (a : LogArgs) : s₀.Keeps (logEvent s cause a) := by
  unfold logEvent
  extract_lets x0
  have h0 : s₀.Keeps x0 := by
    unfold x0
    repeat' first | with_reducible assumption | with_reducible apply logOnly_keeps | with_reducible apply queueFault_keeps
  clear_value x0
  repeat' first | with_reducible assumption | with_reducible apply logOnly_keeps | split | fail_if_no_progress with_reducible refine State.Keeps.lit ?_ (Nat.le_refl _) (Nat.le_refl _)

theorem linkSend_keeps {s₀ s : State} (h : s₀.Keeps s) (m : OutMsg) : s₀.Keeps (linkSend s m) := by
  unfold linkSend
  repeat' first | with_reducible assumption | fail_if_no_progress with_reducible refine State.Keeps.lit ?_ (Nat.le_refl _) (Nat.le_refl _)

theorem linkWriteLine_keeps {s₀ s : State} (h : s₀.Keeps s) (line : Nat) (off : Nat) (bs : List Byte) : s₀.Keeps (linkWriteLine s line off bs) := by
  unfold linkWriteLine
  repeat' first | with_reducible assumption | with_reducible apply linkSend_keeps | split

theorem linkWriteLoop_keeps {t s : State} (h : t.Keeps s) (k a : Nat) (bs : List Byte) : t.Keeps (linkWriteLoop k s a bs) := by
  induction k generalizing s a bs with
  | zero => exact h
  | succ k ih =>
    unfold linkWriteLoop
    split
    · exact h
    · exact ih (linkWriteLine_keeps h ..) ..

theorem linkWrite_keeps {s₀ s : State} (h : s₀.Keeps s) (a : Nat) (bs : List Byte) : s₀.Keeps (linkWrite s a bs) := by
  unfold linkWrite
  repeat' first | with_reducible assumption | with_reducible apply linkWriteLoop_keeps

theorem linkRead_keeps {s₀ s : State} (h : s₀.Keeps s) (typ : BitVec 5) (addr : Nat) (why : Purpose) : s₀.Keeps (linkRead s typ addr why) := by
  unfold linkRead
  repeat' first | with_reducible assumption | fail_if_no_progress with_reducible refine State.Keeps.lit ?_ (Nat.le_refl _) (Nat.le_refl _)

theorem canSend_keeps {s₀ s : State} (h : s₀.Keeps s) (f : CanFrame) : s₀.Keeps (canSend s f) := by
  unfold canSend
  repeat' first | with_reducible assumption | split | fail_if_no_progress with_reducible refine State.Keeps.lit ?_ (Nat.le_refl _) (Nat.le_refl _)

theorem freshKey_keeps {s₀ s : State} (h : s₀.Keeps s)  : s₀.Keeps (freshKey s).2 := by
  unfold freshKey
  repeat' first | with_reducible assumption | with_reducible refine State.Keeps.lit ?_ (Nat.le_succ _) (Nat.le_refl _)

/-! ### Frames -/

theorem queueFrame_keeps {s₀ s : State} (h : s₀.Keeps s) (j : Nat) (f : PeerFrame) : s₀.Keeps (queueFrame s j f) := by
  unfold queueFrame
  repeat' first | with_reducible assumption | with_reducible apply updPort_keeps

theorem sendTo_keeps {s₀ s : State} (h : s₀.Keeps s) (p : Nat) (j : Nat) (q : Nat) (h : FrameHead) (payload : List Byte) : s₀.Keeps (sendTo s p j q h payload) := by
  unfold sendTo
  repeat' first | with_reducible assumption | with_reducible apply queueFrame_keeps

theorem sendAbort_keeps {s₀ s : State} (h : s₀.Keeps s) (p : Nat) (group : List Nat) (tag : U32) (chan : Nat) (seg : Nat) (cause : U16) : s₀.Keeps (sendAbort s p group tag chan seg cause) := by
  unfold sendAbort
  repeat' first | with_reducible assumption | with_reducible exact State.Keeps.refl _ | with_reducible apply sendTo_keeps | with_reducible refine each_keeps (fun _ _ => ?_) ?_

theorem abortOp_keeps {s₀ s : State} (h : s₀.Keeps s) (p : Nat) (o : Op) (cause : U16) : s₀.Keeps (abortOp s p o cause) := by
  unfold abortOp
  repeat' first | with_reducible assumption | with_reducible apply sendAbort_keeps | split

/-! ### RingOps -/

theorem readTail_keeps {s₀ s : State} (h : s₀.Keeps s) (n : Nat) : s₀.Keeps (readTail s n) := by
  unfold readTail
  repeat' first | with_reducible assumption | with_reducible apply linkRead_keeps | split

theorem readNotify_keeps {s₀ s : State} (h : s₀.Keeps s) (n : Nat) : s₀.Keeps (readNotify s n) := by
  unfold readNotify
  repeat' first | with_reducible assumption | with_reducible apply linkRead_keeps | split

theorem haltOne_keeps {s₀ s : State} (h : s₀.Keeps s) (n : Nat) (f : FaultInfo) : s₀.Keeps (haltOne s n f) := by
  unfold haltOne
  extract_lets x0 x1 x2
  have h0 : s₀.Keeps x0 := by
    unfold x0
    repeat' first | with_reducible assumption | with_reducible apply recordRefused_keeps | split
  clear_value x0
  have h1 : s₀.Keeps x1 := by
    unfold x1
    repeat' first | with_reducible assumption | with_reducible apply updRing_keeps
  clear_value x1
  have h2 : s₀.Keeps x2 := by
    unfold x2
    repeat' first | with_reducible assumption | with_reducible apply logEvent_keeps
  clear_value x2
  repeat' first | with_reducible assumption | with_reducible apply linkWrite_keeps

theorem updOps_keeps {s₀ s : State} (h : s₀.Keeps s) (n : Nat) (f : Op → Op) : s₀.Keeps (State.updOps s n f) := by
  unfold State.updOps
  repeat' first | with_reducible assumption | with_reducible apply updRing_keeps

theorem updOp_keeps {s₀ s : State} (h : s₀.Keeps s) (n : Nat) (seq : Nat) (f : Op → Op) : s₀.Keeps (State.updOp s n seq f) := by
  unfold State.updOp
  repeat' first | with_reducible assumption | with_reducible apply updOps_keeps

theorem writeRecord_keeps {s₀ s : State} (h : s₀.Keeps s) (n : Nat) (o : Op) : s₀.Keeps (writeRecord s n o) := by
  unfold writeRecord
  repeat' first | with_reducible assumption | with_reducible apply updRing_keeps | with_reducible apply takeFree_keeps | with_reducible apply linkWrite_keeps

theorem retireLoop_keeps {t s : State} (h : t.Keeps s) (k n : Nat) : t.Keeps (retireLoop k s n) := by
  induction k generalizing s with
  | zero => exact h
  | succ k ih =>
    unfold retireLoop
    split
    · split
      · exact ih (writeRecord_keeps (updRing_keeps h _ _) _ _)
      · exact h
    · exact h

theorem retire_keeps {s₀ s : State} (h : s₀.Keeps s) (n : Nat) : s₀.Keeps (retire s n) := by
  unfold retire
  repeat' first | with_reducible assumption | with_reducible apply retireLoop_keeps

theorem dropShares_keeps {s₀ s : State} (h : s₀.Keeps s) (n : Nat) (f : Nat → Bool) : s₀.Keeps (dropShares s n f) := by
  unfold dropShares
  repeat' first | with_reducible assumption | with_reducible exact State.Keeps.refl _ | with_reducible apply updRoom_keeps | with_reducible refine each_keeps (fun _ _ => ?_) ?_ | split

theorem closeStep_keeps {s₀ s : State} (h : s₀.Keeps s) (n : Nat) : s₀.Keeps (closeStep s n) := by
  unfold closeStep
  repeat' first | with_reducible assumption | with_reducible apply updRing_keeps | split

theorem beginStep_keeps {s₀ s : State} (h : s₀.Keeps s) (n : Nat) : s₀.Keeps (beginStep s n) := by
  unfold beginStep
  repeat' first | with_reducible assumption | with_reducible apply updRing_keeps

theorem setHitch_keeps {s₀ s : State} (h : s₀.Keeps s) (p : Nat) (k : Nat) (h : Hitch) : s₀.Keeps (setHitch s p k h) := by
  unfold setHitch
  repeat' first | with_reducible assumption | with_reducible apply updSched_keeps

theorem haltWaiter_keeps {s₀ s : State} (h : s₀.Keeps s) (n : Nat) (cause : U16) : s₀.Keeps (haltWaiter s n cause) := by
  unfold haltWaiter
  repeat' first | with_reducible assumption | with_reducible apply haltOne_keeps | with_reducible apply updOp_keeps | with_reducible apply retire_keeps | split

theorem breakLoop_keeps {t s : State} (h : t.Keeps s) (k : Nat) (l : List Nat) : t.Keeps (breakLoop k s l) := by
  induction k generalizing s l with
  | zero => exact h
  | succ k ih =>
    cases l with
    | nil => exact h
    | cons n l =>
      unfold breakLoop
      extract_lets p broken
      have key : ∀ (l : Tbl Hitch) (a : State × List Nat), t.Keeps a.1 → t.Keeps (l.foldl (fun a e =>
          let others := e.2.arrived.filter fun m => m != n
          let s := setHitch a.1 p e.1 { e.2 with arrived := [], mask := 0 }
          (each others s fun s m => haltWaiter s m 0x0A0C, a.2 ++ others)) a).1 := by
        intro l
        induction l with
        | nil => intro a ha; exact ha
        | cons e l il =>
          intro a ha
          exact il _ (each_keeps (fun x m => haltWaiter_keeps (State.Keeps.refl x) _ _) (setHitch_keeps ha _ _ _))
      exact ih (key broken (s, []) h) _

theorem breakHitches_keeps {s₀ s : State} (h : s₀.Keeps s) (n : Nat) : s₀.Keeps (breakHitches s n) := by
  unfold breakHitches
  repeat' first | with_reducible assumption | with_reducible apply breakLoop_keeps

theorem haltRing_keeps {s₀ s : State} (h : s₀.Keeps s) (n : Nat) (f : FaultInfo) : s₀.Keeps (haltRing s n f) := by
  unfold haltRing
  repeat' first | with_reducible assumption | with_reducible apply haltOne_keeps | with_reducible apply breakHitches_keeps

theorem faultOp_keeps {t s : State} (h : t.Keeps s) (n seq : Nat) (f : FaultInfo) : t.Keeps (faultOp s n seq f) := by
  unfold faultOp
  split
  · split
    · exact h
    · extract_lets s1 s2 s3 s4 s5
      have h3 : t.Keeps s3 := haltRing_keeps (abortOp_keeps (dropShares_keeps h _ _) _ _ _) _ _
      have h4 : t.Keeps s4 := by
        unfold s4
        split
        · exact updEvent_keeps h3 _ _
        · exact h3
      exact retire_keeps (updOp_keeps h4 _ _ _) _
  · exact h

theorem withdraw_keeps {s₀ s : State} (h : s₀.Keeps s) (n : Nat) : s₀.Keeps (withdraw s n) := by
  unfold withdraw
  repeat' first | with_reducible assumption | with_reducible apply setHitch_keeps | split

theorem abandonRing_keeps {s₀ s : State} (h : s₀.Keeps s) (n : Nat) : s₀.Keeps (abandonRing s n) := by
  unfold abandonRing
  extract_lets x0 x1 x2 x3 x4
  have h1 : s₀.Keeps x1 := by
    unfold x1
    repeat' first | with_reducible assumption | with_reducible apply dropShares_keeps
  clear_value x1
  have h3 : s₀.Keeps x3 := by
    unfold x3
    repeat' first | with_reducible assumption | with_reducible exact State.Keeps.refl _ | with_reducible apply updEvent_keeps | with_reducible refine each_keeps (fun _ _ => ?_) ?_
  clear_value x3
  have h4 : s₀.Keeps x4 := by
    unfold x4
    repeat' first | with_reducible assumption | with_reducible apply updRing_keeps
  clear_value x4
  repeat' first | with_reducible assumption | with_reducible apply breakHitches_keeps | with_reducible apply withdraw_keeps

theorem ringReset_keeps {s₀ s : State} (h : s₀.Keeps s) (n : Nat) : s₀.Keeps (ringReset s n) := by
  unfold ringReset
  extract_lets x0 x1
  have h0 : s₀.Keeps x0 := by
    unfold x0
    repeat' first | with_reducible assumption | with_reducible apply abandonRing_keeps
  clear_value x0
  have h1 : s₀.Keeps x1 := by
    unfold x1
    repeat' first | with_reducible assumption | with_reducible apply updRing_keeps
  clear_value x1
  repeat' first | with_reducible assumption | with_reducible apply readTail_keeps

theorem clearHitches_keeps {s₀ s : State} (h : s₀.Keeps s) (p : Nat) : s₀.Keeps (clearHitches s p) := by
  unfold clearHitches
  repeat' first | with_reducible assumption | with_reducible apply updSched_keeps

theorem abandonRings_keeps {s₀ s : State} (h : s₀.Keeps s) (p : Nat) : s₀.Keeps (abandonRings s p) := by
  unfold abandonRings
  repeat' first | with_reducible assumption | with_reducible exact State.Keeps.refl _ | with_reducible apply abandonRing_keeps | with_reducible apply clearHitches_keeps | with_reducible refine each_keeps (fun _ _ => ?_) ?_

theorem resetRings_keeps {s₀ s : State} (h : s₀.Keeps s) (p : Nat) : s₀.Keeps (resetRings s p) := by
  unfold resetRings
  extract_lets x0
  have h0 : s₀.Keeps x0 := by
    unfold x0
    repeat' first | with_reducible assumption | with_reducible apply clearHitches_keeps
  clear_value x0
  repeat' first | with_reducible assumption | with_reducible exact State.Keeps.refl _ | with_reducible apply ringReset_keeps | with_reducible refine each_keeps (fun _ _ => ?_) ?_

theorem settleOverrun_keeps {s₀ s : State} (h : s₀.Keeps s) (n : Nat) : s₀.Keeps (settleOverrun s n) := by
  unfold settleOverrun
  extract_lets x0
  repeat' first | with_reducible assumption | with_reducible apply haltRing_keeps | split

theorem fetchEntry_keeps {s₀ s : State} (h : s₀.Keeps s) (n : Nat) (seq : Nat) : s₀.Keeps (fetchEntry s n seq) := by
  unfold fetchEntry
  extract_lets x0
  repeat' first | with_reducible assumption | with_reducible apply linkRead_keeps

theorem fetchMore_keeps {s₀ s : State} (h : s₀.Keeps s) (n : Nat) : s₀.Keeps (fetchMore s n) := by
  unfold fetchMore
  extract_lets x0 x1
  repeat' first | with_reducible assumption | with_reducible exact State.Keeps.refl _ | with_reducible apply updRing_keeps | with_reducible apply fetchEntry_keeps | with_reducible refine each_keeps (fun _ _ => ?_) ?_ | split

theorem refetch_keeps {s₀ s : State} (h : s₀.Keeps s) (n : Nat) : s₀.Keeps (refetch s n) := by
  unfold refetch
  extract_lets x0 x1
  have h1 : s₀.Keeps x1 := by
    unfold x1
    repeat' first | with_reducible assumption | with_reducible apply updRing_keeps
  clear_value x1
  repeat' first | with_reducible assumption | with_reducible exact State.Keeps.refl _ | with_reducible apply fetchEntry_keeps | with_reducible refine each_keeps (fun _ _ => ?_) ?_

theorem entryHalf_keeps {s₀ s : State} (h : s₀.Keeps s) (n : Nat) (seq : Nat) (half : Nat) (ok : Bool) (data : Line) : s₀.Keeps (entryHalf s n seq half ok data) := by
  unfold entryHalf
  repeat' first | with_reducible assumption | with_reducible apply updRing_keeps

theorem runOrIdle_keeps {s₀ s : State} (h : s₀.Keeps s) (n : Nat) : s₀.Keeps (runOrIdle s n) := by
  unfold runOrIdle
  repeat' first | with_reducible assumption | with_reducible apply updRing_keeps

theorem showRings_keeps {s₀ s : State} (h : s₀.Keeps s) (p : Nat) (st : RState) : s₀.Keeps (showRings s p st) := by
  unfold showRings
  repeat' first | with_reducible assumption | with_reducible exact State.Keeps.refl _ | with_reducible apply updRing_keeps | with_reducible refine each_keeps (fun _ _ => ?_) ?_

/-! ### Tree -/

theorem updBucket_keeps {s₀ s : State} (h : s₀.Keeps s) (n : Nat) (seq : Nat) (f : Bucket → Bucket) : s₀.Keeps (State.updBucket s n seq f) := by
  unfold State.updBucket
  repeat' first | with_reducible assumption | with_reducible apply updOp_keeps

theorem sendRedo_keeps {s₀ s : State} (h : s₀.Keeps s) (p : Nat) (b : Bucket) (down : Bool) (e : Nat × Nat) (seg : Nat) (fetch : Bool) : s₀.Keeps (sendRedo s p b down e seg fetch) := by
  unfold sendRedo
  repeat' first | with_reducible assumption | with_reducible apply sendTo_keeps

theorem redoBelow_keeps {s₀ s : State} (h : s₀.Keeps s) (p : Nat) (n : Nat) (seq : Nat) (b : Bucket) (seg : Nat) : s₀.Keeps (redoBelow s p n seq b seg) := by
  unfold redoBelow
  extract_lets x0
  have h0 : s₀.Keeps x0 := by
    unfold x0
    repeat' first | with_reducible assumption | with_reducible exact State.Keeps.refl _ | with_reducible apply sendRedo_keeps | with_reducible refine foldl_keeps (fun _ _ => ?_) ?_
  clear_value x0
  repeat' first | with_reducible assumption | with_reducible apply updBucket_keeps

theorem wantRedo_keeps {s₀ s : State} (h : s₀.Keeps s) (p : Nat) (n : Nat) (seq : Nat) (b : Bucket) (seg : Nat) : s₀.Keeps (wantRedo s p n seq b seg) := by
  unfold wantRedo
  repeat' first | with_reducible assumption | with_reducible apply sendRedo_keeps | with_reducible apply redoBelow_keeps | split

/-! ### Tenancy -/

theorem roomReset_keeps {s₀ s : State} (h : s₀.Keeps s) (n : Nat) : s₀.Keeps (roomReset s n) := by
  unfold roomReset
  repeat' first | with_reducible assumption | with_reducible apply updRoom_keeps

theorem resetRooms_keeps {s₀ s : State} (h : s₀.Keeps s) (p : Nat) : s₀.Keeps (resetRooms s p) := by
  unfold resetRooms
  repeat' first | with_reducible assumption | with_reducible exact State.Keeps.refl _ | with_reducible apply roomReset_keeps | with_reducible refine each_keeps (fun _ _ => ?_) ?_

theorem formState_keeps {s₀ s : State} (h : s₀.Keeps s) (p : Nat) : s₀.Keeps (formState s p) := by
  unfold formState
  repeat' first | with_reducible assumption | with_reducible apply updSched_keeps | with_reducible apply updPeer_keeps

theorem lockBlocks_keeps {s₀ s : State} (h : s₀.Keeps s) (p : Nat) : s₀.Keeps (lockBlocks s p) := by
  unfold lockBlocks
  extract_lets x0 x1
  repeat' first | with_reducible assumption | with_reducible refine sameStacks_keeps ?_ rfl rfl rfl

theorem formPart_keeps {s₀ s : State} (h : s₀.Keeps s) (p : Nat) : s₀.Keeps (formPart s p) := by
  unfold formPart
  extract_lets x0 x1 x2
  have h0 : s₀.Keeps x0 := by
    unfold x0
    repeat' first | with_reducible assumption | with_reducible apply updSched_keeps
  clear_value x0
  have h1 : s₀.Keeps x1 := by
    unfold x1
    repeat' first | with_reducible assumption | with_reducible apply formState_keeps | with_reducible apply lockBlocks_keeps
  clear_value x1
  have h2 : s₀.Keeps x2 := by
    unfold x2
    repeat' first | with_reducible assumption | with_reducible apply resetRings_keeps
  clear_value x2
  repeat' first | with_reducible assumption | with_reducible apply updPs_keeps

theorem clearOnChip_keeps {s₀ s : State} (h : s₀.Keeps s) (p : Nat) : s₀.Keeps (clearOnChip s p) := by
  unfold clearOnChip
  repeat' first | with_reducible assumption | with_reducible apply discardWhere_keeps | with_reducible apply resetRooms_keeps | with_reducible apply formState_keeps

theorem abortPart_keeps {s₀ s : State} (h : s₀.Keeps s) (p : Nat) : s₀.Keeps (abortPart s p) := by
  unfold abortPart
  repeat' first | with_reducible assumption | with_reducible exact State.Keeps.refl _ | with_reducible apply abortOp_keeps | with_reducible refine each_keeps (fun _ _ => ?_) ?_ | with_reducible refine foldl_keeps (fun _ _ => ?_) ?_

theorem scrubClear_keeps {s₀ s : State} (h : s₀.Keeps s) (p : Nat) : s₀.Keeps (scrubClear s p) := by
  unfold scrubClear
  extract_lets x0
  repeat' first | with_reducible assumption | with_reducible apply updPs_keeps | with_reducible apply clearOnChip_keeps | split

theorem scrubSteps_keeps {s₀ s : State} (h : s₀.Keeps s) (p : Nat) (st : SecState) : s₀.Keeps (scrubSteps s p st) := by
  unfold scrubSteps
  repeat' first | with_reducible assumption | with_reducible apply updPs_keeps | with_reducible apply takeFree_keeps | with_reducible apply logEvent_keeps | with_reducible apply freshKey_keeps | with_reducible apply refill_keeps | with_reducible apply showRings_keeps | with_reducible apply scrubClear_keeps

theorem startScrub_keeps {t s : State} (h : t.Keeps s) (p : Nat) (st : SecState) : t.Keeps (startScrub s p st) := by
  unfold startScrub
  with_reducible refine scrubSteps_keeps (abandonRings_keeps (abortPart_keeps ?_ _) _) _ _
  exact sameStacks_keeps (logEvent_keeps (updPs_keeps h _ _) _ _) rfl rfl rfl

theorem endScrub_keeps {s₀ s : State} (h : s₀.Keeps s) (p : Nat) : s₀.Keeps (endScrub s p) := by
  unfold endScrub
  extract_lets x0
  have h0 : s₀.Keeps x0 := by
    unfold x0
    repeat' first | with_reducible assumption | with_reducible apply updPs_keeps
  clear_value x0
  repeat' first | with_reducible assumption | with_reducible exact State.Keeps.refl _ | with_reducible apply updRing_keeps | with_reducible refine each_keeps (fun _ _ => ?_) ?_

theorem partReset_keeps {s₀ s : State} (h : s₀.Keeps s) (p : Nat) : s₀.Keeps (partReset s p) := by
  unfold partReset
  extract_lets x0 x1 x2 x3 x4
  have h1 : s₀.Keeps x1 := by
    unfold x1
    repeat' first | with_reducible assumption | with_reducible apply updPs_keeps
  clear_value x1
  have h2 : s₀.Keeps x2 := by
    unfold x2
    repeat' first | with_reducible assumption | with_reducible apply updPeer_keeps
  clear_value x2
  have h3 : s₀.Keeps x3 := by
    unfold x3
    repeat' first | with_reducible assumption | with_reducible apply resetRooms_keeps | with_reducible apply abortPart_keeps
  clear_value x3
  have h4 : s₀.Keeps x4 := by
    unfold x4
    repeat' first | with_reducible assumption | with_reducible apply abandonRings_keeps
  clear_value x4
  repeat' first | with_reducible assumption | with_reducible apply updPs_keeps | with_reducible apply flushPart_keeps | with_reducible apply showRings_keeps | with_reducible apply formState_keeps | with_reducible apply startScrub_keeps | split

theorem stopRing_keeps {s₀ s : State} (h : s₀.Keeps s) (n : Nat) : s₀.Keeps (stopRing s n) := by
  unfold stopRing
  repeat' first | with_reducible assumption | with_reducible apply updRing_keeps

theorem stopPart_keeps {s₀ s : State} (h : s₀.Keeps s) (p : Nat) (st : SecState) (rq : StopReq) : s₀.Keeps (stopPart s p st rq) := by
  unfold stopPart
  extract_lets x0
  have h0 : s₀.Keeps x0 := by
    unfold x0
    repeat' first | with_reducible assumption | with_reducible apply updPs_keeps
  clear_value x0
  repeat' first | with_reducible assumption | with_reducible exact State.Keeps.refl _ | with_reducible apply stopRing_keeps | with_reducible refine each_keeps (fun _ _ => ?_) ?_

theorem sealImage_keeps {s₀ s : State} (h : s₀.Keeps s) (p : Nat) (rq : StopReq) : s₀.Keeps (sealImage s p rq) := by
  unfold sealImage
  extract_lets x0 x1 x2 x3
  have h0 : s₀.Keeps x0 := by
    unfold x0
    repeat' first | with_reducible assumption | with_reducible apply drainPart_keeps
  clear_value x0
  have h2 : s₀.Keeps x2 := by
    unfold x2
    repeat' first | with_reducible assumption | fail_if_no_progress with_reducible refine State.Keeps.lit ?_ (Nat.le_refl _) (Nat.le_refl _)
  clear_value x2
  repeat' first | with_reducible assumption | with_reducible apply updPs_keeps

theorem settleStop_keeps {s₀ s : State} (h : s₀.Keeps s) (p : Nat) : s₀.Keeps (settleStop s p) := by
  unfold settleStop
  repeat' first | with_reducible assumption | with_reducible exact State.Keeps.refl _ | with_reducible apply updPs_keeps | with_reducible apply closeStep_keeps | with_reducible apply sealImage_keeps | with_reducible refine each_keeps (fun _ _ => ?_) ?_ | with_reducible refine ite_keeps ?_ ?_ | split

theorem slotStopRequest_keeps {s₀ s : State} (h : s₀.Keeps s) (p : Nat) : s₀.Keeps (slotStopRequest s p) := by
  unfold slotStopRequest
  extract_lets x0
  repeat' first | with_reducible assumption | with_reducible apply stopPart_keeps | with_reducible apply settleStop_keeps | split

theorem beginSlot_keeps {s₀ s : State} (h : s₀.Keeps s) (p : Nat) (e : EventEntry) : s₀.Keeps (beginSlot s p e) := by
  unfold beginSlot
  extract_lets x0 x1 x2 x3 x4
  have h1 : s₀.Keeps x1 := by
    unfold x1
    repeat' first | with_reducible assumption | with_reducible apply updPs_keeps
  clear_value x1
  have h2 : s₀.Keeps x2 := by
    unfold x2
    refine each_keeps (fun x n => ?_) (resetRings_keeps h1 _)
    repeat' first | with_reducible exact State.Keeps.refl _ | with_reducible apply updRing_keeps
  clear_value x2
  have h3 : s₀.Keeps x3 := by
    unfold x3
    repeat' first | with_reducible assumption | with_reducible apply updPeer_keeps
  clear_value x3
  have h4 : s₀.Keeps x4 := by
    unfold x4
    repeat' first | with_reducible assumption | with_reducible apply updSched_keeps
  clear_value x4
  repeat' first | with_reducible assumption | with_reducible apply updPs_keeps | with_reducible apply takeFree_keeps | with_reducible apply freshKey_keeps | with_reducible apply refill_keeps | split

theorem endSlot_keeps {s₀ s : State} (h : s₀.Keeps s) (T : U64) (p : Nat) : s₀.Keeps (endSlot T s p) := by
  unfold endSlot
  repeat' first | with_reducible assumption | with_reducible apply updPs_keeps | with_reducible apply logEvent_keeps | with_reducible apply startScrub_keeps | split

theorem changeMode_keeps {t s : State} (h : t.Keeps s) (m : PMode) : t.Keeps (changeMode s m) := by
  have h1 : t.Keeps (each s.parts s partReset) := each_keeps (fun x p => partReset_keeps (State.Keeps.refl x) p) h
  refine each_keeps (fun x p => formState_keeps (State.Keeps.refl x) p) (each_keeps (fun x p => updPs_keeps (State.Keeps.refl x) _ _) ?_)
  refine setMem_keeps (fun _ => Mem.wf_nil _) ?_
  exact State.Keeps.lit (takeFree_keeps h1) (Nat.le_refl _) (Nat.le_refl _)

theorem shutdown_keeps {t s : State} (h : t.Keeps s) (cause : U16) (ctl : Bool) : t.Keeps (shutdown s cause ctl) := by
  unfold shutdown
  extract_lets m x0 x1 x2
  have h0 : t.Keeps x0 := setMem_keeps (fun x => x) h
  clear_value x0
  have h1 : t.Keeps x1 := each_keeps (fun x p => updPs_keeps (State.Keeps.refl x) _ _) h0
  clear_value x1
  with_reducible refine logEvent_keeps (State.Keeps.lit h1 ?_ ?_) _ _
  · exact Nat.le_refl _
  · exact Nat.le_refl _

end Sys2Proof.Machine
end

