-- ==== Sys2Proof/Laws/KeepsDevice.lean ====
section
/-! SUPPORT. What every operation of these files keeps: Events, Service, Security, Power, Boot, Dict, Time, Can. -/

namespace Sys2Proof.Machine

set_option linter.unusedVariables false
set_option linter.unusedTactic false
set_option linter.unreachableTactic false

/-! ### Events -/

theorem writeEvent_keeps {s₀ : State} {s : State} (h : s₀.Keeps s) (after : State) (n : Nat) (val : BitVec 128) : s₀.Keeps (writeEvent s after n val).1 := by
  unfold writeEvent
  repeat' first | with_reducible assumption | fail_if_no_progress extract_lets | with_reducible apply updEvent_keeps | split | fail_if_no_progress with_reducible refine State.Keeps.lit ?_ (Nat.le_refl _) (Nat.le_refl _)

theorem markFired_keeps {s₀ : State} {s : State} (h : s₀.Keeps s) (n : Nat) : s₀.Keeps (markFired s n) := by
  unfold markFired
  extract_lets x0
  repeat' first | with_reducible assumption | with_reducible apply updEvent_keeps | fail_if_no_progress with_reducible refine State.Keeps.lit ?_ (Nat.le_refl _) (Nat.le_refl _)

theorem markRefused_keeps {s₀ : State} {s : State} (h : s₀.Keeps s) (n : Nat) : s₀.Keeps (markRefused s n) := by
  unfold markRefused
  repeat' first | with_reducible assumption | with_reducible apply updEvent_keeps | fail_if_no_progress with_reducible refine State.Keeps.lit ?_ (Nat.le_refl _) (Nat.le_refl _)

theorem sendStop_keeps {s₀ : State} {s : State} (h : s₀.Keeps s) (n : Nat) (p : Nat) : s₀.Keeps (sendStop s n p) := by
  unfold sendStop
  repeat' first | with_reducible assumption | with_reducible apply slotStopRequest_keeps | fail_if_no_progress with_reducible refine State.Keeps.lit ?_ (Nat.le_refl _) (Nat.le_refl _)

theorem execSlotStop_keeps (s : State) (n : BitVec 8) (p : BitVec 2) : Out.Keeps s (execSlotStop n p s) := by
  unfold execSlotStop
  repeat' first | with_reducible exact State.Keeps.refl _ | with_reducible apply sendStop_keeps | with_reducible refine act_keeps ?_

theorem execSlotEnd_keeps (s : State) (n : BitVec 8) : Out.Keeps s (execSlotEnd n s) := by
  unfold execSlotEnd
  repeat' first | with_reducible exact State.Keeps.refl _ | with_reducible apply endSlot_keeps | with_reducible apply markFired_keeps | with_reducible apply sendStop_keeps | with_reducible refine ite_keeps ?_ ?_ | with_reducible refine each_keeps (fun _ _ => ?_) ?_ | with_reducible refine act_keeps ?_

theorem lateStops_keeps {s₀ : State} {s : State} (h : s₀.Keeps s) (p : Nat) : s₀.Keeps (lateStops s p) := by
  unfold lateStops
  extract_lets x0
  have h0 : s₀.Keeps x0 := by
    unfold x0
    repeat' first | with_reducible assumption | fail_if_no_progress with_reducible refine State.Keeps.lit ?_ (Nat.le_refl _) (Nat.le_refl _)
  clear_value x0
  repeat' first | with_reducible assumption | with_reducible exact State.Keeps.refl _ | with_reducible apply sendStop_keeps | with_reducible refine each_keeps (fun _ _ => ?_) ?_

theorem execSlotStart_keeps (s : State) (n : BitVec 8) : Out.Keeps s (execSlotStart n s) := by
  unfold execSlotStart
  repeat' first | with_reducible exact State.Keeps.refl _ | with_reducible apply logEvent_keeps | with_reducible apply beginSlot_keeps | with_reducible apply markFired_keeps | with_reducible apply markRefused_keeps | with_reducible apply lateStops_keeps | with_reducible refine act_keeps ?_ | with_reducible refine ite_keeps ?_ ?_

theorem execPowerCapChange_keeps (s : State) (n : BitVec 8) : Out.Keeps s (execPowerCapChange n s) := by
  unfold execPowerCapChange
  repeat' first | with_reducible exact State.Keeps.refl _ | with_reducible apply markFired_keeps | with_reducible apply markRefused_keeps | with_reducible refine act_keeps ?_ | with_reducible refine ite_keeps ?_ ?_ | fail_if_no_progress with_reducible refine State.Keeps.lit ?_ (Nat.le_refl _) (Nat.le_refl _)

theorem execCheckpointSealing_keeps (s : State) (n : BitVec 8) : Out.Keeps s (execCheckpointSealing n s) := by
  unfold execCheckpointSealing
  repeat' first | with_reducible exact State.Keeps.refl _ | with_reducible apply stopPart_keeps | with_reducible apply settleStop_keeps | with_reducible apply markFired_keeps | with_reducible apply markRefused_keeps | with_reducible refine each_keeps (fun _ _ => ?_) ?_ | with_reducible refine act_keeps ?_ | with_reducible refine ite_keeps ?_ ?_

theorem execScrub_keeps (s : State) (n : BitVec 8) : Out.Keeps s (execScrub n s) := by
  unfold execScrub
  repeat' first | with_reducible exact State.Keeps.refl _ | with_reducible apply scrubSteps_keeps | with_reducible apply drainPart_keeps | with_reducible apply markFired_keeps | with_reducible apply markRefused_keeps | with_reducible refine each_keeps (fun _ _ => ?_) ?_ | with_reducible refine act_keeps ?_ | with_reducible refine ite_keeps ?_ ?_

theorem execTroubleLogStamp_keeps (s : State) (n : BitVec 8) : Out.Keeps s (execTroubleLogStamp n s) := by
  unfold execTroubleLogStamp
  repeat' first | with_reducible exact State.Keeps.refl _ | with_reducible apply logEvent_keeps | with_reducible apply markFired_keeps | with_reducible refine act_keeps ?_

theorem execScrubEnd_keeps (s : State) (p : BitVec 2) : Out.Keeps s (execScrubEnd p s) := by
  unfold execScrubEnd
  repeat' first | with_reducible exact State.Keeps.refl _ | with_reducible apply endScrub_keeps | with_reducible refine act_keeps ?_

theorem armDevice_keeps {s₀ : State} {s : State} (h : s₀.Keeps s) (n : Nat) (kind : Byte) (p : Nat) (time : U64) (arg : U32) : s₀.Keeps (armDevice s n kind p time arg) := by
  unfold armDevice
  repeat' first | with_reducible assumption | with_reducible apply updEvent_keeps

theorem freeDevice_keeps {s₀ : State} {s : State} (h : s₀.Keeps s) (n : Nat) : s₀.Keeps (freeDevice s n) := by
  unfold freeDevice
  repeat' first | with_reducible assumption | with_reducible apply updEvent_keeps

/-! ### Service -/

theorem moveTraffic_keeps {s₀ : State} {s : State} (h : s₀.Keeps s) (j : Nat) : s₀.Keeps (moveTraffic s j) := by
  unfold moveTraffic
  extract_lets x0 x1 x2
  have h2 : s₀.Keeps x2 := by
    unfold x2
    repeat' first | with_reducible assumption | with_reducible exact State.Keeps.refl _ | fail_if_no_progress extract_lets | with_reducible apply updPort_keeps | with_reducible apply queueFrame_keeps | with_reducible refine foldl_keeps (fun _ _ => ?_) ?_ | split | fail_if_no_progress with_reducible refine State.Keeps.lit ?_ (Nat.le_refl _) (Nat.le_refl _) | dsimp +zetaDelta only
  clear_value x2
  repeat' first | with_reducible assumption | with_reducible exact State.Keeps.refl _ | fail_if_no_progress extract_lets | with_reducible apply updPort_keeps | with_reducible apply queueFrame_keeps | with_reducible refine foldl_keeps (fun _ _ => ?_) ?_ | split | fail_if_no_progress with_reducible refine State.Keeps.lit ?_ (Nat.le_refl _) (Nat.le_refl _) | dsimp +zetaDelta only

theorem setLanes_keeps {s₀ : State} {s : State} (h : s₀.Keeps s) (j : Nat) (lanes : BitVec 4) : s₀.Keeps (setLanes s j lanes) := by
  unfold setLanes
  extract_lets w x1
  have h1 : s₀.Keeps x1 := updPort_keeps h _ _
  clear_value x1
  exact ite_keeps (moveTraffic_keeps h1 j) h1

theorem roomTaken_keeps {s₀ : State} {s : State} (h : s₀.Keeps s) (n : Nat) : s₀.Keeps (roomTaken s n) := by
  unfold roomTaken
  extract_lets x0 x1 x2
  have h1 : s₀.Keeps x1 := by
    unfold x1
    repeat' first | with_reducible assumption | with_reducible apply updSched_keeps
  clear_value x1
  have h2 : s₀.Keeps x2 := by
    unfold x2
    repeat' first | with_reducible assumption | with_reducible apply faultOp_keeps | split
  clear_value x2
  repeat' first | with_reducible assumption | with_reducible exact State.Keeps.refl _ | with_reducible apply updOp_keeps | with_reducible apply faultOp_keeps | with_reducible refine each_keeps (fun _ _ => ?_) ?_ | with_reducible refine foldl_keeps (fun _ _ => ?_) ?_ | split

theorem solverTaken_keeps {s₀ : State} {s : State} (h : s₀.Keeps s) (u : Nat) : s₀.Keeps (solverTaken s u) := by
  unfold solverTaken
  extract_lets x0 x1
  repeat' first | with_reducible assumption | with_reducible exact State.Keeps.refl _ | with_reducible apply updOp_keeps | with_reducible apply faultOp_keeps | with_reducible refine each_keeps (fun _ _ => ?_) ?_ | with_reducible refine foldl_keeps (fun _ _ => ?_) ?_ | split

theorem pcTaken_keeps {s₀ : State} {s : State} (h : s₀.Keeps s) (n : Nat) : s₀.Keeps (pcTaken s n) := by
  unfold pcTaken
  repeat' first | with_reducible assumption | with_reducible apply discardWhere_keeps

theorem adderTaken_keeps {s₀ : State} {s : State} (h : s₀.Keeps s) (before : State) (u : Nat) : s₀.Keeps (adderTaken before s u) := by
  unfold adderTaken
  extract_lets x0 x1
  repeat' first | with_reducible assumption | with_reducible exact State.Keeps.refl _ | with_reducible apply wantRedo_keeps | with_reducible refine foldl_keeps (fun _ _ => ?_) ?_

theorem endTraffic_keeps {s₀ : State} {s : State} (h : s₀.Keeps s) (before : State) (cls : Nat) (num : Nat) : s₀.Keeps (endTraffic before s cls num) := by
  unfold endTraffic
  repeat' first | with_reducible assumption | with_reducible apply setLanes_keeps | with_reducible apply roomTaken_keeps | with_reducible apply solverTaken_keeps | with_reducible apply pcTaken_keeps | with_reducible apply adderTaken_keeps | split

theorem takeOut_keeps {s₀ : State} {s : State} (h : s₀.Keeps s) (cls : Nat) (num : Nat) : s₀.Keeps (takeOut s cls num) := by
  unfold takeOut
  repeat' first | with_reducible assumption | with_reducible apply logEvent_keeps | with_reducible apply endTraffic_keeps | split | fail_if_no_progress with_reducible refine State.Keeps.lit ?_ (Nat.le_refl _) (Nat.le_refl _)

theorem noteCorrected_keeps {s₀ : State} {s : State} (h : s₀.Keeps s) (cls : Nat) (num : Nat) (cause : U16) : s₀.Keeps (noteCorrected s cls num cause) := by
  unfold noteCorrected
  repeat' first | with_reducible assumption | with_reducible apply logEvent_keeps | with_reducible apply takeOut_keeps | with_reducible refine ite_keeps ?_ ?_ | fail_if_no_progress with_reducible refine State.Keeps.lit ?_ (Nat.le_refl _) (Nat.le_refl _)

theorem noteUncorrectable_keeps {s₀ : State} {s : State} (h : s₀.Keeps s) (cls : Nat) (num : Nat) : s₀.Keeps (noteUncorrectable s cls num) := by
  unfold noteUncorrectable
  repeat' first | with_reducible assumption | with_reducible apply takeOut_keeps | with_reducible refine ite_keeps ?_ ?_ | fail_if_no_progress with_reducible refine State.Keeps.lit ?_ (Nat.le_refl _) (Nat.le_refl _)

theorem countBeat_keeps {t s : State} (h : t.Keeps s) (g k : Nat) : t.Keeps (countBeat s g k) := by
  unfold countBeat
  exact sameStacks_keeps h rfl rfl rfl

theorem countLine_keeps {t s : State} (h : t.Keeps s) (g k : Nat) : t.Keeps (countLine s g k) := by
  unfold countLine
  exact sameStacks_keeps h rfl rfl rfl

theorem reportGranule_keeps {t s : State} (h : t.Keeps s) (g kind : Nat) (cause : U16) : t.Keeps (reportGranule s g kind cause) := by
  unfold reportGranule
  exact logEvent_keeps (memEvent_keeps h _) _ _

theorem reportWord_keeps {s₀ : State} {s : State} (h : s₀.Keeps s) (g : Nat) (unit : Nat) (uclass : Nat) (logUnit : Byte) (p : Option Nat) : s₀.Keeps (reportWord s g unit uclass logUnit p) := by
  unfold reportWord
  repeat' first | with_reducible assumption | with_reducible exact State.Keeps.refl _ | with_reducible apply logEvent_keeps | with_reducible apply memEvent_keeps | split | fail_if_no_progress with_reducible refine State.Keeps.lit ?_ (Nat.le_refl _) (Nat.le_refl _)

theorem reportFound_keeps {s₀ : State} {s : State} (h : s₀.Keeps s) (f : Found) : s₀.Keeps (reportFound s f) := by
  unfold reportFound
  repeat' first | with_reducible assumption | with_reducible exact State.Keeps.refl _ | fail_if_no_progress extract_lets | with_reducible apply noteCorrected_keeps | with_reducible apply noteUncorrectable_keeps | with_reducible apply countBeat_keeps | with_reducible apply countLine_keeps | with_reducible apply reportGranule_keeps | with_reducible apply reportWord_keeps | with_reducible refine loop_keeps (fun _ _ => ?_) ?_ | with_reducible refine ite_keeps ?_ ?_ | split | fail_if_no_progress with_reducible refine State.Keeps.lit ?_ (Nat.le_refl _) (Nat.le_refl _) | dsimp +zetaDelta only

theorem settleFound_keeps {s₀ : State} {s : State} (h : s₀.Keeps s)  : s₀.Keeps (settleFound s) := by
  unfold settleFound
  repeat' first | with_reducible assumption | with_reducible exact State.Keeps.refl _ | fail_if_no_progress extract_lets | with_reducible apply reportFound_keeps | with_reducible refine foldl_keeps (fun _ _ => ?_) ?_ | with_reducible refine sameStacks_keeps ?_ rfl rfl rfl | with_reducible refine ite_keeps ?_ ?_ | split | fail_if_no_progress with_reducible refine State.Keeps.lit ?_ (Nat.le_refl _) (Nat.le_refl _)

theorem serviceCommand_keeps {s₀ : State} {s : State} (h : s₀.Keeps s) (action : Nat) (cls : Nat) (num : Nat) : s₀.Keeps (serviceCommand s action cls num).1 := by
  unfold serviceCommand
  repeat' first | with_reducible assumption | with_reducible apply takeOut_keeps | split | fail_if_no_progress with_reducible refine State.Keeps.lit ?_ (Nat.le_refl _) (Nat.le_refl _)

theorem execQuarantineEnd_keeps (s : State) (cls : BitVec 3) (num : BitVec 9) (pass : Bool) : Out.Keeps s (execQuarantineEnd cls num pass s) := by
  unfold execQuarantineEnd
  repeat' first | with_reducible exact State.Keeps.refl _ | with_reducible apply logEvent_keeps | with_reducible refine act_keeps ?_ | split | fail_if_no_progress with_reducible refine State.Keeps.lit ?_ (Nat.le_refl _) (Nat.le_refl _)

/-- A pseudo-channel that quarantine wrote zero holds no entry, and every other address reads as before. -/
theorem readmitChannel_ok {m : MemSys} {mode : PMode} {num k : Nat} (h : m.ok) :
    Mem.wf (backByte m.back ((mode, num, k) :: m.zeroPc)) (m.hbm.filter fun c => !(chanOf mode c.1 == num)) := by
  refine Mem.wf_congr (Mem.wf_filter h _) fun e he => ?_
  have hc : (chanOf mode e.1 == num) = false := by simpa using (List.mem_filter.1 he).2
  unfold MemSys.unlisted backByte
  split
  · rfl
  · simp only [zeroedBy, List.any_cons, hc, Bool.and_false, Bool.false_or]
    rfl

theorem readmitUnit_keeps {t s : State} (h : t.Keeps s) (cls num : Nat) : t.Keeps (readmitUnit s cls num) := by
  unfold readmitUnit
  split
  · exact updRoom_keeps h _ _
  · refine State.Keeps.lit ?_ (Nat.le_succ _) (Nat.le_refl _)
    exact setMem_keeps (fun x => readmitChannel_ok x) h
  · exact h

theorem execReadmission_keeps (s : State) (cls : BitVec 3) (num : BitVec 9) : Out.Keeps s (execReadmission cls num s) := by
  unfold execReadmission
  repeat' first | with_reducible exact State.Keeps.refl _ | with_reducible apply logEvent_keeps | with_reducible apply readmitUnit_keeps | with_reducible refine act_keeps ?_ | fail_if_no_progress with_reducible refine State.Keeps.lit ?_ (Nat.le_refl _) (Nat.le_refl _)

theorem execStopOverrun_keeps (s : State) (p : BitVec 2) : Out.Keeps s (execStopOverrun p s) := by
  unfold execStopOverrun
  repeat' first | with_reducible exact State.Keeps.refl _ | with_reducible apply logEvent_keeps | with_reducible apply partReset_keeps | with_reducible refine act_keeps ?_

theorem execControlMemoryError_keeps (s : State)  : Out.Keeps s (execControlMemoryError s) := by
  unfold execControlMemoryError
  repeat' first | with_reducible exact State.Keeps.refl _ | with_reducible apply shutdown_keeps | with_reducible refine act_keeps ?_

/-! ### Security -/

theorem stageUpdate_keeps {s₀ : State} {s : State} (h : s₀.Keeps s)  : s₀.Keeps (stageUpdate s).1 := by
  unfold stageUpdate
  repeat' first | with_reducible assumption | split | fail_if_no_progress with_reducible refine State.Keeps.lit ?_ (Nat.le_refl _) (Nat.le_refl _)

theorem execStagingComplete_keeps (s : State) (img : FwImage) : Out.Keeps s (execStagingComplete img s) := by
  unfold execStagingComplete
  repeat' first | with_reducible exact State.Keeps.refl _ | with_reducible refine act_keeps ?_ | split | fail_if_no_progress with_reducible refine State.Keeps.lit ?_ (Nat.le_refl _) (Nat.le_refl _)

theorem burnSvn_keeps {t s : State} (h : t.Keeps s) (v : U16) : t.Keeps (burnSvn s v).1 := by
  unfold burnSvn
  split
  · rename_i hv
    refine State.Keeps.lit h (Nat.le_refl _) ?_
    simp only [Bool.and_eq_true, decide_eq_true_eq] at hv
    exact Nat.le_of_lt hv.1
  · exact h

theorem keyImport_keeps {s₀ : State} {s : State} (h : s₀.Keeps s) (p : Nat) (msg : List Byte) : s₀.Keeps (keyImport s p msg).1 := by
  unfold keyImport
  extract_lets x0
  repeat' first | with_reducible assumption | fail_if_no_progress extract_lets | with_reducible apply updPs_keeps | split

theorem startJob_keeps {s₀ : State} {s : State} (h : s₀.Keeps s) (p : Nat) (w : BitVec 512) : s₀.Keeps (startJob s p w).1 := by
  unfold startJob
  extract_lets x0
  repeat' first | with_reducible assumption | with_reducible apply updPs_keeps | split

theorem jobResult_keeps {s₀ : State} {s : State} (h : s₀.Keeps s) (p : Nat) (cause : U16) (done : U32) (failing : U32) : s₀.Keeps (jobResult s p cause done failing) := by
  unfold jobResult
  repeat' first | with_reducible assumption | with_reducible apply updPs_keeps

theorem noteRefused_keeps {s₀ : State} {s : State} (h : s₀.Keeps s) (a : Nat) : s₀.Keeps (noteRefused s a) := by
  unfold noteRefused
  repeat' first | with_reducible assumption | with_reducible exact State.Keeps.refl _ | with_reducible apply recordRefused_keeps | with_reducible refine ite_keeps ?_ ?_ | split | fail_if_no_progress with_reducible refine State.Keeps.lit ?_ (Nat.le_refl _) (Nat.le_refl _)

theorem execExportRange_keeps (s : State) (p : BitVec 2) : Out.Keeps s (execExportRange p s) := by
  unfold execExportRange
  repeat' first | with_reducible exact State.Keeps.refl _ | with_reducible apply noteRefused_keeps | with_reducible apply touch_keeps | fail_if_no_progress extract_lets | with_reducible apply linkWrite_keeps | with_reducible apply jobResult_keeps | with_reducible refine act_keeps ?_ | split

theorem importLoop_keeps {t s : State} (h : t.Keeps s) (keys : List Byte) (ckid : U32) (part a : Nat) (r : CkRead) (n j : Nat) :
    t.Keeps (importLoop keys ckid part a r n j s).1 := by
  induction n generalizing s j with
  | zero => exact h
  | succ n ih =>
    unfold importLoop
    split
    · exact h
    · exact ih (storeBytes_keeps h _ _ _) _

theorem execImportRange_keeps (s : State) (p : BitVec 2) (part : List Byte) : Out.Keeps s (execImportRange p part s) := by
  unfold execImportRange
  repeat' first | with_reducible exact State.Keeps.refl _ | with_reducible apply noteRefused_keeps | with_reducible apply jobResult_keeps | with_reducible apply importLoop_keeps | with_reducible refine fst_keeps (by assumption) ?_ | with_reducible refine act_keeps ?_ | with_reducible refine ite_keeps ?_ ?_ | split

theorem installImage_keeps {s₀ : State} {s : State} (h : s₀.Keeps s) (p : Nat) (i : PartImage) : s₀.Keeps (installImage s p i) := by
  unfold installImage
  repeat' first | with_reducible assumption | with_reducible exact State.Keeps.refl _ | with_reducible apply updSched_keeps | with_reducible apply updPeer_keeps | with_reducible apply updRing_keeps | with_reducible apply updRoom_keeps | with_reducible refine foldl_keeps (fun _ _ => ?_) ?_

theorem execImportStopImage_keeps (s : State) (p : BitVec 2) (part : List Byte) : Out.Keeps s (execImportStopImage p part s) := by
  unfold execImportStopImage
  repeat' first | with_reducible exact State.Keeps.refl _ | with_reducible apply resetRooms_keeps | with_reducible apply formState_keeps | with_reducible apply jobResult_keeps | with_reducible apply installImage_keeps | with_reducible refine act_keeps ?_ | with_reducible refine ite_keeps ?_ ?_ | split

theorem execCheckpointJobEnd_keeps (s : State) (p : BitVec 2) : Out.Keeps s (execCheckpointJobEnd p s) := by
  unfold execCheckpointJobEnd
  repeat' first | with_reducible exact State.Keeps.refl _ | with_reducible apply updPs_keeps | with_reducible refine act_keeps ?_

theorem releaseResumes_keeps {s₀ : State} {s : State} (h : s₀.Keeps s) (p : Nat) : s₀.Keeps (releaseResumes s p) := by
  unfold releaseResumes
  extract_lets x0
  have h0 : s₀.Keeps x0 := by
    unfold x0
    repeat' first | with_reducible assumption | with_reducible apply updPs_keeps
  clear_value x0
  repeat' first | with_reducible assumption | with_reducible exact State.Keeps.refl _ | with_reducible apply updRing_keeps | with_reducible apply runOrIdle_keeps | with_reducible refine each_keeps (fun _ _ => ?_) ?_ | with_reducible refine ite_keeps ?_ ?_

theorem finishExport_keeps {s₀ : State} {s : State} (h : s₀.Keeps s) (p : Nat) (status : BitVec 256) : s₀.Keeps (finishExport s p status) := by
  unfold finishExport
  extract_lets x0 x1
  have h0 : s₀.Keeps x0 := by
    unfold x0
    repeat' first | with_reducible assumption | fail_if_no_progress with_reducible refine State.Keeps.lit ?_ (Nat.le_refl _) (Nat.le_refl _)
  clear_value x0
  have h1 : s₀.Keeps x1 := by
    unfold x1
    repeat' first | with_reducible assumption | with_reducible apply updPs_keeps
  clear_value x1
  repeat' first | with_reducible assumption | with_reducible apply scrubClear_keeps | with_reducible apply releaseResumes_keeps

theorem execExportEnd_keeps (s : State) (p : BitVec 2) : Out.Keeps s (execExportEnd p s) := by
  unfold execExportEnd
  repeat' first | with_reducible exact State.Keeps.refl _ | with_reducible apply linkWrite_keeps | with_reducible apply finishExport_keeps | with_reducible refine act_keeps ?_ | split

theorem execExportAbandoned_keeps (s : State) (p : BitVec 2) : Out.Keeps s (execExportAbandoned p s) := by
  unfold execExportAbandoned
  repeat' first | with_reducible exact State.Keeps.refl _ | with_reducible apply finishExport_keeps | with_reducible refine act_keeps ?_

theorem writeNonce_keeps {s₀ : State} {s : State} (h : s₀.Keeps s) (cls : Nat) (nonce : BitVec 256) : s₀.Keeps (writeNonce s cls nonce).1 := by
  unfold writeNonce
  repeat' first | with_reducible assumption | split | fail_if_no_progress with_reducible refine State.Keeps.lit ?_ (Nat.le_refl _) (Nat.le_refl _)

theorem execReportComplete_keeps (s : State) (cls : BitVec 2) : Out.Keeps s (execReportComplete cls s) := by
  unfold execReportComplete
  repeat' first | with_reducible exact State.Keeps.refl _ | with_reducible apply takeFree_keeps | with_reducible refine snd_keeps (by assumption) ?_ | with_reducible refine act_keeps ?_ | split | fail_if_no_progress with_reducible refine State.Keeps.lit ?_ (Nat.le_refl _) (Nat.le_refl _)

theorem destroyAndScrub_keeps {s₀ : State} {s : State} (h : s₀.Keeps s) (p : Nat) : s₀.Keeps (destroyAndScrub s p) := by
  unfold destroyAndScrub
  repeat' first | with_reducible assumption | with_reducible apply updPs_keeps | with_reducible apply startScrub_keeps

theorem writeToken_keeps {s₀ : State} {s : State} (h : s₀.Keeps s) (tok : List Byte) : s₀.Keeps (writeToken s tok).1 := by
  unfold writeToken
  extract_lets x0 x1 x2
  repeat' first | with_reducible assumption | with_reducible exact State.Keeps.refl _ | with_reducible apply updPs_keeps | with_reducible apply logEvent_keeps | with_reducible apply freshKey_keeps | with_reducible apply scrubClear_keeps | with_reducible apply startScrub_keeps | with_reducible refine snd_keeps (by assumption) ?_ | with_reducible refine each_keeps (fun _ _ => ?_) ?_ | split | fail_if_no_progress with_reducible refine State.Keeps.lit ?_ (Nat.le_refl _) (Nat.le_refl _)

theorem testPortRule_keeps {s₀ : State} {s : State} (h : s₀.Keeps s)  : s₀.Keeps (testPortRule s) := by
  unfold testPortRule
  repeat' first | with_reducible assumption | with_reducible exact State.Keeps.refl _ | with_reducible apply destroyAndScrub_keeps | with_reducible refine each_keeps (fun _ _ => ?_) ?_

/-! ### Power -/

theorem retarget_keeps {s₀ : State} {s : State} (h : s₀.Keeps s) (d : Nat) : s₀.Keeps (retarget s d) := by
  unfold retarget
  extract_lets x0
  repeat' first | with_reducible assumption | with_reducible apply updDie_keeps | split

theorem latch_keeps {s₀ : State} {s : State} (h : s₀.Keeps s) (m : Byte) : s₀.Keeps (latch s m) := by
  unfold latch
  repeat' first | with_reducible assumption | fail_if_no_progress with_reducible refine State.Keeps.lit ?_ (Nat.le_refl _) (Nat.le_refl _)

theorem execGlideStep_keeps (s : State) (d : BitVec 2) : Out.Keeps s (execGlideStep d s) := by
  unfold execGlideStep
  repeat' first | with_reducible exact State.Keeps.refl _ | with_reducible apply updDie_keeps | with_reducible refine act_keeps ?_

theorem refillWindow_keeps {s₀ : State} {s : State} (h : s₀.Keeps s) (w : Nat) : s₀.Keeps (refillWindow s w) := by
  unfold refillWindow
  extract_lets x0
  repeat' first | with_reducible assumption | fail_if_no_progress with_reducible refine State.Keeps.lit ?_ (Nat.le_refl _) (Nat.le_refl _)

theorem attributeShare_keeps {s₀ : State} {s : State} (h : s₀.Keeps s) (c : Nat) (n : Nat) : s₀.Keeps (attributeShare s c n) := by
  unfold attributeShare
  extract_lets x0
  repeat' first | with_reducible assumption | split | fail_if_no_progress with_reducible refine State.Keeps.lit ?_ (Nat.le_refl _) (Nat.le_refl _)

theorem attributeRail_keeps {s₀ : State} {s : State} (h : s₀.Keeps s) (r : Nat) (e : Nat) : s₀.Keeps (attributeRail s r e) := by
  unfold attributeRail
  repeat' first | with_reducible assumption | with_reducible exact State.Keeps.refl _ | with_reducible apply attributeShare_keeps | with_reducible refine each_keeps (fun _ _ => ?_) ?_ | with_reducible refine ite_keeps ?_ ?_ | fail_if_no_progress with_reducible refine State.Keeps.lit ?_ (Nat.le_refl _) (Nat.le_refl _)

theorem execControlPeriod_keeps (s : State)  : Out.Keeps s (execControlPeriod s) := by
  unfold execControlPeriod
  repeat' first | with_reducible exact State.Keeps.refl _ | with_reducible apply updDie_keeps | with_reducible apply logEvent_keeps | with_reducible apply retarget_keeps | with_reducible apply latch_keeps | with_reducible apply attributeRail_keeps | with_reducible refine each_keeps (fun _ _ => ?_) ?_ | with_reducible refine act_keeps ?_ | with_reducible refine ite_keeps ?_ ?_ | fail_if_no_progress with_reducible refine State.Keeps.lit ?_ (Nat.le_refl _) (Nat.le_refl _)

theorem halveDie_keeps {s₀ : State} {s : State} (h : s₀.Keeps s) (d : Nat) : s₀.Keeps (halveDie s d) := by
  unfold halveDie
  repeat' first | with_reducible assumption | with_reducible apply updDie_keeps

theorem execActivityEstimate_keeps (s : State) (uj : BitVec 32) : Out.Keeps s (execActivityEstimate uj s) := by
  unfold execActivityEstimate
  repeat' first | with_reducible exact State.Keeps.refl _ | with_reducible apply updDie_keeps | with_reducible apply latch_keeps | with_reducible apply halveDie_keeps | with_reducible refine each_keeps (fun _ _ => ?_) ?_ | with_reducible refine act_keeps ?_ | with_reducible refine ite_keeps ?_ ?_ | fail_if_no_progress with_reducible refine State.Keeps.lit ?_ (Nat.le_refl _) (Nat.le_refl _)

theorem execDroop_keeps (s : State) (d : BitVec 2) (_group : BitVec 2) : Out.Keeps s (execDroop d _group s) := by
  unfold execDroop
  repeat' first | with_reducible exact State.Keeps.refl _ | with_reducible apply updDie_keeps | with_reducible refine act_keeps ?_

theorem execDroopClear_keeps (s : State) (d : BitVec 2) : Out.Keeps s (execDroopClear d s) := by
  unfold execDroopClear
  repeat' first | with_reducible exact State.Keeps.refl _ | with_reducible apply updDie_keeps | with_reducible refine act_keeps ?_

theorem execDroopHoldoffEnd_keeps (s : State) (d : BitVec 2) : Out.Keeps s (execDroopHoldoffEnd d s) := by
  unfold execDroopHoldoffEnd
  repeat' first | with_reducible exact State.Keeps.refl _ | with_reducible apply updDie_keeps | with_reducible apply retarget_keeps | with_reducible apply halveDie_keeps | with_reducible refine act_keeps ?_ | with_reducible refine ite_keeps ?_ ?_

theorem execProlongedDroop_keeps (s : State) (d : BitVec 2) : Out.Keeps s (execProlongedDroop d s) := by
  unfold execProlongedDroop
  repeat' first | with_reducible exact State.Keeps.refl _ | with_reducible apply updDie_keeps | with_reducible apply logEvent_keeps | with_reducible apply retarget_keeps | with_reducible refine act_keeps ?_

theorem setTemps_keeps {s₀ : State} {s : State} (h : s₀.Keeps s) (base : Nat) (ts : List U32) : s₀.Keeps (setTemps s base ts) := by
  unfold setTemps
  repeat' first | with_reducible assumption | fail_if_no_progress with_reducible refine State.Keeps.lit ?_ (Nat.le_refl _) (Nat.le_refl _)

theorem thermalDie_keeps {s₀ : State} {s : State} (h : s₀.Keeps s) (d : Nat) : s₀.Keeps (thermalDie s d) := by
  unfold thermalDie
  extract_lets x0 x1 x2
  repeat' first | with_reducible assumption | with_reducible apply updDie_keeps | with_reducible apply logEvent_keeps | with_reducible apply retarget_keeps | with_reducible refine ite_keeps ?_ ?_

theorem thermalStacks_keeps {s₀ : State} {s : State} (h : s₀.Keeps s)  : s₀.Keeps (thermalStacks s) := by
  unfold thermalStacks
  repeat' first | with_reducible assumption | with_reducible exact State.Keeps.refl _ | with_reducible refine each_keeps (fun _ _ => ?_) ?_ | fail_if_no_progress with_reducible refine State.Keeps.lit ?_ (Nat.le_refl _) (Nat.le_refl _)

theorem tripIfDue_keeps {s₀ : State} {s : State} (h : s₀.Keeps s)  : s₀.Keeps (tripIfDue s) := by
  unfold tripIfDue
  repeat' first | with_reducible assumption | with_reducible apply shutdown_keeps | with_reducible apply latch_keeps | split | fail_if_no_progress with_reducible refine State.Keeps.lit ?_ (Nat.le_refl _) (Nat.le_refl _)

theorem execThermalReading_keeps (s : State) (temps : List (BitVec 32)) : Out.Keeps s (execThermalReading temps s) := by
  unfold execThermalReading
  repeat' first | with_reducible exact State.Keeps.refl _ | with_reducible apply setTemps_keeps | with_reducible apply thermalDie_keeps | with_reducible apply tripIfDue_keeps | with_reducible refine each_keeps (fun _ _ => ?_) ?_ | with_reducible refine act_keeps ?_

theorem execStackTemperatureRead_keeps (s : State) (temps : List (BitVec 32)) : Out.Keeps s (execStackTemperatureRead temps s) := by
  unfold execStackTemperatureRead
  repeat' first | with_reducible exact State.Keeps.refl _ | with_reducible apply setTemps_keeps | with_reducible apply thermalStacks_keeps | with_reducible apply tripIfDue_keeps | with_reducible refine act_keeps ?_

theorem execCoolOkDeassert_keeps (s : State)  : Out.Keeps s (execCoolOkDeassert s) := by
  unfold execCoolOkDeassert
  repeat' first | with_reducible exact State.Keeps.refl _ | with_reducible refine act_keeps ?_ | fail_if_no_progress with_reducible refine State.Keeps.lit ?_ (Nat.le_refl _) (Nat.le_refl _)

theorem execCoolantStop_keeps (s : State)  : Out.Keeps s (execCoolantStop s) := by
  unfold execCoolantStop
  repeat' first | with_reducible exact State.Keeps.refl _ | with_reducible apply shutdown_keeps | with_reducible apply latch_keeps | with_reducible refine act_keeps ?_ | fail_if_no_progress with_reducible refine State.Keeps.lit ?_ (Nat.le_refl _) (Nat.le_refl _)

theorem execCoolOkAssert_keeps (s : State)  : Out.Keeps s (execCoolOkAssert s) := by
  unfold execCoolOkAssert
  repeat' first | with_reducible exact State.Keeps.refl _ | with_reducible refine act_keeps ?_ | fail_if_no_progress with_reducible refine State.Keeps.lit ?_ (Nat.le_refl _) (Nat.le_refl _)

theorem pollOne_keeps {s₀ : State} {s : State} (h : s₀.Keeps s) (x : RegReading) : s₀.Keeps (pollOne s x) := by
  unfold pollOne
  extract_lets x0 x1
  repeat' first | with_reducible assumption | with_reducible apply logEvent_keeps | split | fail_if_no_progress with_reducible refine State.Keeps.lit ?_ (Nat.le_refl _) (Nat.le_refl _)

theorem execPmbusPoll_keeps (s : State) (readings : List RegReading) : Out.Keeps s (execPmbusPoll readings s) := by
  unfold execPmbusPoll
  repeat' first | with_reducible exact State.Keeps.refl _ | with_reducible apply latch_keeps | with_reducible apply pollOne_keeps | with_reducible refine foldl_keeps (fun _ _ => ?_) ?_ | with_reducible refine act_keeps ?_ | with_reducible refine ite_keeps ?_ ?_ | fail_if_no_progress with_reducible refine State.Keeps.lit ?_ (Nat.le_refl _) (Nat.le_refl _)

/-! ### Boot -/

/-- A state that starts with empty stacks. -/
theorem empty_keeps {t s u : State} (h : t.Keeps s) (hp : u.pending = s.pending) (hi : u.ident = s.ident) (hf : u.free = s.free)
    (hb : u.boot.svnMin = s.boot.svnMin) (hm : u.mem.hbm = []) : t.Keeps u :=
  ⟨hp.trans h.pending, hi.trans h.ident, hf ▸ h.free, hb ▸ h.svn, fun _ => by unfold MemSys.ok; rw [hm]; exact Mem.wf_nil _⟩

theorem coldState_keeps {t s : State} (h : t.Keeps s) (stage : Stage) : t.Keeps (coldState s stage) := empty_keeps h rfl rfl rfl rfl rfl

theorem powerOn_keeps {t s : State} (h : t.Keeps s) : t.Keeps (powerOn s) := empty_keeps (freshKey_keeps h) rfl rfl rfl rfl rfl

theorem deviceReset_keeps {t s : State} (h : t.Keeps s) : t.Keeps (deviceReset s) := empty_keeps (freshKey_keeps h) rfl rfl rfl rfl rfl

theorem execPowerOnReset_keeps (s : State)  : Out.Keeps s (execPowerOnReset s) := by
  unfold execPowerOnReset
  repeat' first | with_reducible exact State.Keeps.refl _ | with_reducible apply powerOn_keeps | with_reducible refine act_keeps ?_

theorem execPoresetRelease_keeps (s : State) (nodeId : BitVec 7) (clgen : BitVec 2) (fwsrc : Bool) : Out.Keeps s (execPoresetRelease nodeId clgen fwsrc s) := by
  unfold execPoresetRelease
  repeat' first | with_reducible exact State.Keeps.refl _ | with_reducible apply logEvent_keeps | with_reducible refine act_keeps ?_ | split | fail_if_no_progress with_reducible refine State.Keeps.lit ?_ (Nat.le_refl _) (Nat.le_refl _)

theorem execDeviceReset_keeps (s : State)  : Out.Keeps s (execDeviceReset s) := by
  unfold execDeviceReset
  repeat' first | with_reducible exact State.Keeps.refl _ | with_reducible apply deviceReset_keeps | with_reducible refine act_keeps ?_

theorem execFirmwareStart_keeps (s : State) (start : FwStart) : Out.Keeps s (execFirmwareStart start s) := by
  unfold execFirmwareStart
  repeat' first | with_reducible exact State.Keeps.refl _ | with_reducible refine act_keeps ?_ | fail_if_no_progress with_reducible refine State.Keeps.lit ?_ (Nat.le_refl _) (Nat.le_refl _)

theorem execFirmwareImageRejected_keeps (s : State) (status : BitVec 8) : Out.Keeps s (execFirmwareImageRejected status s) := by
  unfold execFirmwareImageRejected
  repeat' first | with_reducible exact State.Keeps.refl _ | fail_if_no_progress extract_lets | with_reducible refine act_keeps ?_ | split | fail_if_no_progress with_reducible refine State.Keeps.lit ?_ (Nat.le_refl _) (Nat.le_refl _)

theorem execBootLineRequest_keeps (s : State) (line : BitVec 512) : Out.Keeps s (execBootLineRequest line s) := by
  unfold execBootLineRequest
  repeat' first | with_reducible exact State.Keeps.refl _ | with_reducible refine act_keeps ?_ | fail_if_no_progress with_reducible refine State.Keeps.lit ?_ (Nat.le_refl _) (Nat.le_refl _)

theorem execPllLock_keeps (s : State)  : Out.Keeps s (execPllLock s) := by
  unfold execPllLock
  repeat' first | with_reducible exact State.Keeps.refl _ | with_reducible apply updDie_keeps | with_reducible refine each_keeps (fun _ _ => ?_) ?_ | with_reducible refine act_keeps ?_ | fail_if_no_progress with_reducible refine State.Keeps.lit ?_ (Nat.le_refl _) (Nat.le_refl _)

theorem execSelfTestDone_keeps (s : State) (failed : List (BitVec 3 × BitVec 9)) : Out.Keeps s (execSelfTestDone failed s) := by
  unfold execSelfTestDone
  repeat' first | with_reducible exact State.Keeps.refl _ | with_reducible apply logEvent_keeps | with_reducible refine foldl_keeps (fun _ _ => ?_) ?_ | with_reducible refine act_keeps ?_ | split | fail_if_no_progress with_reducible refine State.Keeps.lit ?_ (Nat.le_refl _) (Nat.le_refl _)

theorem execPartitionFormation_keeps (s : State) (p : BitVec 2) : Out.Keeps s (execPartitionFormation p s) := by
  unfold execPartitionFormation
  repeat' first | with_reducible exact State.Keeps.refl _ | with_reducible apply formPart_keeps | with_reducible refine act_keeps ?_ | with_reducible refine ite_keeps ?_ ?_ | fail_if_no_progress with_reducible refine State.Keeps.lit ?_ (Nat.le_refl _) (Nat.le_refl _)

theorem execPartitionReset_keeps (s : State) (p : BitVec 2) (uncorrectable : Bool) : Out.Keeps s (execPartitionReset p uncorrectable s) := by
  unfold execPartitionReset
  repeat' first | with_reducible exact State.Keeps.refl _ | with_reducible apply logEvent_keeps | with_reducible apply partReset_keeps | with_reducible refine act_keeps ?_ | split

theorem execRoomZeroingComplete_keeps (s : State) (room : BitVec 7) : Out.Keeps s (execRoomZeroingComplete room s) := by
  unfold execRoomZeroingComplete
  repeat' first | with_reducible exact State.Keeps.refl _ | with_reducible apply updRoom_keeps | with_reducible refine act_keeps ?_

theorem execModeChange_keeps (s : State)  : Out.Keeps s (execModeChange s) := by
  unfold execModeChange
  repeat' first | with_reducible exact State.Keeps.refl _ | with_reducible apply changeMode_keeps | with_reducible refine act_keeps ?_ | split

theorem execPowerRemoval_keeps (s : State)  : Out.Keeps s (execPowerRemoval s) := by
  unfold execPowerRemoval
  repeat' first | with_reducible exact State.Keeps.refl _ | with_reducible apply coldState_keeps | with_reducible refine act_keeps ?_ | fail_if_no_progress with_reducible refine State.Keeps.lit ?_ (Nat.le_refl _) (Nat.le_refl _)

/-! ### Dict -/

theorem enableRing_keeps {s₀ : State} {s : State} (h : s₀.Keeps s) (n : Nat) : s₀.Keeps (enableRing s n) := by
  unfold enableRing
  extract_lets x0
  have h0 : s₀.Keeps x0 := by
    unfold x0
    repeat' first | with_reducible assumption | with_reducible apply updRing_keeps
  clear_value x0
  repeat' first | with_reducible assumption | with_reducible apply readNotify_keeps | with_reducible apply ringReset_keeps

theorem disableRing_keeps {s₀ : State} {s : State} (h : s₀.Keeps s) (n : Nat) : s₀.Keeps (disableRing s n) := by
  unfold disableRing
  extract_lets x0 x1 x2 x3
  have h0 : s₀.Keeps x0 := by
    unfold x0
    repeat' first | with_reducible assumption | with_reducible apply abandonRing_keeps
  clear_value x0
  have h1 : s₀.Keeps x1 := by
    unfold x1
    repeat' first | with_reducible assumption | with_reducible apply updRing_keeps
  clear_value x1
  have h3 : s₀.Keeps x3 := by
    unfold x3
    repeat' first | with_reducible assumption | with_reducible apply linkWrite_keeps | split
  clear_value x3
  repeat' first | with_reducible assumption | with_reducible apply updRing_keeps

theorem armStamp_keeps {s₀ : State} {s : State} (h : s₀.Keeps s) (n : Nat) (t : U64) : s₀.Keeps (armStamp s n t) := by
  unfold armStamp
  extract_lets x0
  have h0 : s₀.Keeps x0 := by
    unfold x0
    repeat' first | with_reducible assumption | with_reducible apply updRing_keeps
  clear_value x0
  repeat' first | with_reducible assumption | with_reducible apply updRing_keeps | with_reducible apply armDevice_keeps | split

theorem writeStampPeriod_keeps {s₀ : State} {s : State} (h : s₀.Keeps s) (n : Nat) (v : U32) : s₀.Keeps (writeStampPeriod s n v) := by
  unfold writeStampPeriod
  extract_lets x0 x1 x2
  have h1 : s₀.Keeps x1 := by
    unfold x1
    repeat' first | with_reducible assumption | with_reducible apply freeDevice_keeps | split
  clear_value x1
  have h2 : s₀.Keeps x2 := by
    unfold x2
    repeat' first | with_reducible assumption | with_reducible apply updRing_keeps
  clear_value x2
  repeat' first | with_reducible assumption | with_reducible apply armStamp_keeps | split

theorem writeBlocked_keeps {s₀ : State} {s : State} (h : s₀.Keeps s) (n : Nat) (w : U64) : s₀.Keeps (writeBlocked s n w).1 := by
  unfold writeBlocked
  repeat' first | with_reducible assumption | with_reducible apply discardWhere_keeps | with_reducible refine sameStacks_keeps ?_ rfl rfl rfl | with_reducible refine ite_keeps ?_ ?_

theorem writeMode_keeps {s₀ : State} {s : State} (h : s₀.Keeps s) (v : Nat) : s₀.Keeps (writeMode s v).1 := by
  unfold writeMode
  repeat' first | with_reducible assumption | split | fail_if_no_progress with_reducible refine State.Keeps.lit ?_ (Nat.le_refl _) (Nat.le_refl _)

theorem writeReset_keeps {s₀ : State} {s : State} (h : s₀.Keeps s) (p : Nat) (v : Nat) : s₀.Keeps (writeReset s p v).1 := by
  unfold writeReset
  repeat' first | with_reducible assumption | with_reducible apply partReset_keeps | split

theorem ranged_keeps {t s f : State} (h : t.Keeps s) (v lo hi : Nat) (hf : t.Keeps f) : t.Keeps (ranged s v lo hi f).1 := by
  unfold ranged
  split
  · exact hf
  · exact h

theorem writeRaw_keeps {s₀ : State} {s : State} (h : s₀.Keeps s) (after : State) (src : Src) (i : Nat) (sub : Nat) (bs : List Byte) : s₀.Keeps (writeRaw s after src i sub bs).1 := by
  unfold writeRaw
  extract_lets x0
  repeat' first | with_reducible assumption | with_reducible apply updPs_keeps | with_reducible apply updSched_keeps | with_reducible apply updPeer_keeps | with_reducible apply updRing_keeps | with_reducible apply updPort_keeps | with_reducible apply writeEvent_keeps | with_reducible apply serviceCommand_keeps | with_reducible apply stageUpdate_keeps | with_reducible apply burnSvn_keeps | with_reducible apply keyImport_keeps | with_reducible apply startJob_keeps | with_reducible apply writeNonce_keeps | with_reducible apply writeToken_keeps | with_reducible apply refillWindow_keeps | with_reducible apply deviceReset_keeps | with_reducible apply enableRing_keeps | with_reducible apply disableRing_keeps | with_reducible apply writeStampPeriod_keeps | with_reducible apply writeBlocked_keeps | with_reducible apply writeMode_keeps | with_reducible apply writeReset_keeps | with_reducible apply ranged_keeps | with_reducible refine sameStacks_keeps ?_ rfl rfl rfl | split | fail_if_no_progress with_reducible refine State.Keeps.lit ?_ (Nat.le_refl _) (Nat.le_refl _)

theorem writeEntry_keeps {s₀ : State} {s : State} (h : s₀.Keeps s) (after : State) (src : Src) (i : Nat) (sub : Nat) (bs : List Byte) : s₀.Keeps (writeEntry s after src i sub bs).1 := by
  unfold writeEntry
  extract_lets x0
  repeat' first | with_reducible assumption | with_reducible apply writeRaw_keeps | split

theorem writeOne_keeps {s₀ : State} {s : State} (h : s₀.Keeps s) (before : State) (after : State) (batch : List Req) (r : Req) : s₀.Keeps (writeOne before s after batch r).1 := by
  unfold writeOne
  repeat' first | with_reducible assumption | with_reducible apply writeEntry_keeps | split

theorem afterOthers_keeps {s₀ : State} {s : State} (h : s₀.Keeps s) (before : State) (batch : List Req) : s₀.Keeps (afterOthers before s batch) := by
  unfold afterOthers
  repeat' first | with_reducible assumption | with_reducible exact State.Keeps.refl _ | with_reducible apply writeOne_keeps | with_reducible refine foldl_keeps (fun _ _ => ?_) ?_ | split

theorem ddaFrame_keeps {s₀ : State} {s : State} (h : s₀.Keeps s) (fd : Bool) (bs : List Byte) : s₀.Keeps (ddaFrame s fd bs) := by
  unfold ddaFrame
  repeat' first | with_reducible assumption | with_reducible apply canSend_keeps

theorem ddaReadAnswer_keeps {s₀ : State} {s : State} (h : s₀.Keeps s) (fd : Bool) (i : U16) (sub : Byte) (bs : List Byte) : s₀.Keeps (ddaReadAnswer s fd i sub bs) := by
  unfold ddaReadAnswer
  repeat' first | with_reducible assumption | with_reducible apply ddaFrame_keeps | split | fail_if_no_progress with_reducible refine State.Keeps.lit ?_ (Nat.le_refl _) (Nat.le_refl _)

theorem ddaAbort_keeps {s₀ : State} {s : State} (h : s₀.Keeps s) (fd : Bool) (i : U16) (sub : Byte) (code : Byte) (send : Bool) : s₀.Keeps (ddaAbort s fd i sub code send) := by
  unfold ddaAbort
  repeat' first | with_reducible assumption | with_reducible apply logEvent_keeps | with_reducible apply ddaFrame_keeps | split | fail_if_no_progress with_reducible refine State.Keeps.lit ?_ (Nat.le_refl _) (Nat.le_refl _)

theorem answer_keeps {s₀ : State} {s : State} (h : s₀.Keeps s) (r : Req) (code : Byte) (data : List Byte) : s₀.Keeps (answer s r code data) := by
  unfold answer
  repeat' first | with_reducible assumption | with_reducible apply updBox_keeps | with_reducible apply ddaFrame_keeps | with_reducible apply ddaReadAnswer_keeps | with_reducible apply ddaAbort_keeps | split | fail_if_no_progress with_reducible refine State.Keeps.lit ?_ (Nat.le_refl _) (Nat.le_refl _)

theorem countRequest_keeps {s₀ : State} {s : State} (h : s₀.Keeps s) (code : Byte) : s₀.Keeps (countRequest s code) := by
  unfold countRequest
  extract_lets x0
  repeat' first | with_reducible assumption | fail_if_no_progress with_reducible refine State.Keeps.lit ?_ (Nat.le_refl _) (Nat.le_refl _)

theorem acceptCtr_keeps {s₀ : State} {s : State} (h : s₀.Keeps s) (r : Req) : s₀.Keeps (acceptCtr s r) := by
  unfold acceptCtr
  repeat' first | with_reducible assumption | with_reducible apply updPs_keeps | split

theorem serve_keeps {s₀ : State} {s : State} (h : s₀.Keeps s) (before : State) (batch : List Req) (r : Req) : s₀.Keeps (serve before batch s r) := by
  unfold serve
  extract_lets x0 x1
  have h1 : s₀.Keeps x1 := by
    unfold x1
    repeat' first | with_reducible assumption | with_reducible apply acceptCtr_keeps | split
  clear_value x1
  repeat' first | with_reducible assumption | with_reducible apply writeOne_keeps | with_reducible apply answer_keeps | with_reducible apply countRequest_keeps | split

theorem serveBatch_keeps {s₀ : State} {s : State} (h : s₀.Keeps s) (batch : List Req) : s₀.Keeps (serveBatch s batch) := by
  unfold serveBatch
  repeat' first | with_reducible assumption | with_reducible exact State.Keeps.refl _ | with_reducible apply serve_keeps | with_reducible refine foldl_keeps (fun _ _ => ?_) ?_

theorem execDictionaryCycle_keeps (s : State)  : Out.Keeps s (execDictionaryCycle s) := by
  unfold execDictionaryCycle
  repeat' first | with_reducible exact State.Keeps.refl _ | with_reducible apply serveBatch_keeps | with_reducible refine act_keeps ?_ | fail_if_no_progress with_reducible refine State.Keeps.lit ?_ (Nat.le_refl _) (Nat.le_refl _)

theorem single_keeps {s₀ : State} {s : State} (h : s₀.Keeps s) (r : Req) : s₀.Keeps (single s r) := by
  unfold single
  repeat' first | with_reducible assumption | with_reducible apply serveBatch_keeps

theorem execDictionaryRead_keeps (s : State) (src : Src) (index : BitVec 16) (sub : BitVec 8) : Out.Keeps s (execDictionaryRead src index sub s) := by
  unfold execDictionaryRead
  repeat' first | with_reducible exact State.Keeps.refl _ | with_reducible apply single_keeps | with_reducible refine act_keeps ?_

theorem execDictionaryWrite_keeps (s : State) (src : Src) (index : BitVec 16) (sub : BitVec 8) (data : List Byte) : Out.Keeps s (execDictionaryWrite src index sub data s) := by
  unfold execDictionaryWrite
  repeat' first | with_reducible exact State.Keeps.refl _ | with_reducible apply single_keeps | with_reducible refine act_keeps ?_

theorem writeRow_keeps (s : State) (src : Src) (i : Nat) (sub : Nat) (bs : List Byte) : Out.Keeps s (writeRow s src i sub bs) := by
  unfold writeRow
  repeat' first | with_reducible exact State.Keeps.refl _ | with_reducible apply single_keeps | with_reducible refine act_keeps ?_

theorem execEventArm_keeps (s : State) (src : Src) (n : BitVec 8) (val : BitVec 128) : Out.Keeps s (execEventArm src n val s) := by
  unfold execEventArm
  repeat' first | with_reducible exact State.Keeps.refl _ | with_reducible apply single_keeps | with_reducible refine act_keeps ?_

theorem execEventCancel_keeps (s : State) (src : Src) (n : BitVec 8) (val : BitVec 128) : Out.Keeps s (execEventCancel src n val s) := by
  unfold execEventCancel
  repeat' first | with_reducible exact State.Keeps.refl _ | with_reducible apply single_keeps | with_reducible refine act_keeps ?_

theorem execPartitionModeWrite_keeps (s : State) (src : Src) (v : BitVec 8) : Out.Keeps s (execPartitionModeWrite src v s) := by
  unfold execPartitionModeWrite
  repeat' first | with_reducible apply writeRow_keeps

theorem execCapWrite_keeps (s : State) (src : Src) (v : BitVec 16) : Out.Keeps s (execCapWrite src v s) := by
  unfold execCapWrite
  repeat' first | with_reducible apply writeRow_keeps

theorem execWindowWrite_keeps (s : State) (src : Src) (v : BitVec 32) : Out.Keeps s (execWindowWrite src v s) := by
  unfold execWindowWrite
  repeat' first | with_reducible apply writeRow_keeps

theorem execStampPeriodWrite_keeps (s : State) (src : Src) (ring : BitVec 6) (v : BitVec 32) : Out.Keeps s (execStampPeriodWrite src ring v s) := by
  unfold execStampPeriodWrite
  repeat' first | with_reducible apply writeRow_keeps

theorem execWindowEnable_keeps (s : State) (src : Src) (p : BitVec 2) (v : BitVec 8) : Out.Keeps s (execWindowEnable src p v s) := by
  unfold execWindowEnable
  repeat' first | with_reducible apply writeRow_keeps

theorem execRingEnable_keeps (s : State) (src : Src) (ring : BitVec 6) : Out.Keeps s (execRingEnable src ring s) := by
  unfold execRingEnable
  repeat' first | with_reducible apply writeRow_keeps

theorem execRingDisable_keeps (s : State) (src : Src) (ring : BitVec 6) : Out.Keeps s (execRingDisable src ring s) := by
  unfold execRingDisable
  repeat' first | with_reducible apply writeRow_keeps

theorem execBlockedGranuleWrite_keeps (s : State) (src : Src) (entry : BitVec 10) (val : BitVec 64) : Out.Keeps s (execBlockedGranuleWrite src entry val s) := by
  unfold execBlockedGranuleWrite
  repeat' first | with_reducible apply writeRow_keeps

theorem execTakeOutOfService_keeps (s : State) (src : Src) (cls : BitVec 8) (num : BitVec 16) : Out.Keeps s (execTakeOutOfService src cls num s) := by
  unfold execTakeOutOfService
  repeat' first | with_reducible apply writeRow_keeps

theorem execReadmit_keeps (s : State) (src : Src) (cls : BitVec 8) (num : BitVec 16) : Out.Keeps s (execReadmit src cls num s) := by
  unfold execReadmit
  repeat' first | with_reducible apply writeRow_keeps

theorem execKeyImport_keeps (s : State) (src : Src) (p : BitVec 2) (msg : List Byte) : Out.Keeps s (execKeyImport src p msg s) := by
  unfold execKeyImport
  repeat' first | with_reducible apply writeRow_keeps

theorem execAttestationNonce_keeps (s : State) (src : Src) (nonce : BitVec 256) : Out.Keeps s (execAttestationNonce src nonce s) := by
  unfold execAttestationNonce
  repeat' first | with_reducible apply writeRow_keeps

theorem execStageUpdate_keeps (s : State) (src : Src) (v : BitVec 8) : Out.Keeps s (execStageUpdate src v s) := by
  unfold execStageUpdate
  repeat' first | with_reducible apply writeRow_keeps

theorem execBurnMinimumSvn_keeps (s : State) (src : Src) (v : BitVec 16) : Out.Keeps s (execBurnMinimumSvn src v s) := by
  unfold execBurnMinimumSvn
  repeat' first | with_reducible apply writeRow_keeps

theorem execDebugUnlock_keeps (s : State) (src : Src) (token : List Byte) : Out.Keeps s (execDebugUnlock src token s) := by
  unfold execDebugUnlock
  repeat' first | with_reducible apply writeRow_keeps

/-! ### Time -/

theorem loseLock_keeps {s₀ : State} {s : State} (h : s₀.Keeps s)  : s₀.Keeps (loseLock s) := by
  unfold loseLock
  repeat' first | with_reducible assumption | with_reducible apply logEvent_keeps | split | fail_if_no_progress with_reducible refine State.Keeps.lit ?_ (Nat.le_refl _) (Nat.le_refl _)

theorem lock_keeps {s₀ : State} {s : State} (h : s₀.Keeps s)  : s₀.Keeps (lock s) := by
  unfold lock
  repeat' first | with_reducible assumption | with_reducible apply logEvent_keeps | fail_if_no_progress with_reducible refine State.Keeps.lit ?_ (Nat.le_refl _) (Nat.le_refl _)

theorem validFrame_keeps {s₀ : State} {s : State} (h : s₀.Keeps s) (b : BitVec 112) : s₀.Keeps (validFrame s b) := by
  unfold validFrame
  repeat' first | with_reducible assumption | fail_if_no_progress with_reducible refine State.Keeps.lit ?_ (Nat.le_refl _) (Nat.le_refl _)

theorem invalidFrame_keeps {s₀ : State} {s : State} (h : s₀.Keeps s)  : s₀.Keeps (invalidFrame s) := by
  unfold invalidFrame
  repeat' first | with_reducible assumption | with_reducible apply loseLock_keeps | with_reducible refine ite_keeps ?_ ?_ | fail_if_no_progress with_reducible refine State.Keeps.lit ?_ (Nat.le_refl _) (Nat.le_refl _)

theorem execTcodeFrame_keeps (s : State) (b : BitVec 112) : Out.Keeps s (execTcodeFrame b s) := by
  unfold execTcodeFrame
  repeat' first | with_reducible exact State.Keeps.refl _ | with_reducible apply validFrame_keeps | with_reducible apply invalidFrame_keeps | with_reducible refine act_keeps ?_ | with_reducible refine ite_keeps ?_ ?_ | fail_if_no_progress with_reducible refine State.Keeps.lit ?_ (Nat.le_refl _) (Nat.le_refl _)

theorem setCounter_keeps {s₀ : State} {s : State} (h : s₀.Keeps s) (t : U64) : s₀.Keeps (setCounter s t) := by
  unfold setCounter
  repeat' first | with_reducible assumption | with_reducible apply lock_keeps | fail_if_no_progress with_reducible refine State.Keeps.lit ?_ (Nat.le_refl _) (Nat.le_refl _)

theorem lockedEdge_keeps {s₀ : State} {s : State} (h : s₀.Keeps s) (e : Int) : s₀.Keeps (lockedEdge s e) := by
  unfold lockedEdge
  repeat' first | with_reducible assumption | with_reducible apply loseLock_keeps | split | fail_if_no_progress with_reducible refine State.Keeps.lit ?_ (Nat.le_refl _) (Nat.le_refl _)

theorem freeEdge_keeps {s₀ : State} {s : State} (h : s₀.Keeps s) (t : U64) (e : Int) : s₀.Keeps (freeEdge s t e) := by
  unfold freeEdge
  repeat' first | with_reducible assumption | with_reducible apply lock_keeps | with_reducible apply setCounter_keeps | split | fail_if_no_progress with_reducible refine State.Keeps.lit ?_ (Nat.le_refl _) (Nat.le_refl _)

theorem namedEdge_keeps {s₀ : State} {s : State} (h : s₀.Keeps s) (t : U64) : s₀.Keeps (namedEdge s t) := by
  unfold namedEdge
  repeat' first | with_reducible assumption | with_reducible apply setCounter_keeps | with_reducible apply lockedEdge_keeps | with_reducible apply freeEdge_keeps | split | fail_if_no_progress with_reducible refine State.Keeps.lit ?_ (Nat.le_refl _) (Nat.le_refl _)

theorem execTsyncEdge_keeps (s : State) : Out.Keeps s (execTsyncEdge s) := by
  unfold execTsyncEdge
  refine act_keeps ?_
  have h : s.Keeps (match s.time.interval with | some t => namedEdge s t | none => { s with time := { s.time with run := 0 } }) := by
    split
    · exact namedEdge_keeps (State.Keeps.refl s) _
    · exact State.Keeps.lit (State.Keeps.refl s) (Nat.le_refl _) (Nat.le_refl _)
  exact State.Keeps.lit h (Nat.le_refl _) (Nat.le_refl _)

theorem execTsyncTimeout_keeps (s : State)  : Out.Keeps s (execTsyncTimeout s) := by
  unfold execTsyncTimeout
  repeat' first | with_reducible exact State.Keeps.refl _ | with_reducible apply loseLock_keeps | with_reducible refine act_keeps ?_

theorem execTrefLoss_keeps (s : State)  : Out.Keeps s (execTrefLoss s) := by
  unfold execTrefLoss
  repeat' first | with_reducible assumption | with_reducible exact State.Keeps.refl _ | fail_if_no_progress extract_lets | with_reducible apply loseLock_keeps | with_reducible refine act_keeps ?_ | with_reducible refine next_keeps ?_ | with_reducible refine ite_keeps ?_ ?_ | split | fail_if_no_progress with_reducible refine State.Keeps.lit ?_ (Nat.le_refl _) (Nat.le_refl _) | fail_if_no_progress dsimp +zetaDelta only

theorem execTrefReturn_keeps (s : State)  : Out.Keeps s (execTrefReturn s) := by
  unfold execTrefReturn
  repeat' first | with_reducible assumption | with_reducible exact State.Keeps.refl _ | fail_if_no_progress extract_lets | with_reducible refine act_keeps ?_ | with_reducible refine next_keeps ?_ | split | fail_if_no_progress with_reducible refine State.Keeps.lit ?_ (Nat.le_refl _) (Nat.le_refl _)

theorem timeTick_keeps {t s : State} (h : t.Keeps s) : t.Keeps (timeTick s) := by
  have h1 : ∀ b, t.Keeps { s with time := b } := fun b => State.Keeps.lit h (Nat.le_refl _) (Nat.le_refl _)
  unfold timeTick
  extract_lets
  refine ite_keeps (lock_keeps (h1 _)) (h1 _)

/-! ### Can -/

theorem sendHeartbeat_keeps {s₀ : State} {s : State} (h : s₀.Keeps s)  : s₀.Keeps (sendHeartbeat s) := by
  unfold sendHeartbeat
  extract_lets x0
  have h0 : s₀.Keeps x0 := by
    unfold x0
    repeat' first | with_reducible assumption | with_reducible exact State.Keeps.refl _ | fail_if_no_progress extract_lets | with_reducible apply canSend_keeps | split | fail_if_no_progress with_reducible refine State.Keeps.lit ?_ (Nat.le_refl _) (Nat.le_refl _) | fail_if_no_progress dsimp +zetaDelta only
  clear_value x0
  repeat' first | with_reducible assumption | with_reducible exact State.Keeps.refl _ | fail_if_no_progress extract_lets | with_reducible apply canSend_keeps | split | fail_if_no_progress with_reducible refine State.Keeps.lit ?_ (Nat.le_refl _) (Nat.le_refl _) | fail_if_no_progress dsimp +zetaDelta only

theorem execHeartbeat_keeps (s : State)  : Out.Keeps s (execHeartbeat s) := by
  unfold execHeartbeat
  repeat' first | with_reducible assumption | with_reducible exact State.Keeps.refl _ | with_reducible apply sendHeartbeat_keeps | with_reducible refine act_keeps ?_ | with_reducible refine next_keeps ?_ | split | fail_if_no_progress with_reducible refine State.Keeps.lit ?_ (Nat.le_refl _) (Nat.le_refl _)

theorem execFaultFrame_keeps (s : State)  : Out.Keeps s (execFaultFrame s) := by
  unfold execFaultFrame
  repeat' first | with_reducible assumption | with_reducible exact State.Keeps.refl _ | fail_if_no_progress extract_lets | with_reducible apply canSend_keeps | with_reducible refine act_keeps ?_ | with_reducible refine next_keeps ?_ | split | fail_if_no_progress with_reducible refine State.Keeps.lit ?_ (Nat.le_refl _) (Nat.le_refl _) | fail_if_no_progress dsimp +zetaDelta only

theorem execCanBusError_keeps (s : State) (transmitting : Bool) : Out.Keeps s (execCanBusError transmitting s) := by
  unfold execCanBusError
  repeat' first | with_reducible assumption | with_reducible exact State.Keeps.refl _ | fail_if_no_progress extract_lets | with_reducible refine act_keeps ?_ | with_reducible refine next_keeps ?_ | split | fail_if_no_progress with_reducible refine State.Keeps.lit ?_ (Nat.le_refl _) (Nat.le_refl _)

theorem execBusOffRecovery_keeps (s : State)  : Out.Keeps s (execBusOffRecovery s) := by
  unfold execBusOffRecovery
  repeat' first | with_reducible assumption | with_reducible exact State.Keeps.refl _ | fail_if_no_progress extract_lets | with_reducible apply logEvent_keeps | with_reducible refine act_keeps ?_ | with_reducible refine next_keeps ?_ | split | fail_if_no_progress with_reducible refine State.Keeps.lit ?_ (Nat.le_refl _) (Nat.le_refl _)

theorem receiveFrame_keeps {s₀ : State} {s : State} (h : s₀.Keeps s)  : s₀.Keeps (receiveFrame s) := by
  unfold receiveFrame
  extract_lets x0
  have h0 : s₀.Keeps x0 := by
    unfold x0
    repeat' first | with_reducible assumption | fail_if_no_progress with_reducible refine State.Keeps.lit ?_ (Nat.le_refl _) (Nat.le_refl _)
  clear_value x0
  repeat' first | with_reducible assumption | with_reducible apply sendHeartbeat_keeps | split

theorem endOld_keeps {s₀ : State} {s : State} (h : s₀.Keeps s)  : s₀.Keeps (endOld s) := by
  unfold endOld
  repeat' first | with_reducible assumption | with_reducible exact State.Keeps.refl _ | fail_if_no_progress extract_lets | with_reducible apply ddaAbort_keeps | split | fail_if_no_progress with_reducible refine State.Keeps.lit ?_ (Nat.le_refl _) (Nat.le_refl _)

theorem submit_keeps {s₀ : State} {s : State} (h : s₀.Keeps s) (r : Req) : s₀.Keeps (submit s r) := by
  unfold submit
  repeat' first | with_reducible assumption | fail_if_no_progress with_reducible refine State.Keeps.lit ?_ (Nat.le_refl _) (Nat.le_refl _)

theorem execReadRequest_keeps (s : State) (fd : Bool) (index : BitVec 16) (sub : BitVec 8) : Out.Keeps s (execReadRequest fd index sub s) := by
  unfold execReadRequest
  repeat' first | with_reducible assumption | with_reducible exact State.Keeps.refl _ | with_reducible apply receiveFrame_keeps | with_reducible apply endOld_keeps | with_reducible apply submit_keeps | with_reducible refine act_keeps ?_ | with_reducible refine next_keeps ?_ | split | fail_if_no_progress with_reducible refine State.Keeps.lit ?_ (Nat.le_refl _) (Nat.le_refl _)

theorem unknownByte_keeps {s₀ : State} {s : State} (h : s₀.Keeps s) (fd : Bool) : s₀.Keeps (unknownByte s fd) := by
  unfold unknownByte
  repeat' first | with_reducible assumption | with_reducible exact State.Keeps.refl _ | fail_if_no_progress extract_lets | with_reducible apply ddaAbort_keeps | split | fail_if_no_progress with_reducible refine State.Keeps.lit ?_ (Nat.le_refl _) (Nat.le_refl _)

theorem execExpeditedWrite_keeps (s : State) (fd : Bool) (index : BitVec 16) (sub : BitVec 8) (data : List Byte) : Out.Keeps s (execExpeditedWrite fd index sub data s) := by
  unfold execExpeditedWrite
  repeat' first | with_reducible assumption | with_reducible exact State.Keeps.refl _ | fail_if_no_progress extract_lets | with_reducible apply receiveFrame_keeps | with_reducible apply endOld_keeps | with_reducible apply submit_keeps | with_reducible apply unknownByte_keeps | with_reducible refine act_keeps ?_ | with_reducible refine next_keeps ?_ | with_reducible refine ite_keeps ?_ ?_ | split | fail_if_no_progress with_reducible refine State.Keeps.lit ?_ (Nat.le_refl _) (Nat.le_refl _) | fail_if_no_progress dsimp +zetaDelta only

theorem execSegmentedWriteInitiate_keeps (s : State) (fd : Bool) (index : BitVec 16) (sub : BitVec 8) (len : BitVec 32) : Out.Keeps s (execSegmentedWriteInitiate fd index sub len s) := by
  unfold execSegmentedWriteInitiate
  repeat' first | with_reducible assumption | with_reducible exact State.Keeps.refl _ | fail_if_no_progress extract_lets | with_reducible apply ddaFrame_keeps | with_reducible apply ddaAbort_keeps | with_reducible apply countRequest_keeps | with_reducible apply receiveFrame_keeps | with_reducible apply endOld_keeps | with_reducible refine act_keeps ?_ | with_reducible refine next_keeps ?_ | with_reducible refine ite_keeps ?_ ?_ | split | fail_if_no_progress with_reducible refine State.Keeps.lit ?_ (Nat.le_refl _) (Nat.le_refl _) | fail_if_no_progress dsimp +zetaDelta only

theorem readSegment_keeps {s₀ : State} {s : State} (h : s₀.Keeps s) (d : Dda) (fd : Bool) (toggle : Bool) : s₀.Keeps (readSegment s d fd toggle) := by
  unfold readSegment
  extract_lets x0 x1 x2
  have h2 : s₀.Keeps x2 := by
    unfold x2
    repeat' first | with_reducible assumption | with_reducible exact State.Keeps.refl _ | fail_if_no_progress extract_lets | with_reducible apply ddaFrame_keeps | with_reducible refine ite_keeps ?_ ?_ | split | fail_if_no_progress with_reducible refine State.Keeps.lit ?_ (Nat.le_refl _) (Nat.le_refl _) | fail_if_no_progress dsimp +zetaDelta only
  clear_value x2
  repeat' first | with_reducible assumption | with_reducible exact State.Keeps.refl _ | fail_if_no_progress extract_lets | with_reducible apply ddaFrame_keeps | with_reducible refine ite_keeps ?_ ?_ | split | fail_if_no_progress with_reducible refine State.Keeps.lit ?_ (Nat.le_refl _) (Nat.le_refl _) | fail_if_no_progress dsimp +zetaDelta only

theorem writeDdaSegment_keeps {s₀ : State} {s : State} (h : s₀.Keeps s) (d : Dda) (fd : Bool) (toggle : Bool) (last : Bool) (data : List Byte) : s₀.Keeps (writeDdaSegment s d fd toggle last data) := by
  unfold writeDdaSegment
  repeat' first | with_reducible assumption | with_reducible exact State.Keeps.refl _ | fail_if_no_progress extract_lets | with_reducible apply ddaFrame_keeps | with_reducible apply submit_keeps | with_reducible refine ite_keeps ?_ ?_ | split | fail_if_no_progress with_reducible refine State.Keeps.lit ?_ (Nat.le_refl _) (Nat.le_refl _) | fail_if_no_progress dsimp +zetaDelta only

theorem execSegmentFrame_keeps (s : State) (fd : Bool) (toggle : Bool) (last : Bool) (data : List Byte) : Out.Keeps s (execSegmentFrame fd toggle last data s) := by
  unfold execSegmentFrame
  repeat' first | with_reducible assumption | with_reducible exact State.Keeps.refl _ | fail_if_no_progress extract_lets | with_reducible apply ddaAbort_keeps | with_reducible apply receiveFrame_keeps | with_reducible apply readSegment_keeps | with_reducible apply writeDdaSegment_keeps | with_reducible refine act_keeps ?_ | with_reducible refine next_keeps ?_ | with_reducible refine ite_keeps ?_ ?_ | split | fail_if_no_progress with_reducible refine State.Keeps.lit ?_ (Nat.le_refl _) (Nat.le_refl _) | fail_if_no_progress dsimp +zetaDelta only

theorem execDdaAbort_keeps (s : State)  : Out.Keeps s (execDdaAbort s) := by
  unfold execDdaAbort
  repeat' first | with_reducible assumption | with_reducible exact State.Keeps.refl _ | fail_if_no_progress extract_lets | with_reducible apply ddaAbort_keeps | with_reducible apply receiveFrame_keeps | with_reducible refine act_keeps ?_ | with_reducible refine next_keeps ?_ | split | fail_if_no_progress with_reducible refine State.Keeps.lit ?_ (Nat.le_refl _) (Nat.le_refl _) | fail_if_no_progress dsimp +zetaDelta only

theorem execDdaTimeout_keeps (s : State)  : Out.Keeps s (execDdaTimeout s) := by
  unfold execDdaTimeout
  repeat' first | with_reducible assumption | with_reducible exact State.Keeps.refl _ | fail_if_no_progress extract_lets | with_reducible apply ddaAbort_keeps | with_reducible refine act_keeps ?_ | with_reducible refine next_keeps ?_ | split | fail_if_no_progress with_reducible refine State.Keeps.lit ?_ (Nat.le_refl _) (Nat.le_refl _)

theorem execUnknownCommand_keeps (s : State) (fd : Bool) (cmd : BitVec 8) : Out.Keeps s (execUnknownCommand fd cmd s) := by
  unfold execUnknownCommand
  repeat' first | with_reducible assumption | with_reducible exact State.Keeps.refl _ | with_reducible apply receiveFrame_keeps | with_reducible apply unknownByte_keeps | with_reducible refine act_keeps ?_ | with_reducible refine next_keeps ?_ | split | fail_if_no_progress with_reducible refine State.Keeps.lit ?_ (Nat.le_refl _) (Nat.le_refl _)

end Sys2Proof.Machine
end

