-- ==== Sys2Proof/Laws/KeepsLinks.lean ====
section
/-! SUPPORT. What every operation of these files keeps: Mirror, Link, Rings, Tap, Ports. -/

namespace Sys2Proof.Machine

set_option linter.unusedVariables false
set_option linter.unusedTactic false
set_option linter.unreachableTactic false

/-! ### Mirror -/

theorem submitFrom_keeps {s₀ : State} {s : State} (h : s₀.Keeps s) (r : Req) : s₀.Keeps (submitFrom s r) := by
  unfold submitFrom
  repeat' first | with_reducible assumption | fail_if_no_progress with_reducible refine State.Keeps.lit ?_ (Nat.le_refl _) (Nat.le_refl _)

theorem storeRequest_keeps {s₀ : State} {s : State} (h : s₀.Keeps s) (m : Nat) (line : Line) : s₀.Keeps (storeRequest s m line) := by
  unfold storeRequest
  extract_lets x0 x1
  have h1 : s₀.Keeps x1 := by
    unfold x1
    repeat' first | with_reducible assumption | with_reducible apply updBox_keeps
  clear_value x1
  repeat' first | with_reducible assumption | with_reducible apply submitFrom_keeps | split

theorem mirrorWrite_keeps {s₀ : State} {s : State} (h : s₀.Keeps s) (off : Nat) (data : Line) (mask : U64) : s₀.Keeps (mirrorWrite s off data mask).1 := by
  unfold mirrorWrite
  repeat' first | with_reducible assumption | with_reducible apply updBox_keeps | with_reducible apply storeRequest_keeps | split

/-! ### Link -/

theorem takeFlit_keeps {s₀ : State} {s : State} (h : s₀.Keeps s) (fl : Flit) : s₀.Keeps (takeFlit s fl) := by
  unfold takeFlit
  repeat' first | with_reducible assumption | fail_if_no_progress with_reducible refine State.Keeps.lit ?_ (Nat.le_refl _) (Nat.le_refl _)

theorem endFlit_keeps {s₀ : State} {s : State} (h : s₀.Keeps s) (fl : Flit) : s₀.Keeps (endFlit fl s) := by
  unfold endFlit
  repeat' first | with_reducible assumption | with_reducible exact State.Keeps.refl _ | fail_if_no_progress extract_lets | with_reducible refine ite_keeps ?_ ?_ | split | fail_if_no_progress with_reducible refine State.Keeps.lit ?_ (Nat.le_refl _) (Nat.le_refl _)

theorem refuseFlit_keeps {s₀ : State} {s : State} (h : s₀.Keeps s) (fl : Flit) : s₀.Keeps (refuseFlit fl s) := by
  unfold refuseFlit
  repeat' first | with_reducible assumption | with_reducible apply endFlit_keeps | with_reducible exact State.Keeps.refl _ | fail_if_no_progress extract_lets | with_reducible refine ite_keeps ?_ ?_ | split | fail_if_no_progress with_reducible refine State.Keeps.lit ?_ (Nat.le_refl _) (Nat.le_refl _)

theorem message_keeps {fl : Flit} {s : State} {f : State → State} (h : s.Keeps (f (takeFlit s fl))) : Out.Keeps s (message fl s f) :=
  act_keeps (ite_keeps (endFlit_keeps h fl) (refuseFlit_keeps (State.Keeps.refl _) fl))

theorem execIdleFlit_keeps (s : State) (fl : Flit) : Out.Keeps s (execIdleFlit fl s) := by
  unfold execIdleFlit
  repeat' first | with_reducible exact State.Keeps.refl _ | with_reducible apply message_keeps | with_reducible apply takeFlit_keeps

theorem execCompanionNak_keeps (s : State) (fl : Flit) : Out.Keeps s (execCompanionNak fl s) := by
  unfold execCompanionNak
  repeat' first | with_reducible exact State.Keeps.refl _ | with_reducible apply message_keeps | with_reducible apply takeFlit_keeps

theorem execFlitError_keeps (s : State) : Out.Keeps s (execFlitError s) := by
  unfold execFlitError
  repeat' first | with_reducible exact State.Keeps.refl _ | with_reducible refine act_keeps ?_ | with_reducible refine ite_keeps ?_ ?_ | split | fail_if_no_progress with_reducible refine State.Keeps.lit ?_ (Nat.le_refl _) (Nat.le_refl _)

theorem execMessageOfUndefinedType_keeps (s : State) (msg : StrayMessage) : Out.Keeps s (execMessageOfUndefinedType msg s) := by
  unfold execMessageOfUndefinedType
  repeat' first | with_reducible exact State.Keeps.refl _ | with_reducible apply message_keeps | with_reducible apply takeFlit_keeps | with_reducible refine ite_keeps ?_ ?_ | fail_if_no_progress with_reducible refine State.Keeps.lit ?_ (Nat.le_refl _) (Nat.le_refl _)

theorem respondRead_keeps {s₀ : State} {s : State} (h : s₀.Keeps s) (tag : BitVec 11) (status : BitVec 4) (data : List Byte) : s₀.Keeps (respondRead s tag status data) := by
  unfold respondRead
  repeat' first | with_reducible assumption | with_reducible apply linkSend_keeps

theorem respond_keeps {s₀ : State} {s : State} (h : s₀.Keeps s) (tag : BitVec 11) (status : BitVec 4) : s₀.Keeps (respond s tag status) := by
  unfold respond
  repeat' first | with_reducible assumption | with_reducible apply linkSend_keeps

theorem windowAccess_keeps {s₀ : State} {s : State} (h : s₀.Keeps s) (p : Nat) (a : Nat) : s₀.Keeps (windowAccess s p a).1 := by
  unfold windowAccess
  extract_lets x0
  repeat' first | with_reducible assumption | with_reducible apply recordRefused_keeps | split

theorem linkReadLine_keeps {s₀ : State} {s : State} (h : s₀.Keeps s) (tag : BitVec 11) (addr : Nat) : s₀.Keeps (linkReadLine s tag addr) := by
  unfold linkReadLine
  repeat' first | with_reducible assumption | with_reducible apply touch_keeps | with_reducible apply respondRead_keeps | with_reducible apply windowAccess_keeps | with_reducible refine ite_keeps ?_ ?_ | split

theorem execRd_keeps (s : State) (fl : Flit) (tag : BitVec 11) (line : BitVec 46) (found : List Flaw) : Out.Keeps s (execRd fl tag line found s) := by
  unfold execRd
  repeat' first | with_reducible exact State.Keeps.refl _ | with_reducible apply message_keeps | with_reducible apply linkReadLine_keeps | with_reducible apply strikeAll_keeps | with_reducible apply takeFlit_keeps | split | fail_if_no_progress with_reducible refine State.Keeps.lit ?_ (Nat.le_refl _) (Nat.le_refl _)

theorem execRdreg_keeps (s : State) (fl : Flit) (tag : BitVec 11) (line : BitVec 46) : Out.Keeps s (execRdreg fl tag line s) := by
  unfold execRdreg
  repeat' first | with_reducible exact State.Keeps.refl _ | with_reducible apply message_keeps | with_reducible apply linkReadLine_keeps | with_reducible apply strikeAll_keeps | with_reducible apply takeFlit_keeps | split | fail_if_no_progress with_reducible refine State.Keeps.lit ?_ (Nat.le_refl _) (Nat.le_refl _)

theorem storeMasked_keeps {s₀ : State} {s : State} (h : s₀.Keeps s) (a : Nat) (data : BitVec 512) (mask : U64) : s₀.Keeps (storeMasked s a data mask) := by
  unfold storeMasked
  extract_lets x0
  repeat' first | with_reducible assumption | with_reducible apply storeGranule_keeps

theorem linkWriteMasked_keeps {s₀ : State} {s : State} (h : s₀.Keeps s) (tag : BitVec 11) (addr : Nat) (data : BitVec 512) (mask : U64) : s₀.Keeps (linkWriteMasked s tag addr data mask) := by
  unfold linkWriteMasked
  repeat' first | with_reducible assumption | with_reducible apply mirrorWrite_keeps | with_reducible apply respond_keeps | with_reducible apply windowAccess_keeps | with_reducible apply storeMasked_keeps | with_reducible refine ite_keeps ?_ ?_ | split

theorem execWr_keeps (s : State) (fl : Flit) (tag : BitVec 11) (line : BitVec 46) (data : BitVec 512) : Out.Keeps s (execWr fl tag line data s) := by
  unfold execWr
  repeat' first | with_reducible exact State.Keeps.refl _ | with_reducible apply message_keeps | with_reducible apply linkWriteMasked_keeps | with_reducible apply takeFlit_keeps

theorem execWrp_keeps (s : State) (fl : Flit) (tag : BitVec 11) (line : BitVec 46) (data : BitVec 512) (mask : BitVec 64) : Out.Keeps s (execWrp fl tag line data mask s) := by
  unfold execWrp
  repeat' first | with_reducible exact State.Keeps.refl _ | with_reducible apply message_keeps | with_reducible apply linkWriteMasked_keeps | with_reducible apply takeFlit_keeps

theorem atomicAt_keeps {s₀ : State} {s : State} (h : s₀.Keeps s) (a : Nat) (k : AtKind) (x : Nat) (y : Nat) : s₀.Keeps (atomicAt s a k x y).1 := by
  unfold atomicAt
  extract_lets x0 x1 x2 x3 x4
  have h1 : s₀.Keeps x1 := by
    unfold x1
    repeat' first | with_reducible assumption | with_reducible apply touch_keeps
  clear_value x1
  repeat' first | with_reducible assumption | with_reducible apply storeBytes_keeps

theorem linkAtomic_keeps {s₀ : State} {s : State} (h : s₀.Keeps s) (tag : BitVec 11) (addr : Nat) (op : AtomicOp) (x : Nat) (y : Nat) : s₀.Keeps (linkAtomic s tag addr op x y) := by
  unfold linkAtomic
  extract_lets x0
  repeat' first | with_reducible assumption | with_reducible apply respondRead_keeps | with_reducible apply respond_keeps | with_reducible apply windowAccess_keeps | with_reducible apply atomicAt_keeps | with_reducible refine ite_keeps ?_ ?_ | split

theorem execAt_keeps (s : State) (fl : Flit) (tag : BitVec 11) (addr : BitVec 52) (op : AtomicOp) (a : BitVec 64) (b : BitVec 64) : Out.Keeps s (execAt fl tag addr op a b s) := by
  unfold execAt
  repeat' first | with_reducible exact State.Keeps.refl _ | with_reducible apply message_keeps | with_reducible apply linkAtomic_keeps | with_reducible apply takeFlit_keeps

theorem gotLine_keeps {s₀ : State} {s : State} (h : s₀.Keeps s) (tag : BitVec 11) (ok : Bool) (data : Line) : s₀.Keeps (gotLine s tag ok data) := by
  unfold gotLine
  repeat' first | with_reducible assumption | with_reducible apply updRing_keeps | with_reducible apply entryHalf_keeps | split | fail_if_no_progress with_reducible refine State.Keeps.lit ?_ (Nat.le_refl _) (Nat.le_refl _)

theorem execRspd_keeps (s : State) (fl : Flit) (tag : BitVec 11) (status : BitVec 4) (data : BitVec 512) : Out.Keeps s (execRspd fl tag status data s) := by
  unfold execRspd
  repeat' first | with_reducible exact State.Keeps.refl _ | with_reducible apply message_keeps | with_reducible apply gotLine_keeps | with_reducible apply takeFlit_keeps

theorem execRsp_keeps (s : State) (fl : Flit) (tag : BitVec 11) (status : BitVec 4) : Out.Keeps s (execRsp fl tag status s) := by
  unfold execRsp
  repeat' first | with_reducible exact State.Keeps.refl _ | with_reducible apply message_keeps | with_reducible apply gotLine_keeps | with_reducible apply takeFlit_keeps

theorem execSnpinv_keeps (s : State) (fl : Flit) (tag : BitVec 11) (line : BitVec 46) : Out.Keeps s (execSnpinv fl tag line s) := by
  unfold execSnpinv
  repeat' first | with_reducible exact State.Keeps.refl _ | with_reducible apply updRing_keeps | with_reducible apply readTail_keeps | with_reducible apply message_keeps | with_reducible apply respond_keeps | with_reducible refine each_keeps (fun _ _ => ?_) ?_ | with_reducible apply takeFlit_keeps

theorem execSnprd_keeps (s : State) (fl : Flit) (tag : BitVec 11) (line : BitVec 46) : Out.Keeps s (execSnprd fl tag line s) := by
  unfold execSnprd
  repeat' first | with_reducible exact State.Keeps.refl _ | with_reducible apply message_keeps | with_reducible apply respondRead_keeps | with_reducible apply respond_keeps | with_reducible apply takeFlit_keeps | split

theorem execLinkReset_keeps (s : State) (gen : BitVec 2) : Out.Keeps s (execLinkReset gen s) := by
  unfold execLinkReset
  repeat' first | with_reducible exact State.Keeps.refl _ | with_reducible apply updRing_keeps | with_reducible apply readTail_keeps | with_reducible apply readNotify_keeps | with_reducible apply refetch_keeps | with_reducible refine each_keeps (fun _ _ => ?_) ?_ | with_reducible refine act_keeps ?_ | with_reducible refine ite_keeps ?_ ?_ | fail_if_no_progress with_reducible refine State.Keeps.lit ?_ (Nat.le_refl _) (Nat.le_refl _)

/-! ### Rings -/

theorem execTail_keeps (s : State) (ring : BitVec 6) : Out.Keeps s (execTail ring s) := by
  unfold execTail
  repeat' first | with_reducible exact State.Keeps.refl _ | with_reducible apply updRing_keeps | with_reducible apply settleOverrun_keeps | with_reducible apply fetchMore_keeps | with_reducible apply runOrIdle_keeps | with_reducible refine act_keeps ?_ | with_reducible refine ite_keeps ?_ ?_

theorem showOwn_keeps {s₀ : State} {s : State} (h : s₀.Keeps s) (n : Nat) : s₀.Keeps (showOwn s n) := by
  unfold showOwn
  repeat' first | with_reducible assumption | with_reducible apply updRing_keeps | split

theorem execResetgen_keeps (s : State) (ring : BitVec 6) : Out.Keeps s (execResetgen ring s) := by
  unfold execResetgen
  repeat' first | with_reducible exact State.Keeps.refl _ | with_reducible apply updRing_keeps | with_reducible apply ringReset_keeps | with_reducible apply showOwn_keeps | with_reducible refine act_keeps ?_

theorem execStopgen_keeps (s : State) (ring : BitVec 6) : Out.Keeps s (execStopgen ring s) := by
  unfold execStopgen
  repeat' first | with_reducible exact State.Keeps.refl _ | fail_if_no_progress extract_lets | with_reducible apply updRing_keeps | with_reducible apply stopRing_keeps | with_reducible refine act_keeps ?_ | split

theorem execResumegen_keeps (s : State) (ring : BitVec 6) : Out.Keeps s (execResumegen ring s) := by
  unfold execResumegen
  repeat' first | with_reducible exact State.Keeps.refl _ | with_reducible apply updRing_keeps | with_reducible apply runOrIdle_keeps | with_reducible refine act_keeps ?_ | with_reducible refine ite_keeps ?_ ?_

theorem execNotifyUpdate_keeps (s : State) (ring : BitVec 6) : Out.Keeps s (execNotifyUpdate ring s) := by
  unfold execNotifyUpdate
  repeat' first | with_reducible exact State.Keeps.refl _ | with_reducible apply updRing_keeps | with_reducible refine act_keeps ?_

/-! ### Tap -/

theorem takeBalls_keeps {s₀ : State} {s : State} (h : s₀.Keeps s)  : s₀.Keeps (takeBalls s) := by
  unfold takeBalls
  repeat' first | with_reducible assumption | with_reducible exact State.Keeps.refl _ | with_reducible apply logEvent_keeps | with_reducible apply partReset_keeps | with_reducible refine each_keeps (fun _ _ => ?_) ?_ | with_reducible refine ite_keeps ?_ ?_ | fail_if_no_progress with_reducible refine State.Keeps.lit ?_ (Nat.le_refl _) (Nat.le_refl _)

theorem endScan_keeps {s₀ : State} {s : State} (h : s₀.Keeps s)  : s₀.Keeps (endScan s) := by
  unfold endScan
  repeat' first | with_reducible assumption | with_reducible exact State.Keeps.refl _ | with_reducible apply roomReset_keeps | with_reducible refine each_keeps (fun _ _ => ?_) ?_ | split | fail_if_no_progress with_reducible refine State.Keeps.lit ?_ (Nat.le_refl _) (Nat.le_refl _)

theorem loadIr_keeps {s₀ : State} {s : State} (h : s₀.Keeps s) (code : Byte) : s₀.Keeps (loadIr s code) := by
  unfold loadIr
  repeat' first | with_reducible assumption | with_reducible apply testPortRule_keeps | with_reducible apply takeBalls_keeps | with_reducible apply endScan_keeps | split | fail_if_no_progress with_reducible refine State.Keeps.lit ?_ (Nat.le_refl _) (Nat.le_refl _)

theorem execExtest_keeps (s : State)  : Out.Keeps s (execExtest s) := by
  unfold execExtest
  repeat' first | with_reducible exact State.Keeps.refl _ | with_reducible apply loadIr_keeps | with_reducible refine act_keeps ?_

theorem execSample_keeps (s : State)  : Out.Keeps s (execSample s) := by
  unfold execSample
  repeat' first | with_reducible exact State.Keeps.refl _ | with_reducible apply takeFree_keeps | with_reducible apply loadIr_keeps | with_reducible refine snd_keeps (by assumption) ?_ | with_reducible refine act_keeps ?_ | fail_if_no_progress with_reducible refine State.Keeps.lit ?_ (Nat.le_refl _) (Nat.le_refl _)

theorem execPreload_keeps (s : State) (cells : BitVec 222) : Out.Keeps s (execPreload cells s) := by
  unfold execPreload
  repeat' first | with_reducible exact State.Keeps.refl _ | with_reducible apply loadIr_keeps | with_reducible refine act_keeps ?_ | fail_if_no_progress with_reducible refine State.Keeps.lit ?_ (Nat.le_refl _) (Nat.le_refl _)

theorem execIdcode_keeps (s : State)  : Out.Keeps s (execIdcode s) := by
  unfold execIdcode
  repeat' first | with_reducible exact State.Keeps.refl _ | with_reducible apply loadIr_keeps | with_reducible refine act_keeps ?_ | fail_if_no_progress with_reducible refine State.Keeps.lit ?_ (Nat.le_refl _) (Nat.le_refl _)

theorem execClamp_keeps (s : State)  : Out.Keeps s (execClamp s) := by
  unfold execClamp
  repeat' first | with_reducible exact State.Keeps.refl _ | with_reducible apply loadIr_keeps | with_reducible refine act_keeps ?_

theorem execHighz_keeps (s : State)  : Out.Keeps s (execHighz s) := by
  unfold execHighz
  repeat' first | with_reducible exact State.Keeps.refl _ | with_reducible apply loadIr_keeps | with_reducible refine act_keeps ?_

theorem execExtestPulse_keeps (s : State)  : Out.Keeps s (execExtestPulse s) := by
  unfold execExtestPulse
  repeat' first | with_reducible exact State.Keeps.refl _ | with_reducible apply loadIr_keeps | with_reducible refine act_keeps ?_

theorem execExtestTrain_keeps (s : State)  : Out.Keeps s (execExtestTrain s) := by
  unfold execExtestTrain
  repeat' first | with_reducible exact State.Keeps.refl _ | with_reducible apply loadIr_keeps | with_reducible refine act_keeps ?_

theorem execBypass_keeps (s : State)  : Out.Keeps s (execBypass s) := by
  unfold execBypass
  repeat' first | with_reducible exact State.Keeps.refl _ | with_reducible apply loadIr_keeps | with_reducible refine act_keeps ?_

theorem execUndefinedInstruction_keeps (s : State) (code : BitVec 8) : Out.Keeps s (execUndefinedInstruction code s) := by
  unfold execUndefinedInstruction
  repeat' first | with_reducible exact State.Keeps.refl _ | with_reducible apply loadIr_keeps | with_reducible refine act_keeps ?_

theorem execTestLogicReset_keeps (s : State)  : Out.Keeps s (execTestLogicReset s) := by
  unfold execTestLogicReset
  repeat' first | with_reducible exact State.Keeps.refl _ | with_reducible apply loadIr_keeps | with_reducible refine act_keeps ?_

theorem execDict_keeps (s : State) (dr : BitVec 384) : Out.Keeps s (execDict dr s) := by
  unfold execDict
  repeat' first | with_reducible exact State.Keeps.refl _ | with_reducible apply submitFrom_keeps | with_reducible apply loadIr_keeps | with_reducible refine act_keeps ?_ | with_reducible refine ite_keeps ?_ ?_ | fail_if_no_progress with_reducible refine State.Keeps.lit ?_ (Nat.le_refl _) (Nat.le_refl _)

theorem execDictbuf_keeps (s : State) (dr : BitVec 16384) : Out.Keeps s (execDictbuf dr s) := by
  unfold execDictbuf
  repeat' first | with_reducible exact State.Keeps.refl _ | with_reducible apply loadIr_keeps | with_reducible refine act_keeps ?_ | fail_if_no_progress with_reducible refine State.Keeps.lit ?_ (Nat.le_refl _) (Nat.le_refl _)

theorem execScanchain_keeps (s : State) (die : BitVec 3) : Out.Keeps s (execScanchain die s) := by
  unfold execScanchain
  repeat' first | with_reducible exact State.Keeps.refl _ | with_reducible apply loadIr_keeps | with_reducible refine act_keeps ?_ | with_reducible refine ite_keeps ?_ ?_ | fail_if_no_progress with_reducible refine State.Keeps.lit ?_ (Nat.le_refl _) (Nat.le_refl _)

theorem marchMem_keeps {t s : State} (h : t.Keeps s) (m : DbgMem) : t.Keeps (marchMem s m) := by
  unfold marchMem
  split
  · exact updRoom_keeps h _ _
  · exact discardWhere_keeps h _
  · exact State.Keeps.lit h (Nat.le_refl _) (Nat.le_refl _)

theorem execMbist_keeps (s : State) (mem : DbgMem) (pass : Bool) : Out.Keeps s (execMbist mem pass s) := by
  unfold execMbist
  repeat' first | with_reducible exact State.Keeps.refl _ | with_reducible apply loadIr_keeps | with_reducible apply marchMem_keeps | with_reducible refine act_keeps ?_ | with_reducible refine ite_keeps ?_ ?_ | fail_if_no_progress with_reducible refine State.Keeps.lit ?_ (Nat.le_refl _) (Nat.le_refl _)

/-! ### Ports -/

theorem sendNow_keeps {s₀ : State} {s : State} (h : s₀.Keeps s) (j : Nat) (f : PeerFrame) (pool : Nat) : s₀.Keeps (sendNow s j f pool) := by
  unfold sendNow
  repeat' first | with_reducible assumption | with_reducible apply updPort_keeps

theorem sendLink_keeps {s₀ : State} {s : State} (h : s₀.Keeps s) (j : Nat) (nak : Bool) : s₀.Keeps (sendLink s j nak) := by
  unfold sendLink
  repeat' first | with_reducible assumption | with_reducible apply updPort_keeps

theorem failLane_keeps {s₀ : State} {s : State} (h : s₀.Keeps s) (j : Nat) : s₀.Keeps (failLane s j) := by
  unfold failLane
  extract_lets x0
  repeat' first | with_reducible assumption | with_reducible exact State.Keeps.refl _ | fail_if_no_progress extract_lets | with_reducible apply updPort_keeps | with_reducible apply takeFree_keeps | with_reducible apply takeOut_keeps | with_reducible refine fst_keeps (by assumption) ?_ | with_reducible refine snd_keeps (by assumption) ?_ | with_reducible refine ite_keeps ?_ ?_ | split | fail_if_no_progress with_reducible refine State.Keeps.lit ?_ (Nat.le_refl _) (Nat.le_refl _) | dsimp +zetaDelta only

theorem replayPort_keeps {s₀ : State} {s : State} (h : s₀.Keeps s) (j : Nat) : s₀.Keeps (replayPort s j) := by
  unfold replayPort
  exact failLane_keeps (updPort_keeps h _ _) j

theorem countPort_keeps {s₀ : State} {s : State} (h : s₀.Keeps s) (j : Nat) (k : Nat) : s₀.Keeps (countPort s j k) := by
  unfold countPort
  repeat' first | with_reducible assumption | with_reducible apply updPort_keeps

theorem takeAck_keeps {s₀ : State} {s : State} (h : s₀.Keeps s) (j : Nat) (ack : U16) : s₀.Keeps (takeAck s j ack) := by
  unfold takeAck
  repeat' first | with_reducible assumption | with_reducible apply updPort_keeps

theorem sendNak_keeps {s₀ : State} {s : State} (h : s₀.Keeps s) (j : Nat) : s₀.Keeps (sendNak s j) := by
  unfold sendNak
  repeat' first | with_reducible assumption | with_reducible apply updPort_keeps | with_reducible apply sendLink_keeps | split

theorem acceptSeq_keeps {s₀ : State} {s : State} (h : s₀.Keeps s) (j : Nat) : s₀.Keeps (acceptSeq s j) := by
  unfold acceptSeq
  extract_lets x0
  have h0 : s₀.Keeps x0 := by
    unfold x0
    repeat' first | with_reducible assumption | with_reducible apply updPort_keeps
  clear_value x0
  repeat' first | with_reducible assumption | with_reducible apply sendLink_keeps | split

theorem linkLayer_keeps {s₀ : State} {s : State} (h : s₀.Keeps s) (j : Nat) (f : PeerFrame) : s₀.Keeps (linkLayer s j f).1 := by
  unfold linkLayer
  repeat' first | with_reducible assumption | fail_if_no_progress extract_lets | with_reducible apply updPort_keeps | with_reducible apply replayPort_keeps | with_reducible apply countPort_keeps | with_reducible apply takeAck_keeps | with_reducible apply sendNak_keeps | with_reducible apply acceptSeq_keeps | split

theorem execReplayTimeout_keeps (s : State) (port : BitVec 4) : Out.Keeps s (execReplayTimeout port s) := by
  unfold execReplayTimeout
  repeat' first | with_reducible exact State.Keeps.refl _ | with_reducible apply replayPort_keeps | with_reducible refine act_keeps ?_

theorem execAckTimeout_keeps (s : State) (port : BitVec 4) : Out.Keeps s (execAckTimeout port s) := by
  unfold execAckTimeout
  repeat' first | with_reducible exact State.Keeps.refl _ | with_reducible apply sendLink_keeps | with_reducible refine act_keeps ?_

theorem execPeerFrameCrcFailure_keeps (s : State) (port : BitVec 4) : Out.Keeps s (execPeerFrameCrcFailure port s) := by
  unfold execPeerFrameCrcFailure
  repeat' first | with_reducible exact State.Keeps.refl _ | with_reducible apply countPort_keeps | with_reducible apply sendNak_keeps | with_reducible refine ite_keeps ?_ ?_ | with_reducible refine act_keeps ?_

theorem execLinkUp_keeps (s : State) (port : BitVec 4) (fast : Bool) (prevGen : Bool) (lanes : BitVec 4) : Out.Keeps s (execLinkUp port fast prevGen lanes s) := by
  unfold execLinkUp
  repeat' first | with_reducible exact State.Keeps.refl _ | with_reducible apply updPort_keeps | with_reducible apply replayPort_keeps | with_reducible refine act_keeps ?_ | with_reducible refine ite_keeps ?_ ?_

theorem execLaneFailure_keeps (s : State) (port : BitVec 4) (lane : BitVec 2) : Out.Keeps s (execLaneFailure port lane s) := by
  unfold execLaneFailure
  repeat' first | with_reducible exact State.Keeps.refl _ | with_reducible apply takeOut_keeps | with_reducible refine act_keeps ?_

theorem execPortWiden_keeps (s : State) (port : BitVec 4) : Out.Keeps s (execPortWiden port s) := by
  unfold execPortWiden
  repeat' first | with_reducible exact State.Keeps.refl _ | with_reducible apply setLanes_keeps | with_reducible refine act_keeps ?_

theorem setArb_keeps {s₀ : State} {s : State} (h : s₀.Keeps s) (k : Nat) (a : Arb) : s₀.Keeps (setArb s k a) := by
  unfold setArb
  repeat' first | with_reducible assumption | with_reducible refine sameStacks_keeps ?_ rfl rfl rfl

theorem bankDecide_keeps {s₀ : State} {s : State} (h : s₀.Keeps s) (n : Nat) (reqs : List Nat) : s₀.Keeps (bankDecide s n reqs) := by
  unfold bankDecide
  extract_lets x0 rs x1
  have h1 : s₀.Keeps x1 := setArb_keeps h _ _
  clear_value x1
  repeat' first | with_reducible assumption | with_reducible refine sameStacks_keeps ?_ rfl rfl rfl | split

theorem moveFrames_keeps {t s : State} (h : t.Keeps s) (k j i : Nat) : t.Keeps (moveFrames k s j i) := by
  induction k generalizing s with
  | zero => exact h
  | succ k ih =>
    unfold moveFrames
    split
    · exact h
    · exact ih (setArb_keeps (sendNow_keeps (updPort_keeps h _ _) _ _ _) _ _)

theorem egressDecide_keeps {s₀ : State} {s : State} (h : s₀.Keeps s) (j : Nat) : s₀.Keeps (egressDecide s j) := by
  unfold egressDecide
  extract_lets x0
  have h0 : s₀.Keeps x0 := by
    unfold x0
    repeat' first | with_reducible assumption | with_reducible apply setArb_keeps
  clear_value x0
  repeat' first | with_reducible assumption | with_reducible apply moveFrames_keeps | split

theorem execArbiterDecision_keeps (s : State) (port : ArbPort) : Out.Keeps s (execArbiterDecision port s) := by
  unfold execArbiterDecision
  repeat' first | with_reducible exact State.Keeps.refl _ | with_reducible apply bankDecide_keeps | with_reducible apply egressDecide_keeps | with_reducible refine act_keeps ?_ | split

theorem logCut_keeps {s₀ : State} {s : State} (h : s₀.Keeps s) (k : Nat) (unit : Byte) : s₀.Keeps (logCut s k unit) := by
  unfold logCut
  extract_lets x0
  repeat' first | with_reducible assumption | with_reducible apply logEvent_keeps | with_reducible refine sameStacks_keeps ?_ rfl rfl rfl | split

theorem execHoldCutOff_keeps (s : State) (port : ArbPort) : Out.Keeps s (execHoldCutOff port s) := by
  unfold execHoldCutOff
  repeat' first | with_reducible exact State.Keeps.refl _ | with_reducible apply setArb_keeps | with_reducible apply bankDecide_keeps | with_reducible apply egressDecide_keeps | with_reducible apply logCut_keeps | with_reducible refine sameStacks_keeps ?_ rfl rfl rfl | with_reducible refine act_keeps ?_ | split

theorem execWcbTimeout_keeps (s : State) (stack : BitVec 4) (granule : BitVec 40) (found : List Flaw) : Out.Keeps s (execWcbTimeout stack granule found s) := by
  unfold execWcbTimeout
  exact act_keeps (setMem_keeps (fun x => wcbOut_ok x _ _) (strikeAll_keeps (State.Keeps.refl s) _))

end Sys2Proof.Machine
end

