-- ==== Sys2Proof/Laws/KeepsRooms.lean ====
section
/-! SUPPORT. What every operation of these files keeps: Prog, Operands, Flags, Sched, Runs, RoomOps, Hearth, Xfer, Matrix, Vector, Row, Issue, Ituno. -/

namespace Sys2Proof.Machine

set_option linter.unusedVariables false
set_option linter.unusedTactic false
set_option linter.unreachableTactic false

/-! ### Prog -/

/-! ### Operands -/

theorem setDesc_keeps {s₀ : State} {s : State} (h : s₀.Keeps s) (p : Nat) (h : Nat) (d : Desc) : s₀.Keeps (setDesc s p h d) := by
  unfold setDesc
  repeat' first | with_reducible assumption | with_reducible apply updSched_keeps

theorem touchElems_keeps {s₀ : State} {s : State} (h : s₀.Keeps s) (d : Desc) (ns : List Nat) : s₀.Keeps (touchElems s d ns) := by
  unfold touchElems
  repeat' first | with_reducible assumption | with_reducible exact State.Keeps.refl _ | with_reducible apply touch_keeps | with_reducible refine foldl_keeps (fun _ _ => ?_) ?_

theorem beginStore_keeps {s₀ : State} {s : State} (h : s₀.Keeps s) (n : Nat) (q : Nat) : s₀.Keeps (beginStore s n q) := by
  unfold beginStore
  repeat' first | with_reducible assumption | with_reducible exact State.Keeps.refl _ | fail_if_no_progress extract_lets | with_reducible apply updSched_keeps | split | fail_if_no_progress with_reducible refine State.Keeps.lit ?_ (Nat.le_refl _) (Nat.le_refl _)

theorem endStore_keeps {s₀ : State} {s : State} (h : s₀.Keeps s) (p : Nat) : s₀.Keeps (endStore s p) := by
  unfold endStore
  repeat' first | with_reducible assumption | with_reducible exact State.Keeps.refl _ | fail_if_no_progress extract_lets | with_reducible apply updSched_keeps | split | fail_if_no_progress with_reducible refine State.Keeps.lit ?_ (Nat.le_refl _) (Nat.le_refl _)

theorem storeUnhidden_keeps {s₀ : State} {s : State} (h : s₀.Keeps s) (n : Nat) (seq : Nat) (a : Nat) (bs : List Byte) (po : Bool) : s₀.Keeps (storeUnhidden s n seq a bs po) := by
  unfold storeUnhidden
  extract_lets x0
  repeat' first | with_reducible assumption | with_reducible exact State.Keeps.refl _ | fail_if_no_progress extract_lets | with_reducible apply storeBytes_keeps | with_reducible refine foldl_keeps (fun _ _ => ?_) ?_ | with_reducible refine ite_keeps ?_ ?_ | split | fail_if_no_progress with_reducible refine State.Keeps.lit ?_ (Nat.le_refl _) (Nat.le_refl _) | dsimp +zetaDelta only

theorem hideEarlier_keeps {s₀ : State} {s : State} (h : s₀.Keeps s) (n : Nat) (seq : Nat) (a : Nat) (len : Nat) : s₀.Keeps (hideEarlier s n seq a len) := by
  unfold hideEarlier
  extract_lets x0
  repeat' first | with_reducible assumption | with_reducible exact State.Keeps.refl _ | fail_if_no_progress extract_lets | with_reducible apply updSched_keeps | split | fail_if_no_progress with_reducible refine State.Keeps.lit ?_ (Nat.le_refl _) (Nat.le_refl _) | dsimp +zetaDelta only

theorem streamStore_keeps {s₀ : State} {s : State} (h : s₀.Keeps s) (p : Nat) (a : Nat) (bs : List Byte) (po : Bool) : s₀.Keeps (streamStore s p a bs po) := by
  unfold streamStore
  repeat' first | with_reducible assumption | with_reducible exact State.Keeps.refl _ | fail_if_no_progress extract_lets | with_reducible apply storeBytes_keeps | with_reducible apply storeUnhidden_keeps | with_reducible apply hideEarlier_keeps | split | fail_if_no_progress with_reducible refine State.Keeps.lit ?_ (Nat.le_refl _) (Nat.le_refl _)

theorem drainSink_keeps {s₀ : State} {s : State} (h : s₀.Keeps s) (p : Nat) (d : Desc) (k : Sink) : s₀.Keeps (drainSink s p d k) := by
  unfold drainSink
  extract_lets x0 x1
  have h0 : s₀.Keeps x0 := by
    unfold x0
    repeat' first | with_reducible assumption | with_reducible exact State.Keeps.refl _ | with_reducible apply streamStore_keeps | with_reducible refine foldl_keeps (fun _ _ => ?_) ?_
  clear_value x0
  have h1 : s₀.Keeps x1 := by
    unfold x1
    repeat' first | with_reducible assumption | with_reducible apply updSched_keeps | split
  clear_value x1
  repeat' first | with_reducible assumption | with_reducible apply updSched_keeps | split

theorem writeElems_keeps {s₀ : State} {s : State} (h : s₀.Keeps s) (p : Nat) (d : Desc) (dst : Int) (src : Int) (rm : Rm) (ns : List Nat) (vs : List (Num × Bool)) : s₀.Keeps (writeElems s p d dst src rm ns vs).1 := by
  unfold writeElems
  repeat' first | with_reducible assumption | with_reducible apply drainSink_keeps | split

theorem moveElems_keeps {s₀ : State} {s : State} (h : s₀.Keeps s) (p : Nat) (d : Desc) (ns : List Nat) (vs : List (Nat × Bool)) : s₀.Keeps (moveElems s p d ns vs).1 := by
  unfold moveElems
  repeat' first | with_reducible assumption | with_reducible apply drainSink_keeps | split

theorem prepass_keeps {s₀ : State} {s : State} (h : s₀.Keeps s) (p : Nat) (regs : Tbl ScaleReg) (d : Desc) (src : Int) (vs : List (Num × Bool)) : s₀.Keeps (prepass s p regs d src vs).1 := by
  unfold prepass
  repeat' first | with_reducible assumption | with_reducible apply updSched_keeps | split | dsimp +zetaDelta only

theorem convertInto_keeps {s₀ : State} {s : State} (h : s₀.Keeps s) (p : Nat) (regs : Tbl ScaleReg) (d : Desc) (src : Int) (ns : List Nat) (vs : List (Num × Bool)) : s₀.Keeps (convertInto s p regs d src ns vs).1 := by
  unfold convertInto
  repeat' first | with_reducible assumption | with_reducible apply writeElems_keeps | with_reducible apply prepass_keeps

/-! ### Flags -/

theorem orExcsum_keeps {s₀ : State} {s : State} (h : s₀.Keeps s) (p : Nat) (h : Nat) (f : Flags) : s₀.Keeps (orExcsum s p h f) := by
  unfold orExcsum
  repeat' first | with_reducible assumption | with_reducible apply setDesc_keeps | split

/-! ### Sched -/

theorem consume_keeps {s₀ : State} {s : State} (h : s₀.Keeps s) (n : Nat) (e : Entry) : s₀.Keeps (consume s n e) := by
  unfold consume
  extract_lets x0
  have h0 : s₀.Keeps x0 := by
    unfold x0
    repeat' first | with_reducible assumption | with_reducible apply updRing_keeps
  clear_value x0
  repeat' first | with_reducible assumption | with_reducible apply fetchMore_keeps

theorem enter_keeps {s₀ : State} {s : State} (h : s₀.Keeps s) (n : Nat) (e : Entry) (o : Op) : s₀.Keeps (enter s n e o) := by
  unfold enter
  extract_lets x0 x1 x2 x3 x4
  have h1 : s₀.Keeps x1 := by
    unfold x1
    repeat' first | with_reducible assumption | with_reducible apply consume_keeps
  clear_value x1
  have h2 : s₀.Keeps x2 := by
    unfold x2
    repeat' first | with_reducible assumption | with_reducible apply beginStep_keeps | split
  clear_value x2
  have h3 : s₀.Keeps x3 := by
    unfold x3
    repeat' first | with_reducible assumption | with_reducible apply updSched_keeps
  clear_value x3
  have h4 : s₀.Keeps x4 := by
    unfold x4
    repeat' first | with_reducible assumption | with_reducible apply updRing_keeps
  clear_value x4
  repeat' first | with_reducible assumption | with_reducible apply retire_keeps | with_reducible apply settleOverrun_keeps | with_reducible apply runOrIdle_keeps

theorem rejectEntry_keeps {s₀ : State} {s : State} (h : s₀.Keeps s) (n : Nat) (e : Entry) (f : FaultInfo) : s₀.Keeps (rejectEntry s n e f) := by
  unfold rejectEntry
  extract_lets x0 x1 x2
  have h0 : s₀.Keeps x0 := by
    unfold x0
    repeat' first | with_reducible assumption | with_reducible apply haltRing_keeps
  clear_value x0
  have h1 : s₀.Keeps x1 := by
    unfold x1
    repeat' first | with_reducible assumption | with_reducible apply consume_keeps
  clear_value x1
  have h2 : s₀.Keeps x2 := by
    unfold x2
    repeat' first | with_reducible assumption | with_reducible apply updRing_keeps
  clear_value x2
  repeat' first | with_reducible assumption | with_reducible apply retire_keeps

/-- The dispatch of a head entry keeps what its effect keeps. -/
theorem dispatchHead_keeps {n : Nat} {want : State → Op → Ask → Bool} {k : Plan} {s : State} (h : ∀ n o, s.Keeps (k.go s n o).1)
    (hr : ∀ n o, s.Keeps (k.reject s n o) := by intro _ _; exact State.Keeps.refl _) :
    Out.Keeps s (dispatchHead n want k s) := by
  unfold dispatchHead
  split
  · exact next_keeps (State.Keeps.refl s)
  · split
    · exact next_keeps (rejectEntry_keeps (State.Keeps.refl s) _ _ _)
    · extract_lets o
      split
      · exact next_keeps (State.Keeps.refl s)
      · split
        · exact next_keeps (rejectEntry_keeps (State.Keeps.refl s) _ _ _)
        · exact next_keeps (rejectEntry_keeps (hr n o) _ _ _)
        · exact next_keeps (enter_keeps (h n o) _ _ _)

theorem raiseAll_keeps {s₀ : State} {s : State} (h : s₀.Keeps s) (p : Nat) (o : Op) : s₀.Keeps (raiseAll s p o) := by
  unfold raiseAll
  repeat' first | with_reducible assumption | with_reducible exact State.Keeps.refl _ | with_reducible apply orExcsum_keeps | with_reducible refine foldl_keeps (fun _ _ => ?_) ?_ | split

theorem advanceRegs_keeps {s₀ : State} {s : State} (h : s₀.Keeps s) (n : Nat) (o : Op) : s₀.Keeps (advanceRegs s n o) := by
  unfold advanceRegs
  repeat' first | with_reducible assumption | with_reducible exact State.Keeps.refl _ | with_reducible apply updSched_keeps | with_reducible refine each_keeps (fun _ _ => ?_) ?_

theorem advanceAtFence_keeps {s₀ : State} {s : State} (h : s₀.Keeps s) (n : Nat) : s₀.Keeps (advanceAtFence s n) := by
  unfold advanceAtFence
  repeat' first | with_reducible assumption | with_reducible apply updSched_keeps

theorem markRewritten_keeps {s₀ : State} {s : State} (h : s₀.Keeps s) (p : Nat) (h : Nat) : s₀.Keeps (markRewritten s p h) := by
  unfold markRewritten
  repeat' first | with_reducible assumption | with_reducible exact State.Keeps.refl _ | with_reducible apply updRing_keeps | with_reducible refine each_keeps (fun _ _ => ?_) ?_

theorem endBatch_keeps {s₀ : State} {s : State} (h : s₀.Keeps s) (p : Nat) (o : Op) : s₀.Keeps (endBatch s p o) := by
  unfold endBatch
  repeat' first | with_reducible assumption | with_reducible exact State.Keeps.refl _ | with_reducible apply updSched_keeps | with_reducible refine each_keeps (fun _ _ => ?_) ?_ | split

theorem endStep_keeps {s₀ : State} {s : State} (h : s₀.Keeps s) (n : Nat) : s₀.Keeps (endStep s n) := by
  unfold endStep
  repeat' first | with_reducible assumption | with_reducible apply updRing_keeps | with_reducible apply beginStep_keeps | split

theorem finishOp_keeps {s₀ : State} {s : State} (h : s₀.Keeps s) (n : Nat) (o : Op) : s₀.Keeps (finishOp s n o) := by
  unfold finishOp
  extract_lets x0 x1 x2 x3 x4 x5 x6 x7
  have h1 : s₀.Keeps x1 := by
    unfold x1
    repeat' first | with_reducible assumption | with_reducible apply raiseAll_keeps | with_reducible apply advanceRegs_keeps
  clear_value x1
  have h2 : s₀.Keeps x2 := by
    unfold x2
    repeat' first | with_reducible assumption | with_reducible apply markRewritten_keeps | split
  clear_value x2
  have h3 : s₀.Keeps x3 := by
    unfold x3
    repeat' first | with_reducible assumption | with_reducible apply endBatch_keeps
  clear_value x3
  have h4 : s₀.Keeps x4 := by
    unfold x4
    repeat' first | with_reducible assumption | with_reducible apply updOp_keeps
  clear_value x4
  have h5 : s₀.Keeps x5 := by
    unfold x5
    repeat' first | with_reducible assumption | with_reducible apply updRing_keeps
  clear_value x5
  have h6 : s₀.Keeps x6 := by
    unfold x6
    exact updSched_keeps h5 _ _
  clear_value x6
  have h7 : s₀.Keeps x7 := by
    unfold x7
    exact ite_keeps (endStep_keeps h6 n) h6
  clear_value x7
  repeat' first | with_reducible assumption | with_reducible apply retire_keeps | with_reducible apply runOrIdle_keeps

theorem execMicroBatchEnd_keeps (s : State) (p : BitVec 2) : Out.Keeps s (execMicroBatchEnd p s) := by
  unfold execMicroBatchEnd
  repeat' first | with_reducible exact State.Keeps.refl _ | with_reducible apply updSched_keeps | with_reducible refine each_keeps (fun _ _ => ?_) ?_ | with_reducible refine act_keeps ?_

theorem execNoOp_keeps (s : State) (ring : BitVec 6) : Out.Keeps s (execNoOp ring s) := by
  unfold execNoOp
  repeat' first | with_reducible exact State.Keeps.refl _ | with_reducible apply dispatchHead_keeps | intro _ _

theorem execFence_keeps (s : State) (ring : BitVec 6) : Out.Keeps s (execFence ring s) := by
  unfold execFence
  repeat' first | with_reducible exact State.Keeps.refl _ | with_reducible apply dispatchHead_keeps | intro _ _

theorem releaseHitch_keeps {s₀ : State} {s : State} (h : s₀.Keeps s) (p : Nat) (k : Nat) (h : Hitch) : s₀.Keeps (releaseHitch s p k h) := by
  unfold releaseHitch
  extract_lets x0
  have h0 : s₀.Keeps x0 := by
    unfold x0
    repeat' first | with_reducible assumption | with_reducible apply setHitch_keeps
  clear_value x0
  repeat' first | with_reducible assumption | with_reducible exact State.Keeps.refl _ | with_reducible apply finishOp_keeps | with_reducible refine each_keeps (fun _ _ => ?_) ?_ | split

theorem arrive_keeps {s₀ : State} {s : State} (h : s₀.Keeps s) (n : Nat) (o : Op) : s₀.Keeps (arrive s n o) := by
  unfold arrive
  extract_lets x0 x1 x2 x3
  have h3 : s₀.Keeps x3 := by
    unfold x3
    repeat' first | with_reducible assumption | with_reducible apply updOp_keeps
  clear_value x3
  repeat' first | with_reducible assumption | with_reducible exact State.Keeps.refl _ | with_reducible apply setHitch_keeps | with_reducible apply haltWaiter_keeps | with_reducible apply breakHitches_keeps | with_reducible apply releaseHitch_keeps | with_reducible refine each_keeps (fun _ _ => ?_) ?_ | split

theorem passFence_keeps {s₀ : State} {s : State} (h : s₀.Keeps s) (n : Nat) (o : Op) : s₀.Keeps (passFence s n o) := by
  unfold passFence
  repeat' first | with_reducible assumption | with_reducible apply updRing_keeps | with_reducible apply faultOp_keeps | with_reducible apply advanceAtFence_keeps | with_reducible apply finishOp_keeps | with_reducible apply arrive_keeps | split

theorem execFenceComplete_keeps (s : State) (ring : BitVec 6) : Out.Keeps s (execFenceComplete ring s) := by
  unfold execFenceComplete
  repeat' first | with_reducible exact State.Keeps.refl _ | with_reducible apply passFence_keeps | with_reducible refine act_keeps ?_ | with_reducible refine next_keeps ?_ | split | dsimp +zetaDelta only

theorem execHitch_keeps (ring : BitVec 6) (s : State) : Out.Keeps s (execHitch ring s) := by
  unfold execHitch
  extract_lets n quiet
  obtain ⟨t, ht, hk⟩ : Out.Keeps s (dispatchHead n (wantOpc 2)
    { check := fun _ n o => if o.hitchMask.getLsbD (n % 16) then none else some (stopAt o 0 0x0A0E)
      go := fun s _ o => (s, o) } s) := dispatchHead_keeps fun _ _ => State.Keeps.refl s
  rw [ht]
  dsimp only
  split
  · split
    · exact next_keeps (passFence_keeps hk _ _)
    · exact next_keeps hk
  · exact next_keeps hk

theorem applyDwrite_keeps {s₀ : State} {s : State} (h : s₀.Keeps s) (p : Nat) (h : Nat) (d : Desc) : s₀.Keeps (applyDwrite s p h d) := by
  unfold applyDwrite
  extract_lets x0 x1 x2 x3
  have h3 : s₀.Keeps x3 := by
    unfold x3
    repeat' first | with_reducible assumption | with_reducible apply updSched_keeps
  clear_value x3
  repeat' first | with_reducible assumption | with_reducible apply setDesc_keeps

theorem endDwrite_keeps {s : State} {x : Out} (h : Out.Keeps s x) (n : Nat) : Out.Keeps s (endDwrite n x) := by
  obtain ⟨t, rfl, ht⟩ := h
  unfold endDwrite
  dsimp only
  split
  · exact next_keeps (finishOp_keeps ht _ _)
  · exact next_keeps ht

theorem execDwrite_keeps (s : State) (ring : BitVec 6) : Out.Keeps s (execDwrite ring s) := by
  unfold execDwrite
  refine endDwrite_keeps ?_ _
  repeat' first | with_reducible exact State.Keeps.refl _ | with_reducible apply touch_keeps | with_reducible apply dispatchHead_keeps | with_reducible apply applyDwrite_keeps | intro _ _ | split | dsimp +zetaDelta only

theorem execStashUpdate_keeps (s : State) (ring : BitVec 6) : Out.Keeps s (execStashUpdate ring s) := by
  unfold execStashUpdate
  repeat' first | with_reducible exact State.Keeps.refl _ | with_reducible apply updOp_keeps | with_reducible apply faultOp_keeps | with_reducible apply finishOp_keeps | with_reducible apply applyDwrite_keeps | with_reducible refine act_keeps ?_ | with_reducible refine next_keeps ?_ | split | dsimp +zetaDelta only

theorem setScale_keeps {s₀ : State} {s : State} (h : s₀.Keeps s) (p : Nat) (i : Nat) (r : ScaleReg) : s₀.Keeps (setScale s p i r) := by
  unfold setScale
  repeat' first | with_reducible assumption | with_reducible apply updSched_keeps

theorem execSwrite_keeps (s : State) (ring : BitVec 6) : Out.Keeps s (execSwrite ring s) := by
  unfold execSwrite
  repeat' first | with_reducible exact State.Keeps.refl _ | with_reducible apply touch_keeps | with_reducible apply dispatchHead_keeps | with_reducible apply setScale_keeps | intro _ _ | split | dsimp +zetaDelta only

theorem execSread_keeps (s : State) (ring : BitVec 6) : Out.Keeps s (execSread ring s) := by
  unfold execSread
  repeat' first | with_reducible exact State.Keeps.refl _ | with_reducible apply hideEarlier_keeps | with_reducible apply storeBytes_keeps | with_reducible apply dispatchHead_keeps | intro _ _

theorem execHread_keeps (s : State) (ring : BitVec 6) : Out.Keeps s (execHread ring s) := by
  unfold execHread
  repeat' first | with_reducible exact State.Keeps.refl _ | with_reducible apply hideEarlier_keeps | with_reducible apply storeBytes_keeps | with_reducible apply dispatchHead_keeps | intro _ _

theorem execHclear_keeps (s : State) (ring : BitVec 6) : Out.Keeps s (execHclear ring s) := by
  unfold execHclear
  repeat' first | with_reducible exact State.Keeps.refl _ | with_reducible apply updSched_keeps | with_reducible apply dispatchHead_keeps | intro _ _

/-! ### Runs -/

theorem dropProgram_keeps {s₀ : State} {s : State} (h : s₀.Keeps s) (p : Nat) (k : Nat) : s₀.Keeps (dropProgram s p k) := by
  unfold dropProgram
  repeat' first | with_reducible assumption | with_reducible apply updSched_keeps

theorem startLoad_keeps {s₀ : State} {s : State} (h : s₀.Keeps s) (n : Nat) (o : Op) : s₀.Keeps (startLoad s n o) := by
  unfold startLoad
  extract_lets x0 x1 x2 img x3
  have h1 : s₀.Keeps x1 := dropProgram_keeps h _ _
  clear_value x1
  have h3 : s₀.Keeps x3 := touch_keeps h1 _ _
  clear_value x3
  repeat' first | with_reducible assumption | with_reducible apply updSched_keeps | with_reducible apply takeFree_keeps | with_reducible apply updOp_keeps | with_reducible apply faultOp_keeps | split

theorem endUnload_keeps {s₀ : State} {s : State} (h : s₀.Keeps s) (n : Nat) (o : Op) : s₀.Keeps (endUnload s n o) := by
  unfold endUnload
  repeat' first | with_reducible assumption | with_reducible apply updOp_keeps | with_reducible apply dropProgram_keeps

theorem execLoadp_keeps (s : State) (ring : BitVec 6) : Out.Keeps s (execLoadp ring s) := by
  unfold execLoadp
  repeat' first | with_reducible exact State.Keeps.refl _ | with_reducible apply dispatchHead_keeps | with_reducible apply startLoad_keeps | with_reducible apply dropProgram_keeps | intro _ _ | with_reducible refine act_keeps ?_ | split | dsimp +zetaDelta only

theorem execTranslationComplete_keeps (s : State) (ring : BitVec 6) (seq : BitVec 64) : Out.Keeps s (execTranslationComplete ring seq s) := by
  unfold execTranslationComplete
  repeat' first | with_reducible exact State.Keeps.refl _ | with_reducible apply updSched_keeps | with_reducible apply updRoom_keeps | with_reducible apply updOp_keeps | with_reducible refine each_keeps (fun _ _ => ?_) ?_ | with_reducible refine act_keeps ?_ | with_reducible refine next_keeps ?_ | split | dsimp +zetaDelta only

theorem execUnloadp_keeps (s : State) (ring : BitVec 6) : Out.Keeps s (execUnloadp ring s) := by
  unfold execUnloadp
  repeat' first | with_reducible exact State.Keeps.refl _ | with_reducible apply dispatchHead_keeps | with_reducible apply endUnload_keeps | intro _ _ | with_reducible refine act_keeps ?_ | split | dsimp +zetaDelta only

theorem runSlots_keeps {s₀ : State} {s : State} (h : s₀.Keeps s) (p : Nat) (o : Op) : s₀.Keeps (runSlots s p o) := by
  unfold runSlots
  repeat' first | with_reducible assumption | with_reducible exact State.Keeps.refl _ | with_reducible apply updSched_keeps | with_reducible refine each_keeps (fun _ _ => ?_) ?_ | split

theorem startRun_keeps {s₀ : State} {s : State} (h : s₀.Keeps s) (n : Nat) (o : Op) : s₀.Keeps (startRun s n o).1 := by
  unfold startRun
  extract_lets x0
  repeat' first | with_reducible assumption | with_reducible apply runSlots_keeps | with_reducible apply touch_keeps | split

theorem execRun_keeps (s : State) (ring : BitVec 6) : Out.Keeps s (execRun ring s) := by
  unfold execRun
  repeat' first | with_reducible exact State.Keeps.refl _ | with_reducible apply dispatchHead_keeps | with_reducible apply startRun_keeps | exact fun _ _ => State.Keeps.refl _

/-! ### RoomOps -/

theorem roomStores_keeps {s₀ s : State} (h : s₀.Keeps s) (n : Nat) {f : State → State} (hf : ∀ x, s₀.Keeps x → s₀.Keeps (f x)) :
    s₀.Keeps (s.roomStores n f) := by
  unfold State.roomStores
  split
  · exact endStore_keeps (hf _ (beginStore_keeps h _ _)) _
  · exact hf _ h

theorem raiseThrough_keeps {s₀ : State} {s : State} (h : s₀.Keeps s) (n : Nat) (b : Nat) (f : Flags) : s₀.Keeps (raiseThrough s n b f) := by
  unfold raiseThrough
  repeat' first | with_reducible assumption | with_reducible apply updOp_keeps | split

theorem foldMax_keeps {s₀ : State} {s : State} (h : s₀.Keeps s) (p : Nat) (o : Op) (r : Room) : s₀.Keeps (foldMax s p o r) := by
  unfold foldMax
  repeat' first | with_reducible assumption | with_reducible exact State.Keeps.refl _ | with_reducible apply updSched_keeps | with_reducible refine each_keeps (fun _ _ => ?_) ?_

theorem execShareComplete_keeps (s : State) (room : BitVec 7) : Out.Keeps s (execShareComplete room s) := by
  unfold execShareComplete
  repeat' first | with_reducible exact State.Keeps.refl _ | with_reducible apply updRoom_keeps | with_reducible apply updOp_keeps | with_reducible apply foldMax_keeps | with_reducible refine act_keeps ?_ | with_reducible refine next_keeps ?_ | split | dsimp +zetaDelta only

/-! ### Hearth -/

/-! ### Xfer -/

theorem touchOffsets_keeps {s₀ : State} {s : State} (h : s₀.Keeps s) (d : Desc) (os : List Int) : s₀.Keeps (touchOffsets s d os) := by
  unfold touchOffsets
  repeat' first | with_reducible assumption | with_reducible exact State.Keeps.refl _ | with_reducible apply touch_keeps | with_reducible refine foldl_keeps (fun _ _ => ?_) ?_

theorem loadNote_keeps {t s : State} (h : t.Keeps s) (n : Nat) (f : Flags) : t.Keeps (loadTile.note s n f) := by
  unfold loadTile.note
  split
  · exact updOp_keeps h _ _ _
  · exact h

theorem loadTile_keeps {t s : State} (h : t.Keeps s) (n : Nat) (o : Pend) (w : XSlot) : t.Keeps (loadTile s n o w) := by
  unfold loadTile
  repeat' first | with_reducible assumption | with_reducible apply updRoom_keeps | with_reducible apply touchOffsets_keeps | with_reducible apply loadNote_keeps | split

theorem loadWindow_keeps {t s : State} (h : t.Keeps s) (n : Nat) (o : Pend) (w : XSlot) : t.Keeps (loadWindow s n o w) := by
  unfold loadWindow
  repeat' first | with_reducible assumption | with_reducible apply updRoom_keeps | with_reducible apply touchOffsets_keeps | with_reducible apply loadNote_keeps | split

theorem transposeTile_keeps {s₀ : State} {s : State} (h : s₀.Keeps s) (n : Nat) (w : XSlot) : s₀.Keeps (transposeTile s n w) := by
  unfold transposeTile
  repeat' first | with_reducible assumption | with_reducible apply updRoom_keeps

theorem roomPrepass_keeps {s₀ : State} {s : State} (h : s₀.Keeps s) (n : Nat) (d : Desc) : s₀.Keeps (roomPrepass s n d).1 := by
  unfold roomPrepass
  extract_lets x0
  repeat' first | with_reducible assumption | with_reducible apply takeFree_keeps | with_reducible apply setScale_keeps | split

theorem storeCells_keeps {s₀ : State} {s : State} (h : s₀.Keeps s) (n : Nat) (b : Nat) (d : Desc) (src : Int) (os : List Int) (vs : List (Num × Bool)) (own : Flags) : s₀.Keeps (storeCells s n b d src os vs own) := by
  unfold storeCells
  extract_lets x0
  repeat' first | with_reducible assumption | with_reducible apply drainSink_keeps | with_reducible apply raiseThrough_keeps | with_reducible apply roomPrepass_keeps

theorem storeRaw_keeps {s₀ : State} {s : State} (h : s₀.Keeps s) (n : Nat) (b : Nat) (d : Desc) (os : List Int) (vs : List (Nat × Bool)) : s₀.Keeps (storeRaw s n b d os vs) := by
  unfold storeRaw
  extract_lets x0
  have h0 : s₀.Keeps x0 := by
    unfold x0
    exact foldl_keeps (fun x e => streamStore_keeps (State.Keeps.refl x) _ _ _ _) h
  clear_value x0
  repeat' first | with_reducible assumption | with_reducible apply raiseThrough_keeps

theorem storeTile_keeps {s₀ : State} {s : State} (h : s₀.Keeps s) (n : Nat) (o : Pend) (w : XSlot) : s₀.Keeps (storeTile s n o w) := by
  unfold storeTile
  repeat' first | with_reducible assumption | with_reducible apply storeCells_keeps | with_reducible apply storeRaw_keeps | with_reducible apply raiseThrough_keeps | split | dsimp +zetaDelta only

/-! ### Matrix -/

theorem execMatrixResult_keeps (s : State) (room : BitVec 7) : Out.Keeps s (execMatrixResult room s) := by
  unfold execMatrixResult
  repeat' first | with_reducible exact State.Keeps.refl _ | with_reducible apply updRoom_keeps | with_reducible refine act_keeps ?_ | with_reducible refine next_keeps ?_ | split | dsimp +zetaDelta only

/-! ### Vector -/

theorem vgath_keeps {t s : State} (h : t.Keeps s) (n : Nat) (o : Pend) (w : VSlot) : t.Keeps (vgath s n o w) := by
  unfold vgath
  repeat' first | with_reducible assumption | with_reducible apply updRoom_keeps | with_reducible apply loadNote_keeps | with_reducible refine foldl_keeps (fun _ _ => ?_) ?_ | with_reducible apply touch_keeps | with_reducible exact State.Keeps.refl _ | split | dsimp +zetaDelta only

theorem countScat_keeps {s₀ : State} {s : State} (h : s₀.Keeps s) (p : Nat) (d : Desc) (x : Num) (po : Bool) : s₀.Keeps (countScat s p d x po) := by
  unfold countScat
  repeat' first | with_reducible assumption | with_reducible exact State.Keeps.refl _ | fail_if_no_progress extract_lets | with_reducible apply updSched_keeps | with_reducible refine ite_keeps ?_ ?_ | split | fail_if_no_progress with_reducible refine State.Keeps.lit ?_ (Nat.le_refl _) (Nat.le_refl _)

theorem vscat_keeps {t s : State} (h : t.Keeps s) (n : Nat) (o : Pend) (w : VSlot) : t.Keeps (vscat s n o w) := by
  unfold vscat
  extract_lets r f src p d els
  clear_value src
  refine updRoom_keeps ?_ _ _
  exact foldl_fst_keeps (fun a x => countScat_keeps (streamStore_keeps (State.Keeps.refl a.1) _ _ _ _) _ _ _ _) h

/-! ### Row -/

theorem rowCommand_keeps (s : State) (room : BitVec 7) (sub : Nat) : Out.Keeps s (rowCommand room sub s) := by
  unfold rowCommand
  repeat' first | with_reducible exact State.Keeps.refl _ | with_reducible apply updRoom_keeps | with_reducible refine act_keeps ?_ | with_reducible refine next_keeps ?_ | split | dsimp +zetaDelta only

theorem execNorm_keeps (s : State) (room : BitVec 7) : Out.Keeps s (execNorm room s) := by
  unfold execNorm
  repeat' first | with_reducible apply rowCommand_keeps

theorem execRms_keeps (s : State) (room : BitVec 7) : Out.Keeps s (execRms room s) := by
  unfold execRms
  repeat' first | with_reducible apply rowCommand_keeps

theorem execSmax_keeps (s : State) (room : BitVec 7) : Out.Keeps s (execSmax room s) := by
  unfold execSmax
  repeat' first | with_reducible apply rowCommand_keeps

theorem execNormb_keeps (s : State) (room : BitVec 7) : Out.Keeps s (execNormb room s) := by
  unfold execNormb
  repeat' first | with_reducible apply rowCommand_keeps

theorem execRmsb_keeps (s : State) (room : BitVec 7) : Out.Keeps s (execRmsb room s) := by
  unfold execRmsb
  repeat' first | with_reducible apply rowCommand_keeps

theorem execSmaxb_keeps (s : State) (room : BitVec 7) : Out.Keeps s (execSmaxb room s) := by
  unfold execSmaxb
  repeat' first | with_reducible apply rowCommand_keeps

/-! ### Issue -/

theorem roomFound_keeps {s₀ : State} {s : State} (h : s₀.Keeps s) (n : Nat) (c : RoomCheck) : s₀.Keeps (roomFound s n c) := by
  unfold roomFound
  repeat' first | with_reducible assumption | with_reducible exact State.Keeps.refl _ | fail_if_no_progress extract_lets | with_reducible apply updRoom_keeps | with_reducible apply logEvent_keeps | with_reducible apply memEvent_keeps | with_reducible apply noteCorrected_keeps | with_reducible apply noteUncorrectable_keeps | with_reducible refine ite_keeps ?_ ?_ | split | fail_if_no_progress with_reducible refine State.Keeps.lit ?_ (Nat.le_refl _) (Nat.le_refl _) | dsimp +zetaDelta only

theorem releaseMatrix_keeps {s₀ : State} {s : State} (h : s₀.Keeps s) (n : Nat) : s₀.Keeps (releaseMatrix s n) := by
  unfold releaseMatrix
  repeat' first | with_reducible assumption | with_reducible apply updRoom_keeps

theorem releaseVector_keeps {s₀ : State} {s : State} (h : s₀.Keeps s) (n : Nat) : s₀.Keeps (releaseVector s n) := by
  unfold releaseVector
  extract_lets x0
  repeat' first | with_reducible assumption | with_reducible apply updRoom_keeps | with_reducible apply roomFault_keeps | with_reducible apply vgath_keeps | with_reducible refine roomStores_keeps ?_ _ (fun _ _ => ?_) | with_reducible apply vscat_keeps | split | dsimp +zetaDelta only

theorem releaseRow_keeps {s₀ : State} {s : State} (h : s₀.Keeps s) (n : Nat) : s₀.Keeps (releaseRow s n) := by
  unfold releaseRow
  repeat' first | with_reducible assumption | with_reducible apply updRoom_keeps

theorem releaseLoad_keeps {s₀ : State} {s : State} (h : s₀.Keeps s) (n : Nat) : s₀.Keeps (releaseLoad s n) := by
  unfold releaseLoad
  extract_lets x0
  repeat' first | with_reducible assumption | with_reducible apply updRoom_keeps | with_reducible apply roomFault_keeps | with_reducible apply loadTile_keeps | with_reducible apply loadWindow_keeps | with_reducible apply transposeTile_keeps | split | dsimp +zetaDelta only

theorem releaseStore_keeps {s₀ : State} {s : State} (h : s₀.Keeps s) (n : Nat) : s₀.Keeps (releaseStore s n) := by
  unfold releaseStore
  repeat' first | with_reducible assumption | with_reducible apply updRoom_keeps | with_reducible refine roomStores_keeps ?_ _ (fun _ _ => ?_) | with_reducible apply storeTile_keeps | split | dsimp +zetaDelta only

theorem releaseFrom_keeps {s₀ : State} {s : State} (h : s₀.Keeps s) (n : Nat) (eng : Engine) : s₀.Keeps (releaseFrom s n eng) := by
  unfold releaseFrom
  repeat' first | with_reducible apply releaseMatrix_keeps | with_reducible apply releaseVector_keeps | with_reducible apply releaseRow_keeps | with_reducible apply releaseLoad_keeps | with_reducible apply releaseStore_keeps | with_reducible assumption | split

theorem dropHead_keeps {s₀ : State} {s : State} (h : s₀.Keeps s) (n : Nat) (e : Engine) : s₀.Keeps (dropHead s n e) := by
  unfold dropHead
  repeat' first | with_reducible assumption | with_reducible exact State.Keeps.refl _ | fail_if_no_progress extract_lets | with_reducible apply updRoom_keeps | split | fail_if_no_progress with_reducible refine State.Keeps.lit ?_ (Nat.le_refl _) (Nat.le_refl _)

theorem finishRoom_keeps {s₀ s : State} (h : s₀.Keeps s) (k n : Nat) : s₀.Keeps (finishRoom k s n) := by
  induction k generalizing s with
  | zero => exact h
  | succ k ih =>
    unfold finishRoom
    split
    · exact ih (ite_keeps (dropHead_keeps h _ _) (releaseFrom_keeps (updRoom_keeps h _ _) _ _))
    · exact h

theorem roomFault_keeps {s₀ : State} {s : State} (h : s₀.Keeps s) (n : Nat) (cause : U16) (station : Nat) (elem : Nat) (refused : Option Nat) : s₀.Keeps (roomFault s n cause station elem refused) := by
  unfold roomFault
  repeat' first | with_reducible assumption | with_reducible refine each_keeps (fun _ _ => finishRoom_keeps (State.Keeps.refl _) _ _) ?_ | with_reducible apply takeFree_keeps | with_reducible apply faultOp_keeps | split

theorem endHead_keeps {s₀ : State} {s : State} (h : s₀.Keeps s) (n : Nat) (e : Engine) : s₀.Keeps (endHead s n e) := by
  unfold endHead
  repeat' first | with_reducible assumption | with_reducible exact State.Keeps.refl _ | fail_if_no_progress extract_lets | with_reducible apply roomFault_keeps | with_reducible apply releaseFrom_keeps | with_reducible refine ite_keeps ?_ ?_ | split | fail_if_no_progress with_reducible refine State.Keeps.lit ?_ (Nat.le_refl _) (Nat.le_refl _)

theorem execAccessRelease_keeps (s : State) (room : BitVec 7) (eng : Engine) (found : List Flaw) : Out.Keeps s (execAccessRelease room eng found s) := by
  unfold execAccessRelease
  exact act_keeps (endHead_keeps (strikeAll_keeps (State.Keeps.refl s) _) _ _)

theorem roomStep_keeps {s₀ : State} {s : State} (h : s₀.Keeps s) (n : Nat) : s₀.Keeps (roomStep s n) := by
  unfold roomStep
  extract_lets x0 x1 x2
  repeat' first | with_reducible assumption | with_reducible apply updRoom_keeps | with_reducible apply roomFault_keeps | with_reducible apply vgath_keeps | with_reducible refine roomStores_keeps ?_ _ (fun _ _ => ?_) | with_reducible apply vscat_keeps | split | dsimp +zetaDelta only

theorem execRoomWordIssue_keeps (s : State) (room : BitVec 7) (found : Option RoomCheck) : Out.Keeps s (execRoomWordIssue room found s) := by
  unfold execRoomWordIssue
  repeat' first | with_reducible exact State.Keeps.refl _ | with_reducible apply roomStep_keeps | with_reducible apply roomFound_keeps | with_reducible refine act_keeps ?_ | split | dsimp +zetaDelta only

theorem execSignalDelivery_keeps (s : State) (room : BitVec 7) : Out.Keeps s (execSignalDelivery room s) := by
  unfold execSignalDelivery
  repeat' first | with_reducible exact State.Keeps.refl _ | with_reducible apply updRoom_keeps | with_reducible apply roomFault_keeps | with_reducible refine act_keeps ?_ | with_reducible refine next_keeps ?_ | split | dsimp +zetaDelta only

/-! ### Ituno -/

theorem Work_fail_keeps {s₀ : State} {k : Work} (h : s₀.Keeps k.s) (cause : U16) (station : Nat) (elem : Nat) : s₀.Keeps (Work.fail k cause station elem).s := by
  unfold Work.fail
  split
  · exact h
  · exact takeFree_keeps h

theorem Work_access_keeps {s₀ : State} {k : Work} (h : s₀.Keeps k.s) (l : Nat) (ns : List Nat) (station : Nat) : s₀.Keeps (Work.access k l ns station).s := by
  unfold Work.access
  repeat' first | with_reducible assumption | with_reducible apply touchElems_keeps | with_reducible apply Work_fail_keeps | split

theorem Work_note_keeps {s₀ : State} {k : Work} (h : s₀.Keeps k.s) (l : Nat) (f : Flags) : s₀.Keeps (Work.note k l f).s := by
  unfold Work.note
  repeat' first | with_reducible assumption

theorem Work_noteAll_keeps {s₀ : State} {k : Work} (h : s₀.Keeps k.s) (f : Flags) : s₀.Keeps (Work.noteAll k f).s := by
  unfold Work.noteAll
  repeat' first | with_reducible assumption

theorem Work_put_keeps {s₀ : State} {k : Work} (h : s₀.Keeps k.s) (l : Nat) (src : Int) (ns : List Nat) (vs : List (Num × Bool)) : s₀.Keeps (Work.put k l src ns vs).s := by
  unfold Work.put
  repeat' first | with_reducible assumption | with_reducible apply convertInto_keeps | with_reducible apply Work_note_keeps | split

theorem Work_putPlain_keeps {s₀ : State} {k : Work} (h : s₀.Keeps k.s) (l : Nat) (ns : List Nat) (vs : List (Num × Bool)) : s₀.Keeps (Work.putPlain k l ns vs).s := by
  unfold Work.putPlain
  repeat' first | with_reducible assumption | with_reducible apply writeElems_keeps | with_reducible apply Work_note_keeps | split

theorem Work_putBitsOf_keeps {s₀ : State} {k : Work} (h : s₀.Keeps k.s) (l : Nat) (ns : List Nat) (vs : List (Nat × Bool)) : s₀.Keeps (Work.putBitsOf k l ns vs).s := by
  unfold Work.putBitsOf
  repeat' first | with_reducible assumption | with_reducible apply moveElems_keeps | with_reducible apply Work_note_keeps | split

theorem Work_transfer_keeps {s₀ : State} {k : Work} (h : s₀.Keeps k.s) (l : Nat) (src : List Nat) (dst : List Nat) : s₀.Keeps (Work.transfer k l src dst).s := by
  unfold Work.transfer
  extract_lets x0 x1 x2
  repeat' first | with_reducible assumption | with_reducible apply Work_note_keeps | with_reducible apply Work_put_keeps | with_reducible apply Work_putPlain_keeps | with_reducible apply Work_putBitsOf_keeps | split

theorem Work_finish_keeps {s₀ : State} {k : Work} (h : s₀.Keeps k.s) (n : Nat) : s₀.Keeps (Work.finish k n) := by
  unfold Work.finish
  extract_lets k'
  have hk : s₀.Keeps k'.s := endStore_keeps h _
  clear_value k'
  repeat' first | with_reducible refine each_keeps (fun _ _ => finishRoom_keeps (State.Keeps.refl _) _ _) ?_ | with_reducible assumption | with_reducible apply updOp_keeps | with_reducible apply faultOp_keeps | split

/-- A RUN's work begins from the state it runs in. -/
theorem entryWork_s {s : State} {n seq op : Nat} {k : Work} (e : s.entryWork n seq op = some k) : k.s = s := by
  unfold State.entryWork at e
  extract_lets p at e
  split at e
  · split at e
    · split at e
      · extract_lets q at e
        split at e
        · cases e
          rfl
        · cases e
      · cases e
    · cases e
  · cases e

theorem runEntry_keeps {ring : BitVec 6} {seq : BitVec 64} {op : Nat} {f : Work → Work} {s : State}
    (h : ∀ k : Work, s.Keeps k.s → s.Keeps (f k).s) : Out.Keeps s (runEntry ring seq op f s) := by
  unfold runEntry
  split
  · rename_i k e
    exact act_keeps (Work_finish_keeps (h _ (beginStore_keeps (State.Keeps.refl s) _ _)) _)
  · exact next_keeps (State.Keeps.refl s)

theorem deliver_keeps {s₀ : State} {k : Work} (h : s₀.Keeps k.s) (f : Fmt) (l : List (Nat × Bool × List Term)) (seed : Nat → Nat × Bool) : s₀.Keeps (deliver k f l seed).s := by
  unfold deliver
  extract_lets x0 x1
  repeat' first | with_reducible assumption | with_reducible apply updSched_keeps | with_reducible apply Work_fail_keeps | with_reducible apply Work_note_keeps | with_reducible apply Work_put_keeps | split

theorem matmul_keeps {s₀ : State} {k : Work} (h : s₀.Keeps k.s)  : s₀.Keeps (matmul k).s := by
  unfold matmul
  extract_lets x0 x1 x2 x3 x4 x5 x6 x7 x8 x9 x10 x11 x12
  have h5 : s₀.Keeps x5.s := Work_access_keeps (Work_access_keeps (Work_access_keeps h _ _ _) _ _ _) _ _ _
  clear_value x5
  have h12 : s₀.Keeps x12.s := Work_note_keeps h5 _ _
  clear_value x12
  repeat' first | with_reducible assumption | with_reducible apply Work_access_keeps | with_reducible apply deliver_keeps

theorem conv_keeps {s₀ : State} {k : Work} (h : s₀.Keeps k.s)  : s₀.Keeps (conv k).s := by
  unfold conv
  extract_lets x0 x1 x2 x3 x4 x5 x6 x7 x8 x9
  have h5 : s₀.Keeps x5.s := Work_access_keeps (Work_access_keeps (Work_access_keeps h _ _ _) _ _ _) _ _ _
  clear_value x5
  repeat' first | with_reducible assumption | with_reducible apply Work_note_keeps | with_reducible apply deliver_keeps

theorem knn_keeps {s₀ : State} {k : Work} (h : s₀.Keeps k.s)  : s₀.Keeps (knn k).s := by
  unfold knn
  extract_lets x0 x1 x2 x3 x4
  repeat' first | with_reducible assumption | with_reducible apply Work_access_keeps | with_reducible apply Work_note_keeps | with_reducible apply Work_put_keeps | with_reducible apply Work_putBitsOf_keeps

theorem foldl_work_keeps {α : Type} {l : List α} {f : Work → α → Work} (hf : ∀ k a, State.Keeps k.s (f k a).s) {t : State} {k : Work} (h : t.Keeps k.s) :
    t.Keeps (l.foldl f k).s := by
  induction l generalizing k with
  | nil => exact h
  | cons a l ih => exact ih (h.trans (hf k a))

theorem elem_keeps {t : State} {k : Work} (h : t.Keeps k.s) : t.Keeps (elem k).s := by
  unfold elem
  extract_lets ops d f64 k1 ls k2 ps outs fl k3
  have h1 : t.Keeps k1.s := by
    unfold k1
    split
    · exact h
    · exact Work_fail_keeps h _ _ _
  have h2 : t.Keeps k2.s := Work_access_keeps (foldl_work_keeps (fun k _ => Work_access_keeps (State.Keeps.refl k.s) _ _ _) h1) _ _ _
  have h3 : t.Keeps k3.s := by
    unfold k3
    split
    · exact Work_put_keeps h2 _ _ _ _
    · exact Work_putBitsOf_keeps h2 _ _ _
  exact Work_note_keeps h3 _ _

theorem putAttic_keeps {s₀ s : State} (h : s₀.Keeps s) (k : Work) (j : Nat) (r : RowWork) : s₀.Keeps (putAttic k s j r) := by
  unfold putAttic
  exact updRoom_keeps h _ _

theorem row_keeps {t : State} {k : Work} (h : t.Keeps k.s) : t.Keeps (row k).s := by
  unfold row
  extract_lets sub len nRows bad k1 ls k2
  have h1 : t.Keeps k1.s := by
    unfold k1
    split
    · exact Work_fail_keeps h _ _ _
    · exact h
  have h2 : t.Keeps k2.s := Work_access_keeps (foldl_work_keeps (fun k _ => Work_access_keeps (State.Keeps.refl k.s) _ _ _) h1) _ _ _
  clear_value k2
  split
  · exact h2
  · rename_i rows fl grads k3 k4 k5 hs
    have h3 : t.Keeps k3.s := by
      unfold k3
      exact foldl_keeps (fun x r => putAttic_keeps (State.Keeps.refl x) _ _ _) h2
    have h4 : t.Keeps k4.s := Work_put_keeps h3 _ _ _ _
    have h5 : t.Keeps k5.s := by
      unfold k5
      split
      · exact Work_note_keeps (Work_put_keeps h4 _ _ _ _) _ _
      · exact h4
    exact Work_noteAll_keeps h5 _

theorem convertAll_keeps {s₀ : State} {k : Work} (h : s₀.Keeps k.s)  : s₀.Keeps (convertAll k).s := by
  unfold convertAll
  extract_lets x0 x1
  repeat' first | with_reducible assumption | with_reducible apply Work_access_keeps | with_reducible apply Work_transfer_keeps

theorem moveRows_keeps {s₀ : State} {k : Work} (h : s₀.Keeps k.s) (scatter : Bool) : s₀.Keeps (moveRows scatter k).s := by
  unfold moveRows
  extract_lets x0 x1 x2 x3
  repeat' first | with_reducible assumption | with_reducible apply Work_fail_keeps | with_reducible apply Work_access_keeps | with_reducible apply Work_transfer_keeps | split | dsimp +zetaDelta only

theorem execMatmul_keeps (s : State) (ring : BitVec 6) (seq : BitVec 64) : Out.Keeps s (execMatmul ring seq s) := by
  unfold execMatmul
  repeat' first | with_reducible apply runEntry_keeps | with_reducible apply matmul_keeps

theorem execConv_keeps (s : State) (ring : BitVec 6) (seq : BitVec 64) : Out.Keeps s (execConv ring seq s) := by
  unfold execConv
  repeat' first | with_reducible apply runEntry_keeps | with_reducible apply conv_keeps

theorem execKnn_keeps (s : State) (ring : BitVec 6) (seq : BitVec 64) : Out.Keeps s (execKnn ring seq s) := by
  unfold execKnn
  repeat' first | with_reducible apply runEntry_keeps | with_reducible apply knn_keeps

theorem execElem_keeps (s : State) (ring : BitVec 6) (seq : BitVec 64) : Out.Keeps s (execElem ring seq s) := by
  unfold execElem
  repeat' first | with_reducible apply runEntry_keeps | with_reducible apply elem_keeps

theorem execRowOperation_keeps (s : State) (ring : BitVec 6) (seq : BitVec 64) : Out.Keeps s (execRowOperation ring seq s) := by
  unfold execRowOperation
  repeat' first | with_reducible apply runEntry_keeps | with_reducible apply row_keeps

theorem execConvert_keeps (s : State) (ring : BitVec 6) (seq : BitVec 64) : Out.Keeps s (execConvert ring seq s) := by
  unfold execConvert
  repeat' first | with_reducible apply runEntry_keeps | with_reducible apply convertAll_keeps

theorem execGather_keeps (s : State) (ring : BitVec 6) (seq : BitVec 64) : Out.Keeps s (execGather ring seq s) :=
  runEntry_keeps fun _ h => moveRows_keeps h false

theorem execScatter_keeps (s : State) (ring : BitVec 6) (seq : BitVec 64) : Out.Keeps s (execScatter ring seq s) :=
  runEntry_keeps fun _ h => moveRows_keeps h true

end Sys2Proof.Machine
end

