-- ==== Sys2Proof/Laws/KeepsWork.lean ====
section
/-! SUPPORT. What every operation of these files keeps: Solver, Fabric, Stop, Debug, Clock. -/

namespace Sys2Proof.Machine

set_option linter.unusedVariables false
set_option linter.unusedTactic false
set_option linter.unreachableTactic false

/-! ### Solver -/

theorem execRoomReservation_keeps (s : State) (ring : BitVec 6) (seq : BitVec 64) : Out.Keeps s (execRoomReservation ring seq s) := by
  unfold execRoomReservation
  repeat' first | with_reducible exact State.Keeps.refl _ | with_reducible apply updOp_keeps | with_reducible refine act_keeps ?_ | with_reducible refine next_keeps ?_ | split | dsimp +zetaDelta only

theorem armDeadline_keeps {s₀ : State} {s : State} (h : s₀.Keeps s) (n : Nat) (o : Op) : s₀.Keeps (armDeadline s n o) := by
  unfold armDeadline
  repeat' first | with_reducible assumption | with_reducible apply takeFree_keeps | with_reducible apply updOp_keeps | with_reducible apply armDevice_keeps | split

theorem dropRecords_keeps {s₀ : State} {s : State} (h : s₀.Keeps s) (p : Nat) (first : Nat) (count : Nat) : s₀.Keeps (dropRecords s p first count) := by
  unfold dropRecords
  repeat' first | with_reducible assumption | with_reducible exact State.Keeps.refl _ | fail_if_no_progress extract_lets | with_reducible apply updSched_keeps | with_reducible refine ite_keeps ?_ ?_ | split | fail_if_no_progress with_reducible refine State.Keeps.lit ?_ (Nat.le_refl _) (Nat.le_refl _)

theorem startCall_keeps {s₀ : State} {s : State} (h : s₀.Keeps s) (n : Nat) (o : Op) : s₀.Keeps (startCall s n o).1 := by
  unfold startCall
  repeat' first | with_reducible assumption | with_reducible exact State.Keeps.refl _ | fail_if_no_progress extract_lets | with_reducible apply touch_keeps | with_reducible apply dropRecords_keeps | with_reducible refine foldl_keeps (fun _ _ => ?_) ?_ | with_reducible refine ite_keeps ?_ ?_ | split | fail_if_no_progress with_reducible refine State.Keeps.lit ?_ (Nat.le_refl _) (Nat.le_refl _) | dsimp +zetaDelta only

theorem execSolve_keeps (s : State) (ring : BitVec 6) : Out.Keeps s (execSolve ring s) := by
  unfold execSolve
  extract_lets n p before
  have key : ∀ w : Plan, w.go = startCall → (∀ n o, w.reject s n o = s) → Out.Keeps s (match dispatchHead n (wantOpc 0x20) w s with
      | .next t => if (t.sched p).dispatched = before then .next t
        else match (t.ring n).ops.getLast? with
          | some o => .next (armDeadline t n o)
          | none => .next t
      | x => x) := by
    intro w hw hr
    have hk : Out.Keeps s (dispatchHead n (wantOpc 0x20) w s) :=
      dispatchHead_keeps (fun _ _ => by rw [hw]; exact startCall_keeps (State.Keeps.refl s) _ _)
        (fun _ _ => by rw [hr]; exact State.Keeps.refl s)
    obtain ⟨t, ht, kt⟩ := hk
    rw [ht]
    dsimp only
    split
    · exact next_keeps kt
    · split
      · exact next_keeps (armDeadline_keeps kt _ _)
      · exact next_keeps kt
  exact key _ rfl fun _ _ => rfl

theorem updProb_keeps {s₀ : State} {s : State} (h : s₀.Keeps s) (n : Nat) (seq : Nat) (b : Nat) (f : Problem → Problem) : s₀.Keeps (State.updProb s n seq b f) := by
  unfold State.updProb
  repeat' first | with_reducible assumption | with_reducible apply updOp_keeps

theorem dropRecord_keeps {s₀ : State} {s : State} (h : s₀.Keeps s) (p : Nat) (i : Nat) : s₀.Keeps (dropRecord s p i) := by
  unfold dropRecord
  repeat' first | with_reducible assumption | with_reducible apply updSched_keeps

theorem releaseSpace_keeps {t s : State} (h : t.Keeps s) (k p need : Nat) : t.Keeps (releaseSpace k s p need) := by
  induction k generalizing s with
  | zero => exact h
  | succ k ih =>
    unfold releaseSpace
    split
    · exact h
    · split
      · exact ih (dropRecord_keeps h _ _)
      · exact h

theorem makeSpace_keeps {s₀ s u : State} (h : s₀.Keeps s) (p : Nat) (c : SolveOp) (pr : Problem) (e : makeSpace s p c pr = some u) : s₀.Keeps u := by
  unfold makeSpace at e
  split at e
  · cases e
    exact h
  · extract_lets need s2 at e
    have h2 : s₀.Keeps s2 := releaseSpace_keeps h _ _ _
    clear_value s2
    split at e
    · cases e
      exact h2
    · cases e

theorem startProblem_keeps {s₀ : State} {s : State} (h : s₀.Keeps s) (n : Nat) (o : Op) (c : SolveOp) (b : Nat) (u : Nat) (pr : Problem) : s₀.Keeps (startProblem s n o c b u pr) := by
  unfold startProblem
  extract_lets x0 x1 x2
  have h2 : s₀.Keeps x2 := by
    unfold x2
    repeat' first | with_reducible assumption | with_reducible refine State.Keeps.lit ?_ (Nat.le_succ _) (Nat.le_refl _)
  clear_value x2
  repeat' first | with_reducible assumption | with_reducible exact State.Keeps.refl _ | with_reducible apply faultOp_keeps | with_reducible apply touchElems_keeps | with_reducible apply updProb_keeps | with_reducible refine foldl_keeps (fun _ _ => ?_) ?_ | split

theorem tryStart_keeps {s₀ s u : State} (h : s₀.Keeps s) (n : Nat) (o : Op) (e : State.tryStart s n o = some u) : s₀.Keeps u := by
  unfold State.tryStart at e
  split at e
  · split at e
    · cases e
    · split at e
      · split at e
        · obtain ⟨v, hv, rfl⟩ := Option.map_eq_some_iff.mp e
          exact startProblem_keeps (makeSpace_keeps h _ _ _ hv) _ _ _ _ _ _
        · cases e
      · cases e
  · cases e

theorem execProblemStart_keeps (s : State) (ring : BitVec 6) (seq : BitVec 64) : Out.Keeps s (execProblemStart ring seq s) := by
  unfold execProblemStart
  extract_lets n
  split
  · extract_lets s'
    split
    · rename_i hv
      obtain ⟨o, -, ho⟩ := Option.bind_eq_some_iff.mp hv
      exact act_keeps (tryStart_keeps (armDeadline_keeps (State.Keeps.refl s) _ _) _ _ ho)
    · exact next_keeps (State.Keeps.refl s)
  · exact next_keeps (State.Keeps.refl s)

theorem stepProblem_keeps (s : State) (ring : BitVec 6) (seq : BitVec 64) (b : BitVec 11) (ph : ProbStage → Bool) (f : Course → Bool → Problem → Problem) : Out.Keeps s (stepProblem ring seq b ph f s) := by
  unfold stepProblem
  repeat' first | with_reducible exact State.Keeps.refl _ | with_reducible apply updProb_keeps | with_reducible refine act_keeps ?_ | with_reducible refine next_keeps ?_ | split | dsimp +zetaDelta only

theorem execAssemblyPass_keeps (s : State) (ring : BitVec 6) (seq : BitVec 64) (b : BitVec 11) : Out.Keeps s (execAssemblyPass ring seq b s) := by
  unfold execAssemblyPass
  repeat' first | with_reducible apply stepProblem_keeps

theorem execPanelInterval_keeps (s : State) (ring : BitVec 6) (seq : BitVec 64) (b : BitVec 11) : Out.Keeps s (execPanelInterval ring seq b s) := by
  unfold execPanelInterval
  repeat' first | with_reducible apply stepProblem_keeps

theorem execSweep_keeps (s : State) (ring : BitVec 6) (seq : BitVec 64) (b : BitVec 11) : Out.Keeps s (execSweep ring seq b s) := by
  unfold execSweep
  repeat' first | with_reducible apply stepProblem_keeps

theorem writeOuts_keeps {s₀ : State} {s : State} (h : s₀.Keeps s) (n : Nat) (seq : Nat) (h : Nat) (l : List (Nat × Nat)) (f : Flags) : s₀.Keeps (writeOuts s n seq h l f).1 := by
  unfold writeOuts
  repeat' first | with_reducible assumption | with_reducible exact State.Keeps.refl _ | fail_if_no_progress extract_lets | with_reducible apply updOp_keeps | with_reducible apply beginStore_keeps | with_reducible apply endStore_keeps | with_reducible apply convertInto_keeps | with_reducible refine fst_keeps (by assumption) ?_ | with_reducible refine snd_keeps (by assumption) ?_ | split | fail_if_no_progress with_reducible refine State.Keeps.lit ?_ (Nat.le_refl _) (Nat.le_refl _) | dsimp +zetaDelta only

theorem writeResult_keeps {s₀ : State} {s : State} (h : s₀.Keeps s) (n : Nat) (seq : Nat) (b : Nat) : s₀.Keeps (writeResult s n seq b) := by
  unfold writeResult
  repeat' first | with_reducible assumption | with_reducible apply endStore_keeps | with_reducible apply streamStore_keeps | with_reducible apply beginStore_keeps | with_reducible apply updProb_keeps | split

theorem keepInSlot_keeps {s₀ : State} {s : State} (h : s₀.Keeps s) (p : Nat) (c : SolveOp) (b : Nat) (pr : Problem) : s₀.Keeps (keepInSlot s p c b pr) := by
  unfold keepInSlot
  extract_lets x0 x1
  repeat' first | with_reducible assumption | with_reducible apply updSched_keeps

theorem endCall_keeps {s₀ : State} {s : State} (h : s₀.Keeps s) (n : Nat) (o : Op) (c : SolveOp) : s₀.Keeps (endCall s n o c) := by
  unfold endCall
  extract_lets x0 x1 x2 x3 x4 x5
  have h2 : s₀.Keeps x2 := by
    unfold x2
    repeat' first | with_reducible assumption | with_reducible exact State.Keeps.refl _ | fail_if_no_progress extract_lets | with_reducible apply updOp_keeps | with_reducible apply freeDevice_keeps | with_reducible apply writeOuts_keeps | with_reducible apply writeResult_keeps | with_reducible refine fst_keeps (by assumption) ?_ | with_reducible refine snd_keeps (by assumption) ?_ | with_reducible refine foldl_keeps (fun _ _ => ?_) ?_ | with_reducible refine ite_keeps ?_ ?_ | split | fail_if_no_progress with_reducible refine State.Keeps.lit ?_ (Nat.le_refl _) (Nat.le_refl _) | dsimp +zetaDelta only
  clear_value x2
  have h3 : s₀.Keeps x3 := by
    unfold x3
    repeat' first | with_reducible assumption | with_reducible exact State.Keeps.refl _ | fail_if_no_progress extract_lets | with_reducible apply updOp_keeps | with_reducible apply freeDevice_keeps | with_reducible apply writeOuts_keeps | with_reducible apply writeResult_keeps | with_reducible refine fst_keeps (by assumption) ?_ | with_reducible refine snd_keeps (by assumption) ?_ | with_reducible refine foldl_keeps (fun _ _ => ?_) ?_ | with_reducible refine ite_keeps ?_ ?_ | split | fail_if_no_progress with_reducible refine State.Keeps.lit ?_ (Nat.le_refl _) (Nat.le_refl _) | dsimp +zetaDelta only
  clear_value x3
  have h4 : s₀.Keeps x4 := by
    unfold x4
    repeat' first | with_reducible assumption | with_reducible exact State.Keeps.refl _ | fail_if_no_progress extract_lets | with_reducible apply updOp_keeps | with_reducible apply freeDevice_keeps | with_reducible apply writeOuts_keeps | with_reducible apply writeResult_keeps | with_reducible refine fst_keeps (by assumption) ?_ | with_reducible refine snd_keeps (by assumption) ?_ | with_reducible refine foldl_keeps (fun _ _ => ?_) ?_ | with_reducible refine ite_keeps ?_ ?_ | split | fail_if_no_progress with_reducible refine State.Keeps.lit ?_ (Nat.le_refl _) (Nat.le_refl _) | dsimp +zetaDelta only
  clear_value x4
  repeat' first | with_reducible assumption | with_reducible exact State.Keeps.refl _ | fail_if_no_progress extract_lets | with_reducible apply updOp_keeps | with_reducible apply freeDevice_keeps | with_reducible apply writeOuts_keeps | with_reducible apply writeResult_keeps | with_reducible refine fst_keeps (by assumption) ?_ | with_reducible refine snd_keeps (by assumption) ?_ | with_reducible refine foldl_keeps (fun _ _ => ?_) ?_ | with_reducible refine ite_keeps ?_ ?_ | split | fail_if_no_progress with_reducible refine State.Keeps.lit ?_ (Nat.le_refl _) (Nat.le_refl _) | dsimp +zetaDelta only

theorem endProblem_keeps {t s : State} (h : t.Keeps s) (n : Nat) (o : Op) (c : SolveOp) (b : Nat) (pr : Problem) : t.Keeps (endProblem s n o c b pr) := by
  unfold endProblem
  extract_lets early stop pr s1 s2 now
  have h2 : t.Keeps s2 := State.Keeps.lit (keepInSlot_keeps h _ _ _ _) (Nat.le_succ _) (Nat.le_refl _)
  split
  rename_i s3 fl e
  have h3 : t.Keeps s3 := by
    refine fst_keeps e (foldl_fst_keeps (fun a x => ?_) h2)
    exact writeOuts_keeps (State.Keeps.refl a.1) _ _ _ _ _
  clear e
  repeat' first | with_reducible assumption | split | with_reducible apply endCall_keeps | with_reducible apply writeResult_keeps | with_reducible apply updProb_keeps | with_reducible apply updOp_keeps | dsimp +zetaDelta only

theorem execProblemEnd_keeps (s : State) (ring : BitVec 6) (seq : BitVec 64) (b : BitVec 11) : Out.Keeps s (execProblemEnd ring seq b s) := by
  unfold execProblemEnd
  repeat' first | with_reducible exact State.Keeps.refl _ | with_reducible apply endProblem_keeps | with_reducible refine act_keeps ?_ | with_reducible refine next_keeps ?_ | split | dsimp +zetaDelta only

theorem runKind_keeps (s : State) (kind : Nat) (ring : BitVec 6) (seq : BitVec 64) (b : BitVec 11) : Out.Keeps s (runKind kind ring seq b s) := by
  unfold runKind
  repeat' first | with_reducible exact State.Keeps.refl _ | with_reducible apply updProb_keeps | with_reducible refine act_keeps ?_ | with_reducible refine next_keeps ?_ | split | dsimp +zetaDelta only

theorem execDchol_keeps (s : State) (ring : BitVec 6) (seq : BitVec 64) (b : BitVec 11) : Out.Keeps s (execDchol ring seq b s) := by
  unfold execDchol
  repeat' first | with_reducible apply runKind_keeps

theorem execDldlt_keeps (s : State) (ring : BitVec 6) (seq : BitVec 64) (b : BitVec 11) : Out.Keeps s (execDldlt ring seq b s) := by
  unfold execDldlt
  repeat' first | with_reducible apply runKind_keeps

theorem execDqr_keeps (s : State) (ring : BitVec 6) (seq : BitVec 64) (b : BitVec 11) : Out.Keeps s (execDqr ring seq b s) := by
  unfold execDqr
  repeat' first | with_reducible apply runKind_keeps

theorem execTree_keeps (s : State) (ring : BitVec 6) (seq : BitVec 64) (b : BitVec 11) : Out.Keeps s (execTree ring seq b s) := by
  unfold execTree
  repeat' first | with_reducible apply runKind_keeps

theorem execKkt_keeps (s : State) (ring : BitVec 6) (seq : BitVec 64) (b : BitVec 11) : Out.Keeps s (execKkt ring seq b s) := by
  unfold execKkt
  repeat' first | with_reducible apply runKind_keeps

theorem execContact_keeps (s : State) (ring : BitVec 6) (seq : BitVec 64) (b : BitVec 11) : Out.Keeps s (execContact ring seq b s) := by
  unfold execContact
  repeat' first | with_reducible apply runKind_keeps

theorem drainCall_keeps {s₀ : State} {s : State} (h : s₀.Keeps s) (n : Nat) (seq : Nat) : s₀.Keeps (drainCall s n seq) := by
  unfold drainCall
  repeat' first | with_reducible assumption | with_reducible exact State.Keeps.refl _ | with_reducible apply updProb_keeps | with_reducible apply endProblem_keeps | with_reducible refine each_keeps (fun _ _ => ?_) ?_ | split | dsimp +zetaDelta only

theorem wholeCall_keeps {t s : State} (h : t.Keeps s) (k n seq : Nat) : t.Keeps (wholeCall k s n seq) := by
  induction k generalizing s with
  | zero => exact h
  | succ k ih =>
    unfold wholeCall
    extract_lets u
    have hu : t.Keeps u := drainCall_keeps h _ _
    split
    · rename_i v hv
      obtain ⟨o, -, ho⟩ := Option.bind_eq_some_iff.mp hv
      exact ih (tryStart_keeps hu _ _ ho)
    · exact hu

theorem runCall_keeps (s : State) (mode : Nat) (ring : BitVec 6) (seq : BitVec 64) : Out.Keeps s (runCall mode ring seq s) := by
  unfold runCall
  repeat' first | with_reducible exact State.Keeps.refl _ | with_reducible apply wholeCall_keeps | with_reducible refine act_keeps ?_ | with_reducible refine next_keeps ?_ | split | dsimp +zetaDelta only

theorem execSolveForward_keeps (s : State) (ring : BitVec 6) (seq : BitVec 64) : Out.Keeps s (execSolveForward ring seq s) := by
  unfold execSolveForward
  repeat' first | with_reducible apply runCall_keeps

theorem execSolveAdjoint_keeps (s : State) (ring : BitVec 6) (seq : BitVec 64) : Out.Keeps s (execSolveAdjoint ring seq s) := by
  unfold execSolveAdjoint
  repeat' first | with_reducible apply runCall_keeps

theorem execSolverDeadline_keeps (s : State) (k : BitVec 8) : Out.Keeps s (execSolverDeadline k s) := by
  unfold execSolverDeadline
  repeat' first | with_reducible exact State.Keeps.refl _ | with_reducible apply updOp_keeps | with_reducible apply markFired_keeps | with_reducible refine act_keeps ?_ | split | dsimp +zetaDelta only

/-! ### Fabric -/

theorem startReduce_keeps {s₀ : State} {s : State} (h : s₀.Keeps s) (n : Nat) (o : Op) : s₀.Keeps (startReduce s n o).1 := by
  unfold startReduce
  extract_lets x0 x1 x2 x3 x4
  have h3 : s₀.Keeps x3 := by
    unfold x3
    repeat' first | with_reducible assumption | with_reducible exact State.Keeps.refl _ | fail_if_no_progress extract_lets | with_reducible apply touch_keeps | with_reducible refine ite_keeps ?_ ?_ | split | fail_if_no_progress with_reducible refine State.Keeps.lit ?_ (Nat.le_refl _) (Nat.le_refl _) | dsimp +zetaDelta only
  clear_value x3
  repeat' first | with_reducible assumption | with_reducible exact State.Keeps.refl _ | fail_if_no_progress extract_lets | with_reducible apply touch_keeps | with_reducible refine ite_keeps ?_ ?_ | split | fail_if_no_progress with_reducible refine State.Keeps.lit ?_ (Nat.le_refl _) (Nat.le_refl _) | dsimp +zetaDelta only

theorem sendPieceOn_keeps {s₀ : State} {s : State} (h : s₀.Keeps s) (p : Nat) (o : Op) (b : Bucket) (port : Nat) (path : Nat) (level : Nat) (seg : Nat) (piece : Nat) (q : Nat) (down : Bool) (x : Piece) : s₀.Keeps (sendPieceOn s p o b port path level seg piece q down x) := by
  unfold sendPieceOn
  repeat' first | with_reducible assumption | with_reducible exact State.Keeps.refl _ | with_reducible apply sendTo_keeps | split | fail_if_no_progress with_reducible refine State.Keeps.lit ?_ (Nat.le_refl _) (Nat.le_refl _)

theorem sendPiece_keeps {s₀ : State} {s : State} (h : s₀.Keeps s) (p : Nat) (o : Op) (b : Bucket) (path : Nat) (level : Nat) (seg : Nat) (piece : Nat) (q : Nat) (down : Bool) (x : Piece) : s₀.Keeps (sendPiece s p o b path level seg piece q down x) := by
  unfold sendPiece
  exact sendPieceOn_keeps h _ _ _ _ _ _ _ _ _ _ _

theorem resultPiece_keeps {s₀ : State} {s : State} (h : s₀.Keeps s) (p : Nat) (n : Nat) (seq : Nat) (o : Op) (b : Bucket) (seg : Nat) (piece : Nat) (x : Piece) : s₀.Keeps (resultPiece s p n seq o b seg piece x) := by
  unfold resultPiece
  extract_lets x0
  have h0 : s₀.Keeps x0 := by
    unfold x0
    repeat' first | with_reducible assumption | with_reducible apply updBucket_keeps | split
  clear_value x0
  repeat' first | with_reducible assumption | with_reducible exact State.Keeps.refl _ | with_reducible apply sendPiece_keeps | with_reducible refine foldl_keeps (fun _ _ => ?_) ?_ | split

theorem endBucket_keeps {s₀ : State} {s : State} (h : s₀.Keeps s) (n : Nat) (o : Op) (cause : U16) : s₀.Keeps (endBucket s n o cause) := by
  unfold endBucket
  repeat' first | with_reducible assumption | with_reducible apply faultOp_keeps

theorem rootPiece_keeps {s₀ : State} {s : State} (h : s₀.Keeps s) (p : Nat) (n : Nat) (seq : Nat) (seg : Nat) (piece : Nat) : s₀.Keeps (rootPiece s p n seq seg piece) := by
  unfold rootPiece
  repeat' first | with_reducible assumption | with_reducible exact State.Keeps.refl _ | with_reducible apply redoBelow_keeps | with_reducible apply resultPiece_keeps | with_reducible apply endBucket_keeps | with_reducible refine each_keeps (fun _ _ => ?_) ?_ | split

theorem countSent_keeps {s₀ : State} {s : State} (h : s₀.Keeps s) (p : Nat) (b : Bucket) (k : Nat) : s₀.Keeps (countSent s p b k) := by
  unfold countSent
  repeat' first | with_reducible assumption | with_reducible apply updPeer_keeps

theorem formNode_keeps {s₀ : State} {s : State} (h : s₀.Keeps s) (p : Nat) (n : Nat) (seq : Nat) (path : Nat) (seg : Nat) (piece : Nat) : s₀.Keeps (formNode s p n seq path seg piece) := by
  unfold formNode
  repeat' first | with_reducible assumption | with_reducible exact State.Keeps.refl _ | fail_if_no_progress extract_lets | with_reducible apply updOp_keeps | with_reducible apply faultOp_keeps | with_reducible apply updBucket_keeps | with_reducible apply touchElems_keeps | with_reducible apply sendPiece_keeps | with_reducible apply rootPiece_keeps | with_reducible apply countSent_keeps | with_reducible refine ite_keeps ?_ ?_ | split | fail_if_no_progress with_reducible refine State.Keeps.lit ?_ (Nat.le_refl _) (Nat.le_refl _) | dsimp +zetaDelta only

theorem usePiece_keeps {s₀ : State} {s : State} (h : s₀.Keeps s) (p : Nat) (n : Nat) (seq : Nat) (seg : Nat) (piece : Nat) : s₀.Keeps (usePiece s p n seq seg piece) := by
  unfold usePiece
  repeat' first | with_reducible assumption | with_reducible exact State.Keeps.refl _ | fail_if_no_progress extract_lets | with_reducible apply updBucket_keeps | with_reducible apply sendRedo_keeps | with_reducible apply takeOut_keeps | with_reducible apply endBucket_keeps | with_reducible apply formNode_keeps | with_reducible refine ite_keeps ?_ ?_ | split | fail_if_no_progress with_reducible refine State.Keeps.lit ?_ (Nat.le_refl _) (Nat.le_refl _) | dsimp +zetaDelta only

theorem suspectPort_keeps {s₀ : State} {s : State} (h : s₀.Keeps s) (j : Nat) : s₀.Keeps (suspectPort s j) := by
  unfold suspectPort
  repeat' first | with_reducible assumption | with_reducible exact State.Keeps.refl _ | with_reducible apply takeOut_keeps | with_reducible refine each_keeps (fun _ _ => ?_) ?_

theorem countVote_keeps {s₀ : State} {s : State} (h : s₀.Keeps s) (p : Nat) (n : Nat) (seq : Nat) (o : Op) (b : Bucket) (k : Nat) (x : Piece) : s₀.Keeps (countVote s p n seq o b k x) := by
  unfold countVote
  extract_lets x0 x1 x2 x3 x4
  repeat' first | with_reducible assumption | with_reducible apply updBucket_keeps | with_reducible apply wantRedo_keeps | with_reducible apply endBucket_keeps | with_reducible apply suspectPort_keeps | split | dsimp +zetaDelta only

theorem reducePrepass_keeps {s₀ : State} {s : State} (h : s₀.Keeps s) (p : Nat) (o : Op) (b : Bucket) : s₀.Keeps (reducePrepass s p o b).1 := by
  unfold reducePrepass
  extract_lets x0
  repeat' first | with_reducible assumption | with_reducible apply prepass_keeps | split

theorem writeSegment_keeps {s₀ : State} {s : State} (h : s₀.Keeps s) (p : Nat) (n : Nat) (seq : Nat) (o : Op) (b : Bucket) (seg : Nat) : s₀.Keeps (writeSegment s p n seq o b seg) := by
  unfold writeSegment
  extract_lets x0 x1
  repeat' first | with_reducible assumption | with_reducible exact State.Keeps.refl _ | fail_if_no_progress extract_lets | with_reducible apply updOp_keeps | with_reducible apply faultOp_keeps | with_reducible apply beginStore_keeps | with_reducible apply endStore_keeps | with_reducible apply writeElems_keeps | with_reducible apply reducePrepass_keeps | with_reducible refine fst_keeps (by assumption) ?_ | with_reducible refine snd_keeps (by assumption) ?_ | split | fail_if_no_progress with_reducible refine State.Keeps.lit ?_ (Nat.le_refl _) (Nat.le_refl _) | dsimp +zetaDelta only

theorem completeSegment_keeps {s₀ : State} {s : State} (h : s₀.Keeps s) (p : Nat) (n : Nat) (seq : Nat) (o : Op) (b : Bucket) : s₀.Keeps (completeSegment s p n seq o b) := by
  unfold completeSegment
  extract_lets x0
  have h0 : s₀.Keeps x0 := by
    unfold x0
    repeat' first | with_reducible assumption | with_reducible apply writeSegment_keeps | split
  clear_value x0
  repeat' first | with_reducible assumption | with_reducible apply logEvent_keeps | with_reducible apply updOp_keeps | with_reducible apply updBucket_keeps | with_reducible apply countSent_keeps | split

theorem activate_keeps {s₀ : State} {s : State} (h : s₀.Keeps s) (p : Nat) (n : Nat) (seq : Nat) : s₀.Keeps (activate s p n seq) := by
  unfold activate
  repeat' first | with_reducible assumption | with_reducible apply updBucket_keeps

theorem sendSegment_keeps {s₀ : State} {s : State} (h : s₀.Keeps s) (p : Nat) (n : Nat) (seq : Nat) (o : Op) (b : Bucket) (seg : Nat) : s₀.Keeps (sendSegment s p n seq o b seg) := by
  unfold sendSegment
  extract_lets x0 x1
  have h0 : s₀.Keeps x0 := by
    unfold x0
    repeat' first | with_reducible assumption | with_reducible apply countSent_keeps
  clear_value x0
  have h1 : s₀.Keeps x1 := by
    unfold x1
    repeat' first | with_reducible assumption | with_reducible apply updBucket_keeps
  clear_value x1
  repeat' first | with_reducible assumption | with_reducible exact State.Keeps.refl _ | with_reducible apply usePiece_keeps | with_reducible refine each_keeps (fun _ _ => ?_) ?_

theorem pumpStep_keeps {s₀ s u : State} (h : s₀.Keeps s) (p : Nat) (chan : Nat) (e : pumpStep s p chan = some u) : s₀.Keeps u := by
  unfold pumpStep at e
  repeat' first | fail_if_no_progress extract_lets at e | split at e
  all_goals first | (cases e; done) | (rw [← Option.some.inj e]; clear e) | (obtain ⟨y, hy, rfl⟩ := Option.map_eq_some_iff.mp e; clear hy; obtain ⟨n, o, x⟩ := y; dsimp only)
  all_goals repeat' first | with_reducible assumption | with_reducible apply completeSegment_keeps | with_reducible apply activate_keeps | with_reducible apply sendSegment_keeps

theorem sendBlocks_keeps {s₀ : State} {s : State} (h : s₀.Keeps s) (p : Nat) (q : Nat) (typ : Nat) (tag : U32) (epoch : Nat) (blocks : List Marked) : s₀.Keeps (sendBlocks s p q typ tag epoch blocks) := by
  unfold sendBlocks
  repeat' first | with_reducible assumption | with_reducible exact State.Keeps.refl _ | with_reducible apply sendTo_keeps | with_reducible refine foldl_keeps (fun _ _ => ?_) ?_

theorem touchRows_keeps {s₀ : State} {s : State} (h : s₀.Keeps s) (d : Desc) (rows : Nat) : s₀.Keeps (touchRows s d rows) := by
  unfold touchRows
  repeat' first | with_reducible assumption | with_reducible exact State.Keeps.refl _ | fail_if_no_progress extract_lets | with_reducible apply touch_keeps | with_reducible refine each_keeps (fun _ _ => ?_) ?_ | with_reducible refine foldl_keeps (fun _ _ => ?_) ?_ | split | fail_if_no_progress with_reducible refine State.Keeps.lit ?_ (Nat.le_refl _) (Nat.le_refl _) | dsimp +zetaDelta only

theorem touchBlock_keeps {s₀ : State} {s : State} (h : s₀.Keeps s) (b : BitVec 512) (k : Nat) : s₀.Keeps (touchBlock s b k) := by
  unfold touchBlock
  extract_lets x0
  repeat' first | with_reducible assumption | with_reducible exact State.Keeps.refl _ | fail_if_no_progress extract_lets | with_reducible apply touch_keeps | split | fail_if_no_progress with_reducible refine State.Keeps.lit ?_ (Nat.le_refl _) (Nat.le_refl _) | dsimp +zetaDelta only

theorem beginTokens_keeps {s₀ : State} {s : State} (h : s₀.Keeps s) (n : Nat) (o : Op) (b : BitVec 512) : s₀.Keeps (beginTokens s n o b).1 := by
  unfold beginTokens
  extract_lets x0 x1 x2 x3 x4 x5 x6 x7 x8
  have h6 : s₀.Keeps x6 := by
    unfold x6
    repeat' first | with_reducible assumption | with_reducible exact State.Keeps.refl _ | fail_if_no_progress extract_lets | with_reducible apply sendTo_keeps | with_reducible apply sendBlocks_keeps | with_reducible apply touchRows_keeps | with_reducible apply touchBlock_keeps | with_reducible refine each_keeps (fun _ _ => ?_) ?_ | split | fail_if_no_progress with_reducible refine State.Keeps.lit ?_ (Nat.le_refl _) (Nat.le_refl _) | dsimp +zetaDelta only
  clear_value x6
  have h7 : s₀.Keeps x7 := by
    unfold x7
    repeat' first | with_reducible assumption | with_reducible exact State.Keeps.refl _ | fail_if_no_progress extract_lets | with_reducible apply sendTo_keeps | with_reducible apply sendBlocks_keeps | with_reducible apply touchRows_keeps | with_reducible apply touchBlock_keeps | with_reducible refine each_keeps (fun _ _ => ?_) ?_ | split | fail_if_no_progress with_reducible refine State.Keeps.lit ?_ (Nat.le_refl _) (Nat.le_refl _) | dsimp +zetaDelta only
  clear_value x7
  have h8 : s₀.Keeps x8 := by
    unfold x8
    repeat' first | with_reducible assumption | with_reducible exact State.Keeps.refl _ | fail_if_no_progress extract_lets | with_reducible apply sendTo_keeps | with_reducible apply sendBlocks_keeps | with_reducible apply touchRows_keeps | with_reducible apply touchBlock_keeps | with_reducible refine each_keeps (fun _ _ => ?_) ?_ | split | fail_if_no_progress with_reducible refine State.Keeps.lit ?_ (Nat.le_refl _) (Nat.le_refl _) | dsimp +zetaDelta only
  clear_value x8
  repeat' first | with_reducible assumption | with_reducible exact State.Keeps.refl _ | fail_if_no_progress extract_lets | with_reducible apply sendTo_keeps | with_reducible apply sendBlocks_keeps | with_reducible apply touchRows_keeps | with_reducible apply touchBlock_keeps | with_reducible refine each_keeps (fun _ _ => ?_) ?_ | split | fail_if_no_progress with_reducible refine State.Keeps.lit ?_ (Nat.le_refl _) (Nat.le_refl _) | dsimp +zetaDelta only

theorem putRow_keeps {s₀ : State} {s : State} (h : s₀.Keeps s) (p : Nat) (d : Desc) (r : Nat) (l : Marked) : s₀.Keeps (putRow s p d r l) := by
  unfold putRow
  extract_lets x0
  repeat' first | with_reducible assumption | with_reducible apply drainSink_keeps

theorem placeTokens_keeps {s₀ : State} {s : State} (h : s₀.Keeps s) (n : Nat) (o : Op) (x : Xchg) : s₀.Keeps (placeTokens s n o x).1 := by
  unfold placeTokens
  extract_lets x0 x1 x2 x3 x4 x5 x6 x7
  have h6 : s₀.Keeps x6 := by
    unfold x6
    repeat' first | with_reducible assumption | with_reducible exact State.Keeps.refl _ | fail_if_no_progress extract_lets | with_reducible apply beginStore_keeps | with_reducible apply endStore_keeps | with_reducible apply streamStore_keeps | with_reducible apply putRow_keeps | with_reducible refine foldl_keeps (fun _ _ => ?_) ?_ | with_reducible refine ite_keeps ?_ ?_ | split | fail_if_no_progress with_reducible refine State.Keeps.lit ?_ (Nat.le_refl _) (Nat.le_refl _) | dsimp +zetaDelta only
  clear_value x6
  have h7 : s₀.Keeps x7 := by
    unfold x7
    repeat' first | with_reducible assumption | with_reducible exact State.Keeps.refl _ | fail_if_no_progress extract_lets | with_reducible apply beginStore_keeps | with_reducible apply endStore_keeps | with_reducible apply streamStore_keeps | with_reducible apply putRow_keeps | with_reducible refine foldl_keeps (fun _ _ => ?_) ?_ | with_reducible refine ite_keeps ?_ ?_ | split | fail_if_no_progress with_reducible refine State.Keeps.lit ?_ (Nat.le_refl _) (Nat.le_refl _) | dsimp +zetaDelta only
  clear_value x7
  repeat' first | with_reducible assumption | with_reducible exact State.Keeps.refl _ | fail_if_no_progress extract_lets | with_reducible apply beginStore_keeps | with_reducible apply endStore_keeps | with_reducible apply streamStore_keeps | with_reducible apply putRow_keeps | with_reducible refine foldl_keeps (fun _ _ => ?_) ?_ | with_reducible refine ite_keeps ?_ ?_ | split | fail_if_no_progress with_reducible refine State.Keeps.lit ?_ (Nat.le_refl _) (Nat.le_refl _) | dsimp +zetaDelta only

theorem sendShreq_keeps {s₀ : State} {s : State} (h : s₀.Keeps s) (p : Nat) (x : Xchg) (e : Nat) (v : Nat) (j : Nat) : s₀.Keeps (sendShreq s p x e v j) := by
  unfold sendShreq
  repeat' first | with_reducible assumption | with_reducible apply sendTo_keeps

theorem askOwners_keeps {s₀ : State} {s : State} (h : s₀.Keeps s) (p : Nat) (o : Op) (x : Xchg) (e : Nat) (v : Nat) : s₀.Keeps (askOwners s p o x e v).1 := by
  unfold askOwners
  extract_lets x0 x1 x2
  have h0 : s₀.Keeps x0 := by
    unfold x0
    repeat' first | with_reducible assumption | with_reducible exact State.Keeps.refl _ | fail_if_no_progress extract_lets | with_reducible apply touchElems_keeps | with_reducible apply sendShreq_keeps | with_reducible refine each_keeps (fun _ _ => ?_) ?_ | with_reducible refine foldl_keeps (fun _ _ => ?_) ?_ | split | fail_if_no_progress with_reducible refine State.Keeps.lit ?_ (Nat.le_refl _) (Nat.le_refl _) | dsimp +zetaDelta only
  clear_value x0
  repeat' first | with_reducible assumption | with_reducible exact State.Keeps.refl _ | fail_if_no_progress extract_lets | with_reducible apply touchElems_keeps | with_reducible apply sendShreq_keeps | with_reducible refine each_keeps (fun _ _ => ?_) ?_ | with_reducible refine foldl_keeps (fun _ _ => ?_) ?_ | split | fail_if_no_progress with_reducible refine State.Keeps.lit ?_ (Nat.le_refl _) (Nat.le_refl _) | dsimp +zetaDelta only

theorem beginGather_keeps {s₀ : State} {s : State} (h : s₀.Keeps s) (n : Nat) (o : Op) (b : BitVec 512) : s₀.Keeps (beginGather s n o b).1 := by
  unfold beginGather
  extract_lets x0 x1 x2 x3 x4
  have h3 : s₀.Keeps x3 := by
    unfold x3
    repeat' first | with_reducible assumption | with_reducible exact State.Keeps.refl _ | fail_if_no_progress extract_lets | with_reducible apply touchBlock_keeps | with_reducible apply sendShreq_keeps | with_reducible apply askOwners_keeps | with_reducible refine fst_keeps (by assumption) ?_ | with_reducible refine snd_keeps (by assumption) ?_ | with_reducible refine ite_keeps ?_ ?_ | split | fail_if_no_progress with_reducible refine State.Keeps.lit ?_ (Nat.le_refl _) (Nat.le_refl _) | dsimp +zetaDelta only
  clear_value x3
  repeat' first | with_reducible assumption | with_reducible exact State.Keeps.refl _ | fail_if_no_progress extract_lets | with_reducible apply touchBlock_keeps | with_reducible apply sendShreq_keeps | with_reducible apply askOwners_keeps | with_reducible refine fst_keeps (by assumption) ?_ | with_reducible refine snd_keeps (by assumption) ?_ | with_reducible refine ite_keeps ?_ ?_ | split | fail_if_no_progress with_reducible refine State.Keeps.lit ?_ (Nat.le_refl _) (Nat.le_refl _) | dsimp +zetaDelta only

theorem refuseGather_keeps {s₀ : State} {s : State} (h : s₀.Keeps s) (n : Nat) (o : Op) (x : Xchg) (d : Desc) : s₀.Keeps (refuseGather s n o x d) := by
  unfold refuseGather
  extract_lets x0
  repeat' first | with_reducible assumption | with_reducible apply updPeer_keeps | with_reducible apply faultOp_keeps | split

theorem placeShards_keeps {s₀ : State} {s : State} (h : s₀.Keeps s) (n : Nat) (seq : Nat) (o : Op) (x : Xchg) (d : Desc) : s₀.Keeps (placeShards s n seq o x d) := by
  unfold placeShards
  extract_lets x0 x1
  repeat' first | with_reducible assumption | with_reducible exact State.Keeps.refl _ | fail_if_no_progress extract_lets | with_reducible apply updOp_keeps | with_reducible apply setDesc_keeps | with_reducible apply beginStore_keeps | with_reducible apply endStore_keeps | with_reducible apply convertInto_keeps | with_reducible refine fst_keeps (by assumption) ?_ | with_reducible refine snd_keeps (by assumption) ?_ | with_reducible refine foldl_keeps (fun _ _ => ?_) ?_ | with_reducible refine ite_keeps ?_ ?_ | split | fail_if_no_progress with_reducible refine State.Keeps.lit ?_ (Nat.le_refl _) (Nat.le_refl _) | dsimp +zetaDelta only

theorem xchgEnd_keeps {s₀ : State} {s : State} (h : s₀.Keeps s) (n : Nat) (seq : Nat) : s₀.Keeps (xchgEnd s n seq) := by
  unfold xchgEnd
  repeat' first | with_reducible assumption | with_reducible apply updOp_keeps

theorem endXchg_keeps {s₀ s u : State} (h : s₀.Keeps s) (n : Nat) (o : Op) (x : Xchg) (e : endXchg s n o x = some u) : s₀.Keeps u := by
  unfold endXchg at e
  repeat' first | fail_if_no_progress extract_lets at e | split at e
  all_goals first | (cases e; done) | (rw [← Option.some.inj e]; clear e) | (obtain ⟨y, hy, rfl⟩ := Option.map_eq_some_iff.mp e; clear hy; obtain ⟨n, o, x⟩ := y; dsimp only)
  all_goals repeat' first | with_reducible assumption | with_reducible exact State.Keeps.refl _ | fail_if_no_progress extract_lets | with_reducible apply updOp_keeps | with_reducible apply faultOp_keeps | with_reducible apply placeTokens_keeps | with_reducible apply refuseGather_keeps | with_reducible apply placeShards_keeps | with_reducible apply xchgEnd_keeps | with_reducible refine fst_keeps (by assumption) ?_ | with_reducible refine snd_keeps (by assumption) ?_ | with_reducible refine ite_keeps ?_ ?_ | split | fail_if_no_progress with_reducible refine State.Keeps.lit ?_ (Nat.le_refl _) (Nat.le_refl _) | dsimp +zetaDelta only

theorem pumpSplice_keeps {s₀ s u : State} (h : s₀.Keeps s) (p : Nat) (e : pumpSplice s p = some u) : s₀.Keeps u := by
  unfold pumpSplice at e
  repeat' first | fail_if_no_progress extract_lets at e | split at e
  all_goals first | (cases e; done) | (rw [← Option.some.inj e]; clear e) | (obtain ⟨y, hy, rfl⟩ := Option.map_eq_some_iff.mp e; clear hy; obtain ⟨n, o, x⟩ := y; dsimp only)
  all_goals repeat' first | with_reducible assumption | with_reducible exact State.Keeps.refl _ | fail_if_no_progress extract_lets | with_reducible apply updOp_keeps | with_reducible apply faultOp_keeps | with_reducible apply beginTokens_keeps | with_reducible apply beginGather_keeps | with_reducible refine fst_keeps (by assumption) ?_ | with_reducible refine snd_keeps (by assumption) ?_ | with_reducible refine ite_keeps ?_ ?_ | split | fail_if_no_progress with_reducible refine State.Keeps.lit ?_ (Nat.le_refl _) (Nat.le_refl _) | dsimp +zetaDelta only

theorem execEpochChange_keeps (s : State) (p : BitVec 2) : Out.Keeps s (execEpochChange p s) := by
  unfold execEpochChange
  repeat' first | with_reducible exact State.Keeps.refl _ | with_reducible apply updPeer_keeps | with_reducible apply updOp_keeps | with_reducible refine act_keeps ?_ | with_reducible refine next_keeps ?_ | split

theorem seenBucket_keeps {s₀ : State} {s : State} (h : s₀.Keeps s) (n : Nat) (seq : Nat) (f : PeerFrame) : s₀.Keeps (seenBucket s n seq f) := by
  unfold seenBucket
  repeat' first | with_reducible assumption | with_reducible exact State.Keeps.refl _ | fail_if_no_progress extract_lets | with_reducible apply updBucket_keeps | split | fail_if_no_progress with_reducible refine State.Keeps.lit ?_ (Nat.le_refl _) (Nat.le_refl _)

theorem takeDown_keeps {s₀ : State} {s : State} (h : s₀.Keeps s) (p : Nat) (n : Nat) (o : Op) (b : Bucket) (f : PeerFrame) : s₀.Keeps (takeDown s p n o b f) := by
  unfold takeDown
  extract_lets x0
  repeat' first | with_reducible assumption | with_reducible apply countPort_keeps | with_reducible apply resultPiece_keeps | split | dsimp +zetaDelta only

theorem takeUp_keeps {s₀ : State} {s : State} (h : s₀.Keeps s) (p : Nat) (j : Nat) (n : Nat) (o : Op) (b : Bucket) (f : PeerFrame) : s₀.Keeps (takeUp s p j n o b f) := by
  unfold takeUp
  extract_lets x0 x1
  repeat' first | with_reducible assumption | with_reducible apply updBucket_keeps | with_reducible apply countPort_keeps | with_reducible apply endBucket_keeps | with_reducible apply usePiece_keeps | with_reducible apply countVote_keeps | split

theorem takeRdata_keeps {s₀ s u : State} (h : s₀.Keeps s) (p : Nat) (j : Nat) (f : PeerFrame) (e : takeRdata s p j f = some u) : s₀.Keeps u := by
  unfold takeRdata at e
  repeat' first | fail_if_no_progress extract_lets at e | split at e
  all_goals first | (cases e; done) | (rw [← Option.some.inj e]; clear e) | (obtain ⟨y, hy, rfl⟩ := Option.map_eq_some_iff.mp e; clear hy; obtain ⟨n, o, x⟩ := y; dsimp only)
  all_goals repeat' first | with_reducible assumption | with_reducible exact State.Keeps.refl _ | fail_if_no_progress extract_lets | with_reducible apply endBucket_keeps | with_reducible apply seenBucket_keeps | with_reducible apply takeDown_keeps | with_reducible apply takeUp_keeps | with_reducible refine act_keeps ?_ | with_reducible refine ite_keeps ?_ ?_ | split | fail_if_no_progress with_reducible refine State.Keeps.lit ?_ (Nat.le_refl _) (Nat.le_refl _) | dsimp +zetaDelta only

theorem updXchg_keeps {s₀ : State} {s : State} (h : s₀.Keeps s) (n : Nat) (seq : Nat) (f : PeerFrame) (g : Xchg → Xchg) : s₀.Keeps (State.updXchg s n seq f g) := by
  unfold State.updXchg
  repeat' first | with_reducible assumption | with_reducible exact State.Keeps.refl _ | fail_if_no_progress extract_lets | with_reducible apply updOp_keeps | split | fail_if_no_progress with_reducible refine State.Keeps.lit ?_ (Nat.le_refl _) (Nat.le_refl _) | dsimp +zetaDelta only

theorem takeXcount_keeps {s₀ s u : State} (h : s₀.Keeps s) (p : Nat) (f : PeerFrame) (e : takeXcount s p f = some u) : s₀.Keeps u := by
  unfold takeXcount at e
  repeat' first | fail_if_no_progress extract_lets at e | split at e
  all_goals first | (cases e; done) | (rw [← Option.some.inj e]; clear e) | (obtain ⟨y, hy, rfl⟩ := Option.map_eq_some_iff.mp e; clear hy; obtain ⟨n, o, x⟩ := y; dsimp only)
  all_goals repeat' first | with_reducible assumption | with_reducible exact State.Keeps.refl _ | fail_if_no_progress extract_lets | with_reducible apply updXchg_keeps | split | fail_if_no_progress with_reducible refine State.Keeps.lit ?_ (Nat.le_refl _) (Nat.le_refl _)

theorem takeXdata_keeps {s₀ s u : State} (h : s₀.Keeps s) (p : Nat) (f : PeerFrame) (e : takeXdata s p f = some u) : s₀.Keeps u := by
  unfold takeXdata at e
  repeat' first | fail_if_no_progress extract_lets at e | split at e
  all_goals first | (cases e; done) | (rw [← Option.some.inj e]; clear e) | (obtain ⟨y, hy, rfl⟩ := Option.map_eq_some_iff.mp e; clear hy; obtain ⟨n, o, x⟩ := y; dsimp only)
  all_goals repeat' first | with_reducible assumption | with_reducible exact State.Keeps.refl _ | with_reducible apply updXchg_keeps | split | fail_if_no_progress with_reducible refine State.Keeps.lit ?_ (Nat.le_refl _) (Nat.le_refl _)

theorem takeShdata_keeps {s₀ s u : State} (h : s₀.Keeps s) (p : Nat) (f : PeerFrame) (e : takeShdata s p f = some u) : s₀.Keeps u := by
  unfold takeShdata at e
  repeat' first | fail_if_no_progress extract_lets at e | split at e
  all_goals first | (cases e; done) | (rw [← Option.some.inj e]; clear e) | (obtain ⟨y, hy, rfl⟩ := Option.map_eq_some_iff.mp e; clear hy; obtain ⟨n, o, x⟩ := y; dsimp only)
  all_goals repeat' first | with_reducible assumption | with_reducible exact State.Keeps.refl _ | fail_if_no_progress extract_lets | with_reducible apply faultOp_keeps | with_reducible apply updXchg_keeps | with_reducible refine ite_keeps ?_ ?_ | split | fail_if_no_progress with_reducible refine State.Keeps.lit ?_ (Nat.le_refl _) (Nat.le_refl _) | dsimp +zetaDelta only

theorem takeShref_keeps {s₀ s u : State} (h : s₀.Keeps s) (p : Nat) (f : PeerFrame) (e : takeShref s p f = some u) : s₀.Keeps u := by
  unfold takeShref at e
  repeat' first | fail_if_no_progress extract_lets at e | split at e
  all_goals first | (cases e; done) | (rw [← Option.some.inj e]; clear e) | (obtain ⟨y, hy, rfl⟩ := Option.map_eq_some_iff.mp e; clear hy; obtain ⟨n, o, x⟩ := y; dsimp only)
  all_goals repeat' first | with_reducible assumption | with_reducible exact State.Keeps.refl _ | fail_if_no_progress extract_lets | with_reducible apply askOwners_keeps | with_reducible apply updXchg_keeps | with_reducible refine fst_keeps (by assumption) ?_ | with_reducible refine snd_keeps (by assumption) ?_ | with_reducible refine ite_keeps ?_ ?_ | split | fail_if_no_progress with_reducible refine State.Keeps.lit ?_ (Nat.le_refl _) (Nat.le_refl _) | dsimp +zetaDelta only

theorem serveShard_keeps {s₀ : State} {s : State} (h : s₀.Keeps s) (p : Nat) (f : PeerFrame) : s₀.Keeps (serveShard s p f) := by
  unfold serveShard
  extract_lets x0 x1 x2 x3
  repeat' first | with_reducible assumption | with_reducible exact State.Keeps.refl _ | fail_if_no_progress extract_lets | with_reducible apply recordRefused_keeps | with_reducible apply sendTo_keeps | with_reducible apply touchElems_keeps | with_reducible apply sendBlocks_keeps | split | fail_if_no_progress with_reducible refine State.Keeps.lit ?_ (Nat.le_refl _) (Nat.le_refl _) | dsimp +zetaDelta only

theorem takeAbort_keeps {s₀ : State} {s : State} (h : s₀.Keeps s) (p : Nat) (f : PeerFrame) : s₀.Keeps (takeAbort s p f) := by
  unfold takeAbort
  repeat' first | with_reducible assumption | with_reducible exact State.Keeps.refl _ | with_reducible apply faultOp_keeps | with_reducible refine foldl_keeps (fun _ _ => ?_) ?_ | split | dsimp +zetaDelta only

theorem sendAgain_keeps {s₀ : State} {s : State} (h : s₀.Keeps s) (p : Nat) (o : Op) (b : Bucket) (f : PeerFrame) : s₀.Keeps (sendAgain s p o b f) := by
  unfold sendAgain
  repeat' first | with_reducible assumption | with_reducible exact State.Keeps.refl _ | fail_if_no_progress extract_lets | with_reducible apply sendPieceOn_keeps | with_reducible refine each_keeps (fun _ _ => ?_) ?_ | with_reducible refine ite_keeps ?_ ?_ | split | fail_if_no_progress with_reducible refine State.Keeps.lit ?_ (Nat.le_refl _) (Nat.le_refl _)

theorem takeRedo_keeps {s₀ : State} {s : State} (h : s₀.Keeps s) (p : Nat) (f : PeerFrame) : s₀.Keeps (takeRedo s p f) := by
  unfold takeRedo
  repeat' first | with_reducible assumption | with_reducible exact State.Keeps.refl _ | fail_if_no_progress extract_lets | with_reducible apply redoBelow_keeps | with_reducible apply wantRedo_keeps | with_reducible apply endBucket_keeps | with_reducible apply seenBucket_keeps | with_reducible apply sendAgain_keeps | with_reducible refine act_keeps ?_ | with_reducible refine ite_keeps ?_ ?_ | split | fail_if_no_progress with_reducible refine State.Keeps.lit ?_ (Nat.le_refl _) (Nat.le_refl _) | dsimp +zetaDelta only

theorem takeFrame_keeps {s₀ s u : State} (h : s₀.Keeps s) (p j : Nat) (f : PeerFrame) (e : takeFrame s p j f = some u) : s₀.Keeps u := by
  unfold takeFrame at e
  split at e
  · exact takeRdata_keeps h _ _ _ e
  · exact takeXdata_keeps h _ _ e
  · exact takeXcount_keeps h _ _ e
  · rw [← Option.some.inj e]
    exact serveShard_keeps h _ _
  · exact takeShdata_keeps h _ _ e
  · exact takeShref_keeps h _ _ e
  · rw [← Option.some.inj e]
    exact takeAbort_keeps h _ _
  · rw [← Option.some.inj e]
    exact takeRedo_keeps h _ _
  · rw [← Option.some.inj e]
    exact h

theorem takeScan_keeps {t s : State} (h : t.Keeps s) (p j : Nat) (l : List PeerFrame) (held : List (Nat × Nat × Nat)) {e : PeerFrame × State}
    (he : takeScan s p j l held = some e) : t.Keeps e.2 := by
  induction l generalizing held with
  | nil => cases he
  | cons f l ih =>
    unfold takeScan at he
    split at he
    · exact ih _ he
    · split at he
      · rename_i hv
        cases he
        exact takeFrame_keeps h _ _ _ hv
      · exact ih _ he

theorem takeOne_keeps {t s u : State} (h : t.Keeps s) (p : Nat) (e : takeOne s p = some u) : t.Keeps u := by
  unfold takeOne at e
  obtain ⟨j, -, hj⟩ := List.exists_of_findSome?_eq_some e
  obtain ⟨x, hx, rfl⟩ := Option.map_eq_some_iff.mp hj
  exact updPort_keeps (takeScan_keeps h _ _ _ _ hx) _ _

theorem settleStep_keeps {s₀ s u : State} (h : s₀.Keeps s) (p : Nat) (e : settleStep s p = some u) : s₀.Keeps u := by
  unfold settleStep at e
  split at e
  · rename_i hv
    rw [← Option.some.inj e]
    obtain ⟨c, -, hc⟩ := List.exists_of_findSome?_eq_some hv
    exact pumpStep_keeps h _ _ hc
  · split at e
    · rename_i hv
      rw [← Option.some.inj e]
      obtain ⟨x, -, hx⟩ := List.exists_of_findSome?_eq_some hv
      exact endXchg_keeps h _ _ _ hx
    · split at e
      · rename_i hv
        rw [← Option.some.inj e]
        exact pumpSplice_keeps h _ hv
      · exact takeOne_keeps h _ e

theorem settleLoop_keeps {t s : State} (h : t.Keeps s) (k p : Nat) : t.Keeps (settleLoop k s p) := by
  induction k generalizing s with
  | zero => exact h
  | succ k ih =>
    unfold settleLoop
    split
    · rename_i hv
      exact ih (settleStep_keeps h _ hv)
    · exact h

theorem settleFabric_keeps {s₀ : State} {s : State} (h : s₀.Keeps s) (p : Nat) : s₀.Keeps (settleFabric s p) := by
  unfold settleFabric
  repeat' first | with_reducible assumption | with_reducible apply settleLoop_keeps

theorem thenSettle_keeps {s : State} {o : Out} (n : Nat) (h : Out.Keeps s o) : Out.Keeps s (thenSettle n o) := by
  obtain ⟨t, rfl, ht⟩ := h
  exact next_keeps (settleFabric_keeps ht _)

theorem execReduce_keeps (s : State) (ring : BitVec 6) : Out.Keeps s (execReduce ring s) := by
  unfold execReduce
  repeat' first | with_reducible assumption | with_reducible exact State.Keeps.refl _ | fail_if_no_progress extract_lets | with_reducible apply dispatchHead_keeps | with_reducible apply startReduce_keeps | with_reducible apply thenSettle_keeps | with_reducible refine fst_keeps (by assumption) ?_ | with_reducible refine snd_keeps (by assumption) ?_ | intro _ _ | dsimp only | with_reducible refine next_keeps ?_ | split | fail_if_no_progress with_reducible refine State.Keeps.lit ?_ (Nat.le_refl _) (Nat.le_refl _) | dsimp only | dsimp +zetaDelta only

theorem exchangeRow_keeps (s : State) (mode : Nat) (ring : BitVec 6) : Out.Keeps s (exchangeRow mode ring s) := by
  unfold exchangeRow
  repeat' first | with_reducible assumption | with_reducible exact State.Keeps.refl _ | fail_if_no_progress extract_lets | with_reducible apply touch_keeps | with_reducible apply dispatchHead_keeps | with_reducible apply beginTokens_keeps | with_reducible apply beginGather_keeps | with_reducible apply thenSettle_keeps | with_reducible refine fst_keeps (by assumption) ?_ | with_reducible refine snd_keeps (by assumption) ?_ | intro _ _ | dsimp only | with_reducible refine next_keeps ?_ | with_reducible refine ite_keeps ?_ ?_ | split | fail_if_no_progress with_reducible refine State.Keeps.lit ?_ (Nat.le_refl _) (Nat.le_refl _) | dsimp only | dsimp +zetaDelta only

theorem execTokenExchange_keeps (s : State) (ring : BitVec 6) : Out.Keeps s (execTokenExchange ring s) := by
  unfold execTokenExchange
  repeat' first | with_reducible apply exchangeRow_keeps

theorem execShardGather_keeps (s : State) (ring : BitVec 6) : Out.Keeps s (execShardGather ring s) := by
  unfold execShardGather
  repeat' first | with_reducible apply exchangeRow_keeps

theorem execSplice_keeps (s : State) (ring : BitVec 6) : Out.Keeps s (execSplice ring s) := by
  unfold execSplice
  repeat' first | with_reducible assumption | with_reducible exact State.Keeps.refl _ | fail_if_no_progress extract_lets | with_reducible apply touch_keeps | with_reducible apply dispatchHead_keeps | with_reducible apply thenSettle_keeps | intro _ _ | dsimp only | with_reducible refine next_keeps ?_ | split | fail_if_no_progress with_reducible refine State.Keeps.lit ?_ (Nat.le_refl _) (Nat.le_refl _) | dsimp only | dsimp +zetaDelta only

theorem execMacroOpComplete_keeps (s : State) (ring : BitVec 6) (seq : BitVec 64) : Out.Keeps s (execMacroOpComplete ring seq s) := by
  unfold execMacroOpComplete
  repeat' first | with_reducible assumption | with_reducible exact State.Keeps.refl _ | fail_if_no_progress extract_lets | with_reducible apply finishOp_keeps | with_reducible apply settleFabric_keeps | with_reducible refine act_keeps ?_ | with_reducible refine next_keeps ?_ | split | fail_if_no_progress with_reducible refine State.Keeps.lit ?_ (Nat.le_refl _) (Nat.le_refl _) | dsimp +zetaDelta only

theorem receive_keeps (s : State) (ok : Nat → Bool) (known : Bool) (port : BitVec 4) (f : PeerFrame) : Out.Keeps s (receive ok known port f s) := by
  unfold receive
  repeat' first | with_reducible exact State.Keeps.refl _ | with_reducible apply updPort_keeps | with_reducible apply countPort_keeps | with_reducible apply linkLayer_keeps | with_reducible apply settleFabric_keeps | with_reducible refine act_keeps ?_ | split

theorem execRdata_keeps (s : State) (port : BitVec 4) (f : PeerFrame) : Out.Keeps s (execRdata port f s) := by
  unfold execRdata
  repeat' first | with_reducible apply receive_keeps

theorem execXdata_keeps (s : State) (port : BitVec 4) (f : PeerFrame) : Out.Keeps s (execXdata port f s) := by
  unfold execXdata
  repeat' first | with_reducible apply receive_keeps

theorem execXcount_keeps (s : State) (port : BitVec 4) (f : PeerFrame) : Out.Keeps s (execXcount port f s) := by
  unfold execXcount
  repeat' first | with_reducible apply receive_keeps

theorem execShreq_keeps (s : State) (port : BitVec 4) (f : PeerFrame) : Out.Keeps s (execShreq port f s) := by
  unfold execShreq
  repeat' first | with_reducible apply receive_keeps

theorem execShdata_keeps (s : State) (port : BitVec 4) (f : PeerFrame) : Out.Keeps s (execShdata port f s) := by
  unfold execShdata
  repeat' first | with_reducible apply receive_keeps

theorem execShref_keeps (s : State) (port : BitVec 4) (f : PeerFrame) : Out.Keeps s (execShref port f s) := by
  unfold execShref
  repeat' first | with_reducible apply receive_keeps

theorem execAbort_keeps (s : State) (port : BitVec 4) (f : PeerFrame) : Out.Keeps s (execAbort port f s) := by
  unfold execAbort
  repeat' first | with_reducible apply receive_keeps

theorem execRedo_keeps (s : State) (port : BitVec 4) (f : PeerFrame) : Out.Keeps s (execRedo port f s) := by
  unfold execRedo
  repeat' first | with_reducible apply receive_keeps

theorem execLink_keeps (s : State) (port : BitVec 4) (f : PeerFrame) : Out.Keeps s (execLink port f s) := by
  unfold execLink
  repeat' first | with_reducible apply receive_keeps

theorem execFrameOfUndefinedType_keeps (s : State) (port : BitVec 4) (f : PeerFrame) : Out.Keeps s (execFrameOfUndefinedType port f s) := by
  unfold execFrameOfUndefinedType
  repeat' first | with_reducible apply receive_keeps

theorem execNak_keeps (s : State) (port : BitVec 4) (ack : BitVec 16) : Out.Keeps s (execNak port ack s) := by
  unfold execNak
  repeat' first | with_reducible assumption | with_reducible exact State.Keeps.refl _ | fail_if_no_progress extract_lets | with_reducible apply replayPort_keeps | with_reducible apply countPort_keeps | with_reducible apply takeAck_keeps | with_reducible apply settleFabric_keeps | with_reducible refine act_keeps ?_ | with_reducible refine next_keeps ?_ | with_reducible refine ite_keeps ?_ ?_ | split | fail_if_no_progress with_reducible refine State.Keeps.lit ?_ (Nat.le_refl _) (Nat.le_refl _) | dsimp +zetaDelta only

theorem execPeerTimeout_keeps (s : State) (ring : BitVec 6) (seq : BitVec 64) : Out.Keeps s (execPeerTimeout ring seq s) := by
  unfold execPeerTimeout
  repeat' first | with_reducible exact State.Keeps.refl _ | with_reducible apply faultOp_keeps | with_reducible apply settleFabric_keeps | with_reducible refine act_keeps ?_ | with_reducible refine next_keeps ?_ | split | dsimp +zetaDelta only

/-! ### Stop -/

theorem stopOp_keeps {s₀ : State} {s : State} (h : s₀.Keeps s) (n : Nat) (o : Op) : s₀.Keeps (stopOp s n o) := by
  unfold stopOp
  extract_lets x0 x1 x2
  have h1 : s₀.Keeps x1 := by
    unfold x1
    repeat' first | with_reducible assumption | with_reducible apply abortOp_keeps
  clear_value x1
  have h2 : s₀.Keeps x2 := by
    unfold x2
    repeat' first | with_reducible assumption | with_reducible apply dropProgram_keeps | split
  clear_value x2
  repeat' first | with_reducible assumption | with_reducible apply updRing_keeps | with_reducible apply takeFree_keeps | with_reducible apply updOp_keeps

theorem endStop_keeps {s₀ : State} {s : State} (h : s₀.Keeps s) (n : Nat) : s₀.Keeps (endStop s n) := by
  unfold endStop
  extract_lets x0 x1 x2 x3 x4 x5
  have h1 : s₀.Keeps x1 := by
    unfold x1
    repeat' first | with_reducible assumption | with_reducible apply withdraw_keeps
  clear_value x1
  have h2 : s₀.Keeps x2 := by
    unfold x2
    repeat' first | with_reducible assumption | with_reducible exact State.Keeps.refl _ | with_reducible apply stopOp_keeps | with_reducible refine foldl_keeps (fun _ _ => ?_) ?_
  clear_value x2
  have h3 : s₀.Keeps x3 := by
    unfold x3
    repeat' first | with_reducible assumption | with_reducible apply retire_keeps
  clear_value x3
  have h5 : s₀.Keeps x5 := by
    unfold x5
    repeat' first | with_reducible assumption | with_reducible apply closeStep_keeps | split
  clear_value x5
  repeat' first | with_reducible assumption | with_reducible apply updRing_keeps

theorem resumeAfter_keeps {s₀ : State} {s : State} (h : s₀.Keeps s) (n : Nat) : s₀.Keeps (resumeAfter s n) := by
  unfold resumeAfter
  extract_lets x0
  repeat' first | with_reducible assumption | with_reducible apply updRing_keeps | with_reducible apply runOrIdle_keeps | split

theorem execStreamStopped_keeps (s : State) (ring : BitVec 6) : Out.Keeps s (execStreamStopped ring s) := by
  unfold execStreamStopped
  repeat' first | with_reducible exact State.Keeps.refl _ | with_reducible apply settleStop_keeps | with_reducible apply settleFabric_keeps | with_reducible apply endStop_keeps | with_reducible apply resumeAfter_keeps | with_reducible refine act_keeps ?_

theorem againXchg_keeps {s₀ : State} {s : State} (h : s₀.Keeps s) (n : Nat) (o : Op) (x : Xchg) : s₀.Keeps (againXchg s n o x).1 := by
  unfold againXchg
  repeat' first | with_reducible assumption | with_reducible exact State.Keeps.refl _ | fail_if_no_progress extract_lets | with_reducible apply beginTokens_keeps | with_reducible apply askOwners_keeps | with_reducible apply beginGather_keeps | with_reducible refine fst_keeps (by assumption) ?_ | with_reducible refine snd_keeps (by assumption) ?_ | with_reducible refine foldl_keeps (fun _ _ => ?_) ?_ | with_reducible refine ite_keeps ?_ ?_ | split | fail_if_no_progress with_reducible refine State.Keeps.lit ?_ (Nat.le_refl _) (Nat.le_refl _) | dsimp +zetaDelta only

theorem takeUpAgain_keeps {s₀ : State} {s : State} (h : s₀.Keeps s) (n : Nat) (o : Op) : s₀.Keeps (takeUpAgain s n o).1 := by
  unfold takeUpAgain
  extract_lets x0 x1 x2 x3
  have h1 : s₀.Keeps x1 := by
    unfold x1
    repeat' first | with_reducible assumption | with_reducible apply updRing_keeps
  clear_value x1
  repeat' first | with_reducible assumption | with_reducible apply againXchg_keeps | split

theorem execContinueEntry_keeps (s : State) (ring : BitVec 6) : Out.Keeps s (execContinueEntry ring s) := by
  unfold execContinueEntry
  repeat' first | with_reducible exact State.Keeps.refl _ | with_reducible apply dispatchHead_keeps | with_reducible apply thenSettle_keeps | with_reducible apply takeUpAgain_keeps | intro _ _

/-! ### Shares -/

theorem execShareStart_keeps (s : State) (room : BitVec 7) : Out.Keeps s (execShareStart room s) := by
  unfold execShareStart
  repeat' first | with_reducible assumption | with_reducible exact State.Keeps.refl _ | fail_if_no_progress extract_lets | with_reducible apply updRoom_keeps | with_reducible apply updOps_keeps | with_reducible apply updOp_keeps | with_reducible apply faultOp_keeps | with_reducible refine each_keeps (fun _ _ => ?_) ?_ | with_reducible refine act_keeps ?_ | with_reducible refine next_keeps ?_ | with_reducible refine ite_keeps ?_ ?_ | split | fail_if_no_progress with_reducible refine State.Keeps.lit ?_ (Nat.le_refl _) (Nat.le_refl _) | dsimp +zetaDelta only

/-! ### Debug -/

theorem setDbg_keeps {s₀ : State} {s : State} (h : s₀.Keeps s) (v : U64) : s₀.Keeps (setDbg s v) := by
  unfold setDbg
  repeat' first | with_reducible assumption | fail_if_no_progress with_reducible refine State.Keeps.lit ?_ (Nat.le_refl _) (Nat.le_refl _)

theorem unreachedDbg_keeps {s₀ : State} {s : State} (h : s₀.Keeps s)  : s₀.Keeps (unreachedDbg s) := by
  unfold unreachedDbg
  repeat' first | with_reducible assumption | with_reducible apply takeFree_keeps | with_reducible apply setDbg_keeps

theorem stepRoom_keeps {s₀ : State} {s : State} (h : s₀.Keeps s) (n : Nat) : s₀.Keeps (stepRoom s n) := by
  unfold stepRoom
  extract_lets x0
  have h0 : s₀.Keeps x0 := by
    unfold x0
    repeat' first | with_reducible assumption | with_reducible apply updRoom_keeps
  clear_value x0
  repeat' first | with_reducible assumption | with_reducible apply updRoom_keeps | with_reducible apply roomStep_keeps | split

theorem debugAccess_keeps {t s : State} (h : t.Keeps s) (c : DbgCmd) : t.Keeps (debugAccess s c) := by
  unfold debugAccess
  split
  · exact ite_keeps (setDbg_keeps h _) (unreachedDbg_keeps h)
  · exact ite_keeps (updRoom_keeps h _ _) h
  · split
    · exact setDbg_keeps h _
    · exact unreachedDbg_keeps h
  · split
    · exact sameStacks_keeps h rfl rfl rfl
    · exact h
  · split
    · exact setDbg_keeps h _
    · exact unreachedDbg_keeps h
  · exact ite_keeps (State.Keeps.lit h (Nat.le_refl _) (Nat.le_refl _)) h
  · exact updRoom_keeps h _ _
  · exact updRoom_keeps h _ _
  · exact ite_keeps (stepRoom_keeps h _) h

theorem execDbgacc_keeps (s : State) (cmd : DbgCmd) : Out.Keeps s (execDbgacc cmd s) := by
  unfold execDbgacc
  refine act_keeps ?_
  extract_lets u
  exact ite_keeps (debugAccess_keeps (loadIr_keeps (State.Keeps.refl s) _) _) (loadIr_keeps (State.Keeps.refl s) _)

/-! ### Clock -/

theorem tickPhase_keeps {s₀ : State} {s : State} (h : s₀.Keeps s) (n : Nat) : s₀.Keeps (tickPhase s n) := by
  unfold tickPhase
  extract_lets x0
  repeat' first | with_reducible assumption | with_reducible apply updRing_keeps

theorem skipStamp_keeps {s₀ : State} {s : State} (h : s₀.Keeps s) (n : Nat) : s₀.Keeps (skipStamp s n) := by
  unfold skipStamp
  extract_lets x0
  repeat' first | with_reducible assumption | with_reducible apply armStamp_keeps | split

theorem takeStamp_keeps {s₀ : State} {s : State} (h : s₀.Keeps s) (n : Nat) : s₀.Keeps (takeStamp s n) := by
  unfold takeStamp
  repeat' first | with_reducible assumption | with_reducible apply updRing_keeps | split

theorem execPhaseTimerStamp_keeps (s : State) (k : BitVec 8) : Out.Keeps s (execPhaseTimerStamp k s) := by
  unfold execPhaseTimerStamp
  repeat' first | with_reducible exact State.Keeps.refl _ | with_reducible apply markFired_keeps | with_reducible apply armStamp_keeps | with_reducible apply takeStamp_keeps | with_reducible refine act_keeps ?_ | split | dsimp +zetaDelta only

theorem clockTick_keeps {s₀ : State} {s : State} (h : s₀.Keeps s)  : s₀.Keeps (clockTick s) := by
  unfold clockTick
  extract_lets x0
  have h0 : s₀.Keeps x0 := by
    unfold x0
    repeat' first | with_reducible assumption | with_reducible exact State.Keeps.refl _ | fail_if_no_progress extract_lets | with_reducible apply timeTick_keeps | with_reducible apply tickPhase_keeps | with_reducible apply skipStamp_keeps | with_reducible refine each_keeps (fun _ _ => ?_) ?_ | with_reducible refine ite_keeps ?_ ?_ | split | fail_if_no_progress with_reducible refine State.Keeps.lit ?_ (Nat.le_refl _) (Nat.le_refl _) | dsimp +zetaDelta only
  clear_value x0
  repeat' first | with_reducible assumption | with_reducible exact State.Keeps.refl _ | fail_if_no_progress extract_lets | with_reducible apply timeTick_keeps | with_reducible apply tickPhase_keeps | with_reducible apply skipStamp_keeps | with_reducible refine each_keeps (fun _ _ => ?_) ?_ | with_reducible refine ite_keeps ?_ ?_ | split | fail_if_no_progress with_reducible refine State.Keeps.lit ?_ (Nat.le_refl _) (Nat.le_refl _) | dsimp +zetaDelta only

theorem tick_keeps {s₀ : State} {s : State} (h : s₀.Keeps s)  : s₀.Keeps (tick s) := by
  unfold tick
  repeat' first | with_reducible assumption | with_reducible exact State.Keeps.refl _ | with_reducible apply settleFound_keeps | with_reducible apply clockTick_keeps | split | fail_if_no_progress with_reducible refine State.Keeps.lit ?_ (Nat.le_refl _) (Nat.le_refl _)

end Sys2Proof.Machine
end

