-- ==== Sys2Proof/Laws/Log.lean ====
section
/-! SUPPORT. What writing a trouble-log entry does (R405 to R407): the next place of the log, the queue of fault frames, nothing else. -/

namespace Sys2Proof.Machine

variable (s : State) (c : U16) (a : LogArgs)

theorem logWord_cause (seq : U32) : bits (logWord s seq c a) 80 16 = c := by
  unfold logWord
  dsimp only
  rw [bits_putBits_ne _ _ _ _ (by omega), bits_putBits_ne _ _ _ _ (by omega), bits_putField_ne _ _ _ _ _ (by omega),
    bits_putField_ne _ _ _ _ _ (by omega), bits_putBits_ne _ _ _ _ (by omega), bits_putBits_ne _ _ _ _ (by omega),
    bits_putBits_ne _ _ _ _ (by omega), bits_putBits_same _ _ _ (by omega)]

theorem logWord_seq (seq : U32) : bits (logWord s seq c a) 96 32 = seq := by
  unfold logWord
  dsimp only
  rw [bits_putBits_ne _ _ _ _ (by omega), bits_putBits_ne _ _ _ _ (by omega), bits_putField_ne _ _ _ _ _ (by omega),
    bits_putField_ne _ _ _ _ _ (by omega), bits_putBits_ne _ _ _ _ (by omega), bits_putBits_ne _ _ _ _ (by omega),
    bits_putBits_ne _ _ _ _ (by omega), bits_putBits_ne _ _ _ _ (by omega), bits_putBits_same _ _ _ (by omega)]

theorem logWord_sev (seq : U32) (h : a.sev < 8) : field (logWord s seq c a) 26 3 = a.sev := by
  unfold logWord
  dsimp only
  rw [field_eq, bits_putBits_ne _ _ _ _ (by omega), bits_putBits_ne _ _ _ _ (by omega), bits_putField_same _ _ _ _ (by omega),
    BitVec.toNat_ofNat, Nat.mod_eq_of_lt (by omega)]

/-- Neighbouring places of the log differ. -/
theorem place_ne (x : U32) : (x + 1).toNat % 4096 ≠ x.toNat % 4096 := by
  rw [BitVec.toNat_add]
  have := x.isLt
  show (x.toNat + 1) % 4294967296 % 4096 ≠ _
  omega

/-- One entry of the log, and nothing else but the fault queue and its counts. -/
theorem logEvent_frame' : logEvent s c a = { s with log := (logEvent s c a).log, can := (logEvent s c a).can } := by
  unfold logEvent queueFault logOnly
  dsimp only
  repeat' split
  all_goals rfl

theorem logOnly_logs (h : a.sev < 8) : LogsNext s (logOnly s c a) c a.sev := by
  refine ⟨logWord s (s.log.seq + 1) c a, ?_, logWord_cause .., logWord_sev _ _ _ _ h, logWord_seq ..⟩
  show Tbl.find (Tbl.set _ _ _) _ = _
  rw [Tbl.find_set, if_pos rfl]

/-- The fault frame of an entry leaves the log alone. -/
theorem queueFault_log : (queueFault s c a).log = s.log := by
  unfold queueFault
  repeat' split
  all_goals rfl

theorem LogsNext.congr {s t u : State} {c : U16} {v : Nat} (h : LogsNext s t c v) (e : u.log.entries = t.log.entries) : LogsNext s u c v := by
  obtain ⟨w, h1, h2⟩ := h
  exact ⟨w, e ▸ h1, h2⟩

/-- A second entry leaves the first where it stands. -/
theorem LogsNext.after {s t : State} {c : U16} {v : Nat} (h : LogsNext s t c v) (e : t.log.seq = s.log.seq + 1) (d : U16) (b : LogArgs) :
    LogsNext s (logOnly t d b) c v := by
  obtain ⟨w, h1, h2⟩ := h
  refine ⟨w, ?_, h2⟩
  show Tbl.find (Tbl.set _ _ _) _ = _
  rw [Tbl.find_set, if_neg, h1]
  rw [e]
  exact (place_ne s.log.seq).symm

/-- The entry stands in the log's next place. -/
theorem logEvent_logs (h : a.sev < 8) : LogsNext s (logEvent s c a) c a.sev := by
  have key : LogsNext s (queueFault (logOnly s c a) c a) c a.sev := (logOnly_logs s c a h).congr (by rw [queueFault_log])
  have seq : (queueFault (logOnly s c a) c a).log.seq = s.log.seq + 1 := by rw [queueFault_log]; rfl
  unfold logEvent
  dsimp only
  split
  · exact key
  · split
    · split
      · exact key
      · exact key.after seq _ _
    · exact key.after seq _ _

@[simp] theorem logEvent_time : (logEvent s c a).time = s.time := by rw [logEvent_frame']
@[simp] theorem logEvent_psec : (logEvent s c a).psec = s.psec := by rw [logEvent_frame']
@[simp] theorem logEvent_rings : (logEvent s c a).rings = s.rings := by rw [logEvent_frame']
@[simp] theorem logEvent_rooms : (logEvent s c a).rooms = s.rooms := by rw [logEvent_frame']
@[simp] theorem logEvent_events : (logEvent s c a).events = s.events := by rw [logEvent_frame']
@[simp] theorem logEvent_mem : (logEvent s c a).mem = s.mem := by rw [logEvent_frame']
@[simp] theorem logEvent_pw : (logEvent s c a).pw = s.pw := by rw [logEvent_frame']
@[simp] theorem logEvent_boot : (logEvent s c a).boot = s.boot := by rw [logEvent_frame']
@[simp] theorem logEvent_svc : (logEvent s c a).svc = s.svc := by rw [logEvent_frame']
@[simp] theorem logEvent_link : (logEvent s c a).link = s.link := by rw [logEvent_frame']
@[simp] theorem logEvent_dict : (logEvent s c a).dict = s.dict := by rw [logEvent_frame']
@[simp] theorem logEvent_mode : (logEvent s c a).mode = s.mode := by rw [logEvent_frame']

end Sys2Proof.Machine
end

