-- ==== Sys2Proof/Tests/Slice0.lean ====
section
/-! SUPPORT. Tests of the model on small states: terms that the well-formedness checks refuse, values that the spec gives, and, for every
statement with hypotheses, a state and operands that meet them. -/

open Sys2Proof Sys2Proof.Machine

namespace Sys2Proof.Tests

set_option Elab.async false

/-! ### Ill-formed commands -/

def frame (typ len : Nat) (n : Nat) : PeerFrame := { hdr := BitVec.ofNat 128 (typ + len * 2 ^ 47), payload := List.replicate n 0, trl := 0 }

theorem test_peer_frame_types : (Instr.rdata 0 (frame 1 1 4)).wellFormed = true ∧ (Instr.rdata 0 (frame 2 1 4)).wellFormed = false ∧
    (Instr.xdata 0 (frame 1 1 4)).wellFormed = false ∧ (Instr.xcount 0 (frame 1 1 4)).wellFormed = false ∧
    (Instr.shreq 0 (frame 1 1 4)).wellFormed = false ∧ (Instr.shdata 0 (frame 1 1 4)).wellFormed = false ∧
    (Instr.shref 0 (frame 1 1 4)).wellFormed = false ∧ (Instr.abort 0 (frame 1 1 4)).wellFormed = false ∧
    (Instr.redo 0 (frame 1 1 4)).wellFormed = false ∧ (Instr.link 0 (frame 1 1 4)).wellFormed = false ∧
    (Instr.frameOfUndefinedType 0 (frame 9 0 0)).wellFormed = false ∧ (Instr.frameOfUndefinedType 0 (frame 10 0 0)).wellFormed = true := by
  decide +kernel
theorem test_peer_frame_length : (Instr.rdata 0 (frame 1 1 8)).wellFormed = false ∧ (Instr.rdata 0 (frame 1 129 516)).wellFormed = false ∧
    (Instr.rdata 0 (frame 1 128 512)).wellFormed = true := by decide +kernel
theorem test_expedited_length : (Instr.expeditedWrite true 0 0 []).wellFormed = false ∧
    (Instr.expeditedWrite true 0 0 (List.replicate 61 0)).wellFormed = false ∧ (Instr.expeditedWrite false 0 0 [0, 0, 0, 0, 0]).wellFormed = false ∧
    (Instr.expeditedWrite false 0 0 [0, 0, 0, 0]).wellFormed = true := by decide
theorem test_segment_length : (Instr.segmentFrame true false false (List.replicate 64 0)).wellFormed = false ∧
    (Instr.segmentFrame false false false (List.replicate 8 0)).wellFormed = false ∧
    (Instr.segmentFrame false false false (List.replicate 7 0)).wellFormed = true := by decide
theorem test_sensor_counts : (Instr.thermalReading (List.replicate 23 0)).wellFormed = false ∧
    (Instr.stackTemperatureRead (List.replicate 13 0)).wellFormed = false ∧ (Instr.thermalReading (List.replicate 24 0)).wellFormed = true := by decide
theorem test_poll_names_once : (Instr.pmbusPoll [⟨3, none, none⟩, ⟨3, none, none⟩]).wellFormed = false ∧
    (Instr.pmbusPoll [⟨3, none, none⟩, ⟨4, none, none⟩]).wellFormed = true := by decide
theorem test_idle_flit_is_alone : (Instr.idleFlit ⟨0, 0, true, []⟩).wellFormed = false ∧ (Instr.idleFlit ⟨0, 0, false, []⟩).wellFormed = true := by decide
theorem test_undefined_type : (Instr.messageOfUndefinedType ⟨⟨0, 0, false, []⟩, 10⟩).wellFormed = false ∧
    (Instr.messageOfUndefinedType ⟨⟨0, 0, false, []⟩, 11⟩).wellFormed = true := by decide
theorem test_unit_numbers : (Instr.selfTestDone [(5, 0)]).wellFormed = false ∧ (Instr.quarantineEnd 0 128 true).wellFormed = false ∧
    (Instr.readmission 3 64).wellFormed = false ∧ (Instr.readmission 3 63).wellFormed = true := by decide
theorem test_scan_die : (Instr.scanchain 4).wellFormed = false ∧ (Instr.scanchain 3).wellFormed = true := by decide

/-- The table gives its rows no bits. -/
theorem test_no_word_spells_a_command : decodeTableWord 8 0x42 = none ∧ decodeTableWord 32 0xFFFFFFFF = none := by decide

/-! ### States that the witnesses start from -/

/-- Running and LOCKED, partition 0 open, mode ONE. -/
def dev : State :=
  { boot := { stage := .running, vendorKey := [1] }, psec := [(0, { st := .opened, windowEn := true })]
    time := { mode := .locked, tref := true, counter := 9000000000, now := 9000000000, ticks := 9000000000, lastEdge := some 5000000000 } }


/-! ### Time base and events -/

theorem witness_LossOfReferenceAndTick :
    (dev.ctl = true ∧ dev.time.tref = true ∧ dev.time.mode = .locked ∧ 5000000000 + 1000000500 ≤ dev.time.ticks ∧ dev.time.lastEdge = some 5000000000) ∧
    (dev.pending = [] ∧ dev.time.slewing = false ∧ dev.time.frac < 10000) ∧ (State.reset.pending = [] ∧ State.reset.time.mode = .unset) := by
  decide +kernel

/-- A TCODE frame with a good check. -/
def tcode (time : Nat) : BitVec 112 :=
  let b : BitVec 112 := putField (putField 0 0 16 0xA55A) 16 64 time
  putBits b 96 (crc16 ((bytesOf b).drop 2 |>.take 10))

def early : State := { dev with time := { dev.time with mode := .unset, ticks := 5500000000, interval := none } }

theorem witness_TcodeFrameNamesNextEdge :
    (early.ctl = true ∧ early.tap.held = false ∧ early.wellFormed (tcode 7) = true ∧ early.frameValid (tcode 7) = true ∧ early.time.tref = true ∧
      early.time.interval = none ∧ early.time.mode = .unset) ∧
    (let s := { dev with time := { dev.time with badRun := 1 } }
     (s.wellFormed 0 && s.frameValid 0) = false ∧ s.time.mode = .locked ∧ 1 ≤ s.time.badRun) ∧
    ((dev.wellFormed 0 && dev.frameValid 0) = false ∧ dev.time.badRun = 0) := by decide +kernel

/-- The time base with a named edge whose error is `e`. -/
def edge (m : TimeMode) (e : Int) (run : Nat) : State :=
  { dev with time := { dev.time with mode := m, interval := some 8000000000, counter := BitVec.ofInt 64 (8000000000 + e), run := run } }
def edgeErr (s : State) : Nat := ((s.time.counter.toNat : Int) - 8000000000).natAbs

theorem witness_NamedTsyncEdgeDisciplinesCounter :
    (∀ s ∈ [edge .acquiring 5 3, edge .locked 1000 3, edge .locked (-1001) 3, edge .freeRunning (-20) 3, edge .freeRunning 21 3,
      edge .freeRunning 10000000 3, edge .freeRunning 10000001 3, edge .unset 0 3, edge .acquiring 0 2], s.ctl = true ∧ s.tap.held = false ∧
      s.time.interval = some 8000000000 ∧ s.time.tref = true) ∧
    edgeErr (edge .locked 1000 3) = 1000 ∧ edgeErr (edge .locked (-1001) 3) = 1001 ∧ edgeErr (edge .freeRunning (-20) 3) = 20 ∧
    edgeErr (edge .freeRunning 21 3) = 21 ∧ edgeErr (edge .freeRunning 10000000 3) = 10000000 ∧ edgeErr (edge .freeRunning 10000001 3) = 10000001 ∧
    (edge .freeRunning 10000001 3).anySlot = true ∧
    (let s := { edge .freeRunning 10000001 3 with psec := [(0, { st := .free })] }; (s.anySlot || s.scrubbing) = false) := by decide +kernel

/-- The value of an event entry. -/
def eventVal (time kind part arg : Nat) : BitVec 128 := putField (putField (putField (putField 0 0 64 time) 88 8 kind) 82 3 part) 96 32 arg

theorem witness_EventWriteArmsCancelsOrIsRefused :
    dev.ctl = true ∧ Src.cls .tray < 2 ∧ Src.cls (.companion 3) < 2 ∧ dev.firedNow.contains 191 = false ∧
    eventCheck (dev.updEvent 191 fun e => e.written (eventVal 10000000000 1 0 0)) (eventVal 10000000000 1 0 0) = 0 ∧ field (eventVal 10000000000 1 0 0) 88 8 ≠ 0 ∧
    eventCheck (dev.updEvent 191 fun e => e.written (eventVal 5 0 3 0)) (eventVal 5 0 3 0) = 0 ∧ field (eventVal 5 0 3 0) 88 8 = 0 ∧
    ({ dev with firedNow := [5] } : State).firedNow.contains 5 = true ∧ 7 ≤ field (eventVal 0 7 0 0) 88 8 ∧
    4 ≤ field (eventVal 0 1 4 0) 82 3 ∧ field (eventVal 0 1 6 0) 82 3 ≤ 6 ∧ field (eventVal 1 1 0 0) 0 64 % 1000000 ≠ 0 ∧
    field (eventVal 1 3 0 0) 88 8 = 3 ∧ field (eventVal 0 3 7 0) 82 3 = 7 := by decide +kernel

/-- `dev` with one armed entry, its time come. -/
def fires (kind part arg : Nat) : State :=
  { dev with events := [(9, { time := 8000000000, kind := BitVec.ofNat 8 kind, state := 1, part := BitVec.ofNat 3 part, arg := BitVec.ofNat 32 arg })] }

theorem witness_EventsActAtTheirTime :
    (fires 2 0 500).due 9 2 = true ∧ ((fires 2 0 500).event 9).arg.toNat = 500 ∧ (fires 2 0 500).capEvent = none ∧
    ({ fires 2 0 2000 with capEvent := some 600 } : State).due 9 2 = true ∧ (fires 2 0 499).due 9 2 = true ∧ (fires 2 0 2001).due 9 2 = true := by
  decide +kernel

/-- A solver call whose deadline stands in entry 9. -/
def called : Op := { seq := 4, orig := 4, mop := 0x20, solve := some { entry := some 9 } }

theorem witness_EventsActAtTheirTimeMarkers :
    (fires 6 0 0).due 9 6 = true ∧ (fires 7 0 3).due 9 7 = true ∧
    ({ fires 7 0 3 with rings := [(3, { enabled := true, phase := some {} })] } : State).due 9 7 = true ∧
    (fires 8 0 0).due 9 8 = true ∧ (fires 8 0 0).callOfEntry 9 = none ∧
    (let s := { fires 8 0 0 with rings := [(2, { enabled := true, st := .running, ops := [called] })] }
     s.due 9 8 = true ∧ s.callOfEntry 9 = some (2, called)) := by decide +kernel

/-! ### Dictionary writes -/

theorem witness_RangedSettingsStoreOrRefuse :
    dev.ctl = true ∧ Src.cls .tray < 2 ∧ dev.capEvent = none ∧ dev.ringExists 15 = true ∧ (60000 : BitVec 32).toNat ≤ 60000 ∧
    60000 < (60001 : BitVec 32).toNat ∧ (1 : BitVec 8).toNat ≤ 1 ∧ 1 < (2 : BitVec 8).toNat ∧ (500 ≤ (500 : BitVec 16).toNat ∧ (500 : BitVec 16).toNat ≤ 2000) ∧
    ¬(500 ≤ (2001 : BitVec 16).toNat ∧ (2001 : BitVec 16).toNat ≤ 2000) ∧ (1000 ≤ (60000 : BitVec 32).toNat ∧ (60000 : BitVec 32).toNat ≤ 60000) ∧
    ¬(1000 ≤ (999 : BitVec 32).toNat ∧ (999 : BitVec 32).toNat ≤ 60000) := by decide +kernel

theorem witness_ModeWriteWaitsForModeChange :
    dev.ctl = true ∧ Src.cls (.companion 0) < 2 ∧ modeOf (2 : BitVec 8).toNat = some .four ∧ modeOf (0 : BitVec 8).toNat = some .one ∧
    2 < (3 : BitVec 8).toNat ∧
    (let s := { dev with psec := [(0, { st := .free })], pendingMode := some .two }
     s.up = true ∧ s.anySlot = false ∧ s.scrubbing = false ∧ s.pendingMode = some .two) := by decide +kernel

/-- `dev` with ring 0 enabled. -/
def ringed (r : Ring) : State := { dev with rings := [(0, r)] }

theorem witness_RingEnableAndDisable :
    dev.ctl = true ∧ dev.ringExists 15 = true ∧ dev.ringExists 16 = false ∧ (dev.ring 15).enabled = false ∧
    ((ringed { enabled := true, st := .idle }).ring 0).enabled = true ∧ (ringed {}).ringExists 0 = true := by decide +kernel

theorem witness_BlockedGranuleWriteDropsLines :
    dev.ctl = true ∧ Src.cls .tray < 2 ∧ flag (putField (0 : BitVec 64) 63 1 1) 63 = true ∧
    (256 : Nat) / 256 ≠ field (putField (0 : BitVec 64) 63 1 1) 0 32 ∧ (255 : Nat) / 256 = field (putField (0 : BitVec 64) 63 1 1) 0 32 ∧
    field (0x100000000 : BitVec 64) 32 31 ≠ 0 := by decide +kernel

theorem witness_UnitsLeaveAndReenterService :
    dev.ctl = true ∧ Src.cls .tray < 2 ∧ 127 < classSize 0 ∧ dev.fusedOff 0 127 = false ∧ dev.outOfService 0 127 = false ∧ dev.inQuarantine 0 127 = false ∧
    (let s := { dev with svc := { dev.svc with out := [unitId 1 3] } }
     s.fusedOff 1 3 = false ∧ s.outOfService 1 3 = true ∧ s.inQuarantine 1 3 = false ∧ s.svc.passed.contains (unitId 1 3) = false) ∧
    ({ dev with ident := { roomsPresent := 0 } } : State).fusedOff 0 5 = true ∧ classSize 4 ≤ 16 ∧ 5 ≤ (5 : BitVec 8).toNat ∧
    (let s := { dev with svc := { dev.svc with out := [unitId 2 9], quar := [unitId 2 9] } }
     s.up = true ∧ s.inQuarantine 2 9 = true) ∧
    (let s := { dev with svc := { dev.svc with out := [unitId 0 9], passed := [unitId 0 9] } }
     s.svc.passed.contains (unitId 0 9) = true ∧ s.mayReadmit 0 9 = true) ∧
    (({ dev with rooms := [(7, { zeroing := true })] } : State).room 7).zeroing = true := by decide +kernel

/-- An image of no body; its signature is opaque to the model, so that it passes stands as a premise. -/
def image : FwImage := { header := 0, vendorKey := [], sig := [], body := [] }

theorem witness_FirmwareStagesVerifiesAndBurns :
    dev.ctl = true ∧ Src.cls (.companion 1) < 2 ∧ dev.boot.stage ≠ .b1 ∧ dev.boot.stage ≠ .hold ∧ State.reset.ctl = true ∧ State.reset.boot.stage = .hold ∧
    (let s := { dev with boot := { dev.boot with svnMin := 3, svnRun := 5, staging := true } }
     s.boot.svnMin.toNat < (5 : BitVec 16).toNat ∧ (5 : BitVec 16).toNat ≤ s.boot.svnRun.toNat ∧ (3 : BitVec 16).toNat ≤ s.boot.svnMin.toNat ∧
     s.boot.svnRun.toNat < (6 : BitVec 16).toNat ∧ s.fw = true ∧ s.boot.staging = true ∧ checkImage s.boot.svnMin image ≠ 0) := by decide +kernel

theorem witness_KeysReportsAndDebugToken :
    (let s := { dev with psec := [(0, { st := .keywait, keys := { importKey := some [1] } })] }
     s.ctl = true ∧ s.pst 0 = .keywait ∧ (s.ps 0).keys.importKey = some [1] ∧ (List.replicate 1632 (0 : Byte)).length = 1632) ∧
    Tbl.has dev.sec.forming 0 = false ∧
    (let s := { dev with sec := { forming := [(1, { body := [] })] } }
     Tbl.has s.sec.forming (Src.cls (.companion 0)) = true ∧ s.fw = true ∧ Tbl.find s.sec.forming 1 = some { body := [] }) ∧
    (List.replicate 1344 (0 : Byte)).length = 1344 := by decide +kernel

/-- A read that waits from mailbox 2. -/
def waits : Req := { src := .companion 2, path := .box 2, index := 0x1000, sub := 0 }

theorem witness_DictionaryRequestsAreServed :
    dev.ctl = true ∧ writeCheck dev .tray 0x1000 0 [] ≠ 0 ∧ ((3 : BitVec 8).toNat < 4 ∧ [(0 : Byte), 0x10].length = 2 ∧ 1 ≤ ofLe [(0 : Byte), 0x10] ∧
    ofLe [(0 : Byte), 0x10] ≤ 4096) ∧
    (let s := { dev with dict := { dev.dict with waiting := [waits] } }
     s.ctl = true ∧ s.dict.waiting = [waits] ∧ waits.write = false ∧ waits.badOp = false ∧ ∀ r ∈ s.dict.waiting.take 16, r.write = false) := by
  decide +kernel


/-! ### Slots, stops, seals and checkpoints -/

/-- `dev` with partition 0 as given. -/
def part0 (q : PartSec) : State := { dev with psec := [(0, q)] }
/-- The same, with entry 9 armed and due. -/
def dueIn (q : PartSec) (kind part : Nat) : State := { fires kind part 7 with psec := [(0, q)] }

theorem witness_SlotStartBeginsSlot :
    (∀ m ∈ [(0 : Byte), 1], let s := dueIn { st := .free, sealMode := m } 3 0
      s.due 9 3 = true ∧ (s.event 9).part.toNat < 4 ∧ s.slotMayBegin 0 = true ∧
      ∀ x ∈ s.events, x.2.kind = 1 → x.2.armed = true → x.2.reaches 0 = true → s.time.counter.toNat + s.guardNs x.2 0 < x.2.time.toNat) ∧
    (let s := dueIn { st := .opened } 3 0
     s.due 9 3 = true ∧ s.slotMayBegin 0 = false) ∧ (0 : Nat) < 4 ∧ (1 : Nat) ≠ 0 := by decide +kernel

/-- A sealed slot with a stop request that came at `now`. -/
def sealedSlot : PartSec := { st := .sealed, keys := { kT := some 1, k1 := some 2, k2 := some 3, kM := some 4, c1 := some 5 } }

theorem witness_SlotEndAndScrubDestroyKeys :
    (let s := dueIn sealedSlot 1 7
     s.due 9 1 = true ∧ 0 ∈ s.reachedParts (s.event 9) ∧ (s.pst 0).slot = true ∧ 1 ∉ s.reachedParts (s.event 9) ∧
     ((dueIn { st := .free } 1 7).pst 0).slot = false) ∧
    (let s := dueIn { st := .free } 5 0
     s.due 9 5 = true ∧ (s.reachedParts (s.event 9)).filter (fun p => s.pst p == .free) = [0]) ∧
    (let s := dueIn { st := .sealed } 5 0
     s.due 9 5 = true ∧ (s.reachedParts (s.event 9)).filter (fun p => s.pst p == .free) = []) ∧
    (let c : Scrub := { zeroFilled := true, cleared := true }
     let s := part0 { st := .scrub, scrub := some c }
     s.ctl = true ∧ s.boot.stopped = false ∧ s.exists_ 0 = true ∧ s.roomsClear 0 = true ∧ (s.ps 0).scrub = some c ∧ c.zeroFilled = true ∧
     c.cleared = true) := by decide +kernel

theorem witness_StopRequestsReachStreams :
    (∀ st ∈ [RState.idle, .running], let s := { dueIn sealedSlot 1 0 with rings := [(3, { enabled := true, st := st })] }
      s.stopDue 9 0 = true ∧ s.pst 0 = .sealed ∧ ringPart 3 = 0 ∧ (s.ring 3).enabled = true ∧ (s.ring 3).st = st ∧ ringPart 16 ≠ 0) ∧
    (dueIn { st := .keywait } 1 0).stopDue 9 0 = true ∧
    (let s := { dueIn sealedSlot 4 0 with rings := [(3, { enabled := true, st := .running })] }
     s.due 9 4 = true ∧ (s.reachedParts (s.event 9)).filter s.maySeal = [0] ∧ (s.ring 3).st = .running) ∧
    (let s := dueIn { st := .opened } 4 0
     s.due 9 4 = true ∧ (s.reachedParts (s.event 9)).filter s.maySeal = []) := by decide +kernel

theorem witness_PartitionResetAndFormation :
    (let s := part0 sealedSlot
     s.up = true ∧ s.pst 0 ≠ .absent ∧ s.pst 0 ≠ .resetting ∧ s.pst 0 ≠ .scrub ∧ (s.pst 0).tenanted = true ∧ ringPart 15 = 0) ∧
    (let s := { part0 { st := .stopping, stopReq := some { at_ := 1 } } with time := { dev.time with now := 1000001 } }
     s.up = true ∧ s.exists_ 0 = true ∧ (s.ps 0).stopped = false ∧ (s.ps 0).stopReq = some { at_ := 1 } ∧ s.since 1 1000000 = true) ∧
    (let s := { part0 { st := .resetting } with rings := [(3, { enabled := true, st := .resetting })] }
     s.mayForm 0 = true ∧ (s.ring 3).enabled = true ∧ s.boot.stage ≠ .b5) ∧
    (let s := { dev with psec := [], boot := { dev.boot with stage := .b5, toForm := [0] } }
     s.mayForm 0 = true ∧ s.boot.stage = .b5) := by decide +kernel

/-- A checkpoint job of one granule under way in a sealed partition. -/
def job (op : Nat) : CkJob := { op := BitVec.ofNat 8 op, part := 5, ckid := 77, granules := 1, addr := 0x10000, keys := List.replicate 96 1 }
def jobbed (j : CkJob) : State := part0 { st := .sealed, job := some j }

/-! The tags and the root of a part are Keccak values, too long to evaluate here: the parts are built from them and read back. -/

theorem length_sponge (sfx : Byte) (bs : List Byte) (n : Nat) (h : n < 136) : (sponge sfx bs n).length = n := by
  have hr : ∀ a rc, (keccakRound a rc).length = 25 := by
    intro a rc
    simp [keccakRound, upTo, countUp]
  have hf : ∀ (rcs : List U64) a, a.length = 25 → (rcs.foldl keccakRound a).length = 25 := by
    intro rcs
    induction rcs with
    | nil => exact fun a h => h
    | cons rc rcs ih => exact fun a _ => ih _ (hr a rc)
  have ha : ∀ (bks : List (List Byte)) a, a.length = 25 → (bks.foldl keccakAbsorb a).length = 25 := by
    intro bks
    induction bks with
    | nil => exact fun a h => h
    | cons b bks ih => exact fun a _ => ih _ (hf _ _ (by simp [upTo, countUp]))
  have h0 : n / keccakRate = 0 := Nat.div_eq_of_lt h
  have hl : ∀ m v, (leBytes m v).length = m := by
    intro m
    induction m with
    | zero => exact fun v => rfl
    | succ m ih => exact fun v => by simp [leBytes, ih]
  have hq : ∀ l : List U64, ((l.map bytesOf).flatten).length = 8 * l.length := by
    intro l
    induction l with
    | nil => rfl
    | cons x l ih => simp [bytesOf, hl] at ih ⊢; omega
  unfold sponge
  simp only [h0, keccakSqueeze, List.append_nil, List.length_take, hq]
  have := ha (blocksOf keccakRate (keccakPad sfx bs).length (keccakPad sfx bs)) (List.replicate 25 0) rfl
  rw [this]
  omega

theorem length_ckTag (k : List Byte) (c : U32) (p j : Nat) (ct : List Byte) : (ckTag k c p j ct).length = 8 := length_sponge _ _ _ (by decide)

theorem length_ckTrailer (k h t : List Byte) : (ckTrailer k h t).length = 64 := by
  simp [ckTrailer, kmac256, length_sponge]

/-- A part of one granule of zeros. -/
def zeros : List Byte := List.replicate 256 0
theorem length_zeros : zeros.length = 256 := List.length_replicate ..
def madePart (hd : BitVec 2048) (tag tr : List Byte) : List Byte := bytesOf hd ++ (zeros ++ (tag ++ tr))

/-- What `readPart` finds in it. -/
structure Reads (hd : BitVec 2048) (tag tr : List Byte) : Prop where
  length : (madePart hd tag tr).length = 584
  header : (readPart (madePart hd tag tr)).header = hd
  g : (readPart (madePart hd tag tr)).g = 1
  tags : (readPart (madePart hd tag tr)).tags = tag
  ct0 : (readPart (madePart hd tag tr)).ct 0 = zeros
  tag0 : (readPart (madePart hd tag tr)).tag 0 = tag
  trailer : (readPart (madePart hd tag tr)).trailer = tr

theorem reads (hd : BitVec 2048) (tag tr : List Byte) (hw : wordOf 2048 (bytesOf hd) = hd) (hl : (bytesOf hd).length = 256)
    (hg : field hd 816 32 = 1) (ht : tag.length = 8) (hr : tr.length = 64) : Reads hd tag tr := by
  have h1 : (madePart hd tag tr).take 256 = bytesOf hd := by rw [madePart, ← hl, List.take_left]
  have h2 : (madePart hd tag tr).drop 256 = zeros ++ (tag ++ tr) := by rw [madePart, ← hl, List.drop_left]
  have h3 : (madePart hd tag tr).drop 512 = tag ++ tr := by
    rw [show 512 = 256 + 256 from rfl, ← List.drop_drop, h2]
    exact List.drop_left' length_zeros
  have h4 : (madePart hd tag tr).drop 520 = tr := by
    rw [show 520 = 512 + 8 from rfl, ← List.drop_drop, h3, ← ht, List.drop_left]
  have h5 : (tag ++ tr).take 8 = tag := by rw [← ht, List.take_left]
  have h6 : (zeros ++ (tag ++ tr)).take 256 = zeros := List.take_left' length_zeros
  have h7 : tag.take 8 = tag := by rw [← ht, List.take_length]
  have h8 : tr.take 64 = tr := by rw [← hr, List.take_length]
  constructor
  · simp only [madePart, List.length_append, hl, ht, hr, length_zeros]
  all_goals simp only [readPart, h1, h2, h3, h4, h5, h6, h7, h8, hw, hg, Nat.mul_zero, Nat.add_zero, Nat.mul_one, Nat.reduceAdd, List.drop_zero]

def partHeader (kind part : Nat) : BitVec 2048 := putField (putField (putField (putField 0 0 8 kind) 48 16 part) 64 32 77) 816 32 1

theorem made (kind part : Nat) (tag tr : List Byte) (hk : kind = 1 ∧ part = 5 ∨ kind = 2 ∧ part = 5 ∨ kind = 1 ∧ part = 0) (ht : tag.length = 8)
    (hr : tr.length = 64) : Reads (partHeader kind part) tag tr := by
  rcases hk with ⟨rfl, rfl⟩ | ⟨rfl, rfl⟩ | ⟨rfl, rfl⟩
  all_goals exact reads _ _ _ (by decide +kernel) (by decide +kernel) (by decide +kernel) ht hr

theorem witness_RangeJobsReportOutcome :
    (∀ op ∈ [1, 2], let s := jobbed (job op)
      s.up = true ∧ s.pst 0 = .sealed ∧ (s.ps 0).job = some (job op) ∧ (job op).result = none) ∧
    (let s := { jobbed (job 1) with mem := { dev.mem with blocked := [(5, putField (putField 0 0 32 1) 63 1 1)] } }
     badSource s 0x10000 1 = some 0) ∧
    (let s := jobbed (job 1)
     badSource s 0x10000 1 = none ∧ s.link.up = true ∧ ({ s with link := { s.link with up := false } } : State).link.up = false) ∧
    ([] : List Byte).length ≠ 320 + 264 * (job 2).granules.toNat := by decide +kernel

/-- A part that an import accepts, and one whose granule fails its tag. -/
theorem witness_RangeJobsImport :
    let j := job 2
    let s := jobbed j
    let fits := fun (p : List Byte) => p.length = 320 + 264 * j.granules.toNat ∧ (readPart p).g = j.granules.toNat ∧ field (readPart p).header 0 8 = 1 ∧
      headerReserved (readPart p).header = true ∧ field (readPart p).header 48 16 = j.part.toNat ∧ bits (readPart p).header 64 32 = j.ckid ∧
      bits (readPart p).header 960 64 = tkfp (s.ps 0).keys ∧ 0 < j.granules.toNat
    (∃ p, fits p ∧ (∀ i, i < j.granules.toNat → ckTag j.keys j.ckid j.part.toNat i ((readPart p).ct i) = (readPart p).tag i ∧
        s.accessStop (j.addr.toNat + 256 * i) = none) ∧
      ckTrailer j.keys (bytesOf (readPart p).header) (readPart p).tags = (readPart p).trailer) ∧
    (∃ p, fits p ∧ ckTag j.keys j.ckid j.part.toNat 0 ((readPart p).ct 0) ≠ (readPart p).tag 0) ∧
    (∃ p, p.length = 320 + 264 * j.granules.toNat ∧ field (readPart p).header 0 8 ≠ 1) ∧
    (s.accessStop j.addr.toNat).isSome = false ∧
    (({ s with mem := { dev.mem with blocked := [(5, putField (putField 0 0 32 1) 63 1 1)] } } : State).accessStop j.addr.toNat).isSome = true := by
  intro j s fits
  have hf : ∀ tag tr, Reads (partHeader 1 5) tag tr → fits (madePart (partHeader 1 5) tag tr) := by
    intro tag tr h
    refine ⟨h.length, h.g, ?_, ?_, ?_, ?_, ?_, by decide⟩ <;> rw [h.header] <;> decide +kernel
  refine ⟨⟨madePart (partHeader 1 5) (ckTag j.keys j.ckid j.part.toNat 0 (zeros))
    (ckTrailer j.keys (bytesOf (partHeader 1 5)) (ckTag j.keys j.ckid j.part.toNat 0 (zeros))), ?_⟩, ?_, ?_, by decide +kernel, by decide +kernel⟩
  · have h := made 1 5 _ (ckTrailer j.keys (bytesOf (partHeader 1 5)) (ckTag j.keys j.ckid j.part.toNat 0 (zeros))) (by simp)
      (length_ckTag j.keys j.ckid j.part.toNat 0 (zeros)) (length_ckTrailer ..)
    refine ⟨hf _ _ h, ?_, by rw [h.header, h.tags, h.trailer]⟩
    intro i hi
    obtain rfl : i = 0 := Nat.lt_one_iff.mp hi
    exact ⟨by rw [h.ct0, h.tag0], by decide +kernel⟩
  · have ht : ∃ t : List Byte, t.length = 8 ∧ ckTag j.keys j.ckid j.part.toNat 0 (zeros) ≠ t := by
      by_cases h : ckTag j.keys j.ckid j.part.toNat 0 (zeros) = List.replicate 8 0
      · exact ⟨List.replicate 8 1, rfl, by rw [h]; decide⟩
      · exact ⟨List.replicate 8 0, rfl, h⟩
    obtain ⟨t, hl, hn⟩ := ht
    have h := made 1 5 t (List.replicate 64 0) (by simp) hl rfl
    exact ⟨_, hf _ _ h, by rw [h.ct0, h.tag0]; exact hn⟩
  · have h := made 2 5 (List.replicate 8 0) (List.replicate 64 0) (by simp) rfl rfl
    exact ⟨_, h.length, by rw [h.header]; decide +kernel⟩

def noKeys : List Byte := List.replicate 96 0
def stopJob : CkJob := { op := 3, ckid := 77, granules := 1, keys := noKeys }
/-- A sealed partition 0 with a stop-image import under way. -/
def importing : State := jobbed stopJob
/-- A header that matches it. -/
def stopHeader : BitVec 2048 :=
  putField (putField (putField (putField (putField (partHeader 1 0) 760 8 (modeNumber importing.mode)) 1152 128 (importing.roomMask 0))
    800 16 128) 784 16 (importing.ringMask 0)) 48 16 0

theorem witness_StopImageImportAndExportEnd :
    (importing.up = true ∧ (importing.ps 0).job = some stopJob ∧ importing.pst 0 = .sealed ∧ stopJob.op = 3 ∧ stopJob.result = none ∧
      (importing.noPrograms 0 && importing.ringsFresh 0) = true ∧ headerMatches importing 0 stopHeader = true ∧ headerMatches importing 0 (partHeader 2 0) = false ∧
      bits stopHeader 64 32 = stopJob.ckid ∧ (let s := { importing with psched := [(0, { programs := [(3, { image := [] })] })] }; (s.noPrograms 0 && s.ringsFresh 0) = false) ∧
      (let s := { importing with rings := [(3, { enabled := true, st := .running })] }; (s.noPrograms 0 && s.ringsFresh 0) = false) ∧
      ([] : List Byte).length ≠ 320 + 264 * (readPart []).g) ∧
    (let j := { stopJob with result := some (0x1005, 4) }
     (jobbed j).up = true ∧ ((jobbed j).ps 0).job = some j ∧ j.result = some (0x1005, 4)) ∧
    (let e : Export := { deadline := some 1000 }
     let s := part0 { st := .sealed, exporting := some e }
     s.ctl = true ∧ (s.ps 0).exporting = some e ∧ s.link.up = true ∧ s.exists_ 0 = true ∧ (1000 : U64).toNat + 56000000 ≤ s.time.counter.toNat) := by
  decide +kernel

/-- A part whose header matches and whose root fails, and one whose header does not match. -/
theorem witness_StopImageImportFailures :
    (∃ p, p.length = 320 + 264 * (readPart p).g ∧ headerMatches importing 0 (readPart p).header = true ∧
      bits (readPart p).header 64 32 = stopJob.ckid ∧
      ckTrailer stopJob.keys (bytesOf (readPart p).header) (readPart p).tags ≠ (readPart p).trailer) ∧
    (∃ p, p.length = 320 + 264 * (readPart p).g ∧ headerMatches importing 0 (readPart p).header = false) := by
  constructor
  · have ht : ∃ t : List Byte, t.length = 64 ∧ ckTrailer stopJob.keys (bytesOf stopHeader) (List.replicate 8 0) ≠ t := by
      by_cases h : ckTrailer stopJob.keys (bytesOf stopHeader) (List.replicate 8 0) = List.replicate 64 0
      · exact ⟨List.replicate 64 1, rfl, by rw [h]; decide⟩
      · exact ⟨List.replicate 64 0, rfl, h⟩
    obtain ⟨t, hl, hn⟩ := ht
    have h := reads stopHeader (List.replicate 8 0) t (by decide +kernel) (by decide +kernel) (by decide +kernel) rfl hl
    refine ⟨_, ?_, ?_, ?_, by rw [h.header, h.tags, h.trailer]; exact hn⟩
    · rw [h.length, h.g]
    · rw [h.header]; decide +kernel
    · rw [h.header]; decide +kernel
  · have h := made 2 5 (List.replicate 8 0) (List.replicate 64 0) (by simp) rfl rfl
    exact ⟨_, by rw [h.length, h.g], by rw [h.header]; decide +kernel⟩


/-! ### Power, temperature, supplies -/

/-- A control period is due; the window of `w` samples holds `sum`. -/
def period (w rate : U32) (sum : Nat) : State :=
  { dev with pw := { period := true, w := w, cap := 500, window := [(1, 0)], sum := sum, regs := [(0, { addr := 1, rate := rate, known := true })],
                      dies := (upTo 4).map fun d => (d, { mv := 1 }) } }
/-- p_next of the statement, times the window. -/
def pnext (s : State) : Int :=
  min (2 * (1000 * s.pw.cap.toNat : Nat) * (s.pw.w.toNat : Int) - (s.pw.sum - (popRun s.pw.window).1 + s.pw.sample : Nat)) (2400000 * (s.pw.w.toNat : Int))

theorem predOk_noWindow (s : State) (e : Nat) (x : Int) (k j : Nat) (hw : s.pw.w.toNat = 0) : predOk s e x k j = decide (0 ≤ x * powerScaleNow s * 8) := by
  simp only [predOk, hw, Int.natCast_zero, Int.mul_zero]

theorem predOk_fused (s : State) (hs : ∀ k, Config.staticPower 0 k = 0) (hv : ∀ d k, Config.volt d k = 1) (hw : s.pw.w.toNat = 1)
    (hn : powerScaleNow s = 3200) (hh : hottest s = 0) (k j : Nat) :
    predOk s 4 2 k j = decide (2 * ((800 + 50 * k) * j) ≤ 6400) := by
  have hk : powerScale k = 4 * (800 + 50 * k) := by
    simp only [powerScale, upTo, countUp, List.foldl_cons, List.foldl_nil, hv]
    have : (1 : BitVec 16).toNat ^ 2 = 1 := by decide
    rw [this]
    omega
  obtain ⟨x, hx⟩ : ∃ x, x = (800 + 50 * k) * j := ⟨_, rfl⟩
  have hx' : (x : Int) = (800 + 50 * (k : Int)) * j := by rw [hx]; push_cast; rfl
  simp only [predOk, hw, hn, hh, hs, hk, ← hx]
  refine decide_eq_decide.mpr ?_
  push_cast
  rw [show (0 + 4 * (4 * (800 + 50 * (k : Int))) * (j : Int)) * 1 = 16 * ((800 + 50 * (k : Int)) * j) by ring, ← hx']
  omega

theorem pnext_period : pnext (period 0 0 0) = 0 ∧ pnext (period 0 0 1) = -1 ∧ pnext (period 1 4 999994) = 2 := by decide +kernel

theorem powerScaleNow_period : powerScaleNow (period 0 0 0) = 3200 ∧ powerScaleNow (period 0 0 1) = 3200 ∧ powerScaleNow (period 1 4 999994) = 3200 := by
  decide +kernel

/-- Every point is within p_next; none is (whatever the fused leakage model and voltages); and, for one set of fused values, the floor at half
duty is the highest. -/
theorem witness_ControlPeriodChoosesHighestAllowed :
    ((period 0 0 0).clocked = true ∧ (period 0 0 0).pw.period = true ∧
      ∀ k, k ≤ 64 → predOk (period 0 0 0) (period 0 0 0).pw.sample (pnext (period 0 0 0)) k 8 = true) ∧
    ((period 0 0 1).clocked = true ∧ (period 0 0 1).pw.period = true ∧ (period 0 0 1).pw.unattainable = false ∧
      ∀ k j, predOk (period 0 0 1) (period 0 0 1).pw.sample (pnext (period 0 0 1)) k j = false) := by
  refine ⟨⟨rfl, rfl, fun k _ => ?_⟩, rfl, rfl, rfl, fun k j => ?_⟩
  · rw [predOk_noWindow _ _ _ _ _ rfl, pnext_period.1, powerScaleNow_period.1]
    rfl
  · rw [predOk_noWindow _ _ _ _ _ rfl, pnext_period.2.1, powerScaleNow_period.2.1]
    rfl

theorem witness_ControlPeriodAtFloor (hs : ∀ k, Config.staticPower 0 k = 0) (hv : ∀ d k, Config.volt d k = 1) :
    (period 1 4 999994).clocked = true ∧ (period 1 4 999994).pw.period = true ∧
    (∀ m, 1 ≤ m → predOk (period 1 4 999994) (period 1 4 999994).pw.sample (pnext (period 1 4 999994)) m 8 = false) ∧
    (∀ m, predOk (period 1 4 999994) (period 1 4 999994).pw.sample (pnext (period 1 4 999994)) 0 m = decide (m ≤ 4)) := by
  have h := predOk_fused (period 1 4 999994) hs hv rfl powerScaleNow_period.2.2 (by decide +kernel)
  have he : (period 1 4 999994).pw.sample = 4 := by decide +kernel
  rw [pnext_period.2.2, he]
  refine ⟨rfl, rfl, fun m _ => ?_, fun m => ?_⟩
  · rw [h, decide_eq_false_iff_not]
    omega
  · rw [h]
    exact decide_eq_decide.mpr (by omega)

def die0 (q : DiePower) : State := { dev with pw := { dies := [(0, q)] } }

theorem witness_GlideFastLimitAndDroop :
    (dev.clocked = true) ∧
    (let s := die0 { point := 3, target := 4 }
     let u := die0 { point := 4, target := 3 }
     (s.diePw 0).droop = false ∧ (s.diePw 0).holdoff = false ∧ (s.diePw 0).point.toNat < (s.diePw 0).target.toNat ∧
     (u.diePw 0).droop = false ∧ (u.diePw 0).holdoff = false ∧ (u.diePw 0).target.toNat < (u.diePw 0).point.toNat) ∧
    (dev.pw.fastSum < 4560000 ∧ dev.pw.fastLimit = false) ∧
    (let s := { die0 { droop := true } with pw := { (die0 { droop := true }).pw with fast := [(1, 4559999)], fastSum := 4559999 } }
     runLength s.pw.fast < 2000 ∧ s.pw.fastSum = 4559999 ∧ 4560000 ≤ 4559999 + (1 : BitVec 32).toNat ∧ s.pw.fastLimit = false ∧ (s.diePw 0).droop = true ∧
     (s.diePw 1).droop = false ∧ (s.diePw 1).holdoff = false) ∧
    (∀ h ∈ [false, true], let q : DiePower := { holdoff := true, pendingHalve := h, pendingTarget := true }
      ((die0 q).diePw 0).droop = false ∧ ((die0 q).diePw 0).holdoff = true ∧ ((die0 q).diePw 0).pendingHalve = h ∧
      ((die0 q).diePw 0).pendingTarget = true) ∧
    (let s := die0 { droop := true, droopAt := 7999999999 }
     (s.diePw 0).droop = true ∧ (s.diePw 0).droopLogged = false ∧ (s.diePw 0).droopAt + 1000000 < s.now) := by decide +kernel

/-- 106 °C and 90 °C as F32 patterns. -/
def t106 : U32 := BitVec.ofNat 32 (degrees 106)
def deg (n : Nat) : U32 := BitVec.ofNat 32 (degrees n)

theorem witness_ShutdownsStopDevice :
    (let s := { dev with pw := { coolLowSince := some 1 } }
     s.clocked = true ∧ s.pw.coolLowSince = some 1 ∧ 1 + 100000 < s.now ∧ s.ctl = true ∧ s.boot.stopped = false) ∧
    (setTemps dev 24 ((List.replicate 12 (deg 105)).take 12)).tripDue = true ∧ dev.pw.coolLowSince = none ∧ 0 < dev.mode.count := by decide +kernel

theorem witness_ReadingsDriveCeilingsAndStacks :
    (dev.clocked = true ∧ (List.replicate 12 (deg 104)).length = 12 ∧
      (∀ n ∈ [85, 86, 93, 94, 95, 96, 104], (setTemps dev 24 (List.replicate 12 (deg n))).tripDue = false) ∧
      hotter (deg 95) 95 = false ∧ hotter (deg 96) 95 = true ∧ atMost (deg 93) 93 = true ∧ atMost (deg 94) 93 = false ∧ hotter (deg 85) 85 = false) ∧
    ((List.replicate 24 (deg 114)).length = 24 ∧ (setTemps dev 0 (List.replicate 24 (deg 114))).tripDue = false ∧
      dev.since (dev.diePw 0).lastCeiling 1000000 = true ∧
      (let s := die0 { ceiling := 63, lastCeiling := 8999500000 }
       s.since (s.diePw 0).lastCeiling 1000000 = false ∧ (s.diePw 0).ceiling.toNat < 64)) ∧
    (let s := { dev with pw := { regs := [(2, { addr := 0x40, known := true, silent := 2 })] } }
     (s.pw.reg (2 : BitVec 4).toNat).addr ≠ 0 ∧ (s.pw.reg 2).known = true ∧ 3 ≤ (s.pw.reg 2).silent + 1 ∧ (s.pw.reg 2).logged = false ∧
     ({ dev with pw := { regs := [(2, { addr := 0x40 })] } } : State).pw.reg 2 = { addr := 0x40 }) := by decide +kernel


/-! ### Resets and bring-up -/

theorem witness_DeviceResetKeepsConfigurationEntries : dev.ctl = true ∧ State.reset.ctl = true := by decide

theorem witness_ResetsClearTheDevice : ({ dev with events := [(1, {})], rings := [(0, {})] } : State).ctl = true := by decide

/-- A sound image under a vendor key: its body is empty. -/
def sound (key sig : List Byte) : FwImage :=
  { header := putBits (putField (putField 0 8 8 1) 32 16 0x0900) 512 (wordOf 512 (shake256 [] 64)), vendorKey := key, sig := sig, body := [] }

/-- Whether a key and a signature pass is not the model's to say: with a key whose digest is the fused one, and a signature that verifies, the image
passes all checks. -/
theorem witness_ImagePasses (key sig : List Byte) (hk : wordOf 512 (shake256 key 64) = Config.vendorDigest)
    (hf : Config.falconVerify key (bytesOf (sound key sig).header) sig = true) : checkImage 0 (sound key sig) = 0 := by
  have h : ∀ lo w, lo + w ≤ 512 → field (sound key sig).header lo w = field (putField (putField (0 : BitVec 1024) 8 8 1) 32 16 0x0900) lo w := by
    intro lo w hl
    rw [field_eq, field_eq, sound, bits_putBits_ne _ _ _ _ (Or.inl hl)]
  have h2 : (sound key sig).digest = wordOf 512 (shake256 [] 64) := bits_putBits_same _ _ _ (by decide)
  have h3 : (sound key sig).target = 0x0900 := (h 32 16 (by decide)).trans (by decide +kernel)
  have h4 : (sound key sig).version = 1 := (h 8 8 (by decide)).trans (by decide +kernel)
  have h5 : (sound key sig).length = 0 := (h 64 32 (by decide)).trans (by decide +kernel)
  have h6 : field (sound key sig).header 0 8 = 0 := (h 0 8 (by decide)).trans (by decide +kernel)
  have h7 : field (sound key sig).header 16 16 = 0 := (h 16 16 (by decide)).trans (by decide +kernel)
  have h8 : field (sound key sig).header 96 416 = 0 := (h 96 416 (by decide)).trans (by decide +kernel)
  have h9 : (sound key sig).body = [] := rfl
  have hv : (sound key sig).vendorKey = key := rfl
  have hs : (sound key sig).sig = sig := rfl
  unfold checkImage
  rw [h2, h3, h4, h5, h6, h7, h8, hv, hs, hk, hf]
  simp [FwImage.bodyDigest, h9]

theorem witness_BringUpStages :
    (let s := { dev with boot := { dev.boot with stage := .b0 } }
     s.boot.stage = .b0 ∧ ((5 : BitVec 7) ≠ 0)) ∧
    (∀ n ∈ [(0 : BitVec 2), 1, 2], let s := { dev with boot := { dev.boot with stage := .b1, imageSrc := n, bootLineUp := true } }
      s.boot.stage = .b1 ∧ s.boot.imageSrc = n ∧ s.boot.bootLineUp = true ∧ field (1 : BitVec 512) 0 16 ≠ field s.boot.bootLine 0 16 ∧
      field (0 : BitVec 512) 0 16 = field s.boot.bootLine 0 16) ∧
    (let s := { dev with boot := { dev.boot with stage := .b3 } }
     s.boot.stopped = false ∧ s.boot.stage = .b3) ∧
    (let s := { dev with boot := { dev.boot with stage := .b4 } }
     s.boot.stopped = false ∧ s.boot.stage = .b4 ∧ 0 < classSize 0 ∧ s.fusedOff 0 0 = false) := by decide +kernel

/-- A log entry of partition 2; one with the tenant's detail flag. -/
theorem witness_LogCopiesAreRedacted :
    field (putField (0 : BitVec 256) 29 3 2) 29 3 = (2 : BitVec 2).toNat ∧ field (putField (0 : BitVec 256) 29 3 7) 29 3 = 7 ∧
    field (putField (0 : BitVec 256) 29 3 2) 29 3 ≠ (1 : BitVec 2).toNat ∧ flag (putField (0 : BitVec 256) 25 1 1) 25 = true ∧
    (∀ p : BitVec 2, Src.tray ≠ Src.tenant p) ∧ flag (0 : BitVec 256) 25 = false :=
  ⟨by decide, by decide, by decide, by decide, fun _ => Src.noConfusion, by decide⟩


/-! ### The field bus -/

theorem witness_FieldBusFramesAndErrors :
    (dev.canOn = true ∧ dev.heartbeatDue = true) ∧
    (let s := { dev with can := { first := false, faults := [5], busOff := false } }
     s.canOn = true ∧ s.can.first = false ∧ s.can.faults = [5]) ∧
    (let s := { dev with can := { tec := 248 } }
     s.canOn = true ∧ s.can.tec + 8 = 256) ∧
    (let s := { dev with can := { busOff := true } }
     s.fw = true ∧ s.can.busOff = true) := by decide +kernel

theorem witness_DdaRequestsQueueOrAbort :
    dev.canOn = true ∧ dev.can.dda = none ∧
    ({ dev with can := { dda := some { reading := true, fd := false, index := 0x1000, sub := 0 } } } : State).can.dda.isSome = true ∧
    ([1] : List Byte) ≠ [] ∧ ([1] : List Byte).length ≤ expeditedMax false ∧ writeCheckLen dev .tray 0x1017 0 2 = 0 ∧ writeCheckLen dev .tray 0x1017 0 3 ≠ 0 ∧
    trayCommand 0x40 = false ∧ trayCommand 0x41 = true := by decide +kernel

theorem witness_SegmentedTransfersMoveInOrder :
    (∀ r ∈ [false, true], let d : Dda := { reading := r, fd := false, index := 0x1017, sub := 0, data := List.replicate 8 0, len := 9, seg := 1 }
      let s := { dev with can := { dda := some d } }
      s.can.dda = some d ∧ s.canOn = true ∧ s.fw = true ∧ s.since d.last 100000000 = true ∧ d.reading = r ∧ true = (d.seg % 2 == 1) ∧
      false ≠ (d.seg % 2 == 1) ∧ segmentMax false < d.data.length ∧ d.data.length ≤ segmentMax true) := by decide +kernel

/-! ### The companion link -/

def flit : Flit := ⟨0, 0, false, []⟩
/-- `dev` with LINKBASE 0x1_0000_0000, partition 0 as given. -/
def linked (q : PartSec) : State := { part0 q with link := { base := 0x100000000 } }
def opened : PartSec := { st := .opened, windowEn := true }

theorem witness_LinkReadsAreAnsweredByState :
    (let s := linked opened
     s.flitNext flit = true ∧ s.target (64 * (1 : BitVec 46).toNat) = .nothing ∧
     s.target (64 * (0x1C4000000 : BitVec 46).toNat) = .mirror 0 ∧ s.target (64 * (0x4000001 : BitVec 46).toNat) = .window 0 64 ∧
     s.windowStatus 0 64 = 0 ∧ s.accessStop 64 = none) ∧
    (∀ x ∈ [(SecState.scrub, (2 : BitVec 4)), (.resetting, 3), (.keywait, 0)], (linked { opened with st := x.1 }).windowStatus 0 64 = x.2) ∧
    (linked { st := .opened }).windowStatus 0 64 = 1 ∧
    ({ linked opened with mem := { blocked := [(3, putField (putField 0 0 32 0) 63 1 1)] } } : State).accessStop 64 ≠ none ∧
    ({ linked opened with mem := { lines := [(0, { poison := 2 })] } } : State).poisonAt 64 64 = true := by decide +kernel

theorem witness_LinkWritesAndAtomicsStore :
    (let s := linked opened
     s.flitNext flit = true ∧ s.target (64 * (1 : BitVec 46).toNat) = .nothing ∧ s.target 0x7100000040 = .mirror 64 ∧ mirrorLine 64 = .status 1 ∧
     s.target 0x7100004040 = .mirror 0x4040 ∧ mirrorLine 0x4040 = .response 0 ∧ mirrorLine 0x2000 = .reserved ∧ mirrorLine 0x5000 = .request 1 ∧
     s.target 0x7100005000 = .mirror 0x5000 ∧ s.target 0x7100002000 = .mirror 0x2000 ∧
     (let l := mergeLine 3 (s.box 1).req 1; bits l 0 16 ≠ bits (s.box 1).req 0 16) ∧ (let l := mergeLine 4 (s.box 1).req 1; bits l 0 16 = bits (s.box 1).req 0 16) ∧
     s.target 0x100000040 = .window 0 64 ∧ s.windowStatus 0 64 = 0 ∧ s.accessStop 64 = none ∧ 64 % 64 = 0 ∧
     (linked { opened with st := .scrub }).windowStatus 0 64 ≠ 0 ∧
     ({ linked opened with mem := { blocked := [(3, putField (putField 0 0 32 0) 63 1 1)] } } : State).accessStop 64 ≠ none) ∧
    (∀ k ∈ [AtKind.addS16, .addI32, .cas64], let s := { linked opened with mem := { lines := [(0, {})] } }
     s.flitNext flit = true ∧ s.target 0x1000000F8 = .window 0 248 ∧ s.windowStatus 0 248 = 0 ∧ s.accessStop 248 = none ∧
     (0x1000000F8 : BitVec 52).toNat % atWidth k = 0 ∧ 248 % 256 + atWidth k ≤ 256 ∧ (s.mem.line (248 / 256)).isSome = true) ∧
    (0x1000000F9 : BitVec 52).toNat % atWidth .addS16 ≠ 0 := by decide +kernel

/-- Ring 0 enabled, its lines at 0x40 and 0x80. -/
def cfg0 : BitVec 384 := putField (putField (putField 0 192 64 0x80) 128 64 0x40) 320 64 4

theorem witness_ResponsesAndSnoopsMoveLines :
    (∀ x ∈ [Purpose.tail 0, .notify 0], let s := { ringed { enabled := true, st := .idle } with link := { reads := [(5, x)] } }
      s.flitNext flit = true ∧ Tbl.find s.link.reads (5 : BitVec 11).toNat = some x ∧ (s.ring 0).enabled = true) ∧
    (let s := ringed { enabled := true, st := .idle, cfg := cfg0, lineHeld := true, owned := true }
     s.flitNext flit = true ∧ (s.ring 0).enabled = true ∧ (s.ring 0).lineHeld = true ∧ (s.ring 0).tailAt = 64 * (1 : BitVec 46).toNat ∧
     (s.ring 0).owned = true ∧ (s.ring 0).notifyAt = 64 * (2 : BitVec 46).toNat ∧ (s.ring 1).tailAt ≠ 64 * (1 : BitVec 46).toNat ∧
     Tbl.find s.link.reads 5 = none ∧ ∀ n, n < 64 → (s.ring n).owned = true → (s.ring n).enabled = true → (s.ring n).notifyAt ≠ 64 * (3 : BitVec 46).toNat) := by
  decide +kernel

theorem witness_FlitsAndLinkReset :
    dev.flitNext flit = true ∧ dev.ctl = true ∧ dev.link.up = true ∧ dev.fw = true ∧ dev.tap.held = false ∧ 10 < (11 : BitVec 5).toNat ∧
    (let s := { ringed { enabled := true, st := .idle, lineHeld := true } with link := { replay := [{ frame := 3, slot := 5, msg := { typ := 3 } }] } }
     s.fw = true ∧ s.tap.held = false ∧ (s.ring 0).enabled = true ∧ (keptWrites s.link.replay).length = 1 ∧ (3 : BitVec 2) ≠ 0) := by decide +kernel

/-- A byte in error is corrected; three of one code are not. -/
theorem witness_FlitsAndLinkResetErrors :
    (dev.flitNext { flit with frame := 5 } = false ∧ flitSound { flit with frame := 5 } = true) ∧
    flitSound { flit with noise := [(7, 0x81)] } = true ∧ dev.flitNext { flit with noise := [(7, 0x81)] } = true ∧
    (let f := { flit with noise := [(0, 1), (3, 1), (6, 9)] }; flitSound f = false ∧ dev.flitNext f = false) := by decide +kernel

/-! ### Command rings -/

/-- A tail line: TAIL, HEAD, STOPGEN, RESUMEGEN, RESETGEN. -/
def line (tail head stop resume reset : Nat) : Line :=
  putField (putField (putField (putField (putField 0 0 64 tail) 64 64 head) 128 16 stop) 144 16 resume) 160 16 reset
def lined (st : RState) (l : Line) : Ring := { enabled := true, st := st, cfg := cfg0, line := l, lineHeld := true, read := true, fresh := false }

theorem witness_TailLineIsTakenOrOverruns :
    (∀ st ∈ [RState.idle, .running], let s := ringed (lined st (line 3 0 0 0 0))
      s.lineTaken 0 = true ∧ (s.ring 0).overrun = false ∧ (s.ring 0).overruns = false ∧ s.link.up = true ∧
      (s.ring 0).fetchSeq ≤ min (lineTail (s.ring 0).line) ((s.ring 0).nextSeq + 63)) ∧
    (∀ st ∈ [RState.idle, .running, .stopping, .stopped, .halted], let s := ringed { lined st (line 5000 0 0 0 0) with tail := 0 }
      s.lineTaken 0 = true ∧ (s.ring 0).overrun = false ∧ (s.ring 0).overruns = true ∧ (s.ring 0).tail < (s.ring 0).nextSeq ∧ (s.ring 0).st = st ∧
      ∀ e ∈ (s.sched (ringPart 0)).hitches, e.2.arrived = []) ∧
    (let s := ringed { lined .running (line 5000 0 0 0 0) with tail := 2 }
     s.lineTaken 0 = true ∧ (s.ring 0).overruns = true ∧ (s.ring 0).nextSeq ≤ (s.ring 0).tail) := by decide +kernel

theorem witness_GenerationsResetStopAndResume :
    (let s := ringed (lined .running (line 0 0 0 0 1))
     s.ctl = true ∧ (s.ring 0).enabled = true ∧ (s.ring 0).read = true ∧ lineReset (s.ring 0).line ≠ (s.ring 0).takenReset ∧
     s.pst (ringPart 0) ≠ .scrub ∧ s.pst (ringPart 0) ≠ .resetting) ∧
    (∀ st ∈ [RState.idle, .running, .stopping, .stopped, .halted], let s := ringed (lined st (line 0 0 1 0 0))
      s.lineTaken 0 = true ∧ lineStop (s.ring 0).line ≠ (s.ring 0).takenStop ∧ (s.ring 0).st = st) ∧
    (∀ st ∈ [RState.idle, .running, .stopped, .halted], ∀ o ∈ [false, true], let s := ringed { lined st (line 0 0 0 1 0) with overrun := o }
      s.lineTaken 0 = true ∧ lineStop (s.ring 0).line = (s.ring 0).takenStop ∧ lineResume (s.ring 0).line ≠ (s.ring 0).takenResume ∧
      (s.ring 0).overrun = o ∧ (s.ring 0).st = st ∧ (s.ring 0).stopReq = false ∧ (s.ps (ringPart 0)).holdResume = false) ∧
    (let s := { ringed (lined .stopped (line 0 0 0 1 0)) with psec := [(0, { st := .opened, holdResume := true })] }
     s.lineTaken 0 = true ∧ (s.ps (ringPart 0)).holdResume = true) ∧
    (let s := ringed { lined .running 0 with done := 4 }
     (s.ring 0).notify ≠ (s.ring 0).notifyWord) := by decide +kernel


/-! ### The test access port -/

theorem witness_IdcodeRegisterHoldsPartNumber :
    dev.powered = true ∧ dev.ident.grade = .a ∧ dev.ident.revision = 1 ∧
    ({ dev with ident := { grade := .b } } : State).ident.grade = .b ∧ ({ dev with ident := { grade := .b } } : State).powered = true := by decide

theorem witness_TestInstructionsAct :
    (dev.powered = true ∧ dev.ctl = true ∧ tapDefined 0x99 = false ∧ dev.fw = true ∧ sparesKeys 0xFF = true ∧ sparesKeys 0x04 = false ∧
      holdsBalls 0x04 = true ∧ dev.tap.held = false ∧ (0 : Nat) < dev.mode.count ∧ ((part0 sealedSlot).pst 0).tenanted = true ∧
      (part0 { st := .free }).pst 0 = .free ∧ bits (1 : BitVec 384) 0 16 ≠ bits dev.tap.dictReq 0 16 ∧ bits (0 : BitVec 384) 0 16 = bits dev.tap.dictReq 0 16) ∧
    dev.sec.debug = false ∧
    (let s := { dev with sec := { debug := true }, tap := { control := [(8, 5)] } }
     s.powered = true ∧ s.sec.debug = true ∧ controlHas 12 = true ∧ Tbl.find s.tap.control (8 * (12 / 8)) = some 5 ∧ (3 : BitVec 3).toNat < 4) := by decide +kernel

/-! ### Peer ports, arbiters, write-combining buffers -/

/-- Partition 0 has rank 3 and an open port 0. -/
def ported (q : Port) : State := { dev with rank := 3, ports := [(0, { q with state := 2, lanes := 15 })] }
/-- A frame of a type, for that partition, without payload and with a good CRC. -/
def peer (typ seq : Nat) (count : Nat := 0) : PeerFrame :=
  let f : PeerFrame := { hdr := putField (BitVec.ofNat 128 typ) 5 14 3, payload := [], trl := putField (putField 0 80 16 seq) 50 8 count }
  { f with trl := putBits f.trl 96 (frameCrc f) }

theorem witness_PeerFramesAreAcceptedInOrder :
    (ported {}).portOpen 0 = true ∧ (ported {}).portUp 0 = true ∧ (ported {}).scrubs ((ported {}).ownerOfPort 0) = false ∧
    (let s := { ported {} with psec := [(0, { st := .scrub, scrub := some {} })] }; s.portUp 0 = true ∧ s.scrubs (s.ownerOfPort 0) = true) ∧
    (((ported {}).port 0).txSeq :: ((ported {}).port 0).replay.map (·.1)).Nodup ∧
    (∀ n ∈ [1, 2, 3, 4, 5, 6, 7, 8, 9], fType (peer n 0) = n ∧ crcGood (peer n 0) = true ∧ tLseq (peer n 0) = ((ported {}).port 0).rxSeq ∧
      (ported {}).notForUs 0 (peer n 0) = false) ∧
    fType (peer 10 0) = 10 ∧ fType (peer 0 0) = 0 ∧ crcGood { peer 1 0 with trl := 0 } = false ∧ tCount (peer 9 0) = 0 ∧
    tCount (peer 9 0 1) ≠ 0 ∧ crcGood (peer 9 0 1) = true ∧
    (crcGood (peer 1 7) = true ∧ tLseq (peer 1 7) ≠ ((ported {}).port 0).rxSeq ∧ seqLe ((ported {}).port 0).rxSeq (tLseq (peer 1 7)) = true) ∧
    ({ ported {} with rank := 4 } : State).notForUs 0 (peer 1 0) = true := by decide +kernel

theorem witness_PortTimersReplaysAndLanes :
    (let s := ported { replay := [(0, peer 1 0)], unacked := 1, owed := [(0, 1)] }
     s.portOpen 0 = true ∧ (s.port 0).replay ≠ [] ∧ s.since (s.port 0).lastProgress 5000 = true ∧ 0 < (s.port 0).unacked ∧
     s.since (s.port 0).lastAck 500 = true ∧ (s.port 0).nakDue = false) ∧
    (let s := ported { txSeq := 1, replay := [(0, peer 1 0)], replayed := [(0, 6)] }
     ((s.port 0).txSeq :: (s.port 0).replay.map (·.1)).Nodup ∧ (∀ e ∈ (s.port 0).replayed, e.2 < 7) ∧ (s.port 0).replay ≠ []) ∧
    (let s := ported { txSeq := 1, replay := [(0, peer 1 0)], replayed := [(0, 7)] }
     (s.portOpen 0 = true ∧ s.since (s.port 0).lastProgress 5000 = true ∧ (s.port 0).lanes ≠ 0) ∧
     (s.port 0).replay.any (fun e => decide (7 ≤ Tbl.get 0 (s.port 0).replayed e.1.toNat)) = true) ∧
    (let s := { ported { hold := true } with psec := [(0, { st := .scrub, scrub := some {} })] }
     s.portUp 0 = false ∧ s.scrubs (s.ownerOfPort 0) = true ∧ (s.port 0).hold = true ∧ (s.port 0).state = 2) ∧
    (let s := { ported {} with psec := [(0, { st := .scrub, scrub := some {} })] }
     s.portUp 0 = true ∧ s.scrubs (s.ownerOfPort 0) = true) ∧
    (let s := { ported {} with ports := [(0, { state := 2, lanes := 4 })] }
     s.up = true ∧ (s.port 0).lanes.getLsbD (2 : BitVec 2).toNat = true ∧ (s.port 0).lanes &&& ~~~(1#4 <<< 2) = 0) ∧
    (15 : BitVec 4) &&& ~~~(1#4 <<< 2) ≠ 0 ∧
    (let s := { ported {} with ports := [(0, {})] }
     s.up = true ∧ s.tap.held = false ∧ (15 : BitVec 4) &&& s.lanesInService 0 ≠ 0 ∧ (s.port 0).state ≠ 2 ∧ (s.port 0).limit = 0) ∧
    (let s := ported { hold := true }
     (s.port 0).state = 2 ∧ (s.port 0).hold = true ∧ (15 : BitVec 4) &&& s.lanesInService 0 ≠ 0) ∧
    (let s := ported {}
     s.up = true ∧ (s.port 0).lanes.getLsbD (2 : BitVec 2).toNat = true ∧ s.outOfService 3 (4 * 0 + 2) = false ∧
     s.inQuarantine 3 (4 * 0 + 2) = false) ∧
    (let s := { ported {} with svc := { out := [unitId 3 1] } }
     s.portOpen 0 = true ∧ s.portIdle 0 = true ∧ s.lanesInService 0 ≠ (s.port 0).lanes) := by decide +kernel

def arbited (n : Nat) (a : Arb) : State :=
  { ported { queue := [peer 8 0], credits := fullCredits } with mem := { arb := [(n, a)] } }
def wanted : Nat := ((arbited 0 {}).egressRequests 0).headD 0

theorem witness_ArbitersAndBuffersMoveBeats :
    (let s := arbited 5 { forced := [2] }
     s.up = true ∧ ((s.arb 5).forced.filter fun k => (reqList (6 : Byte)).contains k).head? = some 2 ∧ (arbited 5 {}).up = true ∧ (16 : BitVec 8) ≤ s.mem.bankH ∧
     (∀ i ∈ reqList (6 : Byte), i ∉ ((arbited 5 {}).arb 5).forced) ∧ 1 ∈ reqList (6 : Byte) ∧ ((arbited 5 {}).arb 5).ptr ≤ 1 ∧
     (∀ k ∈ reqList (6 : Byte), ((arbited 5 {}).arb 5).ptr ≤ k → 1 ≤ k) ∧ (∀ i ∈ reqList (6 : Byte), i < ((arbited 5 { ptr := 7 }).arb 5).ptr)) ∧
    (let s := arbited 256 {}
     s.portOpen 0 = true ∧ s.egressCut 0 = false ∧ s.egressRequests 0 = [wanted] ∧ (s.egressWants 0 wanted).isSome = true ∧ 0 < s.mem.egressH.toNat ∧
     (ported {}).egressRequests 0 = []) ∧
    (let s := arbited 5 { winner := some 2, beats := 16 }
     s.up = true ∧ (s.arb 5).winner = some 2 ∧ 2 < 8 ∧ Tbl.find s.mem.lastCutLog 5 = none ∧
     (let u := { s with mem := { s.mem with lastCutLog := [(5, 8999999999)] } }
      Tbl.find u.mem.lastCutLog 5 = some 8999999999 ∧ u.since 8999999999 1000000 = false)) ∧
    (let s := arbited 256 { winner := some wanted, beats := 8 }
     s.portOpen 0 = true ∧ s.egressCut 0 = true ∧ (s.arb 256).winner = some wanted ∧ Tbl.find s.mem.lastCutLog 256 = none) ∧
    (let x : WcbEntry := { stack := 2, granule := 9, last := 1 }
     let s := { dev with mem := { wcb := [x] } }
     s.up = true ∧ s.mem.wcbAt 9 = some x ∧ x.stack = 2 ∧ s.since x.last 2000 = true ∧ x.mask ≠ BitVec.allOnes 256) := by decide +kernel


/-! ### The stream scheduler -/

/-- A command entry with sequence 1: KIND, TAG, macro-operation. -/
def entry (mop : BitVec 512) (kind : Nat := 1) (tag : Nat := 0) : Entry :=
  { seq := 1, got := 3, bytes := putBits (putField (putField (putField 0 0 8 kind) 8 8 tag) 128 64 1) 512 mop }
/-- The entry at the head of ring 0 of an open partition. -/
def heading (e : Entry) (r : Ring := {}) : State :=
  { dev with psec := [(0, opened)], rings := [(0, { r with enabled := true, st := .running, tail := 5, fetched := [e] })] }
/-- A macro-operation: OPC, IMM, ADDR, first binding. -/
def mop (opc imm addr bind : Nat) : BitVec 512 := putField (putField (putField (putField 0 0 16 opc) 128 64 imm) 192 48 addr) 256 16 bind
def ready (e : Entry) (a : Ask) : Bool :=
  let s := heading e
  s.headEntry 0 == some e && !(s.ring 0).overrun && (match readHead (s.ring 0) e with | .ok b => b == a | .error _ => false) && (a.stop e).isNone

theorem eq_of_ready {e : Entry} {a : Ask} (h : ready e a = true) :
    (heading e).headEntry 0 = some e ∧ ((heading e).ring 0).overrun = false ∧ readHead ((heading e).ring 0) e = .ok a ∧ a.stop e = none := by
  simp only [ready, Bool.and_eq_true, beq_iff_eq, Bool.not_eq_true', Option.isNone_iff_eq_none] at h
  obtain ⟨⟨⟨h1, h2⟩, h3⟩, h4⟩ := h
  refine ⟨h1, h2, ?_, h4⟩
  split at h3
  · rename_i b hb
    rw [hb, eq_of_beq h3]
  · exact absurd h3 Bool.false_ne_true

/-- An entry whose OPC is undefined. -/
theorem witness_MalformedEntryHaltsStream :
    (heading (entry (mop 0x99 0 0 0))).headEntry 0 = some (entry (mop 0x99 0 0 0)) ∧
    (match readHead ((heading (entry (mop 0x99 0 0 0))).ring 0) (entry (mop 0x99 0 0 0)) with | .error c => c == 0x0B01 | .ok _ => false) = true ∧
    (∀ h ∈ ((heading (entry (mop 0x99 0 0 0))).sched (ringPart 0)).hitches, h.2.arrived = []) ∧
    ((heading (entry (mop 0x99 0 0 0))).ring 0).ops.all (fun x => !(x.is 3 && x.live && x.work)) = true ∧
    (heading (entry (mop 0x99 0 0 0))).readyLoad 0 0x10 = none ∧ (heading (entry (mop 0x99 0 0 0))).readyLoad 0 0x11 = none := by decide +kernel

theorem witness_HeadEntriesTakeEffect :
    (ready (entry 0 0) .noop = true ∧ (heading (entry 0 0)).mustWait 0 (newOp (heading (entry 0 0)) 0 (entry 0 0)) [] = false ∧
      ((heading (entry 0 0)).ring 0).ops = []) ∧
    (let e := entry (mop 1 0 0 0)
     ready e (.mop 1) = true ∧ (heading e).mustWait 0 (newOp (heading e) 0 e) [] = false) ∧
    (let e := entry (mop 2 0x10003 0 0)
     let e' := entry (mop 2 0x30003 0 0)
     let o := newOp (heading e) 0 e
     let busy := heading e { ops := [{ seq := 9, orig := 9, mop := 0x12 }] }
     ready e (.mop 2) = true ∧ ready e' (.mop 2) = true ∧ (heading e).mustWait 0 o [] = false ∧ o.hitchMask.getLsbD (0 % 16) = true ∧
     busy.headEntry 0 = some e ∧ busy.mustWait 0 (newOp busy 0 e) [] = false ∧ (busy.ring 0).ops.any Op.live = true ∧
     ((heading e').ring 0).ops = [] ∧ ((heading e').ring 0).poisoned = false ∧
     (Tbl.get ({} : Hitch) ((heading e').sched 0).hitches (newOp (heading e') 0 e').hitchNo).arrived = [] ∧
     ∃ r, r < 16 ∧ r ≠ 0 % 16 ∧ (newOp (heading e') 0 e').hitchMask.getLsbD r = true) ∧
    (let e := entry (mop 4 7 0x1000 0)
     let o := { newOp (heading e) 0 e with uses := { ws := [7] } }
     ready e (.mop 4) = true ∧ field o.imm 0 10 = 7 ∧ (heading e).mustWait 0 o [] = false ∧ (heading e).blockRead 0 o o.addr 16 = none ∧
     (match ((heading e).scaleReg 0 7).writeWord (wordOf 128 ((heading e).bytesAt o.addr 16)) with | .ok _ => true | .error _ => false) = true) ∧
    (let e := entry (mop 5 7 0x1000 0)
     let o := { newOp (heading e) 0 e with uses := { ws := [7] } }
     ready e (.mop 5) = true ∧ (heading e).mustWait 0 o [] = false ∧ (heading e).blockWrite 0 o o.addr 16 = none) ∧
    (let e := entry (mop 6 9 0x2000 0)
     let o := { newOp (heading e) 0 e with uses := { wg := [9] } }
     ready e (.mop 6) = true ∧ (heading e).mustWait 0 o [] = false ∧ (heading e).blockWrite 0 o o.addr 288 = none) ∧
    (let e := entry (mop 7 9 0 0)
     ready e (.mop 7) = true ∧ (heading e).mustWait 0 { newOp (heading e) 0 e with uses := { wg := [9] } } [] = false) ∧
    (let e := entry (mop 3 0 0x3000 5)
     let o := newOp (heading e) 0 e
     ready e (.mop 3) = true ∧ o.bind 0 = 5 ∧ (heading e).mustWait 0 { o with uses := { wh := [5] } } [5] = false ∧
     (heading e).blockRead 0 { o with uses := { wh := [5] } } o.addr 128 = none ∧ (heading e).stashStop 0 5 (dVersion ((heading e).dwriteImage o)) = none ∧
     ((heading e).ring 0).ops.all (fun x => !(x.is 3 && x.live && x.work)) = true ∧ dVersion ((heading e).descOf 0 5) = 0) := by decide +kernel

/-- A ring 0 with these macro-operations in flight. -/
def flying (ops : List Op) (r : Ring := {}) : State :=
  { dev with psec := [(0, opened)], rings := [(0, { r with enabled := true, st := .running, ops := ops, nextSeq := 5, tail := 5 })] }

theorem witness_CompletionsStopsAndContinues :
    (let d : Desc := putField 0 672 32 3
     let o : Op := { seq := 4, orig := 4, mop := mop 3 0 0x3000 5, hold := true, descs := [(0, d)] }
     let s := flying [o]
     s.up = true ∧ s.freeDwrite 0 = some o ∧ o.dexc = [] ∧ s.stashStop 0 (o.bind 0) (dVersion (Tbl.get 0 o.descs 0)) = none) ∧
    (let o : Op := { seq := 4, orig := 4, mop := mop 1 0 0 0 }
     (∀ x ∈ [false, true], let s := flying [o] { poisoned := x }
       s.up = true ∧ s.readyFence 0 = some o ∧ s.opAt 0 o.orig = some o ∧ o.is 1 = true ∧ (s.ring 0).poisoned = x ∧ (s.ring 0).ops = [o] ∧
       ∀ h ∈ (s.sched 0).hitches, h.2.arrived = [])) ∧
    (let o : Op := { seq := 4, orig := 4, mop := mop 0x12 0 0 0, tag := 0x10, work := true }
     let s := flying [o] { phase := some {} }
     s.up = true ∧ s.opAt 0 (4 : BitVec 64).toNat = some o ∧ o.live = true ∧ o.work = true ∧ (s.ring 0).ops = [o] ∧ tagStepend o.tag = true ∧
     (s.ring 0).phase = some {}) ∧
    (let s := { dev with psec := [(0, opened)], psched := [(0, { slots := [(8, { st := 2, ver := 1, ending := true })] })] }
     s.up = true ∧ s.exists_ 0 = true ∧ s.batchEnds 0 = [8]) ∧
    (∀ st ∈ [RState.stopping, .halted], let s := { dev with rings := [(0, { enabled := true, st := st, stopReq := true, ops := [{ seq := 4, orig := 4, mop := mop 0x10 0 0 0 }] })] }
      s.up = true ∧ s.atStop 0 = true ∧ (s.ring 0).st = st ∧ ((s.ring 0).ops.filter Op.live).length = 1) ∧
    (let x : Op := { seq := 4, orig := 4, mop := mop 5 7 0x1000 0, uses := { ws := [7] } }
     let e : Entry := { entry 0 2 with bytes := putField (entry 0 2).bytes 64 64 4 }
     let s := heading e { stoppedOps := [x] }
     s.headEntry 0 = some e ∧ (s.ring 0).overrun = false ∧ (s.ring 0).stoppedOps = [x] ∧
     (match readHead (s.ring 0) e with | .ok b => b == .cont | .error _ => false) = true ∧
     (let q := { continued s 0 (newOp s 0 e) with slots := (0, 0) }; s.mustWait 0 q [] = false ∧ q.rooms.any s.roomReserved = false ∧
       q.shares.any (fun h => !h.ended && s.roomReserved h.room) = false) ∧
     x.finished = false) := by decide +kernel

/-- An image of one entry, which uses no operand. -/
def img1 : List Byte := bytesOf (putField (0 : BitVec 1024) 208 16 1) ++ bytesOf (putField (0 : BitVec 512) 52 60 0xFFFFFFFFFFFFFFF)
def loaded (r : Bool) : Program := { image := img1, rooms := BitVec.allOnes 128, ready := r }
def holding (g : Program) (s : State) : State := { s with psched := [(0, { programs := [(3, g)] })] }

theorem witness_ProgramsRunsAndShares :
    (let e := entry (putField (mop 0x10 0 0x1000 0) 64 16 3)
     let o := newOp (heading e) 0 e
     let s := { heading e with mem := { lines := [(0x10, {})] } }
     ready e (.mop 0x10) = true ∧ s.headEntry 0 = some e ∧ s.readyLoad 0 0x10 = none ∧ s.mustWait 0 o [] = false ∧ o.prog ≤ 63 ∧
     s.imageAddrStop 0 o = none) ∧
    (let o : Op := { seq := 4, orig := 4, mop := putField (mop 0x10 0 0x1000 0) 64 16 3 }
     let s := holding (loaded false) (flying [o])
     s.up = true ∧ s.opAt 0 (4 : BitVec 64).toNat = some o ∧ Tbl.find (s.sched 0).programs o.prog = some (loaded false) ∧ o.is 0x10 = true ∧
     o.live = true ∧ o.hold = false ∧ o.work = false ∧ (loaded false).ready = false ∧ 5 ∈ s.roomsOf 0 ∧ (loaded false).rooms.getLsbD 5 = true) ∧
    (let o : Op := { seq := 4, orig := 4, mop := putField (mop 0x11 0 0 0) 64 16 3, hold := true }
     let s := holding (loaded true) (flying [o])
     s.up = true ∧ s.readyLoad 0 0x11 = some o) ∧
    (let e := entry (putField (mop 0x12 0 0 0) 64 16 3)
     let s := holding (loaded true) (heading e)
     let o0 := newOp s 0 e
     let o1 := { o0 with slots := (o0.sfirst, o0.scount) }
     let o := { o1 with uses := s.runUses 0 o1 }
     ready e (.mop 0x12) = true ∧ s.headEntry 0 = some e ∧ (s.ring 0).overrun = false ∧ s.mustWait 0 o (o.bound.map o.bind) = false ∧
     s.programOf 0 o = some (loaded true) ∧ (shareRooms s 0 (loaded true) (imgEntry (loaded true).image o.entry)).any s.roomReserved = false ∧
     s.runStop 0 o = none) ∧
    (let o : Op := { seq := 4, orig := 4, mop := putField (mop 0x12 0 0 0) 64 16 3, shares := [{ room := 5 }] }
     let s := flying [o]
     s.nextShare 5 = some (0, o) ∧ s.roomLive 5 = true ∧ (s.room 5).run = none ∧ (s.room 5).halted = false ∧ s.outOfService 0 5 = false) ∧
    (let o : Op := { seq := 4, orig := 4, mop := putField (mop 0x12 0 0 0) 64 16 3, shares := [{ room := 5, started := true }] }
     let s := { flying [o] with rooms := [(5, { run := some (0, 4) })] }
     s.roomOp 5 = some (0, o) ∧ s.roomLive 5 = true ∧ o.live = true ∧ (s.room 5).active = false ∧ (s.room 5).quiet = true) := by decide +kernel

/-- A sound image at 0x1000: one declaration, one conversion entry, 256 bytes. -/
def imgDigest : BitVec 512 :=
  4434257335330812155745346778532694934996179568938730682879721451532622183152516060145592846965258963363830251152325790005166647191200213241253117118989771
def soundHeader : BitVec 1024 :=
  putBits (putField (putField (putField (putField (putField 0 0 8 1) 208 16 1) 200 8 1) 136 8 1) 224 32 256) 512 imgDigest
def soundBody : List Byte :=
  bytesOf (putField (putField (putField (0 : BitVec 256) 0 4 cF32) 7 2 3) 9 3 7)
    ++ bytesOf (putField (putField (putField (0 : BitVec 512) 0 8 6) 64 36 0xFFFFFFFFF) 100 12 0x100) ++ List.replicate 32 0
def soundImage : List Byte := bytesOf soundHeader ++ soundBody
def loading : State :=
  { flying [{ seq := 4, orig := 4, mop := putField (mop 0x10 0 0x1000 0) 64 16 3, hold := true }] with
    mem := { lines := [(0x10, { data := wordOf 2048 soundImage })] } }

/-- The digest is a Keccak value, too long to evaluate here, and whether the translation is over is not the model's to say: both are premises. -/
theorem witness_ImageIsSound (hd : shake256 soundBody 64 = bytesOf imgDigest)
    (ho : let u := touch (dropProgram loading 0 3) 0x1000 256; Config.translationOver soundImage (roomMaskOf (u.roomsServing 0)) = false) :
    ∃ o, loading.up = true ∧ loading.readyLoad 0 0x10 = some o ∧
      let len := max 128 (hLength (hdrOf (loading.bytesAt o.addr 128)))
      imageStop (touch (dropProgram loading 0 o.prog) o.addr len) 0 (loading.bytesAt o.addr len) = none := by
  refine ⟨{ seq := 4, orig := 4, mop := putField (mop 0x10 0 0x1000 0) 64 16 3, hold := true }, by decide +kernel, by decide +kernel, ?_⟩
  have ha : (Op.addr { seq := 4, orig := 4, mop := putField (mop 0x10 0 0x1000 0) 64 16 3, hold := true }) = 0x1000 := by decide +kernel
  have hp : (Op.prog { seq := 4, orig := 4, mop := putField (mop 0x10 0 0x1000 0) 64 16 3, hold := true }) = 3 := by decide +kernel
  have hl : max 128 (hLength (hdrOf (loading.bytesAt 0x1000 128))) = 256 := by decide +kernel
  have hb : loading.bytesAt 0x1000 256 = soundImage := by decide +kernel
  simp only [ha, hp, hl, hb]
  generalize hu : touch (dropProgram loading 0 3) 0x1000 256 = u at *
  have h1 : (decide (0x1000000 < hLength (hdrOf soundImage)) || !imageOk soundImage) = false := by decide +kernel
  have h2 : (soundImage.take (hLength (hdrOf soundImage))).drop 128 = soundBody := by decide +kernel
  have h3 : (soundImage.drop 64).take 64 = bytesOf imgDigest := by decide +kernel
  have h4 : u.sealed 0 = false := by subst hu; decide +kernel
  have h5 : (decide (1 < hFormrev (hdrOf soundImage)) || hFmtmask (hdrOf soundImage) &&& ~~~(0x037F : BitVec 16) != 0
      || decide ((u.roomsServing 0).length < hMinRooms (hdrOf soundImage)) || decide ((u.unitsOf 0).length < hMinSu (hdrOf soundImage))
      || decide (u.slotCount < hSlots (hdrOf soundImage))) = false := by subst hu; decide +kernel
  have h6 : seqOk soundImage = true := by decide +kernel
  have h7 : decide (4096 < atticTotal soundImage (u.roomsServing 0).length) = false := by subst hu; decide +kernel
  unfold imageStop
  simp only [h1, h2, h3, h4, h5, h6, h7, hd, ho, bne_self_eq_false, Bool.false_and, Bool.not_true, Bool.or_false, Bool.false_eq_true, if_false]


/-! ### Reduce and exchange stations -/

/-- A descriptor: format, base, up to two extents (elements contiguous along axis 0). -/
def desc (fmt base : Nat) (dims : List Nat) : Desc :=
  let d : Desc := putField (putField (putField (putField 0 0 48 base) 48 4 fmt) 52 3 dims.length) 55 1 1
  let d := putField (putField d 64 32 (dims.getD 0 0)) 96 32 (dims.getD 1 0)
  let d := if dims.length = 0 then d else putField d 256 48 1
  if dims.length < 2 then d else putField d 304 48 (dims.getD 0 0)
/-- A granule that holds `v`. -/
def holds (v : BitVec 2048) : AtLine := { data := v }
/-- The group of positions 12 (partition 0 of rank 3) and 16, at 0x1100. -/
def group : BitVec 2048 := putField (putField (putField 0 0 16 2) 64 16 12) 80 16 16
/-- An operand block at 0x1000: mode, source 1, destination 2, the group, a table. -/
def block (mode table : Nat) : BitVec 2048 :=
  putField (putField (putField (putField (putField (putField 0 0 8 1) 12 2 mode) 352 48 table) 432 16 2) 448 16 1) 464 48 0x1100
def blocks (mode table : Nat) : MemSys := { lines := [(0x10, holds (block mode table)), (0x11, holds group)] }
def fabric (opc mode table : Nat) (d1 d2 : Desc) : State :=
  { heading (entry (mop opc 0 0x1000 0)) with rank := 3, psched := [(0, { descs := [(1, d1), (2, d2)] })], mem := blocks mode table }
def spliceBlock : BitVec 2048 := putField (putField (putField 0 0 8 1) 416 32 2) 464 48 0x1400

theorem witness_ReductionsExchangesAndSplicesBegin :
    (let e := entry (mop 0x30 0 0x1000 0)
     let s := fabric 0x30 0 0 (desc cF32 0x100000 [262144]) (desc cF32 0x300000 [262144])
     let b := s.block64 (newOp s 0 e)
     let o := (newOp s 0 e).reading s 0 ([xSrc b], if s.writesResult 0 b then [xDst b] else [])
     ready e (.mop 0x30) = true ∧ s.headEntry 0 = some e ∧ (s.ring 0).overrun = false ∧ s.mustWait 0 o (o.uses.rh ++ o.uses.wh) = false ∧
     s.reduceStop 0 o = none) ∧
    (∀ mode ∈ [0, 1], let e := entry (mop 0x31 0 0x1000 0)
     let s := fabric 0x31 mode 0x1200 (desc cF32 0x100000 [4, 4]) (desc cF32 0x300000 [4, 4])
     let b := s.block64 (newOp s 0 e)
     let o := (newOp s 0 e).reading s 0 (xchgHandles b)
     let o := { o with slots := (o.sfirst, o.scount) }
     ready e (.mop 0x31) = true ∧ s.headEntry 0 = some e ∧ (s.ring 0).overrun = false ∧ xMode b = mode ∧
     s.mustWait 0 o (o.uses.rh ++ o.uses.wh) = false ∧ s.xblockStop 0 o o.addr = none ∧ s.xchgStop 0 o b (s.epochs 0) = none ∧ s.slotStop o = none) ∧
    (let e := entry (mop 0x32 0 0x1000 0)
     let s := { heading e with mem := { lines := [(0x10, holds spliceBlock)] } }
     let hs := (s.moveBlocks (s.block64 (newOp s 0 e))).map xchgHandles
     let o := (newOp s 0 e).reading s 0 ((hs.map (·.1)).flatten, (hs.map (·.2)).flatten)
     ready e (.mop 0x32) = true ∧ s.headEntry 0 = some e ∧ (s.openOps 0).any (fun x => x.2.is 0x32) = false ∧ s.mustWait 0 o [] = false ∧
     s.spliceStop 0 o = none) := by decide +kernel

theorem witness_EpochChangeAndPeerTimeout :
    (let c : SpliceOp := { blk := putField 0 416 32 2 }
     let o : Op := { seq := 4, orig := 4, mop := mop 0x32 0 0x1000 0, splice := some c }
     let s := flying [o]
     s.up = true ∧ s.spliceOf (0 : BitVec 2).toNat = some (0, o, c) ∧ s.spliceClear 0 o = true ∧ o.xchg = none ∧ c.changed = false ∧ spCount c.blk ≤ c.next ∧
     (s.ring 0).stopReq = false) ∧
    (let b : Bucket := { group := [12, 16], segs := 1, active := true, last := 5 }
     let o : Op := { seq := 4, orig := 4, mop := mop 0x30 0 0x1000 0, bucket := some b }
     let s := flying [o]
     s.up = true ∧ s.opAt 0 (4 : BitVec 64).toNat = some o ∧ o.live = true ∧ o.work = false ∧ 0 < (s.peer 0).peerTimeout.toNat * 1000000 ∧
     o.bucket = some b ∧ b.active = true ∧ (∃ h ∈ b.waitsOn (o.src b) (s.peer 0).sampleUse.toNat,
       s.since (Tbl.get b.last b.heard (hopNo h)) ((s.peer 0).peerTimeout.toNat * 1000000) = true) ∧
     ∀ h ∈ (s.sched 0).hitches, h.2.arrived = []) ∧
    (let x : Xchg := { group := [12, 16], last := 5 }
     let o : Op := { seq := 4, orig := 4, mop := mop 0x31 0 0x1000 0, xchg := some x }
     let s := flying [o]
     s.opAt 0 4 = some o ∧ o.bucket = none ∧ o.xchg = some x ∧
     ∃ h ∈ x.waitsOn (o.xdst x), s.since (Tbl.get x.last x.heard (hopNo h)) ((s.peer 0).peerTimeout.toNat * 1000000) = true) := by decide +kernel

/-! ### What frames do once accepted -/

/-- A frame from partition 0 of rank `r` to rank 3, with a good CRC. -/
def frameFrom (r : Nat) (h : FrameHead) (payload : List Byte) : PeerFrame :=
  let f := mkFrame { dev with rank := BitVec.ofNat 16 r } 0 { h with drank := 3 } payload
  { f with trl := putBits f.trl 96 (frameCrc f) }
/-- Port 0 of partition 0 of rank 3 open, this operation in flight on ring 0. -/
def reducing (o : Op) (descs : Tbl Desc := []) : State :=
  { flying [o] with rank := 3, ports := [(0, { state := 2, lanes := 15 })], psched := [(0, { descs := descs })], ppeer := [(0, { sampleUse := 64 })] }
/-- The state that a frame finds, the frame waiting. -/
def found (s : State) (f : PeerFrame) : State := (linkLayer s 0 f).1.updPort 0 fun q => { q with wait := q.wait ++ [f] }
/-- The premises on the frame and its partition. -/
def takes (s : State) (f : PeerFrame) : Bool :=
  let v := found s f
  s.portOpen 0 && crcGood f && tLseq f == (s.port 0).rxSeq && !tNak f && !s.notForUs 0 f && (s.portsOf 0).all (fun i => (s.port i).wait.isEmpty)
    && ((upTo 8).findSome? fun c => pumpStep v 0 c).isNone && ((v.exchanges 0).findSome? fun e => endXchg v e.1 e.2.1 e.2.2).isNone
    && (pumpSplice v 0).isNone && s.ownerOfPort 0 == 0

/-- A REDUCE of 16 segments, its segments counted from 1. -/
def bucketAt (group : List Nat) (pos sent : Nat) : Bucket := { group := group, pos := pos, segs := 16, base := 1, active := true, sent := sent }
def bucketOp (b : Bucket) : Op :=
  { seq := 4, orig := 4, mop := mop 0x30 0 0x1000 0, descs := [(0, desc cF32 0x100000 [262144])], bucket := some b }
def words : List Byte := List.replicate 16 0

/-- What RDATA and REDO ask of the bucket in flight. -/
def meets (b : Bucket) (f : PeerFrame) : Bool :=
  let o := bucketOp b
  let v := found (reducing o) f
  takes (reducing o) f && v.currentBucket 0 (fChan f) == some (0, o, b) && v.opAt 0 o.orig == some o && !o.finished && b.active && fBucket f == b.tag
    && fEpoch f == dEpoch (o.src b) % 65536 && b.done ≤ fSeg f && fSeg f < b.segs && fSeg f < b.done + 16 && b.group.contains (fKey f)

/-- RDATA up from the right child of level 1, and what it asks besides. -/
def upFrame : PeerFrame := frameFrom 4 { typ := 1, level := 1 } words
def upMeets (b : Bucket) : Bool :=
  let v := found (reducing (bucketOp b)) upFrame
  meets b upFrame && (b.place.kids.any fun k => k.1 == fLevel upFrame && b.key k.2 == fKey upFrame)
    && fSampled upFrame == b.sampled (v.peer 0).sampleUse.toNat 0 && b.stale.isEmpty && b.vote.isNone && b.redo == 0
    && (v.elemsStop ((bucketOp b).src b) (pieceElems ((bucketOp b).src b) 0 0)).isNone

theorem witness_PeerFramesAreAcceptedInOrderUp :
    fType upFrame = 1 ∧ fDown upFrame = false ∧ upMeets (bucketAt [12, 16, 20, 24] 0 0) = true ∧
    (∀ path, path < 2 → ((bucketAt [12, 16, 20, 24] 0 0).place.kids.any fun k =>
      k.1 != fLevel upFrame && (Tbl.find (bucketAt [12, 16, 20, 24] 0 0).recv (hopKey path 0 0 k.1)).isNone) = true) := by decide +kernel

theorem witness_PeerFramesAreAcceptedInOrderSum :
    let c := bucketAt [4, 8, 12, 16] 2 0
    let v := found (reducing (bucketOp c)) upFrame
    upMeets c = true ∧ (v.nodeSum 0 0 (bucketOp c) { c with recv := Tbl.set c.recv (hopKey 0 0 0 1) (frameWords upFrame, fPmask upFrame) } 0 0 0).isSome = true ∧
    c.sums.has (pieceKey 0 0 0) = false ∧ c.both (v.peer 0).sampleUse.toNat 0 = false ∧ c.place.up = some (2, 0) := by decide +kernel

theorem witness_PeerFramesAreAcceptedInOrderDown :
    (let f := frameFrom 4 { typ := 1, level := 1, down := true } words
     let b := bucketAt [16, 12] 1 16
     meets b f = true ∧ fDown f = true ∧ b.ownerOnly = false ∧ b.place.up = some (1, 0) ∧ 1 = fLevel f ∧ b.key 0 = fKey f ∧ b.resultDue = true) ∧
    (let f := frameFrom 4 { typ := 8, down := true } []
     meets (bucketAt [12, 16] 0 0) f = true ∧ fType f = 8 ∧ fDown f = true ∧ fLevel f = 0) ∧
    (let f := frameFrom 4 { typ := 8 } []
     meets (bucketAt [4, 12, 16] 1 16) f = true ∧ fType f = 8 ∧ fDown f = false ∧ (bucketAt [4, 12, 16] 1 16).place.up = some (1, 0)) := by decide +kernel

/-- An exchange of positions 12 and 16 into 16 elements. -/
def xchgIn (mode : Nat) (asked : Bool) : Xchg :=
  { blk := putField (putField 0 12 2 mode) 432 16 2, group := [12, 16], counts := [(0, 1)], fmt := cF32, asked := asked }
def xchgOp (x : Xchg) : Op := { seq := 4, orig := 4, mop := mop 0x31 0 0x1000 0, descs := [(2, desc cF32 0x300000 [4, 4])], xchg := some x }

/-- What a frame of an exchange asks. -/
def exchanges (typ mode : Nat) (asked : Bool) (payload : List Byte) : Bool :=
  let f := frameFrom 4 { typ := typ } payload
  let o := xchgOp (xchgIn mode asked)
  let v := found (reducing o) f
  takes (reducing o) f && fType f == typ && v.opAt 0 o.orig == some o && !o.finished && v.xchgFor 0 mode f == some (0, o, xchgIn mode asked)
    && (v.sched (ringPart 0)).hitches.isEmpty

theorem witness_PeerFramesAreAcceptedInOrderExchange :
    exchanges 2 0 true words = true ∧ exchanges 3 0 true (leBytes 4 2) = true ∧ exchanges 5 1 true (List.replicate 32 0) = true ∧
    exchanges 5 1 true (leBytes 4 2) = true ∧ exchanges 6 1 true (leBytes 8 0) = true ∧ exchanges 6 1 false (leBytes 8 (7 * 2 ^ 32)) = true := by
  decide +kernel

theorem witness_PeerFramesAreAcceptedInOrderShards :
    (∀ x ∈ [5, 0], let f := frameFrom 4 { typ := 4 } (leBytes 4 1 ++ leBytes 4 x ++ leBytes 4 1)
      let d : Desc := putField (putField (desc cF32 0x100000 [16]) 576 32 1) 672 32 5
      let s := { reducing (bucketOp (bucketAt [12] 0 0)) [(1, d)] with rings := [] }
      takes s f = true ∧ fType f = 4 ∧ (found s f).shardDesc 0 1 x 1 = (if x = 0 then none else some d) ∧
      (found s f).elemsStop d (upTo (dCount d)) = none ∧ (found s f).shardData 0 d ≠ []) ∧
    (let y := xchgIn 1 true
     let o := xchgOp y
     let f := frameFrom 4 { typ := 5 } (List.replicate 32 0)
     (min 512 (nth (y.shards (o.xdst y)) (y.blockOf (posOf y.group (fKey f)) (fSeg f)) - 512 * fPiece f) + 3) / 4 * 4 = 32 ∧
     (wordOf 64 (leBytes 8 (7 * 2 ^ 32)) : U64).toNat % 2 ^ 32 = dEpoch (o.xdst y)) := by decide +kernel

theorem witness_PeerFramesAreAcceptedInOrderAbort :
    let f := frameFrom 4 { typ := 7 } (leBytes 4 0)
    (∀ o ∈ [xchgOp (xchgIn 0 false), bucketOp (bucketAt [12, 16] 0 0)], let v := found (reducing o) f
      takes (reducing o) f = true ∧ fType f = 7 ∧ v.liveOps 0 = [(0, o)] ∧ v.opAt 0 o.orig = some o ∧ o.work = false ∧ v.stopping 0 = false) ∧
    (bucketAt [12, 16] 0 0).tag = fBucket f ∧ (bucketAt [12, 16] 0 0).chan = fChan f ∧ fKey f ∈ (bucketAt [12, 16] 0 0).group ∧
    xTag (xchgIn 0 false).blk = fBucket f := by decide +kernel


/-! ### Rooms -/

/-- Ring 0 runs a share in room 5. -/
def running (r : Room) : State :=
  { flying [{ seq := 4, orig := 4, mop := putField (mop 0x12 0 0 0) 64 16 3, shares := [{ room := 5, started := true }] }] with
    rooms := [(5, { r with run := some (0, 4), active := true })] }
def runOp : Op := { seq := 4, orig := 4, mop := putField (mop 0x12 0 0 0) 64 16 3, shares := [{ room := 5, started := true }] }
/-- A room about to issue `w`. -/
def issuing (w : RoomWord) (r : Room := {}) : State := running { r with imem := [(0, w)] }
/-- Words of the scalar slot alone (its code, registers 1, 2 and 3), and of the sync slot alone. -/
def scalarWord (opc d : Nat) : RoomWord := putField (putField (putField (putField 0 248 8 opc) 242 6 d) 236 6 2) 230 6 3
def syncWord (op room ctr n : Nat) : RoomWord := putField (putField (putField (putField 0 28 4 op) 21 7 room) 17 4 ctr) 9 8 n

/-- The premises of a word that issues in room 5. -/
def issues (w : RoomWord) (waits : Bool) : Bool :=
  let s := issuing w
  s.roomIssues 5 && (s.room 5).wordKnown && s.roomOp 5 == some (0, runOp) && (s.room 5).word 5 (s.room 5).pc == w && (wordStop s 5 w).isNone &&
    wordWaits (s.room 5) w == waits && (s.room 5).loops.isEmpty

theorem witness_RoomWordsIssue :
    ((1 : BitVec 79) ≠ 0 ∧ (bchDecode 1).isSome = true ∧ (15 : BitVec 79) ≠ 0 ∧ (bchDecode 15).isSome = false) ∧
    issues 0 false = true ∧ issues (scalarWord 1 1) false = true ∧ issues (scalarWord 0x18 0) false = true ∧ issues (syncWord 2 6 3 0) false = true ∧
    issues (syncWord 3 0 3 0) false = true ∧ issues (syncWord 3 0 3 1) true = true ∧ issues (syncWord 4 0 0 0) false = true ∧
    bits (scalarWord 1 1) 0 208 = (0 : BitVec 208) ∧ bits (scalarWord 0x18 0) 0 208 = (0 : BitVec 208) ∧ bits (syncWord 2 6 3 0) 32 224 = (0 : BitVec 224) ∧
    bits (syncWord 3 0 3 0) 32 224 = (0 : BitVec 224) ∧ bits (syncWord 4 0 0 0) 32 224 = (0 : BitVec 224) ∧
    scOpc (slotScalar (scalarWord 1 1)) = 1 ∧ scOpc (slotScalar (scalarWord 0x18 0)) = 0x18 := by decide +kernel

theorem witness_RoomWordStops :
    let s := running { pc := 2048 }
    s.roomIssues 5 = true ∧ (s.room 5).wordKnown = true ∧ s.roomOp 5 = some (0, runOp) ∧ (wordStop s 5 ((s.room 5).word 5 (s.room 5).pc)).isSome = true ∧
      ∀ h ∈ (s.sched (ringPart 0)).hitches, h.2.arrived = [] := by decide +kernel

def pend (op sub : Nat) : Pend := { slot := putField (putField 0 52 4 op) 23 4 sub }
def matOp : Pend := { slot := putField 0 37 3 1, ptrs := [0, 0] }

/-- A TIE whose first accumulator is to be cleared. -/
def tieOp : Pend := { slot := putField 0 37 3 4, x0 := 0x10000, ptrs := [0, 0] }

theorem witness_MatrixAndRowResultsLand :
    (let s := running { matQ := [matOp] }
     s.roomLive 5 = true ∧ (s.room 5).matQ = [matOp] ∧ matOp.done = false ∧ (s.room 5).mayWrite matOp = true ∧ mOp (bits matOp.slot 0 40) = 1 ∧
     matOp.ptrs = [0, 0]) ∧
    (let first := { matOp with done := true }
     let o := { matOp with chain := true }
     let s := running { matQ := [first, o] }
     s.roomLive 5 = true ∧ o.done = false ∧ (s.room 5).matQ = first :: o :: [] ∧ first.done = true ∧ o.chain = true) ∧
    (let s := running { matQ := [tieOp] }
     s.roomLive 5 = true ∧ (s.room 5).matQ = [tieOp] ∧ (s.room 5).mayWrite tieOp = true ∧ mOp (bits tieOp.slot 0 40) = 4 ∧ field tieOp.x0 16 16 ≠ 0) ∧
    (∀ n ∈ [0, 1, 2, 3, 4, 5], let s := running { rowQ := [pend 7 n] }
     s.roomWorks 5 = true ∧ (s.room 5).rowQ = [pend 7 n] ∧ (pend 7 n).done = false ∧ (pend 7 n).chunk < rowTotal (pend 7 n) ∧
     (s.room 5).mayWrite (pend 7 n) = true ∧ vSub (pend 7 n).slot = n ∧ s.roomStopping 5 = false ∧ 0 < rpRows (pend 7 n).aux) := by
  decide +kernel

theorem witness_EnginesReleaseAndSignalsArrive :
    (let s := running { matQ := [matOp], rowQ := [pend 7 0], loadQ := [pend 0 0], storeQ := [pend 0 0], sigQ := [⟨6, 3, 0, 0⟩] }
     s.roomLive 5 = true ∧ s.roomOp 5 = some (0, runOp) ∧ (s.room 5).matQ = [matOp] ∧ (s.room 5).rowQ = [pend 7 0] ∧ (s.room 5).loadQ = [pend 0 0] ∧
     (s.room 5).mayWrite (pend 0 0) = true ∧ loadRefused s (pend 0 0) (bits (pend 0 0).slot 0 40) = none ∧ (s.room 5).storeQ = [pend 0 0] ∧
     (s.room 5).storeReady (pend 0 0) = true ∧ storeRefused s (pend 0 0) (bits (pend 0 0).slot 0 40) = none ∧ (s.room 5).sigQ = [⟨6, 3, 0, 0⟩] ∧
     s.outOfService 0 6 = false ∧ (s.room 6).zeroing = false ∧ runOp.live = true ∧ (∀ h ∈ (s.sched (ringPart 0)).hitches, h.2.arrived = []) ∧
     ({ s with svc := { out := [unitId 0 6] } } : State).outOfService 0 6 = true) ∧
    (let s := running { matQ := [{ matOp with done := true }], rowQ := [{ pend 7 0 with done := true }] }
     s.roomLive 5 = true ∧ (s.room 5).matQ = [{ matOp with done := true }] ∧ (s.room 5).rowQ = [{ pend 7 0 with done := true }]) ∧
    (let s := running { vecQ := [pend 7 0] }
     s.roomLive 5 = true ∧ (s.room 5).vecQ = [pend 7 0] ∧ vOp (pend 7 0).slot = 7 ∧ (s.room 5).rowQ.length < 2) ∧
    (∀ n ∈ [1, 4], let s := running { vecQ := [pend n 0] }
     (s.room 5).vecQ = [pend n 0] ∧ 1 ≤ vOp (pend n 0).slot ∧ vOp (pend n 0).slot ≤ 4 ∧ (s.room 5).mayWrite (pend n 0) = true) ∧
    (∀ n ∈ [5, 6], let s := running { vecQ := [pend n 0] }
     s.roomLive 5 = true ∧ (s.room 5).vecQ = [pend n 0] ∧ 5 ≤ vOp (pend n 0).slot ∧ vOp (pend n 0).slot ≤ 6 ∧ (s.room 5).vectorReady (pend n 0) = true ∧
     gatherRefused s (s.room 5) (pend n 0).slot = none) := by decide +kernel


/-! ### Entries of the Ituno form -/

/-- With no blocked granule and no unit out of service, no access is refused. -/
theorem accessStop_clear (s : State) (hb : s.mem.blocked = []) (ho : s.svc.out = []) (a : Nat) : s.accessStop a = none := by
  simp [State.accessStop, State.blockedAt, hb, State.pcOut, State.outOfService, ho]

theorem elemsStop_clear (s : State) (hb : s.mem.blocked = []) (ho : s.svc.out = []) (d : Desc) (ns : List Nat) : s.elemsStop d ns = none := by
  simp [State.elemsStop, State.rangeStop, accessStop_clear s hb ho]

/-- An image of one entry: the operation, SUB, and the letters it uses, letter k at binding position k. -/
def imgOf (op sub : Nat) (letters : List Nat) : List Byte :=
  bytesOf (putField (putField (putField (0 : BitVec 1024) 208 16 1) 200 8 1) 192 8 1) ++ List.replicate 32 0 ++
  bytesOf ((upTo 5).foldl (fun (w : BitVec 512) k => putField w (52 + 12 * k) 12 (if letters.contains k then 256 * k else 0xFFF))
    (putField (putField 0 0 8 op) 116 4 sub)) ++ List.replicate 128 0
/-- The RUN of it in ring 0, its share started in room 5: F32 matrices of 2 by 2, the index vector of a gather. -/
def runOf (op : Nat) : Op :=
  { runOp with descs := [(0, desc cF32 0x10000 [2, 2]), (1, if 7 ≤ op then desc cI32 0x11000 [2] else desc cF32 0x11000 [2, 2]),
                         (3, desc cI32 0x12000 [2, 2]), (4, desc cF32 0x13000 [2, 2])] }
def computing (op sub : Nat) (letters : List Nat) : State :=
  { flying [runOf op] with psched := [(0, { programs := [(3, { image := imgOf op sub letters, rooms := BitVec.allOnes 128, ready := true })] })] }
def works (s : State) (op : Nat) (f : Work → Bool) : Bool := match s.entryWork 0 4 op with | some k => f k | none => false

theorem work_of_works {s : State} {op : Nat} {f : Work → Bool} (h : works s op f = true) : ∃ k, s.entryWork 0 4 op = some k ∧ f k = true := by
  unfold works at h
  split at h
  · exact ⟨_, ‹_›, h⟩
  · exact absurd h Bool.false_ne_true

theorem witness_EntriesComputeTheirOutputs :
    (∀ x ∈ [(1, 0, [0, 1, 4]), (2, 0, [0, 1, 4]), (3, 0, [0, 1, 3, 4]), (4, 0, [0, 4]), (5, 0, [0, 4]), (5, 3, [0, 2, 4]), (6, 0, [0, 4]),
        (7, 0, [0, 1, 4]), (8, 0, [0, 1, 4])],
      ∀ d ns, (computing x.1 x.2.1 x.2.2).elemsStop d ns = none) ∧
    works (computing 1 0 [0, 1, 4]) 1 (fun k => declTie (imgDecl k.img (pDecl k.e 4)) == 0) = true ∧
    works (computing 2 0 [0, 1, 4]) 2 (fun _ => true) = true ∧ works (computing 3 0 [0, 1, 3, 4]) 3 (fun _ => true) = true ∧
    works (computing 4 0 [0, 4]) 4 (fun k => kernelOk true (imgKernel k.img (pKer k.e))) = true ∧
    works (computing 5 0 [0, 4]) 5 (fun k => pSub k.e == 0) = true ∧ works (computing 6 0 [0, 4]) 6 (fun _ => true) = true ∧
    works (computing 7 0 [0, 1, 4]) 7 (fun k =>
      fmtFloat (dFmt (k.desc 0)) && (goodRows ({ k with s := touchElems k.s (k.desc 1) (upTo (k.count 1)) } : Work).indices (k.dim 0 1)).2.isNone) = true ∧
    works (computing 8 0 [0, 1, 4]) 8 (fun k =>
      fmtFloat (dFmt (k.desc 4)) && (goodRows ({ k with s := touchElems k.s (k.desc 1) (upTo (k.count 1)) } : Work).indices (k.dim 4 1)).2.isNone) = true ∧
    (let s := computing 5 3 [0, 2, 4]
     let a : Attic := { valid := true, kind := 1 }
     let s := { s with rooms := (upTo 112).map fun m => (m, { attic := [(0, a), (1, a)] }) }
     works s 5 (fun k => pSub k.e == 3 && (upTo (k.count 0 / k.dim 0 0)).all fun j =>
       let x := k.attic false j
       x.valid && x.kind == rowKind (pSub k.e) && x.handle.toNat == k.handle 0)) = true := by
  refine ⟨fun x _ d ns => elemsStop_clear _ rfl rfl d ns, ?_⟩
  decide +kernel

theorem witness_MatmulAndGatherResults :
    works (computing 1 0 [0, 1, 4]) 1 (fun k =>
      let d := k.desc 4
      let cell := fun (i : Nat) => cellAt d (offsetAt d i)
      ((upTo (k.count 4)).all fun i => (upTo (k.count 4)).all fun j =>
        i == j || decide ((cell i).1 + (cell i).2 ≤ (cell j).1) || decide ((cell j).1 + (cell j).2 ≤ (cell i).1)) &&
      dFmt d != cQ4 && !gathers d && pSub k.e == 0 && fmtFloat (dFmt d) && (k.s.sched 0).hidden.isEmpty && dRank d == 2 && k.dim 4 0 == 2 && k.dim 4 1 == 2) = true ∧
    works (computing 7 0 [0, 1, 4]) 7 (fun k => dFmt (k.desc 0) == dFmt (k.desc 4) && !gathers (k.desc 0) && k.count 4 == k.dim 0 0 * k.count 1) = true ∧
    (let s := { computing 1 0 [0, 1, 4] with mem := { blocked := [(3, putField (putField 0 0 32 1) 63 1 1)] } }
     works s 1 (fun k => s.elemsStop (k.desc 0) (upTo (k.count 0)) == some (0x10000, 0x0701)) = true ∧
     ∀ h ∈ (s.sched (ringPart 0)).hitches, h.2.arrived = []) := by decide +kernel


/-! ### The solver -/

/-- A call of one dense problem (kind, mode), its solution through handle 1, its record at 0x6000. -/
def call (kind mode : Nat) : BitVec 1024 :=
  putField (putField (putField (putField (putField (putField (putField 0 0 8 1) 13 3 kind) 16 2 mode) 44 12 1) 522 1 1) 624 16 1) 720 48 0x6000
def solveOp (kind mode : Nat) (probs : Tbl Problem) : SolveOp := { call := call kind mode, reserved := true, units := [2], probs := probs }
def solving (c : SolveOp) (r : Ring := {}) : State := flying [{ seq := 4, orig := 4, mop := mop 0x20 0 0x1000 0, solve := some c }] r

theorem witness_SolveCallsAndProblemsBegin :
    (let e := entry (mop 0x20 0 0x1000 0)
     let s := { heading e with mem := { lines := [(0x10, holds ((call 0 0).setWidth 2048))] }, psched := [(0, { descs := [(1, desc cF32 0x10000 [4, 1])] })] }
     let o0 := newOp s 0 e
     let c := s.callOf o0
     let tr := s.treeOf c
     let named := fun (l : List Nat) => l.map fun h => (h, s.descOf 0 h)
     let o := { o0 with slots := (sFirst c, sCount c), uses := usesOf (s.sched 0).scales (named (readHandles c tr)) (named (writeHandles c tr)) }
     ready e (.mop 0x20) = true ∧ s.headEntry 0 = some e ∧ (s.ring 0).overrun = false ∧ s.mustWait 0 o (namedHandles c tr) = false ∧
     (countUp (field c 26 7) (sNroom c)).any s.roomReserved = false ∧ s.solveStop 0 o = none) ∧
    (let c := { solveOp 0 0 [] with reserved := false }
     let s := solving c
     s.up = true ∧ (s.opAt 0 (4 : BitVec 64).toNat).isSome = true ∧ c.reserved = false ∧ (∀ m ∈ c.borrowed, (s.room m).quiet = true)) ∧
    (∀ g ∈ [false, true], let c := solveOp 0 0 [(0, { begun := g })]
     let s := solving c
     let o : Op := { seq := 4, orig := 4, mop := mop 0x20 0 0x1000 0, solve := some c }
     s.up = true ∧ s.opAt 0 4 = some o ∧ o.live = true ∧ o.solve = some c ∧ s.callRuns 0 o c = true ∧ c.nextProblem = some 0 ∧
     (s.freeUnits 0 c).head? = some 2 ∧ (makeSpace s 0 c (Tbl.get {} c.probs 0)).isSome = true ∧
     (Tbl.get ({} : Problem) c.probs 0).begun = g ∧ (match makeSpace s 0 c (Tbl.get {} c.probs 0) with
       | some u => (problemInputs { u with free := u.free + 1 } o c 0 u.free).2.stop.isNone
       | none => false) = true) := by decide +kernel

/-- A problem of a call, on unit 2. -/
def onUnit (c : SolveOp) (r : Ring := {}) : Bool :=
  match (solving c r).probAt 0 4 0 with
  | some (_, _, pr) => (solving c r).up && pr.on && !pr.stopped
  | none => false

/-- A tree of one body without dofs, a parameter of it given; with one record of one row. -/
def tree1 (v ncon : Nat) : List Byte :=
  bytesOf (putField (putField (putField (0 : BitVec 512) 0 8 1) 16 16 1) 32 16 ncon) ++ bytesOf (putField (putField (0 : BitVec 1536) 0 11 0x7FF) 896 64 v)
    ++ bytesOf (putField (0 : BitVec 512) 26 2 1)
def one : Nat := 0x3FF0000000000000
def nan : Nat := 0x7FF8000000000000

theorem witness_ProblemsAdvanceAndRunOut :
    (∀ st ∈ [ProbStage.assembly, .adjoint, .factor, .adjFactor, .sweeps], ∀ f ∈ [(false, false), (false, true), (true, false)],
      let pr : Problem := { stage := st, on := true, begun := true, inp := { tree := tree1 0 0 } }
      onUnit { solveOp 3 0 [(0, pr)] with fired := f.1 } { stopReq := f.2 } = true) ∧
    (let pr : Problem := { stage := .assembly, on := true, begun := true, inp := { tree := tree1 0 0 } }
     pr.pass + 1 < passes pr.inp.tree false) ∧
    (let pr : Problem := { stage := .assembly, on := true, begun := true, inp := { tree := tree1 nan 0 }, pass := 4 }
     onUnit (solveOp 3 0 [(0, pr)]) = true ∧ passes pr.inp.tree false ≤ pr.pass + 1 ∧ (assembled pr.inp).1.nonFinite = true) ∧
    (let pr : Problem := { stage := .factor, on := true, begun := true, inp := { a := [one, 0, 0, one], rows := 2, cols := 2 } }
     onUnit (solveOp 2 0 [(0, pr)]) = true ∧ pr.interval + 1 < (factored (sKind (call 2 0)) pr.inp).1.intervals ∧
     (factored 2 pr.inp).1.stop = none ∧ (factored 0 { a := [0], rows := 1, cols := 1 }).1.stop.isSome = true) ∧
    (∀ k ∈ [0, 1, 2, 3, 4, 5], ∀ m ∈ [0, 1],
      let pr : Problem := { stage := .factor, on := true, begun := true, inp := { a := [one, 0, 0, one], rows := 2, cols := 2, tree := tree1 0 0 } }
      let c := solveOp k m [(0, pr)]
      let o : Op := { seq := 4, orig := 4, mop := mop 0x20 0 0x1000 0, solve := some c }
      onUnit c = true ∧ (solving c).callRuns 0 o c = true ∧ sKind c.call = k ∧ sMode c.call = m ∧ (m = 0 → sAdj c.call = false) ∧
      pr.stage ≠ .ended ∧ o.work = false) := by decide +kernel

/-- Sweeps: a residual within the tolerance, one outside it, a diagonal that is not positive. -/
theorem witness_Sweeps :
    (let pr : Problem := { stage := .sweeps, on := true, begun := true }
     let r := ((sweepOnce (factored 5 pr.inp).1.sch pr.inp.mu (rowBounds pr.inp.tree) pr.lam).run 0).1
     (∀ f ∈ [(false, false), (false, true), (true, false)], onUnit { solveOp 5 0 [(0, pr)] with fired := f.1 } { stopReq := f.2 } = true) ∧ sAdj (call 5 0) = false ∧ r.stop = none ∧ (fLe fF64 r.dmax (sTol (call 5 0))).1 = true ∧
     (fLe fF64 r.dmax (sTol (putField (call 5 0) 960 64 nan))).1 = false ∧ sMaxit (call 5 0) ≤ pr.sweep + 1 ∧
     pr.sweep + 1 < sMaxit (putField (call 5 0) 528 16 9)) ∧
    (let pr : Problem := { stage := .sweeps, on := true, begun := true, inp := { tree := tree1 0 1, meas := List.replicate 6 0 }, lam := [0] }
     onUnit (solveOp 5 0 [(0, pr)]) = true ∧
     (((sweepOnce (factored 5 pr.inp).1.sch pr.inp.mu (rowBounds pr.inp.tree) pr.lam).run 0).1.stop).isSome = true) := by decide +kernel

theorem witness_ProblemEndWritesRecord :
    (∀ l ∈ [[], [(1, ({ stage := .factor } : Problem))]], let pr : Problem := { stage := .outputs, on := true, begun := true, unit := 2 }
      let s := solving (solveOp 0 0 ((0, pr) :: l))
      s.up = true ∧ (s.probAt 0 4 0).isSome = true ∧ pr.stage = .outputs ∧ pr.stopped = false ∧ pr.outs = [] ∧
      (s.sched 0).hidden = []) ∧
    (let pr : Problem := { stage := .factor, on := true, begun := true, stopped := true, status := 0x11 }
     let s := solving (solveOp 0 0 [(0, pr)])
     s.up = true ∧ (s.probAt 0 4 0).isSome = true ∧ pr.on = true ∧ pr.stopped = true ∧ pr.stage ≠ .ended) ∧
    (let pr : Problem := {}
     let c := solveOp 0 0 [(0, pr), (1, pr)]
     let s := solving c { stopReq := true }
     s.up = true ∧ (s.probAt 0 4 0).isSome = true ∧ pr.on = false ∧ pr.stopped = false ∧ pr.stage ≠ .outputs ∧ pr.stage ≠ .ended ∧
     (s.ring 0).stopReq = true ∧ c.fired = false ∧ (s.sched 0).hidden = [] ∧ pr.outs = [] ∧ ∃ e ∈ c.probs, e.1 ≠ 0 ∧ e.2.stage ≠ .ended) := by decide +kernel


/-! ### Values that the spec works out -/

/-- Memory system, the example of the address hash: address 0x0012_3456_7800 in one-partition mode. -/
theorem test_address_hash : let q := placeOf .one 0 0x12345678
    q.stack = 9 ∧ q.pc = 9 ∧ q.w = 0xC22E4 ∧ q.i = 0x1845C8A ∧ q.die = 3 ∧ q.bank = 29 ∧ q.set = 1650 := by decide +kernel
/-- The same address in two-partition and in four-partition mode. -/
theorem test_address_hash_modes : (placeOf .two 0 0x12345678).stack = 0 ∧ (placeOf .two 0 0x12345678).i = 0x308B914 ∧
    (placeOf .four 0 0x12345678).stack = 0 ∧ (placeOf .four 0 0x12345678).i = 0x6117228 := by decide +kernel

/-- Stations and streams, the example of the extent of a descriptor, in partition 1 of four-partition mode. -/
def four : State := { dev with mode := .four, psec := [(1, { st := .sealed, sealedSlot := true })] }
def r60 (base : Nat) : Desc :=
  let d : Desc := putField (putField (putField (putField 0 0 48 base) 48 4 cF32) 52 3 3) 55 1 1
  let d := putField (putField (putField d 64 32 64) 96 32 48) 128 32 10
  putField (putField (putField d 256 48 1) 304 48 80) 352 48 (2 ^ 48 - 4000)
theorem test_descriptor_below_bounds : four.descStop 1 (r60 0x1B00023000) false [1] = some 0x0A07 := by decide +kernel
theorem test_descriptor_extent : dExtent (r60 0x1B00023280) = (0x1B00000000, 0x1B00026E3F) ∧ four.descStop 1 (r60 0x1B00023280) false [1] = none := by
  decide +kernel
/-- Memory system: where the tags and the descriptor table of that partition lie while it is sealed. -/
theorem test_sealed_layout : four.tagBase 1 = 0x3527800000 ∧ four.descBase 1 = 0x35FF800000 ∧ four.tagBase 1 + 8 * 562 = 0x3527801190 := by decide +kernel

/-- Number formats, the example of three steps in S8: 0.0123 is 0x3C4985F0 in F32, 14.0 is 0x41600000, the outlier 20.5 is 0x41A40000. -/
def s8 (k : Int) (x : Nat) : Nat × Flags := elemPack cS8 .rne k (decodeNum fF32 x)
theorem test_s8_steps : (s8 12 0x3C4985F0).1 = 0x52 ∧ (s8 9 0x3C4985F0).1 = 0x46 ∧ (s8 9 0x41600000).1 = 0x6F := by decide +kernel
theorem test_s8_overflow : (s8 12 0x41A40000).1 = 0x7C := by decide +kernel

/-- Vector and row engines, the example of a kernel: operation 0 is 0x0414_1100, operation 1 0x7C20_4000. -/
theorem test_kernel_fields : kOpc 0x04141100 = 1 ∧ kDst 0x04141100 = 1 ∧ kSa 0x04141100 = 16 ∧ kSb 0x04141100 = 17 ∧ kOpc 0x7C204000 = 0x1F ∧
    kDst 0x7C204000 = 2 ∧ kSa 0x7C204000 = 1 := by decide +kernel

/-- Package pins and test: what IDCODE reads on a grade A and a grade B part of revision 1. -/
def idcodeOf (g : Grade) : U32 := match exec .idcode { dev with ident := { grade := g } } with | .next t => t.tap.dr | _ => 0
theorem test_idcode : idcodeOf .a = 0x10900AF7 ∧ idcodeOf .b = 0x10901AF7 := by decide +kernel

/-- Room instruction words, the example of CMUL in F32. -/
theorem test_cmul : complexOp fF32 .rne false false [0x3F800800, 0x3F800800] [0x3F800800, 0x3F7FF000] [] = ([0x3A000800, 0x40000800], 0) := by
  decide +kernel

/-- The same chapter, the example of two loops: the inner loop of no passes leads from word 101 to word 103, the outer one from 104 back to 101. -/
def inLoop (pc : Nat) : Room := { pc := pc, loops := [{ start := 101, last := 104, remain := 3, index := 0 }] }
theorem test_loops : (nextPc (inLoop 101) (inLoop 101) (putField (putField (putField 0 40 8 0x1D) 28 6 6) 0 11 102)).pc = 103 ∧
    (nextPc (inLoop 104) (inLoop 104) 0).pc = 101 := by decide +kernel

/-- Scope, the table of grades: a grade B part has 28 of 32 rooms and 2 of 4 solver units on each compute die, 112 and 8 in all. -/
def gradeB : Ident := { grade := .b, roomsPresent := BitVec.ofNat 128 0x0FFFFFFF0FFFFFFF0FFFFFFF0FFFFFFF, unitsPresent := 0x3333 }
theorem test_grades : gradeB.ok = true ∧ ({ gradeB with unitsPresent := 0x3337 } : Ident).ok = false ∧ ({ gradeB with grade := .a } : Ident).ok = false ∧
    4 * Grade.b.roomsPerDie = 112 ∧ 4 * Grade.b.unitsPerDie = 8 ∧ Grade.a.sramMiB = 2048 ∧ Grade.b.sramMiB = 2016 := by decide +kernel

/-- Memory system, the code of a word: a sound word decodes to itself, one and two bits in error are corrected, three are found. -/
def coded : BitVec 79 := bchEncode 0x0123456789ABCDEF
theorem test_word_code : bchData coded = 0x0123456789ABCDEF ∧ bchDecode coded = some coded ∧ bchDecode (flipBit coded 40) = some coded ∧
    bchDecode (flipBit (flipBit coded 3) 70) = some coded ∧ bchDecode (flipBit coded 78) = some coded ∧
    bchDecode (flipBit (flipBit (flipBit coded 1) 20) 50) = none := by decide +kernel
/-- The code of a beat: one byte and two bytes in error are corrected, and the check bytes of a poisoned beat are told from errors. -/
def beatOf : List Byte := (upTo 32).map fun i => BitVec.ofNat 8 (7 * i + 3)
theorem test_beat_code : rsDecode (rsEncode beatOf false) = .good ∧ rsDecode (rsEncode beatOf true) = .stored ∧
    rsDecode (xorAt (rsEncode beatOf false) 5 0x81) = .fixed beatOf := by decide +kernel
theorem test_beat_code_pair : rsDecode (xorAt (xorAt (rsEncode beatOf false) 0 0xFF) 1 0x10) = .fixed beatOf := by decide +kernel

/-- Companion link, the header of a message: TYPE in bits 4:0, TAG in bits 15:5, STATUS in bits 75:72, the line address in bits 127:82. -/
def oneMessage : Flit := { frame := 0, ack := 0, more := false }
theorem test_message_headers :
    let fl := oneMessage
    messageCommand fl [0x00000000000000000000000000000001 ||| (0x2A5 <<< 5) ||| (0x1234 <<< 82)] = some (.rd fl 0x2A5 0x1234 []) ∧
    messageCommand fl [0x06 ||| (0x7FF <<< 5) ||| (0x5 <<< 72)] = some (.rsp fl 0x7FF 5) ∧
    messageCommand fl [0x08 ||| (0x3 <<< 5) ||| (0x9 <<< 82)] = some (.snpinv fl 3 9) ∧
    messageCommand fl [0x03 ||| (0x1 <<< 82), 1, 2, 3, 4] = some (.wr fl 0 1 (1 + (2 <<< 128) + (3 <<< 256) + (4 <<< 384))) ∧
    messageCommand fl [0] = none ∧ messageCommand fl [0x0B] = some (.messageOfUndefinedType ⟨fl, 11⟩) := by
  decide +kernel
end Sys2Proof.Tests
end

section
/-! Bit fields read beside a write, and bits of the zero word. -/

namespace Sys2Proof

variable {n : Nat}

theorem field_putField_ne (x : BitVec n) (lo w v lo' w' : Nat) (h : lo' + w' ≤ lo ∨ lo + w ≤ lo') :
    field (putField x lo w v) lo' w' = field x lo' w' := by
  rw [field_eq, field_eq, bits_putField_ne x lo w v lo' h]

theorem field_putBits_ne (x : BitVec n) (lo : Nat) {w : Nat} (v : BitVec w) (lo' w' : Nat) (h : lo' + w' ≤ lo ∨ lo + w ≤ lo') :
    field (putBits x lo v) lo' w' = field x lo' w' := by
  rw [field_eq, field_eq, bits_putBits_ne x lo v lo' h]

theorem field_zero (lo w : Nat) : field (0 : BitVec n) lo w = 0 := by
  simp [field]

theorem flag_putField_one (x : BitVec n) (i : Nat) (h : i < n) : flag (putField x i 1 1) i = true := by
  simp [flag, putField, getLsbD_putBits, h]

end Sys2Proof
end

section
/-! The copies of a trouble-log entry (R408): which copy each class of reader gets, and what the redacted copies hold. -/

namespace Sys2Proof.Machine

variable {e : BitVec 256} {p : BitVec 2} {src : Src}

/-- The copy of another partition's entry that a tenant gets (R408): TIME, SEQ and TQ, with REDACTED = 1. -/
def foreignCopy (e : BitVec 256) : BitVec 256 :=
  putField (putBits (putBits (putBits 0 192 (bits e 192 64)) 96 (bits e 96 32)) 22 (bits e 22 2)) 24 1 1

/-- The copy of a TENANT entry that the tray, companion and test classes get (R408): DETAIL and ARG zero, with REDACTED = 1. -/
def detailFreeCopy (e : BitVec 256) : BitVec 256 :=
  putField (putField (putField e 128 64 0) 32 32 0) 24 1 1

theorem redact_tenant_own (h : field e 29 3 = p.toNat ∨ field e 29 3 = 7) : redact (.tenant p) e = e := by
  simp only [redact]
  exact if_pos (by simpa using h)

theorem redact_tenant_foreign (hp : field e 29 3 ≠ p.toNat) (h7 : field e 29 3 ≠ 7) : redact (.tenant p) e = foreignCopy e := by
  simp only [redact]
  exact if_neg (by simpa using ⟨hp, h7⟩)

theorem redact_not_tenant (h : ∀ p, src ≠ .tenant p) : redact src e = if flag e 25 then detailFreeCopy e else e := by
  cases src with
  | tenant p => exact absurd rfl (h p)
  | tray | companion _ | test => rfl

theorem foreignCopy_fields (e : BitVec 256) :
    bits (foreignCopy e) 192 64 = bits e 192 64 ∧ bits (foreignCopy e) 96 32 = bits e 96 32 ∧
    bits (foreignCopy e) 22 2 = bits e 22 2 ∧ flag (foreignCopy e) 24 = true ∧
    field (foreignCopy e) 128 64 = 0 ∧ field (foreignCopy e) 25 71 = 0 ∧ field (foreignCopy e) 0 22 = 0 := by
  unfold foreignCopy
  refine ⟨?time, ?seq, ?tq, flag_putField_one _ 24 (by decide), ?detail, ?middle, ?low⟩
  case time | seq | tq => simp (disch := decide) only [bits_putField_ne, bits_putBits_ne, bits_putBits_same]
  case detail | middle | low => simp (disch := decide) only [field_putField_ne, field_putBits_ne, field_zero]

theorem detailFreeCopy_fields (e : BitVec 256) :
    field (detailFreeCopy e) 128 64 = 0 ∧ field (detailFreeCopy e) 32 32 = 0 ∧ flag (detailFreeCopy e) 24 = true ∧
    bits (detailFreeCopy e) 192 64 = bits e 192 64 ∧ bits (detailFreeCopy e) 64 64 = bits e 64 64 ∧
    bits (detailFreeCopy e) 25 7 = bits e 25 7 ∧ bits (detailFreeCopy e) 0 24 = bits e 0 24 := by
  unfold detailFreeCopy
  refine ⟨?detail, ?arg, flag_putField_one _ 24 (by decide), ?time, ?seqToRing, ?partToTenant, ?low⟩
  case detail | arg => simp (disch := decide) only [field_putField_ne, field_putField_same]
  case time | seqToRing | partToTenant | low => simp (disch := decide) only [bits_putField_ne]

theorem faultFrame_detail_arg (cause : U16) (a : LogArgs) (seq : U32) (d : U64) (x : U32) :
    faultFrame cause { a with detail := d, arg := x } seq = faultFrame cause a seq := rfl

theorem queueFault_detail_arg (s : State) (cause : U16) (a : LogArgs) (d : U64) (x : U32) :
    queueFault s cause { a with detail := d, arg := x } = queueFault s cause a := by
  simp only [queueFault, faultFrame_detail_arg]

/-- Settles O32: the class of the reader names the copy it gets, and each copy's fields are read off; a fault frame is built from CAUSE,
partition, SEVERITY and SEQ alone. -/
theorem logCopiesAreRedacted : Obligations.LogCopiesAreRedacted := by
  intro e
  refine ⟨fun p => redact_tenant_own, fun p hp h7 => ?foreign, fun src hsrc hflag => ?flagged, fun src hsrc hflag => ?unflagged,
    queueFault_detail_arg⟩
  case foreign => simpa only [redact_tenant_foreign hp h7] using foreignCopy_fields e
  case flagged => simpa only [redact_not_tenant hsrc, if_pos hflag] using detailFreeCopy_fields e
  case unflagged => rw [redact_not_tenant hsrc, if_neg (by simp [hflag])]

end Sys2Proof.Machine
end

section
/-! A table whose every entry goes through one function. -/

namespace Sys2Proof

variable {α β : Type}

theorem Tbl.get_map (f : α → β) (d : α) (t : Tbl α) (k : Nat) :
    Tbl.get (f d) (t.map fun e => (e.1, f e.2)) k = f (Tbl.get d t k) := by
  induction t with
  | nil => rfl
  | cons e t ih =>
    simp only [List.map_cons, Tbl.get, ih]
    split <;> rfl

end Sys2Proof
end

section
/-! What stands after a device reset (R432, R433), part by part: the entries that are kept, and the new values that take effect. -/

namespace Sys2Proof.Machine

variable (s : State)

theorem exec_deviceReset {s : State} (h : s.ctl = true) : exec .deviceReset s = .next (deviceReset s) :=
  congrArg Host.Outcome.next (if_pos h)

@[simp] theorem deviceReset_mode : (deviceReset s).mode = s.pendingMode.getD s.mode := rfl
@[simp] theorem deviceReset_pendingMode : (deviceReset s).pendingMode = none := rfl
@[simp] theorem deviceReset_rank : (deviceReset s).rank = s.rank := rfl
@[simp] theorem deviceReset_mem : (deviceReset s).mem = keepMem s.mem := rfl
@[simp] theorem deviceReset_svc : (deviceReset s).svc = { thresholds := s.svc.thresholds } := rfl
@[simp] theorem deviceReset_can : (deviceReset s).can =
    { arbNew := s.can.arbNew, dataNew := s.can.dataNew, arb := s.can.arbNew, data := s.can.dataNew,
      hbPeriod := s.can.hbPeriod, threshold := s.can.threshold } := rfl
@[simp] theorem deviceReset_pw_cap : (deviceReset s).pw.cap = s.pw.cap := rfl
@[simp] theorem deviceReset_pw_w : (deviceReset s).pw.w = s.pw.w := rfl

@[simp] theorem deviceReset_blockedEntry (i : Nat) : (deviceReset s).blockedEntry i = s.blockedEntry i := rfl

@[simp] theorem deviceReset_reg (i : Nat) : (deviceReset s).pw.reg i = { addr := (s.pw.reg i).addr } :=
  Tbl.get_map (fun r : Regulator => ({ addr := r.addr } : Regulator)) {} s.pw.regs i

@[simp] theorem deviceReset_ps (p : Nat) : (deviceReset s).ps p = keepPs (s.ps p) :=
  Tbl.get_map keepPs {} s.psec p

@[simp] theorem deviceReset_sched (p : Nat) : (deviceReset s).sched p =
    { sreg := (s.sched p).sregNew, sregNew := (s.sched p).sregNew, defer := (s.sched p).defer } :=
  Tbl.get_map (fun q : PartSched => ({ sreg := q.sregNew, sregNew := q.sregNew, defer := q.defer } : PartSched)) {} s.psched p

@[simp] theorem deviceReset_peer (p : Nat) : (deviceReset s).peer p = (s.peer p).formed :=
  Tbl.get_map PartPeer.formed {} s.ppeer p

@[simp] theorem deviceReset_port (j : Nat) : (deviceReset s).port j = { limit := (s.port j).limit } :=
  Tbl.get_map (fun q : Port => ({ limit := q.limit } : Port)) {} s.ports j

/-- Settles O29: each kept entry is read off the part of the state that holds it. In the tables (partitions, ports, regulators) an unlisted
number keeps its default, since what the reset does to an entry takes the default to itself. -/
theorem deviceResetKeepsConfigurationEntries : Obligations.DeviceResetKeepsConfigurationEntries := by
  intro s hctl
  refine ⟨deviceReset s, exec_deviceReset hctl, ?_⟩
  simp [keepMem, keepPs, PartPeer.formed]

end Sys2Proof.Machine
end

section
/-! One bit read beside a write. -/

namespace Sys2Proof

variable {n : Nat}

theorem flag_putBits_ne (x : BitVec n) (lo : Nat) {w : Nat} (v : BitVec w) (i : Nat) (h : i < lo ∨ lo + w ≤ i) :
    flag (putBits x lo v) i = flag x i := by
  rw [flag, flag, getLsbD_putBits, if_neg (by omega)]

theorem flag_putField_ne (x : BitVec n) (lo w v i : Nat) (h : i < lo ∨ lo + w ≤ i) : flag (putField x lo w v) i = flag x i :=
  flag_putBits_ne x lo _ i h

end Sys2Proof
end

section
/-! The IDCODE register (R453): the word by grade and revision, and what Capture-DR loads after Update-IR. -/

namespace Sys2Proof.Machine

variable (s : State)

/-- The part number of a grade (R453). -/
def partNumber : Grade → U16
  | .a => 0x0900
  | .b => 0x0901

/-- The word is the identity's: the part number of its grade below the low four bits of its revision. -/
theorem idcodeWord_eq : idcodeWord s =
    putBits (putBits (putField 1 1 11 0x57B) 12 (partNumber s.ident.grade)) 28 (bits s.ident.revision 0 4) := by
  unfold idcodeWord
  cases s.ident.grade <;> rfl

theorem idcodeWord_revision : bits (idcodeWord s) 28 4 = bits s.ident.revision 0 4 := by
  rw [idcodeWord_eq, bits_putBits_same _ 28 _ (by decide)]

theorem idcodeWord_partNumber : field (idcodeWord s) 12 16 = (partNumber s.ident.grade).toNat := by
  rw [idcodeWord_eq, field_putBits_ne _ 28 _ 12 16 (by decide), field_eq, bits_putBits_same _ 12 _ (by decide)]

theorem idcodeWord_manufacturer : field (idcodeWord s) 1 11 = 0x57B := by
  rw [idcodeWord_eq, field_putBits_ne _ 28 _ 1 11 (by decide), field_putBits_ne _ 12 _ 1 11 (by decide),
    field_putField_same _ 1 11 _ (by decide) (by decide)]

theorem idcodeWord_bit0 : flag (idcodeWord s) 0 = true := by
  rw [idcodeWord_eq, flag_putBits_ne _ 28 _ 0 (by decide), flag_putBits_ne _ 12 _ 0 (by decide), flag_putField_ne _ 1 11 _ 0 (by decide)]
  decide

/-- Update-IR leaves the fused identity alone, whatever it does to keys, links and partitions. -/
theorem loadIr_ident (code : Byte) : (loadIr s code).ident = s.ident :=
  (loadIr_frame (State.Frame.refl _ s) code (List.Subset.refl _)).ident.resolve_left (by decide)

theorem idcodeWord_congr {s t : State} (h : t.ident = s.ident) : idcodeWord t = idcodeWord s := by
  unfold idcodeWord
  rw [h]

/-- Capture-DR of IDCODE loads the word of the identity that stood before Update-IR. -/
theorem exec_idcode {s : State} (h : s.powered = true) :
    Goes (exec .idcode s) fun t => t.tap.ir = 0x03 ∧ t.tap.dr = idcodeWord s :=
  ⟨_, congrArg Host.Outcome.next (if_pos h), rfl, idcodeWord_congr (loadIr_ident s 0x03)⟩

/-- Settles O42: the register holds the word of the device's identity, whose fields are read off; revision 1 gives the two words of R453. -/
theorem idcodeRegisterHoldsPartNumber : Obligations.IdcodeRegisterHoldsPartNumber := by
  intro s hpowered
  obtain ⟨t, hstep, hir, hdr⟩ := exec_idcode hpowered
  refine ⟨t, hstep, hir, ?_⟩
  rw [hdr]
  refine ⟨idcodeWord_revision s, fun ha => ?partA, fun hb => ?partB, idcodeWord_manufacturer s, idcodeWord_bit0 s,
    fun ha h1 => ?wordA, fun hb h1 => ?wordB⟩
  case partA => rw [idcodeWord_partNumber, ha]; rfl
  case partB => rw [idcodeWord_partNumber, hb]; rfl
  case wordA => rw [idcodeWord_eq, ha, h1]; decide
  case wordB => rw [idcodeWord_eq, hb, h1]; decide

end Sys2Proof.Machine
end
